-- ==== Sys2Proof/Word.lean ====
section
/-! DEFINITION. Word types of the Niruo instruction set and their plainest arithmetic (00 R5, 04 R79). -/

namespace Sys2Proof

/-- One byte of memory. -/
abbrev Byte := BitVec 8
/-- A 32-bit word: an instruction word, a g-register. -/
abbrev Word := BitVec 32
/-- A 64-bit doubleword: an s-register, an address. -/
abbrev DWord := BitVec 64
/-- A 64-byte line, byte 0 in bits [7:0] (R5, R83). -/
abbrev Line := BitVec 512

/-- Bits [lo + len - 1 : lo] of a natural number. -/
def bitsOf (x lo len : Nat) : Nat := (x >>> lo) % 2 ^ len

/-- Bit n of a natural number. -/
def bitOf (x n : Nat) : Bool := (x >>> n) % 2 == 1

end Sys2Proof
end

