-- ==== Sys2Proof/Machine/Float.lean ====
section
/-! DEFINITION. Floating-point formats, exact values, rounding, the arithmetic of special values, conversion,
codebooks and the exact accumulator line (04 R76 to R98). Every finite value of a format is a whole number of
its least subnormal, so exact arithmetic is arithmetic of naturals and integers. -/

namespace Sys2Proof.Machine

/-- A floating-point format: fraction bits, exponent bits and bias (R76). -/
structure Fmt where
  frac : Nat
  ebits : Nat
  bias : Nat
  deriving DecidableEq, Repr

def fp64 : Fmt := { frac := 52, ebits := 11, bias := 1023 }
def fp32 : Fmt := { frac := 23, ebits := 8, bias := 127 }
def fp16 : Fmt := { frac := 10, ebits := 5, bias := 15 }
def bf16 : Fmt := { frac := 7, ebits := 8, bias := 127 }

/-- The all-ones exponent. -/
def Fmt.emax (f : Fmt) : Nat := 2 ^ f.ebits - 1
/-- The least subnormal is 2^−unit. -/
def Fmt.unit (f : Fmt) : Nat := f.bias + f.frac - 1
/-- The bits of +∞. -/
def Fmt.inf (f : Fmt) : Nat := f.emax * 2 ^ f.frac
/-- The canonical NaN (R76). -/
def Fmt.nan (f : Fmt) : Nat := f.inf + 2 ^ (f.frac - 1)
/-- The sign bit as a value. -/
def Fmt.signBit (f : Fmt) (neg : Bool) : Nat := if neg then 2 ^ (f.frac + f.ebits) else 0
/-- The greatest finite magnitude. -/
def Fmt.greatest (f : Fmt) : Nat := f.inf - 1

/-- A decoded value: a finite one is (−1)^neg × k × 2^−unit of its format (R77). -/
inductive FVal where
  | nan
  | inf (neg : Bool)
  | fin (neg : Bool) (k : Nat)
  deriving DecidableEq, Repr

/-- Decode the bits of a format (R77). -/
def Fmt.decode (f : Fmt) (bits : Nat) : FVal :=
  let neg := bitOf bits (f.frac + f.ebits)
  let e := bitsOf bits f.frac f.ebits
  let m := bitsOf bits 0 f.frac
  if e = f.emax then (if m = 0 then .inf neg else .nan)
  else if e = 0 then .fin neg m
  else .fin neg ((2 ^ f.frac + m) * 2 ^ (e - 1))

/-- The rounding modes by their code (03 R54): 0 nearest even, 1 toward zero, 2 up, 3 down. -/
def roundsUp (rm : Nat) (neg : Bool) (k r d : Nat) : Bool :=
  match rm with
  | 0 => d < 2 * r || (2 * r == d && k % 2 == 1)
  | 1 => false
  | 2 => r != 0 && !neg
  | _ => r != 0 && neg

/-- Round n ÷ d to an integer magnitude (RoundInt of R87). -/
def roundQuot (rm : Nat) (neg : Bool) (n d : Nat) : Nat :=
  let k := n / d
  if roundsUp rm neg k (n % d) d then k + 1 else k

/-- The bits of what lies beyond the greatest finite magnitude (R87.3). -/
def Fmt.overflow (f : Fmt) (rm : Nat) (neg : Bool) : Nat :=
  f.signBit neg + match rm with
    | 0 => f.inf
    | 1 => f.greatest
    | 2 => if neg then f.greatest else f.inf
    | _ => if neg then f.inf else f.greatest

/-- Round((−1)^neg × n ÷ d, fmt, rm) of R87; n ÷ d counts units of 1. A zero keeps the sign. -/
def Fmt.round (f : Fmt) (rm : Nat) (neg : Bool) (n d : Nat) : Nat :=
  if n = 0 then f.signBit neg
  else
    -- in units of the least subnormal
    let num := n * 2 ^ f.unit
    -- the exponent of the binade above the subnormals: 2^e ≤ value ÷ unit < 2^(e + 1)
    let e0 := (num / d).log2
    let sh := e0 - f.frac
    let k := roundQuot rm neg num (d * 2 ^ sh)
    let bits := sh * 2 ^ f.frac + k
    if f.inf ≤ bits then f.overflow rm neg else f.signBit neg + bits

/-- Round a signed exact value z ÷ d; an exact zero takes the sign given (R91). -/
def Fmt.roundInt (f : Fmt) (rm : Nat) (zeroNeg : Bool) (z : Int) (d : Nat) : Nat :=
  if z = 0 then f.signBit zeroNeg else f.round rm (z < 0) z.natAbs d

/-- The signed number of units of a finite value. -/
def signedUnits (neg : Bool) (k : Nat) : Int := if neg then -(k : Int) else k

/-- The sign of an exact zero sum (R91). -/
def zeroSumNeg (rm : Nat) (na nb : Bool) : Bool := if na == nb then na else rm == 3

/-- Sum of two values, in a format (R91, R92). -/
def Fmt.add (f : Fmt) (rm : Nat) (a b : Nat) : Nat :=
  match f.decode a, f.decode b with
  | .nan, _ | _, .nan => f.nan
  | .inf x, .inf y => if x == y then f.signBit x + f.inf else f.nan
  | .inf x, .fin .. | .fin .., .inf x => f.signBit x + f.inf
  | .fin x k, .fin y l => f.roundInt rm (zeroSumNeg rm x y) (signedUnits x k + signedUnits y l) (2 ^ f.unit)

/-- The bits with the sign inverted. -/
def Fmt.neg (f : Fmt) (a : Nat) : Nat := a ^^^ 2 ^ (f.frac + f.ebits)

def Fmt.sub (f : Fmt) (rm : Nat) (a b : Nat) : Nat := f.add rm a (f.neg b)

/-- Product (R91, R92). -/
def Fmt.mul (f : Fmt) (rm : Nat) (a b : Nat) : Nat :=
  match f.decode a, f.decode b with
  | .nan, _ | _, .nan => f.nan
  | .inf x, .inf y => f.signBit (x != y) + f.inf
  | .inf x, .fin y k | .fin y k, .inf x => if k = 0 then f.nan else f.signBit (x != y) + f.inf
  | .fin x k, .fin y l => f.round rm (x != y) (k * l) (2 ^ (2 * f.unit))

/-- a × b + d rounded once (R91, R92). -/
def Fmt.fma (f : Fmt) (rm : Nat) (a b d : Nat) : Nat :=
  let prodInf (s : Bool) : Nat :=
    match f.decode d with
    | .nan => f.nan
    | .inf z => if z == s then f.signBit s + f.inf else f.nan
    | .fin .. => f.signBit s + f.inf
  match f.decode a, f.decode b, f.decode d with
  | .nan, _, _ | _, .nan, _ => f.nan
  | .inf x, .inf y, _ => prodInf (x != y)
  | .inf x, .fin y k, _ | .fin y k, .inf x, _ => if k = 0 then f.nan else prodInf (x != y)
  | .fin .., .fin .., .nan => f.nan
  | .fin .., .fin .., .inf z => f.signBit z + f.inf
  | .fin x k, .fin y l, .fin z m =>
    f.roundInt rm (zeroSumNeg rm (x != y) z)
      (signedUnits (x != y) (k * l) + signedUnits z (m * 2 ^ f.unit)) (2 ^ (2 * f.unit))

/-- Quotient, nearest even (R94). -/
def Fmt.div (f : Fmt) (a b : Nat) : Nat :=
  match f.decode a, f.decode b with
  | .nan, _ | _, .nan => f.nan
  | .inf _, .inf _ => f.nan
  | .inf x, .fin y _ => f.signBit (x != y) + f.inf
  | .fin x _, .inf y => f.signBit (x != y)
  | .fin x k, .fin y l =>
    if l = 0 then (if k = 0 then f.nan else f.signBit (x != y) + f.inf) else f.round 0 (x != y) k l

/-- Integer square root, one bit of the root at a time from bit n − 1. -/
def isqrtFrom (x : Nat) : Nat → Nat → Nat
  | 0, r => r
  | n + 1, r => isqrtFrom x n (let t := r + 2 ^ n; if t * t ≤ x then t else r)

/-- The integer square root. -/
def isqrt (x : Nat) : Nat := isqrtFrom x (x.log2 / 2 + 1) 0

/-- Square root in a mode (R94): the root is computed with 64 bits more than the unit and one sticky bit. -/
def Fmt.sqrt (f : Fmt) (rm : Nat) (a : Nat) : Nat :=
  match f.decode a with
  | .nan => f.nan
  | .inf x => if x then f.nan else f.inf
  | .fin x k =>
    if k = 0 then f.signBit x
    else if x then f.nan
    else
      let y := k * 2 ^ (f.unit + 128)
      let r := isqrt y
      f.round rm false (2 * r + (if r * r = y then 0 else 1)) (2 ^ (f.unit + 65))

/-- Which of two values is less, none if either is NaN; −0 equals +0 (R93). -/
def Fmt.cmp (f : Fmt) (a b : Nat) : Option Ordering :=
  match f.decode a, f.decode b with
  | .nan, _ | _, .nan => none
  | .inf x, .inf y => some (if x == y then .eq else if x then .lt else .gt)
  | .inf x, .fin .. => some (if x then .lt else .gt)
  | .fin .., .inf y => some (if y then .gt else .lt)
  | .fin x k, .fin y l => some (compare (signedUnits x k) (signedUnits y l))

/-- FMIN and FMAX return an operand (R93). -/
def Fmt.minMax (f : Fmt) (max : Bool) (a b : Nat) : Nat :=
  match f.decode a, f.decode b with
  | .nan, .nan => f.nan
  | .nan, _ => b
  | _, .nan => a
  | _, _ =>
    match f.cmp a b with
    | some .lt => if max then b else a
    | some .gt => if max then a else b
    | _ => if bitOf a (f.frac + f.ebits) == max then b else a

/-- RoundInt as a value of the format (R131): a zero takes the sign of the operand. -/
def Fmt.rnd (f : Fmt) (rm : Nat) (a : Nat) : Nat :=
  match f.decode a with
  | .nan => f.nan
  | .inf x => f.signBit x + f.inf
  | .fin x k => f.round rm x (roundQuot rm x k (2 ^ f.unit)) 1

/-- The class bit of FCLASS (R131). -/
def Fmt.classBit (f : Fmt) (a : Nat) : Nat :=
  let neg := bitOf a (f.frac + f.ebits)
  let e := bitsOf a f.frac f.ebits
  let m := bitsOf a 0 f.frac
  if e = f.emax then
    if m = 0 then (if neg then 0 else 7) else if bitOf m (f.frac - 1) then 9 else 8
  else if e = 0 then
    if m = 0 then (if neg then 3 else 4) else (if neg then 2 else 5)
  else (if neg then 1 else 6)

/-- From one format to another (R95): exact or rounded. -/
def Fmt.convert (dst src : Fmt) (rm : Nat) (a : Nat) : Nat :=
  match src.decode a with
  | .nan => dst.nan
  | .inf x => dst.signBit x + dst.inf
  | .fin x k => dst.round rm x k (2 ^ src.unit)

/-- Saturate to a signed integer of w bits. -/
def saturate (w : Nat) (z : Int) : Int := max (-(2 ^ (w - 1) : Nat)) (min z ((2 ^ (w - 1) : Nat) - 1))

/-- From a format to an integer of w bits (R95). -/
def Fmt.toInt (f : Fmt) (w rm : Nat) (a : Nat) : Int :=
  match f.decode a with
  | .nan => 0
  | .inf x => if x then -(2 ^ (w - 1) : Nat) else (2 ^ (w - 1) : Nat) - 1
  | .fin x k => saturate w (signedUnits x (roundQuot rm x k (2 ^ f.unit)))

/-- From an integer to a format (R95). -/
def Fmt.ofInt (f : Fmt) (rm : Nat) (z : Int) : Nat := f.roundInt rm false z 1

/-- a × 2^l for a signed l, rounded nearest even; specials pass (R142, R143). -/
def Fmt.scale (dst src : Fmt) (a : Nat) (l : Int) : Nat :=
  match src.decode a with
  | .nan => dst.nan
  | .inf x => dst.signBit x + dst.inf
  | .fin x k =>
    if 0 ≤ l then dst.round 0 x (k * 2 ^ l.toNat) (2 ^ src.unit)
    else dst.round 0 x k (2 ^ (src.unit + (-l).toNat))

/-- Elementwise on a packed pair (R78). -/
def packed (op : Nat → Nat → Nat → Nat) (a b d : Nat) : Nat :=
  op (a % 65536) (b % 65536) (d % 65536) + 65536 * op (a / 65536 % 65536) (b / 65536 % 65536) (d / 65536 % 65536)

/-! ### Codebooks (R80, R81) -/

/-- Entry c of a codebook. -/
def cbEntry (cb : BitVec 256) (c : Nat) : Nat := bitsOf cb.toNat (16 * c) 16

/-- The first index below n, counting up, that satisfies a test. -/
def firstIdx (n : Nat) (p : Nat → Bool) : Nat := ((List.range n).find? p).getD 0

/-- A BF16 entry as a signed number of units; none for NaN, ±∞ as a sign. -/
def cbVal (e : Nat) : FVal := bf16.decode e

/-- The code of an exact value x = (−1)^neg × n ÷ d against a codebook, or of an infinity or NaN (R81).
Distances are compared over the common denominator d × 2^unit. -/
def cbEncode (entries : List Nat) (x : FVal) (d : Nat) : Nat :=
  let vals := entries.map cbVal
  let val (i : Nat) : FVal := vals.getD i .nan
  let idx := List.range 16
  let isNan (i : Nat) : Bool := val i == .nan
  let cmpAll (le : Nat → Nat → Bool) : Nat :=
    firstIdx 16 fun i => !isNan i && idx.all fun j => isNan j || le i j
  let ord (i j : Nat) : Ordering := (bf16.cmp (entries.getD i 0) (entries.getD j 0)).getD .eq
  let mag (i : Nat) : Option Nat := match val i with | .fin _ k => some k | _ => none
  let leOpt (a b : Option Nat) : Bool :=
    match a, b with | _, none => true | none, some _ => false | some p, some q => p ≤ q
  match x with
  | .nan =>
    if idx.any isNan then firstIdx 16 isNan else cmpAll fun i j => leOpt (mag i) (mag j)
  | .inf neg => cmpAll fun i j => if neg then ord i j != .gt else ord i j != .lt
  | .fin neg n =>
    let dist (i : Nat) : Option Nat :=
      match val i with
      | .fin s k => some (signedUnits neg (n * 2 ^ bf16.unit) - signedUnits s (k * d)).natAbs
      | _ => none
    cmpAll fun i j => leOpt (dist i) (dist j)

/-! ### The exact accumulator line (R83 to R85) -/

/-- XalAdd (R84). -/
def xalAdd (line : Line) (x : Nat) : Line :=
  let l := line.toNat % 2 ^ 452
  let set (n : Nat) : Nat := if bitOf l n then l else l + 2 ^ n
  match fp32.decode x with
  | .nan => BitVec.ofNat 512 (set 448)
  | .inf neg => BitVec.ofNat 512 (set (if neg then 450 else 449))
  | .fin neg k =>
    let s := (BitVec.ofNat 448 l).toInt + signedUnits neg k
    let out := s < -(2 ^ 447 : Nat) || (2 ^ 447 : Nat) ≤ s
    let l' := if out then set 451 else l
    BitVec.ofNat 512 (l' / 2 ^ 448 * 2 ^ 448 + (BitVec.ofInt 448 s).toNat)

/-- XalRound (R85). -/
def xalRound (line : Line) (f : Fmt) : Nat :=
  let l := line.toNat
  if bitOf l 448 || bitOf l 451 || (bitOf l 449 && bitOf l 450) then f.nan
  else if bitOf l 449 then f.inf
  else if bitOf l 450 then f.signBit true + f.inf
  else f.roundInt 0 false (BitVec.ofNat 448 l).toInt (2 ^ 149)

/-! ### The canonical tree (R96) -/

/-- One level: neighbours combined. -/
def treeLevel (op : Nat → Nat → Nat) : List Nat → List Nat
  | x :: y :: t => op x y :: treeLevel op t
  | l => l

/-- n levels of the tree over 2^n elements. -/
def treeReduce (op : Nat → Nat → Nat) : Nat → List Nat → Nat
  | 0, l => l.headD 0
  | n + 1, l => treeReduce op n (treeLevel op l)

/-- The number of levels for n elements. -/
def treeLevels (n : Nat) : Nat := if n ≤ 1 then 0 else (n - 1).log2 + 1

/-- CanonicalReduce with the identity filling up to a power of two (R96). -/
def canonicalReduce (op : Nat → Nat → Nat) (identity : Nat) (v : List Nat) : Nat :=
  let k := treeLevels v.length
  treeReduce op k (v ++ List.replicate (2 ^ k - v.length) identity)

end Sys2Proof.Machine
end

