-- ==== Sys2Proof/Syntax.lean ====
section
/-! DEFINITION. The one inductive of instructions and steps: one constructor for each row of
spec/opcode_table.json. The first 197 are instruction words as a slot of a bundle holds them after the
extension field of the header has been applied (02 R36 to R38): a register field has seven bits, an
immediate says whether eight bits were lent to it. The last 89 are the steps of the device's own agents
and of the outside world (95_what_each_step_holds.md); their arguments name which occurrence is meant. -/

namespace Sys2Proof

/-- Guard field [26:21] (R40). -/
abbrev Guard := BitVec 6
/-- Register number after R36 and R37: g0 to g127, or s0 to s63. -/
abbrev Reg := BitVec 7
/-- A field that names a predicate, a block or a slot number. -/
abbrev F6 := BitVec 6

/-- An immediate of n bits in the word, or of n + 8 bits with eight bits lent by the header (R38). -/
inductive Imm (n : Nat) where
  | short (i : BitVec n)
  | long (i : BitVec (n + 8))
  deriving DecidableEq, Repr

/-- The lent offset of the mem and atom formats, in units of the access size (R38); none without XM = 10. -/
abbrev Off := Option (BitVec 8)

/-- What a host agent asks of a home (22 R339). -/
inductive HostReq where
  | read
  | own
  | write (data : Line)
  | evict (data : Line)
  deriving DecidableEq, Repr

/-- A firmware image as boot sees it (25 R379): the digest of its public key, the digest of the image,
its signature and its version. -/
structure FwImage where
  keyHash : BitVec 256
  digest : BitVec 256
  signature : BitVec 3072
  version : BitVec 64
  deriving DecidableEq, Repr, Inhabited

/-- One constructor per row of the opcode table. -/
inductive Instr where
  -- major 0001, INT (R52)
  | iadd (g : Guard) (d a b : Reg)
  | isub (g : Guard) (d a b : Reg)
  | imul (g : Guard) (d a b : Reg)
  | imad (g : Guard) (d a b : Reg)
  | icmp (g : Guard) (x y : Reg) (hc : BitVec 2) (k : BitVec 4)
  | icmpD (g : Guard) (x y : Reg) (hc : BitVec 2) (k : BitVec 4)
  | iand (g : Guard) (d a : Reg)
  | ior (g : Guard) (d a : Reg)
  | ixor (g : Guard) (d a : Reg)
  | ishl (g : Guard) (d a : Reg)
  | ishr (g : Guard) (d a : Reg)
  | isra (g : Guard) (d a : Reg)
  | imin (g : Guard) (d a : Reg)
  | imax (g : Guard) (d a : Reg)
  | iminu (g : Guard) (d a : Reg)
  | imaxu (g : Guard) (d a : Reg)
  | imulh (g : Guard) (d a : Reg)
  | imulhu (g : Guard) (d a : Reg)
  | iabs (g : Guard) (d a : Reg)
  | popc (g : Guard) (d a : Reg)
  | clz (g : Guard) (d a : Reg)
  | brev (g : Guard) (d a : Reg)
  | bfe (g : Guard) (d a : Reg)
  | bfi (g : Guard) (d a : Reg)
  | lea (g : Guard) (d a : Reg) (k : BitVec 3)
  | plop (g : Guard) (d a : F6) (t : BitVec 4)
  | pset (g : Guard) (d : F6) (a : Reg)
  | p2g (g : Guard) (d : Reg) (blk : F6)
  | g2p (g : Guard) (blk : F6) (a : Reg)
  | iaddD (g : Guard) (d a : Reg)
  -- major 0010, INTI (R53)
  | iaddImm (g : Guard) (d a : Reg) (i : Imm 6)
  | ishlImm (g : Guard) (d a : Reg) (i : Imm 6)
  | ishrImm (g : Guard) (d a : Reg) (i : Imm 6)
  | israImm (g : Guard) (d a : Reg) (i : Imm 6)
  | iandImm (g : Guard) (d a : Reg) (i : Imm 6)
  | isel (g : Guard) (d a : Reg) (p : F6)
  | movi (g : Guard) (d : Reg) (i : Imm 12)
  | movh (g : Guard) (d : Reg) (i : BitVec 12)
  | movh20 (g : Guard) (d : Reg) (i : BitVec 20)
  -- major 0011, FP32 and packed halves (R54)
  | fadd (g : Guard) (d a b : Reg)
  | fsub (g : Guard) (d a b : Reg)
  | fmul (g : Guard) (d a b : Reg)
  | ffma (g : Guard) (d a b : Reg)
  | ffms (g : Guard) (d a b : Reg)
  | pkfmaF16 (g : Guard) (d a b : Reg)
  | pkfmaBf16 (g : Guard) (d a b : Reg)
  | fmin (g : Guard) (d a : Reg)
  | fmax (g : Guard) (d a : Reg)
  | pkaddF16 (g : Guard) (d a : Reg)
  | pkaddBf16 (g : Guard) (d a : Reg)
  | frnd (g : Guard) (d a : Reg) (rm : BitVec 2)
  | fclass (g : Guard) (d a : Reg)
  | faddRm (g : Guard) (d a : Reg) (rm : BitVec 2)
  | fsubRm (g : Guard) (d a : Reg) (rm : BitVec 2)
  | fmulRm (g : Guard) (d a : Reg) (rm : BitVec 2)
  -- major 0100, FP64, division, square root (R55)
  | dadd (g : Guard) (d a b : Reg)
  | dmul (g : Guard) (d a b : Reg)
  | dfma (g : Guard) (d a b : Reg)
  | ddiv (g : Guard) (d a b : Reg)
  | fdiv (g : Guard) (d a b : Reg)
  | dcmp (g : Guard) (x y : Reg) (hc : BitVec 2) (k : BitVec 4)
  | dmin (g : Guard) (d a : Reg)
  | dmax (g : Guard) (d a : Reg)
  | daddRm (g : Guard) (d a : Reg) (rm : BitVec 2)
  | dmulRm (g : Guard) (d a : Reg) (rm : BitVec 2)
  | dsqrt (g : Guard) (d a : Reg) (rm : BitVec 2)
  | fsqrt (g : Guard) (d a : Reg) (rm : BitVec 2)
  -- major 1110, special functions, conversion, quantisation (R56)
  | fexp2 (g : Guard) (d a : Reg)
  | flog2 (g : Guard) (d a : Reg)
  | fsin (g : Guard) (d a : Reg)
  | fcos (g : Guard) (d a : Reg)
  | frcp (g : Guard) (d a : Reg)
  | frsq (g : Guard) (d a : Reg)
  | fcmp (g : Guard) (x y : Reg) (hc : BitVec 2) (k : BitVec 4)
  | qmax (g : Guard) (a : Reg) (j : BitVec 3)
  | qcvtI8 (g : Guard) (d a : Reg)
  | qcvtCb4 (g : Guard) (d a : Reg)
  | dqI8 (g : Guard) (d a : Reg)
  | dqCb4 (g : Guard) (d a : Reg)
  | cbsel (g : Guard) (d a : Reg)
  | cvt (g : Guard) (rm : BitVec 2) (d a : Reg) (dst src : BitVec 3)
  -- major 0101, XLANE (R59)
  | shflIdx (g : Guard) (d a : Reg) (j : BitVec 3)
  | shflUp (g : Guard) (d a : Reg) (j : BitVec 3)
  | shflDown (g : Guard) (d a : Reg) (j : BitVec 3)
  | shflXor (g : Guard) (d a : Reg) (j : BitVec 3)
  | voteAny (g : Guard) (d a : F6) (j : BitVec 3)
  | voteAll (g : Guard) (d a : F6) (j : BitVec 3)
  | voteBallot (g : Guard) (d : Reg) (a : F6) (j : BitVec 3)
  | matchLanes (g : Guard) (d a : Reg) (j : BitVec 3)
  | scanAdd (g : Guard) (d a : Reg) (j : BitVec 3)
  | scanAddEx (g : Guard) (d a : Reg) (j : BitVec 3)
  | redAdd (g : Guard) (d a : Reg) (j : BitVec 3)
  | redMin (g : Guard) (d a : Reg) (j : BitVec 3)
  | redMax (g : Guard) (d a : Reg) (j : BitVec 3)
  | fredAdd (g : Guard) (d a : Reg) (j : BitVec 3)
  | jset (g : Guard) (a : Reg) (j : BitVec 3)
  | jsetGrp (g : Guard) (j : BitVec 3)
  | join (g : Guard) (j : BitVec 3)
  -- majors 0110 and 0111, LD and ST (R60)
  | ldg (g : Guard) (d a : Reg) (sz : BitVec 3) (off : Off)
  | lds (g : Guard) (d a : Reg) (sz : BitVec 3) (off : Off)
  | lda (g : Guard) (d a : Reg) (w : BitVec 1) (scp : BitVec 2) (off : Off)
  | pref (g : Guard) (a : Reg) (m : BitVec 1) (off : Off)
  | cinv (g : Guard) (a : Reg) (scp : BitVec 2) (off : Off)
  | cpin (g : Guard) (a : Reg) (off : Off)
  | cunpin (g : Guard) (a : Reg) (off : Off)
  | stg (g : Guard) (d a : Reg) (sz : BitVec 3) (off : Off)
  | sts (g : Guard) (d a : Reg) (sz : BitVec 3) (off : Off)
  | stgRel (g : Guard) (d a : Reg) (w : BitVec 1) (scp : BitVec 2) (off : Off)
  | stc (g : Guard) (d a : Reg)
  -- major 1000, ATOM (R61)
  | atomAdd (g : Guard) (d a : Reg) (ord scp : BitVec 2) (w : BitVec 1) (off : Off)
  | atomMin (g : Guard) (d a : Reg) (ord scp : BitVec 2) (w : BitVec 1) (off : Off)
  | atomMax (g : Guard) (d a : Reg) (ord scp : BitVec 2) (w : BitVec 1) (off : Off)
  | atomAnd (g : Guard) (d a : Reg) (ord scp : BitVec 2) (w : BitVec 1) (off : Off)
  | atomOr (g : Guard) (d a : Reg) (ord scp : BitVec 2) (w : BitVec 1) (off : Off)
  | atomXor (g : Guard) (d a : Reg) (ord scp : BitVec 2) (w : BitVec 1) (off : Off)
  | xchg (g : Guard) (d a : Reg) (ord scp : BitVec 2) (w : BitVec 1) (off : Off)
  | cas (g : Guard) (d a : Reg) (ord scp : BitVec 2) (w : BitVec 1) (off : Off)
  | xadd (g : Guard) (d a : Reg) (ord scp : BitVec 2) (off : Off)
  | xrd (g : Guard) (d a : Reg) (ord scp : BitVec 2) (off : Off)
  | xrd64 (g : Guard) (d a : Reg) (ord scp : BitVec 2) (off : Off)
  | xclr (g : Guard) (d a : Reg) (ord scp : BitVec 2) (off : Off)
  | atomsAdd (g : Guard) (d a : Reg) (w : BitVec 1) (off : Off)
  | atomsMin (g : Guard) (d a : Reg) (w : BitVec 1) (off : Off)
  | atomsMax (g : Guard) (d a : Reg) (w : BitVec 1) (off : Off)
  | atomsAnd (g : Guard) (d a : Reg) (w : BitVec 1) (off : Off)
  | atomsOr (g : Guard) (d a : Reg) (w : BitVec 1) (off : Off)
  | atomsXor (g : Guard) (d a : Reg) (w : BitVec 1) (off : Off)
  | atomsXchg (g : Guard) (d a : Reg) (w : BitVec 1) (off : Off)
  | atomsCas (g : Guard) (d a : Reg) (w : BitVec 1) (off : Off)
  -- major 1001, SYNC (R62)
  | fenceAcq (g : Guard) (scp : BitVec 2)
  | fenceRel (g : Guard) (scp : BitVec 2)
  | fenceAr (g : Guard) (scp : BitVec 2)
  | drain (g : Guard)
  | waitc (g : Guard) (k n : F6)
  | bar (g : Guard)
  | gbara (g : Guard) (a : Reg)
  | gbarw (g : Guard) (a : Reg)
  | awinit (g : Guard) (d a : Reg)
  | awadd (g : Guard) (d a : Reg)
  | awwait (g : Guard) (d : Reg) (h : BitVec 1)
  | awtest (g : Guard) (k : F6) (a : Reg)
  -- major 1010, BR (R63)
  | bra (g : Guard) (o : Imm 18)
  | call (g : Guard) (o : Imm 18)
  | brx (g : Guard) (a : Reg)
  | callx (g : Guard) (a : Reg)
  | ret (g : Guard)
  | exit (g : Guard)
  | nop (g : Guard)
  | endl (g : Guard)
  | brk (g : Guard)
  | loopLc0 (g : Guard) (a : Reg) (o : Imm 12)
  | loopLc1 (g : Guard) (a : Reg) (o : Imm 12)
  | loopp (g : Guard) (a : Reg) (t : BitVec 2) (o : BitVec 10)
  | item (g : Guard) (a : Reg) (o : Imm 12)
  -- major 1011, ENG (R64)
  | cpy (g : Guard) (a : Reg)
  | cpyTag (g : Guard) (a : Reg)
  | cpys (g : Guard) (d a : Reg)
  | gath (g : Guard) (a : Reg) (e : BitVec 2)
  | mxcfg (g : Guard) (a : Reg)
  | mxshape (g : Guard) (a : Reg)
  | mxldw (g : Guard) (a : Reg)
  | mxq (g : Guard) (a : Reg)
  | mxdrain (g : Guard)
  | cbload (g : Guard) (n : F6) (a : Reg)
  | ntake (g : Guard)
  | npass (g : Guard)
  | ntest (g : Guard) (d : Reg)
  | ray (g : Guard) (a : Reg)
  | rayAny (g : Guard) (a : Reg)
  | ovlp (g : Guard) (a : Reg)
  | refit (g : Guard) (a : Reg)
  | draw (g : Guard) (a : Reg)
  | drawEz (g : Guard) (a : Reg)
  -- major 1100, TASK (R65)
  | tenq (g : Guard) (a : Reg)
  | tdec (g : Guard) (a : Reg)
  | lnch (g : Guard) (d a : Reg)
  | iqpush (g : Guard) (a : Reg)
  | wave (g : Guard) (d a b : Reg)
  | iqclose (g : Guard)
  | wavew (g : Guard)
  | setdl (g : Guard) (a : Reg)
  | restag (g : Guard) (d a : Reg)
  | resq (g : Guard) (d a : Reg)
  | resdrop (g : Guard) (a : Reg)
  -- major 1101, SYS (R66)
  | movsr (g : Guard) (d : Reg) (f : F6)
  | csrr (g : Guard) (d : Reg) (c : BitVec 12)
  | csrw (g : Guard) (d : Reg) (c : BitVec 12)
  | svc (g : Guard) (d a : Reg)
  | trap (g : Guard) (a : Reg)
  | eret (g : Guard)
  | wfe (g : Guard)
  | evsig (g : Guard) (a : Reg)
  | tlbinv (g : Guard) (a : Reg)
  | own (g : Guard) (a : Reg)
  | ctxsv (g : Guard) (a : Reg)
  | ctxld (g : Guard) (a : Reg)
  -- the one-word bundle of P = 000 (R31)
  | emptyBundle (e : BitVec 4) (y m : BitVec 1) (w : BitVec 4) (x : BitVec 14)
  -- steps of the device's own agents
  | taskYield (core ctx : Nat)
  | coreCycle (core : Nat)
  | gbarBatchAdmit (gen : Nat)
  | loadReturn (core id : Nat) (uncorrectable : Bool)
  | homeWrite (core id : Nat)
  | homeRead (core id : Nat)
  | invalidationAck (msg : Nat)
  | castArrive (msg : Nat)
  | invalidationArrive (msg : Nat)
  | castInstalledReply (msg : Nat)
  | castRefusedReply (msg : Nat)
  | evictionReport (msg : Nat)
  | stcCompletion (msg : Nat)
  | gaugeRateWindow (core : Nat)
  | copyPieceLand (core op len : Nat) (uncorrectable : Bool)
  | copySuspend (core op : Nat)
  | gatherFetchIssue (core op : Nat)
  | gatherElementReturn (core op i : Nat) (uncorrectable : Bool)
  | mxshapeExecute (core : Nat)
  | mxldwComplete (core : Nat) (uncorrectable : Bool)
  | tileTaskStart (core : Nat)
  | tileTaskComplete (core : Nat) (uncorrectable : Bool)
  | cbloadComplete (core id : Nat)
  | rayQueryComplete (core op : Nat) (uncorrectable : Bool)
  | ovlpQueryComplete (core op : Nat) (uncorrectable : Bool)
  | refitNode (core op : Nat) (uncorrectable : Bool)
  | drawQuadPush (die op tile : Nat) (uncorrectable : Bool)
  | drawComplete (die op : Nat)
  | dispatchStep (die : Nat)
  | launchAccept (die : Nat)
  | readyListAgeing (die : Nat)
  | spill (core ctx : Nat)
  | spillComplete (core ctx : Nat)
  | launchComplete (slot : Nat)
  | dispatcherAccessFault (die id : Nat)
  | trapDelivery (core ctx : Nat)
  | watchdogExpiry (core ctx : Nat)
  | pageFaultService (id : Nat)
  | pageFaultServiceDone (id : Nat)
  | faultRingAppend (id : Nat)
  | pfrespRetry (seq : BitVec 32)
  | pfrespFail (seq : BitVec 32)
  | pkillGo (mask : BitVec 8)
  | partitionKillDone (p : Nat)
  | tokenRefill
  | throttleQuarter
  | qosregWrite (n : Nat) (dw : BitVec 1) (v : BitVec 64)
  | headurgWrite (h : Nat) (v : BitVec 64)
  | plcmapWrite (i : Nat) (v : BitVec 64)
  | plcmapScrubDone (pair : Nat)
  | clprofWrite (n : Nat) (v : BitVec 64)
  | lendingTableWrite (n : Nat) (dw : BitVec 1) (v : BitVec 64)
  | lendStep
  | arrayEnergyPeriod (core : Nat)
  | lenderWake (cluster : Nat)
  | lendRecallDone (cluster : Nat)
  | hlqTailWrite (p : Nat) (v : BitVec 64)
  | owncmdGo (v : BitVec 64)
  | transferComplete (region : Nat)
  | hostRequest (agent line : Nat) (r : HostReq)
  | hostRecallReply (agent line : Nat) (data : Line)
  | ownerLostTimeout (line : Nat)
  | reclaimGo (v : BitVec 64)
  | migStart (k : Nat)
  | migCopyDone (k : Nat)
  | migSwitch (k : Nat)
  | migRelease (k : Nat)
  | pctlEnWrite (p : Nat) (v : BitVec 64)
  | keynew (p : Nat)
  | keynewDone (p : Nat)
  | prootWrite (v : BitVec 64)
  | modeWrite
  | savebaseWrite (v : BitVec 64)
  | fwctlSwitchRequest (v : BitVec 64)
  | fwSwitchComplete
  | svcStorageWrite (die n lane : Nat)
  | svcStorageRead (die n lane : Nat)
  | svcFlush (die n lane : Nat)
  | svcAttestationReport (die n lane : Nat)
  | svcrespWrite (die : Nat) (v : BitVec 64)
  | mextgoWrite (die : Nat) (v : BitVec 64)
  | coldReset
  | powerFail
  | ucieModuleTrainFail (y : Nat)
  | registerWrite (off : Nat) (v : BitVec 64)
  | scanOutLine (head bytes refill : Nat)
  | reclaimDone
  | firmwareSlotLoad (slot : Nat) (image : FwImage)
  | tlbInvalidationDone (core ctx : Nat)
  deriving DecidableEq, Repr, Inhabited

end Sys2Proof
end

