-- ==== Sys2Proof/WellFormed.lean ====
section
/-! DEFINITION. What the opcode map fixes of every instruction: its major, its executors, its class and
weight, its marker (03 R52 to R66), the registers and predicates it reads and writes (03 R67, R68), its
issue distance (05 R241), and when an instruction is well formed. -/

namespace Sys2Proof

/-- Who fetches a bundle (02): a lead strand or a thread. -/
inductive Executor where
  | lead
  | thread
  deriving DecidableEq, Repr

/-- One row of the opcode map: major, executors, timing class, default weight, implicit marker,
privilege, and whether the form joins on a rejoin mask (R59, R140). -/
structure Info where
  major : Nat
  lead : Bool
  thread : Bool
  cls : Nat
  wt : Nat
  marker : Bool := false
  priv : Bool := false
  cross : Bool := false
  deriving DecidableEq, Repr

/-- A form for both executors. -/
def infoLT (major cls wt : Nat) (marker : Bool := false) (priv : Bool := false) : Info :=
  { major, lead := true, thread := true, cls, wt, marker, priv }
/-- A thread-only form. -/
def infoT (major cls wt : Nat) (marker : Bool := false) : Info :=
  { major, lead := false, thread := true, cls, wt, marker }
/-- A lead-only form. -/
def infoL (major cls wt : Nat) (marker : Bool := false) (priv : Bool := false) : Info :=
  { major, lead := true, thread := false, cls, wt, marker, priv }
/-- A form that joins on a rejoin mask: thread-only, slot C, implicit marker (R145). -/
def infoX (major cls wt : Nat) : Info :=
  { major, lead := false, thread := true, cls, wt, marker := true, cross := true }
/-- A step that is no instruction word. -/
def infoEvent : Info := { major := 16, lead := false, thread := false, cls := 0, wt := 0 }

/-- The opcode map (R52 to R66). Major 15 is the header, 16 a step that is no word. -/
def Instr.info : Instr → Info
  | .iadd .. | .isub .. => infoLT 1 0 3
  | .imul .. | .imad .. => infoLT 1 1 5
  | .icmp .. => infoLT 1 0 3
  | .icmpD .. => infoT 1 0 3
  | .iand .. | .ior .. | .ixor .. | .ishl .. | .ishr .. | .isra .. => infoLT 1 0 3
  | .imin .. | .imax .. | .iminu .. | .imaxu .. => infoLT 1 0 3
  | .imulh .. | .imulhu .. => infoLT 1 1 5
  | .iabs .. | .popc .. | .clz .. | .brev .. => infoLT 1 0 3
  | .bfe .. | .bfi .. => infoT 1 0 3
  | .lea .. => infoLT 1 0 3
  | .plop .. | .pset .. | .p2g .. | .g2p .. => infoLT 1 0 1
  | .iaddD .. => infoT 1 0 3
  | .iaddImm .. | .ishlImm .. | .ishrImm .. | .israImm .. | .iandImm .. | .isel .. => infoLT 2 0 3
  | .movi .. | .movh .. | .movh20 .. => infoLT 2 0 2
  | .fadd .. | .fsub .. | .fmul .. => infoT 3 1 5
  | .ffma .. | .ffms .. | .pkfmaF16 .. | .pkfmaBf16 .. => infoT 3 1 6
  | .fmin .. | .fmax .. => infoT 3 1 4
  | .pkaddF16 .. | .pkaddBf16 .. => infoT 3 1 5
  | .frnd .. => infoT 3 1 4
  | .fclass .. => infoT 3 0 3
  | .faddRm .. | .fsubRm .. | .fmulRm .. => infoT 3 1 5
  | .dadd .. | .dmul .. => infoT 4 2 10
  | .dfma .. => infoT 4 2 11
  | .ddiv .. | .fdiv .. => infoT 4 3 12
  | .dcmp .. | .dmin .. | .dmax .. => infoT 4 2 8
  | .daddRm .. | .dmulRm .. => infoT 4 2 10
  | .dsqrt .. | .fsqrt .. => infoT 4 3 12
  | .fexp2 .. | .flog2 .. | .fsin .. | .fcos .. | .frcp .. | .frsq .. => infoT 14 2 8
  | .fcmp .. => infoT 14 1 3
  | .qmax .. => infoX 14 1 4
  | .qcvtI8 .. | .qcvtCb4 .. | .dqI8 .. | .dqCb4 .. | .cbsel .. | .cvt .. => infoT 14 1 4
  | .shflIdx .. | .shflUp .. | .shflDown .. | .shflXor .. => infoX 5 1 4
  | .voteAny .. | .voteAll .. | .voteBallot .. => infoX 5 0 2
  | .matchLanes .. => infoX 5 1 4
  | .scanAdd .. | .scanAddEx .. | .redAdd .. | .redMin .. | .redMax .. | .fredAdd .. => infoX 5 2 6
  | .jset .. | .jsetGrp .. | .join .. => infoX 5 0 1
  | .ldg .. => infoLT 6 0 4
  | .lds .. => infoLT 6 0 3
  | .lda .. => infoLT 6 0 4
  | .pref .. | .cinv .. | .cpin .. | .cunpin .. => infoLT 6 0 2
  | .stg .. => infoLT 7 0 4
  | .sts .. => infoLT 7 0 3
  | .stgRel .. => infoLT 7 0 4 true
  | .stc .. => infoLT 7 0 6 true
  | .atomAdd .. | .atomMin .. | .atomMax .. | .atomAnd .. | .atomOr .. | .atomXor .. => infoLT 8 0 5 true
  | .xchg .. | .cas .. => infoLT 8 0 5 true
  | .xadd .. | .xrd .. | .xrd64 .. | .xclr .. => infoLT 8 0 6 true
  | .atomsAdd .. | .atomsMin .. | .atomsMax .. | .atomsAnd .. | .atomsOr .. | .atomsXor ..
  | .atomsXchg .. | .atomsCas .. => infoLT 8 0 4 true
  | .fenceAcq .. | .fenceRel .. | .fenceAr .. | .drain .. => infoLT 9 0 2 true
  | .waitc .. => infoLT 9 0 1
  | .bar .. => infoT 9 0 2 true
  | .gbara .. => infoLT 9 0 2 true
  | .gbarw .. => infoLT 9 0 2
  | .awinit .. | .awadd .. => infoLT 9 0 2 true
  | .awwait .. | .awtest .. => infoLT 9 0 2
  | .bra .. | .call .. | .brx .. | .callx .. | .ret .. => infoLT 10 0 1
  | .exit .. => infoT 10 0 1
  | .nop .. => infoLT 10 0 0
  | .endl .. | .brk .. | .loopLc0 .. | .loopLc1 .. | .loopp .. => infoL 10 0 1
  | .item .. => infoT 10 0 1 true
  | .cpy .. | .cpyTag .. => infoLT 11 0 2 true
  | .cpys .. => infoLT 11 0 1
  | .gath .. => infoLT 11 0 2 true
  | .mxcfg .. | .mxshape .. | .mxldw .. | .mxq .. | .mxdrain .. | .cbload .. => infoL 11 0 2 true
  | .ntake .. | .npass .. => infoL 11 0 1 true
  | .ntest .. => infoLT 11 0 1
  | .ray .. | .rayAny .. | .ovlp .. => infoLT 11 0 2 true
  | .refit .. | .draw .. | .drawEz .. => infoL 11 0 2 true
  | .tenq .. | .tdec .. | .lnch .. => infoLT 12 0 2 true
  | .iqpush .. | .wave .. | .iqclose .. => infoL 12 0 2 true
  | .wavew .. | .setdl .. => infoL 12 0 2
  | .restag .. => infoLT 12 0 2 true
  | .resq .. => infoLT 12 0 2
  | .resdrop .. => infoLT 12 0 2 true
  | .movsr .. => infoLT 13 0 2
  | .csrr .. => infoLT 13 1 2
  | .csrw .. => infoLT 13 1 2 true true
  | .svc .. => infoLT 13 0 2 true
  | .trap .. => infoLT 13 0 2
  | .eret .. => infoLT 13 0 2 false true
  | .wfe .. => infoL 13 0 2
  | .evsig .. => infoLT 13 0 2
  | .tlbinv .. => infoL 13 0 2 false true
  | .own .. => infoLT 13 0 2 false true
  | .ctxsv .. | .ctxld .. => infoL 13 0 2 true true
  | .emptyBundle .. => infoLT 15 0 0
  | _ => infoEvent

/-- The guard field of an instruction word; 63 is always (R40). -/
def Instr.guard : Instr → Guard
  | .iadd g .. | .isub g .. | .imul g .. | .imad g .. | .icmp g .. | .icmpD g .. | .iand g ..
  | .ior g .. | .ixor g .. | .ishl g .. | .ishr g .. | .isra g .. | .imin g .. | .imax g ..
  | .iminu g .. | .imaxu g .. | .imulh g .. | .imulhu g .. | .iabs g .. | .popc g .. | .clz g ..
  | .brev g .. | .bfe g .. | .bfi g .. | .lea g .. | .plop g .. | .pset g .. | .p2g g .. | .g2p g ..
  | .iaddD g .. | .iaddImm g .. | .ishlImm g .. | .ishrImm g .. | .israImm g .. | .iandImm g ..
  | .isel g .. | .movi g .. | .movh g .. | .movh20 g .. | .fadd g .. | .fsub g .. | .fmul g ..
  | .ffma g .. | .ffms g .. | .pkfmaF16 g .. | .pkfmaBf16 g .. | .fmin g .. | .fmax g ..
  | .pkaddF16 g .. | .pkaddBf16 g .. | .frnd g .. | .fclass g .. | .faddRm g .. | .fsubRm g ..
  | .fmulRm g .. | .dadd g .. | .dmul g .. | .dfma g .. | .ddiv g .. | .fdiv g .. | .dcmp g ..
  | .dmin g .. | .dmax g .. | .daddRm g .. | .dmulRm g .. | .dsqrt g .. | .fsqrt g .. | .fexp2 g ..
  | .flog2 g .. | .fsin g .. | .fcos g .. | .frcp g .. | .frsq g .. | .fcmp g .. | .qmax g ..
  | .qcvtI8 g .. | .qcvtCb4 g .. | .dqI8 g .. | .dqCb4 g .. | .cbsel g .. | .cvt g .. | .shflIdx g ..
  | .shflUp g .. | .shflDown g .. | .shflXor g .. | .voteAny g .. | .voteAll g .. | .voteBallot g ..
  | .matchLanes g .. | .scanAdd g .. | .scanAddEx g .. | .redAdd g .. | .redMin g .. | .redMax g ..
  | .fredAdd g .. | .jset g .. | .jsetGrp g .. | .join g .. | .ldg g .. | .lds g .. | .lda g ..
  | .pref g .. | .cinv g .. | .cpin g .. | .cunpin g .. | .stg g .. | .sts g .. | .stgRel g ..
  | .stc g .. | .atomAdd g .. | .atomMin g .. | .atomMax g .. | .atomAnd g .. | .atomOr g ..
  | .atomXor g .. | .xchg g .. | .cas g .. | .xadd g .. | .xrd g .. | .xrd64 g .. | .xclr g ..
  | .atomsAdd g .. | .atomsMin g .. | .atomsMax g .. | .atomsAnd g .. | .atomsOr g .. | .atomsXor g ..
  | .atomsXchg g .. | .atomsCas g .. | .fenceAcq g .. | .fenceRel g .. | .fenceAr g .. | .drain g
  | .waitc g .. | .bar g | .gbara g .. | .gbarw g .. | .awinit g .. | .awadd g .. | .awwait g ..
  | .awtest g .. | .bra g .. | .call g .. | .brx g .. | .callx g .. | .ret g | .exit g | .nop g
  | .endl g | .brk g | .loopLc0 g .. | .loopLc1 g .. | .loopp g .. | .item g .. | .cpy g ..
  | .cpyTag g .. | .cpys g .. | .gath g .. | .mxcfg g .. | .mxshape g .. | .mxldw g .. | .mxq g ..
  | .mxdrain g | .cbload g .. | .ntake g | .npass g | .ntest g .. | .ray g .. | .rayAny g ..
  | .ovlp g .. | .refit g .. | .draw g .. | .drawEz g .. | .tenq g .. | .tdec g .. | .lnch g ..
  | .iqpush g .. | .wave g .. | .iqclose g | .wavew g | .setdl g .. | .restag g .. | .resq g ..
  | .resdrop g .. | .movsr g .. | .csrr g .. | .csrw g .. | .svc g .. | .trap g .. | .eret g
  | .wfe g | .evsig g .. | .tlbinv g .. | .own g .. | .ctxsv g .. | .ctxld g .. => g
  | _ => 63#6

/-- Whether the form is an instruction word of a slot. -/
def Instr.isWord (i : Instr) : Bool := i.info.major < 15

/-- Whether the row is a step of an agent, not a word. -/
def Instr.isEvent (i : Instr) : Bool := i.info.major == 16

/-- The slots of a bundle. -/
inductive SlotPos where
  | a
  | b
  | c
  deriving DecidableEq, Repr

/-- Which slots accept a major, for the executor that fetched the word (R26). -/
def majorAccepts (ex : Executor) (major : Nat) (p : SlotPos) : Bool :=
  match p with
  | .a => [1, 2, 3, 4, 10, 13].contains major
  | .b => [6, 7, 8, 9, 11, 12].contains major
  | .c => [1, 2, 3, 5, 14].contains major || (major == 11 && ex == .lead)

/-- What an instruction reads or writes: registers n to n + len − 1, a predicate, a rejoin mask, or the
codebook selector (R139). -/
inductive Opnd where
  | reg (n len : Nat)
  | pred (n : Nat)
  | mask (j : Nat)
  | sel
  deriving DecidableEq, Repr

/-- One register. -/
def r1 (n : Reg) : Opnd := .reg n.toNat 1
/-- A pair in either executor (R152, fields marked even; R134 FP64 operands). -/
def r2 (n : Reg) : Opnd := .reg n.toNat 2
/-- A 64-bit operand: an even pair in thread code, one s-register in lead code (R43, R152). -/
def r64 (ex : Executor) (n : Reg) : Opnd := .reg n.toNat (if ex = .thread then 2 else 1)
/-- A 128-bit operand: a quad in thread code, an even s-register and the next in lead code (R43). -/
def r128 (ex : Executor) (n : Reg) : Opnd := .reg n.toNat (if ex = .thread then 4 else 2)
/-- Data of the size code sz (R42, R152). -/
def rsz (ex : Executor) (sz : BitVec 3) (n : Reg) : Opnd :=
  if sz = 4#3 then r128 ex n else if sz = 3#3 then r64 ex n else r1 n
/-- A predicate field. -/
def pf (n : F6) : Opnd := .pred n.toNat
/-- The predicate pair k and k xor 1 (R111). -/
def pk (k : BitVec 4) : List Opnd := [.pred k.toNat, .pred (k ^^^ 1#4).toNat]
/-- The link: g30.d in thread code, s63 in lead code (R120). -/
def link (ex : Executor) : Opnd := if ex = .thread then .reg 30 2 else .reg 63 1
/-- Every predicate of a block (R118). -/
def blockPreds (ex : Executor) (blk : F6) : List Opnd :=
  if blk = 0#6 then (List.range (if ex = .thread then 32 else 16)).map .pred
  else (List.range 16).map fun n => .pred (32 + n)
/-- The stage predicates of LOOPP (R126). -/
def stagePreds : List Opnd := [.pred 12, .pred 13, .pred 14, .pred 15]
/-- The formats of 64 bits and the register shape of a CVT operand (R57). -/
def rcvt (f : BitVec 3) (n : Reg) : Opnd := if f = 0#3 then r2 n else r1 n

/-- What an instruction reads, its guard apart (R33, R43, R67). -/
def Instr.srcs (ex : Executor) : Instr → List Opnd
  | .iadd _ _ a b | .isub _ _ a b | .imul _ _ a b => [r1 a, r1 b]
  | .imad _ d a b => [r1 d, r1 a, r1 b]
  | .icmp _ x y _ _ => [r1 x, r1 y]
  | .icmpD _ x y _ _ => [r2 x, r2 y]
  | .iand _ d a | .ior _ d a | .ixor _ d a | .ishl _ d a | .ishr _ d a | .isra _ d a | .imin _ d a
  | .imax _ d a | .iminu _ d a | .imaxu _ d a | .imulh _ d a | .imulhu _ d a => [r1 d, r1 a]
  | .iabs _ _ a | .popc _ _ a | .clz _ _ a | .brev _ _ a => [r1 a]
  | .bfe _ d a => [r1 d, r1 a]
  | .bfi _ d a => [r2 d, r1 a]
  | .lea _ d a _ => [r64 ex d, r1 a]
  | .plop _ d a _ => [pf d, pf a]
  | .pset _ _ a => [r1 a]
  | .p2g _ _ blk => blockPreds ex blk
  | .g2p _ _ a => [r1 a]
  | .iaddD _ d a => [r2 d, r2 a]
  | .iaddImm _ _ a _ | .ishlImm _ _ a _ | .ishrImm _ _ a _ | .israImm _ _ a _ | .iandImm _ _ a _ => [r1 a]
  | .isel _ d a p => [r1 d, r1 a, pf p]
  | .movi .. => []
  | .movh _ d _ | .movh20 _ d _ => [r1 d]
  | .fadd _ _ a b | .fsub _ _ a b | .fmul _ _ a b => [r1 a, r1 b]
  | .ffma _ d a b | .ffms _ d a b | .pkfmaF16 _ d a b | .pkfmaBf16 _ d a b => [r1 d, r1 a, r1 b]
  | .fmin _ d a | .fmax _ d a | .pkaddF16 _ d a | .pkaddBf16 _ d a => [r1 d, r1 a]
  | .frnd _ _ a _ | .fclass _ _ a => [r1 a]
  | .faddRm _ d a _ | .fsubRm _ d a _ | .fmulRm _ d a _ => [r1 d, r1 a]
  | .dadd _ _ a b | .dmul _ _ a b | .ddiv _ _ a b => [r2 a, r2 b]
  | .dfma _ d a b => [r2 d, r2 a, r2 b]
  | .fdiv _ _ a b => [r1 a, r1 b]
  | .dcmp _ x y _ _ => [r2 x, r2 y]
  | .dmin _ d a | .dmax _ d a | .daddRm _ d a _ | .dmulRm _ d a _ => [r2 d, r2 a]
  | .dsqrt _ _ a _ => [r2 a]
  | .fsqrt _ _ a _ => [r1 a]
  | .fexp2 _ _ a | .flog2 _ _ a | .fsin _ _ a | .fcos _ _ a | .frcp _ _ a | .frsq _ _ a => [r1 a]
  | .fcmp _ x y _ _ => [r1 x, r1 y]
  | .qmax _ a j => [r1 a, .mask j.toNat]
  | .qcvtI8 _ _ a | .dqI8 _ _ a => [r1 a]
  | .qcvtCb4 _ _ a | .dqCb4 _ _ a | .cbsel _ _ a => [r1 a, .sel]
  | .cvt _ _ _ a _ src => [rcvt src a]
  | .shflIdx _ d a j | .shflUp _ d a j | .shflDown _ d a j | .shflXor _ d a j => [r1 d, r1 a, .mask j.toNat]
  | .voteAny _ _ a j | .voteAll _ _ a j | .voteBallot _ _ a j => [pf a, .mask j.toNat]
  | .matchLanes _ _ a j | .scanAdd _ _ a j | .scanAddEx _ _ a j | .redAdd _ _ a j | .redMin _ _ a j
  | .redMax _ _ a j | .fredAdd _ _ a j => [r1 a, .mask j.toNat]
  | .jset _ a j => [r1 a, .mask j.toNat]
  | .jsetGrp _ j | .join _ j => [.mask j.toNat]
  | .ldg _ _ a _ _ | .lda _ _ a _ _ _ | .pref _ a _ _ | .cinv _ a _ _ | .cpin _ a _ | .cunpin _ a _ => [r64 ex a]
  | .lds _ _ a _ _ => [r1 a]
  | .stg _ d a sz _ => [rsz ex sz d, r64 ex a]
  | .sts _ d a sz _ => [rsz ex sz d, r1 a]
  | .stgRel _ d a w _ _ => [if w = 1#1 then r64 ex d else r1 d, r64 ex a]
  | .stc _ d a => [r2 d, r64 ex a]
  | .atomAdd _ d a _ _ w _ | .atomMin _ d a _ _ w _ | .atomMax _ d a _ _ w _ | .atomAnd _ d a _ _ w _
  | .atomOr _ d a _ _ w _ | .atomXor _ d a _ _ w _ | .xchg _ d a _ _ w _ =>
    [if w = 1#1 then r64 ex d else r1 d, r64 ex a]
  | .cas _ d a _ _ w _ => [if w = 1#1 then r128 ex d else r2 d, r64 ex a]
  | .xadd _ d a _ _ _ => [r1 d, r64 ex a]
  | .xrd _ _ a _ _ _ | .xrd64 _ _ a _ _ _ | .xclr _ _ a _ _ _ => [r64 ex a]
  | .atomsAdd _ d a w _ | .atomsMin _ d a w _ | .atomsMax _ d a w _ | .atomsAnd _ d a w _
  | .atomsOr _ d a w _ | .atomsXor _ d a w _ | .atomsXchg _ d a w _ =>
    [if w = 1#1 then r64 ex d else r1 d, r1 a]
  | .atomsCas _ d a w _ => [if w = 1#1 then r128 ex d else r2 d, r1 a]
  | .gbara _ a | .gbarw _ a => [r1 a]
  | .awinit _ d a => [r1 d, r2 a]
  | .awadd _ d a => [r1 d, r1 a]
  | .awwait _ d _ => [r1 d]
  | .awtest _ _ a => [r1 a]
  | .brx _ a | .callx _ a => [r64 ex a]
  | .ret _ => [link ex]
  | .endl _ => stagePreds
  | .loopLc0 _ a _ | .loopLc1 _ a _ | .loopp _ a _ _ => [r1 a]
  | .cpy _ a | .cpyTag _ a | .cpys _ _ a | .gath _ a _ | .mxcfg _ a | .mxshape _ a | .mxldw _ a
  | .mxq _ a | .cbload _ _ a | .ray _ a | .rayAny _ a | .ovlp _ a | .refit _ a | .draw _ a
  | .drawEz _ a => [r1 a]
  | .tenq _ a | .tdec _ a | .lnch _ _ a => [r64 ex a]
  | .iqpush _ a | .setdl _ a => [r1 a]
  | .wave _ d a b => [r1 d, r1 a, r1 b]
  | .restag _ _ a | .resq _ _ a | .resdrop _ a => [r1 a]
  | .csrw _ d _ => [r64 ex d]
  | .svc _ _ a => [.reg a.toNat (if ex = .thread then 4 else 2)]
  | .trap _ a => [r1 a]
  | .evsig _ a => [r1 a]
  | .tlbinv _ a | .ctxsv _ a | .ctxld _ a => [r1 a]
  | .own _ a => [r64 ex a]
  | _ => []

/-- What an instruction writes (R44: every register of a pair or quad, every predicate). -/
def Instr.dsts (ex : Executor) : Instr → List Opnd
  | .iadd _ d _ _ | .isub _ d _ _ | .imul _ d _ _ | .imad _ d _ _ => [r1 d]
  | .icmp _ _ _ _ k | .icmpD _ _ _ _ k => pk k
  | .iand _ d _ | .ior _ d _ | .ixor _ d _ | .ishl _ d _ | .ishr _ d _ | .isra _ d _ | .imin _ d _
  | .imax _ d _ | .iminu _ d _ | .imaxu _ d _ | .imulh _ d _ | .imulhu _ d _
  | .iabs _ d _ | .popc _ d _ | .clz _ d _ | .brev _ d _ | .bfe _ d _ | .bfi _ d _ => [r1 d]
  | .lea _ d _ _ => [r64 ex d]
  | .plop _ d _ _ | .pset _ d _ => [pf d]
  | .p2g _ d _ => [r1 d]
  | .g2p _ blk _ => blockPreds ex blk
  | .iaddD _ d _ => [r2 d]
  | .iaddImm _ d _ _ | .ishlImm _ d _ _ | .ishrImm _ d _ _ | .israImm _ d _ _ | .iandImm _ d _ _
  | .isel _ d _ _ | .movi _ d _ | .movh _ d _ | .movh20 _ d _ => [r1 d]
  | .fadd _ d _ _ | .fsub _ d _ _ | .fmul _ d _ _ | .ffma _ d _ _ | .ffms _ d _ _ | .pkfmaF16 _ d _ _
  | .pkfmaBf16 _ d _ _ | .fmin _ d _ | .fmax _ d _ | .pkaddF16 _ d _ | .pkaddBf16 _ d _
  | .frnd _ d _ _ | .fclass _ d _ | .faddRm _ d _ _ | .fsubRm _ d _ _ | .fmulRm _ d _ _ => [r1 d]
  | .dadd _ d _ _ | .dmul _ d _ _ | .dfma _ d _ _ | .ddiv _ d _ _ => [r2 d]
  | .fdiv _ d _ _ => [r1 d]
  | .dcmp _ _ _ _ k | .fcmp _ _ _ _ k => pk k
  | .dmin _ d _ | .dmax _ d _ | .daddRm _ d _ _ | .dmulRm _ d _ _ | .dsqrt _ d _ _ => [r2 d]
  | .fsqrt _ d _ _ => [r1 d]
  | .fexp2 _ d _ | .flog2 _ d _ | .fsin _ d _ | .fcos _ d _ | .frcp _ d _ | .frsq _ d _
  | .qcvtI8 _ d _ | .qcvtCb4 _ d _ | .dqI8 _ d _ | .dqCb4 _ d _ => [r1 d]
  | .cbsel _ d _ => [r1 d, .sel]
  | .cvt _ _ d _ dst _ => [rcvt dst d]
  | .shflIdx _ d _ _ | .shflUp _ d _ _ | .shflDown _ d _ _ | .shflXor _ d _ _ => [r1 d]
  | .voteAny _ d _ _ | .voteAll _ d _ _ => [pf d]
  | .voteBallot _ d _ _ => [r1 d]
  | .matchLanes _ d _ _ | .scanAdd _ d _ _ | .scanAddEx _ d _ _ | .redAdd _ d _ _ | .redMin _ d _ _
  | .redMax _ d _ _ | .fredAdd _ d _ _ => [r1 d]
  | .jset _ _ j | .jsetGrp _ j => [.mask j.toNat]
  | .ldg _ d _ sz _ | .lds _ d _ sz _ => [rsz ex sz d]
  | .lda _ d _ w _ _ => [if w = 1#1 then r64 ex d else r1 d]
  | .atomAdd _ d _ _ _ w _ | .atomMin _ d _ _ _ w _ | .atomMax _ d _ _ _ w _ | .atomAnd _ d _ _ _ w _
  | .atomOr _ d _ _ _ w _ | .atomXor _ d _ _ _ w _ | .xchg _ d _ _ _ w _ | .cas _ d _ _ _ w _ =>
    [if w = 1#1 then r64 ex d else r1 d]
  | .xrd _ d _ _ _ _ | .xclr _ d _ _ _ _ => [r1 d]
  | .xrd64 _ d _ _ _ _ => [r64 ex d]
  | .atomsAdd _ d _ w _ | .atomsMin _ d _ w _ | .atomsMax _ d _ w _ | .atomsAnd _ d _ w _
  | .atomsOr _ d _ w _ | .atomsXor _ d _ w _ | .atomsXchg _ d _ w _ | .atomsCas _ d _ w _ =>
    [if w = 1#1 then r64 ex d else r1 d]
  | .awtest _ k _ => [pf k]
  | .call .. | .callx .. => [link ex]
  | .endl _ | .loopp .. => stagePreds
  | .item _ a _ => [r2 a]
  | .cpys _ d _ => [r64 ex d]
  | .ntest _ d => [r1 d]
  | .lnch _ d _ | .restag _ d _ => [r1 d]
  | .resq _ d _ => [r64 ex d]
  | .movsr _ d f => [if [0, 1, 2, 13, 14].contains f.toNat then r64 ex d else r1 d]
  | .csrr _ d _ => [r64 ex d]
  | .svc _ d _ => [r64 ex d]
  | _ => []

/-- The issue distance from a producer to a reader of its result (R241); 0 where the table has none
because the value is waited for. -/
def Instr.distance (i : Instr) : Nat :=
  match i with
  | .voteAny .. | .voteAll .. | .voteBallot .. => 2
  | .shflIdx .. | .shflUp .. | .shflDown .. | .shflXor .. | .matchLanes .. | .lds .. => 3
  | .scanAdd .. | .scanAddEx .. | .redAdd .. | .redMin .. | .redMax .. | .fredAdd .. => 4
  | .ldg .. | .lda .. => 4
  | .atomsAdd .. | .atomsMin .. | .atomsMax .. | .atomsAnd .. | .atomsOr .. | .atomsXor ..
  | .atomsXchg .. | .atomsCas .. | .cpys .. => 3
  | .csrr .. => 2
  | .imul .. | .imad .. | .imulh .. | .imulhu .. => 4
  | .fdiv .. | .fsqrt .. => 12
  | .ddiv .. | .dsqrt .. => 20
  | .fclass .. => 1
  | _ =>
    match i.info.major with
    | 3 => 4
    | 4 => 6
    | 14 => if i.info.cls = 2 then 6 else 4
    | _ => 1

/-- CSR numbers that are assigned (R70, R377). -/
def csrAssigned (c : BitVec 12) : Bool :=
  [0x000#12, 0x001#12, 0x800#12, 0x801#12, 0x802#12, 0x803#12, 0x804#12, 0x810#12, 0x811#12, 0x812#12,
    0x813#12].contains c || (0xC00#12 ≤ c && c ≤ 0xC0F#12)

/-- Special-register numbers a MOVSR may name, for the executor (R69). -/
def srListed (ex : Executor) (f : F6) : Bool :=
  f.toNat ≤ 14 && (ex == .thread || !([7, 8, 9].contains f.toNat))

/-- The codes and fields of a word that R49, R41 and R57 reserve are absent, whoever fetches it. -/
def Instr.wf : Instr → Bool
  | .icmp _ _ _ hc _ | .icmpD _ _ _ hc _ => hc != 3#2
  | .p2g _ _ blk | .g2p _ blk _ => blk.toNat ≤ 1
  | .cvt _ _ _ _ dst src => dst != src
  | .ldg _ _ _ sz _ | .lds _ _ _ sz _ | .stg _ _ _ sz _ | .sts _ _ _ sz _ => sz.toNat ≤ 4
  | .waitc _ k _ => k.toNat ≤ 4
  | .cbload _ n _ => n.toNat ≤ 7
  | .movsr _ _ f => f.toNat ≤ 14
  | .csrr _ _ c | .csrw _ _ c => csrAssigned c
  | .emptyBundle _ _ _ _ x => x = 0#14
  | _ => true

/-- The guard value is legal for the executor (R40). -/
def guardLegal (ex : Executor) (g : Guard) : Bool :=
  g = 63#6 || g.toNat < (if ex = .thread then 48 else 16)

/-- An operand is legal for the executor: a register below the bound and aligned to its length, a
predicate in range (R43, R67). `bound` is the launch's registers per thread, or 64 in lead code. -/
def Opnd.legal (ex : Executor) (bound : Nat) : Opnd → Bool
  | .reg n len => n % len == 0 && n + len ≤ bound
  | .pred n => n < (if ex = .thread then 48 else 16)
  | .mask _ => true
  | .sel => true

/-- The encoding checks of one instruction for the executor that fetched it (R26, R40, R43, R49, R67,
R69, R118). A destination of BFI is even because its source pair is. -/
def Instr.legalFor (ex : Executor) (bound : Nat) (i : Instr) : Bool :=
  i.wf && (if ex = .thread then i.info.thread else i.info.lead) && guardLegal ex i.guard &&
  (i.srcs ex).all (Opnd.legal ex bound) && (i.dsts ex).all (Opnd.legal ex bound) &&
  (match i with
    | .movsr _ _ f => srListed ex f
    | .p2g _ _ blk | .g2p _ blk _ => ex == .thread || blk == 0#6
    | .cas _ d _ _ _ _ _ | .atomsCas _ d _ _ _ => ex == .thread || d.toNat % 2 == 0
    | _ => true)

/-- Two operands name something in common (R44). -/
def Opnd.overlaps : Opnd → Opnd → Bool
  | .reg n l, .reg m k => n < m + k && m < n + l
  | .pred n, .pred m => n == m
  | .mask n, .mask m => n == m
  | .sel, .sel => true
  | _, _ => false

/-- Two destination lists overlap. -/
def dstsOverlap (x y : List Opnd) : Bool := x.any fun o => y.any o.overlaps

end Sys2Proof
end

