-- ==== Sys2Proof/Decode.lean ====
section
/-! DEFINITION. The decoder of words and bundles (02 R26 to R44, 03 R49 to R66), total on any words and
rejecting by name, and after it the encoder of one instruction as a bundle of its own. -/

namespace Sys2Proof

/-- Why a bundle does not decode. Each is the precise illegal-instruction trap of R47. -/
inductive DecodeError where
  /-- Major 0000, or no word at all (R26). -/
  | illegalMajor
  /-- No slot of the bundle accepts the word's major (R26, R28, R30). -/
  | noSlot
  /-- A minor, function code, operation code or sub-field that no table lists (R49). -/
  | reservedCode
  /-- A reserved field is nonzero, or a field holds a value its form excludes (R41, R43, R118). -/
  | reservedField
  /-- The extension field lends what the bundle or the form cannot take (R39). -/
  | extension
  /-- The stop bits contradict the header or the length (R28, R30, R31). -/
  | stopBit
  /-- Y = 1 in thread code, or beside a BR-major word in slot A (R34). -/
  | yieldBit
  /-- The form is not available to the executor, or an operand is out of its range (R26, R40, R43, R67). -/
  | operand
  /-- Two slots write the same register, predicate or mask (R44). -/
  | overlap
  deriving DecidableEq, Repr

/-- What the extension field gives one slot: bit 6 of its three register fields, and the lent
immediate bits if the mode lends to it (R36, R37). -/
structure Ext where
  dh : BitVec 1 := 0#1
  ah : BitVec 1 := 0#1
  bh : BitVec 1 := 0#1
  imm : Option (BitVec 8) := none
  deriving DecidableEq, Repr

/-- The destination-side register of [17:12] (R36). -/
def Ext.rd (e : Ext) (d : BitVec 6) : Reg := e.dh ++ d
/-- The first-source register of [11:6] (R36). -/
def Ext.ra (e : Ext) (a : BitVec 6) : Reg := e.ah ++ a
/-- The second-source register of [5:0] (R36). -/
def Ext.rb (e : Ext) (b : BitVec 6) : Reg := e.bh ++ b
/-- An immediate of n bits of the word with what is lent above it (R38). -/
def Ext.im {n : Nat} (e : Ext) (i : BitVec n) : Imm n :=
  match e.imm with
  | none => .short i
  | some h => .long ((h ++ i).cast (Nat.add_comm 8 n))

/-- Which of its parts the extension field may widen in a form (R39): the destination-side, first and
second register fields, and the immediate. -/
structure Takes where
  d : Bool := false
  a : Bool := false
  b : Bool := false
  i : Bool := false
  deriving DecidableEq, Repr

/-- The checks of a row of the opcode map on its word: nothing lent where the form has no place for it
(R39), its reserved fields zero (R41), its codes listed (R49). -/
def rowIf (e : Ext) (t : Takes) (zero : Bool) (x : Instr) : Except DecodeError Instr :=
  if (e.dh = 1#1 && !t.d) || (e.ah = 1#1 && !t.a) || (e.bh = 1#1 && !t.b) || (e.imm.isSome && !t.i) then
    .error .extension
  else if zero && x.wf then .ok x else .error .reservedField

/-- The forms d, a of the fn format. -/
def takesDA : Takes := { d := true, a := true }
/-- The forms d, a, b of the base format. -/
def takesDAB : Takes := { d := true, a := true, b := true }
/-- The forms d, a and an immediate or offset. -/
def takesDAI : Takes := { d := true, a := true, i := true }

/-- Major 0001 (R52). -/
def decodeInt (e : Ext) (g : Guard) (m : BitVec 3) (d a f : BitVec 6) : Except DecodeError Instr :=
  let D := e.rd d
  let A := e.ra a
  match m with
  | 0#3 => rowIf e takesDAB true (.iadd g D A (e.rb f))
  | 1#3 => rowIf e takesDAB true (.isub g D A (e.rb f))
  | 2#3 => rowIf e takesDAB true (.imul g D A (e.rb f))
  | 3#3 => rowIf e takesDAB true (.imad g D A (e.rb f))
  | 4#3 => rowIf e takesDA true (.icmp g D A (f.extractLsb' 4 2) (f.extractLsb' 0 4))
  | 5#3 => rowIf e takesDA true (.icmpD g D A (f.extractLsb' 4 2) (f.extractLsb' 0 4))
  | 6#3 =>
    if f.extractLsb' 3 3 = 3#3 then rowIf e takesDA true (.lea g D A (f.extractLsb' 0 3))
    else match f with
    | 0x00#6 => rowIf e takesDA true (.iand g D A)
    | 0x01#6 => rowIf e takesDA true (.ior g D A)
    | 0x02#6 => rowIf e takesDA true (.ixor g D A)
    | 0x03#6 => rowIf e takesDA true (.ishl g D A)
    | 0x04#6 => rowIf e takesDA true (.ishr g D A)
    | 0x05#6 => rowIf e takesDA true (.isra g D A)
    | 0x06#6 => rowIf e takesDA true (.imin g D A)
    | 0x07#6 => rowIf e takesDA true (.imax g D A)
    | 0x08#6 => rowIf e takesDA true (.iminu g D A)
    | 0x09#6 => rowIf e takesDA true (.imaxu g D A)
    | 0x0A#6 => rowIf e takesDA true (.imulh g D A)
    | 0x0B#6 => rowIf e takesDA true (.imulhu g D A)
    | 0x0C#6 => rowIf e takesDA true (.iabs g D A)
    | 0x0D#6 => rowIf e takesDA true (.popc g D A)
    | 0x0E#6 => rowIf e takesDA true (.clz g D A)
    | 0x0F#6 => rowIf e takesDA true (.brev g D A)
    | 0x10#6 => rowIf e takesDA true (.bfe g D A)
    | 0x11#6 => rowIf e takesDA true (.bfi g D A)
    | _ => .error .reservedCode
  | _ =>
    if f.extractLsb' 4 2 = 0#2 then rowIf e {} true (.plop g d a (f.extractLsb' 0 4))
    else match f with
    | 0x10#6 => rowIf e { a := true } true (.pset g d A)
    | 0x11#6 => rowIf e { d := true } true (.p2g g D a)
    | 0x12#6 => rowIf e { a := true } true (.g2p g d A)
    | 0x20#6 => rowIf e takesDA true (.iaddD g D A)
    | _ => .error .reservedCode

/-- Major 0010 (R53). MOVH is its 20-bit form exactly when bits are lent to it (R116). -/
def decodeInti (e : Ext) (g : Guard) (m : BitVec 3) (d a f : BitVec 6) : Except DecodeError Instr :=
  let D := e.rd d
  let A := e.ra a
  match m with
  | 0#3 => rowIf e takesDAI true (.iaddImm g D A (e.im f))
  | 1#3 => rowIf e takesDAI true (.ishlImm g D A (e.im f))
  | 2#3 => rowIf e takesDAI true (.ishrImm g D A (e.im f))
  | 3#3 => rowIf e takesDAI true (.israImm g D A (e.im f))
  | 4#3 => rowIf e takesDAI true (.iandImm g D A (e.im f))
  | 5#3 => rowIf e takesDA true (.isel g D A f)
  | 6#3 => rowIf e { d := true, i := true } true (.movi g D (e.im (a ++ f)))
  | _ =>
    rowIf e { d := true, i := true } true
      (match e.imm with
        | none => .movh g D (a ++ f)
        | some h => .movh20 g D (h ++ (a ++ f)))

/-- Major 0011 (R54). -/
def decodeFp32 (e : Ext) (g : Guard) (m : BitVec 3) (d a f : BitVec 6) : Except DecodeError Instr :=
  let D := e.rd d
  let A := e.ra a
  match m with
  | 0#3 => rowIf e takesDAB true (.fadd g D A (e.rb f))
  | 1#3 => rowIf e takesDAB true (.fsub g D A (e.rb f))
  | 2#3 => rowIf e takesDAB true (.fmul g D A (e.rb f))
  | 3#3 => rowIf e takesDAB true (.ffma g D A (e.rb f))
  | 4#3 => rowIf e takesDAB true (.ffms g D A (e.rb f))
  | 5#3 => rowIf e takesDAB true (.pkfmaF16 g D A (e.rb f))
  | 6#3 => rowIf e takesDAB true (.pkfmaBf16 g D A (e.rb f))
  | _ =>
    match f.extractLsb' 2 4 with
    | 0x1#4 => rowIf e takesDA true (.frnd g D A (f.extractLsb' 0 2))
    | 0x4#4 => rowIf e takesDA true (.faddRm g D A (f.extractLsb' 0 2))
    | 0x5#4 => rowIf e takesDA true (.fsubRm g D A (f.extractLsb' 0 2))
    | 0x6#4 => rowIf e takesDA true (.fmulRm g D A (f.extractLsb' 0 2))
    | _ =>
      match f with
      | 0x00#6 => rowIf e takesDA true (.fmin g D A)
      | 0x01#6 => rowIf e takesDA true (.fmax g D A)
      | 0x02#6 => rowIf e takesDA true (.pkaddF16 g D A)
      | 0x03#6 => rowIf e takesDA true (.pkaddBf16 g D A)
      | 0x08#6 => rowIf e takesDA true (.fclass g D A)
      | _ => .error .reservedCode

/-- Major 0100 (R55). -/
def decodeFp64 (e : Ext) (g : Guard) (m : BitVec 3) (d a f : BitVec 6) : Except DecodeError Instr :=
  let D := e.rd d
  let A := e.ra a
  match m with
  | 0#3 => rowIf e takesDAB true (.dadd g D A (e.rb f))
  | 1#3 => rowIf e takesDAB true (.dmul g D A (e.rb f))
  | 2#3 => rowIf e takesDAB true (.dfma g D A (e.rb f))
  | 3#3 => rowIf e takesDAB true (.ddiv g D A (e.rb f))
  | 4#3 => rowIf e takesDAB true (.fdiv g D A (e.rb f))
  | 5#3 => rowIf e takesDA true (.dcmp g D A (f.extractLsb' 4 2) (f.extractLsb' 0 4))
  | 6#3 =>
    match f.extractLsb' 2 4 with
    | 0x1#4 => rowIf e takesDA true (.daddRm g D A (f.extractLsb' 0 2))
    | 0x2#4 => rowIf e takesDA true (.dmulRm g D A (f.extractLsb' 0 2))
    | 0x4#4 => rowIf e takesDA true (.dsqrt g D A (f.extractLsb' 0 2))
    | 0x5#4 => rowIf e takesDA true (.fsqrt g D A (f.extractLsb' 0 2))
    | _ =>
      match f with
      | 0x00#6 => rowIf e takesDA true (.dmin g D A)
      | 0x01#6 => rowIf e takesDA true (.dmax g D A)
      | _ => .error .reservedCode
  | _ => .error .reservedCode

/-- Major 1110 (R56, R57). -/
def decodeSfu (e : Ext) (g : Guard) (m : BitVec 3) (d a f : BitVec 6) : Except DecodeError Instr :=
  let D := e.rd d
  let A := e.ra a
  if m.extractLsb' 2 1 = 1#1 then
    rowIf e takesDA true (.cvt g (m.extractLsb' 0 2) D A (f.extractLsb' 3 3) (f.extractLsb' 0 3))
  else match m with
  | 0#3 =>
    match f with
    | 0x00#6 => rowIf e takesDA true (.fexp2 g D A)
    | 0x01#6 => rowIf e takesDA true (.flog2 g D A)
    | 0x02#6 => rowIf e takesDA true (.fsin g D A)
    | 0x03#6 => rowIf e takesDA true (.fcos g D A)
    | 0x04#6 => rowIf e takesDA true (.frcp g D A)
    | 0x05#6 => rowIf e takesDA true (.frsq g D A)
    | _ => .error .reservedCode
  | 1#3 => rowIf e takesDA true (.fcmp g D A (f.extractLsb' 4 2) (f.extractLsb' 0 4))
  | 2#3 =>
    if f.extractLsb' 0 3 = 0#3 then rowIf e { a := true } (d == 0#6) (.qmax g A (f.extractLsb' 3 3))
    else .error .reservedCode
  | _ =>
    match f with
    | 0x00#6 => rowIf e takesDA true (.qcvtI8 g D A)
    | 0x01#6 => rowIf e takesDA true (.qcvtCb4 g D A)
    | 0x10#6 => rowIf e takesDA true (.dqI8 g D A)
    | 0x11#6 => rowIf e takesDA true (.dqCb4 g D A)
    | 0x20#6 => rowIf e takesDA true (.cbsel g D A)
    | _ => .error .reservedCode

/-- Major 0101 (R59). -/
def decodeLane (e : Ext) (g : Guard) (m : BitVec 3) (d a f : BitVec 6) : Except DecodeError Instr :=
  let D := e.rd d
  let A := e.ra a
  let j := f.extractLsb' 3 3
  match m, (f.extractLsb' 0 3 : BitVec 3) with
  | 0#3, 0#3 => rowIf e takesDA true (.shflIdx g D A j)
  | 0#3, 1#3 => rowIf e takesDA true (.shflUp g D A j)
  | 0#3, 2#3 => rowIf e takesDA true (.shflDown g D A j)
  | 0#3, 3#3 => rowIf e takesDA true (.shflXor g D A j)
  | 1#3, 0#3 => rowIf e {} true (.voteAny g d a j)
  | 1#3, 1#3 => rowIf e {} true (.voteAll g d a j)
  | 1#3, 2#3 => rowIf e { d := true } true (.voteBallot g D a j)
  | 2#3, 0#3 => rowIf e takesDA true (.matchLanes g D A j)
  | 3#3, 0#3 => rowIf e takesDA true (.scanAdd g D A j)
  | 3#3, 1#3 => rowIf e takesDA true (.scanAddEx g D A j)
  | 4#3, 0#3 => rowIf e takesDA true (.redAdd g D A j)
  | 4#3, 1#3 => rowIf e takesDA true (.redMin g D A j)
  | 4#3, 2#3 => rowIf e takesDA true (.redMax g D A j)
  | 5#3, 0#3 => rowIf e takesDA true (.fredAdd g D A j)
  | 6#3, 0#3 => rowIf e { a := true } (d == 0#6) (.jset g A j)
  | 6#3, 1#3 => rowIf e {} (d == 0#6 && a == 0#6) (.jsetGrp g j)
  | 7#3, 0#3 => rowIf e {} (d == 0#6 && a == 0#6) (.join g j)
  | _, _ => .error .reservedCode

/-- Major 0110 (R60). -/
def decodeLd (e : Ext) (g : Guard) (m : BitVec 3) (d a f : BitVec 6) : Except DecodeError Instr :=
  let D := e.rd d
  let A := e.ra a
  let z := d == 0#6
  let onA : Takes := { a := true, i := true }
  match m with
  | 0#3 =>
    if f.extractLsb' 0 3 = 0#3 then rowIf e takesDAI true (.ldg g D A (f.extractLsb' 3 3) e.imm)
    else .error .reservedCode
  | 1#3 =>
    if f.extractLsb' 0 3 = 0#3 then rowIf e takesDAI true (.lds g D A (f.extractLsb' 3 3) e.imm)
    else .error .reservedCode
  | 2#3 =>
    if f.extractLsb' 4 2 = 1#2 ∧ f.extractLsb' 2 1 = 0#1 then
      rowIf e takesDAI true (.lda g D A (f.extractLsb' 3 1) (f.extractLsb' 0 2) e.imm)
    else .error .reservedCode
  | 3#3 =>
    if f.extractLsb' 1 5 = 0#5 then rowIf e onA z (.pref g A (f.extractLsb' 0 1) e.imm)
    else .error .reservedCode
  | 4#3 =>
    if f.extractLsb' 2 4 = 0#4 then rowIf e onA z (.cinv g A (f.extractLsb' 0 2) e.imm)
    else .error .reservedCode
  | 5#3 => if f = 0#6 then rowIf e onA z (.cpin g A e.imm) else .error .reservedCode
  | 6#3 => if f = 0#6 then rowIf e onA z (.cunpin g A e.imm) else .error .reservedCode
  | _ => .error .reservedCode

/-- Major 0111 (R60). -/
def decodeSt (e : Ext) (g : Guard) (m : BitVec 3) (d a f : BitVec 6) : Except DecodeError Instr :=
  let D := e.rd d
  let A := e.ra a
  match m with
  | 0#3 =>
    if f.extractLsb' 0 3 = 0#3 then rowIf e takesDAI true (.stg g D A (f.extractLsb' 3 3) e.imm)
    else .error .reservedCode
  | 1#3 =>
    if f.extractLsb' 0 3 = 0#3 then rowIf e takesDAI true (.sts g D A (f.extractLsb' 3 3) e.imm)
    else .error .reservedCode
  | 2#3 =>
    if f.extractLsb' 4 2 = 1#2 ∧ f.extractLsb' 2 1 = 0#1 then
      rowIf e takesDAI true (.stgRel g D A (f.extractLsb' 3 1) (f.extractLsb' 0 2) e.imm)
    else .error .reservedCode
  | 3#3 => if f = 0#6 then rowIf e takesDA true (.stc g D A) else .error .reservedCode
  | _ => .error .reservedCode

/-- Major 1000 (R61). -/
def decodeAtom (e : Ext) (g : Guard) (m : BitVec 3) (d a f : BitVec 6) : Except DecodeError Instr :=
  let D := e.rd d
  let A := e.ra a
  let o := f.extractLsb' 4 2
  let c := f.extractLsb' 2 2
  let w := f.extractLsb' 1 1
  let i := e.imm
  match m, (f.extractLsb' 0 1 : BitVec 1) with
  | 0#3, 0#1 => rowIf e takesDAI true (.atomAdd g D A o c w i)
  | 1#3, 0#1 => rowIf e takesDAI true (.atomMin g D A o c w i)
  | 1#3, 1#1 => rowIf e takesDAI true (.atomMax g D A o c w i)
  | 2#3, 0#1 => rowIf e takesDAI true (.atomAnd g D A o c w i)
  | 3#3, 0#1 => rowIf e takesDAI true (.atomOr g D A o c w i)
  | 4#3, 0#1 => rowIf e takesDAI true (.atomXor g D A o c w i)
  | 5#3, 0#1 => rowIf e takesDAI true (.xchg g D A o c w i)
  | 5#3, 1#1 => rowIf e takesDAI true (.cas g D A o c w i)
  | 6#3, v =>
    if w = 0#1 then
      if v = 0#1 then rowIf e takesDAI true (.xadd g D A o c i) else rowIf e takesDAI true (.xrd g D A o c i)
    else
      if v = 0#1 then rowIf e takesDAI true (.xrd64 g D A o c i) else rowIf e takesDAI true (.xclr g D A o c i)
  | 7#3, 0#1 =>
    match (f.extractLsb' 2 4 : BitVec 4) with
    | 0#4 => rowIf e takesDAI true (.atomsAdd g D A w i)
    | 1#4 => rowIf e takesDAI true (.atomsMin g D A w i)
    | 2#4 => rowIf e takesDAI true (.atomsMax g D A w i)
    | 3#4 => rowIf e takesDAI true (.atomsAnd g D A w i)
    | 4#4 => rowIf e takesDAI true (.atomsOr g D A w i)
    | 5#4 => rowIf e takesDAI true (.atomsXor g D A w i)
    | 6#4 => rowIf e takesDAI true (.atomsXchg g D A w i)
    | 7#4 => rowIf e takesDAI true (.atomsCas g D A w i)
    | _ => .error .reservedCode
  | _, _ => .error .reservedCode

/-- Major 1001 (R62). -/
def decodeSync (e : Ext) (g : Guard) (m : BitVec 3) (d a f : BitVec 6) : Except DecodeError Instr :=
  let D := e.rd d
  let A := e.ra a
  let z := d == 0#6
  let zz := d == 0#6 && a == 0#6
  match m with
  | 0#3 =>
    let c := f.extractLsb' 2 2
    match (f.extractLsb' 4 2 : BitVec 2), (f.extractLsb' 0 2 : BitVec 2) with
    | 0#2, 0#2 => rowIf e {} zz (.fenceAcq g c)
    | 1#2, 0#2 => rowIf e {} zz (.fenceRel g c)
    | 2#2, 0#2 => rowIf e {} zz (.fenceAr g c)
    | _, _ => .error .reservedCode
  | 1#3 => if f = 0#6 then rowIf e {} zz (.drain g) else .error .reservedCode
  | 2#3 => rowIf e {} (a == 0#6) (.waitc g d f)
  | 3#3 => if f = 0#6 then rowIf e {} zz (.bar g) else .error .reservedCode
  | 4#3 =>
    match f with
    | 0#6 => rowIf e { a := true } z (.gbara g A)
    | 1#6 => rowIf e { a := true } z (.gbarw g A)
    | _ => .error .reservedCode
  | 5#3 => if f = 0#6 then rowIf e takesDA true (.awinit g D A) else .error .reservedCode
  | 6#3 => if f = 0#6 then rowIf e takesDA true (.awadd g D A) else .error .reservedCode
  | _ =>
    match f with
    | 0#6 => rowIf e { d := true } (a.extractLsb' 1 5 == 0#5) (.awwait g D (a.extractLsb' 0 1))
    | 1#6 => rowIf e { a := true } true (.awtest g d A)
    | _ => .error .reservedCode

/-- Major 1010 (R63). -/
def decodeBr (e : Ext) (g : Guard) (m : BitVec 3) (d a f : BitVec 6) : Except DecodeError Instr :=
  let D := e.rd d
  let A := e.ra a
  let zz := d == 0#6 && a == 0#6
  match m with
  | 0#3 => rowIf e { i := true } true (.bra g (e.im (d ++ (a ++ f))))
  | 1#3 => rowIf e { i := true } true (.call g (e.im (d ++ (a ++ f))))
  | 2#3 =>
    match f with
    | 0#6 => rowIf e { a := true } (d == 0#6) (.brx g A)
    | 1#6 => rowIf e { a := true } (d == 0#6) (.callx g A)
    | _ => .error .reservedCode
  | 3#3 =>
    match f with
    | 0#6 => rowIf e {} zz (.ret g)
    | 1#6 => rowIf e {} zz (.exit g)
    | 2#6 => rowIf e {} zz (.nop g)
    | 3#6 => rowIf e {} zz (.endl g)
    | 4#6 => rowIf e {} zz (.brk g)
    | _ => .error .reservedCode
  | 4#3 => rowIf e { d := true, i := true } true (.loopLc0 g D (e.im (a ++ f)))
  | 5#3 => rowIf e { d := true, i := true } true (.loopLc1 g D (e.im (a ++ f)))
  | 6#3 => rowIf e { d := true } true (.loopp g D (a.extractLsb' 4 2) (a.extractLsb' 0 4 ++ f))
  | _ => rowIf e { d := true, i := true } true (.item g D (e.im (a ++ f)))

/-- Major 1011 (R64). -/
def decodeEng (e : Ext) (g : Guard) (m : BitVec 3) (d a f : BitVec 6) : Except DecodeError Instr :=
  let D := e.rd d
  let A := e.ra a
  let z := d == 0#6
  let zz := d == 0#6 && a == 0#6
  let onA : Takes := { a := true }
  if m = 2#3 then
    if f.extractLsb' 5 1 = 0#1 ∧ f.extractLsb' 0 3 = 0#3 then rowIf e onA z (.gath g A (f.extractLsb' 3 2))
    else .error .reservedCode
  else match m, f with
  | 0#3, 0x00#6 => rowIf e onA z (.cpy g A)
  | 0#3, 0x01#6 => rowIf e onA z (.cpyTag g A)
  | 1#3, 0x00#6 => rowIf e takesDA true (.cpys g D A)
  | 3#3, 0x00#6 => rowIf e onA z (.mxcfg g A)
  | 3#3, 0x08#6 => rowIf e onA z (.mxshape g A)
  | 3#3, 0x10#6 => rowIf e onA z (.mxldw g A)
  | 3#3, 0x18#6 => rowIf e onA z (.mxq g A)
  | 3#3, 0x20#6 => rowIf e {} zz (.mxdrain g)
  | 3#3, 0x28#6 => rowIf e onA true (.cbload g d A)
  | 4#3, 0x00#6 => rowIf e {} zz (.ntake g)
  | 4#3, 0x08#6 => rowIf e {} zz (.npass g)
  | 4#3, 0x10#6 => rowIf e { d := true } (a == 0#6) (.ntest g D)
  | 5#3, 0x00#6 => rowIf e onA z (.ray g A)
  | 5#3, 0x01#6 => rowIf e onA z (.rayAny g A)
  | 5#3, 0x08#6 => rowIf e onA z (.ovlp g A)
  | 5#3, 0x10#6 => rowIf e onA z (.refit g A)
  | 6#3, 0x00#6 => rowIf e onA z (.draw g A)
  | 6#3, 0x01#6 => rowIf e onA z (.drawEz g A)
  | _, _ => .error .reservedCode

/-- Major 1100 (R65). -/
def decodeTask (e : Ext) (g : Guard) (m : BitVec 3) (d a f : BitVec 6) : Except DecodeError Instr :=
  let D := e.rd d
  let A := e.ra a
  let z := d == 0#6
  let zz := d == 0#6 && a == 0#6
  let onA : Takes := { a := true }
  match m with
  | 4#3 => rowIf e takesDAB true (.wave g D A (e.rb f))
  | m =>
    match m, f with
    | 0#3, 0#6 => rowIf e onA z (.tenq g A)
    | 1#3, 0#6 => rowIf e onA z (.tdec g A)
    | 2#3, 0#6 => rowIf e takesDA true (.lnch g D A)
    | 3#3, 0#6 => rowIf e onA z (.iqpush g A)
    | 5#3, 0#6 => rowIf e {} zz (.iqclose g)
    | 5#3, 1#6 => rowIf e {} zz (.wavew g)
    | 5#3, 2#6 => rowIf e onA z (.setdl g A)
    | 6#3, 0#6 => rowIf e takesDA true (.restag g D A)
    | 6#3, 1#6 => rowIf e takesDA true (.resq g D A)
    | 6#3, 2#6 => rowIf e onA z (.resdrop g A)
    | _, _ => .error .reservedCode

/-- Major 1101 (R66). -/
def decodeSys (e : Ext) (g : Guard) (m : BitVec 3) (d a f : BitVec 6) : Except DecodeError Instr :=
  let D := e.rd d
  let A := e.ra a
  let z := d == 0#6
  let zz := d == 0#6 && a == 0#6
  let onA : Takes := { a := true }
  match m with
  | 0#3 => rowIf e { d := true } (a == 0#6) (.movsr g D f)
  | 1#3 => rowIf e { d := true } true (.csrr g D (a ++ f))
  | 2#3 => rowIf e { d := true } true (.csrw g D (a ++ f))
  | 3#3 =>
    match f with
    | 0#6 => rowIf e takesDA true (.svc g D A)
    | 1#6 => rowIf e onA z (.trap g A)
    | 2#6 => rowIf e {} zz (.eret g)
    | 3#6 => rowIf e {} zz (.wfe g)
    | 4#6 => rowIf e onA z (.evsig g A)
    | 5#6 => rowIf e onA z (.tlbinv g A)
    | _ => .error .reservedCode
  | 4#3 => if f = 0#6 then rowIf e onA z (.own g A) else .error .reservedCode
  | 5#3 => if f = 0#6 then rowIf e onA z (.ctxsv g A) else .error .reservedCode
  | 6#3 => if f = 0#6 then rowIf e onA z (.ctxld g A) else .error .reservedCode
  | _ => .error .reservedCode

/-- One slot's word with what the extension field gives it. The stop bit is the bundle's. -/
def decodeSlot (e : Ext) (w : Word) : Except DecodeError Instr :=
  let g := w.extractLsb' 21 6
  let m := w.extractLsb' 18 3
  let d := w.extractLsb' 12 6
  let a := w.extractLsb' 6 6
  let f := w.extractLsb' 0 6
  match (w.extractLsb' 27 4 : BitVec 4) with
  | 1#4 => decodeInt e g m d a f
  | 2#4 => decodeInti e g m d a f
  | 3#4 => decodeFp32 e g m d a f
  | 4#4 => decodeFp64 e g m d a f
  | 5#4 => decodeLane e g m d a f
  | 6#4 => decodeLd e g m d a f
  | 7#4 => decodeSt e g m d a f
  | 8#4 => decodeAtom e g m d a f
  | 9#4 => decodeSync e g m d a f
  | 10#4 => decodeBr e g m d a f
  | 11#4 => decodeEng e g m d a f
  | 12#4 => decodeTask e g m d a f
  | 13#4 => decodeSys e g m d a f
  | 14#4 => decodeSfu e g m d a f
  | _ => .error .illegalMajor

/-- The stop bit of a word. -/
def stopBit (w : Word) : Bool := w.extractLsb' 31 1 == 1#1
/-- The major of a word. -/
def majorOf (w : Word) : Nat := (w.extractLsb' 27 4).toNat

/-- A decoded bundle (R28 to R35). `words` is its length, `empties` the empty bundles issued for it: the
E of a bundle with slots, or E + 1 for a one-word header. -/
structure Bundle where
  words : Nat
  empties : Nat
  yield : Bool
  marker : Bool
  weight : Nat
  a : Option Instr
  b : Option Instr
  c : Option Instr
  deriving DecidableEq, Repr

/-- The instructions of the present slots, in order. -/
def Bundle.slots (b : Bundle) : List (SlotPos × Instr) :=
  (b.a.toList.map fun i => (.a, i)) ++ (b.b.toList.map fun i => (.b, i)) ++ (b.c.toList.map fun i => (.c, i))

/-- A bundle of no instruction (R31, P = 000). -/
def Bundle.isEmpty (b : Bundle) : Bool := b.a.isNone && b.b.isNone && b.c.isNone

/-- What the extension field X gives slot A, B and C (R36, R37), or the refusal of a reserved bit (R39). -/
def extOf (x : BitVec 14) : Except DecodeError (Ext × Ext × Ext) :=
  let bit (n : Nat) : BitVec 1 := x.extractLsb' n 1
  let lent : BitVec 8 := x.extractLsb' 4 8
  match (x.extractLsb' 12 2 : BitVec 2) with
  | 0#2 =>
    if x.extractLsb' 9 3 = 0#3 then
      .ok ({ dh := bit 8, ah := bit 7, bh := bit 6 }, { dh := bit 5, ah := bit 4, bh := bit 3 },
        { dh := bit 2, ah := bit 1, bh := bit 0 })
    else .error .extension
  | 1#2 => .ok ({ dh := bit 3, ah := bit 2, imm := some lent }, { dh := bit 1 }, { dh := bit 0 })
  | 2#2 => .ok ({ dh := bit 1 }, { dh := bit 3, ah := bit 2, imm := some lent }, { dh := bit 0 })
  | _ => .ok ({ dh := bit 1 }, { dh := bit 0 }, { dh := bit 3, ah := bit 2, imm := some lent })

/-- Nothing is lent (R39: to an absent slot). -/
def Ext.isZero (e : Ext) : Bool := e == {}

/-- No register high bit (R39: in a bundle of a lead strand). -/
def Ext.noHigh (e : Ext) : Bool := e.dh == 0#1 && e.ah == 0#1 && e.bh == 0#1

/-- The place of a slot in the order A, B, C. -/
def SlotPos.rank : SlotPos → Nat
  | .a => 0
  | .b => 1
  | .c => 2

/-- The earliest slot at or after `from` that accepts the major (R28). -/
def nextSlot (ex : Executor) (major : Nat) (start : Nat) : Option SlotPos :=
  ([.a, .b, .c] : List SlotPos).find? fun p => start ≤ p.rank && majorAccepts ex major p

/-- Put a decoded word into its slot. -/
def Bundle.put (b : Bundle) (p : SlotPos) (i : Instr) : Bundle :=
  match p with
  | .a => { b with a := some i }
  | .b => { b with b := some i }
  | .c => { b with c := some i }

/-- The words of a headerless run take their slots in order (R28). -/
def placeWords (ex : Executor) : List Word → Nat → Bundle → Except DecodeError Bundle
  | [], _, b => .ok b
  | w :: ws, start, b =>
    match nextSlot ex (majorOf w) start with
    | none => .error (if majorOf w = 0 then .illegalMajor else .noSlot)
    | some p =>
      match decodeSlot {} w with
      | .error err => .error err
      | .ok i => placeWords ex ws (p.rank + 1) (b.put p i)

/-- A word of a headed bundle stands in the slot the mask gives it (R30). -/
def slotAt (ex : Executor) (p : SlotPos) (e : Ext) (w : Word) : Except DecodeError Instr :=
  if majorAccepts ex (majorOf w) p then decodeSlot e w
  else .error (if majorOf w = 0 then .illegalMajor else .noSlot)

/-- The slots the presence mask P names, in order (R29). -/
def present (p : BitVec 3) : List SlotPos :=
  (if p.extractLsb' 2 1 = 1#1 then [.a] else []) ++ (if p.extractLsb' 1 1 = 1#1 then [.b] else []) ++
    (if p.extractLsb' 0 1 = 1#1 then [.c] else [])

/-- The slot words after a header (R30). -/
def placeHeaded (ex : Executor) (ea eb ec : Ext) : List SlotPos → List Word → Bundle → Except DecodeError Bundle
  | [], _, b => .ok b
  | _ :: _, [], _ => .error .stopBit
  | p :: ps, w :: ws, b =>
    if stopBit w != ps.isEmpty then .error .stopBit
    else match slotAt ex p (match p with | .a => ea | .b => eb | .c => ec) w with
      | .error err => .error err
      | .ok i => placeHeaded ex ea eb ec ps ws (b.put p i)

/-- The bundle a header opens (R29 to R39); the words after the header follow it in `ws`. -/
def decodeHeaded (ex : Executor) (h : Word) (ws : List Word) : Except DecodeError Bundle :=
  let pm : BitVec 3 := h.extractLsb' 24 3
  let ps := present pm
  let e := (h.extractLsb' 20 4).toNat
  let y := h.extractLsb' 19 1 == 1#1
  let base : Bundle :=
    { words := 1 + ps.length, empties := if ps.isEmpty then e + 1 else e, yield := y,
      marker := h.extractLsb' 18 1 == 1#1, weight := (h.extractLsb' 14 4).toNat, a := none, b := none, c := none }
  if stopBit h != ps.isEmpty then .error .stopBit
  else if y && ex == .thread then .error .yieldBit
  else match extOf (h.extractLsb' 0 14) with
    | .error err => .error err
    | .ok (ea, eb, ec) =>
      if (!ps.contains .a && !ea.isZero) || (!ps.contains .b && !eb.isZero) || (!ps.contains .c && !ec.isZero)
        || (ex == .lead && !(ea.noHigh && eb.noHigh && ec.noHigh)) then .error .extension
      else match placeHeaded ex ea eb ec ps ws base with
        | .error err => .error err
        | .ok b =>
          if y && (b.a.any fun i => i.info.major == 10) then .error .yieldBit else .ok b

/-- Whether the words read so far call for another (R28 to R30): the run ends at the first stop bit, at
three words, or where the header's mask is filled. -/
def wantsWord : List Word → Bool
  | [] => true
  | w :: ws =>
    if stopBit w then false
    else if majorOf w = 15 then
      ws.length < (present (w.extractLsb' 24 3)).length && !(ws.any stopBit)
    else ws.length < 2 && !(ws.any stopBit)

/-- The bundle that the words form, all checks of the encoding but those of the launch's registers
(R26 to R39): the words are those `wantsWord` asked for. -/
def decodeBundle (ex : Executor) (ws : List Word) : Except DecodeError Bundle :=
  match ws with
  | [] => .error .illegalMajor
  | w :: rest =>
    if majorOf w = 15 then decodeHeaded ex w rest
    else if !(ws.getLast?.any stopBit) then .error .stopBit
    else placeWords ex ws 0
      { words := ws.length, empties := 0, yield := false, marker := false, weight := 0, a := none, b := none, c := none }

/-- The checks on registers, guards, executors and overlapping destinations (R26, R40, R43, R44, R67);
`bound` is the launch's registers per thread, or 64 in lead code. -/
def Bundle.check (ex : Executor) (bound : Nat) (b : Bundle) : Except DecodeError Bundle :=
  let is := b.slots.map (·.2)
  if !(is.all (Instr.legalFor ex bound)) then .error .operand
  else
    let clash (x y : Option Instr) : Bool :=
      match x, y with
      | some i, some j => dstsOverlap (i.dsts ex) (j.dsts ex)
      | _, _ => false
    if clash b.a b.b || clash b.a b.c || clash b.b b.c then .error .overlap else .ok b

/-- The highest class of the present slots; T0 for an empty bundle (R35). -/
def Bundle.cls (b : Bundle) : Nat := b.slots.foldl (fun m p => max m p.2.info.cls) 0

/-- The effective weight: the larger of W and the default sum (R35). -/
def Bundle.effWeight (b : Bundle) : Nat := max b.weight ((b.slots.map (·.2.info.wt)).foldl (· + ·) 0)

/-- The instruction the decoder reads from a row's bits: a header of P = 000, or one slot's word with
nothing lent. -/
def decodeTableWord (nbits w : Nat) : Option Instr :=
  if nbits != 32 then none
  else
    let v : Word := BitVec.ofNat 32 w
    if majorOf v = 15 then
      let i : Instr := .emptyBundle (v.extractLsb' 20 4) (v.extractLsb' 19 1) (v.extractLsb' 18 1)
        (v.extractLsb' 14 4) (v.extractLsb' 0 14)
      if v.extractLsb' 24 3 = 0#3 && stopBit v && i.wf then some i else none
    else match decodeSlot {} v with
      | .ok i => some i
      | .error _ => none

/-! The encoder: one instruction as a bundle of its own, from the same tables. -/

/-- A slot word with S = 1. -/
def mkWord (major : BitVec 4) (g : Guard) (m : BitVec 3) (d a f : BitVec 6) : Word :=
  1#1 ++ major ++ g ++ m ++ d ++ a ++ f

/-- The six bits of a register field. -/
def lo6 (r : Reg) : BitVec 6 := r.extractLsb' 0 6
/-- The bits of an immediate that the word holds. -/
def Imm.lo {n : Nat} : Imm n → BitVec n
  | .short i => i
  | .long i => i.extractLsb' 0 n
/-- The bits of an immediate that are lent. -/
def Imm.hi {n : Nat} : Imm n → Option (BitVec 8)
  | .short _ => none
  | .long i => some (i.extractLsb' n 8)

/-- The upper six bits of a twelve-bit field. -/
def hi12 (x : BitVec 12) : BitVec 6 := x.extractLsb' 6 6
/-- The lower six bits of a twelve-bit field. -/
def lo12 (x : BitVec 12) : BitVec 6 := x.extractLsb' 0 6

/-- Bits [n + 5 : n] of an eighteen-bit offset. -/
def i18 (x : BitVec 18) (n : Nat) : BitVec 6 := x.extractLsb' n 6

/-- The slot word of an instruction, S = 1 (R41, R50 to R66). -/
def encodeWord : Instr → Word
  | .iadd g d a b => mkWord 1#4 g 0#3 (lo6 d) (lo6 a) (lo6 b)
  | .isub g d a b => mkWord 1#4 g 1#3 (lo6 d) (lo6 a) (lo6 b)
  | .imul g d a b => mkWord 1#4 g 2#3 (lo6 d) (lo6 a) (lo6 b)
  | .imad g d a b => mkWord 1#4 g 3#3 (lo6 d) (lo6 a) (lo6 b)
  | .icmp g x y hc k => mkWord 1#4 g 4#3 (lo6 x) (lo6 y) (hc ++ k)
  | .icmpD g x y hc k => mkWord 1#4 g 5#3 (lo6 x) (lo6 y) (hc ++ k)
  | .iand g d a => mkWord 1#4 g 6#3 (lo6 d) (lo6 a) 0x00#6
  | .ior g d a => mkWord 1#4 g 6#3 (lo6 d) (lo6 a) 0x01#6
  | .ixor g d a => mkWord 1#4 g 6#3 (lo6 d) (lo6 a) 0x02#6
  | .ishl g d a => mkWord 1#4 g 6#3 (lo6 d) (lo6 a) 0x03#6
  | .ishr g d a => mkWord 1#4 g 6#3 (lo6 d) (lo6 a) 0x04#6
  | .isra g d a => mkWord 1#4 g 6#3 (lo6 d) (lo6 a) 0x05#6
  | .imin g d a => mkWord 1#4 g 6#3 (lo6 d) (lo6 a) 0x06#6
  | .imax g d a => mkWord 1#4 g 6#3 (lo6 d) (lo6 a) 0x07#6
  | .iminu g d a => mkWord 1#4 g 6#3 (lo6 d) (lo6 a) 0x08#6
  | .imaxu g d a => mkWord 1#4 g 6#3 (lo6 d) (lo6 a) 0x09#6
  | .imulh g d a => mkWord 1#4 g 6#3 (lo6 d) (lo6 a) 0x0A#6
  | .imulhu g d a => mkWord 1#4 g 6#3 (lo6 d) (lo6 a) 0x0B#6
  | .iabs g d a => mkWord 1#4 g 6#3 (lo6 d) (lo6 a) 0x0C#6
  | .popc g d a => mkWord 1#4 g 6#3 (lo6 d) (lo6 a) 0x0D#6
  | .clz g d a => mkWord 1#4 g 6#3 (lo6 d) (lo6 a) 0x0E#6
  | .brev g d a => mkWord 1#4 g 6#3 (lo6 d) (lo6 a) 0x0F#6
  | .bfe g d a => mkWord 1#4 g 6#3 (lo6 d) (lo6 a) 0x10#6
  | .bfi g d a => mkWord 1#4 g 6#3 (lo6 d) (lo6 a) 0x11#6
  | .lea g d a k => mkWord 1#4 g 6#3 (lo6 d) (lo6 a) (3#3 ++ k)
  | .plop g d a t => mkWord 1#4 g 7#3 d a (0#2 ++ t)
  | .pset g d a => mkWord 1#4 g 7#3 d (lo6 a) 0x10#6
  | .p2g g d blk => mkWord 1#4 g 7#3 (lo6 d) blk 0x11#6
  | .g2p g blk a => mkWord 1#4 g 7#3 blk (lo6 a) 0x12#6
  | .iaddD g d a => mkWord 1#4 g 7#3 (lo6 d) (lo6 a) 0x20#6
  | .iaddImm g d a i => mkWord 2#4 g 0#3 (lo6 d) (lo6 a) (i.lo)
  | .ishlImm g d a i => mkWord 2#4 g 1#3 (lo6 d) (lo6 a) (i.lo)
  | .ishrImm g d a i => mkWord 2#4 g 2#3 (lo6 d) (lo6 a) (i.lo)
  | .israImm g d a i => mkWord 2#4 g 3#3 (lo6 d) (lo6 a) (i.lo)
  | .iandImm g d a i => mkWord 2#4 g 4#3 (lo6 d) (lo6 a) (i.lo)
  | .isel g d a p => mkWord 2#4 g 5#3 (lo6 d) (lo6 a) p
  | .movi g d i => mkWord 2#4 g 6#3 (lo6 d) (hi12 i.lo) (lo12 i.lo)
  | .movh g d i => mkWord 2#4 g 7#3 (lo6 d) (hi12 i) (lo12 i)
  | .movh20 g d i => mkWord 2#4 g 7#3 (lo6 d) (i.extractLsb' 6 6) (i.extractLsb' 0 6)
  | .fadd g d a b => mkWord 3#4 g 0#3 (lo6 d) (lo6 a) (lo6 b)
  | .fsub g d a b => mkWord 3#4 g 1#3 (lo6 d) (lo6 a) (lo6 b)
  | .fmul g d a b => mkWord 3#4 g 2#3 (lo6 d) (lo6 a) (lo6 b)
  | .ffma g d a b => mkWord 3#4 g 3#3 (lo6 d) (lo6 a) (lo6 b)
  | .ffms g d a b => mkWord 3#4 g 4#3 (lo6 d) (lo6 a) (lo6 b)
  | .pkfmaF16 g d a b => mkWord 3#4 g 5#3 (lo6 d) (lo6 a) (lo6 b)
  | .pkfmaBf16 g d a b => mkWord 3#4 g 6#3 (lo6 d) (lo6 a) (lo6 b)
  | .fmin g d a => mkWord 3#4 g 7#3 (lo6 d) (lo6 a) 0#6
  | .fmax g d a => mkWord 3#4 g 7#3 (lo6 d) (lo6 a) 1#6
  | .pkaddF16 g d a => mkWord 3#4 g 7#3 (lo6 d) (lo6 a) 2#6
  | .pkaddBf16 g d a => mkWord 3#4 g 7#3 (lo6 d) (lo6 a) 3#6
  | .frnd g d a rm => mkWord 3#4 g 7#3 (lo6 d) (lo6 a) (1#4 ++ rm)
  | .fclass g d a => mkWord 3#4 g 7#3 (lo6 d) (lo6 a) 8#6
  | .faddRm g d a rm => mkWord 3#4 g 7#3 (lo6 d) (lo6 a) (4#4 ++ rm)
  | .fsubRm g d a rm => mkWord 3#4 g 7#3 (lo6 d) (lo6 a) (5#4 ++ rm)
  | .fmulRm g d a rm => mkWord 3#4 g 7#3 (lo6 d) (lo6 a) (6#4 ++ rm)
  | .dadd g d a b => mkWord 4#4 g 0#3 (lo6 d) (lo6 a) (lo6 b)
  | .dmul g d a b => mkWord 4#4 g 1#3 (lo6 d) (lo6 a) (lo6 b)
  | .dfma g d a b => mkWord 4#4 g 2#3 (lo6 d) (lo6 a) (lo6 b)
  | .ddiv g d a b => mkWord 4#4 g 3#3 (lo6 d) (lo6 a) (lo6 b)
  | .fdiv g d a b => mkWord 4#4 g 4#3 (lo6 d) (lo6 a) (lo6 b)
  | .dcmp g x y hc k => mkWord 4#4 g 5#3 (lo6 x) (lo6 y) (hc ++ k)
  | .dmin g d a => mkWord 4#4 g 6#3 (lo6 d) (lo6 a) 0#6
  | .dmax g d a => mkWord 4#4 g 6#3 (lo6 d) (lo6 a) 1#6
  | .daddRm g d a rm => mkWord 4#4 g 6#3 (lo6 d) (lo6 a) (1#4 ++ rm)
  | .dmulRm g d a rm => mkWord 4#4 g 6#3 (lo6 d) (lo6 a) (2#4 ++ rm)
  | .dsqrt g d a rm => mkWord 4#4 g 6#3 (lo6 d) (lo6 a) (4#4 ++ rm)
  | .fsqrt g d a rm => mkWord 4#4 g 6#3 (lo6 d) (lo6 a) (5#4 ++ rm)
  | .fexp2 g d a => mkWord 14#4 g 0#3 (lo6 d) (lo6 a) 0#6
  | .flog2 g d a => mkWord 14#4 g 0#3 (lo6 d) (lo6 a) 1#6
  | .fsin g d a => mkWord 14#4 g 0#3 (lo6 d) (lo6 a) 2#6
  | .fcos g d a => mkWord 14#4 g 0#3 (lo6 d) (lo6 a) 3#6
  | .frcp g d a => mkWord 14#4 g 0#3 (lo6 d) (lo6 a) 4#6
  | .frsq g d a => mkWord 14#4 g 0#3 (lo6 d) (lo6 a) 5#6
  | .fcmp g x y hc k => mkWord 14#4 g 1#3 (lo6 x) (lo6 y) (hc ++ k)
  | .qmax g a j => mkWord 14#4 g 2#3 0#6 (lo6 a) (j ++ 0#3)
  | .qcvtI8 g d a => mkWord 14#4 g 3#3 (lo6 d) (lo6 a) 0x00#6
  | .qcvtCb4 g d a => mkWord 14#4 g 3#3 (lo6 d) (lo6 a) 0x01#6
  | .dqI8 g d a => mkWord 14#4 g 3#3 (lo6 d) (lo6 a) 0x10#6
  | .dqCb4 g d a => mkWord 14#4 g 3#3 (lo6 d) (lo6 a) 0x11#6
  | .cbsel g d a => mkWord 14#4 g 3#3 (lo6 d) (lo6 a) 0x20#6
  | .cvt g rm d a dst src => mkWord 14#4 g (1#1 ++ rm) (lo6 d) (lo6 a) (dst ++ src)
  | .shflIdx g d a j => mkWord 5#4 g 0#3 (lo6 d) (lo6 a) (j ++ 0#3)
  | .shflUp g d a j => mkWord 5#4 g 0#3 (lo6 d) (lo6 a) (j ++ 1#3)
  | .shflDown g d a j => mkWord 5#4 g 0#3 (lo6 d) (lo6 a) (j ++ 2#3)
  | .shflXor g d a j => mkWord 5#4 g 0#3 (lo6 d) (lo6 a) (j ++ 3#3)
  | .matchLanes g d a j => mkWord 5#4 g 2#3 (lo6 d) (lo6 a) (j ++ 0#3)
  | .scanAdd g d a j => mkWord 5#4 g 3#3 (lo6 d) (lo6 a) (j ++ 0#3)
  | .scanAddEx g d a j => mkWord 5#4 g 3#3 (lo6 d) (lo6 a) (j ++ 1#3)
  | .redAdd g d a j => mkWord 5#4 g 4#3 (lo6 d) (lo6 a) (j ++ 0#3)
  | .redMin g d a j => mkWord 5#4 g 4#3 (lo6 d) (lo6 a) (j ++ 1#3)
  | .redMax g d a j => mkWord 5#4 g 4#3 (lo6 d) (lo6 a) (j ++ 2#3)
  | .fredAdd g d a j => mkWord 5#4 g 5#3 (lo6 d) (lo6 a) (j ++ 0#3)
  | .voteAny g d a j => mkWord 5#4 g 1#3 d a (j ++ 0#3)
  | .voteAll g d a j => mkWord 5#4 g 1#3 d a (j ++ 1#3)
  | .voteBallot g d a j => mkWord 5#4 g 1#3 (lo6 d) a (j ++ 2#3)
  | .jset g a j => mkWord 5#4 g 6#3 0#6 (lo6 a) (j ++ 0#3)
  | .jsetGrp g j => mkWord 5#4 g 6#3 0#6 0#6 (j ++ 1#3)
  | .join g j => mkWord 5#4 g 7#3 0#6 0#6 (j ++ 0#3)
  | .ldg g d a sz _ => mkWord 6#4 g 0#3 (lo6 d) (lo6 a) (sz ++ 0#3)
  | .lds g d a sz _ => mkWord 6#4 g 1#3 (lo6 d) (lo6 a) (sz ++ 0#3)
  | .stg g d a sz _ => mkWord 7#4 g 0#3 (lo6 d) (lo6 a) (sz ++ 0#3)
  | .sts g d a sz _ => mkWord 7#4 g 1#3 (lo6 d) (lo6 a) (sz ++ 0#3)
  | .lda g d a w scp _ => mkWord 6#4 g 2#3 (lo6 d) (lo6 a) (1#2 ++ w ++ 0#1 ++ scp)
  | .stgRel g d a w scp _ => mkWord 7#4 g 2#3 (lo6 d) (lo6 a) (1#2 ++ w ++ 0#1 ++ scp)
  | .pref g a m _ => mkWord 6#4 g 3#3 0#6 (lo6 a) (0#5 ++ m)
  | .cinv g a scp _ => mkWord 6#4 g 4#3 0#6 (lo6 a) (0#4 ++ scp)
  | .cpin g a _ => mkWord 6#4 g 5#3 0#6 (lo6 a) 0#6
  | .cunpin g a _ => mkWord 6#4 g 6#3 0#6 (lo6 a) 0#6
  | .stc g d a => mkWord 7#4 g 3#3 (lo6 d) (lo6 a) 0#6
  | .atomAdd g d a ord scp w _ => mkWord 8#4 g 0#3 (lo6 d) (lo6 a) (ord ++ scp ++ w ++ 0#1)
  | .atomMin g d a ord scp w _ => mkWord 8#4 g 1#3 (lo6 d) (lo6 a) (ord ++ scp ++ w ++ 0#1)
  | .atomMax g d a ord scp w _ => mkWord 8#4 g 1#3 (lo6 d) (lo6 a) (ord ++ scp ++ w ++ 1#1)
  | .atomAnd g d a ord scp w _ => mkWord 8#4 g 2#3 (lo6 d) (lo6 a) (ord ++ scp ++ w ++ 0#1)
  | .atomOr g d a ord scp w _ => mkWord 8#4 g 3#3 (lo6 d) (lo6 a) (ord ++ scp ++ w ++ 0#1)
  | .atomXor g d a ord scp w _ => mkWord 8#4 g 4#3 (lo6 d) (lo6 a) (ord ++ scp ++ w ++ 0#1)
  | .xchg g d a ord scp w _ => mkWord 8#4 g 5#3 (lo6 d) (lo6 a) (ord ++ scp ++ w ++ 0#1)
  | .cas g d a ord scp w _ => mkWord 8#4 g 5#3 (lo6 d) (lo6 a) (ord ++ scp ++ w ++ 1#1)
  | .xadd g d a ord scp _ => mkWord 8#4 g 6#3 (lo6 d) (lo6 a) (ord ++ scp ++ 0#2)
  | .xrd g d a ord scp _ => mkWord 8#4 g 6#3 (lo6 d) (lo6 a) (ord ++ scp ++ 1#2)
  | .xrd64 g d a ord scp _ => mkWord 8#4 g 6#3 (lo6 d) (lo6 a) (ord ++ scp ++ 2#2)
  | .xclr g d a ord scp _ => mkWord 8#4 g 6#3 (lo6 d) (lo6 a) (ord ++ scp ++ 3#2)
  | .atomsAdd g d a w _ => mkWord 8#4 g 7#3 (lo6 d) (lo6 a) (0#4 ++ w ++ 0#1)
  | .atomsMin g d a w _ => mkWord 8#4 g 7#3 (lo6 d) (lo6 a) (1#4 ++ w ++ 0#1)
  | .atomsMax g d a w _ => mkWord 8#4 g 7#3 (lo6 d) (lo6 a) (2#4 ++ w ++ 0#1)
  | .atomsAnd g d a w _ => mkWord 8#4 g 7#3 (lo6 d) (lo6 a) (3#4 ++ w ++ 0#1)
  | .atomsOr g d a w _ => mkWord 8#4 g 7#3 (lo6 d) (lo6 a) (4#4 ++ w ++ 0#1)
  | .atomsXor g d a w _ => mkWord 8#4 g 7#3 (lo6 d) (lo6 a) (5#4 ++ w ++ 0#1)
  | .atomsXchg g d a w _ => mkWord 8#4 g 7#3 (lo6 d) (lo6 a) (6#4 ++ w ++ 0#1)
  | .atomsCas g d a w _ => mkWord 8#4 g 7#3 (lo6 d) (lo6 a) (7#4 ++ w ++ 0#1)
  | .fenceAcq g scp => mkWord 9#4 g 0#3 0#6 0#6 (0#2 ++ scp ++ 0#2)
  | .fenceRel g scp => mkWord 9#4 g 0#3 0#6 0#6 (1#2 ++ scp ++ 0#2)
  | .fenceAr g scp => mkWord 9#4 g 0#3 0#6 0#6 (2#2 ++ scp ++ 0#2)
  | .drain g => mkWord 9#4 g 1#3 0#6 0#6 0#6
  | .waitc g k n => mkWord 9#4 g 2#3 k 0#6 n
  | .bar g => mkWord 9#4 g 3#3 0#6 0#6 0#6
  | .gbara g a => mkWord 9#4 g 4#3 0#6 (lo6 a) 0#6
  | .gbarw g a => mkWord 9#4 g 4#3 0#6 (lo6 a) 1#6
  | .awinit g d a => mkWord 9#4 g 5#3 (lo6 d) (lo6 a) 0#6
  | .awadd g d a => mkWord 9#4 g 6#3 (lo6 d) (lo6 a) 0#6
  | .awwait g d h => mkWord 9#4 g 7#3 (lo6 d) (0#5 ++ h) 0#6
  | .awtest g k a => mkWord 9#4 g 7#3 k (lo6 a) 1#6
  | .bra g o => mkWord 10#4 g 0#3 (i18 o.lo 12) (i18 o.lo 6) (i18 o.lo 0)
  | .call g o => mkWord 10#4 g 1#3 (i18 o.lo 12) (i18 o.lo 6) (i18 o.lo 0)
  | .brx g a => mkWord 10#4 g 2#3 0#6 (lo6 a) 0#6
  | .callx g a => mkWord 10#4 g 2#3 0#6 (lo6 a) 1#6
  | .ret g => mkWord 10#4 g 3#3 0#6 0#6 0#6
  | .exit g => mkWord 10#4 g 3#3 0#6 0#6 1#6
  | .nop g => mkWord 10#4 g 3#3 0#6 0#6 2#6
  | .endl g => mkWord 10#4 g 3#3 0#6 0#6 3#6
  | .brk g => mkWord 10#4 g 3#3 0#6 0#6 4#6
  | .loopLc0 g a o => mkWord 10#4 g 4#3 (lo6 a) (hi12 o.lo) (lo12 o.lo)
  | .loopLc1 g a o => mkWord 10#4 g 5#3 (lo6 a) (hi12 o.lo) (lo12 o.lo)
  | .item g a o => mkWord 10#4 g 7#3 (lo6 a) (hi12 o.lo) (lo12 o.lo)
  | .loopp g a t o => mkWord 10#4 g 6#3 (lo6 a) (t ++ o.extractLsb' 6 4) (o.extractLsb' 0 6)
  | .cpy g a => mkWord 11#4 g 0#3 0#6 (lo6 a) 0x00#6
  | .cpyTag g a => mkWord 11#4 g 0#3 0#6 (lo6 a) 0x01#6
  | .mxcfg g a => mkWord 11#4 g 3#3 0#6 (lo6 a) 0x00#6
  | .mxshape g a => mkWord 11#4 g 3#3 0#6 (lo6 a) 0x08#6
  | .mxldw g a => mkWord 11#4 g 3#3 0#6 (lo6 a) 0x10#6
  | .mxq g a => mkWord 11#4 g 3#3 0#6 (lo6 a) 0x18#6
  | .ray g a => mkWord 11#4 g 5#3 0#6 (lo6 a) 0x00#6
  | .rayAny g a => mkWord 11#4 g 5#3 0#6 (lo6 a) 0x01#6
  | .ovlp g a => mkWord 11#4 g 5#3 0#6 (lo6 a) 0x08#6
  | .refit g a => mkWord 11#4 g 5#3 0#6 (lo6 a) 0x10#6
  | .draw g a => mkWord 11#4 g 6#3 0#6 (lo6 a) 0x00#6
  | .drawEz g a => mkWord 11#4 g 6#3 0#6 (lo6 a) 0x01#6
  | .cpys g d a => mkWord 11#4 g 1#3 (lo6 d) (lo6 a) 0#6
  | .gath g a e => mkWord 11#4 g 2#3 0#6 (lo6 a) (0#1 ++ e ++ 0#3)
  | .mxdrain g => mkWord 11#4 g 3#3 0#6 0#6 0x20#6
  | .cbload g n a => mkWord 11#4 g 3#3 n (lo6 a) 0x28#6
  | .ntake g => mkWord 11#4 g 4#3 0#6 0#6 0#6
  | .npass g => mkWord 11#4 g 4#3 0#6 0#6 8#6
  | .ntest g d => mkWord 11#4 g 4#3 (lo6 d) 0#6 0x10#6
  | .tenq g a => mkWord 12#4 g 0#3 0#6 (lo6 a) 0#6
  | .tdec g a => mkWord 12#4 g 1#3 0#6 (lo6 a) 0#6
  | .iqpush g a => mkWord 12#4 g 3#3 0#6 (lo6 a) 0#6
  | .setdl g a => mkWord 12#4 g 5#3 0#6 (lo6 a) 2#6
  | .resdrop g a => mkWord 12#4 g 6#3 0#6 (lo6 a) 2#6
  | .lnch g d a => mkWord 12#4 g 2#3 (lo6 d) (lo6 a) 0#6
  | .wave g d a b => mkWord 12#4 g 4#3 (lo6 d) (lo6 a) (lo6 b)
  | .iqclose g => mkWord 12#4 g 5#3 0#6 0#6 0#6
  | .wavew g => mkWord 12#4 g 5#3 0#6 0#6 1#6
  | .restag g d a => mkWord 12#4 g 6#3 (lo6 d) (lo6 a) 0#6
  | .resq g d a => mkWord 12#4 g 6#3 (lo6 d) (lo6 a) 1#6
  | .movsr g d f => mkWord 13#4 g 0#3 (lo6 d) 0#6 f
  | .csrr g d c => mkWord 13#4 g 1#3 (lo6 d) (hi12 c) (lo12 c)
  | .csrw g d c => mkWord 13#4 g 2#3 (lo6 d) (hi12 c) (lo12 c)
  | .svc g d a => mkWord 13#4 g 3#3 (lo6 d) (lo6 a) 0#6
  | .trap g a => mkWord 13#4 g 3#3 0#6 (lo6 a) 1#6
  | .eret g => mkWord 13#4 g 3#3 0#6 0#6 2#6
  | .wfe g => mkWord 13#4 g 3#3 0#6 0#6 3#6
  | .evsig g a => mkWord 13#4 g 3#3 0#6 (lo6 a) 4#6
  | .tlbinv g a => mkWord 13#4 g 3#3 0#6 (lo6 a) 5#6
  | .own g a => mkWord 13#4 g 4#3 0#6 (lo6 a) 0#6
  | .ctxsv g a => mkWord 13#4 g 5#3 0#6 (lo6 a) 0#6
  | .ctxld g a => mkWord 13#4 g 6#3 0#6 (lo6 a) 0#6
  | .emptyBundle e y m w x => 1#1 ++ 15#4 ++ 0#3 ++ e ++ y ++ m ++ w ++ x
  | _ => 0#32

/-- Bit 6 of a register field. -/
def hi (r : Reg) : BitVec 1 := r.extractLsb' 6 1

/-- What an instruction needs of the extension field (R36 to R38). -/
def extNeeded : Instr → Ext
  | .iadd _ d a b => { dh := hi d, ah := hi a, bh := hi b }
  | .isub _ d a b => { dh := hi d, ah := hi a, bh := hi b }
  | .imul _ d a b => { dh := hi d, ah := hi a, bh := hi b }
  | .imad _ d a b => { dh := hi d, ah := hi a, bh := hi b }
  | .icmp _ x y _ _ => { dh := hi x, ah := hi y }
  | .icmpD _ x y _ _ => { dh := hi x, ah := hi y }
  | .iand _ d a => { dh := hi d, ah := hi a }
  | .ior _ d a => { dh := hi d, ah := hi a }
  | .ixor _ d a => { dh := hi d, ah := hi a }
  | .ishl _ d a => { dh := hi d, ah := hi a }
  | .ishr _ d a => { dh := hi d, ah := hi a }
  | .isra _ d a => { dh := hi d, ah := hi a }
  | .imin _ d a => { dh := hi d, ah := hi a }
  | .imax _ d a => { dh := hi d, ah := hi a }
  | .iminu _ d a => { dh := hi d, ah := hi a }
  | .imaxu _ d a => { dh := hi d, ah := hi a }
  | .imulh _ d a => { dh := hi d, ah := hi a }
  | .imulhu _ d a => { dh := hi d, ah := hi a }
  | .iabs _ d a => { dh := hi d, ah := hi a }
  | .popc _ d a => { dh := hi d, ah := hi a }
  | .clz _ d a => { dh := hi d, ah := hi a }
  | .brev _ d a => { dh := hi d, ah := hi a }
  | .bfe _ d a => { dh := hi d, ah := hi a }
  | .bfi _ d a => { dh := hi d, ah := hi a }
  | .lea _ d a _ => { dh := hi d, ah := hi a }
  | .pset _ _ a => { ah := hi a }
  | .p2g _ d _ => { dh := hi d }
  | .g2p _ _ a => { ah := hi a }
  | .iaddD _ d a => { dh := hi d, ah := hi a }
  | .iaddImm _ d a i => { dh := hi d, ah := hi a, imm := i.hi }
  | .ishlImm _ d a i => { dh := hi d, ah := hi a, imm := i.hi }
  | .ishrImm _ d a i => { dh := hi d, ah := hi a, imm := i.hi }
  | .israImm _ d a i => { dh := hi d, ah := hi a, imm := i.hi }
  | .iandImm _ d a i => { dh := hi d, ah := hi a, imm := i.hi }
  | .isel _ d a _ => { dh := hi d, ah := hi a }
  | .movi _ d i => { dh := hi d, imm := i.hi }
  | .movh _ d _ => { dh := hi d }
  | .movh20 _ d i => { dh := hi d, imm := some (i.extractLsb' 12 8) }
  | .fadd _ d a b => { dh := hi d, ah := hi a, bh := hi b }
  | .fsub _ d a b => { dh := hi d, ah := hi a, bh := hi b }
  | .fmul _ d a b => { dh := hi d, ah := hi a, bh := hi b }
  | .ffma _ d a b => { dh := hi d, ah := hi a, bh := hi b }
  | .ffms _ d a b => { dh := hi d, ah := hi a, bh := hi b }
  | .pkfmaF16 _ d a b => { dh := hi d, ah := hi a, bh := hi b }
  | .pkfmaBf16 _ d a b => { dh := hi d, ah := hi a, bh := hi b }
  | .fmin _ d a => { dh := hi d, ah := hi a }
  | .fmax _ d a => { dh := hi d, ah := hi a }
  | .pkaddF16 _ d a => { dh := hi d, ah := hi a }
  | .pkaddBf16 _ d a => { dh := hi d, ah := hi a }
  | .frnd _ d a _ => { dh := hi d, ah := hi a }
  | .fclass _ d a => { dh := hi d, ah := hi a }
  | .faddRm _ d a _ => { dh := hi d, ah := hi a }
  | .fsubRm _ d a _ => { dh := hi d, ah := hi a }
  | .fmulRm _ d a _ => { dh := hi d, ah := hi a }
  | .dadd _ d a b => { dh := hi d, ah := hi a, bh := hi b }
  | .dmul _ d a b => { dh := hi d, ah := hi a, bh := hi b }
  | .dfma _ d a b => { dh := hi d, ah := hi a, bh := hi b }
  | .ddiv _ d a b => { dh := hi d, ah := hi a, bh := hi b }
  | .fdiv _ d a b => { dh := hi d, ah := hi a, bh := hi b }
  | .dcmp _ x y _ _ => { dh := hi x, ah := hi y }
  | .dmin _ d a => { dh := hi d, ah := hi a }
  | .dmax _ d a => { dh := hi d, ah := hi a }
  | .daddRm _ d a _ => { dh := hi d, ah := hi a }
  | .dmulRm _ d a _ => { dh := hi d, ah := hi a }
  | .dsqrt _ d a _ => { dh := hi d, ah := hi a }
  | .fsqrt _ d a _ => { dh := hi d, ah := hi a }
  | .fexp2 _ d a => { dh := hi d, ah := hi a }
  | .flog2 _ d a => { dh := hi d, ah := hi a }
  | .fsin _ d a => { dh := hi d, ah := hi a }
  | .fcos _ d a => { dh := hi d, ah := hi a }
  | .frcp _ d a => { dh := hi d, ah := hi a }
  | .frsq _ d a => { dh := hi d, ah := hi a }
  | .fcmp _ x y _ _ => { dh := hi x, ah := hi y }
  | .qmax _ a _ => { ah := hi a }
  | .qcvtI8 _ d a => { dh := hi d, ah := hi a }
  | .qcvtCb4 _ d a => { dh := hi d, ah := hi a }
  | .dqI8 _ d a => { dh := hi d, ah := hi a }
  | .dqCb4 _ d a => { dh := hi d, ah := hi a }
  | .cbsel _ d a => { dh := hi d, ah := hi a }
  | .cvt _ _ d a _ _ => { dh := hi d, ah := hi a }
  | .shflIdx _ d a _ => { dh := hi d, ah := hi a }
  | .shflUp _ d a _ => { dh := hi d, ah := hi a }
  | .shflDown _ d a _ => { dh := hi d, ah := hi a }
  | .shflXor _ d a _ => { dh := hi d, ah := hi a }
  | .matchLanes _ d a _ => { dh := hi d, ah := hi a }
  | .scanAdd _ d a _ => { dh := hi d, ah := hi a }
  | .scanAddEx _ d a _ => { dh := hi d, ah := hi a }
  | .redAdd _ d a _ => { dh := hi d, ah := hi a }
  | .redMin _ d a _ => { dh := hi d, ah := hi a }
  | .redMax _ d a _ => { dh := hi d, ah := hi a }
  | .fredAdd _ d a _ => { dh := hi d, ah := hi a }
  | .voteBallot _ d _ _ => { dh := hi d }
  | .jset _ a _ => { ah := hi a }
  | .ldg _ d a _ off => { dh := hi d, ah := hi a, imm := off }
  | .lds _ d a _ off => { dh := hi d, ah := hi a, imm := off }
  | .stg _ d a _ off => { dh := hi d, ah := hi a, imm := off }
  | .sts _ d a _ off => { dh := hi d, ah := hi a, imm := off }
  | .lda _ d a _ _ off => { dh := hi d, ah := hi a, imm := off }
  | .stgRel _ d a _ _ off => { dh := hi d, ah := hi a, imm := off }
  | .pref _ a _ off => { ah := hi a, imm := off }
  | .cinv _ a _ off => { ah := hi a, imm := off }
  | .cpin _ a off => { ah := hi a, imm := off }
  | .cunpin _ a off => { ah := hi a, imm := off }
  | .stc _ d a => { dh := hi d, ah := hi a }
  | .atomAdd _ d a _ _ _ off => { dh := hi d, ah := hi a, imm := off }
  | .atomMin _ d a _ _ _ off => { dh := hi d, ah := hi a, imm := off }
  | .atomMax _ d a _ _ _ off => { dh := hi d, ah := hi a, imm := off }
  | .atomAnd _ d a _ _ _ off => { dh := hi d, ah := hi a, imm := off }
  | .atomOr _ d a _ _ _ off => { dh := hi d, ah := hi a, imm := off }
  | .atomXor _ d a _ _ _ off => { dh := hi d, ah := hi a, imm := off }
  | .xchg _ d a _ _ _ off => { dh := hi d, ah := hi a, imm := off }
  | .cas _ d a _ _ _ off => { dh := hi d, ah := hi a, imm := off }
  | .xadd _ d a _ _ off => { dh := hi d, ah := hi a, imm := off }
  | .xrd _ d a _ _ off => { dh := hi d, ah := hi a, imm := off }
  | .xrd64 _ d a _ _ off => { dh := hi d, ah := hi a, imm := off }
  | .xclr _ d a _ _ off => { dh := hi d, ah := hi a, imm := off }
  | .atomsAdd _ d a _ off => { dh := hi d, ah := hi a, imm := off }
  | .atomsMin _ d a _ off => { dh := hi d, ah := hi a, imm := off }
  | .atomsMax _ d a _ off => { dh := hi d, ah := hi a, imm := off }
  | .atomsAnd _ d a _ off => { dh := hi d, ah := hi a, imm := off }
  | .atomsOr _ d a _ off => { dh := hi d, ah := hi a, imm := off }
  | .atomsXor _ d a _ off => { dh := hi d, ah := hi a, imm := off }
  | .atomsXchg _ d a _ off => { dh := hi d, ah := hi a, imm := off }
  | .atomsCas _ d a _ off => { dh := hi d, ah := hi a, imm := off }
  | .gbara _ a => { ah := hi a }
  | .gbarw _ a => { ah := hi a }
  | .awinit _ d a => { dh := hi d, ah := hi a }
  | .awadd _ d a => { dh := hi d, ah := hi a }
  | .awwait _ d _ => { dh := hi d }
  | .awtest _ _ a => { ah := hi a }
  | .bra _ o => { imm := o.hi }
  | .call _ o => { imm := o.hi }
  | .brx _ a => { ah := hi a }
  | .callx _ a => { ah := hi a }
  | .loopLc0 _ a o => { dh := hi a, imm := o.hi }
  | .loopLc1 _ a o => { dh := hi a, imm := o.hi }
  | .item _ a o => { dh := hi a, imm := o.hi }
  | .loopp _ a _ _ => { dh := hi a }
  | .cpy _ a => { ah := hi a }
  | .cpyTag _ a => { ah := hi a }
  | .mxcfg _ a => { ah := hi a }
  | .mxshape _ a => { ah := hi a }
  | .mxldw _ a => { ah := hi a }
  | .mxq _ a => { ah := hi a }
  | .ray _ a => { ah := hi a }
  | .rayAny _ a => { ah := hi a }
  | .ovlp _ a => { ah := hi a }
  | .refit _ a => { ah := hi a }
  | .draw _ a => { ah := hi a }
  | .drawEz _ a => { ah := hi a }
  | .cpys _ d a => { dh := hi d, ah := hi a }
  | .gath _ a _ => { ah := hi a }
  | .cbload _ _ a => { ah := hi a }
  | .ntest _ d => { dh := hi d }
  | .tenq _ a => { ah := hi a }
  | .tdec _ a => { ah := hi a }
  | .iqpush _ a => { ah := hi a }
  | .setdl _ a => { ah := hi a }
  | .resdrop _ a => { ah := hi a }
  | .lnch _ d a => { dh := hi d, ah := hi a }
  | .wave _ d a b => { dh := hi d, ah := hi a, bh := hi b }
  | .restag _ d a => { dh := hi d, ah := hi a }
  | .resq _ d a => { dh := hi d, ah := hi a }
  | .movsr _ d _ => { dh := hi d }
  | .csrr _ d _ => { dh := hi d }
  | .csrw _ d _ => { dh := hi d }
  | .svc _ d a => { dh := hi d, ah := hi a }
  | .trap _ a => { ah := hi a }
  | .evsig _ a => { ah := hi a }
  | .tlbinv _ a => { ah := hi a }
  | .own _ a => { ah := hi a }
  | .ctxsv _ a => { ah := hi a }
  | .ctxld _ a => { ah := hi a }
  | _ => {}

/-- The slot an instruction takes in a bundle of its own: the first that accepts its major (R28). -/
def Instr.homeSlot (i : Instr) : SlotPos :=
  if [1, 2, 3, 4, 10, 13].contains i.info.major then .a
  else if [6, 7, 8, 9, 11, 12].contains i.info.major then .b else .c

/-- The extension field that gives one slot what it needs and the others nothing. -/
def encodeX (p : SlotPos) (e : Ext) : BitVec 14 :=
  match p, e.imm with
  | .a, none => 0#2 ++ 0#3 ++ e.dh ++ e.ah ++ e.bh ++ 0#6
  | .b, none => 0#2 ++ 0#3 ++ 0#3 ++ e.dh ++ e.ah ++ e.bh ++ 0#3
  | .c, none => 0#2 ++ 0#3 ++ 0#6 ++ e.dh ++ e.ah ++ e.bh
  | .a, some h => 1#2 ++ h ++ e.dh ++ e.ah ++ 0#2
  | .b, some h => 2#2 ++ h ++ e.dh ++ e.ah ++ 0#2
  | .c, some h => 3#2 ++ h ++ e.dh ++ e.ah ++ 0#2

/-- The presence mask of one slot. -/
def oneSlot : SlotPos → BitVec 3
  | .a => 4#3
  | .b => 2#3
  | .c => 1#3

/-- The words of an instruction as a bundle of its own: its word, after a header when anything is lent
to it. -/
def encode (i : Instr) : List Word :=
  if extNeeded i = {} then [encodeWord i]
  else [0#1 ++ 15#4 ++ oneSlot i.homeSlot ++ 0#10 ++ encodeX i.homeSlot (extNeeded i), encodeWord i]

end Sys2Proof
end

