-- ==== Sys2Proof/Config.lean ====
section
/-! DEFINITION. What is fixed for one device and the manual leaves open: values without a body, so that no
proof can lean on what they are. Those that take a counter give a fresh value each time (log 5, 6). -/

namespace Sys2Proof.Config

/-- The order the manual leaves open: which agent's step comes next when the agenda is empty (log 6). -/
opaque freeEvent : Nat → Instr
/-- How much TIME, in ps, passes before the next free step (log 9). -/
opaque freeDelay : Nat → Nat
/-- The six special functions on FP32 bits; used where R99 and R100 leave the bits open (log 7). -/
opaque sfu : Nat → Word → Word
/-- For each entry read under an outstanding CBLOAD, whether the new one is seen (R138). -/
opaque seesNew : Nat → Bool
/-- A value that the manual gives a register or field and does not state (log 33). -/
opaque freeValue : Nat → DWord
/-- The fields of a ray's result that no hit gives: of the query, the status and the field; the same in every run (R11,
log 33). -/
opaque rayOpen : Nat → Nat → Nat → DWord
/-- The set of its slice that a line falls in; the manual gives no set index (log 12). -/
opaque cacheSet : Nat → Nat
/-- What a line's data read as under another key pair than the one they were written under: AES-256-XTS with keys that
no program sees (R375). The line, the two keys, the data. -/
opaque recrypt : Nat → Nat → Nat → Line → Line
/-- The energy of a group of 8 rows of a tile task in the units of R263, which gives none (log 9). -/
opaque groupEnergy : Nat → Nat
/-- The fused SHA-256 of the firmware key (R379). -/
opaque fusedKey : BitVec 256
/-- The fused least accepted version (R377). -/
opaque minVersion : BitVec 32
/-- Whether an image's RSASSA-PSS signature verifies over it (R379, log 14). -/
opaque pssVerifies : FwImage → Bool
/-- The images the two firmware slots hold at the release of cold reset (log 13). -/
opaque bootImage : Nat → Option FwImage
/-- The digest of a die's configuration that boot extends MEAS1 by (R379). -/
opaque bootDigest : Nat → BitVec 256
/-- The PLCMAP words boot firmware writes (R379). -/
opaque bootPlcmap : Nat → DWord
/-- The root boot firmware writes for partition 0 (R372). -/
opaque bootRoot : DWord
/-- Where the service context of a die starts (R379, log 13). -/
opaque serviceEntry : Nat → DWord
/-- The signature over an attestation report's bytes 0 to 767 (R380, log 14). -/
opaque reportSignature : Nat → BitVec 3072
/-- The bytes a storage read puts into device memory: the manual gives no descriptor (R378, log 15). -/
opaque storageBytes : Nat → List (Nat × Byte)

end Sys2Proof.Config
end

