-- ==== Sys2Proof/Machine/State.lean ====
section
/-! DEFINITION. The state of the machine as plain data, its reset, and the reasons a step can stop.
A table lists only the keys whose value differs from the table's default (00 R8, 01 R16). -/

namespace Sys2Proof.Machine

/-- A sparse table: keys rising, no entry equal to the default. -/
abbrev Tbl (α : Type) := List (Nat × α)
/-- Global memory, scratchpad and weight SRAM: bytes by address. -/
abbrev Memory := List Host.Cell

/-- Why the machine stops with a fault. -/
inductive Fault where
  /-- A word of a slot was to run and no bundle is being issued: raised by no step of the machine, since
  only coreCycle runs words, between the issue of a bundle and its commit. Safe. -/
  | noIssue
  deriving DecidableEq, Repr

/-- Why an instruction is refused. -/
inductive Refusal where
  /-- The instruction has no meaning in the model yet. Safe. -/
  | notModelled (mnemonic : String)
  deriving DecidableEq, Repr

/-- An executor: a thread, or a lead strand when tid is none (21 R322). -/
structure Who where
  core : Nat
  ctx : Nat
  tid : Option Nat := none
  deriving DecidableEq, Repr

/-- Whose access waits at a home or is held for tokens (21 R322; 15 R285; 22 R341). -/
inductive Agent where
  /-- What stands at an executor's bundle. -/
  | strand (w : Who) (pc : DWord)
  /-- An outstanding load or store of a core. -/
  | access (core id : Nat)
  /-- An operation of an engine, by the part of its work that the access is for: a gather's element, a draw's tile. -/
  | op (core id part : Nat)
  /-- A walk of a partition for a 4 KiB page. -/
  | walk (die part vpn : Nat)
  /-- The dispatch of an item, or what comes before it; a listed access; the acceptance of a launch from a source. -/
  | dispatch (die key : Nat)
  | listed (id : Nat)
  | accepts (die src : Nat)
  /-- Trap delivery and the save of a context. -/
  | context (core ctx : Nat)
  | fault (id : Nat)
  | batch (die : Nat) (seq : DWord)
  | freeing (die frame : Nat)
  /-- A host's or a PCIe port's request for a line. -/
  | host (agent line : Nat)
  /-- One that no rule orders: a head's refill, firmware's own steps. -/
  | other
  deriving DecidableEq, Repr

/-- The state of one hardware loop (05 R124). -/
structure Loop where
  count : BitVec 32 := 0#32
  start : DWord := 0#64
  exitPc : DWord := 0#64
  isOpen : Bool := false
  pipelined : Bool := false
  stages : Nat := 1
  refill : Bool := false
  draining : Bool := false
  deriving DecidableEq, Repr

/-- What an executor waits for at its bundle beyond what the state shows (07 R174, R176; 09 R239, R240). -/
inductive Wait where
  | none
  | barArrived
  | barGo
  /-- At GBARW of this descriptor. -/
  | gbar (desc : BitVec 32)
  /-- At a fence whose condition does not hold. -/
  | fence
  /-- The translations named by the operand are being dropped; dropped. -/
  | tlbinv (v : DWord)
  | tlbinvDone
  /-- The task that took the context at this number is to be saved and freed. -/
  | ctxsv (ctx came : Nat)
  /-- The region's transfer is in progress; it has completed. -/
  | own (region : Nat) (host : Bool)
  | ownDone
  deriving DecidableEq, Repr

/-- What a thread and a lead strand both keep. -/
structure Strand where
  /-- The next bundle (02 R27). -/
  pc : DWord := 0#64
  /-- Region entry PC and its counter (02 R34). -/
  regionPc : DWord := 0#64
  regionCnt : BitVec 32 := 0#32
  /-- A REPLAY has sent the strand to its region entry; the counter advances when a bundle issues there (24 R358). -/
  reentry : Bool := false
  /-- Empty bundles of the bundle at pc already issued (02 R31). -/
  run : Nat := 0
  /-- CASTREF (20 R319). -/
  castRef : BitVec 32 := 0#32
  /-- Results whose issue distance has not passed: the operand and the first core cycle of a reader (05 R241). -/
  dist : List (Opnd × Nat) := []
  /-- The first core cycle in which the next bundle may issue (05 R241). -/
  hold : Nat := 0
  wait : Wait := .none
  /-- The fresh number when the strand came to its bundle or last received a return: an operation of its core
  with a smaller number is older than what it does next (21 R328, log 17). -/
  arr : Nat := 0
  /-- The fresh number at the strand's last release: its operations below it are what an engine command issued next
  must find performed (21 R329). -/
  rel : Nat := 0
  /-- Grid-barrier generations arrived at since the last GBARW, by descriptor (07 R176). -/
  gens : List (BitVec 32 × Nat) := []
  deriving DecidableEq, Repr

/-- A live thread (03 R67, 09 R225). -/
structure Thread where
  str : Strand := {}
  g : Tbl Word := []
  p : BitVec 48 := 0#48
  /-- The scale latch, and writes waiting for their issue slot (04 R82, 06 R141). -/
  latch : BitVec 8 := 0#8
  latchPend : List (Nat × BitVec 8) := []
  /-- Issue slots so far (02 R32). -/
  slots : Nat := 0
  /-- The codebook selector (06 R138). -/
  sel : BitVec 3 := 0#3
  /-- The core cycle in which the thread last became ready (11 R247). -/
  since : Option Nat := none
  defer : Nat := 0
  deriving DecidableEq, Repr

/-- Where a page walk ended: a leaf, its level, its bits and the place of its entry, or a fault. -/
inductive Walked where
  | leaf (lvl e entryPa : Nat)
  | fault (cause sub : Nat)
  deriving DecidableEq, Repr

/-- A walk in flight, and the accesses that have joined it; where it has ended, those that have not taken its end yet (24 R363). -/
structure Walk where
  die : Nat
  part : Nat
  vpn : Nat
  joined : List Agent
  ended : Option Walked := none
  deriving DecidableEq, Repr

/-- A listed trap (24 R352, R353, R355). -/
structure Trap where
  /-- 0 thread, 1 lead strand, 2 engine operation (R356). -/
  exk : Nat
  tid : Option Nat
  /-- 0, 1, 2 for slots A, B, C; 3 for none. -/
  slot : Nat := 3
  cause : Nat
  sub : Nat := 0
  va : DWord := 0#64
  pc : DWord := 0#64
  regionPc : DWord := 0#64
  regionCnt : BitVec 32 := 0#32
  /-- dw5 of the trap record: software code, or engine class and status-block offset. -/
  info : DWord := 0#64
  time : Nat := 0
  /-- The fault service that holds the trap back, if any (R365). -/
  service : Option Nat := none
  /-- The access writes; the executor was a user's (R365). -/
  write : Bool := false
  user : Bool := true
  /-- The lead strand took it in handler mode (R357). -/
  fatal : Bool := false
  /-- The thread that it names had exited (R367). -/
  exited : Bool := false
  deriving DecidableEq, Repr

/-- A task running on a context (09 R215, R216). -/
structure Task where
  /-- Launch slot and launch context. -/
  slot : Nat
  lctx : Nat
  /-- The record's address, and the key of its registration's order. -/
  record : DWord
  level : Nat
  deadline : BitVec 48
  /-- The order of dispatch (17 R300). -/
  stamp : Nat
  /-- The fresh number when it took the hardware context that it runs on. -/
  came : Nat := 0
  /-- The task runs the entry record of a START = 1 launch (09 R217). -/
  startItem : Bool := false
  deriving DecidableEq, Repr

/-- A launch waiting in a pending queue: its record's address and bytes, and whether its issuer was a user (09 R222). -/
structure PendingLaunch where
  addr : DWord
  bits : Nat
  user : Bool
  deriving DecidableEq, Repr

/-- A hardware context (01 R16, 03 R68). -/
structure Ctx where
  str : Strand := {}
  s : Tbl DWord := []
  q : BitVec 16 := 0#16
  lc0 : Loop := {}
  lc1 : Loop := {}
  /-- Codebook slots cb0 to cb7 (06 R138). -/
  cb : Tbl (BitVec 256) := []
  /-- The item queue, head first; closing and closed (05 R129, 09 R224). -/
  queue : List DWord := []
  closing : Bool := false
  closed : Bool := false
  /-- Items pushed in this core cycle, not yet poppable (05 R129). -/
  fresh : Nat := 0
  pending : List PendingLaunch := []
  /-- The event flag (09 R236). -/
  event : Bool := false
  task : Option Task := none
  /-- A service context whose firmware runs (09 R232). -/
  service : Bool := false
  threads : Tbl (Option Thread) := []
  /-- Rejoin masks: key 8 × warp + j (06 R150). -/
  masks : Tbl (BitVec 32) := []
  traps : List Trap := []
  /-- Handler mode and the four trap CSRs (24 R356, R357). -/
  handler : Bool := false
  /-- `reentry` of the lead strand that the handler interrupted, whether its lc0 was draining, and whether it waited at
  a fence. -/
  replayed : Bool := false
  drained : Bool := false
  fenced : Bool := false
  trapCause : DWord := 0#64
  trapPc : DWord := 0#64
  trapRegion : DWord := 0#64
  trapCount : DWord := 0#64
  /-- A committed yield bundle waits for its stores to perform (09 R217). -/
  yielding : Bool := false
  /-- Marked by RequestPreempt or CTXSV; stopped at a preemption point (17 R302). -/
  marked : Bool := false
  stopped : Bool := false
  /-- The frame a spill is writing (17 R304). -/
  spilling : Option Nat := none
  starve : Nat := 0
  /-- TIME in ps of the last watchdog reset, and when the context stopped for a trap (24 R368). -/
  wdStart : Nat := 0
  stopAt : Option Nat := none
  deriving DecidableEq, Repr

/-- An L1 line; the list of a core is in order of use, most recent first (19 R314). -/
structure L1Line where
  line : Nat
  pushed : Bool
  data : Line
  deriving DecidableEq, Repr

/-- A held translation: partition, virtual page number at its size, and the leaf (24 R363). -/
structure TlbEntry where
  part : Nat
  shift : Nat
  vpn : Nat
  leaf : DWord
  deriving DecidableEq, Repr

/-- A launch's reservation on a core (11 R245): THR × registers and the window are the launch's. -/
structure Resv where
  slot : Nat
  /-- The scratchpad window's bytes (19 R309). -/
  smem : Memory := []
  /-- The reservation has ended, and its window stays: for engine operations of the launch that still use it (18 R310), or
  for a spilled task of the launch there (17 R308, log 53). -/
  ended : Bool := false
  deriving DecidableEq, Repr

/-- The operation of an atomic (07 R166, R167). -/
inductive AtomOp where
  | add | min | max | and | or | xor | xchg | cas
  deriving DecidableEq, Repr

/-- The operation on an exact accumulator line (07 R169). -/
inductive XalOp where
  | add | rd32 | rd64 | clr
  deriving DecidableEq, Repr

/-- What an access does at the home of its line. -/
inductive WriteKind where
  /-- Plain bytes. -/
  | plain (len : Nat) (data : Nat)
  /-- An atomic at width 32 or 64 with its operand, and the comparand of a CAS. -/
  | atom (op : AtomOp) (w64 : Bool) (x cmp : DWord)
  | xal (op : XalOp) (x : Word)
  /-- A cast store of a line with the cores it names (07 R161). -/
  | cast (data : Line) (cores : List Nat)
  deriving DecidableEq, Repr

/-- Where a return is written: first register and count of the executor's registers. -/
abbrev Dest := Option (Nat × Nat)

/-- A load beyond the L1 (02 R33, 06 R158). -/
structure Load where
  id : Nat
  who : Who
  part : Nat
  pa : Nat
  va : DWord
  size : Nat
  dst : Dest
  /-- An acquire, and one of die scope or wider (07 R159). -/
  acquire : Bool := false
  wide : Bool := false
  /-- The return fills the L1 (19 R314); cleared by an acquire or an invalidation in between. -/
  fill : Bool := false
  /-- What the home returned, and its poison: 0 none, 1 poisoned, 2 owner-lost. -/
  data : Option Line := none
  err : Nat := 0
  /-- The executor exited: the return is discarded (05 R122). -/
  discard : Bool := false
  deriving DecidableEq, Repr

/-- A write or atomic that has not performed (21 R323). -/
structure Store where
  id : Nat
  who : Who
  part : Nat
  pa : Nat
  va : DWord
  kind : WriteKind
  /-- The launch of its issuer, whose completion it comes before (24 R369). -/
  launch : Option Nat := none
  dst : Dest := none
  /-- A release: it performs after everything the executor issued before; of die scope or wider (07 R160). -/
  release : Bool := false
  acquire : Bool := false
  wide : Bool := false
  /-- At the home, waiting for acknowledgements of these cores (21 R334). -/
  acks : Option (List Nat) := none
  /-- Performed; the value and error to return are known. -/
  done : Bool := false
  value : Nat := 0
  err : Nat := 0
  discard : Bool := false
  deriving DecidableEq, Repr

/-- The kinds of engine operations (08 R182). -/
inductive OpKind where
  | copy (tag : Bool)
  | gather (esize : Nat)
  | mxshape
  | mxldw
  | mxq
  | cbload (n : Nat)
  | ray (anyHit : Bool)
  | ovlp
  | refit
  | draw (ez : Bool)
  deriving DecidableEq, Repr

/-- Where an engine operation stands (08 R191, R192). -/
inductive OpState where
  | running
  | suspended
  | complete
  deriving DecidableEq, Repr

/-- An accepted engine operation; it leaves the list when it retires (07 R173). -/
structure Op where
  id : Nat
  kind : OpKind
  /-- The issuer, none once its counters are discarded; its context and launch. -/
  who : Who
  counted : Bool := true
  slot : Nat
  /-- The scratchpad window it uses: its launch's, or one that is kept for it under a number that no launch has (18 R310). -/
  win : Nat := 0
  part : Nat
  user : Bool
  /-- Of a matrix command: its launch has MXE = 1; the format pair at its acceptance; the reset of the engine that it
  follows; the codebooks that it reads or fills, a hardware context's or kept ones (08 R195, R197). -/
  mxe : Bool := false
  pair : Nat := 0
  epoch : Nat := 0
  books : Nat := 0
  /-- The descriptor, query or record as read at issue. -/
  desc : Nat
  state : OpState := .running
  /-- Linear offset of a copy, elements written of a gather, nodes done of a refit, groups streamed of a tile task. -/
  off : Nat := 0
  tagref : Bool := false
  /-- Element fetches of a gather in flight: element, the index read, and its bytes once returned (19 R317). -/
  flight : List (Nat × Nat × Option Nat) := []
  nextFetch : Nat := 0
  /-- Draw: next candidate quad of each screen tile, triangles (08 R213). -/
  tiles : Tbl Nat := []
  /-- Draw: the die whose share of the viewport it pushes under split-frame (15 R282). -/
  half : Option Nat := none
  /-- A matrix command's execution: started; the ps at which it completes, or its next group streams; the C words to
  write so far (14 R275). -/
  started : Bool := false
  due : Nat := 0
  result : List Word := []
  /-- Tile task: the A codebook as copied at execution; its next group is held by the array's energy; weights unsound
  (08 R205; 12 R263; 14 R277). -/
  cb : BitVec 256 := 0#256
  held : Bool := false
  unsound : Bool := false
  /-- The fault under service (24 R365). -/
  fault : Option Nat := none
  /-- The task that issued it has ended (24 R367). -/
  orphan : Bool := false
  /-- Lines of memory it has written, by the addresses it wrote them at (19 R315). -/
  written : List Nat := []
  /-- Of a copy to pinned memory: each line of the destination, its physical line, and the bytes of it written (17 R299). -/
  placed : Tbl (Nat × Nat) := []
  deriving DecidableEq, Repr

/-- The latched weights: B format, weight-SRAM slot and codebook copy (08 R195, R202). -/
structure Latched where
  fmt : Nat
  wslot : Nat
  cb : BitVec 256
  deriving DecidableEq, Repr

/-- The matrix engine's state (08 R195). -/
structure Mx where
  /-- The launch slot that holds the engine, and the serial of the last launch that did (14 R278). -/
  holder : Option Nat := none
  lastSerial : Option Nat := none
  /-- Resets of the engine so far, and the one that what executes has reached: commands of an earlier launch run to their
  end on the state that they were issued to (R195, R197). -/
  epoch : Nat := 0
  ran : Nat := 0
  pair : Nat := 0
  shape : Nat := 4
  /-- The last accepted shape, and B format of the last accepted MXLDW (14 R276). -/
  shapeAcc : Nat := 4
  fmtAcc : Option Nat := none
  latched : Option Latched := none
  wsram : Memory := []
  /-- The launch context that holds the needle (08 R198). -/
  needle : Nat := 0
  /-- A band woke since the previous MXLDW or MXQ executed (14 R271). -/
  woken : Bool := false
  /-- The last MXLDW failed (14 R277). -/
  unsound : Bool := false
  /-- Array energy in the microsecond of this index (12 R263). -/
  energy : Nat := 0
  energyAt : Nat := 0
  deriving DecidableEq, Repr

/-- A thread group chosen and held for its bank passes (19 R312). -/
structure Held where
  ctx : Nat
  pc : DWord
  tids : List Nat
  left : Nat
  deriving DecidableEq, Repr

/-- One core (01 R16). -/
structure Core where
  /-- CYC and STALLCYC (12 R255). -/
  cyc : BitVec 64 := 0#64
  stall : BitVec 64 := 0#64
  clockOn : Bool := false
  /-- Start of the next core cycle, in ps. -/
  next : Nat := 0
  /-- Charges of the last 63 cycles and classes of the last two, newest first (12 R257, 05 R242). -/
  charges : List Nat := []
  classes : List Nat := []
  /-- FP64 bundles in the last 15 cycles, newest first (01 R22). -/
  fp64 : List Bool := []
  lastLead : Nat := 7
  lastThread : Nat := 7
  held : Option Held := none
  /-- TRAPVEC, GAUGE, GAUGERATE (24 R354, 20 R320). -/
  trapvec : DWord := 0#64
  gauge : DWord := 1024#64
  gaugerate : DWord := 1024#64
  /-- Cast lines installed in the 1,024 ns window of this index. -/
  installed : Nat := 0
  windowAt : Nat := 0
  l1 : List L1Line := []
  itlb : List TlbEntry := []
  dtlb : List TlbEntry := []
  resv : List Resv := []
  loads : List Load := []
  stores : List Store := []
  ops : List Op := []
  mx : Mx := {}
  /-- Codebooks of tasks that have ended, kept for their commands in the matrix queue (08 R197). -/
  books : Tbl (Tbl (BitVec 256)) := []
  ctxs : Tbl Ctx := []
  deriving DecidableEq, Repr

/-- An accepted launch: its record's bytes, its origin, its counts (09 R219, 17 R291). -/
structure Launch where
  bits : Nat
  /-- Serial number, distinct for every acceptance. -/
  serial : Nat
  die : Nat
  /-- Origin: the record's, or the one chosen at acceptance (17 R292). -/
  ox : Nat
  oy : Nat
  /-- Tasks of the START = 1 entry still to yield (09 R217). -/
  startLeft : Nat
  /-- Late-status entries written and lost (09 R231). -/
  late : BitVec 32 := 0#32
  lateLost : BitVec 32 := 0#32
  /-- Overflow queue: taken and written (09 R222). -/
  ovHead : Nat := 0
  ovTail : Nat := 0
  /-- The issuer's die and the source address of each entry between them. -/
  ovq : List (Nat × DWord) := []
  /-- A task was aborted: DONE takes 2 (24 R369). -/
  aborted : Bool := false
  deriving DecidableEq, Repr

/-- A registered record, or one item of a START = 1 entry record (09 R215, 17 R290). -/
structure Rec where
  key : Nat
  slot : Nat
  addr : DWord
  /-- Physical address of its JOIN word at registration. -/
  pa : Nat
  level : Nat
  /-- The dispatcher that serves it. -/
  die : Nat
  /-- The area: a die, one core, or the whole rectangle. -/
  onDie : Option Nat := none
  onCore : Option Nat := none
  /-- TIME in ps when it became ready; none while JOIN is above 0. -/
  ready : Option Nat := none
  startItem : Bool := false
  /-- An access that its dispatch needs waits for the page-fault service (17 R383). -/
  waiting : Bool := false
  /-- Writes of a late dispatch whose service failed, which are dropped: bit 0 the LATE bit, bit 1 the entry (09 R231). -/
  lateDrop : BitVec 2 := 0#2
  deriving DecidableEq, Repr

/-- A spilled task (17 R302). -/
structure Spilled where
  key : Nat
  core : Nat
  task : Task
  part : Nat
  frame : Nat
  ready : Nat
  /-- The launch's scratchpad window was saved with it (17 R302). -/
  smem : Bool := false
  /-- The context as it was saved: what the frame has no field for is taken from it (log 28). -/
  saved : Ctx := {}
  deriving DecidableEq, Repr

/-- A standing preemption request of a dispatcher (17 R302). -/
structure Request where
  key : Nat
  core : Nat
  members : List Nat
  /-- The hardware context claimed for the item. -/
  claim : Option Nat := none
  deriving DecidableEq, Repr

/-- A ready list's ageing (17 R294). -/
structure ListAge where
  a : Nat := 0
  raised : Nat := 0
  /-- It held an item and was not served since the last microsecond boundary. -/
  idle : Bool := false
  deriving DecidableEq, Repr

/-- A dispatcher: scan positions, when acceptance is free, its request (17 R291). -/
structure Disp where
  pos : Nat := 0
  ringPos : Nat := 0
  freeAt : Nat := 0
  requests : List Request := []
  deriving DecidableEq, Repr

/-- A dispatcher's access that waits for the page-fault service (17 R383). -/
structure DispWait where
  id : Nat
  die : Nat
  slot : Nat
  part : Nat
  va : DWord
  write : Bool
  /-- 0 a record's read; 1 a write of value; 2 a decrement; 3 the DONE write; 4 the LATE bit; 5 a launch's decrement
  of its SUCC; 6 a yield's reading of SUCC; 7 the body of a frame that is resumed; 8 that of one that is filled; 9 the
  DONE write of a launch refused at acceptance, whose SUCC is the key; 10 a late entry, whose second half is next. -/
  kind : Nat
  user : Bool
  key : Nat := 0
  bytes : Nat := 8
  value : DWord := 0#64
  next : DWord := 0#64
  deriving DecidableEq, Repr

/-- A fault under service (24 R365). -/
structure FaultSvc where
  id : Nat
  part : Nat
  va : DWord
  write : Bool
  fetch : Bool
  user : Bool
  cause : Nat
  sub : Nat
  core : Nat
  ctx : Nat
  /-- 0 thread, 1 lead strand, 2 engine operation, 3 dispatcher access. -/
  exk : Nat
  tid : Option Nat := none
  op : Nat := 0
  hostMode : Bool
  /-- In the ring, with its sequence number. -/
  seq : Option (BitVec 32) := none
  /-- The outcome of the service: the walk succeeded. -/
  outcome : Option Bool := none
  time : Nat := 0
  deriving DecidableEq, Repr

/-- A generation of a grid barrier (07 R176, 12 R266). -/
structure Gen where
  id : Nat
  slot : Nat
  desc : BitVec 32
  /-- Arrivals at each core. -/
  arrived : Tbl Nat := []
  /-- Completion time in ps, the subgroup's origin core, the waking cores not yet admitted; the next batch plus 1
  once the start index has ordered them. -/
  done : Option Nat := none
  origin : Nat := 0
  waking : List Nat := []
  batch : Nat := 0
  deriving DecidableEq, Repr

/-- A region's owner state (22 R340). -/
inductive Region where
  | host
  | acc
  | toAcc
  | toHost
  deriving DecidableEq, Repr

/-- Host copies of a line (22 R339, R347): shared mask, exclusive agent, recall start in ps. -/
structure HostDir where
  shared : BitVec 2 := 0#2
  excl : Option Nat := none
  recallAt : Option Nat := none
  deriving DecidableEq, Repr

/-- A cast-directory entry (21 R331). -/
structure CastEntry where
  line : Nat
  cluster : Nat
  /-- Cores with an installed copy, and cores a cast is on its way to (log 16). -/
  holders : List Nat := []
  pending : List Nat := []
  stc : Nat
  deriving DecidableEq, Repr

/-- An STC whose completion has not been received (21 R334, R336). -/
structure Stc where
  id : Nat
  who : Who
  part : Nat
  line : Nat
  unsent : List Nat
  waiting : List Nat
  refused : Nat := 0
  deriving DecidableEq, Repr

/-- A message about a line (21 R332, R334). -/
inductive MsgKind where
  | cast (stc part : Nat) (data : Line)
  | invalidate (store : Nat) (from_ : Nat)
  | ack (store : Nat) (from_ : Nat)
  | castInstalled (stc : Nat)
  | castRefused (stc : Nat)
  | evicted
  | stcDone (stc : Nat)
  deriving DecidableEq, Repr

/-- A message in flight between a home and a core. -/
structure Msg where
  id : Nat
  core : Nat
  line : Nat
  kind : MsgKind
  deriving DecidableEq, Repr

/-- A sillage entry (09 R228, R229). -/
structure Sillage where
  part : Nat
  tile : BitVec 32
  pin : Bool
  core : Nat
  /-- Scratchpad offset, or the first physical line of a pin. -/
  addr : Nat
  bytes : Nat
  /-- The physical lines of a pin in the order of its addresses, and how many of its bytes lie in each (17 R299). -/
  lines : List (Nat × Nat) := []
  /-- The launch that owns a kind-0 entry. -/
  slot : Nat
  deriving DecidableEq, Repr

/-- A regulator write accepted and waiting for the microsecond (15 R284). -/
structure QosPend where
  off : Nat
  value : DWord
  /-- The microsecond boundary at which it takes effect. -/
  due : Nat := 0
  deriving DecidableEq, Repr

/-- A service batch written and not completed (09 R234, 25 R376). -/
structure Batch where
  die : Nat
  host : Bool
  index : Nat
  /-- The record's address (25 R376). -/
  addr : Nat := 0
  seq : DWord
  part : Nat
  /-- Callers: lane and destination register. -/
  callers : List (Nat × Who × Nat)
  args : List (Nat × DWord × DWord)
  /-- Lanes whose reply the firmware has written. -/
  replied : List Nat := []
  /-- The fresh number when it was formed. -/
  formed : Nat := 0
  deriving DecidableEq, Repr

/-- A storage write replied (25 R378), with the fresh number at its reply: durable or not. -/
structure StorageWrite where
  die : Nat
  seq : DWord
  lane : Nat
  repliedAt : Nat
  durable : Bool
  deriving DecidableEq, Repr

/-- A home slice's line: how many ways it fills is the requesters' (15 R286). -/
structure ScLine where
  line : Nat
  way : Nat
  used : Nat
  deriving DecidableEq, Repr

/-- The executor, bundle and slot being issued (02 R44 to R48), the marks its slots leave. -/
structure Issue where
  core : Nat := 0
  ctx : Nat := 0
  /-- The threads of the group, ascending; none in lead code. -/
  tids : List Nat := []
  slot : SlotPos := .a
  /-- The bundle's address and its words. -/
  pc : DWord := 0#64
  words : Nat := 1
  lead : Bool := true
  /-- The fresh number when its slots began: what they started themselves is no earlier access of theirs (02 R44). -/
  start : Nat := 0
  /-- The scratchpad window of the issuers' launch as the core cycle began: what a read in the issue cycle finds, since
  the cycle's stores perform in the cycle after it (08 R183; 19 R312). -/
  seen : Memory := []
  /-- Executors that cannot issue the bundle now (02 R46). -/
  waits : List Nat := []
  /-- Traps taken by the executors of the group. -/
  traps : List Trap := []
  /-- NPASS instructions of the bundle (13 R268). -/
  passes : Nat := 0
  /-- The format pair that an MXCFG of the bundle sets at the commit (08 R199). -/
  mxcfg : Option Nat := none
  /-- Service calls of the bundle: caller, destination, two arguments (09 R234). -/
  calls : List (Who × Nat × DWord × DWord) := []
  /-- An engine could not accept an operation: the whole group waits (08 R184). -/
  full : Bool := false
  deriving DecidableEq, Repr

/-- What the homes of memory keep. -/
structure Homes where
  /-- Poisoned lines: 1 poisoned, 2 owner-lost (22 R347). -/
  poison : Tbl Nat := []
  regions : Tbl Region := []
  /-- Regions whose new owner has a waiting access that has not performed (22 R341). -/
  owed : List Nat := []
  /-- Host requests waiting at a region (22 R341): agent, line. -/
  hostWaits : List (Nat × Nat) := []
  /-- Regions that an access of a device executor waits for, and whose it is (22 R341). -/
  devWaits : List (Nat × Agent) := []
  /-- For a region in transfer, the fresh number and the ps at which the transfer began (22 R341, R342). -/
  moving : Tbl (Nat × Nat) := []
  /-- The transfer that BUSY of OWNCMD stands for: its region and whether to H (22 R343). -/
  ownReq : Option (Nat × Bool) := none
  hostDir : Tbl HostDir := []
  castDir : List CastEntry := []
  stcs : List Stc := []
  msgs : List Msg := []
  /-- Writes held by a migration, in the order they reached the home: core and store, or 640 + agent and the number of
  a host's write (22 R346). -/
  held : List (Nat × Nat) := []
  /-- Host writes held: their number, line and data. -/
  hostHeld : List (Nat × Nat × Line) := []
  /-- The line that a RECLAIM with GO = 1 named and that is not reclaimed yet (22 R348). -/
  reclaim : Option Nat := none
  /-- Pinned lines, oldest first (07 R164). -/
  pins : List Nat := []
  /-- Lines of the home slices by set: key 4,096 × slice + set (15 R286). -/
  sc : Tbl (List ScLine) := []
  /-- Granule pairs and partitions being scrubbed (15 R281, 25 R375). -/
  scrub : List Nat := []
  keyScrub : List Nat := []
  /-- Key pairs drawn so far by partition (25 R375). -/
  keys : Tbl Nat := []
  /-- The key that a region's lines stand under, and, plus 1, that of a line that stands under another. -/
  regionKeys : Tbl Nat := []
  lineKeys : Tbl Nat := []
  deriving DecidableEq, Repr

/-- What the dispatchers, the walkers and the page-fault service keep. -/
structure Sched where
  recs : List Rec := []
  spilled : List Spilled := []
  /-- Ageing of the ready lists: key 8 × die + level (17 R294). -/
  ages : Tbl ListAge := []
  /-- The microsecond boundaries at which each die's lists have aged. -/
  agedAt : Tbl Nat := []
  disps : Tbl Disp := []
  waits : List DispWait := []
  faults : List FaultSvc := []
  /-- The page-fault sequence count (24 R365). -/
  pfSeq : BitVec 32 := 0#32
  gens : List Gen := []
  /-- The grid-barrier start index Z, and 1 + the TIME at which a generation last took it (12 R266). -/
  z : Nat := 0
  zAt : Nat := 0
  /-- Sillage tables of die 0 and die 1 (09 R228). -/
  sillage0 : List Sillage := []
  sillage1 : List Sillage := []
  /-- Table entries of levels 4 to 2 held by the walkers of each die (24 R363). -/
  walker0 : List TlbEntry := []
  walker1 : List TlbEntry := []
  walks : List Walk := []
  /-- Save frames skipped since SAVEBASE was written (17 R304). -/
  skipped : List Nat := []
  /-- Launches that have completed while records stood in their overflow areas, which are still to be accepted, by the slots
  they had (09 R221). -/
  leftOver : List (Nat × Launch) := []
  /-- Frames of a killed partition that are still to be freed: the partition, the die, the frame (24 R370). -/
  freeing : List (Nat × Nat × Nat) := []
  deriving DecidableEq, Repr

/-- What the regulators, the display heads and the power manager keep. -/
structure Power where
  pend : List QosPend := []
  /-- Token buckets and bytes of the quarter: key 2 × regulator + die (15 R285, R288). -/
  buckets : Tbl Nat := []
  quarter : Tbl Nat := []
  /-- Requests held for tokens, oldest first: the regulator and whose it is (15 R285). -/
  queue : List (Nat × Agent) := []
  /-- How many of the requests of an agent's present step have been admitted, while the step waits for the rest. -/
  paid : List (Agent × Nat) := []
  /-- Within a step: the requests that it makes, each with its regulator. -/
  asks : List (Nat × Nat) := []
  urgency : Nat := 0
  /-- The microsecond of the last refill, the quarter of the last throttling, the interval of the last lending. -/
  refilled : Nat := 0
  quarterAt : Nat := 0
  lentAt : Nat := 0
  scanning : BitVec 4 := 0#4
  /-- STALLCYC of each core at the last lending step, and clusters that worked since (12 R262). -/
  lendMark : Tbl (BitVec 64) := []
  lendBusy : Tbl (BitVec 1) := []
  /-- Recalls in progress: cluster and start in ps (12 R264). -/
  recalls : List (Nat × Nat) := []
  deriving DecidableEq, Repr

/-- What service firmware, boot and the links keep. -/
structure Service where
  batches : List Batch := []
  /-- The next batch sequence number of each die (09 R234). -/
  seq : Tbl DWord := []
  storage : List StorageWrite := []
  /-- Firmware: images of the slots, FWCTL, OK bits (25 R377). -/
  fw0 : Option FwImage := none
  fw1 : Option FwImage := none
  act : BitVec 1 := 0#1
  tgt : BitVec 1 := 0#1
  req : Bool := false
  ok : BitVec 2 := 0#2
  /-- UCIe modules whose row goes to the partner (25 R381). -/
  ucie : BitVec 16 := 0#16
  /-- How often vector 0 of each die's PCIe port has been raised (25 R376). -/
  msix : Tbl Nat := []
  /-- The package stays in reset: no slot was accepted by both dies (25 R379). -/
  inReset : Bool := false
  deriving DecidableEq, Repr

/-- The whole machine. -/
structure State where
  /-- Picoseconds since the release of cold reset; TIME is the whole ns (01 R20). -/
  ps : Nat := 0
  /-- The model's own: counters of free values and of fresh numbers, the steps to come with the ps that
  pass before each, the bundle being issued. -/
  choice : Nat := 0
  fresh : Nat := 1
  agenda : List (Nat × Instr) := []
  cur : Option Issue := none
  mem : Memory := []
  /-- Registers of the device control space by offset (25 R371). -/
  ctl : Tbl DWord := []
  /-- MODE, and a value written to it and not yet in effect (24 R364); SAVEBASE (17 R304). -/
  mode : DWord := 0#64
  modeNext : Option DWord := none
  savebase : DWord := 0#64
  cores : Tbl Core := []
  launches : Tbl (Option Launch) := []
  homes : Homes := {}
  sched : Sched := {}
  power : Power := {}
  svc : Service := {}
  deriving DecidableEq, Repr

/-- The machine right after reset: every field at its default above, which is the value the spec states or
the one the log names (log 1 to 5, 8). -/
def State.reset : State := {}

end Sys2Proof.Machine
end

