-- ==== Sys2Proof/Machine/Ops.lean ====
section
/-! DEFINITION. The named operations over tables, memory, registers, caches, regions and traps that every
meaning is written with: addresses and translation (24 R360 to R363), the home of a line (21 R325, R334),
and taking a trap (24 R353). -/

namespace Sys2Proof.Machine

/-- The outcome of a meaning. -/
abbrev Res := Host.Outcome State Fault Refusal

/-! ### Tables and bytes -/

/-- The value at a key; `d` where nothing is listed. -/
def tblGet {α : Type} (d : α) : Tbl α → Nat → α
  | [], _ => d
  | (k, v) :: t, n => if k = n then v else tblGet d t n

/-- Drop what is listed at a key. -/
def tblDel {α : Type} (t : Tbl α) (n : Nat) : Tbl α := t.filter fun e => e.1 != n

/-- Put an entry before the first greater key. -/
def tblIns {α : Type} (n : Nat) (v : α) : Tbl α → Tbl α
  | [] => [(n, v)]
  | (k, w) :: t => if n < k then (n, v) :: (k, w) :: t else (k, w) :: tblIns n v t

/-- Set the value at a key: the keys stay rising, and no default is listed. -/
def tblPut {α : Type} [DecidableEq α] (d : α) (t : Tbl α) (n : Nat) (v : α) : Tbl α :=
  if v = d then tblDel t n else tblIns n v (tblDel t n)

/-- Keys rising above a bound and no default: the canonical form. -/
def tblWfFrom {α : Type} [DecidableEq α] (d : α) : Option Nat → Tbl α → Bool
  | _, [] => true
  | lo, (k, v) :: t => (match lo with | none => true | some b => b < k) && !(v == d) && tblWfFrom d (some k) t

/-- The canonical form of a table. -/
def tblWf {α : Type} [DecidableEq α] (d : α) (t : Tbl α) : Bool := tblWfFrom d none t

/-- The canonical form of a memory. -/
def Memory.wf (m : Memory) : Bool := tblWf (0#8) m

/-- One byte (an unlisted byte reads zero, log 1). -/
def byteAt (m : Memory) (a : Nat) : Byte := tblGet 0#8 m a

/-- Write one byte. -/
def setByte (m : Memory) (a : Nat) (b : Byte) : Memory := tblPut 0#8 m a b

/-- n bytes at a, little-endian (00 R5). -/
def readBytes (m : Memory) (a : Nat) : Nat → Nat
  | 0 => 0
  | n + 1 => (byteAt m a).toNat + 256 * readBytes m (a + 1) n

/-- Write the low n bytes of v at a, little-endian. -/
def writeBytes (m : Memory) (a : Nat) : Nat → Nat → Memory
  | 0, _ => m
  | n + 1, v => writeBytes (setByte m a (BitVec.ofNat 8 v)) (a + 1) n (v / 256)

/-- Bits [lo + len − 1 : lo] of doubleword n of a record. -/
def fld (bits n lo len : Nat) : Nat := bitsOf bits (64 * n + lo) len

/-- A value as a signed integer of n bits. -/
def toSigned (n v : Nat) : Int := (BitVec.ofNat n v).toInt

/-- The bytes [off, off + n) of a line replaced by v. -/
def lineSet (d : Line) (off n v : Nat) : Line :=
  let x := d.toNat
  let old := bitsOf x (8 * off) (8 * n)
  BitVec.ofNat 512 (x - old * 2 ^ (8 * off) + (v % 2 ^ (8 * n)) * 2 ^ (8 * off))

/-- Bytes [off, off + n) of a line. -/
def lineGet (d : Line) (off n : Nat) : Nat := bitsOf d.toNat (8 * off) (8 * n)

/-- Replace the elements that satisfy p. -/
def mapIf {α : Type} (p : α → Bool) (f : α → α) (l : List α) : List α := l.map fun x => if p x then f x else x

/-! ### Cores, contexts, threads and registers -/

def State.core (s : State) (c : Nat) : Core := tblGet {} s.cores c
def State.setCore (s : State) (c : Nat) (x : Core) : State := { s with cores := tblPut {} s.cores c x }
def State.modCore (s : State) (c : Nat) (f : Core → Core) : State := s.setCore c (f (s.core c))

def State.ctx (s : State) (c k : Nat) : Ctx := tblGet {} (s.core c).ctxs k
def State.setCtx (s : State) (c k : Nat) (x : Ctx) : State :=
  s.modCore c fun co => { co with ctxs := tblPut {} co.ctxs k x }
def State.modCtx (s : State) (c k : Nat) (f : Ctx → Ctx) : State := s.setCtx c k (f (s.ctx c k))

/-- The thread, or one at reset where none is live. -/
def Ctx.thread (x : Ctx) (t : Nat) : Thread := (tblGet none x.threads t).getD {}
def Ctx.setThread (x : Ctx) (t : Nat) (th : Thread) : Ctx :=
  { x with threads := tblPut none x.threads t (some th) }
def Ctx.liveTids (x : Ctx) : List Nat := x.threads.map (·.1)

def State.thread (s : State) (w : Who) (t : Nat) : Thread := (s.ctx w.core w.ctx).thread t
def State.setThread (s : State) (w : Who) (t : Nat) (th : Thread) : State :=
  s.modCtx w.core w.ctx fun x => x.setThread t th

/-- The strand of an executor. -/
def State.strand (s : State) (w : Who) : Strand :=
  match w.tid with
  | none => (s.ctx w.core w.ctx).str
  | some t => (s.thread w t).str

def State.setStrand (s : State) (w : Who) (x : Strand) : State :=
  match w.tid with
  | none => s.modCtx w.core w.ctx fun c => { c with str := x }
  | some t => s.setThread w t { s.thread w t with str := x }

def State.modStrand (s : State) (w : Who) (f : Strand → Strand) : State := s.setStrand w (f (s.strand w))

/-- An s-register of the context. -/
def State.sreg (s : State) (w : Who) (r : Nat) : DWord := tblGet 0#64 (s.ctx w.core w.ctx).s r
def State.setSreg (s : State) (w : Who) (r : Nat) (v : DWord) : State :=
  s.modCtx w.core w.ctx fun c => { c with s := tblPut 0#64 c.s r v }

/-- A g-register of the thread. -/
def State.greg (s : State) (w : Who) (t r : Nat) : Word := tblGet 0#32 (s.thread w t).g r
def State.setGreg (s : State) (w : Who) (t r : Nat) (v : Word) : State :=
  let th := s.thread w t
  s.setThread w t { th with g := tblPut 0#32 th.g r v }

/-- A pair of g-registers as 64 bits (02 R43). -/
def State.gpair (s : State) (w : Who) (t r : Nat) : DWord := s.greg w t (r + 1) ++ s.greg w t r
def State.setGpair (s : State) (w : Who) (t r : Nat) (v : DWord) : State :=
  (s.setGreg w t r (v.extractLsb' 0 32)).setGreg w t (r + 1) (v.extractLsb' 32 32)

/-- A register at the executor's width, as a number. -/
def State.reg (s : State) (w : Who) (r : Reg) : Nat :=
  match w.tid with
  | none => (s.sreg w r.toNat).toNat
  | some t => (s.greg w t r.toNat).toNat

/-- Write a register at the executor's width; the value is reduced to it (05 R108). -/
def State.setReg (s : State) (w : Who) (r : Reg) (v : Nat) : State :=
  match w.tid with
  | none => s.setSreg w r.toNat (BitVec.ofNat 64 v)
  | some t => s.setGreg w t r.toNat (BitVec.ofNat 32 v)

/-- A 64-bit operand: an s-register, or an even pair (02 R43, 07 R152). -/
def State.reg64 (s : State) (w : Who) (r : Reg) : DWord :=
  match w.tid with
  | none => s.sreg w r.toNat
  | some t => s.gpair w t r.toNat

def State.setReg64 (s : State) (w : Who) (r : Reg) (v : DWord) : State :=
  match w.tid with
  | none => s.setSreg w r.toNat v
  | some t => s.setGpair w t r.toNat v

/-- n consecutive registers of the executor as one value, the first lowest. -/
def State.regs (s : State) (w : Who) (r : Nat) : Nat → Nat
  | 0 => 0
  | n + 1 =>
    match w.tid with
    | none => (s.sreg w r).toNat + 2 ^ 64 * s.regs w (r + 1) n
    | some t => (s.greg w t r).toNat + 2 ^ 32 * s.regs w (r + 1) n

/-- Write n consecutive registers from one value, the first lowest. -/
def State.setRegs (s : State) (w : Who) (r : Nat) : Nat → Nat → State
  | 0, _ => s
  | n + 1, v =>
    match w.tid with
    | none => (s.setSreg w r (BitVec.ofNat 64 v)).setRegs w (r + 1) n (v / 2 ^ 64)
    | some t => (s.setGreg w t r (BitVec.ofNat 32 v)).setRegs w (r + 1) n (v / 2 ^ 32)

/-- Two 32-bit values of a field marked even (07 R152). -/
def State.regs2 (s : State) (w : Who) (r : Reg) : Word × Word :=
  match w.tid with
  | none => ((s.sreg w r.toNat).extractLsb' 0 32, (s.sreg w (r.toNat + 1)).extractLsb' 0 32)
  | some t => (s.greg w t r.toNat, s.greg w t (r.toNat + 1))

/-- Write a returned value: a register count of the executor (02 R33). -/
def State.setDest (s : State) (w : Who) (d : Dest) (v : Nat) : State :=
  match d with
  | none => s
  | some (r, n) => s.setRegs w r n v

/-- A predicate of the executor: p0 to p47, or q0 to q15. -/
def State.pred (s : State) (w : Who) (n : Nat) : Bool :=
  match w.tid with
  | none => (s.ctx w.core w.ctx).q.getLsbD n
  | some t => (s.thread w t).p.getLsbD n

/-- A bit vector with one bit set to a value. -/
def putBit {n : Nat} (x : BitVec n) (i : Nat) (b : Bool) : BitVec n :=
  (x &&& ~~~(BitVec.twoPow n i)) ||| (if b then BitVec.twoPow n i else 0#n)

def State.setPred (s : State) (w : Who) (n : Nat) (b : Bool) : State :=
  match w.tid with
  | none => s.modCtx w.core w.ctx fun c => { c with q := putBit c.q n b }
  | some t =>
    let th := s.thread w t
    s.setThread w t { th with p := putBit th.p n b }

/-- Whether an instruction's guard is true for the executor (02 R40). -/
def State.guardOk (s : State) (w : Who) (g : Guard) : Bool := g == 63#6 || s.pred w g.toNat

/-- The rejoin mask jn of a warp (06 R150). -/
def State.mask (s : State) (w : Who) (warp j : Nat) : BitVec 32 :=
  tblGet 0#32 (s.ctx w.core w.ctx).masks (8 * warp + j)
def State.setMask (s : State) (w : Who) (warp j : Nat) (v : BitVec 32) : State :=
  s.modCtx w.core w.ctx fun c => { c with masks := tblPut 0#32 c.masks (8 * warp + j) v }

/-! ### The issue -/

/-- The executors of an issue, threads in ascending index. -/
def Issue.whos (i : Issue) : List Who :=
  if i.lead then [{ core := i.core, ctx := i.ctx }]
  else i.tids.map fun t => { core := i.core, ctx := i.ctx, tid := some t }

/-- The key of an executor within its issue. -/
def Who.key (w : Who) : Nat := w.tid.getD 0

/-- Run a meaning for the bundle being issued. -/
def onIssue (s : State) (f : Issue → State → State) : Res :=
  match s.cur with
  | none => .fault .noIssue
  | some i => .next (f i s)

/-- Run a meaning for each executor whose guard is true, in ascending thread index (07 R155, 11 R249). -/
def eachExec (g : Guard) (f : Issue → Who → State → State) (s : State) : Res :=
  onIssue s fun i s0 => i.whos.foldl (fun st w => if s0.guardOk w g then f i w st else st) s0

/-- The executor cannot issue the bundle now (02 R46, 11 R246). -/
def markWait (w : Who) (s : State) : State :=
  { s with cur := s.cur.map fun i => { i with waits := i.waits ++ [w.key] } }

/-- A fresh number. -/
def State.next (s : State) : Nat × State := (s.fresh, { s with fresh := s.fresh + 1 })

/-- TIME in whole nanoseconds (01 R20). -/
def State.time (s : State) : Nat := s.ps / 1000

/-! ### The mesh (01 R12 to R15) -/

def coreX (c : Nat) : Nat := 20 * (c / 320) + c % 20
def coreY (c : Nat) : Nat := c % 320 / 20
def coreDie (c : Nat) : Nat := c / 320
/-- The index of the core at (x, y). -/
def coreAt (x y : Nat) : Nat := x / 20 * 320 + y * 20 + x % 20
/-- The cluster of a core (R13). -/
def clusterOf (c : Nat) : Nat := coreDie c * 20 + coreY c / 4 * 5 + coreX c % 20 / 4
/-- The bit of a core within its cluster's mask (07 R162). -/
def clusterBit (c : Nat) : Nat := coreY c % 4 * 4 + coreX c % 4

/-! ### Launches (09 R219) -/

def Launch.entry (l : Launch) : Nat := fld l.bits 0 0 64
def Launch.succ (l : Launch) : Nat := fld l.bits 1 0 64
def Launch.doneAddr (l : Launch) : Nat := fld l.bits 2 0 64
def Launch.tqn (l : Launch) : Nat := fld l.bits 4 0 32
def Launch.lqn (l : Launch) : Nat := fld l.bits 4 32 32
def Launch.lqb (l : Launch) : Nat := fld l.bits 5 0 64
def Launch.oqb (l : Launch) : Nat := fld l.bits 6 0 64
def Launch.oqn (l : Launch) : Nat := fld l.bits 7 0 32
def Launch.width (l : Launch) : Nat := fld l.bits 8 16 8
def Launch.height (l : Launch) : Nat := fld l.bits 8 24 8
def Launch.cw (l : Launch) : Nat := fld l.bits 8 32 3
def Launch.dmode (l : Launch) : Nat := fld l.bits 8 36 2
def Launch.level (l : Launch) : Nat := fld l.bits 8 38 3
def Launch.part (l : Launch) : Nat := fld l.bits 8 41 3
def Launch.start (l : Launch) : Bool := fld l.bits 8 44 1 == 1
def Launch.mxe (l : Launch) : Bool := fld l.bits 8 45 1 == 1
def Launch.priv (l : Launch) : Bool := fld l.bits 8 46 1 == 1
def Launch.thr (l : Launch) : Nat := fld l.bits 9 0 11
/-- g-registers per thread: 32, 64, 96 or 128. -/
def Launch.regs (l : Launch) : Nat := 32 + 32 * fld l.bits 9 11 2
def Launch.smem (l : Launch) : Nat := fld l.bits 9 16 22
/-- The launch context at a ring position. -/
def Launch.ring (l : Launch) (i : Nat) : Nat := fld l.bits 9 (38 + 2 * i) 2
/-- The core lies in the launch's rectangle. -/
def Launch.covers (l : Launch) (c : Nat) : Bool :=
  l.ox ≤ coreX c && coreX c < l.ox + l.width && l.oy ≤ coreY c && coreY c < l.oy + l.height
/-- The cores of the rectangle, row by row. -/
def Launch.coreList (l : Launch) : List Nat :=
  (List.range l.height).flatMap fun y => (List.range l.width).map fun x => coreAt (l.ox + x) (l.oy + y)

def State.launch (s : State) (slot : Nat) : Option Launch := tblGet none s.launches slot
def State.setLaunch (s : State) (slot : Nat) (l : Option Launch) : State :=
  { s with launches := tblPut none s.launches slot l }
def State.modLaunch (s : State) (slot : Nat) (f : Launch → Launch) : State :=
  s.setLaunch slot ((s.launch slot).map f)

/-- The launch of the task that runs on a context. -/
def State.launchOf (s : State) (c k : Nat) : Option Launch :=
  match (s.ctx c k).task with
  | none => none
  | some t => s.launch t.slot

/-- The slot of that launch. -/
def State.slotOf (s : State) (c k : Nat) : Nat := ((s.ctx c k).task.map (·.slot)).getD 0

/-- A context is resident while a task or the service firmware runs on it. -/
def Ctx.resident (x : Ctx) : Bool := x.task.isSome || x.service

/-- A service context: c7 of core (0, 0) and of core (20, 0) (09 R232). -/
def isServiceCtx (c k : Nat) : Bool := k == 7 && (c == 0 || c == 320)

/-- The partition an executor acts in; a service context's is 0 (25 R372). -/
def State.partOf (s : State) (c k : Nat) : Nat := ((s.launchOf c k).map Launch.part).getD 0

/-- Whether an executor is privileged (09 R232, 24 R357). -/
def State.privileged (s : State) (w : Who) : Bool :=
  isServiceCtx w.core w.ctx || ((s.launchOf w.core w.ctx).map Launch.priv).getD false
    || ((s.ctx w.core w.ctx).handler && w.tid.isNone)

/-! ### The device control space (25 R371): offsets of registers and their reset values -/

def offPMCTL : Nat := 0x600
def offQos (n : Nat) : Nat := 0x10000 + 16 * n
def offHEADURG (h : Nat) : Nat := 0x10100 + 8 * h
def offQOSCTL : Nat := 0x10180
def offPLCMAP (i : Nat) : Nat := 0x10200 + 8 * i
def offDSPCTL : Nat := 0x20000
def offHLQ (p : Nat) : Nat := 0x20100 + 32 * p
def offPLT (p : Nat) : Nat := 0x20200 + 16 * p
def offCOHCTL : Nat := 0x30000
def offOWNCMD : Nat := 0x30010
def offOWNQ : Nat := 0x30018
def offMIG (k : Nat) : Nat := 0x30100 + 32 * k
def offLOSTREC (n : Nat) : Nat := 0x30200 + 16 * n
def offRECLAIM : Nat := 0x30300
def offRCLDATA : Nat := 0x30340
def offFLTCTL : Nat := 0x40000
def offWDOG (p : Nat) : Nat := 0x40020 + 8 * p
def offPKILL : Nat := 0x40060
def offPFRESP : Nat := 0x40080
def offPFRING (p : Nat) : Nat := 0x40100 + 32 * p
def offFLOG (n : Nat) : Nat := 0x40400 + 32 * n
def offPart (p : Nat) : Nat := 0x50000 + 0x100 * p
def offPSTAT : Nat := 0x50F00
def offSvc (die : Nat) : Nat := 0x60000 + 0x8000 * die

/-- The reset value of a register by its offset. -/
def ctlReset (off : Nat) : DWord :=
  if off < 0x140 then 0x400400848400#64           -- CLPROF: 1,024, 1,024, 132, 132 (12 R258)
  else if off = offPMCTL then 10#64               -- LINT (12 R261)
  else if 0x10000 ≤ off ∧ off < 0x100F0 then
    (let n := (off - 0x10000) / 16
     if (off - 0x10000) % 16 = 8 then (if n = 0 ∨ 8 ≤ n then 0xFFFF#64 else 0#64)
     else if n < 8 then 0x1000000000000#64
     else if n < 10 then 0x2000000000000#64 else 0x3000000000000#64)   -- WAYS, LCLS (15 R283)
  else if 0x10100 ≤ off ∧ off < 0x10120 then 0x4020100#64              -- U3 64, U2 128, U1 256 (15 R287)
  else if off = offDSPCTL then 16#64              -- AGET (17 R295)
  else if off = 0x50000 then 1#64                 -- partition 0's EN reads 1 (25 R372)
  else 0#64

def State.ctl64 (s : State) (off : Nat) : DWord := tblGet (ctlReset off) s.ctl off
def State.setCtl (s : State) (off : Nat) (v : DWord) : State := { s with ctl := tblPut (ctlReset off) s.ctl off v }
/-- Bits [lo + len − 1 : lo] of a register. -/
def State.ctlF (s : State) (off lo len : Nat) : Nat := bitsOf (s.ctl64 off).toNat lo len
/-- Set bits [lo + len − 1 : lo] of a 64-bit value. -/
def putF (x : DWord) (lo len v : Nat) : DWord :=
  BitVec.ofNat 64 (x.toNat - bitsOf x.toNat lo len * 2 ^ lo + (v % 2 ^ len) * 2 ^ lo)
def State.setCtlF (s : State) (off lo len v : Nat) : State := s.setCtl off (putF (s.ctl64 off) lo len v)

/-! ### Partitions (25 R372, R374) -/

/-- Partition p is enabled. -/
def State.partOn (s : State) (p : Nat) : Bool := s.ctlF (offPart p) 0 1 == 1

/-- A valid rectangle of partition p holds the core (R372). -/
def State.rectHolds (s : State) (p c : Nat) : Bool :=
  (List.range 4).any fun k =>
    let r := (s.ctl64 (offPart p + 0x10 + 8 * k)).toNat
    bitOf r 63 && bitsOf r 0 6 ≤ coreX c && coreX c < bitsOf r 0 6 + bitsOf r 12 6 &&
      bitsOf r 6 6 ≤ coreY c && coreY c < bitsOf r 6 6 + bitsOf r 18 6

/-- A valid range of partition p holds the region (R372). -/
def State.memHolds (s : State) (p region : Nat) : Bool :=
  (List.range 8).any fun k =>
    let r := (s.ctl64 (offPart p + 0x40 + 8 * k)).toNat
    bitOf r 63 && bitsOf r 21 19 ≤ region && region < bitsOf r 21 19 + bitsOf r 42 19

/-- The partition that holds a core; 0 where no enabled partition does. -/
def State.corePart (s : State) (c : Nat) : Nat :=
  (([1, 2, 3, 4, 5, 6, 7] : List Nat).find? fun p => s.partOn p && s.rectHolds p c).getD 0

/-- How many regions the pool has (22 R340). -/
def regionCount : Nat := 393216

/-- Whether partition p owns the region (R372). -/
def State.ownsRegion (s : State) (p region : Nat) : Bool :=
  region < regionCount &&
    (if p = 0 then !(([1, 2, 3, 4, 5, 6, 7] : List Nat).any fun q => s.partOn q && s.memHolds q region)
     else s.partOn p && s.memHolds p region)

/-- The device control space, 1 MiB (25 R371). -/
def ctlBase : Nat := 0xFF00000000
def inCtl (pa : Nat) : Bool := ctlBase ≤ pa && pa < ctlBase + 0x100000

/-! ### The L1 (19 R314, R315) -/

def l1Find (l : List L1Line) (line : Nat) : Option L1Line := l.find? fun x => x.line == line
/-- A hit makes the line the most recently used. -/
def l1Touch (l : List L1Line) (line : Nat) : List L1Line :=
  match l1Find l line with
  | none => l
  | some x => x :: l.filter fun y => y.line != line
/-- The line replaced by a fill of a full set: the least recently used pushed line, else demand line. -/
def l1Victim (l : List L1Line) (line : Nat) : Option L1Line :=
  let set := l.filter fun x => x.line % 1024 == line % 1024 && x.line != line
  if set.length < 8 then none
  else match (set.filter (·.pushed)).getLast? with
    | some v => some v
    | none => set.getLast?
/-- Install a line; a copy already there is replaced. -/
def l1Install (l : List L1Line) (x : L1Line) : List L1Line :=
  let rest := l.filter fun y => y.line != x.line
  match l1Victim l x.line with
  | none => x :: rest
  | some v => x :: rest.filter fun y => y.line != v.line
def l1DropDemand (l : List L1Line) : List L1Line := l.filter (·.pushed)
/-- A store updates a present copy and keeps its state (06 R158). -/
def l1Store (l : List L1Line) (pa n v : Nat) : List L1Line :=
  mapIf (fun x => x.line == pa / 64) (fun x => { x with data := lineSet x.data (pa % 64) n v }) l

/-- A new message. -/
def State.send (s : State) (core line : Nat) (k : MsgKind) : State :=
  let (n, s) := s.next
  { s with homes := { s.homes with msgs := s.homes.msgs ++ [{ id := n, core, line, kind := k }] } }

/-- A fill of core c's L1; a pushed line it replaces is reported (19 R314, 21 R335). -/
def State.fillL1 (s : State) (c : Nat) (x : L1Line) : State :=
  let co := s.core c
  let s' := s.setCore c { co with l1 := l1Install co.l1 x }
  match l1Victim co.l1 x.line with
  | some v => if v.pushed then s'.send c v.line .evicted else s'
  | none => s'

/-- An acquire of die scope or wider: demand lines and the fills in flight go (07 R159, 21 R330). -/
def State.dropDemand (s : State) (c : Nat) : State :=
  s.modCore c fun co => { co with l1 := l1DropDemand co.l1, loads := co.loads.map fun l => { l with fill := false } }

/-! ### The home of a line (21 R325, R334; 22 R339, R341, R346) -/

def lineOf (pa : Nat) : Nat := pa / 64
def regionOf (pa : Nat) : Nat := pa / 2097152

/-- The slice index of an address within its die (15 R280). -/
def sliceIndex (pa : Nat) : Nat := bitsOf pa 6 8 ^^^ bitsOf pa 14 8 ^^^ bitsOf pa 22 8 ^^^ bitsOf pa 30 8
/-- The die of an address, by the policy of its granule pair. -/
def State.dieOf (s : State) (pa : Nat) : Nat :=
  let p := pa / 2147483648
  if s.ctlF (offPLCMAP (p / 64)) (p % 64) 1 = 0 then bitsOf pa 12 1 ^^^ bitsOf pa 21 1 ^^^ bitsOf pa 30 1 else bitsOf pa 30 1
/-- The slice of a line: 256 × die + index. -/
def State.sliceOf (s : State) (pa : Nat) : Nat := 256 * s.dieOf pa + sliceIndex pa
/-- The core index of the stop that a slice stands at. -/
def sliceStop (die idx : Nat) : Nat := let c := idx % 16; coreAt (20 * die + c + c / 4) (idx / 16)
/-- The memory channel of a line: its die, and one of that die's 96. -/
def State.channelOf (s : State) (pa : Nat) : Nat × Nat := (s.dieOf pa, pa / 256 % 96)
/-- The set of a slice that a line falls in: 4,096 × slice + set; the manual gives no set index (log 12). -/
def State.setKey (s : State) (line : Nat) : Nat := 4096 * s.sliceOf (64 * line) + Config.cacheSet line % 4096

/-! ### The keys that memory stands under (25 R375) -/

/-- A partition but 0 has drawn a key pair: until then every line stands under partition 0's one pair. -/
def State.keyed (s : State) : Bool := s.homes.keys.any fun e => e.1 != 0
/-- The partition whose key pair a region's lines are written and read under: the enabled one that holds it, else one whose
keys are valid and whose ranges hold it, else partition 0 (log 69). -/
def State.keyOwner (s : State) (region : Nat) : Nat :=
  let ps : List Nat := [1, 2, 3, 4, 5, 6, 7].filter fun p => s.memHolds p region
  ((ps.find? fun p => s.partOn p).orElse fun _ => ps.find? fun p => s.ctlF (offPart p) 2 1 == 1).getD 0
/-- The number of a partition's present key pair; partition 0 draws one only. -/
def State.keyNo (s : State) (p : Nat) : Nat := if p = 0 then 0 else p + 8 * tblGet 0 s.homes.keys p
/-- The key pair that a line stands under. -/
def State.lineKey (s : State) (line : Nat) : Nat :=
  match tblGet 0 s.homes.lineKeys line with
  | 0 => tblGet 0 s.homes.regionKeys (line / 32768)
  | n + 1 => n
/-- The line was written under another pair than its region is read under now. -/
def State.stale (s : State) (line : Nat) : Bool := s.keyed && s.lineKey line != s.keyNo (s.keyOwner (line / 32768))
/-- A line as its home holds it. -/
def State.homeLine (s : State) (line : Nat) : Line :=
  let d := BitVec.ofNat 512 (readBytes s.mem (64 * line) 64)
  if s.stale line then Config.recrypt line (s.lineKey line) (s.keyNo (s.keyOwner (line / 32768))) d else d
/-- n bytes of memory whose lines may stand under different keys. -/
def State.keyedBytes (s : State) (a : Nat) : Nat → Nat
  | 0 => 0
  | n + 1 =>
    (if s.stale (a / 64) then lineGet (s.homeLine (a / 64)) (a % 64) 1 else (byteAt s.mem a).toNat) + 256 * s.keyedBytes (a + 1) n
/-- n bytes of memory as they read at their home. -/
def State.memBytes (s : State) (a n : Nat) : Nat := if s.keyed then s.keyedBytes a n else readBytes s.mem a n
/-- The line, as it reads, stands under its owner's pair: what a write of a part of it does first. -/
def State.rekey (s : State) (line : Nat) : State :=
  if s.stale line then
    { s with
      mem := writeBytes s.mem (64 * line) 64 (s.homeLine line).toNat
      homes := { s.homes with lineKeys := tblPut 0 s.homes.lineKeys line (s.keyNo (s.keyOwner (line / 32768)) + 1) } }
  else s

/-- The page size of a migration slot in bytes (22 R345). -/
def migSize (code : Nat) : Nat := if code = 0 then 4096 else if code = 1 then 65536 else 2097152
def State.migState (s : State) (k : Nat) : Nat := s.ctlF (offMIG k + 16) 62 2
def State.migSrc (s : State) (k : Nat) : Nat := s.ctlF (offMIG k) 0 40
def State.migDst (s : State) (k : Nat) : Nat := s.ctlF (offMIG k + 8) 0 40
def State.migLen (s : State) (k : Nat) : Nat := migSize (s.ctlF (offMIG k + 16) 4 2)
/-- The migration slot whose source page holds the address, among those in one of the states. -/
def State.migAt (s : State) (states : List Nat) (pa : Nat) : Option Nat :=
  (List.range 4).find? fun k =>
    states.contains (s.migState k) && s.migSrc k ≤ pa && pa < s.migSrc k + s.migLen k
/-- Where an access that reaches an address performs: forwarded from a switched page (22 R346). -/
def State.forward (s : State) (pa : Nat) : Nat :=
  match s.migAt [3] pa with
  | none => pa
  | some k => s.migDst k + (pa - s.migSrc k)
/-- The line where an access of an address performs. -/
def State.homeOf (s : State) (pa : Nat) : Nat := lineOf (s.forward pa)
/-- Writes to the line are held: a migration copies its page. -/
def State.migLocked (s : State) (pa : Nat) : Bool := (s.migAt [1, 2] pa).isSome

def State.region (s : State) (r : Nat) : Region := tblGet .host s.homes.regions r
def State.setRegion (s : State) (r : Nat) (x : Region) : State :=
  { s with homes := { s.homes with regions := tblPut .host s.homes.regions r x } }
def State.hdir (s : State) (line : Nat) : HostDir := tblGet {} s.homes.hostDir line
def State.setHdir (s : State) (line : Nat) (x : HostDir) : State :=
  { s with homes := { s.homes with hostDir := tblPut {} s.homes.hostDir line x } }

/-- Regions in transfer (22 R342). -/
def State.transfers (s : State) : Nat :=
  (s.homes.regions.filter fun r => r.2 == .toAcc || r.2 == .toHost).length

/-- Start the recall of every host copy in a region; copies held shared need no data and go at once. -/
def recallRegion (now r : Nat) (dir : Tbl HostDir) : Tbl HostDir :=
  (dir.map fun e =>
    if e.1 / 32768 = r then
      (e.1, if e.2.excl.isSome then { e.2 with recallAt := some (e.2.recallAt.getD now) } else {})
    else e).filter fun e => !(e.2 == {})

/-! ### Whose accesses wait (15 R285; 22 R341; 24 R363) -/

/-- The agent still stands at what it asked for; walks apart. -/
def State.standsAt (s : State) : Agent → Bool
  | .strand w pc =>
    let x := s.ctx w.core w.ctx
    x.resident && !x.stopped && (s.strand w).pc == pc && match w.tid with
      | none => x.traps.isEmpty || x.handler
      | some t => x.traps.isEmpty && (tblGet none x.threads t).isSome
  | .access c id =>
    ((s.core c).loads.any fun l => l.id == id && l.data.isNone) || (s.core c).stores.any fun t => t.id == id && !t.done
  | .op c id part => (s.core c).ops.any fun o => o.id == id && o.state == .running && o.fault.isNone && match o.kind with
      | .gather _ => o.flight.any fun f => f.1 == part && f.2.2.isNone
      | _ => true
  | .dispatch .. | .accepts .. => true
  | .listed id => s.sched.waits.any fun w => w.id == id
  | .context c k => (s.ctx c k).resident
  | .fault id => s.sched.faults.any fun f => f.id == id && f.outcome.isNone
  | .batch die seq => s.svc.batches.any fun b => b.die == die && b.seq == seq
  | .freeing die j => s.sched.freeing.any fun e => e.2 == (die, j)
  | .host agent line => s.homes.hostWaits.contains (agent, line)
  | .walk .. | .other => false

/-- The record of a walk for a page. -/
def Walk.is (x : Walk) (die part vpn : Nat) : Bool := x.die == die && x.part == part && x.vpn == vpn
/-- The same, a walk in flight that an access still waits for included. -/
def State.live (s : State) (a : Agent) : Bool :=
  match a with
  | .walk die part vpn => s.sched.walks.any fun x => x.is die part vpn && x.ended.isNone && x.joined.any s.standsAt
  | a => s.standsAt a

/-- Agents give up what they waited for. -/
def State.dropAgents (s : State) (p : Agent → Bool) : State :=
  { s with
    homes := { s.homes with devWaits := s.homes.devWaits.filter fun w => !p w.2 }
    sched := { s.sched with
      walks := (s.sched.walks.map fun x => { x with joined := x.joined.filter fun a => !p a }).filter fun x => !x.joined.isEmpty }
    power := { s.power with queue := s.power.queue.filter fun e => !p e.2, paid := s.power.paid.filter fun e => !p e.1 } }
/-- No request of the present step stands to be admitted. -/
def State.noAsks (s : State) : State := { s with power := { s.power with asks := [] } }
/-- The agent's step has taken place. -/
def State.forget (s : State) (a : Agent) : State := (s.dropAgents (· == a)).noAsks

/-- The agent waits for something else than tokens: it stands before no other request (R285). -/
def State.unqueue (s : State) (a : Agent) : State :=
  { s with power := { s.power with queue := s.power.queue.filter fun e => e.2 != a } }

/-- An access of a region's owner still waits: the region does not move yet (22 R341). -/
def State.owes (s : State) (r : Nat) : Bool :=
  s.homes.owed.contains r &&
    if s.region r == .host then s.homes.hostWaits.any fun w => w.2 / 32768 == r
    else s.homes.devWaits.any fun w => w.1 == r && s.live w.2

/-- A transfer begins: what reaches the region from now on waits for its end. -/
def State.beginMove (s : State) (r : Nat) (x : Region) : State :=
  let s := s.setRegion r x
  { s with homes := { s.homes with moving := tblPut (0, 0) s.homes.moving r (s.fresh, s.ps) } }

/-- A device request for ownership of a region (22 R341, R342): nothing while the host's waiting access has
not performed, or while 32 regions are in transfer. -/
def State.wantAcc (s : State) (r : Nat) : State :=
  if s.region r == .host && !s.owes r && s.transfers < 32 then
    let s := s.beginMove r .toAcc
    { s with homes := { s.homes with hostDir := recallRegion s.ps r s.homes.hostDir } }
  else s

/-- A host request for ownership of a region. -/
def State.wantHost (s : State) (r : Nat) : State :=
  if s.region r == .acc && !s.owes r && s.transfers < 32 then s.beginMove r .toHost else s

/-- An access of a device executor waits at the region. -/
def State.waitAt (s : State) (r : Nat) (a : Agent) : State :=
  if a == .other || s.homes.devWaits.contains (r, a) then s
  else { s with homes := { s.homes with devWaits := s.homes.devWaits ++ [(r, a)] } }

/-- An access of the region's owner performed: the region may move again (22 R341). -/
def State.ownerServed (s : State) (r : Nat) : State :=
  { s with homes := { s.homes with owed := s.homes.owed.filter (· != r) } }
/-- An access of a device executor performed: one that waited at the region goes first (step 3 of R341). -/
def State.served (s : State) (r : Nat) (a : Agent) : State :=
  if s.homes.devWaits.contains (r, a) then
    { s with homes := { s.homes with owed := s.homes.owed.filter (· != r), devWaits := s.homes.devWaits.filter (· != (r, a)) } }
  else s

/-- An address in a pair or partition being scrubbed (15 R281, 25 R375). -/
def State.scrubbing (s : State) (pa : Nat) : Bool :=
  s.homes.scrub.contains (pa / 2147483648) ||
    s.homes.keyScrub.any fun p => s.memHolds p (regionOf pa)

/-- Start a recall of an exclusive host copy (22 R339). -/
def State.recallLine (s : State) (line : Nat) : State :=
  let h := s.hdir line
  if h.excl.isSome && h.recallAt.isNone then s.setHdir line { h with recallAt := some s.ps } else s

/-- A read at the home by a requester that is no coherence agent must wait: for the data of a host's exclusive copy, which
is recalled, for a transfer or for a scrub (22 R338, R339, R341). -/
def State.homeBusy (s : State) (pa : Nat) : Bool :=
  let a := s.forward pa
  (s.hdir (lineOf a)).excl.isSome || s.region (regionOf a) == .toAcc || s.region (regionOf a) == .toHost || s.scrubbing a

/-- Whether a device agent's access may perform at the home now, where it performs; what it must first wait for is
started (22 R339, R341, R346). An address of the control space performs at once. -/
def State.devReady (s : State) (a : Agent) (pa : Nat) : Bool × State :=
  if inCtl pa then (true, s)
  else
    let r := regionOf (s.forward pa)
    if s.scrubbing (s.forward pa) then (false, s.unqueue a)
    else match s.region r with
      | .acc => (true, s)
      | _ => (false, ((s.wantAcc r).waitAt r a).unqueue a)
/-- The same for a kind of access: a write to a page that migrates is held back too (22 R346). -/
def State.accReady (s : State) (a : Agent) (write : Bool) (pa : Nat) : Bool × State :=
  if write && !inCtl pa && s.migLocked pa then (false, s.unqueue a) else s.devReady a pa
/-- The same for accesses that perform in one step. -/
def State.allReady (s : State) (a : Agent) (write : Bool) : List Nat → Bool × State
  | [] => (true, s)
  | pa :: t =>
    match s.accReady a write pa with
    | (false, s) => (false, s)
    | (true, s) => (s.served (regionOf (s.forward pa)) a).allReady a write t

/-- Cores holding a pushed copy of the line. -/
def State.holders (s : State) (line : Nat) : List Nat :=
  (s.cores.filter fun e => e.2.l1.any fun x => x.line == line && x.pushed).map (·.1)

/-! ### Cast lines at a core (21 R333, R335) -/

/-- A plain write of the core that its L1 copy already shows. -/
def Store.shown (t : Store) : Bool := !t.done && !t.release && match t.kind with | .plain .. | .cast .. => true | _ => false

/-- A write put over a copy of its line. -/
def Store.overlay (t : Store) (d : Line) : Line :=
  match t.kind with
  | .plain len data => lineSet d (t.pa % 64) len data
  | .cast data _ => data
  | _ => d

/-- A core's copy of a line goes, and returns on their way fill nothing. -/
def State.loseLine (s : State) (c line : Nat) : State :=
  s.modCore c fun co => { co with
    l1 := co.l1.filter fun x => x.line != line
    loads := mapIf (fun l => lineOf l.pa == line && l.data.isSome) (fun l => { l with fill := false }) co.loads }

/-- A core's demand copies of the lines go. -/
def State.loseDemand (s : State) (c : Nat) (lines : List Nat) : State :=
  s.modCore c fun co => { co with
    l1 := co.l1.filter fun x => x.pushed || !lines.contains x.line
    loads := mapIf (fun l => lines.contains (lineOf l.pa)) (fun l => { l with fill := false }) co.loads }

/-- Copies that show bytes which will never be written go from a core's L1; a pushed one is reported (21 R333, R337). -/
def State.discardCopies (s : State) (c : Nat) (lines : List Nat) : State :=
  let gone := (s.core c).l1.filter fun x => lines.contains x.line
  let s := s.modCore c fun co => { co with l1 := co.l1.filter fun x => !lines.contains x.line }
  gone.foldl (fun s x => if x.pushed then s.send c x.line .evicted else s) s

/-- A core's copies of a line under its other address, while a page is forwarded to another, go with the fills of them that are
under way: a write by the one address leaves them behind. -/
def State.dropAlias (s : State) (c pa : Nat) : State :=
  if (s.migAt [3] pa).isNone && (List.range 4).all fun k => s.migState k != 3 || pa < s.migDst k || s.migDst k + s.migLen k ≤ pa then s
  else
    let alias_ (line : Nat) : Bool := line != lineOf pa && s.homeOf (64 * line) == s.homeOf pa
    let r := s.discardCopies c (((s.core c).l1.map (·.line)).filter alias_)
    r.modCore c fun co => { co with loads := mapIf (fun l => alias_ (lineOf l.pa)) (fun l => { l with fill := false }) co.loads }

/-- Lines of a core that are pushed. -/
def Core.pushedLines (co : Core) : Nat := (co.l1.filter (·.pushed)).length
/-- Cast lines installed in the current window of 1,024 ns (20 R320). -/
def State.installedNow (s : State) (c : Nat) : Nat :=
  if (s.core c).windowAt = s.time / 1024 then (s.core c).installed else 0

/-- The core refuses a cast (R335). -/
def State.castRefuses (s : State) (c part : Nat) : Bool :=
  s.corePart c != part || s.ctlF offPKILL (8 + s.corePart c) 1 == 1 ||
    bitsOf (s.core c).gauge.toNat 0 13 ≤ (s.core c).pushedLines ||
    bitsOf (s.core c).gaugerate.toNat 0 16 ≤ s.installedNow c

/-- A cast line is installed as pushed, with the core's own writes under way over it. -/
def State.castInstall (s : State) (c line : Nat) (data : Line) : State :=
  let data := (s.core c).stores.foldl (fun d t => if t.shown && lineOf t.pa == line then t.overlay d else d) data
  let n := s.installedNow c
  let s := (s.loseLine c line).fillL1 c { line, pushed := true, data }
  s.modCore c fun co => { co with installed := n + 1, windowAt := s.time / 1024 }

def State.dropMsg (s : State) (id : Nat) : State :=
  { s with homes := { s.homes with msgs := s.homes.msgs.filter fun m => m.id != id } }

/-- A cast has reached its core, which answers. -/
def State.castLand (s : State) (core line stc part : Nat) (data : Line) : State :=
  if s.castRefuses core part then s.send core line (.castRefused stc)
  else (s.castInstall core line data).send core line (.castInstalled stc)

/-- Send the next casts of an STC, at most n of them, in ascending core index (R334). -/
def State.sendCasts (s : State) (id n : Nat) : State :=
  match s.homes.stcs.find? fun t => t.id == id with
  | none => s
  | some t =>
    let s := { s with homes := { s.homes with
      stcs := mapIf (fun x => x.id == id) (fun x => { x with unsent := x.unsent.drop n }) s.homes.stcs } }
    (t.unsent.take n).foldl (fun s c => s.send c t.line (.cast id t.part (s.homeLine t.line))) s

/-- Casts of the lines that are not yet sent or on their way reach their cores: the messages of a home about a line
arrive in order, so they come before what is to happen to the lines now (R332). -/
def State.landCasts (s : State) (p : Nat → Bool) : State :=
  let s := (s.homes.stcs.filter fun t => p t.line).foldl (fun s t => s.sendCasts t.id t.unsent.length) s
  s.homes.msgs.foldl (fun s m => match m.kind with
    | .cast stc part data => if p m.line then (s.dropMsg m.id).castLand m.core m.line stc part data else s
    | _ => s) s

/-- Every copy of the lines in an L1 goes, demand or pushed or the latter only, and the fills of them under way; the
entries of the cast directory with them. -/
def State.dropCopies (s : State) (p : Nat → Bool) (demand : Bool) : State :=
  let cores := s.cores.map fun e => (e.1, { e.2 with
    l1 := e.2.l1.filter fun x => !(p x.line && (demand || x.pushed))
    loads := mapIf (fun l => demand && p (lineOf l.pa)) (fun l => { l with fill := false }) e.2.loads })
  { s with
    cores := cores.filter fun e => !(e.2 == {})
    homes := { s.homes with castDir := s.homes.castDir.filter fun e => !p e.line } }

/-- The pushed copies of a line go, after the casts of it in flight: what the invalidations of R334 leave, taken at
once, for a write that no core issued (21 R384). -/
def State.purgeLine (s : State) (line : Nat) : State := (s.landCasts (· == line)).dropCopies (· == line) false

/-- Write bytes at the home and drop host copies held shared. -/
def State.poke (s : State) (pa n v : Nat) : State :=
  let pa := s.forward pa
  let s := (s.rekey (lineOf pa)).rekey (lineOf (pa + n - 1))
  let s := s.setHdir (lineOf pa) { s.hdir (lineOf pa) with shared := 0#2 }
  { s with mem := writeBytes s.mem pa n v }

/-- The poison state of the line that holds an address: 0, 1 poisoned, 2 owner-lost. -/
def State.poisonAt (s : State) (pa : Nat) : Nat := tblGet 0 s.homes.poison (lineOf (s.forward pa))

/-- A write of the device's own agents performs at its home (21 R384); one that meets poison is discarded (22 R347). -/
def State.homeWrite (s : State) (pa n v : Nat) : State :=
  if s.poisonAt pa ≠ 0 then s else (s.purgeLine (lineOf (s.forward pa))).poke pa n v

/-- A read of the device's own agents at the home. -/
def State.homeRead (s : State) (pa n : Nat) : Nat := s.memBytes (s.forward pa) n

/-! ### Regulators and the home slices (15 R283, R285, R286, R288) -/

/-- The regulator of an access by a context: the service contexts' is 14. -/
def regulatorOf (w : Who) (part : Nat) : Nat := if isServiceCtx w.core (w.ctx % 8) then 14 else part

def State.share (s : State) (n : Nat) : Nat := s.ctlF (offQos n) 0 24
def State.tshare (s : State) (n : Nat) : Nat := s.ctlF (offQos n) 24 24
def State.lcls (s : State) (n : Nat) : Nat := s.ctlF (offQos n) 48 2

/-- The regulator is throttled in this quarter (R288). -/
def State.throttled (s : State) (n : Nat) : Bool := s.lcls n < s.power.urgency && s.tshare n != 0

/-- A line request of a regulator may enter a slice of a die: it finds 64 tokens, and room below the cap of the quarter. -/
def State.admits (s : State) (n die : Nat) : Bool :=
  let key := 2 * n + die
  !((s.share n != 0 && tblGet 0 s.power.buckets key < 64) ||
    (s.throttled n && s.tshare n / 4 < tblGet 0 s.power.quarter key + 64))

/-- The tokens of a line request, and its bytes of the quarter. -/
def State.charge (s : State) (n die : Nat) : State :=
  let key := 2 * n + die
  { s with power := { s.power with
    buckets := if s.share n = 0 then s.power.buckets else tblPut 0 s.power.buckets key (tblGet 0 s.power.buckets key - 64)
    quarter := tblPut 0 s.power.quarter key (tblGet 0 s.power.quarter key + 64) } }

/-- The lines of a set after an access: a hit where it stands, a miss in a way of the mask that holds no pinned
line, the least recently used one (R286). -/
def scAccess (set : List ScLine) (ways : BitVec 16) (pinned : Nat → Bool) (line now : Nat) : List ScLine :=
  if set.any fun x => x.line == line then mapIf (fun x => x.line == line) (fun x => { x with used := now }) set
  else
    let allowed := (List.range 16).filter fun w => ways.getLsbD w
    match allowed.find? fun w => set.all fun x => x.way != w with
    | some w => set ++ [{ line, way := w, used := now }]
    | none =>
      let old := (set.filter fun x => allowed.contains x.way && !pinned x.line).foldl
        (fun (b : Option ScLine) x => match b with | none => some x | some y => if x.used < y.used then some x else some y) none
      match old with
      | none => set
      | some v => (set.filter fun x => x.line != v.line) ++ [{ line, way := v.way, used := now }]

/-- An access of a regulator's requester goes through the slice of its line. -/
def State.throughSlice (s : State) (n pa : Nat) : State :=
  let key := s.setKey (lineOf pa)
  let ways := BitVec.ofNat 16 (s.ctlF (offQos n + 8) 0 16)
  let (now, s) := s.next
  { s with homes := { s.homes with
    sc := tblPut [] s.homes.sc key (scAccess (tblGet [] s.homes.sc key) ways (fun l => s.homes.pins.contains l) (lineOf pa) now) } }

/-- A request for the line of an address, at the home that it is forwarded to, is charged and served. -/
def State.request (s : State) (n pa : Nat) : State :=
  let a := s.forward pa
  (s.charge n (s.dieOf a)).throughSlice n a

/-- The agent waits for the other: a walk that it has joined. -/
def State.behind (s : State) (a b : Agent) : Bool :=
  match b with
  | .walk die part vpn => s.sched.walks.any fun x => x.is die part vpn && x.joined.contains a
  | _ => false
/-- No older request of the requester is held (R285). -/
def State.mayEnter (s : State) (a : Agent) (n : Nat) : Bool :=
  (s.power.queue.takeWhile fun e => e != (n, a)).all fun e => e.1 != n || !s.live e.2 || s.behind e.2 a
/-- The request is held: it keeps its place among the requester's. -/
def State.enqueue (s : State) (a : Agent) (n : Nat) : State :=
  if a == .other || s.power.queue.contains (n, a) then s
  else { s with power := { s.power with queue := (s.power.queue.filter fun e => s.live e.2) ++ [(n, a)] } }
/-- One request of an agent, where its regulator admits it and the requester holds no older one; false where it is held. -/
def State.regulate (s : State) (a : Agent) (n pa : Nat) : Bool × State :=
  if s.mayEnter a n && s.admits n (s.dieOf (s.forward pa)) then (true, (s.unqueue a).request n pa) else (false, s.enqueue a n)
/-- How many requests of the agent's present step have been admitted. -/
def State.paidBy (s : State) (a : Agent) : Nat := ((s.power.paid.find? fun e => e.1 == a).map (·.2)).getD 0
def State.setPaid (s : State) (a : Agent) (k : Nat) : State :=
  { s with power := { s.power with
    paid := (s.power.paid.filter fun e => e.1 != a && s.live e.1) ++ if k = 0 || a == .other then [] else [(a, k)] } }
/-- Requests of an agent, each with its regulator, in turn while they are admitted; how many were. -/
def State.regulateAll (s : State) (a : Agent) : List (Nat × Nat) → Nat × State
  | [] => (0, s)
  | (n, pa) :: t => match s.regulate a n pa with
    | (true, s) => match s.regulateAll a t with | (k, s) => (k + 1, s)
    | (false, s) => (0, s)
/-- The requests of one step of an agent: it takes place when the last of them has been admitted, and is held until then. -/
def State.pay (s : State) (a : Agent) (l : List (Nat × Nat)) : Bool × State :=
  let old := s.paidBy a
  match s.regulateAll a (l.drop old) with
  | (k, s) => if l.length ≤ old + k then (true, s.setPaid a 0) else (false, s.setPaid a (old + k))
/-- The present step makes a request. -/
def State.ask (s : State) (n pa : Nat) : State := { s with power := { s.power with asks := s.power.asks ++ [(n, pa)] } }
/-- The requests that the step has made are admitted, and the step takes place; false where it is held. -/
def State.settle (s : State) (a : Agent) : Bool × State :=
  match s.pay a s.power.asks with
  | (true, s) => (true, s.forget a)
  | r => r
/-- A step that is held leaves what its requests have come to: tokens, places in the slices and in the queues, walks. -/
def State.keepPaid (s r : State) : State :=
  { s with
    fresh := r.fresh
    homes := { s.homes with sc := r.homes.sc }
    sched := { s.sched with walks := r.sched.walks }
    power := { s.power with buckets := r.power.buckets, quarter := r.power.quarter, queue := r.power.queue, paid := r.power.paid } }

/-! ### Translation (24 R360 to R363) -/

/-- The kind of an access to a page. -/
inductive Access where
  | read
  | write
  | fetch
  deriving DecidableEq, Repr

/-- Where a walk or lookup ends: a physical address with the leaf's C bit, a fault, or a wait. -/
inductive Xlat where
  | ok (pa : Nat) (cached : Bool)
  | fault (cause sub : Nat)
  | wait (line : Nat)
  deriving DecidableEq, Repr

/-- Bits [63:57] equal bit 56 (R360). -/
def canonical (va : DWord) : Bool :=
  let h := (va.toNat >>> 56) % 256
  h == 0 || h == 255

/-- The page size of a leaf as a shift: 64 KiB pages stand for sixteen 4 KiB leaves. -/
def levelShift (lvl : Nat) : Nat := 12 + 9 * lvl

/-- The leaf's own defects (R362). -/
def leafBad (lvl e : Nat) : Bool :=
  bitsOf e 52 12 != 0 || bitsOf e 10 2 != 0 || bitOf e 5 || (lvl != 0 && bitOf e 9) ||
    (lvl == 1 && bitsOf e 12 9 != 0) || (lvl == 2 && bitsOf e 12 18 != 0)

/-- The sixteen entries of a 64 KiB page agree in CT, permissions and consecutive PA (R362). -/
def State.ctGroupOk (s : State) (entryPa e : Nat) : Bool :=
  let base := entryPa - entryPa % 128
  let first := s.homeRead base 8
  bitsOf first 12 4 == 0 && (List.range 16).all fun i =>
    let x := s.homeRead (base + 8 * i) 8
    bitOf x 0 && bitOf x 1 && bitOf x 9 && bitsOf x 2 3 == bitsOf e 2 3 && bitsOf x 12 28 == bitsOf first 12 28 + i

/-- A walk's end: the leaf, its level and where it stands; a fault; or a line the walk must wait for. -/
inductive WalkEnd where
  | leaf (lvl e entryPa : Nat) (path : List (Nat × Nat))
  | fault (cause sub : Nat)
  | wait (line : Nat)
  deriving DecidableEq, Repr

/-- What keeps a walker from reading an entry at its home: a recall, a transfer or a scrub that it waits for, or poison, which
it meets as the access would (22 R339, R341, R347; log 10). -/
def State.entryStop (s : State) (pa : Nat) : Option WalkEnd :=
  let r := s.region (regionOf (s.forward pa))
  if (s.hdir (lineOf (s.forward pa))).excl.isSome || s.scrubbing (s.forward pa) || r == .toAcc || r == .toHost then
    some (.wait (lineOf (s.forward pa)))
  else if s.poisonAt pa ≠ 0 then some (.fault 16 (s.poisonAt pa - 1))
  else none

/-- One level of a walk, at level lvl of a table: `held` is the entry if a walker holds it; `next` walks on from the table
that the entry names, with the entries read so far in `path` (R360 to R363). -/
def walkLevel (s : State) (held : Option Nat) (va lvl table : Nat) (path : List (Nat × Nat))
    (next : Nat → List (Nat × Nat) → WalkEnd) : WalkEnd :=
  let shift := levelShift lvl
  let entryPa := table + 8 * (bitsOf va shift 9)
  match (if held.isNone then s.entryStop entryPa else none) with
  | some r => r
  | none =>
    let e := held.getD (s.homeRead entryPa 8)
    if !bitOf e 0 then .fault 8 0
    else if bitOf e 1 then
      if 3 ≤ lvl || leafBad lvl e then .fault 9 2
      else if bitOf e 9 then
        (match (s.entryStop (entryPa - entryPa % 128)).orElse fun _ => s.entryStop (entryPa - entryPa % 128 + 64) with
         | some r => r
         | none => if s.ctGroupOk entryPa e then .leaf lvl e entryPa path else .fault 9 2)
      else .leaf lvl e entryPa path
    else next (bitsOf e 12 28 * 4096) (if 2 ≤ lvl then (shift, e) :: path else path)

/-- Walk from a table at level lvl. `cached shift` answers a held table entry, of levels 4 to 2. An entry of level 0 that is
no leaf ends the walk (R360 to R363). -/
def walkFrom (s : State) (cached : Nat → Option Nat) (va : Nat) : Nat → Nat → List (Nat × Nat) → WalkEnd
  | 0, table, path => walkLevel s none va 0 table path fun _ _ => .fault 9 2
  | n + 1, table, path =>
    walkLevel s (if 1 ≤ n then cached (levelShift (n + 1)) else none) va (n + 1) table path (walkFrom s cached va n)

/-- The entries that the walk reads at their homes, in its order: those no walker holds, and the group of a 64 KiB page. -/
def walkReads (s : State) (cached : Nat → Option Nat) (va : Nat) : Nat → Nat → List Nat
  | n, table =>
    let entryPa := table + 8 * (bitsOf va (levelShift n) 9)
    let held := if 2 ≤ n then cached (levelShift n) else none
    let e := held.getD (s.homeRead entryPa 8)
    (if held.isSome then [] else [entryPa]) ++
      if bitOf e 0 && bitOf e 1 && bitOf e 9 && n == 0 then [entryPa - entryPa % 128 + (entryPa / 64 + 1) % 2 * 64]
      else match n with
        | 0 => []
        | m + 1 => if bitOf e 0 && !bitOf e 1 then walkReads s cached va m (bitsOf e 12 28 * 4096) else []

/-- The permissions of a leaf for an access (R362), and the page's place (R371, R374). -/
def State.leafCheck (s : State) (part : Nat) (user : Bool) (acc : Access) (pa e : Nat) : Option (Nat × Nat) :=
  if (acc == .fetch && !bitOf e 3) || (acc == .write && !bitOf e 2) || (user && !bitOf e 4) then
    some (9, 0)
  else if inCtl pa then (if part == 0 && !user && !bitOf e 8 then none else some (9, 0))
  else if s.ownsRegion part (regionOf pa) then none else some (9, 0)

/-- The physical address a leaf of a level gives. -/
def leafPa (lvl e va : Nat) : Nat :=
  let sh := levelShift lvl
  bitsOf e 12 28 * 4096 / 2 ^ sh * 2 ^ sh + va % 2 ^ sh

def State.walkers (s : State) (die : Nat) : List TlbEntry := if die = 0 then s.sched.walker0 else s.sched.walker1
def State.setWalkers (s : State) (die : Nat) (l : List TlbEntry) : State :=
  if die = 0 then { s with sched := { s.sched with walker0 := l } } else { s with sched := { s.sched with walker1 := l } }

/-- Look up a held translation that allows the access. -/
def State.tlbHit (s : State) (l : List TlbEntry) (part : Nat) (user : Bool) (acc : Access) (va : Nat) :
    Option (Nat × Bool) :=
  l.findSome? fun t =>
    if t.part = part && t.vpn == va >>> t.shift then
      let e := t.leaf.toNat
      let pa := bitsOf e 12 28 * 4096 / 2 ^ t.shift * 2 ^ t.shift + va % 2 ^ t.shift
      if (acc == .write && !bitOf e 7) || (s.leafCheck part user acc pa e).isSome then none
      else some (pa, bitOf e 8)
    else none

/-- The root table of a partition (25 R372). -/
def State.rootOf (s : State) (part : Nat) : Nat := s.ctlF (offPart part + 8) 12 28 * 4096

/-- Join the walk in flight for the page, or begin one (R363). -/
def State.joinWalk (s : State) (a : Agent) (die part vpn : Nat) : State :=
  let flying (x : Walk) : Bool := x.is die part vpn && x.ended.isNone
  let mine := match s.sched.walks.find? flying with
    | some x => { x with joined := x.joined.filter (fun b => b != a && s.standsAt b) ++ [a] }
    | none => { die, part, vpn, joined := [a] }
  { s with sched := { s.sched with
    walks := (s.sched.walks.filter fun x => !flying x && x.joined.any s.standsAt) ++ [mine] } }
/-- The walk in flight for the page ends: every access that has joined it has its end. -/
def State.endWalk (s : State) (die part vpn : Nat) (r : Walked) : State :=
  { s with sched := { s.sched with
    walks := mapIf (fun x => x.is die part vpn && x.ended.isNone) (fun x => { x with ended := some r }) s.sched.walks } }
/-- The end of a walk for the page that the agent's present step has joined. -/
def State.walkedFor (s : State) (a : Agent) (die part vpn : Nat) : Option Walked :=
  (s.sched.walks.find? fun x => x.is die part vpn && x.ended.isSome && x.joined.contains a).bind (·.ended)

/-- A walk goes on: its end, with the table entries that it read; or none where it must wait. Its reads are the partition's
regulator's (15 R285). -/
def State.goWalk (s : State) (a : Agent) (die part : Nat) (v : Nat) : Option (Walked × List (Nat × Nat)) × State :=
  let cached (shift : Nat) : Option Nat :=
    ((s.walkers die).find? fun t => t.part == part && t.shift == shift && t.vpn == v >>> shift).map (·.leaf.toNat)
  let s := s.joinWalk a die part (v / 4096)
  let go (r : Walked) (path : List (Nat × Nat)) : Option (Walked × List (Nat × Nat)) × State :=
    match s.pay (.walk die part (v / 4096)) ((walkReads s cached v 4 (s.rootOf part)).map fun pa => (part, pa)) with
    | (true, s) => (some (r, path), s.endWalk die part (v / 4096) r)
    | (false, s) => (none, s)
  match walkFrom s cached v 4 (s.rootOf part) [] with
  | .wait l => (none, (s.recallLine l).unqueue (.walk die part (v / 4096)))
  | .fault c sub => go (.fault c sub) []
  | .leaf lvl e entryPa path => go (.leaf lvl e entryPa) path

/-- The table entries of levels 4 to 2 that a walk read are held by the die's walkers. -/
def State.keepPath (s : State) (die part v : Nat) (path : List (Nat × Nat)) : State :=
  let keep := path.map fun p => ({ part, shift := p.1, vpn := v >>> p.1, leaf := BitVec.ofNat 64 p.2 } : TlbEntry)
  let old := (s.walkers die).filter fun t => !(keep.any fun k => k.part == t.part && k.shift == t.shift && k.vpn == t.vpn)
  s.setWalkers die ((keep ++ old).take 32)

/-- What a walk's end gives an access: the page, with A set at the entry's home, and D for a write; a fault; or a wait (R362). -/
def State.useWalk (s : State) (part : Nat) (user : Bool) (acc : Access) (v : Nat) (r : Walked) : Xlat × Nat × Nat × State :=
  match r with
  | .fault c sub => (.fault c sub, 0, 0, s)
  | .leaf lvl e entryPa =>
    let pa := leafPa lvl e v
    match s.leafCheck part user acc pa e with
    | some (c, sub) => (.fault c sub, 0, 0, s)
    | none =>
      let marks := 0x40 ||| (if acc = .write then 0x80 else 0)
      let now := s.homeRead entryPa 8
      let done : Xlat × Nat × Nat := (.ok pa (bitOf e 8), e ||| marks, levelShift lvl)
      if now ||| marks = now then (done.1, done.2.1, done.2.2, s)
      else if s.migLocked entryPa then (.wait (lineOf entryPa), 0, 0, s)
      else match s.entryStop entryPa with
        | some (.wait l) => (.wait l, 0, 0, s.recallLine l)
        | _ => (done.1, done.2.1, done.2.2, s.homeWrite entryPa 8 (now ||| marks))

/-- Walk for an access of an agent: the end of a walk that its step has joined, or of one that goes on now (R362, R363). -/
def State.walk (s : State) (a : Agent) (die part : Nat) (user : Bool) (acc : Access) (va : DWord) :
    Xlat × Nat × Nat × State :=
  let v := va.toNat
  match s.walkedFor a die part (v / 4096) with
  | some r => s.useWalk part user acc v r
  | none =>
    match s.goWalk a die part v with
    | (some (r, path), s) => (s.keepPath die part v path).useWalk part user acc v r
    | (none, s) => (.wait 0, 0, 0, s)

/-- Translate an access of a core (R362, R363). -/
def State.translate (s : State) (a : Agent) (c part : Nat) (user : Bool) (acc : Access) (va : DWord) : Xlat × State :=
  if !canonical va then (.fault 10 0, s)
  else
    let co := s.core c
    let l := if acc = .fetch then co.itlb else co.dtlb
    match s.tlbHit l part user acc va.toNat with
    | some (pa, cb) => (.ok pa cb, s)
    | none =>
      match s.walk a (coreDie c) part user acc va with
      | (.ok pa cb, e, shift, s) =>
        let x : TlbEntry := { part, shift, vpn := va.toNat >>> shift, leaf := BitVec.ofNat 64 e }
        let keep (l : List TlbEntry) := l.filter fun t => !(t.part == part && t.shift == shift && t.vpn == x.vpn)
        (.ok pa cb, s.modCore c fun co =>
          if acc = .fetch then { co with itlb := (x :: keep co.itlb).take 64 }
          else { co with dtlb := (x :: keep co.dtlb).take 128 })
      | (r, _, _, s) => (r, s)

/-- Translate an access of a die's own agent (17 R383): nothing is held but table entries. -/
def State.dieTranslate (s : State) (a : Agent) (die part : Nat) (user : Bool) (acc : Access) (va : DWord) : Xlat × State :=
  if !canonical va then (.fault 10 0, s)
  else match s.walk a die part user acc va with
    | (r, _, _, s) => (r, s)

/-! ### Taking a trap (02 R45, R48; 24 R352, R353, R365) -/

/-- A trap of an executor as it stands now (24 R355). -/
def State.trapOf (s : State) (w : Who) (slot cause sub : Nat) (va info : DWord) : Trap :=
  let x := s.strand w
  { exk := if w.tid.isNone then 1 else 0, tid := w.tid, slot, cause, sub, va, pc := x.pc,
    regionPc := x.regionPc, regionCnt := x.regionCnt, info, time := s.time,
    user := !s.privileged w, fatal := w.tid.isNone && (s.ctx w.core w.ctx).handler }

/-- A thread's latch with its pending writes in effect (06 R141). -/
def Thread.settled (t : Thread) : BitVec 8 := (t.latchPend.getLast?.map (·.2)).getD t.latch
/-- Every pending latch write of a context takes effect (06 R141, 24 R353). -/
def Ctx.settle (x : Ctx) : Ctx :=
  { x with threads := x.threads.map fun e => (e.1, e.2.map fun t => { t with latch := t.settled, latchPend := [] }) }

/-- The trap joins the list, and the context stops (R353); its watchdog stands still meanwhile (R368). -/
def Ctx.addTrap (x : Ctx) (t : Trap) (now : Nat) : Ctx :=
  { x.settle with traps := x.traps ++ [t], stopAt := some (x.stopAt.getD now) }
/-- The watchdog begins again. -/
def Ctx.wdReset (x : Ctx) (now : Nat) : Ctx := { x with wdStart := now, stopAt := x.stopAt.map fun _ => now }
/-- A context whose list is empty is stopped no more. -/
def Ctx.unstop (x : Ctx) (now : Nat) : Ctx :=
  if x.traps.isEmpty then { x with wdStart := x.wdStart + (now - x.stopAt.getD now), stopAt := none } else x

/-- The trap joins its context's list; causes 8 and 9 are first served (R353, R365). The context is
stopped while its list is not empty. -/
def State.listTrap (s : State) (c k : Nat) (t : Trap) : State :=
  let part := s.partOf c k
  if t.cause = 8 ∨ t.cause = 9 then
    let (n, s) := s.next
    let f : FaultSvc :=
      { id := n, part, va := t.va, write := t.write, fetch := t.sub % 2 == 1, user := t.user, cause := t.cause, sub := t.sub
        core := c, ctx := k, exk := t.exk, tid := t.tid, hostMode := bitOf s.mode.toNat part, time := t.time }
    let s := { s with sched := { s.sched with faults := s.sched.faults ++ [f] } }
    s.modCtx c k fun x => x.addTrap { t with service := some n } s.ps
  else s.modCtx c k fun x => x.addTrap t s.ps

/-- The slot as the trap record numbers it. -/
def slotCode : SlotPos → Nat
  | .a => 0
  | .b => 1
  | .c => 2

/-- Take a precise trap at the bundle being issued: the executor stays at the bundle (R353), and the issue knows of
the trap. -/
def trapAs (i : Issue) (w : Who) (cause sub : Nat) (va info : DWord) (write : Bool) (s : State) : State :=
  let s := s.modStrand w fun x => { x with pc := i.pc }
  let t := { s.trapOf w (slotCode i.slot) cause sub va info with write }
  let s := s.listTrap w.core w.ctx t
  { s with cur := s.cur.map fun j => { j with traps := j.traps ++ [t] } }

/-- A precise trap of a cause without further fields. -/
def trapNow (i : Issue) (w : Who) (cause : Nat) (va : DWord) (s : State) : State := trapAs i w cause 0 va 0#64 false s

/-- Illegal instruction, cause 1, of an execution check (05 R125, R126). -/
def trapIllegal (i : Issue) (w : Who) (s : State) : State := trapNow i w 1 0#64 s
/-- Misalignment, cause 3, with the address or offset. -/
def trapMisaligned (i : Issue) (w : Who) (va : DWord) (s : State) : State := trapNow i w 3 va s
/-- Scratchpad range, cause 4, with the offset. -/
def trapRange (i : Issue) (w : Who) (off : DWord) (s : State) : State := trapNow i w 4 off s
/-- Illegal operand, cause 5. -/
def trapOperand (i : Issue) (w : Who) (s : State) : State := trapNow i w 5 0#64 s
/-- Needle violation, cause 6. -/
def trapNeedle (i : Issue) (w : Who) (s : State) : State := trapNow i w 6 0#64 s
/-- Arrival-word misuse, cause 7, with the word's offset. -/
def trapArrival (i : Issue) (w : Who) (off : DWord) (s : State) : State := trapNow i w 7 off s
/-- Privilege, cause 2. -/
def trapPrivilege (i : Issue) (w : Who) (s : State) : State := trapNow i w 2 0#64 s

/-- An asynchronous trap (24 R352, R367): it stands after every precise trap listed. -/
def State.asyncTrap (s : State) (w : Who) (cause sub : Nat) (va info : DWord) (exk : Nat) (exited : Bool := false) : State :=
  let t := s.trapOf w 3 cause sub va info
  s.listTrap w.core w.ctx { t with exk, exited, fatal := t.fatal && exk == 1 }

/-! ### Scratchpad (19 R309, 07 R152) -/

/-- The window of a launch on a core. -/
def Core.window (co : Core) (slot : Nat) : Memory :=
  match co.resv.find? fun r => r.slot == slot with
  | none => []
  | some r => r.smem
def Core.setWindow (co : Core) (slot : Nat) (m : Memory) : Core :=
  { co with resv := mapIf (fun r => r.slot == slot) (fun r => { r with smem := m }) co.resv }
/-- Read n bytes of a launch's window. -/
def State.smemRead (s : State) (c slot off n : Nat) : Nat := readBytes ((s.core c).window slot) off n
/-- Write n bytes of a launch's window. -/
def State.smemWrite (s : State) (c slot off n v : Nat) : State :=
  s.modCore c fun co => co.setWindow slot (writeBytes (co.window slot) off n v)
/-- The window's size in bytes for a context. -/
def State.smemSize (s : State) (c k : Nat) : Nat := ((s.launchOf c k).map Launch.smem).getD 0

/-! ### What a release or an acquire waits for (07 R159, R160, R171) -/

/-- A service call of the executor has not been answered (09 R234). -/
def State.calling (s : State) (w : Who) : Bool := s.svc.batches.any fun b => b.callers.any fun c => c.2.1 == w
/-- An access is earlier than the bundle being issued: a slot does not see what another slot of its bundle starts (02 R44). -/
def State.isEarlier (s : State) (id : Nat) : Bool := match s.cur with | none => true | some i => id < i.start
def State.loadsDone (s : State) (w : Who) : Bool :=
  !s.calling w && (s.core w.core).loads.all fun l => l.who != w || l.discard || !s.isEarlier l.id
/-- Every earlier atomic has returned. -/
def State.atomsDone (s : State) (w : Who) : Bool :=
  (s.core w.core).stores.all fun t =>
    t.who != w || t.discard || !s.isEarlier t.id || match t.kind with | .atom .. | .xal .. => false | _ => true
/-- Every earlier store and atomic of the executor has performed. -/
def State.ownStoresDone (s : State) (w : Who) : Bool :=
  (s.core w.core).stores.all fun t => t.who != w || t.done || !s.isEarlier t.id
/-- Every store and atomic that the core's executors issued before the executor came to its bundle has
performed: what it may have observed is among them (21 R328, log 17). -/
def State.storesDone (s : State) (w : Who) : Bool :=
  s.ownStoresDone w && (s.core w.core).stores.all fun t => t.done || (s.strand w).arr ≤ t.id
/-- Every cast line has been installed or refused. -/
def State.castsDone (s : State) (w : Who) : Bool :=
  (s.homes.stcs.all fun t => t.who != w || !s.isEarlier t.id) &&
    (s.core w.core).stores.all fun t => t.who != w || !s.isEarlier t.id || match t.kind with | .cast .. => false | _ => true
/-- What an executor that is gone leaves under way bears the name of no executor (05 R122); once its task has ended it
is no context's either. -/
def Who.gone (w : Who) : Who := { w with ctx := w.ctx + 8 }
/-- The executor ends: its returns are discarded, its counters with them; its writes and engine operations go on
(05 R122). -/
def State.endExecutor (s : State) (w : Who) : State :=
  let s := s.modCore w.core fun co => { co with
    loads := mapIf (fun l => l.who == w) (fun l => { l with who := w.gone, discard := true }) co.loads
    stores := mapIf (fun t => t.who == w) (fun t => { t with who := w.gone, discard := true }) co.stores
    ops := mapIf (fun o => o.who == w) (fun o => { o with who := w.gone, counted := false }) co.ops }
  { s with
    homes := { s.homes with stcs := mapIf (fun t => t.who == w) (fun t => { t with who := w.gone }) s.homes.stcs }
    svc := { s.svc with batches := s.svc.batches.map fun b =>
      { b with callers := mapIf (fun c => c.2.1 == w) (fun c => (c.1, w.gone, c.2.2)) b.callers } } }
/-- Every earlier store and atomic of the executor has reached the L1 write path of its core (07 R160): it has performed,
or it is a plain store, which every executor of the core that reads from now on sees. -/
def State.storesReached (s : State) (w : Who) : Bool :=
  (s.core w.core).stores.all fun t => t.who != w || t.done || t.shown || !s.isEarlier t.id
/-- Everything a release of the executor waits for. -/
def State.releaseReady (s : State) (w : Who) (wide : Bool) : Bool :=
  s.loadsDone w && s.castsDone w && if wide then s.storesDone w else s.storesReached w
/-- A release of the executor has taken effect (21 R329). -/
def State.released (s : State) (w : Who) : State := s.modStrand w fun x => { x with rel := s.fresh }
/-- An acquire of the executor has not returned: no later access may perform (R159, R165). -/
def State.acquiring (s : State) (w : Who) : Bool :=
  s.calling w || ((s.core w.core).loads.any fun l => l.who == w && l.acquire && !l.discard && s.isEarlier l.id) ||
    (s.core w.core).stores.any fun t => t.who == w && t.acquire && !t.discard && s.isEarlier t.id

/-- Die, pkg or sys scope (R160). -/
def scopeWide (scp : BitVec 2) : Bool := scp != 0#2

/-! ### Spans of memory that the device reads or writes for itself (21 R384) -/

/-- The physical addresses of a run of 64-byte pieces; or the first fault; or something to wait for. -/
inductive Span where
  | ok (pas : List Nat)
  | fault (cause sub : Nat) (va : DWord)
  | wait
  deriving DecidableEq, Repr

/-- Translate n pieces of 64 bytes from va on, those of one 4 KiB page with one walk, and make each of them ready at its home.
The control space takes no such access (log 37). -/
def State.span (s : State) (a : Agent) (die part : Nat) (user : Bool) (acc : Access) (va : DWord) (page : Option Nat := none) :
    Nat → Span × State
  | 0 => (.ok [], s)
  | n + 1 =>
    let off := va.toNat % 4096
    let at_ : Xlat × State := match (if off = 0 then none else page) with
      | some p => (.ok (p + off) true, s)
      | none => s.dieTranslate a die part user acc va
    match at_ with
    | (.fault c sub, s) => (.fault c sub va, s)
    | (.wait _, s) => (.wait, s)
    | (.ok pa _, s) =>
      if inCtl pa then (.fault 9 0 va, s)
      else match s.accReady a (acc == .write) pa with
      | (false, s) => (.wait, s)
      | (true, s) =>
        match (s.served (regionOf (s.forward pa)) a).span a die part user acc (va + 64#64) (some (pa - off)) n with
        | (.ok l, s) => (.ok (pa :: l), s)
        | r => r

/-- The value of bit 512 (00 R5). -/
def lineRadix : Nat := 2 ^ 512

/-- Write a value into the pieces, the first lowest. -/
def State.pokeLines (s : State) : List Nat → Nat → State
  | [], _ => s
  | pa :: t, v => (s.homeWrite pa 64 (v % lineRadix)).pokeLines t (v / lineRadix)

/-- Read the pieces as one value. -/
def State.peekLines (s : State) : List Nat → Nat
  | [] => 0
  | pa :: t => s.homeRead pa 64 + lineRadix * s.peekLines t

/-- A piece holds poison. -/
def State.poisoned (s : State) (pas : List Nat) : Bool := pas.any fun pa => s.poisonAt pa != 0
/-- How many pieces stand before the first that does. -/
def State.soundPieces (s : State) (pas : List Nat) : Nat := (pas.takeWhile fun pa => s.poisonAt pa == 0).length

/-- A value whose pieces stand at byte offsets: (offset, bytes, value). -/
def packBytes (l : List (Nat × Nat × Nat)) : Nat :=
  l.foldl (fun acc x => acc + (x.2.2 % 2 ^ (8 * x.2.1)) * 2 ^ (8 * x.1)) 0

/-- n bytes of such a value at an offset. -/
def bytesAt (v off n : Nat) : Nat := bitsOf v (8 * off) (8 * n)

/-! ### The fault log and the service contexts (24 R369, 09 R236) -/

/-- Set the event flag of a die's service context. -/
def State.signalService (s : State) (die : Nat) : State := s.modCtx (320 * die) 7 fun x => { x with event := true }

/-- A fault-log entry in the lowest free place, or one more lost (R366, R369). -/
def State.addLog (s : State) (kind part : Nat) (fab : Bool) (cause core ctx slot : Nat) (va : DWord) : State :=
  match (List.range 16).find? fun n => s.ctlF (offFLOG n) 63 1 == 0 with
  | none => s.setCtlF offFLTCTL 32 32 (s.ctlF offFLTCTL 32 32 + 1)
  | some n =>
    let dw0 := 2 ^ 63 + kind * 2 ^ 60 + part * 2 ^ 57 + (if fab then 2 ^ 56 else 0) + cause % 256 * 2 ^ 48 +
      core % 1024 * 2 ^ 32 + ctx % 8 * 2 ^ 28 + slot % 65536
    ((s.setCtl (offFLOG n) (BitVec.ofNat 64 dw0)).setCtl (offFLOG n + 8) va).setCtl (offFLOG n + 16)
      (BitVec.ofNat 64 s.time)

/-! ### Status blocks (08 R191) -/

/-- The 16 bytes of a copy's or gather's status block. -/
def statusBits (st : Nat) (tagref : Bool) (cause off : Nat) (fva : DWord) : Nat :=
  off % 2 ^ 40 + cause * 2 ^ 56 + (if tagref then 2 ^ 61 else 0) + st * 2 ^ 62 + fva.toNat * 2 ^ 64

/-- Where an operation keeps its status block; none for one without. -/
def Op.statOff (o : Op) : Option Nat :=
  match o.kind with
  | .copy _ => some (bitsOf o.desc 352 32)
  | .gather _ => some (bitsOf o.desc 192 32)
  | _ => none

/-- Write an operation's status block in its issuer's window. -/
def State.putStatus (s : State) (o : Op) (st cause : Nat) (fva : DWord) : State :=
  match o.statOff with
  | none => s
  | some a => s.smemWrite o.who.core o.win a 16 (statusBits st o.tagref cause o.off fva)

/-! ### The matrix queue (08 R184, R195, R197, R203; 14 R275) -/

def State.modMx (s : State) (core : Nat) (f : Mx → Mx) : State := s.modCore core fun co => { co with mx := f co.mx }

/-- Whether an operation stands among the matrix commands: a CBLOAD does in a launch with MXE = 1 (R184, R203). -/
def Op.queued (o : Op) : Bool :=
  match o.kind with
  | .mxshape | .mxldw | .mxq => true
  | .cbload _ => o.mxe
  | _ => false
/-- Matrix commands of a core that are not complete, oldest first. -/
def State.matrixQueue (s : State) (c : Nat) : List Op := (s.core c).ops.filter fun o => o.queued && o.state != .complete

/-- A command may execute: first in the matrix queue, or for a CBLOAD at the port first of its context (R197, R203). -/
def State.matrixTurn (s : State) (c : Nat) (o : Op) : Bool :=
  if o.queued then (match s.matrixQueue c with | p :: _ => p.id == o.id | [] => false)
  else match o.kind with
    | .cbload _ => (s.core c).ops.all fun p => match p.kind with
      | .cbload _ => o.id ≤ p.id || p.who != o.who || p.state == .complete
      | _ => true
    | _ => false

/-- B rows per block of a pair (R196); KIND of an MXLDW (R202). -/
def pairRows (pair : Nat) : Nat := if pair = 1 then 128 else 64
def ldwKind (d : Nat) : Nat := bitsOf d 103 2

/-- Matrix cycles of a command, apart from what it waits for at memory; a tile task's are its groups' (14 R275). -/
def matrixCycles (m : Mx) (o : Op) : Nat :=
  let wake := if m.woken then 64 else 0
  match o.kind with
  | .mxshape => 1
  | .cbload _ => 4
  | .mxldw => (match ldwKind o.desc with | 1 => 16 + pairRows o.pair | 2 => 16 | _ => 0) + wake
  | _ => 0

/-- What commands execute on is reset once for each reset of the engine, before the first command that follows it (R195). -/
def Mx.turn (m : Mx) (epoch : Nat) : Mx :=
  if m.ran = epoch then m else { m with ran := epoch, shape := 4, latched := none, wsram := [], woken := false, unsound := false }

/-- The engine turns to the reset that its next command follows, or to the last one where it has none. -/
def State.turnMx (s : State) (c : Nat) : State :=
  s.modMx c fun m => m.turn (((s.matrixQueue c).head?.map (·.epoch)).getD m.epoch)

/-- The commands whose turn has come begin to execute, but for a tile task, which has a step of its own. -/
def State.startMatrix (s : State) (c : Nat) : State :=
  (s.turnMx c).modCore c fun co => { co with
    ops := mapIf (fun o => !o.started && o.kind != .mxq && o.state != .complete && s.matrixTurn c o)
      (fun o => { o with started := true, due := s.ps + 625 * matrixCycles co.mx o }) co.ops }

/-- The codebooks that a command of the queue reads or fills: its context's while its task runs there, or until another
task does (08 R197, R203). -/
def State.booksOf (s : State) (c : Nat) (o : Op) : Tbl (BitVec 256) :=
  if o.books < 8 then (s.ctx c o.books).cb else tblGet [] (s.core c).books o.books
def State.setBook (s : State) (c : Nat) (o : Op) (n : Nat) (v : BitVec 256) : State :=
  if o.books < 8 then s.modCtx c o.books fun x => { x with cb := tblPut 0#256 x.cb n v }
  else s.modCore c fun co => { co with books := tblPut [] co.books o.books (tblPut 0#256 (tblGet [] co.books o.books) n v) }

/-- A task is to run on a context: the codebooks of the one before it are kept for the commands that it has left. -/
def State.keepBooks (s : State) (c k : Nat) : State :=
  if (s.core c).ops.any fun o => o.books == k && o.state != .complete then
    let (n, s) := s.next
    s.modCore c fun co => { co with
      books := tblPut [] co.books (n + 8) (s.ctx c k).cb
      ops := mapIf (fun o => o.books == k) (fun o => { o with books := n + 8 }) co.ops }
  else s
/-! ### The end of a task, and the killing of a context (09 R217, 24 R369) -/

/-- A launch has a resident context on the core. -/
def State.residentOn (s : State) (c slot : Nat) : Bool :=
  (s.core c).ctxs.any fun e => match e.2.task with | some t => t.slot == slot | none => false

/-- A copy of the launch names another core's window (08 R188). -/
def Op.namesCore (o : Op) (c : Nat) : Bool :=
  match o.kind with
  | .copy _ =>
    (bitsOf o.desc 416 2 == 2 && bitsOf o.desc 32 10 == c) || (bitsOf o.desc 418 2 == 2 && bitsOf o.desc 96 10 == c)
  | _ => false
def State.copyHolds (s : State) (c slot : Nat) : Bool :=
  s.cores.any fun e => e.2.ops.any fun o => o.slot == slot && o.state != .complete && o.namesCore c

/-- An engine operation that uses the window is still at work on the core. -/
def Core.worksFor (co : Core) (win : Nat) : Bool := co.ops.any fun o => o.win == win && o.state != .complete

/-- A spilled task of the launch is to be resumed on the core. -/
def State.hasSpilled (s : State) (c slot : Nat) : Bool := s.sched.spilled.any fun x => x.core == c && x.task.slot == slot

/-- A window whose reservation has ended stays while engine operations use it (09 R217; 18 R310), or while a spilled task of
its launch is to find it again (17 R308, log 53); codebooks stay while a command uses them. -/
def State.sweep (s : State) (c : Nat) : State :=
  s.modCore c fun co => { co with
    resv := co.resv.filter fun r => !r.ended || co.worksFor r.slot || s.hasSpilled c r.slot
    books := co.books.filter fun b => co.ops.any fun o => o.books == b.1 && o.state != .complete }

/-- The launch's reservation on a core ends with its last resident context and the last copy that names its window
there, and the sillage entries that name its window go with it (08 R188; 09 R229; 11 R245; 14 R278). -/
def State.dropResv (s : State) (c slot : Nat) : State :=
  if s.residentOn c slot || s.copyHolds c slot then s
  else
    let s := s.modCore c fun co => { co with
      resv := mapIf (fun r => r.slot == slot) (fun r => { r with ended := true }) co.resv
      mx := if co.mx.holder = some slot then { co.mx with holder := none } else co.mx }
    let keep (e : Sillage) : Bool := e.pin || e.slot != slot || e.core != c
    ({ s with sched := { s.sched with sillage0 := s.sched.sillage0.filter keep, sillage1 := s.sched.sillage1.filter keep } }).sweep c

/-- Reservations that a copy held end with it. -/
def State.dropNamed (s : State) (o : Op) : State :=
  match o.kind with
  | .copy _ =>
    let s := if bitsOf o.desc 416 2 = 2 then s.dropResv (bitsOf o.desc 32 10) o.slot else s
    if bitsOf o.desc 418 2 = 2 then s.dropResv (bitsOf o.desc 96 10) o.slot else s
  | _ => s

/-- A slot number that no launch has: what is left under way of a launch that has ended bears it, so that it never
touches the slot's next launch. -/
def deadSlot (slot serial : Nat) : Nat := slot + 65536 * (serial + 1)
def State.burySlot (s : State) (slot serial : Nat) : State :=
  let d := deadSlot slot serial
  let cores := s.cores.map fun e => (e.1, { e.2 with
    ops := mapIf (fun o => o.slot == slot) (fun o => { o with slot := d, win := if o.win = slot then d else o.win }) e.2.ops
    resv := mapIf (fun r => r.slot == slot) (fun r => { r with slot := d }) e.2.resv
    mx := if e.2.mx.holder = some slot then { e.2.mx with holder := none } else e.2.mx })
  { s with cores }

/-- A core without a resident context and without an accepted engine operation has no clock (12 R255). -/
def State.restClock (s : State) (c : Nat) : State :=
  if ((s.core c).ctxs.any fun e => e.2.resident) || !(s.core c).ops.isEmpty then s else s.modCore c fun co => { co with clockOn := false }

/-- The context is free: of its own it keeps its event flag, its service role, its pending launches and, until the next
dispatch clears them, its codebook slots (08 R195; 09 R216, R217, R222, R236). The state of its loops is not kept (log 60). -/
def State.freeCtx (s : State) (c k : Nat) : State :=
  let x := s.ctx c k
  let slot := s.slotOf c k
  let s := (x.liveTids.foldl (fun s t => s.endExecutor { core := c, ctx := k, tid := some t }) s).endExecutor { core := c, ctx := k }
  let s := s.modCore c fun co => { co with
    loads := co.loads.filter fun l => l.who.ctx != k + 8
    stores := mapIf (fun t => t.who.ctx == k + 8) (fun t => { t with who := t.who.gone }) co.stores
    ops := mapIf (fun o => o.who.ctx == k || o.who.ctx == k + 8) (fun o => { o with orphan := true }) co.ops }
  let s := s.setCtx c k { event := x.event, pending := x.pending, cb := x.cb }
  match x.task with
  | none => s.restClock c
  | some _ => (s.dropResv c slot).restClock c

/-- Abort of the task: it leaves the context without decrementing its successor (R369). -/
def State.abortTask (s : State) (c k : Nat) : State :=
  match (s.ctx c k).task with
  | none => s.freeCtx c k
  | some t => (s.freeCtx c k).modLaunch t.slot fun l => { l with aborted := true }

/-- The ring position of a launch context (R219). -/
def Launch.ringPos (l : Launch) (lctx : Nat) : Nat := ((List.range (l.cw + 1)).find? fun i => l.ring i == lctx).getD 0
/-- The launch context n positions further along the ring (14 R278). -/
def Launch.ringNext (l : Launch) (lctx n : Nat) : Nat := l.ring ((l.ringPos lctx + n) % (l.cw + 1))

/-- The needle passes on from a launch context that holds it. -/
def State.passNeedle (s : State) (c slot lctx n : Nat) : State :=
  match s.launch slot with
  | none => s
  | some l => s.modCore c fun co =>
    if co.mx.holder = some slot ∧ co.mx.needle = lctx then { co with mx := { co.mx with needle := l.ringNext lctx n } } else co

/-- An operation belongs to the task that runs on the context now. -/
def Op.ofCtx (o : Op) (k : Nat) : Bool := o.who.ctx == k || (o.who.ctx == k + 8 && !o.orphan)

/-- A fence waits in the context. -/
def Ctx.fencing (x : Ctx) : Bool :=
  x.str.wait == .fence || x.fenced || x.threads.any fun t => match t.2 with | some th => th.str.wait == .fence | none => false

/-- Change a line's entry in the cast directory; an entry of two empty sets is freed (21 R331). -/
def State.modCast (s : State) (line : Nat) (f : CastEntry → CastEntry) : State :=
  { s with homes := { s.homes with
    castDir := (mapIf (fun e => e.line == line) f s.homes.castDir).filter fun e => !(e.holders.isEmpty && e.pending.isEmpty) } }

/-- An STC whose targets have all replied or counted as refused is complete: the sender is told (21 R334). -/
def State.castAnswered (s : State) (id : Nat) : State :=
  match s.homes.stcs.find? fun t => t.id == id with
  | none => s
  | some t => if t.waiting.isEmpty && t.unsent.isEmpty then s.send t.who.core t.line (.stcDone id) else s

/-- An STC of a killed context: what is not sent is never sent and counts as refused; nobody hears of it (21 R337). -/
def Stc.cut (t : Stc) : Stc :=
  { t with
    unsent := [], waiting := t.waiting.filter fun c => !t.unsent.contains c, refused := t.refused + t.unsent.length
    who := t.who.gone }
def State.cutStc (s : State) (t : Stc) : State :=
  let s := { s with homes := { s.homes with stcs := mapIf (fun x => x.id == t.id) Stc.cut s.homes.stcs } }
  let s := s.modCast t.line fun e => if e.stc = t.id then { e with pending := e.pending.filter fun c => !t.unsent.contains c } else e
  if t.unsent.isEmpty then s else s.castAnswered t.id

/-- Kill a context (R369): its writes that have not performed are discarded, with the copies that show them (log 17);
its copies and gathers at work end with STATE 11 and CAUSE 6. -/
def State.killCtx (s : State) (c k cause : Nat) (va : DWord) : State :=
  let x := s.ctx c k
  let part := s.partOf c k
  let slot := s.slotOf c k
  let fab := x.fencing
  let mine (w : Who) : Bool := w.ctx == k || w.ctx == k + 8
  let co := s.core c
  let lost := (co.stores.filter fun t => mine t.who && !t.done).map fun t => lineOf t.pa
  let ended := co.ops.filter fun o => o.ofCtx k && o.state != .complete
  let s := ended.foldl (fun s o => s.putStatus o 3 6 0#64) s
  let s := (s.modCore c fun co => { co with
    loads := co.loads.filter fun l => !mine l.who
    stores := co.stores.filter fun t => !mine t.who
    ops := co.ops.filter fun o => !o.ofCtx k }).startMatrix c
  let s := s.discardCopies c lost
  let s := (s.homes.stcs.filter fun t => t.who.core == c && mine t.who).foldl State.cutStc s
  let left := (s.core c).ops.map (·.id)
  let s := { s with
    sched := { s.sched with
      faults := s.sched.faults.filter fun f => !(f.core == c && f.ctx == k && (f.exk < 2 || f.exk == 2 && !left.contains f.op))
      waits := s.sched.waits.filter fun w => !(w.kind == 8 && w.key == 8 * c + k) } }
  let s := match x.task with
    | none => s
    | some t => s.passNeedle c t.slot t.lctx 1
  let s := (ended.foldl State.dropNamed (s.modCtx c k fun x => { x with pending := [] })).abortTask c k
  (s.addLog 1 part fab cause c k slot va).signalService (coreDie c)

/-! ### Fetching the words of a bundle (02 R26 to R30, R48) -/

/-- Words fetched, or the first fault with the word's address. -/
inductive Fetched where
  | ok (ws : List Word)
  | fault (cause sub : Nat) (va : DWord)
  | wait
  deriving DecidableEq, Repr

/-- Fetch words from an address for as long as the words so far call for another, at most n more. Each line that they stand in
is a request of the executor's (15 R285; log 81). A word is no 64-bit access, so none is fetched from the control space, where
a context that may reach it takes the illegal-operand trap (25 R371). -/
def State.fetchWords (s : State) (w : Who) (a : Agent) (user : Bool) (pc : DWord) : Nat → List Word → Fetched × State
  | 0, ws => (.ok ws, s)
  | n + 1, ws =>
    if wantsWord ws then
      match s.translate a w.core (s.partOf w.core w.ctx) user .fetch pc with
      | (.fault cause sub, s) => (.fault cause (if cause < 16 then sub + 1 else sub) pc, s)
      | (.wait _, s) => (.wait, s)
      | (.ok pa _, s) =>
        if inCtl pa then (.fault 5 0 0#64, s)
        else match s.devReady a pa with
        | (false, s) => (.wait, s)
        | (true, s) =>
          let s := if ws.isEmpty || pa % 64 = 0 then s.ask (regulatorOf w (s.partOf w.core w.ctx)) pa else s
          if s.poisonAt pa ≠ 0 then (.fault 16 (s.poisonAt pa - 1) pc, s)
          else (s.served (regionOf (s.forward pa)) a).fetchWords w a user (pc + 4#64) n (ws ++ [BitVec.ofNat 32 (s.homeRead pa 4)])
    else (.ok ws, s)

/-- A virtual address of which the bits [56:0] are given (R360). -/
def sext57 (v : Nat) : DWord := (BitVec.ofNat 57 v).signExtend 64

/-- A key for a value the manual leaves open: no two of one step's executors share it. -/
def State.freeKey (s : State) (w : Who) (slot : Nat) : Nat :=
  (2048 * s.choice + 2 * w.key + (if w.tid.isNone then 1 else 0)) * 4 + slot

/-! ### Delivering a trap, and returning from it (24 R354 to R357) -/

/-- TRAPCAUSE of a listed trap, with ACT 0. -/
def Trap.causeWord (t : Trap) : DWord :=
  BitVec.ofNat 64 (t.exk * 2 ^ 44 + t.tid.getD 0 * 2 ^ 34 + t.slot * 2 ^ 32 + (if 16 ≤ t.cause then 2 ^ 16 else 0) +
    t.sub % 256 * 2 ^ 8 + t.cause)

/-- The trap block of a core (R354). -/
def State.trapBlock (s : State) (c : Nat) : DWord := sext57 (bitsOf (s.core c).trapvec.toNat 14 43 * 2 ^ 14)
def State.trapsOn (s : State) (c : Nat) : Bool := bitOf (s.core c).trapvec.toNat 0
/-- The lead frame of a context, and the handler's entry. -/
def State.leadFrame (s : State) (c k : Nat) : DWord := s.trapBlock c + BitVec.ofNat 64 (1024 * k)
def State.handlerEntry (s : State) (c : Nat) : DWord := s.trapBlock c + 0x2000#64

/-- A loop's 96-byte record (17 R306). -/
def Loop.bits (l : Loop) (lc0 : Bool) : Nat :=
  packBytes [(0, 4, l.count.toNat), (8, 8, l.start.toNat), (16, 8, l.exitPc.toNat),
    (24, 8, (if l.isOpen then 1 else 0) +
      if lc0 then (if l.pipelined then 2 else 0) + (if l.refill then 4 else 0) + (l.stages - 1) * 16 else 0)]
/-- The loop a record restores. -/
def Loop.ofBits (v : Nat) (lc0 : Bool) : Loop :=
  let f := bytesAt v 24 8
  let l : Loop := { count := BitVec.ofNat 32 (bytesAt v 0 4), start := BitVec.ofNat 64 (bytesAt v 8 8),
                    exitPc := BitVec.ofNat 64 (bytesAt v 16 8), isOpen := bitOf f 0 }
  if lc0 then { l with pipelined := bitOf f 1, refill := bitOf f 2, stages := bitsOf f 4 2 + 1 } else l

/-- n registers of a table as one value, the first lowest. -/
def tblBits {n : Nat} (t : Tbl (BitVec n)) (base count bytes : Nat) : Nat :=
  packBytes ((List.range count).map fun i => (bytes * i, bytes, (tblGet 0#n t (base + i)).toNat))
/-- A table of registers from one value. -/
def tblOf (n count bytes : Nat) (v : Nat) : Tbl (BitVec n) :=
  (List.range count).foldl (fun t i => tblPut 0#n t i (BitVec.ofNat n (bytesAt v (bytes * i) bytes))) []

/-- The lead strand's part of a lead frame: bytes 0 to 0x2FF (R355). -/
def Ctx.frameBits (x : Ctx) : Nat :=
  packBytes [(0, 96, x.lc0.bits true), (0x60, 96, x.lc1.bits false), (0xC0, 512, tblBits x.s 0 64 8),
    (0x2C0, 8, x.q.toNat), (0x2C8, 8, x.str.pc.toNat), (0x2D0, 8, x.str.regionPc.toNat), (0x2D8, 8, x.str.regionCnt.toNat)]

/-- The lead strand as a lead frame holds it. -/
def Ctx.ofFrame (x : Ctx) (v : Nat) : Ctx :=
  { x with
    lc0 := Loop.ofBits (bytesAt v 0 96) true, lc1 := Loop.ofBits (bytesAt v 0x60 96) false
    s := tblOf 64 64 8 (bytesAt v 0xC0 512), q := BitVec.ofNat 16 (bytesAt v 0x2C0 2)
    str := { x.str with pc := BitVec.ofNat 64 (bytesAt v 0x2C8 8), regionPc := BitVec.ofNat 64 (bytesAt v 0x2D0 8),
                        regionCnt := BitVec.ofNat 32 (bytesAt v 0x2D8 4), run := 0, wait := .none, dist := [], hold := 0 } }

/-- The trap record (R355); `behind` traps stand listed after this one. -/
def Trap.recordBits (t : Trap) (behind : Nat) : Nat :=
  packBytes [(0, 8, t.causeWord.toNat), (8, 8, t.pc.toNat), (16, 8, t.regionPc.toNat),
    (24, 8, t.regionCnt.toNat + behind % 65536 * 2 ^ 32), (32, 8, t.va.toNat), (40, 8, t.info.toNat), (48, 8, t.time)]

/-- Load a trap into the four CSRs and enter the handler (steps 2 and 3 of R357). -/
def Ctx.enterHandler (x : Ctx) (t : Trap) (frame entry : DWord) : Ctx :=
  { x with
    handler := true, replayed := if x.handler then x.replayed else x.str.reentry
    drained := if x.handler then x.drained else x.lc0.draining
    fenced := if x.handler then x.fenced else x.str.wait == .fence
    trapCause := t.causeWord, trapPc := t.pc, trapRegion := t.regionPc
    trapCount := t.regionCnt.setWidth 64, lc0 := {}, lc1 := {}
    s := tblPut 0#64 (tblPut 0#64 x.s 0 frame) 1 (frame + 0x300#64)
    str := { x.str with pc := entry, regionPc := entry, reentry := false, run := 0, wait := .none, dist := [], hold := 0 } }

/-- Deliver the oldest listed trap of a context, whose frame's pieces stand ready (R357): the lead frame at the first delivery,
the trap record at each. A context whose block holds poison is killed. The handler's loads find what was written (21 R384). -/
def State.deliverAt (s : State) (c k : Nat) (first : Bool) (pas : List Nat) : State :=
  let x := s.ctx c k
  match x.traps with
  | [] => s
  | t :: behind =>
    let frame := s.leadFrame c k
    let at_ := if first then pas else pas.drop 12 |>.take 1
    if s.poisoned at_ then s.killCtx c k t.cause (frame + BitVec.ofNat 64 (64 * (s.soundPieces at_ + if first then 0 else 12)))
    else
      let rec_ := t.recordBits behind.length
      let s := s.pokeLines at_ (if first then x.frameBits + rec_ * 2 ^ (8 * 0x300) else rec_)
      let s := s.loseDemand c (pas.map lineOf)
      s.modCtx c k fun x => x.enterHandler t frame (s.handlerEntry c)

/-- The first delivery of a context's list, once its frame's pieces are ready; a context whose block does not translate is
killed (R357). -/
def State.deliver (s : State) (c k : Nat) : State :=
  match (s.ctx c k).traps with
  | [] => s
  | t :: _ =>
    match s.span (.context c k) (coreDie c) (s.partOf c k) (!s.privileged { core := c, ctx := k }) .write (s.leadFrame c k) none 16 with
    | (.wait, s) => s
    | (.fault _ _ va, s) => s.killCtx c k t.cause va
    | (.ok pas, s) => (s.forget (.context c k)).deliverAt c k true pas

/-- The act of a return: SKIP needs a bundle, so an asynchronous trap's is ABORT (R357). -/
def Ctx.act (x : Ctx) (t : Trap) : Nat :=
  let act := bitsOf x.trapCause.toNat 46 2
  if act = 2 ∧ 16 ≤ t.cause then 3 else act
/-- An ABORT ends the task: it names the lead strand, or an operation that it issued. -/
def Ctx.abortsTask (x : Ctx) : Bool := match x.traps with | t :: _ => x.act t == 3 && t.tid.isNone | [] => false

/-- Return from the handler of a context (ERET of R357), whose frame's pieces stand ready; `words` are those of the bundle to
skip. The executor of the current trap goes where ACT says, the trap is dropped, and the next one is delivered or the lead
strand restored from its frame. -/
def State.eret (s : State) (c k words : Nat) (pas : List Nat) : State :=
  let x := s.ctx c k
  match x.traps with
  | [] => s
  | t :: rest =>
    let e : Who := { core := c, ctx := k, tid := t.tid }
    let act := x.act t
    if act = 3 ∧ t.tid = none then s.abortTask c k
    else
      let dest : DWord :=
        if act = 0 then x.trapRegion else if act = 1 then x.trapPc else x.trapPc + BitVec.ofNat 64 (4 * words)
      let s := match t.tid with
        | some tid =>
          if (tblGet none x.threads tid).isNone || t.exited then s
          else if act = 3 then
            (s.endExecutor e).modCtx c k fun x => { x with threads := tblPut none x.threads tid none }
          else if t.exk = 2 then s
          else s.modStrand e fun y => { y with pc := dest, reentry := y.reentry || act == 0, run := 0, wait := .none }
        | none =>
          if t.exk = 1 then
            (s.homeWrite (pas.getD 11 0 + 8) 8 dest.toNat).modCtx c k fun x => { x with replayed := x.replayed || act == 0 }
          else s
      let s := s.modCtx c k fun x => { x with traps := rest }
      if rest.isEmpty then
        let v := s.peekLines pas
        s.modCtx c k fun x =>
          let y := x.ofFrame v
          ({ y with
            str := { y.str with reentry := x.replayed }, lc0 := { y.lc0 with draining := x.drained && y.lc0.isOpen }
            handler := false, replayed := false, drained := false, fenced := false, trapCause := 0#64, trapPc := 0#64, trapRegion := 0#64, trapCount := 0#64 } : Ctx).unstop s.ps
      else s.deliverAt c k false pas

end Sys2Proof.Machine
end

