-- ==== Sys2Proof/Machine/Operands.lean ====
section
/-! DEFINITION. Operand forms: widths, immediates, addresses, data of each size, packed and converted formats
(02 R38, R42, R43; 04 R78, R79; 05 R108; 07 R152, R153). -/

namespace Sys2Proof.Machine

/-- W of R108. -/
def Who.width (w : Who) : Nat := if w.tid.isSome then 32 else 64

/-- An immediate sign-extended (R108). -/
def immSigned {n : Nat} : Imm n → Int
  | .short i => i.toInt
  | .long i => i.toInt

/-- An immediate read unsigned. -/
def immUnsigned {n : Nat} : Imm n → Nat
  | .short i => i.toNat
  | .long i => i.toNat

/-- The lent offset in bytes (R38). -/
def offBytes (o : Off) (size : Nat) : Int :=
  match o with
  | none => 0
  | some b => b.toInt * size

/-- The bytes of a size code (R42). -/
def szBytes (sz : BitVec 3) : Nat := 2 ^ sz.toNat
/-- The bytes of a width bit (R42). -/
def wBytes (w : BitVec 1) : Nat := if w = 1#1 then 8 else 4

/-- A global address (R152). -/
def State.globalAddr (s : State) (w : Who) (a : Reg) (o : Off) (size : Nat) : DWord :=
  s.reg64 w a + BitVec.ofInt 64 (offBytes o size)

/-- A scratchpad address before its range check: never wrapped (R152). -/
def State.smemAddr (s : State) (w : Who) (a : Reg) (o : Off) (size : Nat) : Int :=
  ((s.reg w a % 2 ^ 22 : Nat) : Int) + offBytes o size

/-- How many registers of the executor hold n bytes (R152). -/
def dataRegs (w : Who) (bytes : Nat) : Nat :=
  if w.tid.isSome then (bytes + 3) / 4 else (bytes + 7) / 8

/-- Where data of n bytes is returned. -/
def dataDest (w : Who) (d : Reg) (bytes : Nat) : Dest := some (d.toNat, dataRegs w bytes)

/-- The low n bytes of a data operand (R153). -/
def State.dataIn (s : State) (w : Who) (d : Reg) (bytes : Nat) : Nat :=
  s.regs w d.toNat (dataRegs w bytes) % 2 ^ (8 * bytes)

/-- A value of n bytes stored in data registers from register r on: the register after those of the first. -/
def State.dataNext (s : State) (w : Who) (d : Reg) (bytes : Nat) : Nat :=
  s.regs w (d.toNat + dataRegs w bytes) (dataRegs w bytes) % 2 ^ (8 * bytes)

/-- A signed view of an executor's value. -/
def signedAt (width v : Nat) : Int := (BitVec.ofNat width v).toInt

/-- The least non-negative number congruent to z at a width. -/
def wrapTo (width : Nat) (z : Int) : Nat := (z % (2 ^ width : Nat)).toNat

/-- Shift left, right, arithmetic right by an unreduced count (R110). -/
def shiftLeft (width x n : Nat) : Nat := if width ≤ n then 0 else x * 2 ^ n % 2 ^ width
def shiftRight (width x n : Nat) : Nat := if width ≤ n then 0 else x % 2 ^ width / 2 ^ n
def shiftArith (width x n : Nat) : Nat := wrapTo width (signedAt width x / (2 ^ (min n width) : Nat))

/-- Population count of the low n bits. -/
def popCount (x : Nat) : Nat → Nat
  | 0 => 0
  | n + 1 => (if bitOf x n then 1 else 0) + popCount x n

/-- Zero bits above the highest one bit among the low n (R109). -/
def leadingZeros (x : Nat) : Nat → Nat
  | 0 => 0
  | n + 1 => if bitOf x n then 0 else 1 + leadingZeros x n

/-- Bits 0 to n − 1 with bit i taken from a function. -/
def bitsFrom (f : Nat → Bool) : Nat → Nat
  | 0 => 0
  | n + 1 => bitsFrom f n + if f n then 2 ^ n else 0

/-- BFE (R113). -/
def bitExtract (ctl a : Nat) : Nat :=
  let pos := bitsOf ctl 0 8
  let len := min (bitsOf ctl 8 8) 32
  let sgn := bitOf ctl 16
  let x : Int := if sgn then signedAt 32 a else ((a % 2 ^ 32 : Nat) : Int)
  let f := wrapTo len (x / (2 ^ pos : Nat))
  if sgn ∧ 0 < len then wrapTo 32 (signedAt len f) else f

/-- BFI (R113). -/
def bitInsert (ctl d a : Nat) : Nat :=
  let pos := bitsOf ctl 0 8
  let len := min (bitsOf ctl 8 8) 32
  bitsFrom (fun i => if pos ≤ i ∧ i < pos + len then bitOf a (i - pos) else bitOf d i) 32

/-- The bits of an executor's target, which must be a multiple of 4 (R121). -/
def targetAligned (t : DWord) : Bool := t.toNat % 4 == 0

/-- The address a direct offset in words gives (R27, R119). -/
def branchTarget (pc : DWord) (words : Int) : DWord := pc + BitVec.ofInt 64 (4 * words)

/-- The bundle after one of n words. -/
def pcAfter (pc : DWord) (words : Nat) : DWord := pc + BitVec.ofNat 64 (4 * words)

/-! ### Conversion operands (R57, R78, R79) -/

/-- The floating-point format of a code of R57. -/
def cvtFmt (c : BitVec 3) : Option Fmt :=
  match c.toNat with
  | 0 => some fp64
  | 1 => some fp32
  | 2 => some fp16
  | 3 => some bf16
  | _ => none

/-- The width of an integer format of R57. -/
def cvtBits (c : BitVec 3) : Nat :=
  match c.toNat with
  | 4 => 32
  | 5 => 16
  | 6 => 8
  | _ => 4

/-- CVT of R95: the operand's bits to the result's bits as they stand in the destination. -/
def convertValue (rm : Nat) (dst src : BitVec 3) (v : Nat) : Nat :=
  match cvtFmt src, cvtFmt dst with
  | some f, some t => t.convert f rm (v % 2 ^ (1 + f.ebits + f.frac))
  | some f, none => wrapTo 32 (f.toInt (cvtBits dst) rm (v % 2 ^ (1 + f.ebits + f.frac)))
  | none, some t => t.ofInt rm (signedAt (cvtBits src) v)
  | none, none => wrapTo 32 (saturate (cvtBits dst) (signedAt (cvtBits src) v))

end Sys2Proof.Machine
end

