-- ==== Sys2Proof/Machine/Flags.lean ====
section
/-! DEFINITION. Predicates: the conditions of compares, truth tables, and the moves between predicates and
registers (03 R58; 05 R111, R117, R118; 06 R132). The hardware has no flags besides. -/

namespace Sys2Proof.Machine

/-- Cond of R111 by the code hc, at a width. -/
def intCond (hc : BitVec 2) (width x y : Nat) : Bool :=
  match hc.toNat with
  | 0 => x % 2 ^ width == y % 2 ^ width
  | 1 => signedAt width x < signedAt width y
  | _ => x % 2 ^ width < y % 2 ^ width

/-- FpCond of R132 by the code hc. -/
def fpCond (f : Fmt) (hc : BitVec 2) (x y : Nat) : Bool :=
  match hc.toNat, f.cmp x y with
  | 0, some .eq => true
  | 1, some .lt => true
  | 2, some .lt | 2, some .eq => true
  | 3, none => true
  | _, _ => false

/-- Write a predicate and its complement (R111). -/
def State.setPair (s : State) (w : Who) (k : BitVec 4) (c : Bool) : State :=
  (s.setPred w k.toNat c).setPred w (k ^^^ 1#4).toNat (!c)

/-- PLOP: the table's bit 2 × pd + pa (R117). -/
def truthBit (t : BitVec 4) (d a : Bool) : Bool := t.getLsbD ((if d then 2 else 0) + (if a then 1 else 0))

/-- How many predicates a block maps (R118). -/
def blockSize (w : Who) (blk : F6) : Nat := if blk = 0#6 ∧ w.tid.isSome then 32 else 16

/-- A block of predicates as a value; bits that map no predicate are zero (R118). -/
def State.predBlock (s : State) (w : Who) (blk : F6) : Nat :=
  bitsFrom (fun i => s.pred w (32 * blk.toNat + i)) (blockSize w blk)

/-- Write n predicates from bit i of a value on. -/
def State.setPreds (s : State) (w : Who) (base v : Nat) : Nat → State
  | 0 => s
  | n + 1 => (s.setPreds w base v n).setPred w (base + n) (bitOf v n)

/-- Write a block of predicates from a value (R118). -/
def State.setPredBlock (s : State) (w : Who) (blk : F6) (v : Nat) : State :=
  s.setPreds w (32 * blk.toNat) v (blockSize w blk)

end Sys2Proof.Machine
end

