-- ==== Sys2Proof/Machine/Mem.lean ====
section
/-! DEFINITION. Loads, stores, acquires, releases, casts, prefetch, invalidation and pins (07 R152 to R164;
19 R314, R315; 21 R323). A global access that cannot be served by the L1 joins the core's list of outstanding
accesses; the home and the return are steps of their own. -/

namespace Sys2Proof.Machine

/-! ### Outstanding accesses -/

/-- A pending operation whose value other executors of its core cannot have yet (log 17). -/
def Store.opaqueTo (t : Store) (w : Who) : Bool :=
  !t.done && match t.kind with
    | .atom .. | .xal .. => true
    | _ => t.release && t.who == w

/-- A load of the line may be served by the L1: no older access of its executor to the line is outstanding that
the copy might not show (21 R323). -/
def State.canHit (s : State) (w : Who) (line : Nat) : Bool :=
  (s.core w.core).loads.all (fun l => l.who != w || s.homeOf l.pa != s.homeOf (64 * line)) &&
    (s.core w.core).stores.all fun t => s.homeOf t.pa != s.homeOf (64 * line) || !t.opaqueTo w

/-- Fills under way of a line would miss a write issued now. -/
def Core.dropFills (co : Core) (line : Nat) : Core :=
  { co with loads := mapIf (fun l => lineOf l.pa == line) (fun l => { l with fill := false }) co.loads }

/-- A new outstanding load. -/
def State.addLoad (s : State) (l : Load) : State :=
  let (n, s) := s.next
  s.modCore l.who.core fun co => { co with loads := co.loads ++ [{ l with id := n }] }

/-- What a new write does to its core's copy of the line: a plain store or a cast updates it at once, a release when it
performs (R158, 21 R335, log 17); the hit makes it the line most recently used (19 R314). -/
def Core.hitBy (co : Core) (t : Store) : Core :=
  match t.kind with
  | .plain len data =>
    { co with l1 := l1Touch (if t.release then co.l1 else l1Store co.l1 t.pa len data) (lineOf t.pa) }
  | .cast data _ => { co with l1 := l1Touch (l1Store co.l1 t.pa 64 data.toNat) (lineOf t.pa) }
  | _ => co

/-- A new outstanding write. A release takes its place among the issuer's releases (21 R329). -/
def State.addStore (s : State) (t : Store) : State :=
  let (n, s) := s.next
  let s := if t.release then s.modStrand t.who fun x => { x with rel := n } else s
  (s.dropAlias t.who.core t.pa).modCore t.who.core fun co =>
    let co := co.dropFills (lineOf t.pa)
    { co with stores := co.stores ++ [{ t with id := n, launch := ((s.ctx t.who.core t.who.ctx).task.map fun (x : Task) => x.slot) }] }.hitBy t

/-- What a translated access is given. -/
structure Reached where
  pa : Nat
  cached : Bool

/-- A global access: nothing of the executor performs while an acquire of it is outstanding (R159); then alignment,
translation and permission (R154). The continuation has the physical address. -/
def access (i : Issue) (w : Who) (acc : Access) (align : Nat) (va : DWord) (f : Reached → State → State)
    (st : State) : State :=
  if st.acquiring w then markWait w st
  else if va.toNat % align ≠ 0 then trapMisaligned i w va st
  else
    match st.translate (.strand w i.pc) w.core (st.partOf w.core w.ctx) (!st.privileged w) acc va with
    | (.ok pa cached, st) => f { pa, cached } st
    | (.fault cause sub, st) => trapAs i w cause sub va 0#64 (acc == .write) st
    | (.wait _, st) => markWait w st

/-- A page of the control space takes aligned 64-bit plain accesses only (25 R371). -/
def ctlWidthOk (pa size : Nat) : Bool := !inCtl pa || size == 8

/-! ### LDG, LDA -/

/-- A load of n bytes at a physical address: an L1 hit returns at once, else the access goes to the home. No copy of a pair
or partition that is being scrubbed serves it (15 R281, 25 R375). -/
def loadAt (w : Who) (va : DWord) (size : Nat) (dst : Dest) (viaL1 acquire wide : Bool) (r : Reached) (st : State) : State :=
  let co := st.core w.core
  match (if viaL1 && r.cached && st.canHit w (lineOf r.pa) && !st.scrubbing r.pa then l1Find co.l1 (lineOf r.pa) else none) with
  | some x =>
    (st.setDest w dst (lineGet x.data (r.pa % 64) size)).modCore w.core fun co =>
      { co with l1 := l1Touch co.l1 (lineOf r.pa) }
  | none =>
    st.addLoad { id := 0, who := w, part := st.partOf w.core w.ctx, pa := r.pa, va, size, dst, acquire, wide,
                 fill := viaL1 && r.cached }

def execLdg (g : Guard) (d a : Reg) (sz : BitVec 3) (off : Off) (s : State) : Res :=
  eachExec g (fun i w st =>
    let n := szBytes sz
    let va := st.globalAddr w a off n
    access i w .read n va (fun r st =>
      if ctlWidthOk r.pa n then loadAt w va n (dataDest w d n) true false false r st else trapOperand i w st) st) s

/-- At core scope an acquire reads through the L1, at wider scopes from the home (R159). -/
def execLda (g : Guard) (d a : Reg) (wd : BitVec 1) (scp : BitVec 2) (off : Off) (s : State) : Res :=
  eachExec g (fun i w st =>
    let n := wBytes wd
    let va := st.globalAddr w a off n
    access i w .read n va (fun r st =>
      if ctlWidthOk r.pa n then loadAt w va n (dataDest w d n) (!scopeWide scp) true (scopeWide scp) r st
      else trapOperand i w st) st) s

/-! ### STG, STG.rel -/

/-- A plain store of n bytes. -/
def storeAt (w : Who) (va : DWord) (size data : Nat) (release wide : Bool) (r : Reached) (st : State) : State :=
  st.addStore { id := 0, who := w, part := st.partOf w.core w.ctx, pa := r.pa, va, kind := .plain size data, release, wide }

/-- A write of a host launch ring's TAIL acts as a release at sys scope from the writer (17 R293). -/
def releasesAt (pa : Nat) : Bool := (List.range 8).any fun p => pa == ctlBase + offHLQ p + 24

def execStg (g : Guard) (d a : Reg) (sz : BitVec 3) (off : Off) (s : State) : Res :=
  eachExec g (fun i w st =>
    let n := szBytes sz
    let va := st.globalAddr w a off n
    access i w .write n va (fun r st =>
      let release := releasesAt r.pa
      if ctlWidthOk r.pa n then storeAt w va n (st.dataIn w d n) release release r st else trapOperand i w st) st) s

def execStgRel (g : Guard) (d a : Reg) (wd : BitVec 1) (scp : BitVec 2) (off : Off) (s : State) : Res :=
  eachExec g (fun i w st =>
    let n := wBytes wd
    let va := st.globalAddr w a off n
    access i w .write n va (fun r st =>
      if ctlWidthOk r.pa n then storeAt w va n (st.dataIn w d n) true (scopeWide scp) r st else trapOperand i w st) st) s

/-! ### Scratchpad: LDS, STS -/

/-- A scratchpad access of n bytes: alignment, then the window (R152, R154). -/
def smemAccess (i : Issue) (w : Who) (align size : Nat) (off : Int) (f : Nat → State → State) (st : State) : State :=
  if st.acquiring w then markWait w st
  else if off % (align : Int) ≠ 0 then trapMisaligned i w (BitVec.ofInt 64 off) st
  else if off < 0 ∨ (st.smemSize w.core w.ctx : Int) < off + size then trapRange i w (BitVec.ofInt 64 off) st
  else f off.toNat st

def execLds (g : Guard) (d a : Reg) (sz : BitVec 3) (off : Off) (s : State) : Res :=
  eachExec g (fun i w st =>
    let n := szBytes sz
    smemAccess i w n n (st.smemAddr w a off n) (fun o st =>
      st.setDest w (dataDest w d n) (st.smemRead w.core (st.slotOf w.core w.ctx) o n)) st) s

def execSts (g : Guard) (d a : Reg) (sz : BitVec 3) (off : Off) (s : State) : Res :=
  eachExec g (fun i w st =>
    let n := szBytes sz
    smemAccess i w n n (st.smemAddr w a off n) (fun o st =>
      st.smemWrite w.core (st.slotOf w.core w.ctx) o n (st.dataIn w d n)) st) s

/-! ### STC (R161, R162, R321) -/

/-- DecodeCoreSet of R162. -/
def decodeCoreSet (v : Nat) : Option (List Nat) :=
  match bitsOf v 30 2 with
  | 0 => if bitsOf v 10 20 = 0 ∧ bitsOf v 0 10 < 640 then some [bitsOf v 0 10] else none
  | 1 =>
    if bitsOf v 22 8 = 0 ∧ bitsOf v 0 6 < 40 then
      some ((List.range 640).filter fun c => clusterOf c == bitsOf v 0 6 && bitOf v (6 + clusterBit c))
    else none
  | _ => none

def execStc (g : Guard) (d a : Reg) (s : State) : Res :=
  eachExec g (fun i w st =>
    let va := st.reg64 w a
    let ops := st.regs2 w d
    let off : Int := (ops.1.toNat % 2 ^ 22 : Nat)
    smemAccess i w 64 64 off (fun o st =>
      match decodeCoreSet ops.2.toNat with
      | none => trapOperand i w st
      | some set =>
        access i w .write 64 va (fun r st =>
          if !r.cached then trapOperand i w st
          else
            let src := BitVec.ofNat 512 (readBytes i.seen o 64)
            st.addStore { id := 0, who := w, part := st.partOf w.core w.ctx, pa := r.pa, va,
                          kind := .cast src (set.filter (· != w.core)) }) st) st) s

/-! ### PREF, CINV, CPIN, CUNPIN (R163, R164) -/

/-- A hint with no visible effect. -/
def execPref (_ : Guard) (_ : Reg) (_ : BitVec 1) (_ : Off) (s : State) : Res := onIssue s fun _ st => st

/-- At core scope there is no effect beyond the access check. -/
def execCinv (g : Guard) (a : Reg) (scp : BitVec 2) (off : Off) (s : State) : Res :=
  eachExec g (fun i w st =>
    access i w .read 1 (st.globalAddr w a off 1) (fun r st =>
      if scopeWide scp then
        st.modCore w.core fun co =>
          { (co.dropFills (lineOf r.pa)) with l1 := co.l1.filter fun x => x.pushed || x.line != lineOf r.pa }
      else st) st) s

/-- Pin a line; a thirteenth line of its set first unpins the one pinned longest ago. A line that is pinned already keeps its
place in that order: the manual does not say whether a second CPIN renews it (log 64). -/
def State.pinLine (s : State) (line : Nat) : State :=
  let pins := s.homes.pins
  let set := pins.filter fun l => s.setKey l == s.setKey line
  let kept := match set with
    | old :: _ => if 12 ≤ set.length then pins.filter (· != old) else pins
    | [] => pins
  if pins.contains line then s else { s with homes := { s.homes with pins := kept ++ [line] } }

def execCpin (g : Guard) (a : Reg) (off : Off) (s : State) : Res :=
  eachExec g (fun i w st =>
    access i w .read 1 (st.globalAddr w a off 1) (fun r st =>
      if r.cached then st.pinLine (lineOf r.pa)
      else trapOperand i w st) st) s

def execCunpin (g : Guard) (a : Reg) (off : Off) (s : State) : Res :=
  eachExec g (fun i w st =>
    access i w .read 1 (st.globalAddr w a off 1) (fun r st =>
      { st with homes := { st.homes with pins := st.homes.pins.filter (· != lineOf r.pa) } }) st) s

end Sys2Proof.Machine
end

