-- ==== Sys2Proof/Machine/Atom.lean ====
section
/-! DEFINITION. Atomics in global memory and in the scratchpad, and exact accumulation (07 R165 to R169). A
global atomic joins the core's outstanding writes; it performs at the home in a step of its own. -/

namespace Sys2Proof.Machine

/-- The new value at the location (R166, R167), at a width in bits. -/
def atomApply (op : AtomOp) (width old x cmp : Nat) : Nat :=
  match op with
  | .add => (old + x) % 2 ^ width
  | .min => if signedAt width x < signedAt width old then x else old
  | .max => if signedAt width old < signedAt width x then x else old
  | .and => old &&& x
  | .or => old ||| x
  | .xor => old ^^^ x
  | .xchg => x
  | .cas => if old = cmp then x else old

/-- The operand that is stored or combined, and the comparand: CAS finds its comparand in d and its new value in
the next register or pair (R167). -/
def State.atomOperands (s : State) (w : Who) (op : AtomOp) (d : Reg) (n : Nat) : DWord × DWord :=
  match op with
  | .cas => (BitVec.ofNat 64 (s.dataNext w d n), BitVec.ofNat 64 (s.dataIn w d n))
  | _ => (BitVec.ofNat 64 (s.dataIn w d n), 0#64)

/-- ord's two bits: acquire and release (02 R42). -/
def ordAcquire (ord : BitVec 2) : Bool := ord.getLsbD 0
def ordRelease (ord : BitVec 2) : Bool := ord.getLsbD 1

/-- A global atomic (R165). -/
def globalAtom (op : AtomOp) (g : Guard) (d a : Reg) (ord scp : BitVec 2) (wd : BitVec 1) (off : Off) (s : State) : Res :=
  eachExec g (fun i w st =>
    let n := wBytes wd
    let va := st.globalAddr w a off n
    access i w .write n va (fun r st =>
      if inCtl r.pa then trapOperand i w st
      else
        let x := st.atomOperands w op d n
        st.addStore { id := 0, who := w, part := st.partOf w.core w.ctx, pa := r.pa, va,
                      kind := .atom op (wd == 1#1) x.1 x.2, dst := dataDest w d n, release := ordRelease ord,
                      acquire := ordAcquire ord, wide := scopeWide scp }) st) s

def execAtomAdd (g : Guard) (d a : Reg) (ord scp : BitVec 2) (w : BitVec 1) (off : Off) (s : State) : Res := globalAtom .add g d a ord scp w off s
def execAtomMin (g : Guard) (d a : Reg) (ord scp : BitVec 2) (w : BitVec 1) (off : Off) (s : State) : Res := globalAtom .min g d a ord scp w off s
def execAtomMax (g : Guard) (d a : Reg) (ord scp : BitVec 2) (w : BitVec 1) (off : Off) (s : State) : Res := globalAtom .max g d a ord scp w off s
def execAtomAnd (g : Guard) (d a : Reg) (ord scp : BitVec 2) (w : BitVec 1) (off : Off) (s : State) : Res := globalAtom .and g d a ord scp w off s
def execAtomOr (g : Guard) (d a : Reg) (ord scp : BitVec 2) (w : BitVec 1) (off : Off) (s : State) : Res := globalAtom .or g d a ord scp w off s
def execAtomXor (g : Guard) (d a : Reg) (ord scp : BitVec 2) (w : BitVec 1) (off : Off) (s : State) : Res := globalAtom .xor g d a ord scp w off s
def execXchg (g : Guard) (d a : Reg) (ord scp : BitVec 2) (w : BitVec 1) (off : Off) (s : State) : Res := globalAtom .xchg g d a ord scp w off s
def execCas (g : Guard) (d a : Reg) (ord scp : BitVec 2) (w : BitVec 1) (off : Off) (s : State) : Res := globalAtom .cas g d a ord scp w off s

/-! ### Exact accumulation (R169) -/

/-- An operation on an exact accumulator line; reading needs no write permission (24 R362). -/
def xalAccess (op : XalOp) (acc : Access) (g : Guard) (d a : Reg) (ord scp : BitVec 2) (off : Off) (res : Nat) (s : State) : Res :=
  eachExec g (fun i w st =>
    let va := st.globalAddr w a off 64
    access i w acc 64 va (fun r st =>
      if !r.cached then trapOperand i w st
      else
        st.addStore { id := 0, who := w, part := st.partOf w.core w.ctx, pa := r.pa, va,
                      kind := .xal op (BitVec.ofNat 32 (st.reg w d)), dst := if res = 0 then none else dataDest w d res,
                      release := ordRelease ord, acquire := ordAcquire ord, wide := scopeWide scp }) st) s

/-- R169 gives XADD no result: its d is read only, where R61's row for these forms has d return the prior value (log 73). -/
def execXadd (g : Guard) (d a : Reg) (ord scp : BitVec 2) (off : Off) (s : State) : Res := xalAccess .add .write g d a ord scp off 0 s
def execXrd (g : Guard) (d a : Reg) (ord scp : BitVec 2) (off : Off) (s : State) : Res := xalAccess .rd32 .read g d a ord scp off 4 s
def execXrd64 (g : Guard) (d a : Reg) (ord scp : BitVec 2) (off : Off) (s : State) : Res := xalAccess .rd64 .read g d a ord scp off 8 s
def execXclr (g : Guard) (d a : Reg) (ord scp : BitVec 2) (off : Off) (s : State) : Res := xalAccess .clr .write g d a ord scp off 4 s

/-! ### ATOMS (R168) -/

/-- A scratchpad atomic, at once and in ascending thread index (R155). -/
def smemAtom (op : AtomOp) (g : Guard) (d a : Reg) (wd : BitVec 1) (off : Off) (s : State) : Res :=
  eachExec g (fun i w st =>
    let n := wBytes wd
    smemAccess i w n n (st.smemAddr w a off n) (fun o st =>
      let slot := st.slotOf w.core w.ctx
      let old := st.smemRead w.core slot o n
      let x := st.atomOperands w op d n
      (st.smemWrite w.core slot o n (atomApply op (8 * n) old x.1.toNat x.2.toNat)).setDest w (dataDest w d n) old) st) s

def execAtomsAdd (g : Guard) (d a : Reg) (w : BitVec 1) (off : Off) (s : State) : Res := smemAtom .add g d a w off s
def execAtomsMin (g : Guard) (d a : Reg) (w : BitVec 1) (off : Off) (s : State) : Res := smemAtom .min g d a w off s
def execAtomsMax (g : Guard) (d a : Reg) (w : BitVec 1) (off : Off) (s : State) : Res := smemAtom .max g d a w off s
def execAtomsAnd (g : Guard) (d a : Reg) (w : BitVec 1) (off : Off) (s : State) : Res := smemAtom .and g d a w off s
def execAtomsOr (g : Guard) (d a : Reg) (w : BitVec 1) (off : Off) (s : State) : Res := smemAtom .or g d a w off s
def execAtomsXor (g : Guard) (d a : Reg) (w : BitVec 1) (off : Off) (s : State) : Res := smemAtom .xor g d a w off s
def execAtomsXchg (g : Guard) (d a : Reg) (w : BitVec 1) (off : Off) (s : State) : Res := smemAtom .xchg g d a w off s
def execAtomsCas (g : Guard) (d a : Reg) (w : BitVec 1) (off : Off) (s : State) : Res := smemAtom .cas g d a w off s

end Sys2Proof.Machine
end

