-- ==== Sys2Proof/Machine/Branch.lean ====
section
/-! DEFINITION. Control transfers, hardware loops and the item pop (05 R119 to R129). The PC already names the
next bundle when the words of a bundle run; a transfer overwrites it. -/

namespace Sys2Proof.Machine

/-- Set an executor's PC. -/
def State.setPc (s : State) (w : Who) (pc : DWord) : State := s.modStrand w fun x => { x with pc }

/-- The link register: g30.d in thread code, s63 in lead code (R120). -/
def linkReg (w : Who) : Reg := if w.tid.isSome then 30#7 else 63#7
def State.setLink (s : State) (i : Issue) (w : Who) : State := s.setReg64 w (linkReg w) (pcAfter i.pc i.words)

/-- Move the PC to a target, or trap where it is misaligned (R121). -/
def State.goTo (s : State) (i : Issue) (w : Who) (t : DWord) : State :=
  if targetAligned t then s.setPc w t else trapMisaligned i w t s

def execBra (g : Guard) (o : Imm 18) (s : State) : Res :=
  eachExec g (fun i w st => st.setPc w (branchTarget i.pc (immSigned o))) s
def execCall (g : Guard) (o : Imm 18) (s : State) : Res :=
  eachExec g (fun i w st => (st.setLink i w).setPc w (branchTarget i.pc (immSigned o))) s
def execBrx (g : Guard) (a : Reg) (s : State) : Res := eachExec g (fun i w st => st.goTo i w (st.reg64 w a)) s
/-- The target is read and checked before the link is written. -/
def execCallx (g : Guard) (a : Reg) (s : State) : Res :=
  eachExec g (fun i w st =>
    let t := st.reg64 w a
    if targetAligned t then (st.setLink i w).setPc w t else trapMisaligned i w t st) s
def execRet (g : Guard) (s : State) : Res := eachExec g (fun i w st => st.goTo i w (st.reg64 w (linkReg w))) s

/-- The thread ends (R122); a lead strand has no EXIT. -/
def execExit (g : Guard) (s : State) : Res :=
  eachExec g (fun _ w st =>
    match w.tid with
    | none => st
    | some t => (st.endExecutor w).modCtx w.core w.ctx fun x => { x with threads := tblPut none x.threads t none }) s

def execNop (_ : Guard) (s : State) : Res := onIssue s fun _ st => st

/-! ### Hardware loops (R124 to R127) -/

/-- The loop state of an executor's context. -/
def State.loop0 (s : State) (w : Who) : Loop := (s.ctx w.core w.ctx).lc0
def State.loop1 (s : State) (w : Who) : Loop := (s.ctx w.core w.ctx).lc1
def State.setLoop0 (s : State) (w : Who) (l : Loop) : State := s.modCtx w.core w.ctx fun x => { x with lc0 := l }
def State.setLoop1 (s : State) (w : Who) (l : Loop) : State := s.modCtx w.core w.ctx fun x => { x with lc1 := l }

/-- A loop opened for n iterations. -/
def openLoop (i : Issue) (n : BitVec 32) (off : Int) : Loop :=
  { count := n, start := pcAfter i.pc i.words, exitPc := branchTarget i.pc off, isOpen := true }

/-- The count operand. -/
def State.tripCount (s : State) (w : Who) (a : Reg) : BitVec 32 := BitVec.ofNat 32 (s.reg w a)

def execLoopLc0 (g : Guard) (a : Reg) (o : Imm 12) (s : State) : Res :=
  eachExec g (fun i w st =>
    if (st.loop0 w).isOpen || (st.loop1 w).isOpen then trapIllegal i w st
    else if st.tripCount w a = 0#32 then st.setPc w (branchTarget i.pc (immSigned o))
    else st.setLoop0 w { openLoop i (st.tripCount w a) (immSigned o) with stages := (st.loop0 w).stages }) s
def execLoopLc1 (g : Guard) (a : Reg) (o : Imm 12) (s : State) : Res :=
  eachExec g (fun i w st =>
    if (st.loop1 w).isOpen then trapIllegal i w st
    else if st.tripCount w a = 0#32 then st.setPc w (branchTarget i.pc (immSigned o))
    else st.setLoop1 w (openLoop i (st.tripCount w a) (immSigned o))) s

/-- Stage predicates q12 to q(11 + n) cleared but for q12. -/
def firstStage (q : BitVec 16) (n : Nat) : BitVec 16 :=
  (List.range n).foldl (fun q k => putBit q (12 + k) (k == 0)) q

/-- t holds S − 1 (R126). -/
def execLoopp (g : Guard) (a : Reg) (t : BitVec 2) (o : BitVec 10) (s : State) : Res :=
  eachExec g (fun i w st =>
    if (st.loop0 w).isOpen || (st.loop1 w).isOpen then trapIllegal i w st
    else if st.tripCount w a = 0#32 then st.setPc w (branchTarget i.pc o.toInt)
    else
      let l := { openLoop i (st.tripCount w a - 1#32) o.toInt with pipelined := true, stages := t.toNat + 1 }
      (st.setLoop0 w l).modCtx w.core w.ctx fun x => { x with q := firstStage x.q (t.toNat + 1) }) s

/-- Rotate stages 1 to n − 1 from the stage below (R126). -/
def rotateStages (q : BitVec 16) (n : Nat) : BitVec 16 :=
  (List.range (n - 1)).foldl (fun r k => putBit r (13 + k) (q.getLsbD (12 + k))) q

/-- PipelinedEndl (R126, R127): a standing request drains the loop; a drained loop with iterations left stands
refill-pending at its start, which is a preemption point. -/
def pipelinedEndl (x : Ctx) : Ctx :=
  let l := x.lc0
  let drain := l.draining || x.marked
  let q12 := !drain && l.count != 0#32
  let count := if q12 then l.count - 1#32 else l.count
  let q := putBit (rotateStages x.q l.stages) 12 q12
  let busy := (List.range l.stages).any fun k => q.getLsbD (12 + k)
  let x := { x with q }
  if busy then
    { x with lc0 := { l with count, draining := drain }, str := { x.str with pc := l.start } }
  else if drain && count != 0#32 then
    { x with lc0 := { l with count, draining := false, refill := true }, str := { x.str with pc := l.start } }
  else { x with lc0 := { l with count, draining := false, isOpen := false } }

def execEndl (g : Guard) (s : State) : Res :=
  eachExec g (fun i w st =>
    let l0 := st.loop0 w
    let l1 := st.loop1 w
    if l1.isOpen then
      let n := l1.count - 1#32
      if n = 0#32 then st.setLoop1 w { l1 with count := n, isOpen := false }
      else (st.setLoop1 w { l1 with count := n }).setPc w l1.start
    else if !l0.isOpen then trapIllegal i w st
    else if l0.pipelined then st.modCtx w.core w.ctx pipelinedEndl
    else
      let n := l0.count - 1#32
      if n = 0#32 then st.setLoop0 w { l0 with count := n, isOpen := false }
      else (st.setLoop0 w { l0 with count := n }).setPc w l0.start) s

def execBrk (g : Guard) (s : State) : Res :=
  eachExec g (fun i w st =>
    let l0 := st.loop0 w
    let l1 := st.loop1 w
    if l1.isOpen then (st.setLoop1 w { l1 with isOpen := false }).setPc w l1.exitPc
    else if l0.isOpen then (st.setLoop0 w { l0 with isOpen := false }).setPc w l0.exitPc
    else trapIllegal i w st) s

/-! ### ITEM (R128, R129) -/

/-- Items pushed in this core cycle stand at the tail and cannot be popped yet. -/
def Ctx.poppable (x : Ctx) : Nat := x.queue.length - x.fresh

def execItem (g : Guard) (a : Reg) (o : Imm 12) (s : State) : Res :=
  eachExec g (fun i w st =>
    let x := st.ctx w.core w.ctx
    match x.queue with
    | v :: rest =>
      if 0 < x.poppable then (st.setReg64 w a v).modCtx w.core w.ctx fun x => { x with queue := rest }
      else markWait w st
    | [] => if x.closed then st.setPc w (branchTarget i.pc (immSigned o)) else markWait w st) s

end Sys2Proof.Machine
end

