-- ==== Sys2Proof/Machine/Grants.lean ====
section
/-! DEFINITION. Grants of power, and the recall of a loan (12 R258 to R264). -/

namespace Sys2Proof.Machine

def offClprof (n : Nat) : Nat := 8 * n
def offLend (n : Nat) : Nat := 0x200 + 16 * n

def State.lendValid (s : State) (n : Nat) : Bool := s.ctlF (offLend n) 63 1 == 1
def State.lendMask (s : State) (n : Nat) : Nat := s.ctlF (offLend n) 0 40
def State.pshare (s : State) (n : Nat) : Nat := s.ctlF (offLend n + 8) 0 12
def State.ashare (s : State) (n : Nat) : Nat := s.ctlF (offLend n + 8) 16 8
def State.pbase (s : State) (n : Nat) : Nat := s.ctlF (offClprof n) 36 12
def State.abase (s : State) (n : Nat) : Nat := s.ctlF (offClprof n) 16 8

/-- The grants that follow from the table, and from recalls in progress (R260, R264). -/
def State.regrant (s : State) : State :=
  (List.range 40).foldl (fun s n =>
    let recalling := s.power.recalls.any fun r => r.1 == n
    let lenders := (List.range 40).filter fun m => s.lendValid m && bitOf (s.lendMask m) n
    let floor := s.lendValid n || recalling
    let pg := if floor then 128 else min 4095 (s.pbase n + (lenders.map s.pshare).foldl (· + ·) 0)
    let ag := if floor then 16 else min 255 (s.abase n + (lenders.map s.ashare).foldl (· + ·) 0)
    (((s.setCtlF (offClprof n) 24 12 pg).setCtlF (offClprof n) 8 8 ag).setCtlF (offClprof n) 1 1
      (if s.lendValid n then 1 else 0)).setCtlF (offClprof n) 0 1 (if recalling then 1 else 0)) s

/-- A recall of the cluster's loan is in progress: it began when the cluster woke. -/
def State.recalling (s : State) (cluster : Nat) : Bool := s.power.recalls.any fun r => r.1 == cluster

/-- A lender wakes, where a context becomes resident or an engine operation is accepted on one of its cores: it falls to its
floor at once; a wake within a recall starts nothing new (R264). -/
def State.wakeLender (s : State) (c : Nat) : State :=
  let n := clusterOf c
  if s.lendValid n && !s.recalling n then
    ({ s with power := { s.power with recalls := s.power.recalls ++ [(n, s.ps)] } }).regrant
  else s

/-- The power manager clears the woken lender's V, and the borrowers' grants fall (step 2 of R264). -/
def State.clearLoan (s : State) (n : Nat) : State := (s.setCtlF (offLend n) 63 1 0).regrant

/-- The lender's grants return to its bases (step 3 of R264). -/
def State.endRecall (s : State) (n : Nat) : State :=
  ({ s with power := { s.power with recalls := s.power.recalls.filter fun r => r.1 != n } }).regrant

/-- Recalls that have lasted 5 µs are over (R264, R267). -/
def State.endRecalls (s : State) : State :=
  (s.power.recalls.filter fun r => r.2 + 5000000 ≤ s.ps).foldl (fun s r => (s.clearLoan r.1).endRecall r.1) s

end Sys2Proof.Machine
end

