-- ==== Sys2Proof/Machine/Sync.lean ====
section
/-! DEFINITION. Fences, drains, counters, barriers and arrival words (07 R171 to R181; 12 R266). An executor whose
condition does not hold waits at its bundle: the mark it leaves in its strand is all that a wait changes. -/

namespace Sys2Proof.Machine

/-- The executor stands at its bundle with a mark of what it waits for. -/
def waitAs (w : Who) (m : Wait) (s : State) : State := markWait w (s.modStrand w fun x => { x with wait := m })

/-- Go on when a condition holds, else wait. -/
def waitUnless (c : Bool) (w : Who) (f : State → State) (s : State) : State := if c then f s else markWait w s

/-! ### R171, R172: FENCE and DRAIN -/

/-- The acquire's invalidation at die scope or wider (R159). -/
def State.acquireAt (s : State) (w : Who) (wide : Bool) : State := if wide then s.dropDemand w.core else s

/-- A fence goes on when its condition holds, else it waits and is known to (24 R369). -/
def fenceUnless (c : Bool) (w : Who) (f : State → State) (s : State) : State := if c then f s else waitAs w .fence s

def execFenceAcq (g : Guard) (scp : BitVec 2) (s : State) : Res :=
  eachExec g (fun _ w st => fenceUnless (st.loadsDone w && st.atomsDone w) w (fun st => st.acquireAt w (scopeWide scp)) st) s
def execFenceRel (g : Guard) (scp : BitVec 2) (s : State) : Res :=
  eachExec g (fun _ w st => fenceUnless (st.releaseReady w (scopeWide scp)) w (fun st => st.released w) st) s
def execFenceAr (g : Guard) (scp : BitVec 2) (s : State) : Res :=
  eachExec g (fun _ w st =>
    fenceUnless (st.releaseReady w (scopeWide scp) && st.atomsDone w) w (fun st => (st.released w).acquireAt w (scopeWide scp)) st) s
def execDrain (g : Guard) (s : State) : Res :=
  eachExec g (fun _ w st => waitUnless (st.loadsDone w && st.ownStoresDone w && st.castsDone w) w id st) s

/-! ### R173: WAITC -/

/-- The counter class of an operation (08 R182); MXSHAPE has none. -/
def opClass : OpKind → Option Nat
  | .copy _ => some 0
  | .gather _ => some 1
  | .mxldw | .mxq | .cbload _ => some 2
  | .ray _ | .ovlp | .refit => some 3
  | .draw _ => some 4
  | .mxshape => none

/-- The outstanding-operation counter: operations of the class that have not retired. -/
def State.opCount (s : State) (w : Who) (cls : Nat) : Nat :=
  ((s.core w.core).ops.filter fun o => o.counted && o.who == w && opClass o.kind == some cls).length

def execWaitc (g : Guard) (k n : F6) (s : State) : Res :=
  eachExec g (fun _ w st => waitUnless (st.opCount w k.toNat ≤ n.toNat) w id st) s

/-! ### R174: BAR -/

/-- A thread arrives when a release at core scope may take effect (R327, R330); the completion lets it go, and what it had
under way is what an engine command behind the BAR must find performed (R329). -/
def execBar (g : Guard) (s : State) : Res :=
  eachExec g (fun _ w st =>
    if (st.strand w).wait = .barGo then (st.released w).modStrand w fun x => { x with wait := .none }
    else if st.releaseReady w false then waitAs w .barArrived st
    else markWait w st) s

/-! ### R175, R176: grid barriers -/

/-- The cores of a subgroup descriptor of a launch, if it is legal for the issuing core and executor (R19, R175). -/
def subgroup (l : Launch) (core : Nat) (lead : Bool) (desc : Nat) : Option (List Nat) :=
  let thr := bitOf desc 25
  if bitsOf desc 26 6 ≠ 0 ∨ thr = lead then none
  else if bitOf desc 24 then
    (if bitsOf desc 0 24 = 0 ∧ l.covers core then some l.coreList else none)
  else
    let w := 2 ^ bitsOf desc 16 4
    let h := 2 ^ bitsOf desc 20 4
    let ox := bitsOf desc 0 8
    let oy := bitsOf desc 8 8
    let cores := (List.range h).flatMap fun y => (List.range w).map fun x => coreAt (l.ox + ox + x) (l.oy + oy + y)
    if ox % w = 0 ∧ oy % h = 0 ∧ ox + w ≤ l.width ∧ oy + h ≤ l.height ∧ bitsOf desc 16 4 ≤ 5 ∧
        bitsOf desc 20 4 ≤ 4 ∧ cores.contains core then some cores
    else none

/-- The arrivals that make a core arrive (R176). -/
def arrivalsPerCore (l : Launch) (desc : Nat) : Nat := if bitOf desc 25 then l.thr else l.cw + 1

/-- Count an arrival in the oldest generation of the descriptor that the core has not completed; a new one
where there is none. -/
def arriveGen (gens : List Gen) (slot : Nat) (desc : BitVec 32) (core e fresh : Nat) : List Gen × Nat :=
  match gens.find? fun n => n.slot == slot && n.desc == desc && n.done.isNone && tblGet 0 n.arrived core < e with
  | some n =>
    (mapIf (fun m => m.id == n.id) (fun m => { m with arrived := tblPut 0 m.arrived core (tblGet 0 m.arrived core + 1) }) gens,
     n.id)
  | none => (gens ++ [{ id := fresh, slot, desc, arrived := tblPut 0 [] core 1 }], fresh)

/-- Descriptors a core tracks: those of generations it has arrivals in that have not completed. -/
def trackedDescs (gens : List Gen) (slot core : Nat) : List (BitVec 32) :=
  ((gens.filter fun n => n.slot == slot && n.done.isNone && tblGet 0 n.arrived core != 0).map (·.desc)).eraseDups

/-- Every core of the subgroup has arrived. -/
def genComplete (n : Gen) (cores : List Nat) (e : Nat) : Bool := cores.all fun c => e ≤ tblGet 0 n.arrived c

/-- Executors of a core that wait at a GBARW for a generation, which is one of its descriptor. -/
def State.gbarWaits (s : State) (core id : Nat) : Bool :=
  (s.core core).ctxs.any fun e =>
    let stuck (x : Strand) : Bool := x.gens.any fun g => g.2 == id && x.wait == .gbar g.1
    stuck e.2.str || e.2.threads.any fun t => match t.2 with | some th => stuck th.str | none => false

/-- The generation completes: the cores that hold a waiter are to be admitted. Where another has taken the start index in this
tick of TIME, it completes with the next tick, so that within a tick the index goes by the order of R266 (12 R266; log 70). -/
def State.completeGen (s : State) (id : Nat) (cores : List Nat) : State :=
  let waking := cores.filter fun c => s.gbarWaits c id
  let done := if s.sched.zAt = s.time + 1 then 1000 * (s.time + 1) else s.ps
  { s with sched := { s.sched with
    gens := mapIf (fun n => n.id == id) (fun n => { n with done := some done, origin := cores.headD 0, waking }) s.sched.gens } }

/-- GBARA and GBARW start with the checks of the descriptor (R175). Of a lead code's s-register bits [31:0] are read
(log 74). -/
def withGroup (i : Issue) (w : Who) (a : Reg) (f : Launch → List Nat → BitVec 32 → State → State) (st : State) : State :=
  let desc := BitVec.ofNat 32 (st.reg w a)
  match st.launchOf w.core w.ctx with
  | none => trapOperand i w st
  | some l =>
    match subgroup l w.core w.tid.isNone desc.toNat with
    | none => trapOperand i w st
    | some cores => f l cores desc st

def execGbara (g : Guard) (a : Reg) (s : State) : Res :=
  eachExec g (fun i w st =>
    withGroup i w a (fun l cores desc st =>
      let slot := st.slotOf w.core w.ctx
      let tracked := trackedDescs st.sched.gens slot w.core
      if !st.releaseReady w true then markWait w st
      else if !tracked.contains desc && 8 ≤ tracked.length then markWait w st
      else
        let e := arrivalsPerCore l desc.toNat
        let (n, st) := st.next
        let (gens, id) := arriveGen st.sched.gens slot desc w.core e n
        let st := { st with sched := { st.sched with gens } }
        let st := st.modStrand w fun x => { x with gens := x.gens ++ [(desc, id)] }
        match gens.find? fun n => n.id == id with
        | some n => if genComplete n cores e then st.completeGen id cores else st
        | none => st) st) s

/-- A generation no longer holds an executor of the core: it has completed and the core is admitted. -/
def State.genPassed (s : State) (core id : Nat) : Bool :=
  match s.sched.gens.find? fun n => n.id == id with
  | none => true
  | some n => n.done.isSome && !n.waking.contains core

def execGbarw (g : Guard) (a : Reg) (s : State) : Res :=
  eachExec g (fun i w st =>
    withGroup i w a (fun _ _ desc st =>
      let mine := (st.strand w).gens.filter fun x => x.1 == desc
      if mine.isEmpty then trapOperand i w st
      else if mine.all fun x => st.genPassed w.core x.2 then
        (st.modStrand w fun x => { x with wait := .none, gens := x.gens.filter fun y => y.1 != desc }).acquireAt w true
      else waitAs w (.gbar desc) st) st) s

/-! ### R177 to R181: arrival words -/

/-- Reserved bits of both words are zero and OVR is clear. -/
def awSound (v : Nat) : Bool := bitsOf v 48 14 == 0 && bitsOf v 112 16 == 0 && !bitOf v 62
/-- The phase bit. -/
def awPhase (v : Nat) : Bool := bitOf v 63

/-- Arrive of R178 on the 16 bytes, by an engine: an excess sets OVR and counts what was pending. -/
def awArrive (v nArr nByt : Nat) : Nat :=
  let pa := bitsOf v 32 16
  let pb := bitsOf v 0 32
  let excess := pa < nArr || pb < nByt
  let pa := pa - min nArr pa
  let pb := pb - min nByt pb
  let flip := pa == 0 && pb == 0
  let ph := bitOf v 63 != flip
  let pa := if flip then bitsOf v 96 16 else pa
  let pb := if flip then bitsOf v 64 32 else pb
  (if ph then 2 ^ 63 else 0) + (if excess || bitOf v 62 then 2 ^ 62 else 0) + bitsOf v 48 14 * 2 ^ 48 + pa * 2 ^ 32 + pb +
    v / 2 ^ 64 % 2 ^ 64 * 2 ^ 64

/-- An engine's Arrive at an offset of a launch's window; 0xFFFF_FFFF names no word (08 R183). -/
def State.arrive (s : State) (core slot off bytes : Nat) : State :=
  if off = 0xFFFFFFFF then s
  else s.smemWrite core slot off 16 (awArrive (s.smemRead core slot off 16) 0 bytes)

/-- An access to an arrival word: 16 bytes, aligned. -/
def awAccess (i : Issue) (w : Who) (d : Reg) (f : Nat → State → State) (st : State) : State :=
  smemAccess i w 16 16 (st.smemAddr w d none 16) f st

def execAwinit (g : Guard) (d a : Reg) (s : State) : Res :=
  eachExec g (fun i w st =>
    awAccess i w d (fun o st =>
      let c := st.regs2 w a
      let arr := c.2.toNat
      if 65536 ≤ arr ∨ (arr = 0 ∧ c.1 = 0#32) then trapArrival i w (BitVec.ofNat 64 o) st
      else
        let word := arr * 2 ^ 32 + c.1.toNat
        st.smemWrite w.core (st.slotOf w.core w.ctx) o 16 (word + word * 2 ^ 64)) st) s

/-- A release at core scope (R180): it waits as R330 says. -/
def execAwadd (g : Guard) (d a : Reg) (s : State) : Res :=
  eachExec g (fun i w st =>
    if !st.releaseReady w false then markWait w st
    else awAccess i w d (fun o st =>
      let slot := st.slotOf w.core w.ctx
      let v := st.smemRead w.core slot o 16
      let n := st.reg w a
      if n = 0 ∨ 65536 ≤ n ∨ bitsOf v 32 16 < n ∨ !awSound v then trapArrival i w (BitVec.ofNat 64 o) st
      else (st.released w).smemWrite w.core slot o 16 (awArrive v n 0)) st) s

def execAwwait (g : Guard) (d : Reg) (h : BitVec 1) (s : State) : Res :=
  eachExec g (fun i w st =>
    awAccess i w d (fun o st =>
      let v := st.smemRead w.core (st.slotOf w.core w.ctx) o 16
      if !awSound v then trapArrival i w (BitVec.ofNat 64 o) st
      else waitUnless (awPhase v == (h == 1#1)) w id st) st) s

def execAwtest (g : Guard) (k : F6) (a : Reg) (s : State) : Res :=
  eachExec g (fun i w st =>
    awAccess i w a (fun o st =>
      let v := st.smemRead w.core (st.slotOf w.core w.ctx) o 16
      if !awSound v then trapArrival i w (BitVec.ofNat 64 o) st
      else st.setPred w k.toNat (awPhase v)) st) s

end Sys2Proof.Machine
end

