-- ==== Sys2Proof/Machine/Eng.lean ====
section
/-! DEFINITION. Engine commands at issue: descriptors, their checks, acceptance, the needle (08 R182 to R211;
13 R268; 14 R276, R278). An accepted command joins the core's operations; the engines' work is steps of their own. -/

namespace Sys2Proof.Machine

/-- What a descriptor names: scratchpad ranges (offset, bytes), fields with their alignment, and whether anything
in it is illegal (R183). -/
structure EngCheck where
  ranges : List (Nat × Nat) := []
  aligned : List (Nat × Nat) := []
  illegal : Bool := false

/-- Fields of a descriptor by byte offset and size. -/
def descAt (d off n : Nat) : Nat := bitsOf d (8 * off) (8 * n)

/-- The range and alignment of an arrival word, unless it names none. -/
def awCheck (off : Nat) : List (Nat × Nat) × List (Nat × Nat) :=
  if off = 0xFFFFFFFF then ([], []) else ([(off, 16)], [(off, 16)])

/-- The checks of R183 in its order, the first that applies deciding; then the acceptance. -/
def checked (i : Issue) (w : Who) (c : EngCheck) (f : State → State) (st : State) : State :=
  let size := st.smemSize w.core w.ctx
  match c.ranges.find? fun r => size < r.1 + r.2 with
  | some r => trapRange i w (BitVec.ofNat 64 r.1) st
  | none =>
    match c.aligned.find? fun r => r.1 % r.2 != 0 with
    | some r => trapMisaligned i w (BitVec.ofNat 64 r.1) st
    | none => if c.illegal then trapOperand i w st else f st

/-- Read a descriptor in the issue cycle (R183). -/
def withDesc (i : Issue) (w : Who) (a : Reg) (align size : Nat) (f : Nat → State → State) (st : State) : State :=
  smemAccess i w align size (st.smemAddr w a none 1) (fun o st =>
    f (readBytes i.seen o size) st) st

/-- Operations of a core that an engine still holds. -/
def State.heldOps (s : State) (core : Nat) (p : OpKind → Bool) : Nat :=
  ((s.core core).ops.filter fun o => p o.kind && o.state != .complete).length

/-! ### The fields of matrix commands (R195 to R203) -/

/-- K per band, and the B format of a pair (R196). -/
def pairKb (pair : Nat) : Nat := if pair = 1 then 32 else 16
def pairB (pair : Nat) : Nat := match pair with | 0 => 0 | 1 => 2 | 2 => 3 | 3 => 4 | _ => 2
/-- The A formats a pair accepts. -/
def pairA (pair fmt : Nat) : Bool :=
  match pair with | 0 => fmt == 0 || fmt == 1 | 1 => fmt == 2 | 2 => fmt == 3 | 3 => fmt == 4 | _ => fmt == 3
/-- Bits of an element of a format code. -/
def fmtBits (fmt : Nat) : Nat := match fmt with | 0 => 8 | 1 => 4 | 2 => 4 | _ => 16

def ldwSrc (d : Nat) : Nat := bitsOf d 0 64
def ldwStr (d : Nat) : Nat := bitsOf d 64 32
def ldwSlot (d : Nat) : Nat := bitsOf d 96 7
def ldwFmt (d : Nat) : Nat := bitsOf d 105 4
def ldwCbs (d : Nat) : Nat := bitsOf d 109 3
/-- Bytes of a row of 64 columns. -/
def ldwRow (d : Nat) : Nat := 8 * fmtBits (ldwFmt d)

def Core.findOp (co : Core) (id : Nat) : Option Op := co.ops.find? fun o => o.id == id
def State.modOp (s : State) (c id : Nat) (f : Op → Op) : State :=
  s.modCore c fun co => { co with ops := mapIf (fun o => o.id == id) f co.ops }

/-! ### Acceptance (R184) -/

/-- What an engine must find at its homes has performed: the issuer's atomics, and all that it had under way when its last
release took effect (21 R329, 23 R351). The manual says what the engine reads, not how; the model has the command wait
(log 66). -/
def State.engineSees (s : State) (w : Who) : Bool :=
  (s.core w.core).stores.all fun t => t.who != w || t.done || !s.isEarlier t.id || match t.kind with
    | .atom .. | .xal .. => false
    | _ => (s.strand w).rel ≤ t.id

/-- Accept an operation, or wait: the counter would pass 63 (02 R46), or the engine is full and the whole group
waits (R184). A lender of power wakes (12 R264). -/
def accept (w : Who) (full : Bool) (o : Op) (st : State) : State :=
  let many : Bool := match opClass o.kind with | some k => decide (63 ≤ st.opCount w k) | none => false
  if many || !st.engineSees w then markWait w st
  else if full then { markWait w st with cur := (markWait w st).cur.map fun i => { i with full := true } }
  else
    let (n, st) := (st.wakeLender w.core).next
    (st.modCore w.core fun co =>
      { co with ops := co.ops ++ [{ o with
          id := n, who := w, slot := st.slotOf w.core w.ctx, win := st.slotOf w.core w.ctx, part := st.partOf w.core w.ctx
          user := !st.privileged w, mxe := ((st.launchOf w.core w.ctx).map Launch.mxe).getD false
          pair := co.mx.pair, epoch := co.mx.epoch, books := w.ctx }] }).startMatrix w.core

/-- An operation before its acceptance fills in who issued it. -/
def newOp (w : Who) (kind : OpKind) (desc : Nat) : Op := { id := 0, kind, who := w, slot := 0, part := 0, user := true, desc }

/-! ### Copies (R187 to R193) -/

def copyNX (d : Nat) : Nat := descAt d 16 4
def copyNY (d : Nat) : Nat := descAt d 20 2
def copyNZ (d : Nat) : Nat := descAt d 22 2
def copyTotal (d : Nat) : Nat := copyNX d * copyNY d * copyNZ d
def copyAW (d : Nat) : Nat := descAt d 40 4
def copyStat (d : Nat) : Nat := descAt d 44 4
def copyTile (d : Nat) : BitVec 32 := BitVec.ofNat 32 (descAt d 48 4)
def copySrcKind (d : Nat) : Nat := bitsOf (descAt d 52 4) 0 2
def copyDstKind (d : Nat) : Nat := bitsOf (descAt d 52 4) 2 2
def copySrc (d : Nat) : Nat := descAt d 0 8
def copyDst (d : Nat) : Nat := descAt d 8 8
/-- Bytes from a locator to past its last one. -/
def copySpan (d sy sz : Nat) : Nat := (copyNZ d - 1) * sz + (copyNY d - 1) * sy + copyNX d

/-- A locator's scratchpad range, none for global memory. -/
def locRange (kind loc span : Nat) : List (Nat × Nat) := if kind = 1 ∨ kind = 2 then [(loc % 2 ^ 22, span)] else []

/-- The core of a kind-2 locator is one of the launch's, with a reservation (R188). -/
def State.locIllegal (s : State) (w : Who) (kind loc : Nat) : Bool :=
  if kind = 1 then bitsOf loc 22 42 != 0
  else if kind = 2 then
    let c := bitsOf loc 32 10
    bitsOf loc 22 10 != 0 || bitsOf loc 42 22 != 0 || 640 ≤ c ||
      (match s.launchOf w.core w.ctx with
       | none => true
       | some l => !l.covers c || (s.core c).resv.all fun r => r.slot != s.slotOf w.core w.ctx || r.ended)
  else false

/-- The checks of a copy's descriptor. -/
def State.copyCheck (s : State) (w : Who) (tag : Bool) (d : Nat) : EngCheck :=
  let aw := awCheck (copyAW d)
  let sk := copySrcKind d
  let dk := copyDstKind d
  { ranges := aw.1 ++ [(copyStat d, 16)] ++ locRange sk (copySrc d) (copySpan d (descAt d 24 4) (descAt d 28 4)) ++
      locRange dk (copyDst d) (copySpan d (descAt d 32 4) (descAt d 36 4))
    aligned := aw.2 ++ [(copyStat d, 16)]
    illegal := descAt d 56 8 != 0 || bitsOf (descAt d 52 4) 4 28 != 0 || copyNX d == 0 || copyNY d == 0 || copyNZ d == 0 ||
      2 ^ 40 ≤ copyTotal d || sk == 3 || (tag && dk == 0) || s.locIllegal w sk (copySrc d) || s.locIllegal w dk (copyDst d) }

/-- A copy or gather writes its status block at acceptance (R191). -/
def acceptWithStatus (w : Who) (full : Bool) (stat : Nat) (o : Op) (st : State) : State :=
  let r := accept w full o st
  if (r.core w.core).ops.length = (st.core w.core).ops.length then r
  else r.smemWrite w.core (r.slotOf w.core w.ctx) stat 16 0

def isCopy : OpKind → Bool | .copy _ => true | _ => false
def isGather : OpKind → Bool | .gather _ => true | _ => false
def isRayQueue : OpKind → Bool | .ray _ | .ovlp | .refit => true | _ => false
def isDraw : OpKind → Bool | .draw _ => true | _ => false
def isTileOrLoad : OpKind → Bool | .mxldw | .mxq => true | _ => false

/-- CPY and CPY.tag (R187). -/
def issueCopy (tag : Bool) (g : Guard) (a : Reg) (s : State) : Res :=
  eachExec g (fun i w st =>
    withDesc i w a 64 64 (fun d st =>
      checked i w (st.copyCheck w tag d)
        (fun st => acceptWithStatus w (64 ≤ st.heldOps w.core isCopy) (copyStat d) (newOp w (.copy tag) d) st) st) st) s

def execCpy (g : Guard) (a : Reg) (s : State) : Res := issueCopy false g a s
def execCpyTag (g : Guard) (a : Reg) (s : State) : Res := issueCopy true g a s

/-- Word 0 of a status block (R193), as the issue cycle finds it: a store or command of the same bundle is not seen (02 R44). -/
def execCpys (g : Guard) (d a : Reg) (s : State) : Res :=
  eachExec g (fun i w st =>
    smemAccess i w 16 16 (st.smemAddr w a none 1) (fun o st =>
      st.setReg64 w d (BitVec.ofNat 64 (readBytes i.seen o 8))) st) s

/-! ### Gathers (R194) -/

def gathBase (d : Nat) : Nat := bitsOf d 0 64
def gathIdx (d : Nat) : Nat := bitsOf d 64 32
def gathCount (d : Nat) : Nat := bitsOf d 96 32
def gathDst (d : Nat) : Nat := bitsOf d 128 32
def gathAW (d : Nat) : Nat := bitsOf d 160 32
def gathStat (d : Nat) : Nat := bitsOf d 192 32

def gathCheck (size d : Nat) : EngCheck :=
  let aw := awCheck (gathAW d)
  { ranges := aw.1 ++ [(gathStat d, 16), (gathIdx d, 4 * gathCount d), (gathDst d, size * gathCount d)]
    aligned := aw.2 ++ [(gathStat d, 16), (gathIdx d, 4), (gathDst d, min size 16), (gathBase d, size)]
    illegal := bitsOf d 224 32 != 0 || gathCount d == 0 || 65536 < gathCount d }

/-- Element sizes of op 0 to 3. -/
def gathSize (e : BitVec 2) : Nat := match e.toNat with | 0 => 4 | 1 => 8 | 2 => 16 | _ => 64

def execGath (g : Guard) (a : Reg) (e : BitVec 2) (s : State) : Res :=
  eachExec g (fun i w st =>
    withDesc i w a 32 32 (fun d st =>
      checked i w (gathCheck (gathSize e) d)
        (fun st => acceptWithStatus w (32 ≤ st.heldOps w.core isGather) (gathStat d) (newOp w (.gather (gathSize e)) d) st) st) st) s

/-! ### The matrix engine (R195 to R205) -/

/-- The launch context that runs on a context. -/
def State.lctxOf (s : State) (w : Who) : Option Nat := (s.ctx w.core w.ctx).task.map (·.lctx)
/-- The context holds the needle (R198, 14 R278). -/
def State.holdsNeedle (s : State) (w : Who) : Bool :=
  let mx := (s.core w.core).mx
  (s.ctx w.core w.ctx).task.isSome && mx.holder == some (s.slotOf w.core w.ctx) && s.lctxOf w == some mx.needle
/-- The needle check of R198 before anything else. -/
def withNeedle (i : Issue) (w : Who) (f : State → State) (st : State) : State :=
  if st.holdsNeedle w then f st else trapNeedle i w st

/-- Matrix commands the engine holds. -/
def State.matrixHeld (s : State) (core : Nat) : Nat :=
  ((s.core core).ops.filter fun o => o.queued && o.state != .complete).length

/-- The pair changes with the commit of the bundle (R199): a command in another slot is checked against the old one (02 R44). -/
def execMxcfg (g : Guard) (a : Reg) (s : State) : Res :=
  eachExec g (fun i w st => withNeedle i w (fun st =>
    let p := st.reg w a % 8
    if 5 ≤ p then trapOperand i w st
    else if p = (st.core w.core).mx.pair then st
    else if 0 < st.heldOps w.core isTileOrLoad then trapOperand i w st
    else { st with cur := st.cur.map fun j => { j with mxcfg := some p } }) st) s

def execMxshape (g : Guard) (a : Reg) (s : State) : Res :=
  eachExec g (fun i w st => withNeedle i w (fun st =>
    let n := st.reg w a
    if n = 0 ∨ 4 < n then trapOperand i w st
    else
      let r := accept w (16 ≤ st.matrixHeld w.core) (newOp w .mxshape n) st
      if (r.core w.core).ops.length = (st.core w.core).ops.length then r
      else r.modMx w.core fun m => { m with shapeAcc := n }) st) s

def ldwCheck (pair d : Nat) : EngCheck :=
  { ranges := if ldwKind d = 1 then [(ldwSrc d % 2 ^ 22, (pairRows pair - 1) * ldwStr d + ldwRow d)] else []
    illegal := bitsOf d 112 16 != 0 || ldwFmt d != pairB pair || ldwKind d == 3 ||
      (ldwKind d != 2 && ldwStr d < ldwRow d) }

def execMxldw (g : Guard) (a : Reg) (s : State) : Res :=
  eachExec g (fun i w st => withNeedle i w (fun st =>
    withDesc i w a 16 16 (fun d st =>
      checked i w (ldwCheck (st.core w.core).mx.pair d) (fun st =>
        let r := accept w (16 ≤ st.matrixHeld w.core) (newOp w .mxldw d) st
        if (r.core w.core).ops.length = (st.core w.core).ops.length then r
        else r.modMx w.core fun m => { m with fmtAcc := some (ldwFmt d) }) st) st) st) s

def mxqA (d : Nat) : Nat := bitsOf d 0 32
def mxqAStr (d : Nat) : Nat := bitsOf d 32 32
def mxqC (d : Nat) : Nat := bitsOf d 64 32
def mxqCStr (d : Nat) : Nat := bitsOf d 96 32
def mxqM (d : Nat) : Nat := bitsOf d 128 16
def mxqFmt (d : Nat) : Nat := bitsOf d 144 4
def mxqAcb (d : Nat) : Nat := bitsOf d 148 3
def mxqSpe (d : Nat) : Bool := bitOf d 151
def mxqK (d : Nat) : Nat := bitsOf d 152 8
def mxqInw (d : Nat) : Bool := bitOf d 160
def mxqInph (d : Nat) : Bool := bitOf d 161
def mxqBmp (d : Nat) : Nat := bitsOf d 192 32
def mxqInaw (d : Nat) : Nat := bitsOf d 224 32
def mxqDone (d : Nat) : Nat := bitsOf d 256 32
/-- Bytes of a row of A. -/
def mxqRow (d : Nat) : Nat := mxqK d * fmtBits (mxqFmt d) / 8

def mxqCheck (m : Mx) (d : Nat) : EngCheck :=
  let done := awCheck (mxqDone d)
  let bmp := if mxqSpe d then [(mxqBmp d, 2)] else []
  let inw := if mxqInw d then [(mxqInaw d, 16)] else []
  { ranges := [(mxqA d, (mxqM d - 1) * mxqAStr d + mxqRow d), (mxqC d, (mxqM d - 1) * mxqCStr d + 256)] ++
      (if mxqSpe d then [(mxqBmp d, 2 * ((mxqM d + 7) / 8))] else []) ++ inw ++ done.1
    aligned := [(mxqA d, 16), (mxqAStr d, 16), (mxqC d, 64), (mxqCStr d, 64)] ++ bmp ++ inw ++ done.2
    illegal := bitsOf d 288 224 != 0 || bitsOf d 162 30 != 0 || mxqM d == 0 || 1024 < mxqM d ||
      !pairA m.pair (mxqFmt d) || mxqK d != m.shapeAcc * pairKb m.pair || m.fmtAcc != some (pairB m.pair) ||
      mxqCStr d < 256 || mxqAStr d < mxqRow d }

def execMxq (g : Guard) (a : Reg) (s : State) : Res :=
  eachExec g (fun i w st => withNeedle i w (fun st =>
    withDesc i w a 64 64 (fun d st =>
      checked i w (mxqCheck (st.core w.core).mx d)
        (fun st => accept w (16 ≤ st.matrixHeld w.core) (newOp w .mxq d) st) st) st) st) s

/-- Every command that the engine has accepted has completed, but for one of the same bundle (R201). -/
def execMxdrain (g : Guard) (s : State) : Res :=
  eachExec g (fun i w st => withNeedle i w (fun st =>
    waitUnless ((st.core w.core).ops.all fun o =>
      !o.queued || o.state == .complete || !st.isEarlier o.id) w id st) st) s

/-- CBLOADs at the codebook port (R184, R203). -/
def State.portHeld (s : State) (core : Nat) : Nat :=
  ((s.core core).ops.filter fun o =>
    (match o.kind with | .cbload _ => true | _ => false) && !o.mxe && o.state != .complete).length

/-- Slot n of the context from 32 bytes at an offset. -/
def execCbload (g : Guard) (n : F6) (a : Reg) (s : State) : Res :=
  eachExec g (fun i w st =>
    smemAccess i w 32 32 (st.smemAddr w a none 1) (fun o st =>
      let mxe := ((st.launchOf w.core w.ctx).map Launch.mxe).getD false
      let full := if mxe then decide (16 ≤ st.matrixHeld w.core) else decide (8 ≤ st.portHeld w.core)
      accept w full { newOp w (.cbload n.toNat) o with off := o } st) st) s

def execNtake (g : Guard) (s : State) : Res :=
  eachExec g (fun _ w st => waitUnless (st.holdsNeedle w) w id st) s

/-- The needle moves on when the bundle commits (13 R268). -/
def execNpass (g : Guard) (s : State) : Res :=
  eachExec g (fun i w st => withNeedle i w (fun st =>
    { st with cur := st.cur.map fun j => { j with passes := j.passes + 1 } }) st) s

/-- The resident context of a core on which a launch context runs. -/
def Core.ctxOfLaunch (co : Core) (slot lctx : Nat) : Option Nat :=
  (co.ctxs.find? fun e => match e.2.task with | some t => t.slot == slot && t.lctx == lctx | none => false).map (·.1)

/-- NTEST's value (R198). -/
def State.needleStatus (s : State) (core : Nat) : Nat :=
  let co := s.core core
  match co.mx.holder with
  | none => 8 + 64
  | some slot =>
    (match co.ctxOfLaunch slot co.mx.needle with | some c => c | none => 8) + 16 * co.mx.needle

def execNtest (g : Guard) (d : Reg) (s : State) : Res :=
  eachExec g (fun _ w st => st.setReg w d (st.needleStatus w.core)) s

/-! ### Rays, overlaps, refits (R206 to R210) -/

def rayCheck (d : Nat) : EngCheck :=
  let aw := awCheck (descAt d 44 4)
  { ranges := (descAt d 40 4, 32) :: aw.1
    aligned := (descAt d 40 4, 32) :: (descAt d 32 8, 128) :: aw.2
    illegal := bitsOf (descAt d 48 4) 1 31 != 0 || descAt d 52 12 != 0 }

/-- RAY and RAY.any (R208). -/
def issueRay (any : Bool) (g : Guard) (a : Reg) (s : State) : Res :=
  eachExec g (fun i w st =>
    withDesc i w a 64 64 (fun d st =>
      checked i w (rayCheck d)
        (fun st => accept w (128 ≤ st.heldOps w.core isRayQueue) (newOp w (.ray any) d) st) st) st) s

def execRay (g : Guard) (a : Reg) (s : State) : Res := issueRay false g a s
def execRayAny (g : Guard) (a : Reg) (s : State) : Res := issueRay true g a s

def ovlpCheck (d : Nat) : EngCheck :=
  let aw := awCheck (descAt d 44 4)
  let cap := descAt d 28 4
  { ranges := (descAt d 40 4, 16 + 4 * cap) :: aw.1
    aligned := (descAt d 40 4, 16) :: (descAt d 32 8, 128) :: aw.2
    illegal := cap == 0 || 65536 < cap || descAt d 48 16 != 0 }

def execOvlp (g : Guard) (a : Reg) (s : State) : Res :=
  eachExec g (fun i w st =>
    withDesc i w a 64 64 (fun d st =>
      checked i w (ovlpCheck d)
        (fun st => accept w (128 ≤ st.heldOps w.core isRayQueue) (newOp w .ovlp d) st) st) st) s

def refitBase (d : Nat) : Nat := descAt d 0 8
def refitCount (d : Nat) : Nat := descAt d 8 4
def refitAW (d : Nat) : Nat := descAt d 16 4
def refitCheck (d : Nat) : EngCheck :=
  let aw := awCheck (refitAW d)
  { ranges := aw.1
    aligned := (refitBase d, 128) :: aw.2
    illegal := refitCount d == 0 || 2 ^ 24 < refitCount d || descAt d 12 4 != 0 || descAt d 20 12 != 0 }

def execRefit (g : Guard) (a : Reg) (s : State) : Res :=
  eachExec g (fun i w st =>
    withDesc i w a 32 32 (fun d st =>
      checked i w (refitCheck d)
        (fun st => accept w (128 ≤ st.heldOps w.core isRayQueue) (newOp w .refit d) st) st) st) s

/-! ### Draws (R211) -/

/-- Fields of a draw's descriptor (R211). -/
def drawVB (d : Nat) : Nat := descAt d 0 8
def drawIB (d : Nat) : Nat := descAt d 8 8
def drawTris (d : Nat) : Nat := descAt d 16 4
def drawVerts (d : Nat) : Nat := descAt d 20 4
def drawX0 (d : Nat) : Nat := descAt d 24 2
def drawY0 (d : Nat) : Nat := descAt d 26 2
def drawW (d : Nat) : Nat := descAt d 28 2
def drawH (d : Nat) : Nat := descAt d 30 2
def drawDepth (d : Nat) : Nat := descAt d 32 8
def drawPitch (d : Nat) : Nat := descAt d 40 4
def drawFlags (d : Nat) : Nat := descAt d 44 4
def drawAW (d : Nat) : Nat := descAt d 48 4
def drawStat (d : Nat) : Nat := descAt d 52 4

/-- Tile t is at (t mod 2,048, t div 2,048) in tiles of 8 × 8 pixels, and meets the viewport. -/
def tileIn (d t : Nat) : Bool :=
  let x := 8 * (t % 2048)
  let y := 8 * (t / 2048)
  drawX0 d < x + 8 && x < drawX0 d + drawW d && drawY0 d < y + 8 && y < drawY0 d + drawH d

/-- The boundary column of a split frame: the multiple of 8 at or left of the viewport's middle (15 R282). -/
def drawXm (d : Nat) : Nat := 8 * ((2 * drawX0 d + drawW d) / 16)

/-- The tile meets the viewport, in the share of the draw's die under split-frame. -/
def Op.hasTile (o : Op) (t : Nat) : Bool :=
  tileIn o.desc t && match o.half with
    | none => true
    | some die => (8 * (t % 2048) < drawXm o.desc) == (die == 0)

/-- The draw has done with a tile. -/
def Op.tileDone (o : Op) (t : Nat) : Bool := !o.hasTile t || 16 * drawTris o.desc ≤ tblGet 0 o.tiles t

/-- The tiles of a draw. -/
def drawTileList (o : Op) : List Nat :=
  let d := o.desc
  let x := drawX0 d / 8
  let y := drawY0 d / 8
  (List.range ((drawY0 d + drawH d + 7) / 8 - y)).flatMap fun j =>
    ((List.range ((drawX0 d + drawW d + 7) / 8 - x)).map fun i => 2048 * (y + j) + (x + i)).filter o.hasTile

/-- The draw has done with every tile: it has pushed its last item. -/
def Op.pushedAll (o : Op) : Bool := drawTris o.desc == 0 || (drawTileList o).all o.tileDone

def drawCheck (d : Nat) : EngCheck :=
  let aw := awCheck (descAt d 48 4)
  let x0 := descAt d 24 2
  let y0 := descAt d 26 2
  let wd := descAt d 28 2
  let ht := descAt d 30 2
  let fl := descAt d 44 4
  { ranges := (descAt d 52 4, 8) :: aw.1
    aligned := (descAt d 52 4, 8) :: aw.2
    illegal := wd == 0 || ht == 0 || 16384 < wd || 16384 < ht || 16384 < x0 + wd || 16384 < y0 + ht ||
      bitsOf fl 0 2 == 3 || bitsOf fl 3 29 != 0 || descAt d 56 8 != 0 }

/-- Draws that a die's front ends hold (R184). -/
def State.drawsHeld (s : State) (die : Nat) : Nat :=
  ((s.cores.filter fun e => coreDie e.1 == die).map fun e =>
    (e.2.ops.filter fun o => isDraw o.kind && o.state != .complete).length).foldl (· + ·) 0

/-- The draw of a context: one of a launch with DMODE 2 pushes its own die's share only (15 R282). -/
def State.newDraw (s : State) (w : Who) (ez : Bool) (d : Nat) : Op :=
  let split := match s.launchOf w.core w.ctx with | some l => l.dmode == 2 | none => false
  { newOp w (.draw ez) d with half := if split then some (coreDie w.core) else none }

/-- DRAW and DRAW.ez (R211); a queue that is closing or closed takes no more (09 R224). -/
def issueDraw (ez : Bool) (g : Guard) (a : Reg) (s : State) : Res :=
  eachExec g (fun i w st =>
    withDesc i w a 64 64 (fun d st =>
      let x := st.ctx w.core w.ctx
      checked i w { drawCheck d with illegal := (drawCheck d).illegal || x.closing || x.closed }
        (fun st => accept w (8 ≤ st.drawsHeld (coreDie w.core)) (st.newDraw w ez d) st) st) st) s

def execDraw (g : Guard) (a : Reg) (s : State) : Res := issueDraw false g a s
def execDrawEz (g : Guard) (a : Reg) (s : State) : Res := issueDraw true g a s

end Sys2Proof.Machine
end

