-- ==== Sys2Proof/Machine/Int.lean ====
section
/-! DEFINITION. Integer, predicate and constant instructions (05 R108 to R118). -/

namespace Sys2Proof.Machine

/-- d := a value, reduced to the executor's width, for each executor whose guard is true (R108). -/
def writeReg (g : Guard) (d : Reg) (f : State → Who → Nat) (s : State) : Res :=
  eachExec g (fun _ w st => st.setReg w d (f st w)) s

/-- A signed choice between two values at the executor's width (R109). -/
def pick (le : Int → Int → Bool) (s : State) (w : Who) (d a : Reg) : Nat :=
  if le (signedAt w.width (s.reg w d)) (signedAt w.width (s.reg w a)) then s.reg w d else s.reg w a

/-! ### R109, R110: arithmetic, logic, bit counting -/

def execIadd (g : Guard) (d a b : Reg) (s : State) : Res := writeReg g d (fun s w => s.reg w a + s.reg w b) s
def execIsub (g : Guard) (d a b : Reg) (s : State) : Res :=
  writeReg g d (fun s w => s.reg w a + (2 ^ w.width - s.reg w b)) s
def execImul (g : Guard) (d a b : Reg) (s : State) : Res := writeReg g d (fun s w => s.reg w a * s.reg w b) s
def execImad (g : Guard) (d a b : Reg) (s : State) : Res :=
  writeReg g d (fun s w => s.reg w d + s.reg w a * s.reg w b) s
def execIand (g : Guard) (d a : Reg) (s : State) : Res := writeReg g d (fun s w => s.reg w d &&& s.reg w a) s
def execIor (g : Guard) (d a : Reg) (s : State) : Res := writeReg g d (fun s w => s.reg w d ||| s.reg w a) s
def execIxor (g : Guard) (d a : Reg) (s : State) : Res := writeReg g d (fun s w => s.reg w d ^^^ s.reg w a) s
def execIshl (g : Guard) (d a : Reg) (s : State) : Res :=
  writeReg g d (fun s w => shiftLeft w.width (s.reg w d) (s.reg w a)) s
def execIshr (g : Guard) (d a : Reg) (s : State) : Res :=
  writeReg g d (fun s w => shiftRight w.width (s.reg w d) (s.reg w a)) s
def execIsra (g : Guard) (d a : Reg) (s : State) : Res :=
  writeReg g d (fun s w => shiftArith w.width (s.reg w d) (s.reg w a)) s
def execImin (g : Guard) (d a : Reg) (s : State) : Res := writeReg g d (fun s w => pick (fun x y => x ≤ y) s w d a) s
def execImax (g : Guard) (d a : Reg) (s : State) : Res := writeReg g d (fun s w => pick (fun x y => y ≤ x) s w d a) s
def execIminu (g : Guard) (d a : Reg) (s : State) : Res := writeReg g d (fun s w => min (s.reg w d) (s.reg w a)) s
def execImaxu (g : Guard) (d a : Reg) (s : State) : Res := writeReg g d (fun s w => max (s.reg w d) (s.reg w a)) s
def execImulh (g : Guard) (d a : Reg) (s : State) : Res :=
  writeReg g d (fun s w =>
    wrapTo w.width (signedAt w.width (s.reg w d) * signedAt w.width (s.reg w a) / (2 ^ w.width : Nat))) s
def execImulhu (g : Guard) (d a : Reg) (s : State) : Res :=
  writeReg g d (fun s w => s.reg w d * s.reg w a / 2 ^ w.width) s
def execIabs (g : Guard) (d a : Reg) (s : State) : Res :=
  writeReg g d (fun s w => (signedAt w.width (s.reg w a)).natAbs) s
def execPopc (g : Guard) (d a : Reg) (s : State) : Res := writeReg g d (fun s w => popCount (s.reg w a) w.width) s
def execClz (g : Guard) (d a : Reg) (s : State) : Res := writeReg g d (fun s w => leadingZeros (s.reg w a) w.width) s
def execBrev (g : Guard) (d a : Reg) (s : State) : Res :=
  writeReg g d (fun s w => bitsFrom (fun i => bitOf (s.reg w a) (w.width - 1 - i)) w.width) s
def execIaddImm (g : Guard) (d a : Reg) (i : Imm 6) (s : State) : Res :=
  writeReg g d (fun s w => s.reg w a + wrapTo w.width (immSigned i)) s
def execIshlImm (g : Guard) (d a : Reg) (i : Imm 6) (s : State) : Res :=
  writeReg g d (fun s w => shiftLeft w.width (s.reg w a) (immUnsigned i)) s
def execIshrImm (g : Guard) (d a : Reg) (i : Imm 6) (s : State) : Res :=
  writeReg g d (fun s w => shiftRight w.width (s.reg w a) (immUnsigned i)) s
def execIsraImm (g : Guard) (d a : Reg) (i : Imm 6) (s : State) : Res :=
  writeReg g d (fun s w => shiftArith w.width (s.reg w a) (immUnsigned i)) s
def execIandImm (g : Guard) (d a : Reg) (i : Imm 6) (s : State) : Res :=
  writeReg g d (fun s w => s.reg w a &&& wrapTo w.width (immSigned i)) s

/-! ### R111, R112, R115: compare and select -/

def execIcmp (g : Guard) (x y : Reg) (hc : BitVec 2) (k : BitVec 4) (s : State) : Res :=
  eachExec g (fun _ w st => st.setPair w k (intCond hc w.width (st.reg w x) (st.reg w y))) s
def execIcmpD (g : Guard) (x y : Reg) (hc : BitVec 2) (k : BitVec 4) (s : State) : Res :=
  eachExec g (fun _ w st => st.setPair w k (intCond hc 64 (st.reg64 w x).toNat (st.reg64 w y).toNat)) s
def execIsel (g : Guard) (d a : Reg) (p : F6) (s : State) : Res :=
  writeReg g d (fun s w => if s.pred w p.toNat then s.reg w a else s.reg w d) s

/-! ### R113 to R115: bit fields, addresses, pairs -/

def execBfe (g : Guard) (d a : Reg) (s : State) : Res := writeReg g d (fun s w => bitExtract (s.reg w d) (s.reg w a)) s
/-- d + 1 holds the control word. -/
def execBfi (g : Guard) (d a : Reg) (s : State) : Res :=
  writeReg g d (fun s w => bitInsert (s.reg w (d + 1#7)) (s.reg w d) (s.reg w a)) s
def execLea (g : Guard) (d a : Reg) (k : BitVec 3) (s : State) : Res :=
  eachExec g (fun _ w st =>
    st.setReg64 w d (st.reg64 w d + BitVec.ofInt 64 (signedAt w.width (st.reg w a) * (2 ^ k.toNat : Nat)))) s
def execIaddD (g : Guard) (d a : Reg) (s : State) : Res :=
  eachExec g (fun _ w st => st.setReg64 w d (st.reg64 w d + st.reg64 w a)) s

/-! ### R116: constants -/

def execMovi (g : Guard) (d : Reg) (i : Imm 12) (s : State) : Res :=
  writeReg g d (fun _ w => wrapTo w.width (immSigned i)) s
def execMovh (g : Guard) (d : Reg) (i : BitVec 12) (s : State) : Res :=
  writeReg g d (fun s w => s.reg w d * 2 ^ 12 + i.toNat) s
def execMovh20 (g : Guard) (d : Reg) (i : BitVec 20) (s : State) : Res :=
  writeReg g d (fun s w => s.reg w d * 2 ^ 20 + i.toNat) s

/-! ### R117, R118: predicates -/

def execPlop (g : Guard) (d a : F6) (t : BitVec 4) (s : State) : Res :=
  eachExec g (fun _ w st => st.setPred w d.toNat (truthBit t (st.pred w d.toNat) (st.pred w a.toNat))) s
def execPset (g : Guard) (d : F6) (a : Reg) (s : State) : Res :=
  eachExec g (fun _ w st => st.setPred w d.toNat (st.reg w a != 0)) s
def execP2g (g : Guard) (d : Reg) (blk : F6) (s : State) : Res := writeReg g d (fun s w => s.predBlock w blk) s
def execG2p (g : Guard) (blk : F6) (a : Reg) (s : State) : Res :=
  eachExec g (fun _ w st => st.setPredBlock w blk (st.reg w a)) s

end Sys2Proof.Machine
end

