-- ==== Sys2Proof/Machine/Special.lean ====
section
/-! DEFINITION. The six special functions (04 R99, R100): special values exactly, every other result a free
value held to the bound of R100 (log 7). The exact value is approximated in fixed point far more finely than
the bound; a free value outside the bound is replaced by the nearest FP32 value. -/

namespace Sys2Proof.Machine

/-- Fraction bits of the fixed-point approximations. -/
def spBits : Nat := 160
/-- ln 2 and π at 2^−160. -/
def spLn2 : Nat := 1013035739299659071135698605846798551586536899366
def spPi : Nat := 4591442807048218921384805199743311128454155024418

/-- Product of two fixed-point values. -/
def spMul (a b : Nat) : Nat := a * b / 2 ^ spBits

/-- Horner's form of Σ t^k ÷ k! from term k downward. -/
def spExp (t : Nat) : Nat → Nat → Nat
  | 0, acc => acc
  | k + 1, acc => spExp t k (2 ^ spBits + spMul t acc / (k + 1))

/-- Horner's form of Σ (z²)^k ÷ (2k + 1). -/
def spAtanh (z2 : Nat) : Nat → Nat → Nat
  | 0, acc => acc
  | k + 1, acc => spAtanh z2 k (2 ^ spBits / (2 * k + 1) + spMul z2 acc)

/-- Alternating Taylor sums by Horner: the divisor of step k is (2k + s)(2k + s + 1). -/
def spTrig (t2 s : Nat) : Nat → Nat → Nat
  | 0, acc => acc
  | k + 1, acc => spTrig t2 s k (2 ^ spBits - spMul t2 acc / ((2 * k + 1 + s) * (2 * k + 2 + s)))

/-- The sine of a fixed-point angle from 0 to π ÷ 2. -/
def spSin (t : Nat) : Nat := spMul t (spTrig (spMul t t) 1 32 (2 ^ spBits))

/-- An exact value approximated: sign, and the magnitude n ÷ d. -/
structure Approx where
  neg : Bool
  n : Nat
  d : Nat

/-- The signed value of a result minus the exact one, in absolute value over a common denominator, is at most
p ÷ q, where p ÷ q is the bound. -/
def within (r : Word) (x : Approx) (p q : Nat) : Bool :=
  match fp32.decode r.toNat with
  | .fin s k =>
    let diff := (signedUnits s (k * x.d) - signedUnits x.neg (x.n * 2 ^ 149)).natAbs   -- over d × 2^149
    diff * q ≤ p * x.d * 2 ^ 149
  | _ => false

/-- One unit in the last place at the magnitude of n ÷ d, as a power of two over 2^149. -/
def ulpOver (x : Approx) : Nat := 2 ^ ((x.n * 2 ^ 149 / x.d).log2 - 23)

/-- The free value of function f at a, held to a bound p ÷ q. -/
def boundedSfu (f : Nat) (a : Word) (x : Approx) (p q : Nat) : Nat :=
  let r := Config.sfu f a
  if within r x p q then r.toNat else fp32.round 0 x.neg x.n x.d

/-- The bound of one ulp. -/
def ulpSfu (f : Nat) (a : Word) (x : Approx) : Nat := boundedSfu f a x (ulpOver x) (2 ^ 149)

/-- 2^z for z units of 2^−149. -/
def exp2Approx (z : Int) : Approx :=
  let i := z.fdiv (2 ^ 149)
  let f := (z.fmod (2 ^ 149)).toNat
  let e := if f = 0 then 2 ^ spBits else spExp (f * spLn2 / 2 ^ 149) 60 (2 ^ spBits)
  if 0 ≤ i then { neg := false, n := e * 2 ^ i.toNat, d := 2 ^ spBits }
  else { neg := false, n := e, d := 2 ^ (spBits + (-i).toNat) }

/-- 2^x (R100). -/
def sfuExp2 (a : Word) : Nat :=
  match fp32.decode a.toNat with
  | .nan => fp32.nan
  | .inf neg => if neg then 0 else fp32.inf
  | .fin neg k =>
    let z := signedUnits neg k
    let i := z.fdiv (2 ^ 149)
    if 128 ≤ i then fp32.inf
    else if z < -(150 * 2 ^ 149) then 0
    else if z.fmod (2 ^ 149) = 0 ∧ -149 ≤ i then fp32.round 0 false (exp2Approx z).n (exp2Approx z).d
    else ulpSfu 0 a (exp2Approx z)

/-- log₂ of k units of 2^−149, by ln m = 2 atanh((m − 1) ÷ (m + 1)) for the m in [1, 2). -/
def log2Approx (k : Nat) : Approx :=
  let l := k.log2
  let z := (k - 2 ^ l) * 2 ^ spBits / (k + 2 ^ l)
  let ln := 2 * spMul z (spAtanh (spMul z z) 60 0)
  let v : Int := ((l : Int) - 149) * 2 ^ spBits + (ln * 2 ^ spBits / spLn2 : Nat)
  { neg := v < 0, n := v.natAbs, d := 2 ^ spBits }

/-- log₂ x (R100). -/
def sfuLog2 (a : Word) : Nat :=
  match fp32.decode a.toNat with
  | .nan => fp32.nan
  | .inf neg => if neg then fp32.nan else fp32.inf
  | .fin neg k =>
    if k = 0 then fp32.signBit true + fp32.inf
    else if neg then fp32.nan
    else
      if k = 2 ^ k.log2 then fp32.ofInt 0 ((k.log2 : Int) - 149)
      -- inside [0.5, 2] the bound is 2^−23 absolute
      else if 2 ^ 148 ≤ k ∧ k ≤ 2 ^ 150 then boundedSfu 1 a (log2Approx k) 1 (2 ^ 23) else ulpSfu 1 a (log2Approx k)

/-- sin(π·r) for r = u ÷ 2^149 in half-turns, u below 2^150: sign and magnitude. -/
def spSinTurns (u : Nat) : Approx :=
  let neg := 2 ^ 149 ≤ u
  let r := u % 2 ^ 149
  let r := if 2 ^ 148 < r then 2 ^ 149 - r else r
  { neg, n := spSin (r * spPi / 2 ^ 149), d := 2 ^ spBits }

/-- sin(π·x) (R100). -/
def sfuSin (a : Word) : Nat :=
  match fp32.decode a.toNat with
  | .nan | .inf _ => fp32.nan
  | .fin neg k =>
    if k % 2 ^ 149 = 0 then fp32.signBit neg
    else
      let x := spSinTurns (k % 2 ^ 150)
      boundedSfu 2 a { x with neg := x.neg != neg } 1 (2 ^ 22)

/-- cos(π·x) (R100): the sine a quarter turn on. -/
def sfuCos (a : Word) : Nat :=
  match fp32.decode a.toNat with
  | .nan | .inf _ => fp32.nan
  | .fin _ k =>
    if k % 2 ^ 150 = 0 then 0x3F800000
    else if k % 2 ^ 150 = 2 ^ 149 then 0xBF800000
    else if k % 2 ^ 149 = 2 ^ 148 then 0
    else boundedSfu 3 a (spSinTurns ((k + 2 ^ 148) % 2 ^ 150)) 1 (2 ^ 22)

/-- 1 ÷ x (R100). -/
def sfuRcp (a : Word) : Nat :=
  match fp32.decode a.toNat with
  | .nan => fp32.nan
  | .inf neg => fp32.signBit neg
  | .fin neg k =>
    if k = 0 then fp32.signBit neg + fp32.inf
    else
      let x : Approx := { neg, n := 2 ^ 149, d := k }
      -- beyond the greatest FP32: 2^149 ÷ k above (2 − 2^−23) × 2^127
      if (2 ^ 24 - 1) * 2 ^ 104 * k < 2 ^ 149 then fp32.signBit neg + fp32.inf else ulpSfu 4 a x

/-- 1 ÷ √x (R100). -/
def sfuRsq (a : Word) : Nat :=
  match fp32.decode a.toNat with
  | .nan => fp32.nan
  | .inf neg => if neg then fp32.nan else 0
  | .fin neg k =>
    if k = 0 then fp32.signBit neg + fp32.inf
    else if neg then fp32.nan
    else ulpSfu 5 a { neg := false, n := 2 ^ 300, d := isqrt (k * 2 ^ 451) }

end Sys2Proof.Machine
end

