-- ==== Sys2Proof/Machine/Fp.lean ====
section
/-! DEFINITION. Floating-point, special-function, conversion and quantisation instructions
(06 R130 to R143); all are thread-only. -/

namespace Sys2Proof.Machine

/-- d.d := a value for each executor whose guard is true. -/
def writePair (g : Guard) (d : Reg) (f : State → Who → Nat) (s : State) : Res :=
  eachExec g (fun _ w st => st.setReg64 w d (BitVec.ofNat 64 (f st w))) s

/-- A pair as a number. -/
def State.pair (s : State) (w : Who) (r : Reg) : Nat := (s.reg64 w r).toNat

/-! ### R130, R131: FP32 -/

def execFadd (g : Guard) (d a b : Reg) (s : State) : Res := writeReg g d (fun s w => fp32.add 0 (s.reg w a) (s.reg w b)) s
def execFsub (g : Guard) (d a b : Reg) (s : State) : Res := writeReg g d (fun s w => fp32.sub 0 (s.reg w a) (s.reg w b)) s
def execFmul (g : Guard) (d a b : Reg) (s : State) : Res := writeReg g d (fun s w => fp32.mul 0 (s.reg w a) (s.reg w b)) s
def execFfma (g : Guard) (d a b : Reg) (s : State) : Res :=
  writeReg g d (fun s w => fp32.fma 0 (s.reg w a) (s.reg w b) (s.reg w d)) s
/-- R91 and R92 read −d as the addend. -/
def execFfms (g : Guard) (d a b : Reg) (s : State) : Res :=
  writeReg g d (fun s w => fp32.fma 0 (s.reg w a) (s.reg w b) (fp32.neg (s.reg w d))) s
def execFmin (g : Guard) (d a : Reg) (s : State) : Res := writeReg g d (fun s w => fp32.minMax false (s.reg w d) (s.reg w a)) s
def execFmax (g : Guard) (d a : Reg) (s : State) : Res := writeReg g d (fun s w => fp32.minMax true (s.reg w d) (s.reg w a)) s
def execFaddRm (g : Guard) (d a : Reg) (rm : BitVec 2) (s : State) : Res :=
  writeReg g d (fun s w => fp32.add rm.toNat (s.reg w d) (s.reg w a)) s
def execFsubRm (g : Guard) (d a : Reg) (rm : BitVec 2) (s : State) : Res :=
  writeReg g d (fun s w => fp32.sub rm.toNat (s.reg w d) (s.reg w a)) s
def execFmulRm (g : Guard) (d a : Reg) (rm : BitVec 2) (s : State) : Res :=
  writeReg g d (fun s w => fp32.mul rm.toNat (s.reg w d) (s.reg w a)) s
def execFrnd (g : Guard) (d a : Reg) (rm : BitVec 2) (s : State) : Res :=
  writeReg g d (fun s w => fp32.rnd rm.toNat (s.reg w a)) s
def execFclass (g : Guard) (d a : Reg) (s : State) : Res := writeReg g d (fun s w => 2 ^ fp32.classBit (s.reg w a)) s

/-! ### R132: compare -/

def execFcmp (g : Guard) (x y : Reg) (hc : BitVec 2) (k : BitVec 4) (s : State) : Res :=
  eachExec g (fun _ w st => st.setPair w k (fpCond fp32 hc (st.reg w x) (st.reg w y))) s

/-! ### R133: packed halves -/

def execPkfmaF16 (g : Guard) (d a b : Reg) (s : State) : Res :=
  writeReg g d (fun s w => packed (fp16.fma 0) (s.reg w a) (s.reg w b) (s.reg w d)) s
def execPkfmaBf16 (g : Guard) (d a b : Reg) (s : State) : Res :=
  writeReg g d (fun s w => packed (bf16.fma 0) (s.reg w a) (s.reg w b) (s.reg w d)) s
def execPkaddF16 (g : Guard) (d a : Reg) (s : State) : Res :=
  writeReg g d (fun s w => packed (fun x y _ => fp16.add 0 x y) (s.reg w d) (s.reg w a) 0) s
def execPkaddBf16 (g : Guard) (d a : Reg) (s : State) : Res :=
  writeReg g d (fun s w => packed (fun x y _ => bf16.add 0 x y) (s.reg w d) (s.reg w a) 0) s

/-! ### R134: FP64, division, square root -/

def execDadd (g : Guard) (d a b : Reg) (s : State) : Res := writePair g d (fun s w => fp64.add 0 (s.pair w a) (s.pair w b)) s
def execDmul (g : Guard) (d a b : Reg) (s : State) : Res := writePair g d (fun s w => fp64.mul 0 (s.pair w a) (s.pair w b)) s
def execDfma (g : Guard) (d a b : Reg) (s : State) : Res :=
  writePair g d (fun s w => fp64.fma 0 (s.pair w a) (s.pair w b) (s.pair w d)) s
def execDdiv (g : Guard) (d a b : Reg) (s : State) : Res := writePair g d (fun s w => fp64.div (s.pair w a) (s.pair w b)) s
def execFdiv (g : Guard) (d a b : Reg) (s : State) : Res := writeReg g d (fun s w => fp32.div (s.reg w a) (s.reg w b)) s
def execDcmp (g : Guard) (x y : Reg) (hc : BitVec 2) (k : BitVec 4) (s : State) : Res :=
  eachExec g (fun _ w st => st.setPair w k (fpCond fp64 hc (st.pair w x) (st.pair w y))) s
def execDmin (g : Guard) (d a : Reg) (s : State) : Res := writePair g d (fun s w => fp64.minMax false (s.pair w d) (s.pair w a)) s
def execDmax (g : Guard) (d a : Reg) (s : State) : Res := writePair g d (fun s w => fp64.minMax true (s.pair w d) (s.pair w a)) s
def execDaddRm (g : Guard) (d a : Reg) (rm : BitVec 2) (s : State) : Res :=
  writePair g d (fun s w => fp64.add rm.toNat (s.pair w d) (s.pair w a)) s
def execDmulRm (g : Guard) (d a : Reg) (rm : BitVec 2) (s : State) : Res :=
  writePair g d (fun s w => fp64.mul rm.toNat (s.pair w d) (s.pair w a)) s
def execDsqrt (g : Guard) (d a : Reg) (rm : BitVec 2) (s : State) : Res :=
  writePair g d (fun s w => fp64.sqrt rm.toNat (s.pair w a)) s
def execFsqrt (g : Guard) (d a : Reg) (rm : BitVec 2) (s : State) : Res :=
  writeReg g d (fun s w => fp32.sqrt rm.toNat (s.reg w a)) s

/-! ### R136: special functions -/

/-- The operand of a special function. -/
def State.word (s : State) (w : Who) (r : Reg) : Word := BitVec.ofNat 32 (s.reg w r)

def execFexp2 (g : Guard) (d a : Reg) (s : State) : Res := writeReg g d (fun s w => sfuExp2 (s.word w a)) s
def execFlog2 (g : Guard) (d a : Reg) (s : State) : Res := writeReg g d (fun s w => sfuLog2 (s.word w a)) s
def execFsin (g : Guard) (d a : Reg) (s : State) : Res := writeReg g d (fun s w => sfuSin (s.word w a)) s
def execFcos (g : Guard) (d a : Reg) (s : State) : Res := writeReg g d (fun s w => sfuCos (s.word w a)) s
def execFrcp (g : Guard) (d a : Reg) (s : State) : Res := writeReg g d (fun s w => sfuRcp (s.word w a)) s
def execFrsq (g : Guard) (d a : Reg) (s : State) : Res := writeReg g d (fun s w => sfuRsq (s.word w a)) s

/-! ### R137: conversion -/

def execCvt (g : Guard) (rm : BitVec 2) (d a : Reg) (dst src : BitVec 3) (s : State) : Res :=
  eachExec g (fun _ w st =>
    let v := convertValue rm.toNat dst src (if src = 0#3 then st.pair w a else st.reg w a)
    if dst = 0#3 then st.setReg64 w d (BitVec.ofNat 64 v) else st.setReg w d v) s

/-! ### R138 to R143: quantisation -/

/-- The thread state of an executor; a lead strand has no latch and no selector. -/
def State.threadOf (s : State) (w : Who) : Thread :=
  match w.tid with
  | none => {}
  | some t => s.thread w t
def State.modThread (s : State) (w : Who) (f : Thread → Thread) : State :=
  match w.tid with
  | none => s
  | some t => s.setThread w t (f (s.thread w t))

/-- The latch as a thread's next issue slot sees it: pending writes whose slot has come are in effect (R141). -/
def Thread.latchNow (th : Thread) : Int :=
  ((th.latchPend.filter fun p => p.1 ≤ th.slots).foldl (fun _ p => p.2) th.latch).toInt

/-- The entries of a codebook slot as a reader sees them: while a CBLOAD to it is outstanding each entry is
free to be the old or the new one (R138). -/
def State.cbEntries (s : State) (w : Who) (slot : Nat) : List Nat :=
  let old := tblGet 0#256 (s.ctx w.core w.ctx).cb slot
  match (s.core w.core).ops.find? fun o => o.kind == .cbload slot && o.who.ctx == w.ctx && o.state != .complete with
  | none => (List.range 16).map (cbEntry old)
  | some o =>
    let new := BitVec.ofNat 256 (s.smemRead w.core o.win o.off 32)
    (List.range 16).map fun c => if Config.seesNew ((1024 * s.choice + w.key) * 16 + c) then cbEntry new c else cbEntry old c

/-- v = a × 2^−L as a numerator over a denominator (R142). -/
def scaledDown (a : Nat) (l : Int) : FVal × Nat :=
  match fp32.decode a with
  | .fin neg k =>
    if 0 ≤ l then (.fin neg k, 2 ^ (149 + l.toNat)) else (.fin neg (k * 2 ^ (-l).toNat), 2 ^ 149)
  | v => (v, 1)

/-- The code of QCVT.i8 (R142). -/
def quantI8 (a : Nat) (l : Int) : Int :=
  match scaledDown a l with
  | (.nan, _) => 0
  | (.inf neg, _) => if neg then -128 else 127
  | (.fin neg n, d) => saturate 8 (signedUnits neg (roundQuot 0 neg n d))

def execQcvtI8 (g : Guard) (d a : Reg) (s : State) : Res :=
  writeReg g d (fun s w => wrapTo 32 (quantI8 (s.reg w a) (s.threadOf w).latchNow)) s
def execQcvtCb4 (g : Guard) (d a : Reg) (s : State) : Res :=
  writeReg g d (fun s w =>
    let th := s.threadOf w
    let v := scaledDown (s.reg w a) th.latchNow
    cbEncode (s.cbEntries w th.sel.toNat) v.1 v.2) s
def execDqI8 (g : Guard) (d a : Reg) (s : State) : Res :=
  writeReg g d (fun s w =>
    let q := signedAt 8 (s.reg w a)
    let l := (s.threadOf w).latchNow
    if 0 ≤ l then fp32.roundInt 0 false (q * (2 ^ l.toNat : Nat)) 1 else fp32.roundInt 0 false q (2 ^ (-l).toNat)) s
def execDqCb4 (g : Guard) (d a : Reg) (s : State) : Res :=
  writeReg g d (fun s w =>
    let th := s.threadOf w
    fp32.scale bf16 ((s.cbEntries w th.sel.toNat).getD (s.reg w a % 16) 0) th.latchNow) s
/-- The selector is interlocked like a register (R139). -/
def execCbsel (g : Guard) (d a : Reg) (s : State) : Res :=
  eachExec g (fun _ w st =>
    let old := (st.threadOf w).sel
    (st.setReg w d old.toNat).modThread w fun th => { th with sel := BitVec.ofNat 3 (st.reg w a) }) s

end Sys2Proof.Machine
end

