-- ==== Sys2Proof/Machine/Lane.lean ====
section
/-! DEFINITION. Cross-lane instructions (06 R140, R144 to R151). The group being issued holds every participant
or the join is incomplete and the bundle waits; all are thread-only. -/

namespace Sys2Proof.Machine

/-- The lane numbers of a warp. -/
def lanes : List Nat := List.range 32

/-- The executor of a lane of a warp of the issuing context. -/
def Issue.lane (i : Issue) (warp l : Nat) : Who := { core := i.core, ctx := i.ctx, tid := some (32 * warp + l) }

/-- The warps with a thread in the group, ascending. -/
def Issue.warps (i : Issue) : List Nat := lanes.filter fun w => i.tids.any fun t => t / 32 == w

/-- A cross-lane form on mask j (R144): in each warp the own-lane trap, the join, then the effect on the active
lanes. The effect reads the state before the bundle and is given the lane's executor and the active lanes. -/
def crossLane (g : Guard) (j : BitVec 3) (eff : State → (Nat → Who) → Nat → List Nat → State → State)
    (s : State) : Res :=
  onIssue s fun i s0 =>
    i.warps.foldl (fun st warp =>
      let m := s0.mask { core := i.core, ctx := i.ctx } warp j.toNat
      let mine := lanes.filter fun l => i.tids.contains (32 * warp + l)
      let unnamed := mine.filter fun l => !m.getLsbD l
      let live := (s0.ctx i.core i.ctx).liveTids
      let missing := lanes.any fun l => m.getLsbD l && live.contains (32 * warp + l) && !mine.contains l
      let named := mine.filter fun l => m.getLsbD l
      let st := unnamed.foldl (fun st l => trapOperand i (i.lane warp l) st) st
      if missing then named.foldl (fun st l => markWait (i.lane warp l) st) st
      else eff s0 (i.lane warp) warp (named.filter fun l => s0.guardOk (i.lane warp l) g) st) s0

/-- A form that writes a register of each active lane. -/
def crossReg (g : Guard) (d : Reg) (j : BitVec 3) (val : State → (Nat → Who) → List Nat → Nat → Nat) (s : State) : Res :=
  crossLane g j (fun s0 who _ act st => act.foldl (fun st l => st.setReg (who l) d (val s0 who act l)) st) s

/-- A form that writes a predicate of each active lane. -/
def crossPred (g : Guard) (d : F6) (j : BitVec 3) (val : State → (Nat → Who) → List Nat → Bool) (s : State) : Res :=
  crossLane g j (fun s0 who _ act st => act.foldl (fun st l => st.setPred (who l) d.toNat (val s0 who act)) st) s

/-! ### R140: QMAX -/

/-- The base-2 exponent of the greatest finite nonzero magnitude, none where there is none. -/
def greatestExponent (vals : List Nat) : Option Int :=
  let ks := vals.filterMap fun v => match fp32.decode v with | .fin _ k => if k = 0 then none else some k | _ => none
  match ks with
  | [] => none
  | _ => some (((ks.foldl max 0).log2 : Int) - 149)

/-- Lnew of R140. -/
def latchOf (vals : List Nat) : Int :=
  match greatestExponent vals with
  | none => 0
  | some m => max (-128) (min (m - 6) 127)

/-- The latch write takes effect three issue slots on (R141). -/
def execQmax (g : Guard) (a : Reg) (j : BitVec 3) (s : State) : Res :=
  crossLane g j (fun s0 who _ act st =>
    let l := BitVec.ofInt 8 (latchOf (act.map fun l => s0.reg (who l) a))
    act.foldl (fun st n => st.modThread (who n) fun th => { th with latchPend := th.latchPend ++ [(th.slots + 3, l)] }) st) s

/-! ### R146: SHFL -/

/-- The register of a source lane when it is one and active, else the lane's own. -/
def shflPick (a : Reg) (src : Int) (s0 : State) (who : Nat → Who) (act : List Nat) (l : Nat) : Nat :=
  if 0 ≤ src ∧ act.contains src.toNat then s0.reg (who src.toNat) a else s0.reg (who l) a

def execShflIdx (g : Guard) (d a : Reg) (j : BitVec 3) (s : State) : Res :=
  crossReg g d j (fun s0 who act l => shflPick a (s0.reg (who l) d) s0 who act l) s
def execShflUp (g : Guard) (d a : Reg) (j : BitVec 3) (s : State) : Res :=
  crossReg g d j (fun s0 who act l => shflPick a ((l : Int) - s0.reg (who l) d) s0 who act l) s
def execShflDown (g : Guard) (d a : Reg) (j : BitVec 3) (s : State) : Res :=
  crossReg g d j (fun s0 who act l => shflPick a ((l : Int) + s0.reg (who l) d) s0 who act l) s
def execShflXor (g : Guard) (d a : Reg) (j : BitVec 3) (s : State) : Res :=
  crossReg g d j (fun s0 who act l => shflPick a (l ^^^ s0.reg (who l) d : Nat) s0 who act l) s

/-! ### R147: VOTE and MATCH -/

def execVoteAny (g : Guard) (d a : F6) (j : BitVec 3) (s : State) : Res :=
  crossPred g d j (fun s0 who act => act.any fun l => s0.pred (who l) a.toNat) s
def execVoteAll (g : Guard) (d a : F6) (j : BitVec 3) (s : State) : Res :=
  crossPred g d j (fun s0 who act => act.all fun l => s0.pred (who l) a.toNat) s
def execVoteBallot (g : Guard) (d : Reg) (a : F6) (j : BitVec 3) (s : State) : Res :=
  crossReg g d j (fun s0 who act _ => bitsFrom (fun i => act.contains i && s0.pred (who i) a.toNat) 32) s
def execMatchLanes (g : Guard) (d a : Reg) (j : BitVec 3) (s : State) : Res :=
  crossReg g d j (fun s0 who act l =>
    bitsFrom (fun i => act.contains i && s0.reg (who i) a == s0.reg (who l) a) 32) s

/-! ### R148, R149: SCAN, RED, FRED -/

/-- The sum of a over the active lanes that satisfy a test. -/
def laneSum (a : Reg) (s0 : State) (who : Nat → Who) (act : List Nat) (p : Nat → Bool) : Nat :=
  ((act.filter p).map fun l => s0.reg (who l) a).foldl (· + ·) 0

def execScanAdd (g : Guard) (d a : Reg) (j : BitVec 3) (s : State) : Res :=
  crossReg g d j (fun s0 who act l => laneSum a s0 who act fun i => i ≤ l) s
def execScanAddEx (g : Guard) (d a : Reg) (j : BitVec 3) (s : State) : Res :=
  crossReg g d j (fun s0 who act l => laneSum a s0 who act fun i => i < l) s
def execRedAdd (g : Guard) (d a : Reg) (j : BitVec 3) (s : State) : Res :=
  crossReg g d j (fun s0 who act _ => laneSum a s0 who act fun _ => true) s

/-- The least or greatest signed value of a over the active lanes. -/
def laneBest (better : Int → Int → Int) (a : Reg) (s0 : State) (who : Nat → Who) (act : List Nat) : Nat :=
  match act.map fun l => signedAt 32 (s0.reg (who l) a) with
  | [] => 0
  | x :: t => wrapTo 32 (t.foldl better x)

def execRedMin (g : Guard) (d a : Reg) (j : BitVec 3) (s : State) : Res :=
  crossReg g d j (fun s0 who act _ => laneBest min a s0 who act) s
def execRedMax (g : Guard) (d a : Reg) (j : BitVec 3) (s : State) : Res :=
  crossReg g d j (fun s0 who act _ => laneBest max a s0 who act) s
/-- Lanes that are not active count as −0.0, by lane number (R149). -/
def execFredAdd (g : Guard) (d a : Reg) (j : BitVec 3) (s : State) : Res :=
  crossReg g d j (fun s0 who act _ =>
    canonicalReduce (fp32.add 0) 0x80000000
      (lanes.map fun i => if act.contains i then s0.reg (who i) a else 0x80000000)) s

/-! ### R150, R151: JSET and JOIN -/

/-- The a of the lowest active lane; the mask is unchanged with no active lane. -/
def execJset (g : Guard) (a : Reg) (j : BitVec 3) (s : State) : Res :=
  crossLane g j (fun s0 who warp act st =>
    match act with
    | [] => st
    | l :: _ => st.setMask (who l) warp j.toNat (s0.word (who l) a)) s
def execJsetGrp (g : Guard) (j : BitVec 3) (s : State) : Res :=
  crossLane g j (fun _ who warp act st =>
    match act with
    | [] => st
    | l :: _ => st.setMask (who l) warp j.toNat (BitVec.ofNat 32 (bitsFrom (fun i => act.contains i) 32))) s
/-- The guard does not change the join. -/
def execJoin (g : Guard) (j : BitVec 3) (s : State) : Res := crossLane g j (fun _ _ _ _ st => st) s

end Sys2Proof.Machine
end

