-- ==== Sys2Proof/Machine/Frame.lean ====
section
/-! DEFINITION. Reservations, save frames, spilling and resumption (08 R195; 11 R245; 17 R298, R302 to R306). -/

namespace Sys2Proof.Machine

/-! ### Reservations (R245) -/

/-- Threads, registers and scratchpad bytes that the launches with reservations on a core reserve. -/
def State.reserved (s : State) (c : Nat) : Nat × Nat × Nat :=
  ((s.core c).resv.filter fun r => !r.ended).foldl (fun a r => match s.launch r.slot with
    | none => a
    | some l => (a.1 + l.thr, a.2.1 + l.thr * l.regs, a.2.2 + l.smem)) (0, 0, 0)

/-- The launch's reservation stands on the core. -/
def State.hasResv (s : State) (c slot : Nat) : Bool := (s.core c).resv.any fun r => r.slot == slot && !r.ended

/-- The reservation would fit beside others of the given sums. -/
def fitsBeside (l : Launch) (a : Nat × Nat × Nat) : Bool :=
  a.1 + l.thr ≤ 1024 && a.2.1 + l.thr * l.regs ≤ 131072 && a.2.2 + l.smem ≤ 3145728

/-- The launch may hold the matrix engine on the core (14 R278). -/
def State.mxFree (s : State) (c slot : Nat) (l : Launch) : Bool :=
  !l.mxe || (s.core c).mx.holder.isNone || (s.core c).mx.holder == some slot

/-- A window is kept for the launch: its reservation has ended. -/
def State.keptWindow (s : State) (c slot : Nat) : Bool := (s.core c).resv.any fun r => r.slot == slot && r.ended

/-- A window that reads zero (19 R309): one that engine operations still use is kept for them under another number (log 59). -/
def State.newWindow (s : State) (c slot : Nat) : State :=
  let (n, s) := s.next
  s.modCore c fun co => { co with
    resv := mapIf (fun r => r.slot == slot) (fun r => { r with slot := deadSlot slot n }) co.resv ++ [{ slot }]
    ops := mapIf (fun o => o.win == slot) (fun o => { o with win := deadSlot slot n }) co.ops }

/-- The launch holds the matrix engine. What it issues finds the engine reset where another launch has held it since, and
what executes turns to the reset once the commands of earlier launches have run to their end (R195). -/
def State.holdMx (s : State) (c slot : Nat) (l : Launch) : State :=
  if !l.mxe then s
  else (s.modMx c fun m =>
    if m.lastSerial = some l.serial then { m with holder := some slot }
    else { m with
      holder := some slot, lastSerial := some l.serial, epoch := m.epoch + 1, pair := 0, shapeAcc := 4, fmtAcc := none
      needle := l.ring 0 }).turnMx c

/-- Establish the reservation where it does not stand. The window reads zero, unless a task of the launch is spilled there: its
window is kept, or comes back from the frame that saved it (19 R309, 17 R302; log 53). -/
def State.reserve (s : State) (c slot : Nat) : State :=
  match s.launch slot with
  | none => s
  | some l =>
    if s.hasResv c slot then s
    else
      let s := if s.keptWindow c slot && s.hasSpilled c slot then
          s.modCore c fun co => { co with resv := mapIf (fun r => r.slot == slot) (fun r => { r with ended := false }) co.resv }
        else s.newWindow c slot
      s.holdMx c slot l

/-- Hardware contexts that requests hold for items other than this one (R302). -/
def State.claimed (s : State) (c key : Nat) : List Nat :=
  s.sched.disps.flatMap fun d => d.2.requests.filterMap fun q => if q.core = c ∧ q.key ≠ key then q.claim else none

/-- The hardware context that the item would take: the one held for it, or the lowest-numbered free one (R297, R302). -/
def State.hwFor (s : State) (c key : Nat) : Option Nat :=
  (List.range 8).find? fun k =>
    !isServiceCtx c k && (s.ctx c k).task.isNone && !(s.ctx c k).service && !(s.claimed c key).contains k

/-- The lowest-numbered free hardware context that a launch may take (R297). -/
def State.freeHw (s : State) (c : Nat) : Option Nat :=
  (List.range 8).find? fun k => !isServiceCtx c k && (s.ctx c k).task.isNone && !(s.ctx c k).service

/-- How many hardware contexts of a core hold a task. -/
def State.busyHw (s : State) (c : Nat) : Nat := ((s.core c).ctxs.filter fun e => e.2.task.isSome).length

/-! ### Accesses that wait for the page-fault service (R304, R383) -/

/-- An access and its number: one that is not listed yet takes a fresh one. -/
def State.numbered (s : State) (w : DispWait) : DispWait × State :=
  if w.id = 0 then match s.next with | (n, s) => ({ w with id := n }, s) else (w, s)
/-- List an access under its number. -/
def State.listWait (s : State) (w : DispWait) : State :=
  if s.sched.waits.any fun x => x.id == w.id then s else { s with sched := { s.sched with waits := s.sched.waits ++ [w] } }
/-- The service of a listed access has ended. -/
def State.dropService (s : State) (id : Nat) : State :=
  { s with sched := { s.sched with faults := s.sched.faults.filter fun f => !(f.exk == 3 && f.op == id) } }
/-- A listed access is over, with its service. -/
def State.dropWait (s : State) (id : Nat) : State :=
  { s with sched := { s.sched with waits := s.sched.waits.filter fun w => w.id != id, faults := s.sched.faults.filter fun f => !(f.exk == 3 && f.op == id) } }

/-- Hand the fault of a listed access to the page-fault service (R365, R383). -/
def State.waitFault (s : State) (id die part : Nat) (user write : Bool) (cause sub : Nat) (va : DWord) : State :=
  let (n, s) := s.next
  let f : FaultSvc :=
    { id := n, part, va, write, fetch := false, user, cause, sub, core := 320 * die, ctx := 0, exk := 3, op := id
      hostMode := bitOf s.mode.toNat part, time := s.time }
  { s with sched := { s.sched with faults := s.sched.faults ++ [f] } }

/-- List an access that met a fault, which the service has. -/
def State.listFault (s : State) (w : DispWait) (cause sub : Nat) (va : DWord) : State :=
  match s.numbered w with
  | (w, s) => (s.listWait w).waitFault w.id w.die w.part w.user w.write cause sub va

/-- A spilled task waits for its frame's pages. -/
def State.spilledWaits (s : State) (key : Nat) : Bool := s.sched.waits.any fun w => w.kind == 7 && w.key == key

/-! ### SAVEBASE and the frames (R304) -/

def State.frameCount (s : State) : Nat := bitsOf s.savebase.toNat 0 12
def State.frameVa (s : State) (j : Nat) : DWord :=
  sext57 (bitsOf s.savebase.toNat 22 35 * 2 ^ 22) + BitVec.ofNat 64 (4194304 * j)

/-- Where the search of a frame ends. -/
inductive FrameFound where
  | frame (j pa : Nat)
  | none
  | wait
  deriving DecidableEq, Repr

/-- The header's STATE at its home. -/
def State.frameState (s : State) (pa : Nat) : Nat := bitsOf (s.homeRead pa 8) 62 2

/-- A frame that can be nobody's is skipped: a log entry records it the first time. -/
def State.skipFrame (s : State) (die j cause : Nat) (va : DWord) : State :=
  if s.sched.skipped.contains j then s
  else
    let s := { s with sched := { s.sched with skipped := s.sched.skipped ++ [j] } }
    (s.addLog 6 0 false cause 0 0 0 va).signalService die

/-- Pieces that are ready and hold no poison, which ends the use of a frame as a translation that fails does (log 82). -/
def State.sound (r : Span × State) (va : DWord) : Span × State :=
  match r with
  | (.ok pas, s) =>
    let n := s.soundPieces pas
    if n < pas.length then (.fault 16 (s.poisonAt (pas.getD n 0) - 1) (va + BitVec.ofNat 64 (64 * n)), s) else (.ok pas, s)
  | r => r
/-- The first n pieces of a frame, from piece `first` on, for an agent. -/
def State.frameSpan (s : State) (a : Agent) (die j first n : Nat) : Span × State :=
  State.sound (s.span a die 0 false .write (s.frameVa j + BitVec.ofNat 64 (64 * first)) none n) (s.frameVa j + BitVec.ofNat 64 (64 * first))

/-- One frame of the search: how the search ends there, or none where it goes on. -/
def State.tryFrame (s : State) (a : Agent) (die j : Nat) : Option FrameFound × State :=
  match s.frameSpan a die j 0 1 with
  | (.wait, s) => (some .wait, s)
  | (.fault cause _ _, s) => (none, s.skipFrame die j cause (s.frameVa j))
  | (.ok pas, s) => (if s.frameState (pas.getD 0 0) = 0 then some (.frame j (pas.getD 0 0)) else none, s)

/-- The lowest-numbered frame with STATE 00 among the given ones; one whose header does not translate writably is
skipped, and logged the first time. -/
def State.findFrame (s : State) (a : Agent) (die : Nat) (js : List Nat) : FrameFound × State :=
  let r : Option FrameFound × State := js.foldl (fun r j => if r.1.isSome then r else r.2.tryFrame a die j) (none, s)
  (r.1.getD .none, r.2)

/-- Whether any of the frames has a STATE other than 00, or none where a header must be waited for. One whose header does not
translate holds nothing. -/
def State.framesUsed (s : State) (a : Agent) : List Nat → Option Bool × State
  | [] => (some false, s)
  | j :: t => match s.frameSpan a 0 j 0 1 with
    | (.wait, s) => (none, s)
    | (.fault .., s) => s.framesUsed a t
    | (.ok pas, s) => if s.frameState (pas.getD 0 0) = 0 then s.framesUsed a t else (some true, s)

/-- The header of a frame (R305). -/
def State.frameHeader (s : State) (c k state : Nat) (smem : Bool) (spt : Nat) : Nat :=
  let x := s.ctx c k
  match x.task with
  | none => 0
  | some t =>
    packBytes [(0, 8, c + t.slot * 2 ^ 32 + t.lctx * 2 ^ 56 + k * 2 ^ 58 + (if smem then 2 ^ 61 else 0) + state * 2 ^ 62),
      (8, 8, x.threads.length), (16, 8, t.record.toNat), (24, 8, t.deadline.toNat + t.level * 2 ^ 48), (32, 8, spt)]

/-- A thread's 32 bytes (R305): the wait state has no form in the manual, so its bytes are open. -/
def Thread.recBits (t : Thread) (waitBits : Nat) : Nat :=
  packBytes [(0, 8, t.str.pc.toNat), (8, 8, t.str.regionPc.toNat), (16, 4, t.str.regionCnt.toNat), (20, 6, t.p.toNat),
    (26, 1, t.settled.toNat), (27, 1, t.sel.toNat), (28, 4, waitBits)]

/-- Bytes 0x40 to 0xF_FFFF of a frame (R305), as a value from byte 0x40 on; `regs` are a thread's g-registers. -/
def Ctx.bodyBits (x : Ctx) (regs : Nat) (open_ : Nat → Nat) : Nat :=
  packBytes ([(0, 96, x.lc0.bits true), (0x60, 96, x.lc1.bits false), (0xC0, 512, tblBits x.s 0 64 8),
      (0x2C0, 8, x.q.toNat), (0x2C8, 8, x.str.pc.toNat), (0x2D0, 8, x.str.regionPc.toNat),
      (0x2D8, 8, x.str.regionCnt.toNat), (0x3C0, 256, tblBits x.cb 0 8 32),
      (0xFC0, 2048, packBytes (x.queue.zipIdx.map fun e => (8 * e.2, 8, e.1.toNat))),
      (0x17C0, 8, x.queue.length + (if x.closing then 512 else 0) + (if x.closed then 1024 else 0)),
      (0x17C8, 8, if x.event then 1 else 0), (0x7BC0, 1024, tblBits x.masks 0 256 4)] ++
    x.threads.flatMap fun e => match e.2 with
      | none => []
      | some t => [(0x7FC0 + 32 * e.1, 32, t.recBits (open_ e.1)), (0xFFC0 + 4 * regs * e.1, 4 * regs, tblBits t.g 0 regs 4)])

/-- A thread as the body of a frame holds it; what the body has no field for stays as it was saved, but the counters of the
picker, which begin again (log 28). -/
def Thread.ofBody (t : Thread) (tid regs v : Nat) : Thread :=
  let r := bytesAt v (0x7FC0 + 32 * tid) 32
  let pc := BitVec.ofNat 64 (bytesAt r 0 8)
  { t with
    str := { t.str with pc, regionPc := BitVec.ofNat 64 (bytesAt r 8 8), regionCnt := BitVec.ofNat 32 (bytesAt r 16 4),
                        run := if pc = t.str.pc then t.str.run else 0, dist := [], hold := 0 }
    p := BitVec.ofNat 48 (bytesAt r 20 6), latch := BitVec.ofNat 8 (bytesAt r 26 1), latchPend := []
    sel := BitVec.ofNat 3 (bytesAt r 27 1), g := tblOf 32 regs 4 (bytesAt v (0xFFC0 + 4 * regs * tid) (4 * regs))
    since := none, defer := 0 }

/-- A context as the body of a frame holds it (R305, R306); its `starve` begins again (log 28). -/
def Ctx.ofBody (x : Ctx) (regs v : Nat) : Ctx :=
  let pc := BitVec.ofNat 64 (bytesAt v 0x2C8 8)
  let qw := bytesAt v 0x17C0 8
  { x with
    lc0 := { Loop.ofBits (bytesAt v 0 96) true with draining := x.lc0.draining }
    lc1 := Loop.ofBits (bytesAt v 0x60 96) false
    s := tblOf 64 64 8 (bytesAt v 0xC0 512), q := BitVec.ofNat 16 (bytesAt v 0x2C0 2)
    str := { x.str with pc, regionPc := BitVec.ofNat 64 (bytesAt v 0x2D0 8), regionCnt := BitVec.ofNat 32 (bytesAt v 0x2D8 4)
                        run := if pc = x.str.pc then x.str.run else 0, dist := [], hold := 0 }
    cb := tblOf 256 8 32 (bytesAt v 0x3C0 256)
    queue := (List.range (min (bitsOf qw 0 9) 256)).map fun i => BitVec.ofNat 64 (bytesAt v (0xFC0 + 8 * i) 8)
    closing := bitOf qw 9, closed := bitOf qw 10, event := bitOf (bytesAt v 0x17C8 8) 0, fresh := 0
    masks := tblOf 32 256 4 (bytesAt v 0x7BC0 1024)
    threads := x.threads.map fun e => (e.1, e.2.map fun t => t.ofBody e.1 regs v)
    marked := false, stopped := false, spilling := none, starve := 0 }

/-- The 64-byte pieces of a body. -/
def bodyLines : Nat := 0xFFFC0 / 64

/-! ### Spilling (R302, R304) -/

/-- The context is the last resident one of its launch on the core. -/
def State.lastResident (s : State) (c k : Nat) : Bool :=
  match (s.ctx c k).task with
  | none => false
  | some t => ((s.core c).ctxs.all fun e => e.1 == k || match e.2.task with | some u => u.slot != t.slot | none => true)

/-- The executors of a context. -/
def State.executors (s : State) (c k : Nat) : List Who :=
  { core := c, ctx := k } :: (s.ctx c k).liveTids.map fun t => { core := c, ctx := k, tid := some t }

/-- Quiescent (step 3 of R302), and everything a release at pkg scope waits for done. -/
def State.quiescent (s : State) (c k : Nat) : Bool :=
  let x := s.ctx c k
  (s.executors c k).all (fun w => s.releaseReady w true && s.atomsDone w) && x.pending.isEmpty &&
    (s.core c).ops.all (fun o => !o.ofCtx k || o.state == .complete) &&
    (!s.lastResident c k || !s.copyHolds c (s.slotOf c k))

/-- Start the spill of a quiescent context into a frame: its header reads STATE 10. -/
def State.beginSpill (s : State) (c k j pa : Nat) : State :=
  let s := s.homeWrite pa 64 (s.frameHeader c k 2 (s.lastResident c k) 0)
  s.modCtx c k fun x => { x with spilling := some j }

/-- The frame holds the window: it is kept only for engine operations that use it. -/
def State.windowSaved (s : State) (c slot : Nat) : State :=
  s.modCore c fun co => { co with resv := co.resv.filter fun r => !(r.slot == slot && r.ended) || co.worksFor r.slot }

/-- Write the frame, free the hardware context and list the spilled task as ready: the end of a spill. It waits while the
frame's pages are not ready, and while a copy names a window that is to be saved; a fault names its address. -/
def State.endSpill (s : State) (c k j : Nat) : Span × State :=
  let x := s.ctx c k
  match x.task, s.launchOf c k with
  | some t, some l =>
    let smem := s.lastResident c k
    if smem && s.copyHolds c t.slot then (.wait, s)
    else match s.frameSpan (.context c k) (coreDie c) j 0 (1 + bodyLines + (if smem then l.smem / 64 else 0)) with
    | (.ok pas, s) =>
      let s := s.forget (.context c k)
      let body := x.bodyBits l.regs fun tid => bitsOf (Config.freeValue (s.freeKey { core := c, ctx := k, tid := some tid } 3)).toNat 0 32
      let window := readBytes ((s.core c).window t.slot) 0 (if smem then l.smem else 0)
      let v := s.frameHeader c k 1 smem s.time + body * 2 ^ 512 + window * 2 ^ (512 + 512 * bodyLines)
      let (key, s) := (s.pokeLines pas v).next
      let sp : Spilled :=
        { key, core := c, task := t, part := l.part, frame := j, ready := s.ps, smem
          saved := { x with pending := [], traps := [] } }
      let s := { s with sched := { s.sched with spilled := s.sched.spilled ++ [sp] } }
      let s := (s.modCtx c k fun x => { x with event := false }).freeCtx c k
      (.ok pas, if smem then s.windowSaved c t.slot else s)
    | r => r
  | _, _ => (.wait, s)

/-! ### Resumption (R302, R305) -/

/-- Set a frame's STATE. -/
def State.setFrameState (s : State) (pa st : Nat) : State :=
  s.homeWrite pa 8 (bitsOf (s.homeRead pa 8) 0 62 + st * 2 ^ 62)

/-- Free a frame of a killed partition: a walk or a home that must be waited for leaves it to be freed later; one that does
not translate is lost and logged. -/
def State.freeFrame (s : State) (p die j : Nat) : State :=
  let later (s : State) : State :=
    { s with sched := { s.sched with freeing := s.sched.freeing.filter (· != (p, die, j)) ++ [(p, die, j)] } }
  let gone (s : State) : State :=
    { s with sched := { s.sched with freeing := s.sched.freeing.filter (· != (p, die, j)) } }.forget (.freeing die j)
  match s.frameSpan (.freeing die j) die j 0 1 with
  | (.ok pas, s) => gone (s.setFrameState (pas.getD 0 0) 0)
  | (.wait, s) => later s
  | (.fault cause _ va, s) => ((gone s).addLog 4 0 false cause 0 0 0 va).signalService die

/-- Frames whose freeing had to wait are tried again. -/
def State.retryFreeing (s : State) : State := s.sched.freeing.foldl (fun s e => s.freeFrame e.1 e.2.1 e.2.2) s

/-- The frame that a spill of a context of the partition is writing is free again (17 R304). -/
def State.freeSpillFrame (s : State) (p c k : Nat) : State :=
  match (s.ctx c k).spilling with
  | none => s
  | some j => s.freeFrame p (coreDie c) j

/-- The header names the spilled task. -/
def Spilled.matchesFrame (sp : Spilled) (dw0 : Nat) : Bool :=
  bitsOf dw0 62 2 == 1 && bitsOf dw0 0 10 == sp.core && bitsOf dw0 32 16 == sp.task.slot && bitsOf dw0 56 2 == sp.task.lctx

/-! ### What leaves the ready lists (R294, R302) -/

/-- A ready list holds the item. -/
def State.listed (s : State) (key : Nat) : Bool :=
  (s.sched.recs.any fun r => r.key == key && r.ready.isSome && !r.waiting) ||
    s.sched.spilled.any fun sp => sp.key == key && !s.spilledWaits key

/-- A ready list holds an item. -/
def State.listHeld (s : State) (die level : Nat) : Bool :=
  (s.sched.recs.any fun r => r.die == die && r.level == level && r.ready.isSome && !r.waiting) ||
    s.sched.spilled.any fun sp => coreDie sp.core == die && sp.task.level == level && !s.spilledWaits sp.key

/-- The members of a request that have not stopped continue. -/
def State.unmark (s : State) (q : Request) : State :=
  q.members.foldl (fun s k => s.modCtx q.core k fun x => if x.stopped then x else { x with marked := false }) s

/-- The requests of items that have left the lists are withdrawn. -/
def State.withdrawGone (s : State) : State :=
  let gone (q : Request) : Bool := !s.listed q.key
  let r := (s.sched.disps.flatMap fun d => d.2.requests.filter gone).foldl State.unmark s
  { r with sched := { r.sched with disps := r.sched.disps.map fun d =>
    (d.1, { d.2 with requests := d.2.requests.filter fun q => !gone q }) } }

/-- An item has left its list: its requests are withdrawn, and a list that has become empty no longer held an item
throughout the microsecond. -/
def State.lapse (s : State) : State :=
  let s := s.withdrawGone
  { s with sched := { s.sched with ages :=
    (s.sched.ages.map fun e => (e.1, { e.2 with idle := e.2.idle && s.listHeld (e.1 / 8) (e.1 % 8) })).filter fun e => !(e.2 == {}) } }

/-- The spilled task leaves the ready lists. -/
def State.dropSpilled (s : State) (key : Nat) : State :=
  let cores := (s.sched.spilled.filter fun x => x.key == key).map (·.core)
  cores.foldl State.sweep ({ s with sched := { s.sched with spilled := s.sched.spilled.filter fun x => x.key != key } }).lapse

/-- A spilled task is killed (R305, R369): the needle it holds passes on, its launch will write 2. -/
def State.killSpilled (s : State) (sp : Spilled) (cause : Nat) (va : DWord) : State :=
  let s := (s.dropSpilled sp.key).passNeedle sp.core sp.task.slot sp.task.lctx 1
  let s := s.modLaunch sp.task.slot fun l => { l with aborted := true }
  (s.addLog 1 sp.part false cause sp.core 0 sp.task.slot va).signalService (coreDie sp.core)

/-- The frame of a spilled task meets a fault: the service serves it in partition 0's mode, and the task waits; poison kills
it, and frees the frame (R304). -/
def State.frameFault (s : State) (sp : Spilled) (cause sub : Nat) (va : DWord) : State :=
  if 16 ≤ cause then (s.freeFrame sp.part (coreDie sp.core) sp.frame).killSpilled sp cause va
  else
    s.listFault { id := 0, die := coreDie sp.core, slot := sp.task.slot, part := 0, va, write := true, kind := 7, user := false, key := sp.key }
      cause sub va

/-- An item of a ready list is served: its level falls back (17 R294). -/
def State.serveList (s : State) (die level : Nat) : State :=
  { s with sched := { s.sched with ages := tblPut {} s.sched.ages (8 * die + level) {} } }

/-- The spilled task whose frame gives its window to a reservation that is to be established (R302): of the launch's spills
on the core that saved it, the last; none where the window is kept, or reads zero. `own` says of a task that is resumed
whether its header says so. -/
def State.windowFrame (s : State) (c slot : Nat) (own : Option (Nat × Bool)) : Option Spilled :=
  if s.hasResv c slot || s.keptWindow c slot then none
  else (s.sched.spilled.filter fun x => x.core == c && x.task.slot == slot && match own with
    | some (key, smem) => if x.key = key then smem else x.smem
    | none => x.smem).getLast?

/-- A window that a fresh dispatch would establish is waited for: its frame's fault is under service. -/
def State.windowWaits (s : State) (c slot : Nat) : Bool :=
  match s.windowFrame c slot none with
  | some sp => s.spilledWaits sp.key
  | none => false

/-- The lines of a window that a frame gives, none where no frame does. -/
def State.windowLines (s : State) (a : Agent) (l : Launch) : Option Spilled → Span × State
  | none => (.ok [], s)
  | some sp => s.frameSpan a (coreDie sp.core) sp.frame 0x4000 (l.smem / 64)

/-- Establish a reservation, with a window from a frame's lines where there are any. -/
def State.establish (s : State) (c slot : Nat) (l : Launch) (window : List Nat) : State :=
  let bytes := s.peekLines window
  let s := s.reserve c slot
  if window.isEmpty then s else s.modCore c fun co => co.setWindow slot (writeBytes [] 0 l.smem bytes)

/-- The task runs again on a hardware context, from its frame's lines and from its window's where that is restored. It keeps
its place in the order of dispatches: resumption is no dispatch (R296, R300). -/
def State.restore (s : State) (sp : Spilled) (k : Nat) (l : Launch) (pas window : List Nat) : State :=
  let body := s.peekLines pas
  let s := (s.establish sp.core sp.task.slot l window).keepBooks sp.core k
  let (came, s) := s.next
  let x := { sp.saved.ofBody l.regs (bytesAt body 64 (64 * bodyLines)) with
    task := some { sp.task with came }, wdStart := s.ps, pending := (s.ctx sp.core k).pending }
  let s := ((s.setCtx sp.core k x).dropDemand sp.core).wakeLender sp.core
  ((s.setFrameState (pas.getD 0 0) 0).dropSpilled sp.key).serveList (coreDie sp.core) sp.task.level

/-- Resume a spilled task on a hardware context of its core, as an acquire at pkg scope (R302). A frame that does not
name it kills it with cause 5. -/
def State.resume (s : State) (a : Agent) (sp : Spilled) (k : Nat) : Span × State :=
  match s.launch sp.task.slot with
  | none => (.wait, s)
  | some l =>
    match s.frameSpan a (coreDie sp.core) sp.frame 0 1 with
    | (.ok pas, s) =>
      let pa := pas.getD 0 0
      let dw0 := s.homeRead pa 8
      if !sp.matchesFrame dw0 then
        (.ok pas, (if bitsOf dw0 62 2 = 1 then s.setFrameState pa 0 else s).killSpilled sp 5 (s.frameVa sp.frame))
      else
        match s.frameSpan a (coreDie sp.core) sp.frame 0 (1 + bodyLines) with
        | (.ok pas, s) =>
          (match s.windowLines a l (s.windowFrame sp.core sp.task.slot (some (sp.key, bitOf dw0 61))) with
           | (.ok was, s) => (.ok pas, s.restore sp k l pas was)
           | r => r)
        | r => r
    | r => r

end Sys2Proof.Machine
end

