-- ==== Sys2Proof/Machine/Task.lean ====
section
/-! DEFINITION. Task records, launch records, registration, items, waves and the sillage table (09 R214 to R229).
A record is read and written at its home when the instruction performs, once its release is ready and the home
can answer; until then the executor waits at its bundle (log 18). -/

namespace Sys2Proof.Machine

/-! ### Task records (R214, R215) -/

/-- The fields of a task record. -/
def recSucc (r : Nat) : Nat := fld r 4 0 64
def recSlot (r : Nat) : Nat := fld r 3 48 16
def recDl (r : Nat) : BitVec 48 := BitVec.ofNat 48 (fld r 3 0 48)
def recLvl (r : Nat) : Nat := fld r 2 32 3
def recJoin (r : Nat) : Nat := fld r 2 0 32
def recFrame (r : Nat) : DWord := BitVec.ofNat 64 (fld r 1 0 64)
def recCode (r : Nat) : DWord := BitVec.ofNat 64 (fld r 0 0 64)
/-- Tile and byte count of read-set entry i. -/
def recTile (r i : Nat) : BitVec 32 := BitVec.ofNat 32 (fld r (5 + i) 0 32)
def recBytes (r i : Nat) : Nat := fld r (5 + i) 32 32
/-- Every reserved field is zero. -/
def recReserved (r : Nat) : Bool := fld r 2 37 27 == 0
/-- A record that TENQ accepts (R218). -/
def recSound (r : Nat) : Bool := recReserved r && recSucc r % 64 == 0

/-- The records of a launch that hold a task-queue entry; a START = 1 entry record holds one (R218). -/
def State.queueUse (s : State) (slot : Nat) : Nat :=
  let mine := s.sched.recs.filter fun r => r.slot == slot
  (mine.filter fun r => !r.startItem).length + (if mine.any (·.startItem) then 1 else 0)

/-- The dispatcher of a record enqueued on a die, and its area's die (17 R290). -/
def Launch.serves (l : Launch) (die : Nat) : Nat × Option Nat :=
  if l.dmode = 0 then (if l.ox < 20 then 0 else 1, none) else (die, some die)

/-- Register a record at its home address (R215): ready at once when its JOIN is 0. -/
def State.register (s : State) (slot : Nat) (l : Launch) (va : DWord) (pa die : Nat) (onDie onCore : Option Nat)
    (startItem : Bool) : State :=
  let (key, s) := s.next
  let r := s.homeRead pa 64
  let x : Rec :=
    { key, slot, addr := va, pa, level := min (recLvl r) l.level, die, onDie, onCore
      ready := if recJoin r = 0 then some s.ps else none, startItem }
  { s with sched := { s.sched with recs := s.sched.recs ++ [x] } }

/-- Registered records at an address whose JOIN has come to 0 become ready, once (R215). -/
def State.joined (s : State) (pa : Nat) : State :=
  { s with sched := { s.sched with
    recs := mapIf (fun r => r.pa == pa && r.ready.isNone) (fun r => { r with ready := some s.ps }) s.sched.recs } }

/-- The decrement of TDEC at the record's home (R218). -/
def State.decJoin (s : State) (pa : Nat) : State :=
  let dw2 := s.homeRead (pa + 16) 8
  if bitsOf dw2 0 32 = 0 then s.homeWrite (pa + 16) 8 (dw2 ||| 2 ^ 36)
  else
    let s := s.homeWrite (pa + 16) 8 (dw2 - 1)
    if bitsOf dw2 0 32 = 1 then s.joined pa else s

/-! ### TENQ, TDEC (R218) -/

/-- An executor's own access to a line's home, once the home can answer: a request of its bundle (15 R283, R285). -/
def State.reachHome (s : State) (a : Agent) (w : Who) (write : Bool) (pa : Nat) : Bool × State :=
  match s.accReady a write pa with
  | (false, s) => (false, s)
  | (true, s) => (true, (s.ask (regulatorOf w (s.partOf w.core w.ctx)) pa).served (regionOf (s.forward pa)) a)

/-- An access that an instruction makes at the home when it performs: the address, then the home's readiness. An address of
the control space takes no such access (25 R371). -/
def reaching (i : Issue) (w : Who) (acc : Access) (align : Nat) (va : DWord) (f : Nat → State → State) (st : State) : State :=
  access i w acc align va (fun r st =>
    if inCtl r.pa then trapOperand i w st
    else match st.reachHome (.strand w i.pc) w (acc == .write) r.pa with
      | (true, st) => f r.pa st
      | (false, st) => markWait w st) st
/-- The same for a second line beside one that has been reached. -/
def reachingNext (i : Issue) (w : Who) (write : Bool) (pa : Nat) (f : State → State) (st : State) : State :=
  match st.reachHome (.strand w i.pc) w write pa with
  | (true, st) => f st
  | (false, st) => markWait w st

/-- The same for a release: everything that it waits for first (R160, R218, R222). -/
def releasing (i : Issue) (w : Who) (acc : Access) (align : Nat) (va : DWord) (f : Nat → State → State) (st : State) : State :=
  if !st.releaseReady w true then markWait w st else reaching i w acc align va f st

/-- A line that holds poison when it is read or written reaches the executor as an asynchronous error (22 R347; 24 R367). -/
def unlessPoisoned (w : Who) (va : DWord) (pa : Nat) (f : State → State) (st : State) : State :=
  match st.poisonAt pa with
  | 0 => f st
  | n => st.asyncTrap w 16 (n - 1) va 0#64 (if w.tid.isNone then 1 else 0)

def execTenq (g : Guard) (a : Reg) (s : State) : Res :=
  eachExec g (fun i w st =>
    let va := st.reg64 w a
    releasing i w .read 64 va (fun _ st => reaching i w .write 64 va (fun pa st =>
      unlessPoisoned w va pa (fun st =>
        match st.launchOf w.core w.ctx with
        | none => trapOperand i w st
        | some l =>
          let slot := st.slotOf w.core w.ctx
          if !recSound (st.homeRead pa 64) then trapOperand i w st
          else if l.tqn ≤ st.queueUse slot then markWait w st
          else
            let (die, onDie) := l.serves (coreDie w.core)
            (st.homeWrite (pa + 30) 2 slot).register slot l va pa die onDie none false) st) st) st) s

def execTdec (g : Guard) (a : Reg) (s : State) : Res :=
  eachExec g (fun i w st =>
    let va := st.reg64 w a
    releasing i w .write 64 va (fun pa st => unlessPoisoned w va pa (fun st => st.decJoin pa) st) st) s

/-! ### Launch records (R219, R220) -/

/-- A launch record as a launch without its place in the device. -/
def launchOfBits (bits : Nat) : Launch :=
  { bits, serial := 0, die := 0, ox := fld bits 8 0 8, oy := fld bits 8 8 8, startLeft := fld bits 8 16 8 * fld bits 8 24 8 }

def Launch.float (l : Launch) : Bool := fld l.bits 8 35 1 == 1

/-- The cores of a w × h rectangle at (ox, oy). -/
def rectCores (ox oy w h : Nat) : List Nat :=
  (List.range h).flatMap fun y => (List.range w).map fun x => coreAt (ox + x) (oy + y)

/-- Every core of the rectangle is the partition's. -/
def State.rectIn (s : State) (p ox oy w h : Nat) : Bool := (rectCores ox oy w h).all fun c => s.corePart c == p

/-- Equal numbers of columns on each side of the die boundary. -/
def balanced (ox w : Nat) : Bool := w % 2 == 0 && ox + w / 2 == 20

/-- The origins of a floating launch that meet the partition condition (17 R292). -/
def State.floatOrigins (s : State) (l : Launch) (p : Nat) : List (Nat × Nat) :=
  (List.range 16).flatMap fun oy => ((List.range 40).map fun ox => (ox, oy)).filter fun o =>
    o.1 + l.width ≤ 40 && o.2 + l.height ≤ 16 && s.rectIn p o.1 o.2 l.width l.height

/-- The candidates: those that meet the condition of DMODE as well. -/
def Launch.candidates (l : Launch) (origins : List (Nat × Nat)) : List (Nat × Nat) :=
  if l.dmode = 0 then origins else origins.filter fun o => balanced o.1 l.width

/-- RING holds a permutation of 0 to CW in its positions 0 to CW, and 0 above (R219). -/
def Launch.ringOk (l : Launch) : Bool :=
  let used := (List.range (l.cw + 1)).map l.ring
  ((List.range (l.cw + 1)).all fun k => used.contains k) && (List.range 4).all fun i => i ≤ l.cw || l.ring i == 0

/-- A power of two from 64 to 65,536. -/
def taskQueueOk (n : Nat) : Bool := (List.range 11).any fun k => n == 64 * 2 ^ k

/-- The reason of the first check of R220 that fails, 0 when none does. `entry` is the entry record, none where it
does not translate; `priv` is the issuer's privilege and `part` its partition. -/
def State.checkLaunch (s : State) (bits part : Nat) (priv : Bool) (entry : Option Nat) : Nat :=
  let l := launchOfBits bits
  let origins := s.floatOrigins l part
  if fld bits 9 46 18 != 0 || fld bits 9 13 3 != 0 || fld bits 8 47 17 != 0 || fld bits 7 32 32 != 0 ||
      bits / 2 ^ 640 % 2 ^ 384 != 0 then 1
  else if l.entry = 0 || l.entry % 64 != 0 || l.width = 0 || l.height = 0 || 40 < l.ox + l.width || 16 < l.oy + l.height ||
      (l.float && (l.ox != 0 || l.oy != 0)) then 2
  else if l.thr % 32 != 0 || 1024 < l.thr || 131072 < l.thr * l.regs then 3
  else if l.smem % 64 != 0 || 3145728 < l.smem then 4
  else if l.part != part || (if l.float then origins.isEmpty else !s.rectIn part l.ox l.oy l.width l.height) then 5
  else if l.priv && !priv then 6
  else if !l.ringOk then 7
  else if l.dmode = 3 || (l.dmode != 0 && (if l.float then (l.candidates origins).isEmpty else !balanced l.ox l.width)) then 8
  else if !taskQueueOk l.tqn || fld bits 3 0 64 % 8 != 0 || l.oqb % 128 != 0 || l.lqb % 16 != 0 || 65536 < l.lqn then 10
  else match entry with
    | none => 11
    | some r => if recJoin r != 0 || !recReserved r then 11 else 0

/-- How the reading of an entry record ends: its place and bytes, no translation, poison, or a wait. -/
inductive EntryRead where
  | ok (pa bits : Nat)
  | none
  | poison (err : Nat)
  | wait
  deriving DecidableEq, Repr

/-- The place and the bytes of a record that is there. -/
def EntryRead.found : EntryRead → Option (Nat × Nat)
  | .ok pa bits => some (pa, bits)
  | _ => Option.none

/-- The entry record as its home holds it (R220). The read is the partition's regulator's (15 R283). -/
def State.entryRecord (s : State) (a : Agent) (die part : Nat) (user : Bool) (bits : Nat) : EntryRead × State :=
  match s.dieTranslate a die part user .read (BitVec.ofNat 64 (fld bits 0 0 64)) with
  | (.fault cause sub, s) => (if 16 ≤ cause then .poison (sub + 1) else .none, s)
  | (.wait _, s) => (.wait, s)
  | (.ok pa _, s) =>
    match s.devReady a pa with
    | (false, s) => (.wait, s)
    | (true, s) =>
      let s := (s.ask part pa).served (regionOf (s.forward pa)) a
      (if s.poisonAt pa ≠ 0 then .poison (s.poisonAt pa) else .ok pa (s.homeRead pa 64), s)

/-! ### LNCH (R222) -/

/-- The overflow copy of a record, as the issuer's own store (R222): a line of it that holds poison takes nothing, and the
executor hears of it (22 R347). -/
def overflowWrite (i : Issue) (w : Who) (slot : Nat) (l : Launch) (src : DWord) (bits : Nat) (d : Reg) (st : State) : State :=
  let va := BitVec.ofNat 64 (l.oqb + 128 * (l.ovTail % l.oqn))
  reaching i w .write 1 va (fun pa st => reachingNext i w true (pa + 64) (fun st =>
    let report (pa : Nat) (va : DWord) (st : State) : State := unlessPoisoned w va pa id st
    let st := (st.homeWrite pa 64 (bits % 2 ^ 512)).homeWrite (pa + 64) 64 (bits / 2 ^ 512)
    let st := (st.modLaunch slot fun l => { l with ovTail := l.ovTail + 1, ovq := l.ovq ++ [(coreDie w.core, src)] }).setReg w d 1
    if st.poisonAt pa ≠ 0 then report pa va st else report (pa + 64) (va + 64#64) st) st) st

/-- Queue an accepted record: pending, overflow, or refused with reason 9, as is the fifth of a service context, which runs no
launch and so has no overflow queue (log 83). -/
def queueLaunch (i : Issue) (w : Who) (va : DWord) (bits : Nat) (d : Reg) (st : State) : State :=
  let x := st.ctx w.core w.ctx
  if x.pending.length < 4 then
    (st.modCtx w.core w.ctx fun x => { x with pending := x.pending ++ [{ addr := va, bits, user := !st.privileged w }] }).setReg w d 0
  else match st.launchOf w.core w.ctx with
    | some l =>
      if l.ovTail - l.ovHead < l.oqn then overflowWrite i w (st.slotOf w.core w.ctx) l va bits d st
      else st.setReg w d (2 + 16 * 9)
    | none => st.setReg w d (2 + 16 * 9)

def execLnch (g : Guard) (d a : Reg) (s : State) : Res :=
  eachExec g (fun i w st =>
    let va := st.reg64 w a
    releasing i w .read 128 va (fun pa st => reachingNext i w false (pa + 64) (fun st =>
      unlessPoisoned w va pa (fun st => unlessPoisoned w (va + 64#64) (pa + 64) (fun st =>
        let bits := st.homeRead pa 128
        let part := st.partOf w.core w.ctx
        let priv := st.privileged w
        match st.entryRecord (.strand w i.pc) (coreDie w.core) part (!priv) bits with
        | (.wait, st) => markWait w st
        | (.poison err, st) => st.asyncTrap w 16 (err - 1) (BitVec.ofNat 64 (fld bits 0 0 64)) 0#64 (if w.tid.isNone then 1 else 0)
        | (entry, st) =>
          let r := st.checkLaunch bits part priv (entry.found.map (·.2))
          if r ≠ 0 then st.setReg w d (2 + 16 * r) else queueLaunch i w va bits d st) st) st) st) st) s

/-! ### Items (R224) -/

def execIqpush (g : Guard) (a : Reg) (s : State) : Res :=
  eachExec g (fun i w st =>
    let x := st.ctx w.core w.ctx
    if x.closing || x.closed then trapOperand i w st
    else if 256 ≤ x.queue.length then markWait w st
    else
      let v := st.reg64 w a
      st.modCtx w.core w.ctx fun x => { x with queue := x.queue ++ [v], fresh := x.fresh + 1 }) s

def execIqclose (g : Guard) (s : State) : Res :=
  eachExec g (fun _ w st => st.modCtx w.core w.ctx fun x => { x with closing := true }) s

/-! ### Waves (R225, R226) -/

/-- Warps of the launch on the core hold no live thread: none of a resident context, and none that a spilled one will bring
back (11 R244). -/
def State.warpsIdle (s : State) (c slot first count : Nat) : Bool :=
  let idle (x : Ctx) : Bool := x.liveTids.all fun tid => tid / 32 < first || first + count ≤ tid / 32
  ((s.core c).ctxs.all fun e => match e.2.task with | none => true | some t => t.slot != slot || idle e.2) &&
    s.sched.spilled.all fun x => x.core != c || x.task.slot != slot || idle x.saved

/-- A thread as WAVE starts it. -/
def waveThread (entry b : DWord) (i fresh : Nat) : Thread :=
  { str := { pc := entry, regionPc := entry, arr := fresh }
    g := tblPut 0#32 (tblPut 0#32 (tblPut 0#32 [] 0 (b.extractLsb' 0 32)) 1 (b.extractLsb' 32 32)) 2 (BitVec.ofNat 32 i) }

/-- Start n threads from warp w on, with the rejoin masks that R150 gives their warps; a started thread issues no
sooner than a given cycle (10 R241). -/
def Ctx.startWave (x : Ctx) (warp n : Nat) (entry b : DWord) (fresh hold : Nat) : Ctx :=
  let warps := (n + 31) / 32
  let x := (List.range warps).foldl (fun x k =>
    (List.range 8).foldl (fun x j =>
      { x with masks := tblPut 0#32 x.masks (8 * (warp + k) + j) (BitVec.ofNat 32 (2 ^ min 32 (n - 32 * k) - 1)) }) x) x
  (List.range n).foldl (fun x i =>
    let t := waveThread entry b i fresh
    x.setThread (32 * warp + i) { t with str := { t.str with hold } }) x

def execWave (g : Guard) (d a b : Reg) (s : State) : Res :=
  eachExec g (fun i w st =>
    let dv := st.reg w d
    let n := bitsOf dv 0 16
    let warp := bitsOf dv 16 5
    let entry := st.reg64 w a
    let thr := ((st.launchOf w.core w.ctx).map Launch.thr).getD 0
    if dv / 2 ^ 21 ≠ 0 ∨ n = 0 ∨ thr < 32 * warp + n then trapOperand i w st
    else if !targetAligned entry then trapMisaligned i w entry st
    else if !st.releaseReady w false || !st.warpsIdle w.core (st.slotOf w.core w.ctx) warp ((n + 31) / 32) then markWait w st
    else
      let hold := (st.core w.core).cyc.toNat + 4
      let arg := st.reg64 w b
      (st.released w).modCtx w.core w.ctx fun x => x.startWave warp n entry arg st.fresh hold) s

/-- The acquire at core scope invalidates nothing (21 R330). -/
def execWavew (g : Guard) (s : State) : Res :=
  eachExec g (fun _ w st => waitUnless (st.ctx w.core w.ctx).threads.isEmpty w id st) s

/-! ### SETDL (R227) -/

def execSetdl (g : Guard) (a : Reg) (s : State) : Res :=
  eachExec g (fun i w st =>
    let dl := BitVec.ofNat 48 (st.reg w a)
    match (st.ctx w.core w.ctx).task with
    | none => st
    | some t =>
      reaching i w .write 1 (t.record + 24#64) (fun pa st =>
        unlessPoisoned w (t.record + 24#64) pa id
          ((st.homeWrite pa 6 dl.toNat).modCtx w.core w.ctx fun x => { x with task := some { t with deadline := dl } })) st) s

/-! ### The sillage table (R228, R229) -/

def State.sillage (s : State) (die : Nat) : List Sillage := if die = 0 then s.sched.sillage0 else s.sched.sillage1
def State.setSillage (s : State) (die : Nat) (l : List Sillage) : State :=
  if die = 0 then { s with sched := { s.sched with sillage0 := l } } else { s with sched := { s.sched with sillage1 := l } }

def Sillage.hasKey (e : Sillage) (part : Nat) (tile : BitVec 32) : Bool := e.part == part && e.tile == tile

/-- Place an entry: 0 new, 1 replaced, 2 refused as the table is full. -/
def State.sillagePut (s : State) (die : Nat) (e : Sillage) : Nat × State :=
  let l := s.sillage die
  if l.any fun x => x.hasKey e.part e.tile then
    (1, s.setSillage die (mapIf (fun x => x.hasKey e.part e.tile) (fun _ => e) l))
  else if 4096 ≤ l.length then (2, s)
  else (0, s.setSillage die (l ++ [e]))

/-- The physical lines of k lines from an address on, each page translated as the issuer's own read: no page of another
partition is reached (25 R374; log 84). -/
def pinLines (i : Issue) (w : Who) (f : List Nat → State → State) : Nat → Nat → DWord → List Nat → State → State
  | 0, _, _, ls, st => f ls st
  | n + 1, k, va, ls, st =>
    if k = 0 then f ls st
    else access i w .read 1 va (fun r st =>
      if inCtl r.pa then trapOperand i w st
      else
        let m := min k (64 - va.toNat / 64 % 64)
        pinLines i w f n (k - m) (va + BitVec.ofNat 64 (64 * m)) (ls ++ (List.range m).map fun j => lineOf r.pa + j) st) st

def execRestag (g : Guard) (d a : Reg) (s : State) : Res :=
  eachExec g (fun i w st =>
    withDesc i w a 16 16 (fun v st =>
      let dw1 := v / 2 ^ 64
      let pin := bitOf dw1 63
      let bytes := bitsOf v 32 32
      let e : Sillage :=
        { part := st.partOf w.core w.ctx, tile := BitVec.ofNat 32 v, pin, core := w.core, addr := bitsOf dw1 0 57, bytes
          slot := st.slotOf w.core w.ctx }
      let put (e : Sillage) (st : State) : State :=
        let (r, st) := st.sillagePut (coreDie w.core) e
        st.setReg w d r
      if pin then
        (if bitsOf dw1 57 6 ≠ 0 ∨ e.addr % 64 ≠ 0 then trapOperand i w st
         else
           let k := max 1 ((bytes + 63) / 64)
           let pinned (ls : List Nat) : Sillage :=
             { e with addr := ls.headD 0, lines := ls.zipIdx.map fun l => (l.1, min 64 (bytes - 64 * l.2)) }
           pinLines i w (fun ls st => put (pinned ls) st) (k / 64 + 2) k (sext57 e.addr) [] st)
      else if st.smemSize w.core w.ctx < bitsOf dw1 0 22 + bytes then trapRange i w (BitVec.ofNat 64 (bitsOf dw1 0 22)) st
      else if bytes = 0 ∨ bitsOf dw1 22 41 ≠ 0 then trapOperand i w st
      else put e st) st) s

/-- The value RESQ reads: the count's field keeps the low 32 bits of an entry of 2^32 bytes or more, which CPY.tag may make
(00 R10). The manual names no holder for a pin: that field is open (log 49). -/
def State.resqValue (s : State) (w : Who) (tile : BitVec 32) : DWord :=
  match (s.sillage (coreDie w.core)).find? fun e => e.hasKey (s.partOf w.core w.ctx) tile with
  | none => 0#64
  | some e =>
    let core := if e.pin then bitsOf (Config.freeValue (s.freeKey w 1)).toNat 0 10 else e.core
    BitVec.ofNat 64 (2 ^ 63 + (if e.pin then 2 ^ 62 else 0) + core * 2 ^ 32 + e.bytes % 2 ^ 32)

def execResq (g : Guard) (d a : Reg) (s : State) : Res :=
  eachExec g (fun _ w st => st.setReg64 w d (st.resqValue w (BitVec.ofNat 32 (st.reg w a)))) s

def execResdrop (g : Guard) (a : Reg) (s : State) : Res :=
  eachExec g (fun _ w st =>
    let die := coreDie w.core
    st.setSillage die ((st.sillage die).filter fun e => !e.hasKey (st.partOf w.core w.ctx) (BitVec.ofNat 32 (st.reg w a)))) s

end Sys2Proof.Machine
end

