-- ==== Sys2Proof/Machine/Sys.lean ====
section
/-! DEFINITION. Special registers, CSRs, service calls, events, traps, ownership, translation and saved contexts
(09 R230 to R240; 17 R303; 25 R376, R377). -/

namespace Sys2Proof.Machine

/-- A privileged form: the privilege check does not depend on the guard (02 R40, 03 R66). -/
def eachPriv (g : Guard) (f : Issue → Who → State → State) (s : State) : Res :=
  onIssue s fun i s0 => i.whos.foldl (fun st w =>
    if !s0.privileged w then trapPrivilege i w st else if s0.guardOk w g then f i w st else st) s0

/-! ### MOVSR (R230, R231; 10 R243) -/

/-- A value of the launch, open where the context runs none. -/
def State.ofLaunch (s : State) (w : Who) (f : Launch → Nat) : Nat :=
  match s.launchOf w.core w.ctx with
  | some l => f l
  | none => (Config.freeValue (s.freeKey w 0)).toNat

/-- The value of a special register. -/
def State.special (s : State) (w : Who) (n : Nat) : Nat :=
  let tid := w.tid.getD 0
  match n with
  | 0 => s.time
  | 1 => (s.core w.core).cyc.toNat
  | 2 => (s.core w.core).stall.toNat
  | 3 => coreX w.core
  | 4 => coreY w.core
  | 5 => w.core
  | 6 => w.ctx
  | 7 => tid
  | 8 => tid / 32
  | 9 => tid % 32
  | 10 => s.ofLaunch w Launch.width
  | 11 => s.ofLaunch w Launch.height
  | 12 => s.partOf w.core w.ctx
  | 13 =>
    (match (s.ctx w.core w.ctx).task with
     | some t => t.deadline.toNat
     | none => (Config.freeValue (s.freeKey w 0)).toNat)
  | _ => s.ofLaunch w fun l => l.late.toNat + l.lateLost.toNat * 2 ^ 32

/-- The special register has 64 bits (R69). -/
def specialWide (n : Nat) : Bool := [0, 1, 2, 13, 14].contains n

/-- Only threads have TID, WARP and LANE, and a number above 14 names none (R69). -/
def specialLegal (w : Who) (n : Nat) : Bool := n ≤ 14 && (w.tid.isSome || !([7, 8, 9].contains n))

def execMovsr (g : Guard) (d : Reg) (f : F6) (s : State) : Res :=
  eachExec g (fun i w st =>
    let n := f.toNat
    if !specialLegal w n then trapIllegal i w st
    else if specialWide n then st.setReg64 w d (BitVec.ofNat 64 (st.special w n))
    else st.setReg w d (st.special w n % 2 ^ 32)) s

/-! ### CSRs (R70, R233) -/

/-- Bits [hi : lo] and others that a register keeps: a mask (00 R8). -/
def masked (v : DWord) (m : DWord) : DWord := v &&& m

/-- The version of a firmware slot's image (25 R377). -/
def Service.version (x : Service) (slot : Nat) : DWord :=
  match (if slot = 0 then x.fw0 else x.fw1) with
  | some i => if x.ok.getLsbD slot then i.version.setWidth 64 else 0#64
  | none => 0#64

/-- The value a CSR reads. QLATCH is a thread's: a lead strand has no scale latch, and reads 0 (log 85). -/
def State.csr (s : State) (w : Who) (c : Nat) : DWord :=
  let co := s.core w.core
  let x := s.ctx w.core w.ctx
  match c with
  | 0x000 => (s.strand w).castRef.setWidth 64
  | 0x001 => if w.tid.isSome then BitVec.ofInt 64 (s.threadOf w).latchNow else 0#64
  | 0x800 => s.mode
  | 0x801 => co.trapvec
  | 0x802 => co.gauge
  | 0x803 => co.gaugerate
  | 0x804 => s.savebase
  | 0x810 => if x.handler then x.trapCause else 0#64
  | 0x811 => if x.handler then x.trapPc else 0#64
  | 0x812 => if x.handler then x.trapRegion else 0#64
  | 0x813 => if x.handler then x.trapCount else 0#64
  | 0xC00 => BitVec.ofNat 64 (s.svc.act.toNat + s.svc.tgt.toNat * 2 + (if s.svc.req then 4 else 0))
  | 0xC01 => s.svc.version 0
  | 0xC02 => s.svc.version 1
  | 0xC03 => BitVec.ofNat 64 (s.svc.ok.toNat + Config.minVersion.toNat * 2 ^ 32)
  | _ => 0#64

/-- SAVEBASE takes a value unless a frame is in use (17 R304); false where a frame's header must be waited for. -/
def State.writeSavebase (s : State) (a : Agent) (v : DWord) : Bool × State :=
  match s.framesUsed a (List.range s.frameCount) with
  | (none, s) => (false, s)
  | (some true, s) => (true, s)
  | (some false, s) => (true, { s with savebase := masked v 0x1FFFFFFFFC00FFF#64, sched := { s.sched with skipped := [] } })

/-- FWCTL (25 R377): a request to a slot that is unverified or already active is ignored. -/
def State.writeFwctl (s : State) (v : DWord) : State :=
  let tgt : BitVec 1 := v.extractLsb' 1 1
  if bitOf v.toNat 2 then
    (if !s.svc.ok.getLsbD tgt.toNat || tgt == s.svc.act then s else { s with svc := { s.svc with tgt, req := true } })
  else { s with svc := { s.svc with tgt, req := false } }

/-- The effect of a CSRW on a CSR but SAVEBASE (00 R8: reserved bits are ignored, read-only ones kept). -/
def State.writeCsr (s : State) (w : Who) (c : Nat) (v : DWord) : State :=
  match c with
  | 0x800 => { s with modeNext := some (masked v 0xCFFFF#64) }
  | 0x801 => s.modCore w.core fun co => { co with trapvec := masked v 0x1FFFFFFFFFFC001#64 }
  | 0x802 => s.modCore w.core fun co => { co with gauge := masked v 0x1FFF#64 }
  | 0x803 => s.modCore w.core fun co => { co with gaugerate := masked v 0xFFFF#64 }
  | 0x810 =>
    s.modCtx w.core w.ctx fun x =>
      if x.handler then { x with trapCause := putF x.trapCause 46 2 (bitsOf v.toNat 46 2) } else x
  | 0xC00 => s.writeFwctl v
  | _ => s

/-- The privilege an access to a CSR needs beyond the form's own (R70, 24 R364). -/
def State.csrAllowed (s : State) (w : Who) (c : Nat) (write : Bool) : Bool :=
  if c < 0x800 then true
  else if c < 0xC00 then
    s.privileged w && !(write && c == 0x800 && s.partOf w.core w.ctx != 0)
  else isServiceCtx w.core w.ctx

/-- The check of R66 on the number's bit 11 does not depend on the guard. -/
def execCsrr (g : Guard) (d : Reg) (c : BitVec 12) (s : State) : Res :=
  onIssue s fun i s0 => i.whos.foldl (fun st w =>
    if !csrAssigned c then trapIllegal i w st
    else if !s0.csrAllowed w c.toNat false then trapPrivilege i w st
    else if s0.guardOk w g then st.setReg64 w d (st.csr w c.toNat) else st) s0

def execCsrw (g : Guard) (d : Reg) (c : BitVec 12) (s : State) : Res :=
  onIssue s fun i s0 => i.whos.foldl (fun st w =>
    if !csrAssigned c then trapIllegal i w st
    else if !s0.privileged w || !s0.csrAllowed w c.toNat true then trapPrivilege i w st
    else if !s0.guardOk w g then st
    else if c = 0x804#12 then
      match st.writeSavebase (.strand w i.pc) (st.reg64 w d) with
      | (true, st) => st
      | (false, st) => markWait w st
    else st.writeCsr w c.toNat (st.reg64 w d)) s0

/-! ### SVC (R234, R235; 25 R376) -/

/-- Offset of the service ring that a partition's batches of a die go to: HOSTRING or FWRING. -/
def State.ringOff (s : State) (die part : Nat) : Nat := offSvc die + (if bitOf s.mode.toNat (8 + part) then 0x20 else 0)
/-- Records a ring still has room for. -/
def State.ringRoom (s : State) (off : Nat) : Nat :=
  s.ctlF (off + 8) 0 32 - (s.ctlF (off + 16) 0 32 + 2 ^ 32 - s.ctlF (off + 24) 0 32) % 2 ^ 32
/-- The physical address of record n of a ring. -/
def State.ringRecord (s : State) (off n : Nat) : Nat :=
  (s.ctl64 off).toNat + 1088 * (n % s.ctlF (off + 8) 0 32)

/-- The batches that calls form: one per warp, ascending; lead calls alone. -/
def callBatches (calls : List (Who × Nat × DWord × DWord)) : List (List (Who × Nat × DWord × DWord)) :=
  let warps := (calls.map fun c => c.1.tid.map (· / 32)).eraseDups
  warps.map fun k => calls.filter fun c => c.1.tid.map (· / 32) == k

/-- The 64-byte pieces of a record. -/
def recordPieces (base : Nat) : List Nat := (List.range 17).map fun k => base + 64 * k

/-- The pieces of the next n records of a ring are ready at their homes. -/
def State.ringReady (s : State) (a : Agent) (off n : Nat) : Bool × State :=
  s.allReady a true ((List.range n).flatMap fun j => recordPieces (s.ringRecord off (s.ctlF (off + 16) 0 32 + j)))

def execSvc (g : Guard) (d a : Reg) (s : State) : Res :=
  eachExec g (fun i w st =>
    if isServiceCtx w.core w.ctx then trapOperand i w st
    else if !st.releaseReady w true then markWait w st
    else
      let args : DWord × DWord := match w.tid with
        | none => (st.sreg w a.toNat, st.sreg w (a.toNat + 1))
        | some t => (st.gpair w t a.toNat, st.gpair w t (a.toNat + 2))
      let calls := ((st.cur.map (·.calls)).getD []) ++ [(w, d.toNat, args.1, args.2)]
      let off := st.ringOff (coreDie w.core) (st.partOf w.core w.ctx)
      let n := (callBatches calls).length
      if st.ringRoom off < n then markWait w st
      else match st.ringReady (.strand w i.pc) off n with
        | (false, st) => markWait w st
        | (true, st) => { st with cur := st.cur.map fun j => { j with calls } }) s

/-- A batch record's 1,088 bytes (R235). -/
def batchBits (c : Who) (part : Nat) (seq : DWord) (calls : List (Who × Nat × DWord × DWord)) : Nat :=
  let lane (w : Who) : Nat := w.tid.getD 0 % 32
  let mask := calls.foldl (fun m x => m ||| 2 ^ lane x.1) 0
  let dw0 := mask + c.ctx * 2 ^ 32 + c.core * 2 ^ 35 + c.tid.getD 0 / 32 * 2 ^ 45 + part * 2 ^ 50 +
    (if c.tid.isNone then 2 ^ 53 else 0)
  packBytes ([(0, 8, dw0), (8, 8, seq.toNat)] ++
    calls.flatMap fun x => [(64 + 32 * lane x.1, 8, x.2.2.1.toNat), (72 + 32 * lane x.1, 8, x.2.2.2.toNat)])

/-- Form one batch: its record is written to its ring, TAIL advances, the service is signalled (R376). -/
def State.formBatch (s : State) (calls : List (Who × Nat × DWord × DWord)) : State :=
  match calls with
  | [] => s
  | (w, _) :: _ =>
    let die := coreDie w.core
    let part := s.partOf w.core w.ctx
    let off := s.ringOff die part
    let host := bitOf s.mode.toNat (8 + part)
    let seq := tblGet 0#64 s.svc.seq die
    let n := s.ctlF (off + 16) 0 32
    let base := s.ringRecord off n
    let v := batchBits w part seq calls
    let s := s.pokeLines (recordPieces base) v
    let s := s.setCtlF (off + 16) 0 32 (n + 1)
    let b : Batch :=
      { die, host, index := n, addr := base, seq, part, callers := calls.map fun x => (x.1.tid.getD 0 % 32, x.1, x.2.1)
        args := calls.map fun x => (x.1.tid.getD 0 % 32, x.2.2.1, x.2.2.2), formed := s.fresh }
    let s := { s with svc := { s.svc with batches := s.svc.batches ++ [b], seq := tblPut 0#64 s.svc.seq die (seq + 1) } }
    if host then { s with svc := { s.svc with msix := tblPut 0 s.svc.msix die (tblGet 0 s.svc.msix die + 1) } } else s.signalService die

/-- The batches of a group's calls, formed as its bundle commits. -/
def State.formBatches (s : State) (calls : List (Who × Nat × DWord × DWord)) : State :=
  (callBatches calls).foldl State.formBatch s

/-- Complete a batch, whose record is ready at its homes (R236): each caller that still waits receives its reply field, as an
acquire at sys scope; one whose field's line holds poison takes the error of a load (22 R347; log 86). -/
def State.completeBatch (s : State) (b : Batch) : State :=
  let s := { s with svc := { s.svc with batches := s.svc.batches.filter fun x => x.seq != b.seq || x.die != b.die } }
  b.callers.foldl (fun s c =>
    let (lane, w, d) := c
    let pa := b.addr + 64 + 32 * lane + 16
    if 8 ≤ w.ctx then s
    else if s.poisonAt pa ≠ 0 then s.asyncTrap w 16 (s.poisonAt pa - 1) 0#64 0#64 (if w.tid.isNone then 1 else 0)
    else
      let v := BitVec.ofNat 64 (s.homeRead pa 8)
      ((s.setReg64 w (BitVec.ofNat 7 d) v).modStrand w fun x => { x with arr := s.fresh }).dropDemand w.core) s

/-! ### TRAP, ERET (R237, 24 R357) -/

def execTrap (g : Guard) (a : Reg) (s : State) : Res :=
  eachExec g (fun i w st => trapAs i w 11 0 0#64 (BitVec.ofNat 64 (st.reg w a % 65536)) false st) s

/-- The pieces of the frame that a return reads or writes: the lead frame where it restores, else its PC and the next record. -/
def Ctx.returnPieces (x : Ctx) (pas : List Nat) : List Nat := if (x.traps.drop 1).isEmpty then pas.take 12 else pas.drop 11 |>.take 2

/-- The release that the abort of a task is, as its yield would be (R217, 24 R369), is complete: every access that its lead
strand may have observed has performed, but for a store that waits at poison for a place in the trap list (22 R347). -/
def State.abortReady (s : State) (w : Who) : Bool :=
  s.loadsDone w && s.castsDone w && (s.core w.core).stores.all fun t => t.done || (s.strand w).arr ≤ t.id || s.poisonAt t.pa != 0

/-- The return waits until what the handler wrote has performed (21 R384), and for its frame, and for the words of the bundle that
it is to skip, whose number is open where they cannot be fetched (log 33). A block that does not translate, or holds poison,
kills the context. -/
def execEret (g : Guard) (s : State) : Res :=
  eachPriv g (fun i w st =>
    if !(st.ctx w.core w.ctx).handler || w.tid.isSome then trapOperand i w st
    else if !(st.loadsDone w && st.ownStoresDone w) then markWait w st
    else if (st.ctx w.core w.ctx).abortsTask then waitUnless (st.abortReady w) w (fun st => st.eret w.core w.ctx 0 []) st
    else if ((st.ctx w.core w.ctx).traps.drop 1).head?.any fun t => t.service.isSome then markWait w st
    else
      let x := st.ctx w.core w.ctx
      let frame := st.leadFrame w.core w.ctx
      let cause := ((x.traps.drop 1 ++ x.traps).head?.map (·.cause)).getD 0
      match st.span (.strand w i.pc) (coreDie w.core) (st.partOf w.core w.ctx) false .write frame none 16 with
      | (.wait, st) => markWait w st
      | (.fault _ _ va, st) => st.killCtx w.core w.ctx cause va
      | (.ok pas, st) =>
        let used := x.returnPieces pas
        if st.poisoned used then
          st.killCtx w.core w.ctx cause (frame + BitVec.ofNat 64 (64 * (st.soundPieces used + if (x.traps.drop 1).isEmpty then 0 else 11)))
        else
          let skips := x.traps.head?.any fun t => x.act t == 2
          match (if skips then st.fetchWords w (.strand w i.pc) false x.trapPc 4 [] else (.ok [], st)) with
          | (.wait, st) => markWait w st
          | (.ok ws, st) => st.eret w.core w.ctx ws.length pas
          | (.fault .., st) => st.eret w.core w.ctx (bitsOf (Config.freeValue (st.freeKey w 3)).toNat 0 2 + 1) pas) s

/-! ### WFE, EVSIG (R236) -/

def execWfe (g : Guard) (s : State) : Res :=
  eachExec g (fun _ w st =>
    waitUnless (st.ctx w.core w.ctx).event w (fun st => st.modCtx w.core w.ctx fun x => { x with event := false }) st) s

/-- A thread's operand is one g-register, `EVSIG ga` (R236): its bits above 31 are zero (log 40). With a[63] = 1 nonzero bits
[62:57] are an illegal operand, and an address at which no outstanding batch's record stands completes nothing (log 87). -/
def execEvsig (g : Guard) (a : Reg) (s : State) : Res :=
  eachExec g (fun i w st =>
    let n := st.reg w a
    if bitOf n 63 then
      (if !isServiceCtx w.core w.ctx then trapPrivilege i w st
       else if bitsOf n 57 6 ≠ 0 then trapOperand i w st
       else access i w .read 1 (sext57 n) (fun r st =>
         match st.svc.batches.find? fun b => b.addr == r.pa with
         | none => st
         | some b =>
           match st.allReady (.strand w i.pc) false (recordPieces b.addr) with
           | (false, st) => markWait w st
           | (true, st) => st.completeBatch b) st)
    else
      let core := bitsOf n 0 10
      if n / 2 ^ 13 ≠ 0 ∨ 640 ≤ core ∨ (if isServiceCtx core (bitsOf n 10 3) then 0 else st.corePart core) ≠ st.partOf w.core w.ctx then trapOperand i w st
      else st.modCtx core (bitsOf n 10 3) fun x => { x with event := true }) s

/-! ### OWN, TLBINV (R238, R239) -/

def regionOwner (host : Bool) : Region := if host then .host else .acc

/-- The transfer is made by steps of its own; the executor waits until it has completed, whatever the region does next. -/
def execOwn (g : Guard) (a : Reg) (s : State) : Res :=
  eachPriv g (fun i w st =>
    let v := (st.reg64 w a).toNat
    let host := bitOf v 0
    access i w .read 1 (sext57 (bitsOf v 21 36 * 2 ^ 21)) (fun r st =>
      let reg := regionOf r.pa
      if st.region reg == regionOwner host || inCtl r.pa || (st.strand w).wait == .ownDone then st
      else waitAs w (.own reg host) (if host then st.wantHost reg else st.wantAcc reg)) st) s

/-- The invalidation is a step of its own (TLB_INVALIDATION_DONE); the executor waits for it. -/
def execTlbinv (g : Guard) (a : Reg) (s : State) : Res :=
  eachPriv g (fun _ w st =>
    if (st.strand w).wait = .tlbinvDone then st.modStrand w fun x => { x with wait := .none }
    else waitAs w (.tlbinv (st.reg64 w a)) st) s

/-! ### CTXSV, CTXLD (R240, 17 R303) -/

/-- The save is a spill, made by steps of their own; the executor waits until the task has left the context. -/
def execCtxsv (g : Guard) (a : Reg) (s : State) : Res :=
  eachPriv g (fun i w st =>
    let v := (st.reg64 w a).toNat
    let k := v % 8
    let target := st.ctx w.core k
    match (st.strand w).wait with
    | .ctxsv j came =>
      if j = k && (match target.task with | some t => t.came == came | none => false) then waitAs w (.ctxsv j came) st
      else st.modStrand w fun x => { x with wait := .none }
    | _ =>
      match target.task with
      | none => trapOperand i w st
      | some t =>
        if v / 8 ≠ 0 ∨ k = w.ctx ∨ isServiceCtx w.core k ∨ st.partOf w.core k ≠ st.partOf w.core w.ctx then trapOperand i w st
        else waitAs w (.ctxsv k t.came) st) s

/-- The spilled task that a frame's address and header name. -/
def State.spilledAt (s : State) (core : Nat) (va : DWord) : Option Spilled :=
  s.sched.spilled.find? fun sp => sp.core == core && s.frameVa sp.frame == va && sp.frame < s.frameCount

/-- Restore the task saved in a frame into a free context (R303). A frame that is not ready is waited for, and a fault of its
body is served as for the dispatcher's resumption (R304). -/
def execCtxld (g : Guard) (a : Reg) (s : State) : Res :=
  eachPriv g (fun i w st =>
    let va := st.reg64 w a
    match st.spilledAt w.core va with
    | none => trapOperand i w st
    | some sp =>
      match st.frameSpan (.strand w i.pc) (coreDie w.core) sp.frame 0 1 with
      | (.wait, st) => markWait w st
      | (.fault .., st) => trapOperand i w st
      | (.ok pas, st) =>
        let header := st.homeRead (pas.getD 0 0) 64
        if !sp.matchesFrame header || fld header 2 0 64 ≠ sp.task.record.toNat then trapOperand i w st
        else
          let room : Bool := match st.launch sp.task.slot with
            | some l => (st.hasResv w.core sp.task.slot || fitsBeside l (st.reserved w.core)) && st.mxFree w.core sp.task.slot l
            | none => false
          match st.hwFor w.core sp.key with
          | none => markWait w st
          | some k =>
            if !room || st.spilledWaits sp.key then markWait w st
            else match st.resume (.strand w i.pc) sp k with
              | (.ok _, st) => st
              | (.wait, st) => markWait w st
              | (.fault c sub fva, st) => if 16 ≤ c then st.frameFault sp c sub fva else markWait w (st.frameFault sp c sub fva)) s

end Sys2Proof.Machine
end

