-- ==== Sys2Proof/Machine/Words.lean ====
section
/-! DEFINITION. The meaning of the word in one slot of the bundle being issued (02 R26, R44). -/

namespace Sys2Proof.Machine

/-- Run the word of a slot for the bundle being issued; a step that is no word has no place in a slot. -/
def runWord (i : Instr) (s : State) : Res :=
  match i with
  | .iadd g d a b => execIadd g d a b s
  | .isub g d a b => execIsub g d a b s
  | .imul g d a b => execImul g d a b s
  | .imad g d a b => execImad g d a b s
  | .icmp g x y hc k => execIcmp g x y hc k s
  | .icmpD g x y hc k => execIcmpD g x y hc k s
  | .iand g d a => execIand g d a s
  | .ior g d a => execIor g d a s
  | .ixor g d a => execIxor g d a s
  | .ishl g d a => execIshl g d a s
  | .ishr g d a => execIshr g d a s
  | .isra g d a => execIsra g d a s
  | .imin g d a => execImin g d a s
  | .imax g d a => execImax g d a s
  | .iminu g d a => execIminu g d a s
  | .imaxu g d a => execImaxu g d a s
  | .imulh g d a => execImulh g d a s
  | .imulhu g d a => execImulhu g d a s
  | .iabs g d a => execIabs g d a s
  | .popc g d a => execPopc g d a s
  | .clz g d a => execClz g d a s
  | .brev g d a => execBrev g d a s
  | .bfe g d a => execBfe g d a s
  | .bfi g d a => execBfi g d a s
  | .lea g d a k => execLea g d a k s
  | .plop g d a t => execPlop g d a t s
  | .pset g d a => execPset g d a s
  | .p2g g d blk => execP2g g d blk s
  | .g2p g blk a => execG2p g blk a s
  | .iaddD g d a => execIaddD g d a s
  | .iaddImm g d a n => execIaddImm g d a n s
  | .ishlImm g d a n => execIshlImm g d a n s
  | .ishrImm g d a n => execIshrImm g d a n s
  | .israImm g d a n => execIsraImm g d a n s
  | .iandImm g d a n => execIandImm g d a n s
  | .isel g d a p => execIsel g d a p s
  | .movi g d n => execMovi g d n s
  | .movh g d n => execMovh g d n s
  | .movh20 g d n => execMovh20 g d n s
  | .fadd g d a b => execFadd g d a b s
  | .fsub g d a b => execFsub g d a b s
  | .fmul g d a b => execFmul g d a b s
  | .ffma g d a b => execFfma g d a b s
  | .ffms g d a b => execFfms g d a b s
  | .pkfmaF16 g d a b => execPkfmaF16 g d a b s
  | .pkfmaBf16 g d a b => execPkfmaBf16 g d a b s
  | .fmin g d a => execFmin g d a s
  | .fmax g d a => execFmax g d a s
  | .pkaddF16 g d a => execPkaddF16 g d a s
  | .pkaddBf16 g d a => execPkaddBf16 g d a s
  | .frnd g d a rm => execFrnd g d a rm s
  | .fclass g d a => execFclass g d a s
  | .faddRm g d a rm => execFaddRm g d a rm s
  | .fsubRm g d a rm => execFsubRm g d a rm s
  | .fmulRm g d a rm => execFmulRm g d a rm s
  | .dadd g d a b => execDadd g d a b s
  | .dmul g d a b => execDmul g d a b s
  | .dfma g d a b => execDfma g d a b s
  | .ddiv g d a b => execDdiv g d a b s
  | .fdiv g d a b => execFdiv g d a b s
  | .dcmp g x y hc k => execDcmp g x y hc k s
  | .dmin g d a => execDmin g d a s
  | .dmax g d a => execDmax g d a s
  | .daddRm g d a rm => execDaddRm g d a rm s
  | .dmulRm g d a rm => execDmulRm g d a rm s
  | .dsqrt g d a rm => execDsqrt g d a rm s
  | .fsqrt g d a rm => execFsqrt g d a rm s
  | .fexp2 g d a => execFexp2 g d a s
  | .flog2 g d a => execFlog2 g d a s
  | .fsin g d a => execFsin g d a s
  | .fcos g d a => execFcos g d a s
  | .frcp g d a => execFrcp g d a s
  | .frsq g d a => execFrsq g d a s
  | .fcmp g x y hc k => execFcmp g x y hc k s
  | .qmax g a j => execQmax g a j s
  | .qcvtI8 g d a => execQcvtI8 g d a s
  | .qcvtCb4 g d a => execQcvtCb4 g d a s
  | .dqI8 g d a => execDqI8 g d a s
  | .dqCb4 g d a => execDqCb4 g d a s
  | .cbsel g d a => execCbsel g d a s
  | .cvt g rm d a dst src => execCvt g rm d a dst src s
  | .shflIdx g d a j => execShflIdx g d a j s
  | .shflUp g d a j => execShflUp g d a j s
  | .shflDown g d a j => execShflDown g d a j s
  | .shflXor g d a j => execShflXor g d a j s
  | .voteAny g d a j => execVoteAny g d a j s
  | .voteAll g d a j => execVoteAll g d a j s
  | .voteBallot g d a j => execVoteBallot g d a j s
  | .matchLanes g d a j => execMatchLanes g d a j s
  | .scanAdd g d a j => execScanAdd g d a j s
  | .scanAddEx g d a j => execScanAddEx g d a j s
  | .redAdd g d a j => execRedAdd g d a j s
  | .redMin g d a j => execRedMin g d a j s
  | .redMax g d a j => execRedMax g d a j s
  | .fredAdd g d a j => execFredAdd g d a j s
  | .jset g a j => execJset g a j s
  | .jsetGrp g j => execJsetGrp g j s
  | .join g j => execJoin g j s
  | .ldg g d a sz off => execLdg g d a sz off s
  | .lds g d a sz off => execLds g d a sz off s
  | .lda g d a w scp off => execLda g d a w scp off s
  | .pref g a m off => execPref g a m off s
  | .cinv g a scp off => execCinv g a scp off s
  | .cpin g a off => execCpin g a off s
  | .cunpin g a off => execCunpin g a off s
  | .stg g d a sz off => execStg g d a sz off s
  | .sts g d a sz off => execSts g d a sz off s
  | .stgRel g d a w scp off => execStgRel g d a w scp off s
  | .stc g d a => execStc g d a s
  | .atomAdd g d a ord scp w off => execAtomAdd g d a ord scp w off s
  | .atomMin g d a ord scp w off => execAtomMin g d a ord scp w off s
  | .atomMax g d a ord scp w off => execAtomMax g d a ord scp w off s
  | .atomAnd g d a ord scp w off => execAtomAnd g d a ord scp w off s
  | .atomOr g d a ord scp w off => execAtomOr g d a ord scp w off s
  | .atomXor g d a ord scp w off => execAtomXor g d a ord scp w off s
  | .xchg g d a ord scp w off => execXchg g d a ord scp w off s
  | .cas g d a ord scp w off => execCas g d a ord scp w off s
  | .xadd g d a ord scp off => execXadd g d a ord scp off s
  | .xrd g d a ord scp off => execXrd g d a ord scp off s
  | .xrd64 g d a ord scp off => execXrd64 g d a ord scp off s
  | .xclr g d a ord scp off => execXclr g d a ord scp off s
  | .atomsAdd g d a w off => execAtomsAdd g d a w off s
  | .atomsMin g d a w off => execAtomsMin g d a w off s
  | .atomsMax g d a w off => execAtomsMax g d a w off s
  | .atomsAnd g d a w off => execAtomsAnd g d a w off s
  | .atomsOr g d a w off => execAtomsOr g d a w off s
  | .atomsXor g d a w off => execAtomsXor g d a w off s
  | .atomsXchg g d a w off => execAtomsXchg g d a w off s
  | .atomsCas g d a w off => execAtomsCas g d a w off s
  | .fenceAcq g scp => execFenceAcq g scp s
  | .fenceRel g scp => execFenceRel g scp s
  | .fenceAr g scp => execFenceAr g scp s
  | .drain g => execDrain g s
  | .waitc g k n => execWaitc g k n s
  | .bar g => execBar g s
  | .gbara g a => execGbara g a s
  | .gbarw g a => execGbarw g a s
  | .awinit g d a => execAwinit g d a s
  | .awadd g d a => execAwadd g d a s
  | .awwait g d h => execAwwait g d h s
  | .awtest g k a => execAwtest g k a s
  | .bra g o => execBra g o s
  | .call g o => execCall g o s
  | .brx g a => execBrx g a s
  | .callx g a => execCallx g a s
  | .ret g => execRet g s
  | .exit g => execExit g s
  | .nop g => execNop g s
  | .endl g => execEndl g s
  | .brk g => execBrk g s
  | .loopLc0 g a o => execLoopLc0 g a o s
  | .loopLc1 g a o => execLoopLc1 g a o s
  | .loopp g a t o => execLoopp g a t o s
  | .item g a o => execItem g a o s
  | .cpy g a => execCpy g a s
  | .cpyTag g a => execCpyTag g a s
  | .cpys g d a => execCpys g d a s
  | .gath g a e => execGath g a e s
  | .mxcfg g a => execMxcfg g a s
  | .mxshape g a => execMxshape g a s
  | .mxldw g a => execMxldw g a s
  | .mxq g a => execMxq g a s
  | .mxdrain g => execMxdrain g s
  | .cbload g n a => execCbload g n a s
  | .ntake g => execNtake g s
  | .npass g => execNpass g s
  | .ntest g d => execNtest g d s
  | .ray g a => execRay g a s
  | .rayAny g a => execRayAny g a s
  | .ovlp g a => execOvlp g a s
  | .refit g a => execRefit g a s
  | .draw g a => execDraw g a s
  | .drawEz g a => execDrawEz g a s
  | .tenq g a => execTenq g a s
  | .tdec g a => execTdec g a s
  | .lnch g d a => execLnch g d a s
  | .iqpush g a => execIqpush g a s
  | .wave g d a b => execWave g d a b s
  | .iqclose g => execIqclose g s
  | .wavew g => execWavew g s
  | .setdl g a => execSetdl g a s
  | .restag g d a => execRestag g d a s
  | .resq g d a => execResq g d a s
  | .resdrop g a => execResdrop g a s
  | .movsr g d f => execMovsr g d f s
  | .csrr g d c => execCsrr g d c s
  | .csrw g d c => execCsrw g d c s
  | .svc g d a => execSvc g d a s
  | .trap g a => execTrap g a s
  | .eret g => execEret g s
  | .wfe g => execWfe g s
  | .evsig g a => execEvsig g a s
  | .tlbinv g a => execTlbinv g a s
  | .own g a => execOwn g a s
  | .ctxsv g a => execCtxsv g a s
  | .ctxld g a => execCtxld g a s
  | _ => .next s

end Sys2Proof.Machine
end

