-- ==== Sys2Proof/Machine/Bundle.lean ====
section
/-! DEFINITION. Issuing a bundle: what an executor would issue next, whether it can, and running the slots all or
none (02 R26 to R48, R382; 05 R241; 06 R145; 11 R246, R249). -/

namespace Sys2Proof.Machine

/-! ### Keys and choices -/

/-- The element of least key, the first of equals. -/
def leastBy {α : Type} (key : α → Nat) : List α → Option α
  | [] => none
  | x :: t => match leastBy key t with
    | none => some x
    | some y => if key x ≤ key y then some x else some y

/-- Insert by key, after those of equal key. -/
def insertBy {α : Type} (key : α → Nat) (x : α) : List α → List α
  | [] => [x]
  | y :: t => if key x < key y then x :: y :: t else y :: insertBy key x t

/-- Sort by key, equals in their order. -/
def sortBy {α : Type} (key : α → Nat) (l : List α) : List α := l.foldl (fun a x => insertBy key x a) []

/-! ### What stands at an executor's PC -/

/-- What an executor would issue in its next cycle. -/
inductive Next where
  /-- One empty bundle, `last` of a header-only run or not of one (R31). -/
  | empty (b : Bundle) (header : Bool)
  /-- The instructions of a bundle. -/
  | run (b : Bundle)
  /-- An instruction-fetch fault or an illegal instruction (R382), with the slot as a trap record numbers it. -/
  | bad (cause sub : Nat) (va : DWord) (slot : Nat)
  /-- The fetch waits for a line. -/
  | wait
  deriving DecidableEq, Repr

/-- Who fetches. -/
def Who.ex (w : Who) : Executor := if w.tid.isSome then .thread else .lead

/-- Registers an executor may name: the launch's per thread, or 64 in lead code (03 R67). -/
def State.regBound (s : State) (w : Who) : Nat :=
  if w.tid.isSome then ((s.launchOf w.core w.ctx).map Launch.regs).getD 0 else 64

/-- A word of slot A that the state of the loops makes an illegal instruction (05 R125, R126). -/
def State.loopIllegal (s : State) (w : Who) (b : Bundle) : Bool :=
  match b.a with
  | none => false
  | some i => s.guardOk w i.guard && match i with
    | .loopLc0 .. | .loopp .. => (s.loop0 w).isOpen || (s.loop1 w).isOpen
    | .loopLc1 .. => (s.loop1 w).isOpen
    | .endl _ | .brk _ => !(s.loop0 w).isOpen && !(s.loop1 w).isOpen
    | _ => false

/-- Fetch and decode at an executor's PC. An address that is no multiple of 4, which only a task's CODE can be (09 R216),
is fetched from by nobody: its misalignment trap is treated as R382 treats a fetch fault, which the manual does not say
(log 65). -/
def State.nextOf (s : State) (w : Who) : Next × State :=
  let x := s.strand w
  if x.pc.toNat % 4 ≠ 0 then (.bad 3 0 x.pc 3, s)
  else match s.fetchWords w (.strand w x.pc) (!s.privileged w) x.pc 4 [] with
    | (.wait, s) => (.wait, s)
    | (.fault c sub va, s) => (.bad c sub va 3, s)
    | (.ok ws, s) =>
      match decodeBundle w.ex ws with
      | .error _ => (.bad 1 0 0#64 3, s)
      | .ok b =>
        match b.check w.ex (s.regBound w) with
        | .error _ => (.bad 1 0 0#64 3, s)
        | .ok b =>
          if s.loopIllegal w b then (.bad 1 0 0#64 0, s)
          else if b.isEmpty then (.empty b true, s)
          else if x.run < b.empties then (.empty b false, s)
          else (.run b, s)

/-- Class, charge, and FP64 use of what would issue (R35, R256; 01 R22). -/
def Next.cls : Next → Nat
  | .run b => b.cls
  | _ => 0
def Next.charge : Next → Nat
  | .run b => b.effWeight
  | .empty b true => b.weight
  | _ => 0
def Next.fp64 : Next → Bool
  | .run b => b.slots.any fun p => p.2.info.major == 4
  | _ => false
/-- The instructions that would issue. -/
def Next.instrs : Next → List Instr
  | .run b => b.slots.map (·.2)
  | _ => []
def Next.bundle : Next → Option Bundle
  | .run b => some b
  | .empty b _ => some b
  | _ => none

/-! ### Readiness apart from the slots' own conditions (R246) -/

/-- A guard's predicate (R40). -/
def guardSrc (g : Guard) : List Opnd := if g = 63#6 then [] else [.pred g.toNat]

/-- The operand that stands for the exit of the task's last thread (05 R241). -/
def lastExit : Opnd := .mask 8

/-- What a bundle's instructions read, guards included. -/
def readsOf (ex : Executor) (is : List Instr) : List Opnd :=
  is.flatMap fun i => guardSrc i.guard ++ i.srcs ex ++ (match i with | .wavew _ => [lastExit] | _ => [])
def writesOf (ex : Executor) (is : List Instr) : List Opnd := is.flatMap fun i => i.dsts ex

/-- Registers of an executor with a write outstanding (R33). -/
def State.outstanding (s : State) (w : Who) : List Opnd :=
  let co := s.core w.core
  (co.loads.filter fun l => l.who == w && !l.discard).filterMap (fun l => l.dst.map fun d => .reg d.1 d.2) ++
  (co.stores.filter fun t => t.who == w && !t.discard).filterMap (fun t => t.dst.map fun d => .reg d.1 d.2) ++
  s.svc.batches.flatMap fun b => (b.callers.filter fun c => c.2.1 == w).map fun c => .reg c.2.2 (if w.tid.isSome then 2 else 1)

/-- Nothing but the slots themselves holds the executor's next issue back. -/
def State.unheld (s : State) (w : Who) (n : Next) : Bool :=
  let x := s.strand w
  let now := (s.core w.core).cyc.toNat
  let reads := readsOf w.ex n.instrs
  let all := reads ++ writesOf w.ex n.instrs
  x.hold ≤ now &&
    (x.dist.all fun d => d.2 ≤ now || !(all.any fun o => o.overlaps d.1)) &&
    ((s.outstanding w).all fun o => !(all.any fun p => p.overlaps o)) &&
    (match n with | .wait => false | _ => true)

/-- The executor may issue at all: its context is resident and not stopped (R246, 17 R302, 24 R353); in handler mode its lead
strand may, until it takes a trap of its own (24 R357). -/
def State.mayIssue (s : State) (w : Who) : Bool :=
  let x := s.ctx w.core w.ctx
  x.resident && ((x.handler && w.tid.isNone && !x.traps.any (·.fatal)) || (!x.stopped && !x.yielding && x.traps.isEmpty))

/-! ### Running the slots (R44, R45) -/

/-- The registers of a table that one slot changed are taken from its result. -/
def mergeTbl {n : Nat} (base cur new : Tbl (BitVec n)) : Tbl (BitVec n) :=
  ((base ++ new).map (·.1)).foldl (fun t k =>
    if tblGet 0#n new k = tblGet 0#n base k then t else tblPut 0#n t k (tblGet 0#n new k)) cur

/-- Bits that one slot changed are taken from its result. -/
def mergeBits {n : Nat} (base cur new : BitVec n) : BitVec n := cur ^^^ (base ^^^ new)

/-- A thread's registers as another slot left them, merged. -/
def Thread.mergeRegs (cur base new : Thread) : Thread :=
  { cur with
    g := mergeTbl base.g cur.g new.g, p := mergeBits base.p cur.p new.p, sel := mergeBits base.sel cur.sel new.sel
    latchPend := if new.latchPend = base.latchPend then cur.latchPend else new.latchPend }

/-- A thread with the registers of another state of it. -/
def Thread.withRegs (cur src : Thread) : Thread :=
  { cur with g := src.g, p := src.p, sel := src.sel, latchPend := src.latchPend }

/-- Put a context's registers, its deadline and the closing of its queue back to what they were before the bundle; threads
that are gone stay gone. -/
def Ctx.rewindRegs (cur base : Ctx) : Ctx :=
  { cur with
    s := base.s, q := base.q, masks := base.masks, closing := base.closing
    task := match cur.task, base.task with | some t, some b => some { t with deadline := b.deadline } | t, _ => t
    threads := cur.threads.map fun e => (e.1, match e.2, tblGet none base.threads e.1 with
      | some t, some b => some (t.withRegs b)
      | t, _ => t) }

/-- The registers of a context with the changes of an earlier slot (`part`) merged in. -/
def Ctx.mergeRegs (cur base part : Ctx) : Ctx :=
  { cur with
    s := mergeTbl base.s cur.s part.s, q := mergeBits base.q cur.q part.q, masks := mergeTbl base.masks cur.masks part.masks
    closing := cur.closing || part.closing
    task := match cur.task, part.task with | some t, some p => some { t with deadline := p.deadline } | t, _ => t
    threads := cur.threads.map fun e => (e.1, match e.2, tblGet none base.threads e.1, tblGet none part.threads e.1 with
      | some t, some b, some p => some (t.mergeRegs b p)
      | t, _, _ => t) }

/-- The state a word of a slot leaves; only words that have no place in a slot leave it as it was. -/
def runSlot (p : SlotPos × Instr) (s : State) : State :=
  match runWord p.2 { s with cur := s.cur.map fun i => { i with slot := p.1 } } with
  | .next s' => s'
  | _ => s

/-- Run slots one after another, each from the registers before the bundle, all else flowing on; then merge what
each wrote. -/
def runSlots (base : Ctx) (c k : Nat) : List (SlotPos × Instr) → State → State
  | [], s => s
  | [p], s => runSlot p s
  | p :: ps, s =>
    let s1 := runSlot p s
    let part := s1.ctx c k
    let s2 := runSlots base c k ps (s1.modCtx c k fun x => x.rewindRegs base)
    if (s2.ctx c k).resident then s2.modCtx c k fun x => x.mergeRegs base part else s2

/-- Slots in the order they run: B, C, then A. -/
def slotOrder (b : Bundle) : List (SlotPos × Instr) :=
  (b.b.toList.map fun i => (.b, i)) ++ (b.c.toList.map fun i => (.c, i)) ++ (b.a.toList.map fun i => (.a, i))

/-- What a group's issue has come to so far: whether a thread of it has issued, the service calls of its bundle and the
traps of its threads. -/
structure Tally where
  issued : Bool := false
  calls : List (Who × Nat × DWord × DWord) := []
  traps : List (Who × Trap) := []
  deriving DecidableEq, Repr

/-- The issue of a bundle at an executor's PC by a group. -/
def issueFor (c k : Nat) (tids : List Nat) (lead : Bool) (pc : DWord) (b : Bundle) (seen : Memory) (tally : Tally) : Issue :=
  { core := c, ctx := k, tids, lead, pc, words := b.words, seen, calls := tally.calls }

/-- The window of the launch that runs on a context. -/
def State.windowOf (s : State) (c k : Nat) : Memory := (s.core c).window (s.slotOf c k)

/-- Move the PC of the group past the bundle, then run its slots (R27). -/
def runBundle (i : Issue) (b : Bundle) (s : State) : State :=
  let base := s.ctx i.core i.ctx
  let s := { s with cur := some { i with start := s.fresh } }
  let s := i.whos.foldl (fun s w => s.modStrand w fun x => { x with pc := pcAfter i.pc i.words }) s
  runSlots base i.core i.ctx (slotOrder b) s

/-- The executor's region entry becomes the bundle with M = 1 when its first cycle issues (R34); the bundle that a
REPLAY issues first counts once, with M or without (24 R358, log 54). -/
def Strand.enterRegion (x : Strand) (marker : Bool) : Strand :=
  let same := x.reentry && x.pc == x.regionPc
  let n : Nat := (if x.reentry then 1 else 0) + if marker && !same then 1 else 0
  { x with
    regionPc := if marker then x.pc else x.regionPc, regionCnt := x.regionCnt + BitVec.ofNat 32 n, reentry := false }
def State.enterRegion (s : State) (w : Who) (b : Bundle) : State :=
  if (s.strand w).run == 0 && (b.marker || (s.strand w).reentry) then s.modStrand w fun x => x.enterRegion b.marker else s

/-- The saved tasks whose frames a waiting CTXLD found at fault: they leave their lists for the service (17 R304). -/
def keepFrames (s r : State) : State :=
  let ws := r.sched.waits.filter fun w => w.kind == 7 && !(s.sched.waits.any fun v => v.id == w.id)
  if ws.isEmpty then s
  else
    let fs := r.sched.faults.filter fun f => f.exk == 3 && ws.any fun w => w.id == f.op
    ({ s with
      fresh := r.fresh, sched := { s.sched with waits := s.sched.waits ++ ws, faults := s.sched.faults ++ fs } }).lapse

/-- What a waiting bundle leaves: the marks of what its executors wait for, what was set going at the homes, what its requests
and walks have come to, and the frames handed to the service. -/
def keepMarks (ws : List Who) (s r : State) : State :=
  let s := (keepFrames s r).keepPaid r
  let s := { s with homes := { s.homes with
    regions := r.homes.regions, hostDir := r.homes.hostDir, moving := r.homes.moving, owed := r.homes.owed, devWaits := r.homes.devWaits } }
  ws.foldl (fun s w => s.modStrand w fun x =>
    { x with wait := if (r.strand w).wait = .none then x.wait else (r.strand w).wait }) s

/-- An issue slot of the executor has passed (R32). -/
def State.slotSpent (s : State) (w : Who) : State :=
  match w.tid with
  | none => s
  | some t =>
    let th := s.thread w t
    let n := th.slots + 1
    let due := th.latchPend.filter fun e => e.1 ≤ n
    s.setThread w t { th with
      slots := n, latch := (due.getLast?.map (·.2)).getD th.latch, latchPend := th.latchPend.filter fun e => n < e.1
      since := none, defer := 0 }

/-- A thread that waits this cycle is not ready: its age starts again (11 R246, R247). -/
def State.ageless (s : State) (w : Who) : State :=
  match w.tid with
  | none => s
  | some t => if (s.thread w t).since.isNone then s else s.setThread w t { s.thread w t with since := none }

/-- List a trap that a rolled-back run took (R45, R353). -/
def State.relist (s : State) (w : Who) (t : Trap) : State := (s.listTrap w.core w.ctx t).slotSpent w

/-- The traps of an executor in a run, the one of the least slot first (R48). -/
def firstTrap (w : Who) (ts : List Trap) : Option Trap :=
  ([0, 1, 2, 3] : List Nat).findSome? fun n => ts.find? fun t => t.slot == n && t.tid == w.tid

/-- The thread is live still, or the lead strand's context is resident still. -/
def State.present (s : State) (w : Who) : Bool :=
  match w.tid with
  | none => (s.ctx w.core w.ctx).resident
  | some t => (tblGet none (s.ctx w.core w.ctx).threads t).isSome

/-- The distance that a committed bundle holds its executor's next bundle back (R241). A thread whose guard is false takes
no part in a BAR (07 R174). -/
def holdAfter (is : List Instr) (barred : Bool) : Nat :=
  if is.any fun i => match i with | .bar _ => barred | .join _ _ => true | _ => false then 3 else 1

/-- The issue distance of a result, or the cycles of one that the table of R241 does not list, which has no fixed distance
(log 9). -/
def State.distanceOf (s : State) (w : Who) (i : Instr) : Nat :=
  match i with
  | .lnch .. | .resq .. | .restag .. | .awtest .. | .item .. | .call .. | .callx .. | .jset .. | .jsetGrp .. | .loopp .. | .endl .. =>
    1 + bitsOf (Config.freeValue (s.freeKey w 3)).toNat 0 16
  | i => i.distance

/-- What the commit of a bundle does for one executor beyond its slots (R34, R241). A result that a return is still to bring
has no distance. -/
def State.committed (s : State) (w : Who) (b : Bundle) (barred : Bool) : State :=
  let is := b.slots.map (·.2)
  let now := (s.core w.core).cyc.toNat
  let s := if (s.ctx w.core w.ctx).resident then s.modCtx w.core w.ctx fun x => x.wdReset s.ps else s
  if s.present w then
    let marked := is.any fun i => i.info.marker
    let due := s.outstanding w
    let s := s.modStrand w fun x =>
      { x with
        run := 0, wait := .none, arr := s.fresh, hold := now + holdAfter is barred
        regionPc := if marked then x.pc else x.regionPc, regionCnt := if marked then x.regionCnt + 1 else x.regionCnt
        dist := (x.dist.filter fun d => now < d.2) ++
          is.flatMap fun i => ((i.dsts w.ex).filter fun o => !(due.any fun d => d.overlaps o)).map fun o => (o, now + s.distanceOf w i) }
    s.slotSpent w
  else if w.tid.isSome && (s.ctx w.core w.ctx).threads.isEmpty && (s.ctx w.core w.ctx).resident then
    s.modCtx w.core w.ctx fun x => { x with str := { x.str with dist := x.str.dist ++ [(lastExit, now + 2)] } }
  else s

/-- The commit of a yield closes both loops (05 R124); the task ends when its release is complete (09 R217). -/
def Ctx.commitYield (x : Ctx) : Ctx :=
  { x with yielding := true, lc0 := { x.lc0 with isOpen := false }, lc1 := { x.lc1 with isOpen := false } }

/-- The parts of a commit that belong to the bundle: the format pair (08 R199), passes of the needle by the task that issued
it (13 R268), the yield. -/
def State.finishIssue (s : State) (b : Bundle) (task : Option Task) : State :=
  match s.cur with
  | none => s
  | some i =>
    let s := { s with cur := none }
    let s := match i.mxcfg with
      | some p => s.modMx i.core fun m => { m with pair := p, latched := none, fmtAcc := none }
      | none => s
    let s := match task with
      | some t => if 0 < i.passes then s.passNeedle i.core t.slot t.lctx i.passes else s
      | none => s
    if b.yield && i.lead && (s.ctx i.core i.ctx).resident then s.modCtx i.core i.ctx Ctx.commitYield else s

/-- What belongs to a group as a whole: the traps of its threads are listed in ascending TID (24 R353), and its calls form
their batches, one per warp (09 R234). -/
def State.settleTally (s : State) (t : Tally) : State :=
  ((sortBy (fun x : Who × Trap => x.1.key) t.traps).foldl (fun s x => s.relist x.1 x.2) s).formBatches t.calls

/-- The bundle of a yield waits for the task's threads and its pending launches (09 R217). -/
def State.yieldReady (s : State) (w : Who) (b : Bundle) : Bool :=
  !b.yield || ((s.ctx w.core w.ctx).threads.isEmpty && (s.ctx w.core w.ctx).pending.isEmpty)

/-- What became of a group's issue of a bundle. -/
inductive Fate where
  | done
  | waits
  | full
  deriving DecidableEq, Repr

/-- Executors that wait for something else than tokens stand before no other request, unless a walk of theirs waits. -/
def State.leaving (s : State) (l : List Agent) (r : State) : State :=
  l.foldl (fun s a => if r.sched.walks.any fun x => x.ended.isNone && x.joined.contains a then s else s.unqueue a) s

/-- Run a bundle for executors that commit or not together: all wait, or those that trap have issued it and the others have
not (06 R145), or all commit. `seen` is the scratchpad window as the cycle began. -/
def issueTogether (c k : Nat) (lead : Bool) (tids : List Nat) (b : Bundle) (seen : Memory) (tally : Tally) (s : State) :
    Fate × Tally × State :=
  match tids, lead with
  | [], false => (.done, tally, s)
  | _, _ =>
    let whos : List Who := if lead then [{ core := c, ctx := k }] else tids.map fun t => { core := c, ctx := k, tid := some t }
    let pc := match whos with | w :: _ => (s.strand w).pc | [] => 0#64
    let i := issueFor c k tids lead pc b seen tally
    let r := runBundle i b (whos.foldl (fun s w => s.enterRegion w b) s)
    match r.cur with
    | none => (.waits, tally, s)
    | some j =>
      let agents := whos.map fun w => Agent.strand w pc
      if j.full then (.full, tally, agents.foldl State.unqueue (keepMarks whos s r))
      else if !j.waits.isEmpty || !(whos.all fun w => s.yieldReady w b) then
        (.waits, tally, (whos.foldl State.ageless (keepMarks whos s r)).leaving agents r)
      else match r.settle (agents.headD .other) with
      | (false, p) => (.waits, tally, whos.foldl State.ageless (keepMarks whos s p))
      | (true, r) =>
        let r := agents.foldl State.forget r
        if !j.traps.isEmpty then
          let mine := whos.filterMap fun w => (firstTrap w j.traps).map fun t => (w, t)
          (.done, { tally with issued := true, traps := tally.traps ++ mine },
            mine.foldl (fun s x => s.enterRegion x.1 b) (s.keepPaid r).noAsks)
        else
          (.done, { tally with issued := true, calls := j.calls },
            whos.foldl (fun t w => t.committed w b ((s.strand w).wait == .barGo)) (r.finishIssue b (s.ctx c k).task))

/-- One empty bundle for one executor (R31): the run goes on; after a header's last one the PC moves past it. -/
def issueEmpty (w : Who) (b : Bundle) (header : Bool) (s : State) : State :=
  let s := s.enterRegion w b
  let last := header && (s.strand w).run + 1 == b.empties
  let now := (s.core w.core).cyc.toNat
  let s := s.modStrand w fun x =>
    if last then { x with run := 0, pc := x.pc + 4#64, hold := now + 1, arr := s.fresh }
    else { x with run := x.run + 1, hold := now + 1 }
  let s := (s.slotSpent w).modCtx w.core w.ctx fun x => x.wdReset s.ps
  if last && b.yield && w.tid.isNone then s.modCtx w.core w.ctx Ctx.commitYield else s

/-- The bundle of an empty header. -/
def headerBundle (e : BitVec 4) (y m : BitVec 1) (w : BitVec 4) : Bundle :=
  { words := 1, empties := e.toNat + 1, yield := y == 1#1, marker := m == 1#1, weight := w.toNat, a := none, b := none, c := none }

/-- EMPTY_BUNDLE: one empty bundle of the header's run, for the executors of the issue (R31); the last one of a yield
waits as R217 says. -/
def execEmptyBundle (e : BitVec 4) (y m : BitVec 1) (w : BitVec 4) (_ : BitVec 14) (s : State) : Res :=
  onIssue s fun i s0 =>
    i.whos.foldl (fun s x =>
      if s0.yieldReady x (headerBundle e y m w) || (s0.strand x).run < e.toNat then issueEmpty x (headerBundle e y m w) true s
      else markWait x s) s0

/-- A fetch fault or an illegal instruction of one executor (R382). -/
def issueBad (w : Who) (cause sub : Nat) (va : DWord) (slot : Nat) (s : State) : State :=
  s.relist w (s.trapOf w slot cause sub va 0#64)

/-- The bundle of a Next issued for executors taken one by one in ascending index (R249); a cross-lane bundle for the
named threads of each warp together. An engine that is full holds back the whole group (08 R184). -/
def crossMask (b : Bundle) : Option (BitVec 3) :=
  b.slots.findSome? fun p => match p.2 with
    | .qmax _ _ j | .shflIdx _ _ _ j | .shflUp _ _ _ j | .shflDown _ _ _ j | .shflXor _ _ _ j | .voteAny _ _ _ j
    | .voteAll _ _ _ j | .voteBallot _ _ _ j | .matchLanes _ _ _ j | .scanAdd _ _ _ j | .scanAddEx _ _ _ j
    | .redAdd _ _ _ j | .redMin _ _ _ j | .redMax _ _ _ j | .fredAdd _ _ _ j | .jset _ _ j | .jsetGrp _ j | .join _ j => some j
    | _ => none

/-- The sets of threads that commit together: the named ones of a warp for a cross-lane bundle, else single threads. -/
def State.teams (s : State) (c k : Nat) (tids : List Nat) (b : Bundle) : List (List Nat) :=
  match crossMask b with
  | none => tids.map fun t => [t]
  | some j =>
    let named (t : Nat) : Bool := (s.mask { core := c, ctx := k } (t / 32) j.toNat).getLsbD (t % 32)
    (List.range 32).flatMap fun w =>
      let mine := tids.filter fun t => t / 32 == w
      [mine.filter named] ++ (mine.filter fun t => !named t).map fun t => [t]

/-- Run a bundle for a group of threads; true where an engine cannot take all of it (08 R184). -/
def runGroup (c k : Nat) (tids : List Nat) (b : Bundle) (seen : Memory) (s : State) : Bool × Tally × State :=
  (s.teams c k tids b).foldl (fun (a : Bool × Tally × State) team =>
    if a.1 then a
    else match issueTogether c k false team b seen a.2.1 a.2.2 with
      | (.full, t, s') => (true, t, s')
      | (_, t, s') => (false, t, s')) (false, {}, s)

/-- Issue the instructions of a bundle for a group of threads. -/
def issueGroup (c k : Nat) (tids : List Nat) (b : Bundle) (seen : Memory) (s : State) : Bool × State :=
  let r := runGroup c k tids b seen s
  if r.1 then (false, (keepMarks [] s r.2.2).noAsks) else (r.2.1.issued, (r.2.2.settleTally r.2.1).noAsks)

/-- Issue what stands at an executor's PC, by itself. -/
def issueAlone (w : Who) (n : Next) (seen : Memory) (s : State) : Fate × State :=
  let fetched (f : State → State) : Fate × State :=
    match s.settle (.strand w (s.strand w).pc) with
    | (true, s) => (.done, f s)
    | (false, s) => (.waits, s)
  match n with
  | .wait => (.waits, s)
  | .bad cause sub va slot => fetched (issueBad w cause sub va slot)
  | .empty b header =>
    if header && !(s.yieldReady w b) && (s.strand w).run + 1 == b.empties then (.waits, s.unqueue (.strand w (s.strand w).pc))
    else fetched (issueEmpty w b header)
  | .run b =>
    match issueTogether w.core w.ctx w.tid.isNone (w.tid.toList) b seen {} s with
    | (f, t, s) => (f, s.settleTally t)

/-- The executor could issue now by itself: the dry run of R46. A thread at a cross-lane bundle is judged without the
cross-lane word. -/
def withoutCross (b : Bundle) : Bundle := if (crossMask b).isSome then { b with c := none } else b

def couldIssue (w : Who) (n : Next) (s : State) : Bool × State :=
  let n := match n with | .run b => .run (withoutCross b) | n => n
  match issueAlone w n (s.windowOf w.core w.ctx) s with
  | (.done, _) => (true, s)
  | (_, r) => (false, r)

end Sys2Proof.Machine
end

