-- ==== Sys2Proof/Machine/Tile.lean ====
section
/-! DEFINITION. The streaming of a tile task: its groups of 8 rows in their matrix cycles, as the array's energy allows
(08 R204, R205; 12 R263; 14 R270, R272, R274, R275). -/

namespace Sys2Proof.Machine

/-- Element i of a packed row (R79). -/
def rowElem (fmt row i : Nat) : Nat := bitsOf row (fmtBits fmt * i) (fmtBits fmt)

/-- A floating-point element, and the unit of its format (R77, R80). -/
def matElem (fmt : Nat) (cb : BitVec 256) (v : Nat) : FVal :=
  match fmt with
  | 2 => bf16.decode (cbEntry cb v)
  | 4 => fp16.decode v
  | _ => bf16.decode v
def matUnit (fmt : Nat) : Nat := if fmt = 4 then fp16.unit else bf16.unit

/-- The exact product of two elements, in the product of their units. -/
def exactMul (a b : FVal) : FVal :=
  match a, b with
  | .nan, _ | _, .nan => .nan
  | .inf x, .inf y => .inf (x != y)
  | .inf x, .fin y k | .fin y k, .inf x => if k = 0 then .nan else .inf (x != y)
  | .fin x k, .fin y l => .fin (x != y) (k * l)

/-- Two leaves added with one rounding to FP32 (R96): values in units of 2^−u. -/
def leafAdd (u : Nat) (a b : FVal) : Nat :=
  match a, b with
  | .nan, _ | _, .nan => fp32.nan
  | .inf x, .inf y => if x == y then fp32.signBit x + fp32.inf else fp32.nan
  | .inf x, .fin .. | .fin .., .inf x => fp32.signBit x + fp32.inf
  | .fin x k, .fin y l => fp32.roundInt 0 (zeroSumNeg 0 x y) (signedUnits x k + signedUnits y l) (2 ^ u)

/-- The first level of the tree, from exact leaves; an odd one meets the identity −0.0. -/
def leafLevel (u : Nat) : List FVal → List Nat
  | a :: b :: t => leafAdd u a b :: leafLevel u t
  | [a] => [leafAdd u a (.fin true 0)]
  | [] => []

/-- The sum of K products by the canonical tree (R96, R274). -/
def treeSum (u : Nat) (v : List FVal) : Nat := canonicalReduce (fp32.add 0) (fp32.signBit true) (leafLevel u v)

/-- The block of A that holds column k of a group is marked zero, by the group's word of the bitmap (R204). -/
def marked (d word k : Nat) : Bool := mxqSpe d && bitOf word (k / 8)

/-- One element of C (R274); one whose every term is marked stands as it was, bit for bit. -/
def tileElem (pair afmt : Nat) (acb bcb : BitVec 256) (k : Nat) (zero : Nat → Bool) (a : Nat) (b : Nat → Nat) (c : Nat) : Nat :=
  let ks := List.range k
  if ks.all zero then c
  else if pair = 0 then
    let term (i : Nat) : Int :=
      if zero i then 0 else toSigned (fmtBits afmt) (rowElem afmt a i) * toSigned 8 (b i)
    (BitVec.ofInt 32 ((BitVec.ofNat 32 c).toInt + (ks.map term).foldl (· + ·) 0)).toNat
  else
    let bfmt := pairB pair
    let term (i : Nat) : FVal :=
      if zero i then .fin true 0 else exactMul (matElem afmt acb (rowElem afmt a i)) (matElem bfmt bcb (b i))
    fp32.add 0 c (treeSum (matUnit afmt + matUnit bfmt) (ks.map term))

/-! ### Groups of rows (R275) -/

/-- The groups of 8 rows of a tile task, and the rows of one. -/
def groupCount (d : Nat) : Nat := (mxqM d + 7) / 8
def groupRows (d g : Nat) : Nat := min 8 (mxqM d - 8 * g)

/-- A group's word of the bitmap. -/
def State.groupMarks (s : State) (c : Nat) (o : Op) (g : Nat) : Nat :=
  if mxqSpe o.desc then s.smemRead c o.win (mxqBmp o.desc + 2 * g) 2 else 0

/-- Every block of the group in an active band is marked: the group is skipped. -/
def skipped (d word : Nat) : Bool := mxqSpe d && (List.range ((mxqK d + 7) / 8)).all fun j => bitOf word j

/-- The rows of C that a group will give, as words, row by row. -/
def State.groupResult (s : State) (c : Nat) (o : Op) (l : Latched) (g : Nat) : List Word :=
  let d := o.desc
  let m := (s.core c).mx
  let e := fmtBits l.fmt
  let word := s.groupMarks c o g
  let block := readBytes m.wsram (8192 * l.wslot) (8 * e * mxqK d)
  let w (k j : Nat) : Nat := bitsOf block (64 * e * k + e * j) e
  (List.range (groupRows d g)).flatMap fun r =>
    let row := 8 * g + r
    let a := s.smemRead c o.win (mxqA d + row * mxqAStr d) (mxqRow d)
    let old := s.smemRead c o.win (mxqC d + row * mxqCStr d) 256
    (List.range 64).map fun j =>
      BitVec.ofNat 32 (tileElem o.pair (mxqFmt d) o.cb l.cb (mxqK d) (marked d word) a (fun k => w k j) (bitsOf old (32 * j) 32))

/-- Matrix cycles from the streaming of a group to that of the next, or to the end: its rows, and after the last the fill and
drain and the writing of C. -/
def groupCycles (pair shape d g word : Nat) : Nat :=
  (if skipped d word then 0 else (if pair ≤ 1 then 1 else 2) * groupRows d g) +
    if g + 1 = groupCount d then 16 * shape + 72 + (mxqM d + 1) / 2 else 0

/-- The array's energy in a microsecond, and its share (12 R263). -/
def Mx.energyIn (m : Mx) (micro : Nat) : Nat := if m.energyAt = micro then m.energy else 0
def State.arrayShare (s : State) (c : Nat) : Nat := s.ctlF (offClprof (clusterOf c)) 8 8

/-- The groups of a task whose time has come stream, each reading A, its word of the bitmap and its rows of C. One that would
take the array past its share is held to the next microsecond, and then streams. All the energy of a group counts in the
microsecond in which it begins: the manual does not spread it (DESIGN CHOICE, log 95). The fuel is two for each group. -/
def State.streamGroups (s : State) (c id : Nat) : Nat → State
  | 0 => s
  | n + 1 =>
    match (s.core c).findOp id with
    | none => s
    | some o =>
      let g := o.off
      if groupCount o.desc ≤ g || s.ps < o.due then s
      else
        let m := (s.core c).mx
        let micro := o.due / 1000000
        let word := s.groupMarks c o g
        let cost := if skipped o.desc word then 0 else Config.groupEnergy (1024 * o.desc + g)
        if !o.held && s.arrayShare c < m.energyIn micro + cost then
          (s.modOp c id fun o => { o with held := true, due := 1000000 * (micro + 1) }).streamGroups c id n
        else
          let rows := match m.latched with | some l => if o.unsound then [] else s.groupResult c o l g | none => []
          let s := s.modOp c id fun o =>
            { o with off := g + 1, held := false, due := o.due + 625 * groupCycles o.pair m.shape o.desc g word, result := o.result ++ rows }
          (s.modMx c fun m => { m with energy := m.energyIn micro + cost, energyAt := micro }).streamGroups c id n

def State.streamTile (s : State) (c id : Nat) : State :=
  match (s.core c).findOp id with
  | none => s
  | some o => s.streamGroups c id (2 * groupCount o.desc)

/-- The tile tasks that stream on a core go on to the present. -/
def State.streamTiles (s : State) (c : Nat) : State :=
  ((s.core c).ops.filter fun o => o.kind == .mxq && o.started && o.state == .running).foldl (fun s o => s.streamTile c o.id) s

end Sys2Proof.Machine
end

