-- ==== Sys2Proof/Machine/Cycle.lean ====
section
/-! DEFINITION. One core cycle: which lead bundle and which thread group issue, or a stall (01 R17, R18, R22; 05 R242;
11 R247, R248; 12 R255, R257; 17 R302; 19 R311, R312). -/

namespace Sys2Proof.Machine

/-! ### Keys and choices -/

/-- The level of a context (R17); a service context runs no task, and the manual gives it no level. -/
def Ctx.level (x : Ctx) : Nat :=
  match x.task with
  | some t => t.level
  | none => bitsOf (Config.freeValue 0).toNat 0 3

/-- Round robin from the context after the last one. -/
def afterLast (last k : Nat) : Nat := (k + 15 - last) % 8

/-! ### Who could issue -/

/-- An executor that could issue now. -/
structure Cand where
  ctx : Nat
  tid : Nat
  pc : DWord
  run : Nat
  n : Next
  since : Nat
  deriving DecidableEq, Repr

/-- The FP64 window is full (R22). -/
def Core.fp64Full (co : Core) : Bool := 15 ≤ (co.fp64.filter id).length

/-- An executor that cannot issue yet asks for nothing: it stands before no other request (15 R285). -/
def State.idles (s : State) (w : Who) : State :=
  if s.power.queue.isEmpty then s else s.unqueue (.strand w (s.strand w).pc)

/-- Judge one executor: what it would issue if it could, and the marks it leaves where it could not. -/
def scanOne (w : Who) (s : State) : Option Next × State :=
  if !s.mayIssue w then (none, s.idles w)
  else
    let (n, s1) := s.nextOf w
    if n = .wait then (none, keepMarks [] s s1)
    else if !(s.unheld w n) then (none, s.idles w)
    else match couldIssue w n s1 with
      | (true, _) => (some n, s)
      | (false, r) => (none, keepMarks [w] s r)

/-- The threads of a core that could issue but for an incomplete join. -/
def scanThreads (c : Nat) (s : State) : List Cand × State :=
  (s.core c).ctxs.foldl (fun a e => e.2.liveTids.foldl (fun (a : List Cand × State) t =>
    let w : Who := { core := c, ctx := e.1, tid := some t }
    match scanOne w a.2 with
    | (some n, s) =>
      let th := s.thread w t
      (a.1 ++ [{ ctx := e.1, tid := t, pc := th.str.pc, run := th.str.run, n, since := th.since.getD (s.core c).cyc.toNat }], s)
    | (none, s) => (a.1, s)) a) ([], s)

/-- A thread at a cross-lane bundle is ready when its join is complete (06 R144). -/
def joinComplete (c : Nat) (s : State) (all : List Cand) (x : Cand) : Bool :=
  match x.n with
  | .run b =>
    (match crossMask b with
     | none => true
     | some j =>
       let m := s.mask { core := c, ctx := x.ctx } (x.tid / 32) j.toNat
       !m.getLsbD (x.tid % 32) ||
         (List.range 32).all fun l =>
           let t := x.tid / 32 * 32 + l
           !m.getLsbD l || (tblGet none (s.ctx c x.ctx).threads t).isNone ||
             all.any fun y => y.ctx == x.ctx && y.tid == t && y.pc == x.pc && y.n == x.n)
  | _ => true

/-! ### BAR (07 R174) -/

/-- The live threads of a launch on a core, with their strands. -/
def State.launchThreads (s : State) (c slot : Nat) : List (Who × Strand) :=
  (s.core c).ctxs.flatMap fun e => match e.2.task with
    | some t => if t.slot = slot then e.2.threads.filterMap fun th => th.2.map fun y =>
        (({ core := c, ctx := e.1, tid := some th.1 } : Who), y.str) else []
    | none => []

/-- The spilled task's context is of the launch on the core: its threads are started and have not exited. -/
def Spilled.of (x : Spilled) (c slot : Nat) : Bool := x.core == c && x.task.slot == slot
/-- Every thread of a context has arrived at a BAR; they may leave. -/
def Ctx.barred (x : Ctx) : Bool := x.threads.all fun t => match t.2 with | some th => th.str.wait == .barArrived | none => true
def Ctx.unbar (x : Ctx) : Ctx :=
  { x with threads := x.threads.map fun t => (t.1, t.2.map fun (th : Thread) => { th with str := { th.str with wait := .barGo } }) }

/-- A barrier at which every live thread of its launch on the core waits completes, those of its spilled tasks included: all
may leave. -/
def completeBars (c : Nat) (s : State) : State :=
  (s.core c).resv.foldl (fun s r =>
    let l := s.launchThreads c r.slot
    if !l.isEmpty && (l.all fun x => x.2.wait == .barArrived) && s.sched.spilled.all fun x => !x.of c r.slot || x.saved.barred then
      let s := l.foldl (fun s x => s.modStrand x.1 fun y => { y with wait := .barGo }) s
      { s with sched := { s.sched with
        spilled := mapIf (fun x => x.of c r.slot) (fun x => { x with saved := x.saved.unbar }) s.sched.spilled } }
    else s) s

/-! ### The start of a cycle -/

/-- A CTXSV that waits marks its target, unless the target is stopped for a trap (17 R303, 24 R353). -/
def markSaved (c : Nat) (s : State) : State :=
  (s.core c).ctxs.foldl (fun s e =>
    match e.2.str.wait with
    | .ctxsv k came =>
      s.modCtx c k fun x =>
        if x.traps.isEmpty && (match x.task with | some t => t.came == came | none => false) then { x with marked := true } else x
    | _ => s) s

/-- A marked lead strand stops at a preemption point: at a bundle with M = 1, where its next issue commits a yield, or where
a pipelined loop is to refill (17 R302). -/
def stopMarked (c : Nat) (s : State) : State :=
  (s.core c).ctxs.foldl (fun s e =>
    let w : Who := { core := c, ctx := e.1 }
    if e.2.marked && !e.2.stopped && !e.2.handler && e.2.traps.isEmpty && !e.2.yielding then
      let atEntry := match (s.nextOf w).1.bundle with
        | some b => (b.marker && e.2.str.run == 0) || (b.yield && e.2.str.run + (if b.isEmpty then 1 else 0) == b.empties)
        | none => false
      if atEntry || (e.2.lc0.isOpen && e.2.lc0.refill) then s.modCtx c e.1 fun x => { x.settle with stopped := true } else s
    else s) s

/-- Items of the last cycle can be popped; a closing queue whose draws have pushed their last items is closed
(05 R129, 09 R224). -/
def Ctx.newCycle (x : Ctx) (draws : Bool) : Ctx := { x with fresh := 0, closed := x.closed || (x.closing && !draws) }

/-- What a cycle starts with on its core. -/
def beginCycle (c : Nat) (s : State) : State :=
  let s := s.modCore c fun co => { co with
    ctxs := co.ctxs.map fun e =>
      (e.1, e.2.newCycle (co.ops.any fun o => isDraw o.kind && o.ofCtx e.1 && o.state != .complete && !o.pushedAll)) }
  stopMarked c (markSaved c (s.streamTiles c))

/-! ### The lead bundle (R17) -/

/-- The refill of a pipelined loop, as the context next issues (05 R127). -/
def Ctx.refilled (x : Ctx) : Ctx :=
  if x.lc0.isOpen && x.lc0.refill then
    { x with q := putBit (firstStage x.q x.lc0.stages) 12 true, lc0 := { x.lc0 with refill := false, count := x.lc0.count - 1#32 } }
  else x

/-- The context whose lead bundle issues, with the bundle; and the marks of those that wait. -/
def pickLead (c : Nat) (s : State) : Option (Nat × Next) × State :=
  let scan := (s.core c).ctxs.foldl (fun (a : List (Nat × Nat × Next) × State) e =>
    let w : Who := { core := c, ctx := e.1 }
    match scanOne w (a.2.modCtx c e.1 Ctx.refilled) with
    | (some n, _) => (a.1 ++ [(e.1, e.2.level, n)], a.2)
    | (none, r) => (a.1, keepMarks [w] a.2 r)) ([], s)
  let last := (s.core c).lastLead
  ((leastBy (fun x => (7 - x.2.1) * 8 + afterLast last x.1) scan.1).map fun x => (x.1, x.2.2), scan.2)

/-! ### The thread group (11 R247, R248) -/

/-- A group: its context and members, and what they issue. -/
structure Group where
  ctx : Nat
  tids : List Nat
  pc : DWord
  n : Next
  deriving DecidableEq, Repr

/-- Up to 32 of the threads at a PC, oldest first; the threads that a cross-lane word joins stay together. A team that would
pass 32 is left out, and younger ones that fit are taken: the manual does not say (DESIGN CHOICE, log 93). -/
def groupAt (c : Nat) (s : State) (ready : List Cand) (x : Cand) : Group :=
  let same := sortBy (fun y => y.since * 1024 + y.tid) (ready.filter fun y => y.ctx == x.ctx && y.pc == x.pc && y.run == x.run)
  let cross := match x.n with | .run b => crossMask b | _ => none
  let team (y : Cand) : List Nat :=
    match cross with
    | none => [y.tid]
    | some j =>
      let m := s.mask { core := c, ctx := x.ctx } (y.tid / 32) j.toNat
      if m.getLsbD (y.tid % 32) then
        (same.filter fun z => z.tid / 32 == y.tid / 32 && m.getLsbD (z.tid % 32)).map (·.tid)
      else [y.tid]
  let tids := same.foldl (fun l y =>
    if l.contains y.tid then l else if l.length + (team y).length ≤ 32 then l ++ team y else l) []
  { ctx := x.ctx, tids := sortBy id tids, pc := x.pc, n := x.n }

/-- PickThreadGroup of R247; K is the highest class of the two cycles before. -/
def pickGroup (c : Nat) (s : State) (ready : List Cand) (k : Nat) : Option Group :=
  let age (x : Cand) : Nat := x.since * 8192 + x.ctx * 1024 + x.tid
  let defer (x : Cand) : Nat := ((s.ctx c x.ctx).thread x.tid).defer
  match leastBy age (ready.filter fun x => 16 ≤ defer x) with
  | some x => some (groupAt c s ready x)
  | none =>
    let cs := (ready.map (·.ctx)).eraseDups
    let cool (j : Nat) : Bool := ready.any fun x => x.ctx == j && x.n.cls ≤ k
    let ctx := match leastBy id (cs.filter fun j => 64 ≤ (s.ctx c j).starve) with
      | some j => some j
      | none =>
        let pool := if cs.any cool then cs.filter cool else cs
        leastBy (fun j => (7 - (s.ctx c j).level) * 8 + afterLast (s.core c).lastThread j) pool
    match ctx with
    | none => none
    | some j =>
      let mine := ready.filter fun x => x.ctx == j
      let q := mine.filter fun x => x.n.cls ≤ k
      (leastBy (fun x => x.since * 1024 + x.tid) (if q.isEmpty then mine else q)).map (groupAt c s ready)

/-! ### Scratchpad banks (19 R311) -/

/-- The eight-byte words of scratchpad that an instruction touches for a thread whose guard is true. -/
def scratchWords (s : State) (w : Who) (i : Instr) : List Nat :=
  let at_ (a : Reg) (off : Off) (n : Nat) : List Nat :=
    let x := s.smemAddr w a off n
    if s.guardOk w i.guard ∧ 0 ≤ x then (List.range ((x.toNat % 8 + n + 7) / 8)).map (· + x.toNat / 8) else []
  match i with
  | .lds _ _ a sz off | .sts _ _ a sz off => at_ a off (szBytes sz)
  | .atomsAdd _ _ a wd off | .atomsMin _ _ a wd off | .atomsMax _ _ a wd off | .atomsAnd _ _ a wd off
  | .atomsOr _ _ a wd off | .atomsXor _ _ a wd off | .atomsXchg _ _ a wd off | .atomsCas _ _ a wd off => at_ a off (wBytes wd)
  | _ => []

/-- Passes a group needs: the most distinct words in any one bank. -/
def bankPasses (c : Nat) (s : State) (g : Group) : Nat :=
  let words := (g.n.instrs.flatMap fun i => g.tids.flatMap fun t => scratchWords s { core := c, ctx := g.ctx, tid := some t } i).eraseDups
  (List.range 32).foldl (fun m bank => max m (words.filter fun x => x % 32 == bank).length) 1

/-! ### The counters of the picker (R247) -/

/-- Ages of the threads: ready ones keep theirs or take this cycle, others have none. A hold of the FP64 lane (01 R22) does
not restart an age: the manual does not say whether it does (log 21). -/
def ageThreads (c : Nat) (all : List Cand) (s : State) : State :=
  s.modCore c fun co => { co with
    ctxs := co.ctxs.map fun e => (e.1, { e.2 with
      threads := e.2.threads.map fun t => (t.1, t.2.map fun th =>
        { th with since := if all.any fun x => x.ctx == e.1 && x.tid == t.1 then some (th.since.getD co.cyc.toNat) else none }) }) }

/-- A picker cycle in which a group was served. Issue itself resets a thread's defer; the members of a group that is held
first count as issued now (19 R312). -/
def countPick (c k : Nat) (ready : List Cand) (g : Group) (held : Bool) (s : State) : State :=
  s.modCore c fun co => { co with
    lastThread := g.ctx
    ctxs := co.ctxs.map fun e => (e.1, { e.2 with
      starve := if e.1 = g.ctx then 0 else if ready.any fun x => x.ctx == e.1 then e.2.starve + 1 else e.2.starve
      threads := e.2.threads.map fun t => (t.1, t.2.map fun th =>
        { th with defer :=
            if e.1 = g.ctx ∧ g.tids.contains t.1 then (if held then 0 else th.defer)
            else if ready.any fun x => x.ctx == e.1 && x.tid == t.1 && k < x.n.cls then th.defer + 1 else th.defer }) }) }

/-! ### Issuing -/

/-- Issue the lead bundle; whether it issued, as it does unless what another context's bundle set going keeps it waiting. -/
def issueLead (c : Nat) (s : State) (x : Nat × Next) : Bool × State :=
  let w : Who := { core := c, ctx := x.1 }
  let seen := s.windowOf c x.1
  let (n, s1) := (s.modCtx c x.1 Ctx.refilled).nextOf w
  match issueAlone w n seen s1 with
  | (.done, r) => (true, r.modCore c fun co => { co with lastLead := x.1 })
  | (_, r) => (false, keepMarks [w] s r)

/-- Issue what a group's threads stand at, those of them that still may; whether any of them did. -/
def issueThreads (c : Nat) (seen : Memory) (s : State) (g : Group) : Bool × State :=
  let whos : List Who := g.tids.map fun t => { core := c, ctx := g.ctx, tid := some t }
  let whos := whos.filter fun w => s.present w && (s.strand w).pc == g.pc
  match whos with
  | [] => (false, s)
  | w :: _ =>
    match s.nextOf w with
    | (.run b, s) => issueGroup c g.ctx (whos.map Who.key) b seen s
    | (n, s) =>
      match whos.foldl (fun (a : Bool × State) w =>
        match issueAlone w n seen a.2 with | (.done, s) => (true, s) | (_, s) => (a.1, s)) (false, s) with
      | (any, s) => (any, s.noAsks)

/-- What a bundle commits to the CSRs of its core is for the bundles of later cycles (09 R233): the cycle's thread group
issues with the CSRs as they stood before its lead bundle. -/
def State.withCsrs (s src : State) (c : Nat) : State :=
  { s.modCore c fun co => { co with trapvec := (src.core c).trapvec, gauge := (src.core c).gauge, gaugerate := (src.core c).gaugerate } with
    savebase := src.savebase }
/-- The CSRs at the end of the cycle: what the threads wrote, else what the lead strand did. -/
def State.joinCsrs (s before led : State) (c : Nat) : State :=
  let pick (a b x : DWord) : DWord := if x = a then b else x
  { s.modCore c fun co => { co with
      trapvec := pick (before.core c).trapvec (led.core c).trapvec co.trapvec
      gauge := pick (before.core c).gauge (led.core c).gauge co.gauge
      gaugerate := pick (before.core c).gaugerate (led.core c).gaugerate co.gaugerate } with
    savebase := pick before.savebase led.savebase s.savebase }

/-- Issue a cycle's lead bundle, then its thread group; whether the lead bundle and whether a thread of the group issued. -/
def issueCycle (c : Nat) (lead : Option (Nat × Next)) (g : Option Group) (s : State) : Bool × Bool × State :=
  let (first, led) := match lead with | some x => issueLead c s x | none => (false, s)
  match g with
  | none => (first, false, led)
  | some g =>
    match issueThreads c (s.windowOf c g.ctx) (led.withCsrs s c) g with
    | (any, t) => (first, any, t.joinCsrs s led c)

/-- A thread whose next bundle is to pop an item waits in a cycle in which every item was taken (11 R246): its age starts
again. -/
def ageDry (c : Nat) (ready : List Cand) (s : State) : State :=
  (ready.filter fun x =>
    let q := s.ctx c x.ctx
    q.poppable = 0 && !(q.queue.isEmpty && q.closed) &&
      x.n.instrs.any fun i => match i with
        | .item g _ _ => s.guardOk { core := c, ctx := x.ctx, tid := some x.tid } g
        | _ => false).foldl (fun s x =>
    if s.present { core := c, ctx := x.ctx, tid := some x.tid } then s.ageless { core := c, ctx := x.ctx, tid := some x.tid } else s) s

/-- The engine could take all the operations of the group that a thread would issue in, after those of the lead bundle; a
group that it could not waits whole, and is no candidate (08 R184; 12 R257). -/
def engineFits (c : Nat) (s : State) (lead : Option (Nat × Next)) (all : List Cand) (x : Cand) : Bool :=
  match x.n with
  | .run b =>
    if b.slots.any fun p => p.2.info.major == 11 then
      let led := match lead with | some y => (issueLead c s y).2 | none => s
      !(runGroup c x.ctx (groupAt c s all x).tids b (s.windowOf c x.ctx) led).1
    else true
  | _ => true

/-- The multiple of 80 ps of a timing class (05 R242, 01 R20). -/
def classMultiple (cls : Nat) : Nat := if cls = 0 then 4 else if cls = 1 then 5 else if cls = 2 then 6 else 8

/-- The end of a cycle: the window and class histories, the counters, the next cycle's start; the clock stops
where nothing is resident and no engine operation is held (12 R255). -/
def endCycle (c charge cls : Nat) (fp64 stalled : Bool) (s : State) : State :=
  let s := s.modCore c fun co =>
    let top := co.classes.foldl max cls
    { co with
      cyc := co.cyc + 1, stall := if stalled then co.stall + 1 else co.stall
      charges := (charge :: co.charges).take 63, classes := (cls :: co.classes).take 2, fp64 := (fp64 :: co.fp64).take 15
      next := s.ps + 80 * classMultiple top
      clockOn := co.ctxs.any (fun e => e.2.resident) || !co.ops.isEmpty }
  { s with power := { s.power with lendBusy := tblPut 0#1 s.power.lendBusy (clusterOf c) 1#1 } }

/-- The profile a core applies (12 R258). -/
def State.profile (s : State) (c : Nat) : Nat := s.ctlF (8 * clusterOf c) 24 12

/-- The group that issues this cycle, if any, the group that this cycle begins to hold, and whether the picker chose. -/
structure ThreadPlan where
  now : Option Group := none
  hold : Option (Group × Nat) := none
  picked : Option Group := none
  deriving DecidableEq, Repr

/-- What the thread side of a cycle would do (R247, 19 R312). -/
def planThreads (c : Nat) (s : State) (ready : List Cand) (k : Nat) : ThreadPlan :=
  match (s.core c).held with
  | some h =>
    if h.left ≠ 0 then {}
    else
      match ready.find? fun x => x.ctx == h.ctx && h.tids.contains x.tid && x.pc == h.pc with
      | none => {}
      | some x => { now := some { ctx := h.ctx, tids := h.tids, pc := h.pc, n := x.n } }
  | none =>
    match pickGroup c s ready k with
    | none => {}
    | some g =>
      let p := bankPasses c s g
      if p ≤ 1 then { now := some g, picked := some g } else { hold := some (g, p - 2), picked := some g }

/-- The held group after a cycle that was no stall. -/
def nextHeld (old : Option Held) (plan : ThreadPlan) : Option Held :=
  match plan.hold with
  | some (g, left) => some { ctx := g.ctx, pc := g.pc, tids := g.tids, left }
  | none =>
    match old with
    | none => none
    | some h => if h.left = 0 then none else some { h with left := h.left - 1 }

/-- One cycle of a core whose clock runs. A thread that R22 holds back is not ready, and keeps its age (log 21). -/
def runCycle (c : Nat) (s : State) : State :=
  let s := beginCycle c s
  let s := completeBars c (scanThreads c s).2
  let (all, s) := scanThreads c s
  let (lead, s) := pickLead c s
  let joined := all.filter (joinComplete c s all)
  let able := joined.filter (engineFits c s lead joined)
  let s := ageThreads c able s
  let window := (s.core c).fp64Full
  let ready := able.filter fun x => !(window && x.n.fp64)
  let k := (s.core c).classes.foldl max 0
  let plan := planThreads c s ready k
  let leadCharge := (lead.map fun x => x.2.charge).getD 0
  let groupCharge := (plan.now.map fun g => g.n.charge).getD 0
  let sum := (s.core c).charges.foldl (· + ·) 0
  if s.profile c < sum + (leadCharge + groupCharge) then endCycle c 0 0 false true s
  else
    let s := match plan.picked with | some g => countPick c k ready g plan.hold.isSome s | none => s
    let s := s.modCore c fun co => { co with held := nextHeld co.held plan }
    let (first, any, s) := issueCycle c lead plan.now s
    let cls := max (if first then (lead.map fun x => x.2.cls).getD 0 else 0) (if any then (plan.now.map fun g => g.n.cls).getD 0 else 0)
    endCycle c ((if first then leadCharge else 0) + if any then groupCharge else 0) cls
      (any && (plan.now.map fun g => g.n.fp64).getD false) false (ageDry c able s)

/-- The core whose next cycle is the earliest runs it; a step for another core changes nothing (log 6). -/
def cycleDue (c : Nat) (s : State) : Bool :=
  (s.core c).clockOn && s.cores.all fun e => !e.2.clockOn || (s.core c).next ≤ e.2.next

def execCoreCycle (core : Nat) (s : State) : Res :=
  .next (if cycleDue core s then runCycle core { s with ps := max s.ps (s.core core).next } else s)

/-- Start a core's clock in the tick after it has work (12 R255). -/
def State.startClock (s : State) (c : Nat) : State :=
  if (s.core c).clockOn then s
  else s.modCore c fun co => { co with clockOn := true, next := (s.ps / 1000 + 1) * 1000 }

end Sys2Proof.Machine
end

