-- ==== Sys2Proof/Machine/HomeOps.lean ====
section
/-! DEFINITION. What the home of a line does: its die and slice (15 R280), regulators and ways (15 R283 to R288), the
performing of a write (21 R334), casts and the cast directory (21 R331 to R337). -/

namespace Sys2Proof.Machine

/-! ### Casts (R331, R334, R337) -/

def State.castEntry (s : State) (line : Nat) : Option CastEntry := s.homes.castDir.find? fun e => e.line == line

/-- Cores that a write of core c must invalidate: holders but c itself, and every pending target. A write forwarded
from a migrated page does not touch the copy its own core holds under the new address, so it spares no holder. -/
def State.castTargets (s : State) (c pa : Nat) : List Nat :=
  match s.castEntry (lineOf (s.forward pa)) with
  | none => []
  | some e => ((e.holders.filter fun h => h != c || s.forward pa != pa) ++ e.pending).eraseDups

/-- How many casts of an STC leave together: the manual gives no time for the others (log 9). -/
def State.castBurst (s : State) (n : Nat) : Nat := 1 + (Config.freeValue (4 * s.choice)).toNat % (n + 1)

/-- CAST_SEND: a directory entry is taken and the casts are sent, the rest with the replies to come; without a free entry
every target counts as refused. -/
def State.castSend (s : State) (t : Store) (cores : List Nat) : State :=
  let line := lineOf (s.forward t.pa)
  let stc : Stc := { id := t.id, who := t.who, part := t.part, line, unsent := cores, waiting := cores }
  if cores.isEmpty then s
  else
    let slice := s.sliceOf (64 * line)
    let used := (s.homes.castDir.filter fun e => s.sliceOf (64 * e.line) == slice).length
    if (s.castEntry line).isNone && 8192 ≤ used then
      ({ s with homes := { s.homes with
        stcs := s.homes.stcs ++ [{ stc with unsent := [], waiting := [], refused := cores.length }] } }).castAnswered t.id
    else
      let cluster := clusterOf (cores.getD 0 0)
      let s := if (s.castEntry line).isSome then
          s.modCast line fun e => { e with cluster, pending := cores, stc := t.id }
        else { s with homes := { s.homes with castDir := s.homes.castDir ++ [{ line, cluster, pending := cores, stc := t.id }] } }
      let s := { s with homes := { s.homes with stcs := s.homes.stcs ++ [stc] } }
      s.sendCasts t.id (s.castBurst cores.length)

/-- Another write of the line than this one is at its home and waits for acknowledgements, or casts of it are still to be sent:
the home takes the line's writes one at a time (R334). -/
def State.lineBusy (s : State) (line id : Nat) : Bool :=
  (s.cores.any fun e => e.2.stores.any fun u => u.id != id && u.acks.isSome && s.homeOf u.pa == line) ||
    s.homes.stcs.any fun x => x.line == line && !x.unsent.isEmpty

/-! ### Performing a write (R325, R334) -/

/-- The core's copy of a line takes what its own write changes, with its younger plain writes over it; fills of the line
under way are cancelled. -/
def Core.updates (co : Core) (line id : Nat) (f : Line → Line) : Core :=
  let patch (d : Line) : Line :=
    co.stores.foldl (fun d t => if id < t.id && t.shown && lineOf t.pa == line then t.overlay d else d) d
  { (co.dropFills line) with l1 := mapIf (fun x => x.line == line) (fun x => { x with data := patch (f x.data) }) co.l1 }

/-- The write leaves the core's list. -/
def State.dropStore (s : State) (c id : Nat) : State :=
  s.modCore c fun co => { co with stores := co.stores.filter fun t => t.id != id }
/-- The write has performed and its value waits to be returned. -/
def State.storeReturns (s : State) (c id value err : Nat) : State :=
  s.modCore c fun co => { co with
    stores := mapIf (fun t => t.id == id) (fun t => { t with done := true, acks := none, value, err }) co.stores }

/-- The contents of a line at the place where accesses to it perform. -/
def State.lineAt (s : State) (pa : Nat) : Line := s.homeLine (lineOf (s.forward pa))

/-- The effect of an operation on an exact accumulator line: the new line, and the value returned. -/
def xalApply (op : XalOp) (line : Line) (x : Word) : Line × Nat :=
  match op with
  | .add => (xalAdd line x.toNat, 0)
  | .rd32 => (line, xalRound line fp32)
  | .rd64 => (line, xalRound line fp64)
  | .clr => (0#512, xalRound line fp32)

/-- Whether the operation writes its location, as that stands at the home: a reading of an accumulator does not, nor a
CAS whose comparison fails (07 R167, R169; 21 R325). -/
def State.writesLine (s : State) (t : Store) : Bool :=
  match t.kind with
  | .xal .rd32 _ | .xal .rd64 _ => false
  | .atom .cas w64 _ cmp =>
    let n := if w64 then 8 else 4
    s.homeRead t.pa n == cmp.toNat % 2 ^ (8 * n)
  | _ => true

/-- The write performs at its home (R325). An operation that only reads there leaves no older copy to its core (R323). -/
def State.perform (s : State) (c : Nat) (t : Store) : State :=
  let line := lineOf t.pa
  let writes := s.writesLine t
  let s := match t.kind with
    | .plain len data =>
      let s := s.poke t.pa len data
      let s := if t.release then s.modCore c fun co => co.updates line t.id fun d => lineSet d (t.pa % 64) len data else s
      s.dropStore c t.id
    | .atom op w64 x cmp =>
      let n := if w64 then 8 else 4
      let old := s.homeRead t.pa n
      let new := atomApply op (8 * n) old (x.toNat % 2 ^ (8 * n)) (cmp.toNat % 2 ^ (8 * n))
      (if writes then (s.poke t.pa n new).modCore c fun co => co.updates line t.id fun d => lineSet d (t.pa % 64) n new
       else s.loseDemand c [line]).storeReturns c t.id old 0
    | .xal op x =>
      let r := xalApply op (s.lineAt t.pa) x
      (if writes then (s.poke (64 * line) 64 r.1.toNat).modCore c fun co => co.updates line t.id fun _ => r.1
       else s.loseDemand c [line]).storeReturns c t.id r.2 0
    | .cast data cores => ((s.poke (64 * line) 64 data.toNat).dropStore c t.id).castSend t cores
  (s.dropAlias c t.pa).served (regionOf (s.forward t.pa)) (.access c t.id)

/-- An executor that holds a trap takes no second one, but for a lead strand in its handler (24 R353, R369). -/
def State.trapRoom (s : State) (w : Who) : Bool :=
  let x := s.ctx w.core (w.ctx % 8)
  (w.tid.isNone && x.handler) || x.traps.all fun t => t.exk == 2 || t.tid != w.tid || t.exited != decide (8 ≤ w.ctx)

/-- A write that meets poison at its home is discarded and reported; an atomic returns the error (22 R347). -/
def State.refuseWrite (s : State) (c : Nat) (t : Store) (err : Nat) : State :=
  match t.kind with
  | .atom .. | .xal .. => s.storeReturns c t.id 0 err
  | _ =>
    let s := (s.dropStore c t.id).discardCopies c [lineOf t.pa]
    if t.discard then s else s.asyncTrap t.who 16 (err - 1) t.va 0#64 (if t.who.tid.isNone then 1 else 0)

/-- The refusal of a write may be reported now (24 R353). -/
def State.mayRefuse (s : State) (t : Store) : Bool :=
  t.discard || s.trapRoom t.who || match t.kind with | .atom .. | .xal .. => true | _ => false

end Sys2Proof.Machine
end

