-- ==== Sys2Proof/Machine/Sha.lean ====
section
/-! DEFINITION. SHA-256 (FIPS 180-4), which R379 of 25 names for the measurements. -/

namespace Sys2Proof.Machine

/-- The first n primes' fractional roots: 32 bits of the fraction of the k-th root of p. -/
def rootBits (k p : Nat) (guess : Nat) : Nat → Nat
  | 0 => guess
  | b + 1 =>
    let g := guess + 2 ^ b
    rootBits k p (if g ^ k ≤ p * 2 ^ (32 * k) then g else guess) b

/-- The primes of the constants. -/
def shaPrimes : List Nat := (List.range 312).filter fun n => 2 ≤ n && (List.range 18).all fun d => d < 2 || n ≤ d || n % d != 0

/-- The 64 round constants and the 8 initial words. -/
def shaK : List Word := (shaPrimes.take 64).map fun p => BitVec.ofNat 32 (rootBits 3 p 0 35)
def shaInit : List Word := (shaPrimes.take 8).map fun p => BitVec.ofNat 32 (rootBits 2 p 0 37)

def shaW (l : List Word) (i : Nat) : Word := l.getD i 0#32

/-- The message schedule from 16 words on. -/
def shaSchedule (w : List Word) : Nat → List Word
  | 0 => w
  | n + 1 =>
    let t := w.length
    let x := shaW w (t - 15)
    let y := shaW w (t - 2)
    let s0 := x.rotateRight 7 ^^^ x.rotateRight 18 ^^^ (x >>> 3)
    let s1 := y.rotateRight 17 ^^^ y.rotateRight 19 ^^^ (y >>> 10)
    shaSchedule (w ++ [shaW w (t - 16) + s0 + shaW w (t - 7) + s1]) n

/-- One round on the eight working words. -/
def shaRound (h : List Word) (kw : Word) : List Word :=
  let a := shaW h 0
  let e := shaW h 4
  let s1 := e.rotateRight 6 ^^^ e.rotateRight 11 ^^^ e.rotateRight 25
  let ch := (e &&& shaW h 5) ^^^ (~~~e &&& shaW h 6)
  let t1 := shaW h 7 + s1 + ch + kw
  let s0 := a.rotateRight 2 ^^^ a.rotateRight 13 ^^^ a.rotateRight 22
  let maj := (a &&& shaW h 1) ^^^ (a &&& shaW h 2) ^^^ (shaW h 1 &&& shaW h 2)
  [t1 + s0 + maj, a, shaW h 1, shaW h 2, shaW h 3 + t1, e, shaW h 5, shaW h 6]

/-- One block of 64 bytes. -/
def shaBlock (h : List Word) (bytes : List Byte) : List Word :=
  let w := (List.range 16).map fun i =>
    bytes.getD (4 * i) 0#8 ++ bytes.getD (4 * i + 1) 0#8 ++ bytes.getD (4 * i + 2) 0#8 ++ bytes.getD (4 * i + 3) 0#8
  let kw := List.zipWith (· + ·) shaK (shaSchedule w 48)
  List.zipWith (· + ·) h (kw.foldl shaRound h)

/-- The padding of a message of n bytes. -/
def shaPad (n : Nat) : List Byte :=
  [0x80#8] ++ List.replicate ((119 - n % 64) % 64) 0#8 ++
    (List.range 8).map fun i => BitVec.ofNat 8 ((8 * n) / 256 ^ (7 - i))

/-- The blocks of a padded message. -/
def shaBlocks (h : List Word) (m : List Byte) : Nat → List Word
  | 0 => h
  | n + 1 => shaBlocks (shaBlock h (m.take 64)) (m.drop 64) n

/-- The 32 bytes of the digest, in order. -/
def sha256 (m : List Byte) : List Byte :=
  let p := m ++ shaPad m.length
  (shaBlocks shaInit p (p.length / 64)).flatMap fun w =>
    [w.extractLsb' 24 8, w.extractLsb' 16 8, w.extractLsb' 8 8, w.extractLsb' 0 8]

/-- n bytes of a value, the lowest first. -/
def bytesOf (v n : Nat) : List Byte := (List.range n).map fun i => BitVec.ofNat 8 (v / 256 ^ i)
/-- The value of bytes, the lowest first. -/
def valueOf (l : List Byte) : Nat := l.foldr (fun b a => b.toNat + 256 * a) 0

end Sys2Proof.Machine
end

