-- ==== Sys2Proof/Machine/Regs.lean ====
section
/-! DEFINITION. The registers of the device control space: what each reads, and what a write of it does (25 R371; 12 R258
to R264; 15 R281 to R288; 17 R293, R295, R299; 22 R343 to R349; 24 R365 to R370; 25 R372 to R379). A write that a rule
rejects changes nothing and sets the block's REJ (00 R8). -/

namespace Sys2Proof.Machine

/-- Set a reject bit. -/
def State.reject (s : State) (off bit : Nat) : State := s.setCtlF off bit 1 1
/-- A write-1-to-clear bit. -/
def State.w1c (s : State) (off bit : Nat) (v : DWord) : State := if bitOf v.toNat bit then s.setCtlF off bit 1 0 else s

/-! ### Power manager (12 R258 to R264) -/

/-- The conditions of R260 on a cluster's entry. -/
def State.lendOk (s : State) (n : Nat) : Bool :=
  !s.lendValid n ||
    (let k := popCount (s.lendMask n) 40
     s.pshare n * k + 128 ≤ s.pbase n && s.ashare n * k + 16 ≤ s.abase n && !bitOf (s.lendMask n) n &&
       (List.range 40).all fun m => !bitOf (s.lendMask n) m || !s.lendValid m)

/-- The conditions of R259 on the bases. -/
def State.basesOk (s : State) : Bool :=
  ((List.range 40).all fun n => 128 ≤ s.pbase n && 16 ≤ s.abase n) &&
    ((List.range 40).map fun n => 16 * s.pbase n + 64 * s.abase n).foldl (· + ·) 0 ≤ 970 * 1024

/-- Keep a change of bases or table if the rules allow it, else reject it. -/
def State.powerChange (s new : State) : State :=
  if new.basesOk && (List.range 40).all new.lendOk then new.regrant else s.reject offPMCTL 16

def State.writeClprof (s : State) (n : Nat) (v : DWord) : State :=
  s.powerChange ((s.setCtlF (offClprof n) 36 12 (bitsOf v.toNat 36 12)).setCtlF (offClprof n) 16 8 (bitsOf v.toNat 16 8))

/-- The table is read-only to software in hardware mode (R262). -/
def State.writeLend (s : State) (n dw : Nat) (v : DWord) : State :=
  if !bitOf s.mode.toNat 18 then s
  else if dw = 0 then s.powerChange (s.setCtl (offLend n) (masked v 0x800000FFFFFFFFFF#64))
  else s.powerChange (s.setCtl (offLend n + 8) (masked v 0xFF0FFF#64))

def State.writePmctl (s : State) (v : DWord) : State := (s.w1c offPMCTL 16 v).setCtlF offPMCTL 0 10 (bitsOf v.toNat 0 10)

/-! ### QoS (15 R281, R283, R284, R287) -/

/-- A regulator's register as it will stand at the next boundary. -/
def State.qosValue (s : State) (off : Nat) : Nat :=
  match s.power.pend.find? fun p => p.off == off with
  | some p => p.value.toNat
  | none => (s.ctl64 off).toNat

def State.writeQos (s : State) (n dw : Nat) (v : DWord) : State :=
  let off := offQos n + 8 * dw
  let x := v.toNat
  let ok :=
    if dw = 0 then
      bitsOf x 0 24 % 64 == 0 && bitsOf x 24 24 % 64 == 0 &&
        !(bitsOf x 24 24 != 0 && bitsOf x 0 24 != 0 && bitsOf x 0 24 < bitsOf x 24 24)
    else 8 ≤ n || (List.range 8).all fun m => m == n || (s.qosValue (offQos m + 8) &&& bitsOf x 0 16) == 0
  let v := if dw = 0 then
      (if 10 ≤ n && n ≤ 13 then putF (masked v 0x3FFFFFFFFFFFF#64) 48 2 (s.ctlF off 48 2) else masked v 0x3FFFFFFFFFFFF#64)
    else masked v 0xFFFF#64
  if ok then
    { s with power := { s.power with
      pend := s.power.pend.filter (fun p => p.off != off) ++ [{ off, value := v, due := s.time / 1000 + 1 }] } }
  else s.reject offQOSCTL 0

/-- A head's urgency from its fill and thresholds; 0 where it does not scan. -/
def State.headUrgency (s : State) (h : Nat) : Nat :=
  if s.power.scanning.getLsbD h then
    (([(0, 10), (10, 10), (20, 10)] : List (Nat × Nat)).filter fun f =>
      s.ctlF (offHEADURG h) 32 17 < 64 * s.ctlF (offHEADURG h) f.1 f.2).length
  else 0
def State.updateUrgency (s : State) (h : Nat) : State := s.setCtlF (offHEADURG h) 30 2 (s.headUrgency h)

def State.writeHeadurg (s : State) (h : Nat) (v : DWord) : State :=
  let x := v.toNat
  if bitsOf x 0 10 < bitsOf x 10 10 ∨ bitsOf x 10 10 < bitsOf x 20 10 then s.reject offQOSCTL 0
  else (s.setCtlF (offHEADURG h) 0 30 (bitsOf x 0 30)).updateUrgency h

/-- An enabled partition 1 to 7 has a region of the granule pair. -/
def State.pairHeld (s : State) (pair : Nat) : Bool :=
  ([1, 2, 3, 4, 5, 6, 7] : List Nat).any fun p =>
    s.partOn p && (List.range 8).any fun k =>
      let r := (s.ctl64 (offPart p + 0x40 + 8 * k)).toNat
      bitOf r 63 && bitsOf r 21 19 < 1024 * (pair + 1) && 1024 * pair < bitsOf r 21 19 + bitsOf r 42 19

def State.writePlcmap (s : State) (i : Nat) (v : DWord) : State :=
  let changed := ((List.range 64).filter fun b => bitOf (s.ctl64 (offPLCMAP i) ^^^ v).toNat b).map fun b => 64 * i + b
  if changed.any s.pairHeld then s.reject offQOSCTL 0
  else if changed.isEmpty then s
  else
    let s := (s.setCtl (offPLCMAP i) v).setCtlF offQOSCTL 1 1 1
    { s with homes := { s.homes with scrub := s.homes.scrub ++ changed.filter fun p => !s.homes.scrub.contains p } }

/-! ### Dispatcher block (17 R293, R295, R299) -/

/-- A power of two from 1 to a bound, or 0. -/
def ringCapOk (bound v : Nat) : Bool := v == 0 || (List.range 17).any fun k => v == 2 ^ k && v ≤ bound

def State.writeDspctl (s : State) (v : DWord) : State :=
  let a := bitsOf v.toNat 0 10
  if a = 0 ∨ 1000 < a then s.reject offDSPCTL 16 else (s.w1c offDSPCTL 16 v).setCtlF offDSPCTL 0 10 a

/-- HLQ p. A CAP that is neither 0 nor a power of two up to 65,536 is rejected as a change of a ring in use is: R293 names
such values in its map and does not say what a write of another does (log 61). -/
def State.writeHlq (s : State) (p dw : Nat) (v : DWord) : State :=
  let off := offHLQ p
  let head := s.ctlF (off + 16) 0 32
  let tail := s.ctlF (off + 24) 0 32
  let x := bitsOf v.toNat 0 32
  match dw with
  | 0 => if tail ≠ head ∧ v ≠ s.ctl64 off then s.reject offDSPCTL 16 else s.setCtl off v
  | 1 =>
    if (tail ≠ head ∧ x ≠ s.ctlF (off + 8) 0 32) ∨ !ringCapOk 65536 x then s.reject offDSPCTL 16
    else s.setCtlF (off + 8) 0 32 x
  | 3 => if s.ctlF (off + 8) 0 32 < (x + 2 ^ 32 - head) % 2 ^ 32 then s.reject offDSPCTL 16 else s.setCtlF (off + 24) 0 32 x
  | _ => s

/-! ### Coherence (22 R343 to R349) -/

/-- The transfer that OWNCMD asked for goes on, or is complete. -/
def State.ownStep (s : State) : State :=
  match s.homes.ownReq with
  | none => s
  | some (r, host) =>
    if s.region r == regionOwner host then
      ({ s with homes := { s.homes with ownReq := none } }).setCtlF offOWNCMD 63 1 0
    else if host then s.wantHost r else s.wantAcc r

/-- OWNCMD: rejected with a REGION that memory does not have, and with GO = 1 while a transfer it asked for is under way. -/
def State.writeOwncmd (s : State) (v : DWord) : State :=
  let x := v.toNat
  let keep := masked v 0x400000FFFFE00000#64
  if regionCount ≤ bitsOf x 21 19 ∨ (bitOf x 0 ∧ s.homes.ownReq.isSome) then s.reject offCOHCTL 16
  else if bitOf x 0 then
    ({ s.setCtl offOWNCMD (putF keep 63 1 1) with homes := { s.homes with ownReq := some (bitsOf x 21 19, bitOf x 62) } }).ownStep
  else s.setCtl offOWNCMD (putF keep 63 1 (s.ctlF offOWNCMD 63 1))

/-- The state of a region as OWNQ reads it. -/
def regionCode : Region → Nat
  | .host => 0
  | .acc => 1
  | .toHost => 2
  | .toAcc => 3

/-- Copies of the lines but some in any L1, casts of them in flight, and fills of them under way, are dropped. -/
def State.dropLine (s : State) (keep : Nat → Bool) : State := (s.landCasts fun l => !keep l).dropCopies (fun l => !keep l) true

/-- The lines of a range of addresses. -/
def inRange (base len line : Nat) : Bool := base ≤ 64 * line && 64 * line < base + len

/-- The checks of a migration's command (R345). -/
def State.migOk (s : State) (k : Nat) : Bool :=
  let len := s.migLen k
  let src := s.migSrc k
  let dst := s.migDst k
  let apart (a b la lb : Nat) : Bool := a + la ≤ b || b + lb ≤ a
  s.ctlF (offMIG k + 16) 4 2 != 3 && src % len == 0 && dst % len == 0 && s.region (regionOf src) == s.region (regionOf dst) &&
    (List.range 4).all fun j => j == k || s.migState j == 0 ||
      (apart src (s.migSrc j) len (s.migLen j) && apart src (s.migDst j) len (s.migLen j) &&
       apart dst (s.migSrc j) len (s.migLen j) && apart dst (s.migDst j) len (s.migLen j))

/-- The recall of every host copy in a range: copies held shared go at once, an exclusive holder is asked. -/
def State.recallRange (s : State) (base len : Nat) : State :=
  { s with homes := { s.homes with
    hostDir := (s.homes.hostDir.map fun e =>
      if inRange base len e.1 then
        (e.1, if e.2.excl.isSome then { e.2 with recallAt := some (e.2.recallAt.getD s.ps) } else {})
      else e).filter fun e => !(e.2 == {}) } }

def State.setMigState (s : State) (k st : Nat) : State := s.setCtlF (offMIG k + 16) 62 2 st

/-- The address a held write was made at, none where it is no longer there. -/
def State.heldPa (s : State) (h : Nat × Nat) : Option Nat :=
  if h.1 < 640 then ((s.core h.1).stores.find? fun t => t.id == h.2 && !t.done).map (·.pa)
  else (s.homes.hostHeld.find? fun e => e.1 == h.2).map fun e => 64 * e.2.1
def State.dropHeld (s : State) (h : Nat × Nat) : State :=
  { s with homes := { s.homes with
    held := s.homes.held.filter (· != h), hostHeld := s.homes.hostHeld.filter fun e => h.1 < 640 || e.1 != h.2 } }

/-- A write of a host, of a PCIe requester included, performs: every host copy of the line goes (R338, R339). -/
def State.hostWrite (s : State) (line : Nat) (data : Line) : State := (s.setHdir line {}).homeWrite (64 * line) 64 data.toNat

/-- The regulator of a host complex, agent 0 or 1, or of the PCIe port 0 or 1, agent 2 or 3, of one (15 R283; 25 R381). -/
def hostRegulator (agent : Nat) : Nat := 8 + agent % 2

/-- A held write of a core performs, once its region and its line may take it; one that meets poison is refused (R346, R347).
It was charged when it came, and goes through the slice of the place where it performs. -/
def State.tryHeldStore (s : State) (c : Nat) (t : Store) : State :=
  match s.devReady (.access c t.id) t.pa with
  | (false, s) => s
  | (true, s) =>
    if s.poisonAt t.pa ≠ 0 then (if s.mayRefuse t then (s.dropHeld (c, t.id)).refuseWrite c t (s.poisonAt t.pa) else s)
    else if s.lineBusy (s.homeOf t.pa) t.id then s
    else (((s.dropHeld (c, t.id)).throughSlice (regulatorOf t.who t.part) (s.forward t.pa)).purgeLine (s.homeOf t.pa)).perform c t

/-- The same of a host's write, in a region of the hosts or, of a PCIe port's, in any. -/
def State.tryHeldHost (s : State) (agent n line : Nat) (data : Line) : State :=
  let h := (640 + agent, n)
  let at_ := s.homeOf (64 * line)
  if s.scrubbing (64 * at_) || (s.hdir at_).excl.isSome then s.recallLine at_
  else if agent < 2 && s.region (at_ / 32768) != .host then s.wantHost (at_ / 32768)
  else if s.lineBusy at_ 0 then s
  else if tblGet 0 s.homes.poison at_ ≠ 0 then s.dropHeld h
  else ((s.dropHeld h).throughSlice (hostRegulator agent) (64 * at_)).hostWrite at_ data

/-- A held write whose page has moved performs where its address now leads, when it is the first of its line there. -/
def State.tryHeld (s : State) (h : Nat × Nat) : State :=
  match s.heldPa h with
  | none => s.dropHeld h
  | some pa =>
    let first := (s.homes.held.find? fun e => (s.heldPa e).map s.homeOf == some (s.homeOf pa)) == some h
    if s.migLocked pa || !first then s
    else if h.1 < 640 then
      match (s.core h.1).stores.find? fun t => t.id == h.2 with
      | some t => s.tryHeldStore h.1 t
      | none => s
    else match s.homes.hostHeld.find? fun e => e.1 == h.2 with
      | some e => s.tryHeldHost (h.1 - 640) h.2 e.2.1 e.2.2
      | none => s

/-- A page has been switched: the writes held for it go to its new place from now on, released or not (R346). -/
def State.retarget (s : State) : State :=
  let s : State := { s with homes := { s.homes with
    hostHeld := s.homes.hostHeld.map fun e => (e.1, s.homeOf (64 * e.2.1), e.2.2) } }
  s.homes.held.foldl (fun s h => if h.1 < 640 then
      s.modCore h.1 fun co => { co with stores := mapIf (fun t => t.id == h.2) (fun t => { t with pa := s.forward t.pa }) co.stores }
    else s) s

/-- The held writes go, in the order they reached the home (R346). -/
def State.performHeld (s : State) : State := s.homes.held.foldl State.tryHeld s

/-- A command of a migration slot (R346): 1 start, 2 switch, 3 release. Every one meets the checks of R345 (log 88). -/
def State.migCommand (s : State) (k cmd : Nat) : State :=
  let src := s.migSrc k
  let len := s.migLen k
  if !s.migOk k then s.reject offCOHCTL 16
  else match cmd with
  | 1 =>
    if s.migState k = 0 then
      (((s.setMigState k 1).recallRange src len).landCasts (inRange src len)).dropCopies (inRange src len) false
    else s.reject offCOHCTL 16
  | 2 =>
    if s.migState k = 2 then ((((s.dropLine fun l => !inRange src len l).recallRange src len).setMigState k 3).retarget).performHeld
    else s.reject offCOHCTL 16
  | 3 => if s.migState k = 3 then s.setMigState k 0 else s.reject offCOHCTL 16
  | _ => s.reject offCOHCTL 16

/-- MIG k: dw2 takes the commands 1 to 3 and rejects any other, and one with another SIZE than that of the page that moves
(R345). -/
def State.writeMig (s : State) (k dw : Nat) (v : DWord) : State :=
  match dw with
  | 0 => s.setCtl (offMIG k) (masked v 0xFFFFFFFFFF#64)
  | 1 => s.setCtl (offMIG k + 8) (masked v 0xFFFFFFFFFF#64)
  | 2 =>
    let sized := s.setCtlF (offMIG k + 16) 4 2 (bitsOf v.toNat 4 2)
    if s.migState k ≠ 0 ∧ bitsOf v.toNat 4 2 ≠ s.ctlF (offMIG k + 16) 4 2 then s.reject offCOHCTL 16
    else
    let r := sized.migCommand k (bitsOf v.toNat 0 3)
    if r = sized.reject offCOHCTL 16 then s.reject offCOHCTL 16 else r
  | _ => s

/-- RECLAIM: with GO = 1 it names a poisoned line, or is rejected (R348). -/
def State.writeReclaim (s : State) (v : DWord) : State :=
  let line := bitsOf v.toNat 6 34
  let keep := masked v 0x1FFFFFFFFC0#64
  if bitOf v.toNat 0 then
    (if tblGet 0 s.homes.poison line = 0 then s.reject offCOHCTL 16
     else { s.setCtl offRECLAIM keep with homes := { s.homes with reclaim := some line } })
  else s.setCtl offRECLAIM (putF keep 63 1 (s.ctlF offRECLAIM 63 1))

/-- The line that a reclaim was asked for and is not done with. -/
def State.reclaiming (s : State) : Option Nat := s.homes.reclaim

/-! ### Fault block (24 R365, R366, R369, R370) -/

def State.writePfring (s : State) (p dw : Nat) (v : DWord) : State :=
  let off := offPFRING p
  let tail := s.ctlF (off + 16) 0 32
  let head := s.ctlF (off + 24) 0 32
  let x := bitsOf v.toNat 0 32
  match dw with
  | 0 => if tail ≠ head ∧ v ≠ s.ctl64 off then s.reject offFLTCTL 0 else s.setCtl off v
  | 1 =>
    if (tail ≠ head ∧ x ≠ s.ctlF (off + 8) 0 32) ∨ !ringCapOk 4096 x then s.reject offFLTCTL 0
    else s.setCtlF (off + 8) 0 32 x
  | 3 => s.setCtlF (off + 24) 0 32 x
  | _ => s

/-- The walk of a fault's access again, with its own kind and privilege (R365). -/
def State.rewalk (s : State) (f : FaultSvc) : Option Bool × State :=
  match s.dieTranslate (.fault f.id) (coreDie f.core) f.part f.user (if f.fetch then .fetch else if f.write then .write else .read) f.va with
  | (.ok .., s) => (some true, s)
  | (.fault .., s) => (some false, s)
  | (.wait _, s) => (none, s)

def State.modFault (s : State) (id : Nat) (f : FaultSvc → FaultSvc) : State :=
  { s with sched := { s.sched with faults := mapIf (fun x => x.id == id) f s.sched.faults } }

/-- Faults that an outstanding ring entry stands for. -/
def State.faultsOf (s : State) (seq : BitVec 32) : List FaultSvc :=
  s.sched.faults.filter fun f => f.seq == some seq && f.outcome.isNone

/-- A retry: each joined access walks again; the service firmware walks for one whose walk must wait. -/
def State.pfRetry (s : State) (seq : BitVec 32) : State :=
  match s.faultsOf seq with
  | [] => s.reject offFLTCTL 0
  | fs => fs.foldl (fun s f => match s.rewalk f with
    | (some b, s) => s.modFault f.id fun x => { x with outcome := some b }
    | (none, s) => s.modFault f.id fun x => { x with hostMode := false, seq := none }) s

def State.pfFail (s : State) (seq : BitVec 32) : State :=
  match s.faultsOf seq with
  | [] => s.reject offFLTCTL 0
  | fs => fs.foldl (fun s f => s.modFault f.id fun x => { x with outcome := some false }) s

def State.writePfresp (s : State) (v : DWord) : State :=
  match bitsOf v.toNat 32 3 with
  | 0 => s.pfRetry (BitVec.ofNat 32 v.toNat)
  | 1 => s.pfFail (BitVec.ofNat 32 v.toNat)
  | _ => s.reject offFLTCTL 0

/-- The contexts that run a task of a partition. -/
def State.partCtxs (s : State) (p : Nat) : List (Nat × Nat) :=
  s.cores.flatMap fun e => (e.2.ctxs.filter fun x => match x.2.task with
    | some t => ((s.launch t.slot).map Launch.part).getD 0 == p
    | none => false).map fun x => (e.1, x.1)

/-- What no kill leaves of a launch: its records, and the generations of its grid barriers that have not completed (07 R176). -/
def State.endGens (s : State) (mine : Nat → Bool) : State :=
  { s with sched := { s.sched with gens := s.sched.gens.filter fun g => !mine g.slot || g.done.isSome } }

/-- The kill of a partition (R370), all but its completion. -/
def State.killPartition (s : State) (p : Nat) : State :=
  let s := s.setCtlF offPKILL (8 + p) 1 1
  let s := (s.partCtxs p).foldl (fun s x => (s.freeSpillFrame p x.1 x.2).killCtx x.1 x.2 0 0#64) s
  let mine (slot : Nat) : Bool := match s.launch slot with | some l => l.part == p | none => false
  let s := (s.sched.spilled.filter fun x => x.part == p).foldl (fun s x => s.freeFrame p (coreDie x.core) x.frame) s
  let working := s.cores.flatMap fun e => e.2.ops.map (·.id)
  let s : State := s.launches.foldl (fun (s : State) e => match e.2 with
    | some l => if l.part = p then s.burySlot e.1 l.serial else s
    | none => s) s
  let s := s.endGens mine
  let s : State := { s with
    launches := s.launches.filter fun e => !mine e.1
    sched := { s.sched with
      spilled := s.sched.spilled.filter fun x => x.part != p
      recs := s.sched.recs.filter fun r => !mine r.slot
      waits := s.sched.waits.filter fun w => w.part != p
      leftOver := s.sched.leftOver.filter fun e => e.2.part != p
      faults := (s.sched.faults.filter fun (f : FaultSvc) => f.part != p || (f.exk == 2 && working.contains f.op)).map fun (f : FaultSvc) =>
        if f.part = p then { f with seq := none } else f
      sillage0 := s.sched.sillage0.filter fun e => e.part != p
      sillage1 := s.sched.sillage1.filter fun e => e.part != p
      walks := s.sched.walks.filter fun x => x.part != p
      walker0 := s.sched.walker0.filter fun e => e.part != p
      walker1 := s.sched.walker1.filter fun e => e.part != p }
    homes := { s.homes with pins := s.homes.pins.filter fun l => !s.memHolds p (l / 32768) } }
  let evict := s.cores.flatMap fun e =>
    if s.rectHolds p e.1 then (e.2.l1.filter (·.pushed)).map fun x => (e.1, x.line) else []
  let cores := s.cores.map fun e => (e.1, { e.2 with
    itlb := e.2.itlb.filter fun t => t.part != p, dtlb := e.2.dtlb.filter fun t => t.part != p
    l1 := if s.rectHolds p e.1 then e.2.l1.filter fun x => !x.pushed else e.2.l1
    ctxs := e.2.ctxs.map fun k => (k.1, { k.2 with pending := k.2.pending.filter fun x => (launchOfBits x.bits).part != p }) })
  let s : State := { s with cores := cores.filter fun (e : Nat × Core) => !(e.2 == ({} : Core)) }
  let s := evict.foldl (fun s e => s.send e.1 e.2 .evicted) ((s.cores.map (·.1)).foldl State.sweep s)
  let s := s.setCtlF (offPFRING p + 24) 0 32 (s.ctlF (offPFRING p + 16) 0 32)
  (s.setCtlF (offHLQ p + 16) 0 32 (s.ctlF (offHLQ p + 24) 0 32)).lapse

/-- A write of PKILL: bit 0 is rejected; a partition whose kill is in progress stays so. -/
def State.writePkill (s : State) (mask : BitVec 8) : State :=
  if mask.getLsbD 0 then s.reject offFLTCTL 0
  else (List.range 8).foldl (fun s p =>
    if mask.getLsbD p && s.ctlF offPKILL (8 + p) 1 == 0 then s.killPartition p else s) s

/-! ### Partition block (25 R372, R373, R375) -/

/-- Rectangles and ranges of two partitions overlap nowhere; an empty one overlaps nothing. -/
def rectsApart (a b : Nat) : Bool :=
  !bitOf a 63 || !bitOf b 63 || ([a, b].any fun x => bitsOf x 12 6 == 0 || bitsOf x 18 6 == 0) ||
    bitsOf a 0 6 + bitsOf a 12 6 ≤ bitsOf b 0 6 || bitsOf b 0 6 + bitsOf b 12 6 ≤ bitsOf a 0 6 ||
    bitsOf a 6 6 + bitsOf a 18 6 ≤ bitsOf b 6 6 || bitsOf b 6 6 + bitsOf b 18 6 ≤ bitsOf a 6 6
def rangesApart (a b : Nat) : Bool :=
  !bitOf a 63 || !bitOf b 63 || ([a, b].any fun x => bitsOf x 42 19 == 0) ||
    bitsOf a 21 19 + bitsOf a 42 19 ≤ bitsOf b 21 19 || bitsOf b 21 19 + bitsOf b 42 19 ≤ bitsOf a 21 19

/-- A rectangle or a range is one that R372's map allows: whole clusters of the package, regions of memory. -/
def rectOk (x : Nat) : Bool :=
  ([0, 6, 12, 18].all fun lo => bitsOf x lo 6 % 4 == 0) && bitsOf x 0 6 + bitsOf x 12 6 ≤ 40 && bitsOf x 6 6 + bitsOf x 18 6 ≤ 16
def rangeOk (x : Nat) : Bool := 1 ≤ bitsOf x 42 19 && bitsOf x 21 19 + bitsOf x 42 19 ≤ regionCount

/-- The conditions of setting EN (R373). -/
def State.enableOk (s : State) (p : Nat) : Bool :=
  s.ctlF (offPart p) 2 1 == 1 &&
    (([1, 2, 3, 4, 5, 6, 7] : List Nat).all fun q => q == p || !s.partOn q ||
      (((List.range 4).all fun i => (List.range 4).all fun j =>
        rectsApart (s.ctl64 (offPart p + 0x10 + 8 * i)).toNat (s.ctl64 (offPart q + 0x10 + 8 * j)).toNat) &&
       (List.range 8).all fun i => (List.range 8).all fun j =>
        rangesApart (s.ctl64 (offPart p + 0x40 + 8 * i)).toNat (s.ctl64 (offPart q + 0x40 + 8 * j)).toNat)) &&
    s.cores.all fun e => !s.rectHolds p e.1 || e.2.ctxs.all fun x => x.2.task.isNone || s.partOf e.1 x.1 == p

/-- The conditions of clearing EN. -/
def State.disableOk (s : State) (p : Nat) : Bool :=
  s.ctlF offPKILL (8 + p) 1 == 0 && (s.sched.spilled.all fun x => x.part != p) &&
    s.launches.all fun e => match e.2 with | some l => l.part != p | none => true

/-- KEYNEW: keys are drawn and the partition's ranges scrubbed; BUSY until that is done. -/
def State.startKeys (s : State) (p : Nat) : State :=
  let s := (s.setCtlF (offPart p) 3 1 1).setCtlF (offPart p) 2 1 0
  { s with homes := { s.homes with keyScrub := s.homes.keyScrub.filter (· != p) ++ [p] } }

/-- PCTL: while EN = 1 only a write that clears it is taken; a write may set or clear EN and draw keys at once (R373). -/
def State.writePctl (s : State) (p : Nat) (v : DWord) : State :=
  let en := bitOf v.toNat 0
  let keys (s : State) : State := if bitOf v.toNat 1 then s.startKeys p else s
  if p = 0 then s.reject offPSTAT 0
  else if s.partOn p then
    (if en || !s.disableOk p then s.reject offPSTAT 0 else keys (s.setCtlF (offPart p) 0 1 0))
  else if en then
    (if !s.enableOk p then s.reject offPSTAT 0 else keys (s.setCtlF (offPart p) 0 1 1))
  else keys s

/-- PROOT, PRECT and PMEM (R372); partition 0 has a PROOT only. A valid rectangle or range that the map excludes is
rejected (log 63). -/
def State.writePart (s : State) (p off : Nat) (v : DWord) : State :=
  if off = 0x30 ∨ off = 0x38 then s
  else if p ≠ 0 ∧ s.partOn p then s.reject offPSTAT 0
  else if off = 8 then s.setCtl (offPart p + 8) (masked v 0xFFFFFFF000#64)
  else if p = 0 then s
  else if bitOf v.toNat 63 && !(if off < 0x30 then rectOk v.toNat else rangeOk v.toNat) then s.reject offPSTAT 0
  else if off < 0x30 then s.setCtl (offPart p + off) (masked v 0x8000000000FFFFFF#64)
  else s.setCtl (offPart p + off) (masked v 0xDFFFFCFFFFE00000#64)

/-! ### Service block (25 R376, R379) -/

def offSvcResp (die : Nat) : Nat := offSvc die + 0x40
def offSvcCtl (die : Nat) : Nat := offSvc die + 0x48
def offMeas (die i : Nat) : Nat := offSvc die + 0x100 + 32 * i
def offMext (die : Nat) : Nat := offSvc die + 0x200
def offMextgo (die : Nat) : Nat := offSvc die + 0x220

def State.writeSvcRing (s : State) (die ring dw : Nat) (v : DWord) : State :=
  let off := offSvc die + 0x20 * ring
  let tail := s.ctlF (off + 16) 0 32
  let head := s.ctlF (off + 24) 0 32
  let x := bitsOf v.toNat 0 32
  match dw with
  | 0 => if tail ≠ head ∧ v ≠ s.ctl64 off then s.reject (offSvcCtl die) 0 else s.setCtl off v
  | 1 =>
    if (tail ≠ head ∧ x ≠ s.ctlF (off + 8) 0 32) ∨ !ringCapOk 4096 x then s.reject (offSvcCtl die) 0
    else s.setCtlF (off + 8) 0 32 x
  | 3 => s.setCtlF (off + 24) 0 32 x
  | _ => s

/-- The outstanding record of a host ring that an index names, and where the record of that index stands: where it was
written, or, of one that has completed, in the ring as it is now. -/
def State.hostRecord (s : State) (die n : Nat) : Option Batch × Nat :=
  match s.svc.batches.find? fun b => b.die == die && b.host && b.index == n with
  | some b => (some b, b.addr)
  | none => (none, s.ringRecord (offSvc die + 0x20) n)

/-- A record of that index has been written: it is outstanding, or lies at most 2^31 records behind TAIL (log 89). -/
def State.recordWritten (s : State) (die n : Nat) : Bool :=
  let off := offSvc die + 0x20
  let age := (s.ctlF (off + 16) 0 32 + 2 ^ 32 - n) % 2 ^ 32
  (s.hostRecord die n).1.isSome || (s.ctlF (off + 8) 0 32 != 0 && age != 0 && age ≤ 2 ^ 31)

/-- What a write of a register reads in memory is ready at its homes: SVCRESP reads a record (22 R339, R341). -/
def State.regReady (s : State) (a : Agent) (off : Nat) (v : DWord) : Bool × State :=
  match ([0, 1] : List Nat).find? fun die => off == offSvcResp die with
  | none => (true, s)
  | some die =>
    let n := bitsOf v.toNat 0 32
    if s.recordWritten die n then s.allReady a false (recordPieces (s.hostRecord die n).2) else (true, s)

/-- SVCRESP: the batch whose record is written and whose DONE is set completes; one that has completed does so no second
time (R376). The record is ready at its homes. -/
def State.writeSvcresp (s : State) (die : Nat) (v : DWord) : State :=
  let n := bitsOf v.toNat 0 32
  match s.hostRecord die n with
  | (b, pa) =>
    if !s.recordWritten die n || s.poisonAt pa != 0 || s.homeRead (pa + 16) 8 % 2 == 0 then s.reject (offSvcCtl die) 0
    else match b with
      | none => s
      | some b => s.completeBatch b

/-- A 32-byte value at an offset of the control space. -/
def State.ctl256 (s : State) (off : Nat) : Nat :=
  (s.ctl64 off).toNat + (s.ctl64 (off + 8)).toNat * 2 ^ 64 + (s.ctl64 (off + 16)).toNat * 2 ^ 128 + (s.ctl64 (off + 24)).toNat * 2 ^ 192
def State.setCtl256 (s : State) (off v : Nat) : State :=
  (((s.setCtl off (BitVec.ofNat 64 v)).setCtl (off + 8) (BitVec.ofNat 64 (v / 2 ^ 64))).setCtl (off + 16)
    (BitVec.ofNat 64 (v / 2 ^ 128))).setCtl (off + 24) (BitVec.ofNat 64 (v / 2 ^ 192))

/-- An extend of a measurement register by a digest. -/
def State.extendMeas (s : State) (die i digest : Nat) : State :=
  s.setCtl256 (offMeas die i) (valueOf (sha256 (bytesOf (s.ctl256 (offMeas die i)) 32 ++ bytesOf digest 32)))

/-- MEXTGO: MEAS2 to MEAS7 only. -/
def State.writeMextgo (s : State) (die : Nat) (v : DWord) : State :=
  if 2 ≤ v.toNat ∧ v.toNat ≤ 7 then s.extendMeas die v.toNat (s.ctl256 (offMext die)) else s

/-! ### Any register -/

/-- What a 64-bit read of an offset returns. -/
def State.regRead (s : State) (off : Nat) : DWord :=
  if off = offOWNQ then
    BitVec.ofNat 64 ((s.ctl64 offOWNQ).toNat + s.ctlF offOWNCMD 63 1 * 2 ^ 63 + regionCode (s.region (s.ctlF offOWNQ 21 19)))
  else if 0x60000 ≤ off ∧ off < 0x70000 ∧ 0x200 ≤ off % 0x8000 ∧ off % 0x8000 < 0x220 then 0#64
  else s.ctl64 off

/-- A 64-bit write of a register (R371); an offset that no register occupies ignores it. The manual gives SVCCTL no map: its REJ
is bit 0, cleared by writing one, as FLTCTL's is (log 90). -/
def State.regWrite (s : State) (off : Nat) (v : DWord) : State :=
  let blk := off / 0x10000
  let o := off % 0x10000
  if off % 8 ≠ 0 then s
  else match blk with
  | 0 =>
    if o < 0x140 then s.writeClprof (o / 8) v
    else if 0x200 ≤ o ∧ o < 0x480 then s.writeLend ((o - 0x200) / 16) (o % 16 / 8) v
    else if o = 0x600 then s.writePmctl v
    else s
  | 1 =>
    if o < 0xF0 then s.writeQos (o / 16) (o % 16 / 8) v
    else if 0x100 ≤ o ∧ o < 0x120 then s.writeHeadurg ((o - 0x100) / 8) v
    else if o = 0x180 then s.w1c offQOSCTL 0 v
    else if 0x200 ≤ o ∧ o < 0x230 then s.writePlcmap ((o - 0x200) / 8) v
    else s
  | 2 =>
    if o = 0 then s.writeDspctl v
    else if 0x100 ≤ o ∧ o < 0x200 then s.writeHlq ((o - 0x100) / 32) (o % 32 / 8) v
    else if 0x200 ≤ o ∧ o < 0x280 then
      (if o % 16 = 0 then s.setCtl off v else s.setCtl off (masked v 0xFFFF#64))
    else s
  | 3 =>
    if o = 0 then s.w1c offCOHCTL 16 v
    else if o = 0x10 then s.writeOwncmd v
    else if o = 0x18 then s.setCtl offOWNQ (masked v 0xFFFFE00000#64)
    else if 0x100 ≤ o ∧ o < 0x180 then s.writeMig ((o - 0x100) / 32) (o % 32 / 8) v
    else if 0x200 ≤ o ∧ o < 0x300 then (if o % 16 = 0 then s.w1c off 63 v else s)
    else if o = 0x300 then s.writeReclaim v
    else if 0x340 ≤ o ∧ o < 0x380 then s.setCtl off v
    else s
  | 4 =>
    if o = 0 then s.w1c offFLTCTL 0 v
    else if 0x20 ≤ o ∧ o < 0x60 then s.setCtl off (masked v 0xFFFF#64)
    else if o = 0x60 then s.writePkill (BitVec.ofNat 8 v.toNat)
    else if o = 0x80 then s.writePfresp v
    else if 0x100 ≤ o ∧ o < 0x200 then s.writePfring ((o - 0x100) / 32) (o % 32 / 8) v
    else if 0x400 ≤ o ∧ o < 0x600 then (if o % 32 = 0 then s.w1c off 63 v else s)
    else s
  | 5 =>
    if o = 0xF00 then s.w1c offPSTAT 0 v
    else if o < 0x800 then
      (if o % 0x100 = 0 then s.writePctl (o / 0x100) v
       else if o % 0x100 < 0x80 then s.writePart (o / 0x100) (o % 0x100) v else s)
    else s
  | 6 =>
    let die := o / 0x8000
    let q := o % 0x8000
    if q < 0x40 then s.writeSvcRing die (q / 0x20) (q % 0x20 / 8) v
    else if q = 0x40 then s.writeSvcresp die v
    else if q = 0x48 then s.w1c (offSvcCtl die) 0 v
    else if 0x200 ≤ q ∧ q < 0x220 then s.setCtl off v
    else if q = 0x220 then s.writeMextgo die v
    else s
  | _ => s

/-- A device context's write of a register (R371). The power manager's, the QoS and the coherence block, HLQ, PFRING and
PFRESP are a service context's and the host's alone, MEXT and MEXTGO the host's (12 R258; 15; 17 R293; 22; 24 R365;
R379): another context's write there is ignored (log 62). -/
def State.devRegWrite (s : State) (w : Who) (off : Nat) (v : DWord) : State :=
  let o := off % 0x10000
  let hostOnly := off / 0x10000 == 6 && 0x200 ≤ o % 0x8000 && o % 0x8000 < 0x228
  let serviceOnly := match off / 0x10000 with
    | 0 | 1 | 3 => true
    | 2 => 0x100 ≤ o && o < 0x200
    | 4 => o == 0x80 || (0x100 ≤ o && o < 0x200)
    | _ => false
  if hostOnly || (serviceOnly && !isServiceCtx w.core (w.ctx % 8)) then s else s.regWrite off v

end Sys2Proof.Machine
end

