-- ==== Sys2Proof/Machine/Home.lean ====
section
/-! DEFINITION. Steps of the homes and of the messages between homes and cores: reads, writes, returns, casts,
invalidations, completions, the gauge window, the release of a grid barrier (21 R325 to R336; 02 R33; 12 R266;
20 R320). A step that is not due changes nothing (log 6). -/

namespace Sys2Proof.Machine

def Core.findLoad (co : Core) (id : Nat) : Option Load := co.loads.find? fun l => l.id == id
def Core.findStore (co : Core) (id : Nat) : Option Store := co.stores.find? fun t => t.id == id

/-- An asynchronous error of an access (24 R367): the executor's own trap, or one that names an exited thread while
its task runs on. -/
def State.accessError (s : State) (w : Who) (cause sub : Nat) (va : DWord) : State :=
  if w.ctx < 16 && (s.ctx w.core (w.ctx % 8)).resident then
    s.asyncTrap { w with ctx := w.ctx % 8 } cause sub va 0#64 (if w.tid.isNone then 1 else 0) (8 ≤ w.ctx)
  else s

/-! ### HOME_READ (R325) -/

/-- The access waits for its own turn: accesses to one line leave a core in order, and nothing that the copy would
have to show is still hidden (R323, log 17). -/
def State.readTurn (s : State) (c : Nat) (l : Load) : Bool :=
  let co := s.core c
  let line := s.homeOf l.pa
  (co.loads.all fun k => l.id ≤ k.id || s.homeOf k.pa != line || k.data.isSome) &&
    co.stores.all fun t => l.id ≤ t.id || s.homeOf t.pa != line ||
      !(t.opaqueTo l.who || (t.who == l.who && s.homes.held.contains (c, t.id)))

/-- The line as the home holds it with the core's own older writes over it. -/
def State.readLine (s : State) (c : Nat) (l : Load) : Line :=
  (s.core c).stores.foldl
    (fun d t => if t.id < l.id && t.shown && s.homeOf t.pa == s.homeOf l.pa then t.overlay d else d) (s.lineAt l.pa)

/-- The home has answered a read. -/
def State.capture (s : State) (c id : Nat) (data : Line) (err : Nat) : State :=
  s.modCore c fun co => { co with loads := mapIf (fun l => l.id == id) (fun l => { l with data := some data, err }) co.loads }

/-- The home has answered a read, whose wait at its region is over. -/
def State.answered (s : State) (c : Nat) (l : Load) (data : Line) (err : Nat) : State :=
  (s.capture c l.id data err).served (regionOf (s.forward l.pa)) (.access c l.id)

/-- A read that waits for its region lets a younger write of its core go first only by going itself (22 R341). -/
def State.readAllowed (s : State) (c : Nat) (l : Load) : Bool × State :=
  let r := regionOf (s.forward l.pa)
  let mark := (tblGet (0, 0) s.homes.moving r).1
  if s.region r == .toHost &&
      (s.core c).stores.any fun t => l.id < t.id && t.id < mark && !t.done && s.homeOf t.pa == s.homeOf l.pa then
    (!s.scrubbing (s.forward l.pa), s)
  else s.devReady (.access c l.id) l.pa

/-- The read reaches its home. -/
def State.homeReadOf (s : State) (c : Nat) (l : Load) : State :=
  if inCtl l.pa then
    let v := s.regRead ((l.pa - ctlBase) / 8 * 8)
    s.capture c l.id (lineSet 0#512 (l.pa % 64) 8 v.toNat) 0
  else
    match s.readAllowed c l with
    | (false, s) => s
    | (true, s) =>
      match s.regulate (.access c l.id) (regulatorOf l.who l.part) l.pa with
      | (false, s) => s
      | (true, s) =>
        let err := s.poisonAt l.pa
        s.answered c l (if err = 0 then s.readLine c l else 0#512) err

def execHomeRead (core id : Nat) (s : State) : Res :=
  .next (match (s.core core).findLoad id with
    | none => s
    | some l => if l.data.isNone && s.readTurn core l then s.homeReadOf core l else s)

/-! ### HOME_WRITE (R325, R334) -/

/-- What a release waits for (07 R159, R160). -/
def State.releaseDue (s : State) (c : Nat) (t : Store) : Bool :=
  let co := s.core c
  !t.release ||
    ((co.loads.all fun l => l.who != t.who || t.id < l.id) &&
     (co.stores.all fun u => t.id ≤ u.id || u.done ||
       (u.who != t.who || (u.shown && (match u.kind with | .cast .. => false | _ => true))) && !t.wide) &&
     s.homes.stcs.all fun x => x.who != t.who || t.id < x.id)

/-- Writes to one line leave a core in order, after older reads of it by the same executor (R323, log 17). -/
def State.writeTurn (s : State) (c : Nat) (t : Store) : Bool :=
  let co := s.core c
  let line := s.homeOf t.pa
  (co.stores.all fun u => t.id ≤ u.id || u.done || s.homeOf u.pa != line) &&
    co.loads.all fun l => t.id ≤ l.id || l.who != t.who || s.homeOf l.pa != line || l.data.isSome

/-- The acknowledgements that a write waits for. -/
def State.setAcks (s : State) (c id : Nat) (a : Option (List Nat)) : State :=
  s.modCore c fun co => { co with stores := mapIf (fun u => u.id == id) (fun u => { u with acks := a }) co.stores }

/-- The write is at its home and every copy it must remove is gone: it performs, or is held (22 R346), or meets
poison, which is reported once its executor can take the trap. -/
def State.finishWrite (s : State) (c : Nat) (t : Store) : State :=
  if s.migLocked t.pa && s.writesLine t then
    let s := s.setAcks c t.id none
    { s with homes := { s.homes with held := s.homes.held ++ [(c, t.id)] } }
  else
    match s.poisonAt t.pa with
    | 0 => s.perform c t
    | n =>
      if s.mayRefuse t then (s.refuseWrite c t n).served (regionOf (s.forward t.pa)) (.access c t.id) else s.setAcks c t.id (some [])

/-- The region lets a write through: one that is the device's, or one that moves to the host for the stores that were in
a core's write path when the move began (22 R341). -/
def State.writeAllowed (s : State) (c : Nat) (t : Store) : Bool × State :=
  let r := regionOf (s.forward t.pa)
  if s.region r == .toHost && t.id < (tblGet (0, 0) s.homes.moving r).1 then (!s.scrubbing (s.forward t.pa), s)
  else s.devReady (.access c t.id) t.pa

/-- The write finds its line to itself: it may take the copies of it away. One that is to be held, or refused, takes none. -/
def State.takesLine (s : State) (t : Store) : Bool := s.writesLine t && !s.migLocked t.pa && s.poisonAt t.pa == 0

/-- The write reaches the home of its line. -/
def State.homeWriteOf (s : State) (c : Nat) (t : Store) : State :=
  let a : Agent := .access c t.id
  if inCtl t.pa then
    match t.kind with
    | .plain _ data =>
      (match s.regReady a (t.pa - ctlBase) (BitVec.ofNat 64 data) with
       | (true, s) => ((s.dropStore c t.id).forget a).devRegWrite t.who (t.pa - ctlBase) (BitVec.ofNat 64 data)
       | (false, s) => s)
    | _ => s
  else
    match s.writeAllowed c t with
    | (false, s) => s
    | (true, s) =>
      if (s.takesLine t && s.lineBusy (s.homeOf t.pa) t.id) || (s.poisonAt t.pa != 0 && !s.migLocked t.pa && !s.mayRefuse t) then
        s.unqueue a
      else
        match s.regulate a (regulatorOf t.who t.part) t.pa with
        | (false, s) => s
        | (true, s) =>
          match (if s.takesLine t then s.castTargets c t.pa else []) with
          | [] => s.finishWrite c t
          | targets => targets.foldl (fun s k => s.send k (lineOf (s.forward t.pa)) (.invalidate t.id c)) (s.setAcks c t.id (some targets))

/-- A held write whose page has moved goes in its turn. -/
def execHomeWrite (core id : Nat) (s : State) : Res :=
  .next (match (s.core core).findStore id with
    | none => s
    | some t =>
      if s.homes.held.contains (core, id) then s.tryHeld (core, id)
      else if !t.done && s.writeTurn core t && s.releaseDue core t then
        (if t.acks = some [] then s.finishWrite core t else if t.acks.isNone then s.homeWriteOf core t else s)
      else s)

/-! ### LOAD_RETURN (02 R33) -/

/-- What an acquire does when it returns (07 R159). -/
def State.returned (s : State) (w : Who) (acquire wide : Bool) : State :=
  let s := if w.ctx < 8 then s.modStrand w fun x => { x with arr := s.fresh } else s
  if acquire && wide then s.dropDemand w.core else s

/-- The return of a load: the destination is written, or keeps its value on an error; the line is filled, or, where the
return fills nothing, no copy that may be older than it stays (21 R323). -/
def State.returnLoad (s : State) (c : Nat) (l : Load) (data : Line) (uncorrectable : Bool) : State :=
  let bad := l.err != 0 || uncorrectable
  if bad && !s.trapRoom l.who then s
  else
    let s := s.modCore c fun co => { co with loads := co.loads.filter fun k => k.id != l.id }
    if bad then
      if l.err ≠ 0 then s.accessError l.who 16 (l.err - 1) l.va else s.accessError l.who 17 0 l.va
    else
      let s := if l.discard then s else s.setDest l.who l.dst (lineGet data (l.pa % 64) l.size)
      let s := s.returned l.who l.acquire l.wide
      let kept := match l1Find (s.core c).l1 (lineOf l.pa) with | some x => x.pushed | none => false
      if !l.fill then s.loseDemand c [lineOf l.pa]
      else if !kept && !(l.acquire && l.wide) then s.fillL1 c { line := lineOf l.pa, pushed := false, data } else s

/-- The return of an atomic. -/
def State.returnAtomic (s : State) (c : Nat) (t : Store) (uncorrectable : Bool) : State :=
  let bad := t.err != 0 || uncorrectable
  if bad && !s.trapRoom t.who then s
  else
    let s := s.dropStore c t.id
    if bad then
      if t.err ≠ 0 then s.accessError t.who 16 (t.err - 1) t.va else s.accessError t.who 17 0 t.va
    else
      let s := if t.discard then s else s.setDest t.who t.dst t.value
      s.returned t.who t.acquire t.wide

def execLoadReturn (core id : Nat) (uncorrectable : Bool) (s : State) : Res :=
  .next (
    let co := s.core core
    match co.findLoad id with
    | some l =>
      (match l.data with
       | none => s
       | some d =>
         if co.loads.all fun k => id ≤ k.id || lineOf k.pa != lineOf l.pa || k.data.isNone then
           s.returnLoad core l d uncorrectable
         else s)
    | none =>
      match co.findStore id with
      | some t => if t.done then s.returnAtomic core t uncorrectable else s
      | none => s)

/-! ### Messages (R332, R334, R335) -/

/-- A message on its way to a core, or to a home. -/
def MsgKind.toCore : MsgKind → Bool
  | .cast .. | .invalidate .. | .stcDone _ => true
  | _ => false

/-- The message, if it is the first of its direction between its core and the home of its line. -/
def State.firstMsg (s : State) (id : Nat) : Option Msg :=
  match s.homes.msgs.find? fun m => m.id == id with
  | none => none
  | some m =>
    match s.homes.msgs.find? fun n => n.core == m.core && n.line == m.line && n.kind.toCore == m.kind.toCore with
    | some n => if n.id = id then some m else none
    | none => none

def execInvalidationArrive (msg : Nat) (s : State) : Res :=
  .next (match s.firstMsg msg with
    | some { core, line, kind := .invalidate store from_, .. } =>
      ((s.dropMsg msg).loseLine core line).send core line (.ack store from_)
    | _ => s)

/-- The core leaves the masks: the holders, and, while the write that it answers still waits for it, the pending targets, for of a
write that is gone what is pending there now is another STC's. The write whose last acknowledgement this is performs. -/
def execInvalidationAck (msg : Nat) (s : State) : Res :=
  .next (match s.firstMsg msg with
    | some { core, line, kind := .ack store from_, .. } =>
      let stands := match (s.core from_).findStore store with | some t => (t.acks.getD []).contains core | none => false
      let s := (s.dropMsg msg).modCast line fun e =>
        { e with holders := e.holders.filter (· != core), pending := if stands then e.pending.filter (· != core) else e.pending }
      match (s.core from_).findStore store with
      | none => s
      | some t =>
        let left := (t.acks.getD []).filter (· != core)
        if !stands then s
        else if left.isEmpty then s.finishWrite from_ t else s.setAcks from_ store (some left)
    | _ => s)

def execCastArrive (msg : Nat) (s : State) : Res :=
  .next (match s.firstMsg msg with
    | some { core, line, kind := .cast stc part data, .. } => (s.dropMsg msg).castLand core line stc part data
    | _ => s)

/-- A target of an STC has replied: more of its casts are sent, or it is complete. -/
def State.castReplied (s : State) (stc core refused : Nat) : State :=
  let s := { s with homes := { s.homes with
      stcs := mapIf (fun t => t.id == stc)
        (fun t => { t with waiting := t.waiting.filter (· != core), refused := t.refused + refused }) s.homes.stcs } }
  (s.sendCasts stc (s.castBurst 16)).castAnswered stc

def execCastInstalledReply (msg : Nat) (s : State) : Res :=
  .next (match s.firstMsg msg with
    | some { core, line, kind := .castInstalled stc, .. } =>
      ((s.dropMsg msg).modCast line fun e =>
        if e.stc == stc && e.pending.contains core then
          { e with pending := e.pending.filter (· != core), holders := e.holders.filter (· != core) ++ [core] }
        else e).castReplied stc core 0
    | _ => s)

def execCastRefusedReply (msg : Nat) (s : State) : Res :=
  .next (match s.firstMsg msg with
    | some { core, line, kind := .castRefused stc, .. } =>
      ((s.dropMsg msg).modCast line fun e =>
        if e.stc == stc then { e with pending := e.pending.filter (· != core) } else e).castReplied stc core 1
    | _ => s)

def execEvictionReport (msg : Nat) (s : State) : Res :=
  .next (match s.firstMsg msg with
    | some { core, line, kind := .evicted, .. } =>
      (s.dropMsg msg).modCast line fun e => { e with holders := e.holders.filter (· != core) }
    | _ => s)

/-- The sender adds the refusals to its CASTREF (R336), which saturates (20 R319); one that is gone hears nothing (R337). -/
def execStcCompletion (msg : Nat) (s : State) : Res :=
  .next (match s.firstMsg msg with
    | some { kind := .stcDone stc, .. } =>
      let s := s.dropMsg msg
      match s.homes.stcs.find? fun t => t.id == stc with
      | none => s
      | some t =>
        let s := { s with homes := { s.homes with stcs := s.homes.stcs.filter fun x => x.id != stc } }
        if 8 ≤ t.who.ctx then s
        else s.modStrand t.who fun x => { x with castRef := BitVec.ofNat 32 (min 0xFFFFFFFF (x.castRef.toNat + t.refused)) }
    | _ => s)

/-- A new window of 1,024 ns begins at a core (20 R320). -/
def execGaugeRateWindow (core : Nat) (s : State) : Res :=
  .next (if (s.core core).windowAt = s.time / 1024 then s
    else s.modCore core fun co => { co with installed := 0, windowAt := s.time / 1024 })

/-! ### GBAR_BATCH_ADMIT (12 R266) -/

/-- The order in which completed generations take the start index. -/
def Gen.zKey (n : Gen) : Nat × Nat × Nat × Nat × Nat :=
  (n.done.getD 0 / 1000, n.slot, n.origin, if n.desc.getLsbD 25 then 1 else 0, n.id)

/-- Lexicographic order. -/
def keyLess (a b : Nat × Nat × Nat × Nat × Nat) : Bool :=
  a.1 < b.1 || (a.1 == b.1 && (a.2.1 < b.2.1 || (a.2.1 == b.2.1 && (a.2.2.1 < b.2.2.1 || (a.2.2.1 == b.2.2.1 &&
    (a.2.2.2.1 < b.2.2.2.1 || (a.2.2.2.1 == b.2.2.2.1 && a.2.2.2.2 < b.2.2.2.2)))))))

/-- The generation is the next to take the start index, at the moment of its completion or later. -/
def State.zTurn (s : State) (n : Gen) : Bool :=
  n.done.isSome && n.batch == 0 && n.done.getD 0 ≤ s.ps &&
    s.sched.gens.all fun m => m.done.isNone || m.batch != 0 || m.id == n.id || keyLess n.zKey m.zKey

/-- Take the start index: the waking cores are ordered by (index − Z) mod 640. -/
def State.takeZ (s : State) (n : Gen) : State :=
  let z := s.sched.z
  let order := sortBy (fun c => (c + 640 - z) % 640) n.waking
  { s with sched := { s.sched with
    z := (z + 37) % 640, zAt := s.time + 1, gens := mapIf (fun m => m.id == n.id) (fun m => { m with waking := order, batch := 1 }) s.sched.gens } }

/-- The next batch of at most 64 cores is admitted, 100 ns after the one before it. -/
def State.letBatch (s : State) (n : Gen) : State :=
  if s.ps < n.done.getD 0 + 100000 * (n.batch - 1) then s
  else
    let rest := n.waking.drop 64
    let gens := if rest.isEmpty then s.sched.gens.filter fun m => m.id != n.id
      else mapIf (fun m => m.id == n.id) (fun m => { m with waking := rest, batch := n.batch + 1 }) s.sched.gens
    { s with sched := { s.sched with gens } }

def execGbarBatchAdmit (gen : Nat) (s : State) : Res :=
  .next (match s.sched.gens.find? fun n => n.id == gen with
    | none => s
    | some n => if 0 < n.batch then s.letBatch n else if s.zTurn n then s.takeZ n else s)

end Sys2Proof.Machine
end

