-- ==== Sys2Proof/Machine/DispAccess.lean ====
section
/-! DEFINITION. The dispatchers' own accesses to memory, the end of a launch, the yield (09 R217, R221; 17 R383). An
access that cannot be made now is listed; a translation fault of it goes to the page-fault service. -/

namespace Sys2Proof.Machine

/-- The access is made as the launch's own accesses would be: its privilege. -/
def State.slotUser (s : State) (slot : Nat) : Bool := !(((s.launch slot).map Launch.priv).getD false)

/-- Where a listed access stands. -/
def DispWait.place (w : DispWait) : Access := if w.write then .write else .read

/-- A lost access is logged, and the service context of its die is signalled (24 R369). -/
def State.accessLost (s : State) (w : DispWait) (cause : Nat) (va : DWord) : State :=
  (s.addLog 4 w.part false cause 0 0 w.slot va).signalService w.die

/-- How an attempt at an access ends: at an address, waiting, with a fault to be served, or lost. -/
inductive Attempt where
  | at_ (pa : Nat)
  | wait
  | fault (cause sub : Nat)
  | lost (cause : Nat)
  deriving DecidableEq, Repr

/-- An access of an agent, once its home can take it: a request of the partition that it serves (15 R283, R285). -/
def State.attempt (s : State) (a : Agent) (w : DispWait) : Attempt × State :=
  match s.dieTranslate a w.die w.part w.user w.place w.va with
  | (.fault 10 _, s) => (.lost 10, s)
  | (.fault c sub, s) => (.fault c sub, s)
  | (.wait _, s) => (.wait, s)
  | (.ok pa _, s) =>
    if inCtl pa then (.lost 9, s)
    else match s.accReady a w.write pa with
      | (true, s) => (if s.poisonAt pa ≠ 0 then .lost 16 else .at_ pa, (s.ask w.part pa).served (regionOf (s.forward pa)) a)
      | (false, s) => (.wait, s)

/-- An access by itself, under its number: it is over and takes effect, or has met a fault, or waits for a home or for tokens. -/
def State.attemptAlone (s : State) (w : DispWait) : Attempt × State :=
  match s.noAsks.attempt (.listed w.id) w with
  | (.wait, s) => (.wait, s.noAsks)
  | (r, s) => match s.settle (.listed w.id) with
    | (true, s) => (r, s)
    | (false, s) => (.wait, s.noAsks)

/-- What a write or decrement does at its address: the kinds 1 to 5, 9 and 10. LATE is bit 3 of its byte. -/
def State.applyWait (s : State) (w : DispWait) (pa : Nat) : State :=
  match w.kind with
  | 1 | 3 | 9 => s.homeWrite pa w.bytes w.value.toNat
  | 4 => s.homeWrite pa 1 (s.homeRead pa 1 ||| 8)
  | 10 => s.homeWrite pa 16 (w.value.toNat + w.next.toNat * 2 ^ 64)
  | _ => s.decJoin (pa - 16)

/-- Make an access, or list it: `f` is what it does at its address, and `lost` what follows where it is lost; true where nothing of
it is left. -/
def State.makeOrList (s : State) (w : DispWait) (f : Nat → State → State) (lost : State → State) : Bool × State :=
  match s.numbered w with
  | (w, s) => match s.attemptAlone w with
    | (.at_ pa, s) => (true, f pa (s.dropWait w.id))
    | (.lost c, s) => (true, lost ((s.dropWait w.id).accessLost w c w.va))
    | (.wait, s) => (false, s.listWait w)
    | (.fault c sub, s) => (false, s.listFault w c sub w.va)

/-- A write or decrement. -/
def State.writeOrList (s : State) (w : DispWait) : Bool × State := s.makeOrList w (fun pa s => s.applyWait w pa) id

/-- A dispatcher's decrement of a record, none for address 0: the access is to its dw2. -/
def State.decrement (s : State) (die slot part kind : Nat) (user : Bool) (va : DWord) : Bool × State :=
  if va = 0#64 then (true, s)
  else s.writeOrList { id := 0, die, slot, part, va := va + 16#64, write := true, kind, user }

/-! ### The end of a launch (R221) -/

/-- The slot is free again, and nothing keeps its number; generations of its grid barriers that no one completed end (07 R176);
what it has launched and is not yet accepted stays in its overflow area (log 35). -/
def State.freeSlot (s : State) (slot : Nat) : State :=
  match s.launch slot with
  | none => s
  | some l =>
    let s := ((s.burySlot slot l.serial).setLaunch slot none).endGens (· == slot)
    if l.ovq.isEmpty then s else { s with sched := { s.sched with leftOver := s.sched.leftOver ++ [(slot, l)] } }

/-- The decrement of SUCC, and the end. -/
def State.endSucc (s : State) (slot : Nat) (l : Launch) : State :=
  match s.decrement l.die slot l.part 5 (!l.priv) (BitVec.ofNat 64 l.succ) with
  | (true, s) => s.freeSlot slot
  | (false, s) => s

/-- The DONE write, then the rest. -/
def State.endLaunch (s : State) (slot : Nat) (l : Launch) : State :=
  if l.doneAddr = 0 then s.endSucc slot l
  else
    let w : DispWait :=
      { id := 0, die := l.die, slot, part := l.part, va := BitVec.ofNat 64 l.doneAddr, write := true, kind := 3, user := !l.priv
        value := if l.aborted then 2#64 else 1#64 }
    match s.writeOrList w with
    | (true, s) => s.endSucc slot l
    | (false, s) => s

/-- Nothing of the launch is left but its completion: no record, no task, no engine operation, no store of an aborted task
(24 R369). -/
def State.launchOver (s : State) (slot : Nat) : Bool :=
  (s.sched.recs.all fun r => r.slot != slot) && (s.sched.spilled.all fun x => x.task.slot != slot) &&
    (s.sched.waits.all fun w => w.slot != slot || !(w.kind == 3 || w.kind == 5)) &&
    s.cores.all fun e => (e.2.ops.all fun o => o.slot != slot || o.state == .complete) &&
      (e.2.stores.all fun t => t.launch != some slot || t.done) && e.2.ctxs.all fun x => match x.2.task with | some t => t.slot != slot | none => true

def execLaunchComplete (slot : Nat) (s : State) : Res :=
  .next (match s.launch slot with
    | none => s
    | some l => if s.launchOver slot then s.endLaunch slot l else s)

/-! ### The yield (R217) -/

/-- A yield reads SUCC at its record and decrements it; the reading may have to wait. -/
def State.readSucc (s : State) (w : DispWait) : State :=
  (s.makeOrList w (fun pa s => (s.decrement w.die w.slot w.part 2 w.user (BitVec.ofNat 64 (s.homeRead pa 8))).2) id).2
def State.yieldSucc (s : State) (die slot part : Nat) (user : Bool) (record : DWord) : State :=
  s.readSucc { id := 0, die, slot, part, va := record + 32#64, write := false, kind := 6, user }

/-- Steps 2 to 5 of R217. -/
def State.yieldTask (s : State) (c k : Nat) (t : Task) : State :=
  let left := (((s.launch t.slot).map Launch.startLeft).getD 0) - 1
  let s := if t.startItem then s.modLaunch t.slot fun l => { l with startLeft := left } else s
  let part := s.partOf c k
  let user := s.slotUser t.slot
  let s := if t.startItem ∧ left ≠ 0 then s else s.yieldSucc (coreDie c) t.slot part user t.record
  s.freeCtx c k

/-- TASK_YIELD: the committed yield's release is complete, and the task ends. -/
def execTaskYield (core ctx : Nat) (s : State) : Res :=
  .next (
    let x := s.ctx core ctx
    match x.task with
    | none => s
    | some t =>
      if x.yielding && x.traps.isEmpty && !x.handler && s.releaseReady { core, ctx } true then s.yieldTask core ctx t else s)

end Sys2Proof.Machine
end

