-- ==== Sys2Proof/Machine/Place.lean ====
section
/-! DEFINITION. The order in which a dispatcher takes its ready items, and where it places them (17 R294 to R300). -/

namespace Sys2Proof.Machine

/-- A ready item: a record, or a spilled task. -/
inductive Item where
  | record (r : Rec)
  | spilled (sp : Spilled)
  deriving DecidableEq, Repr

def Item.key : Item → Nat
  | .record r => r.key
  | .spilled sp => sp.key
def Item.slot : Item → Nat
  | .record r => r.slot
  | .spilled sp => sp.task.slot
def Item.level : Item → Nat
  | .record r => r.level
  | .spilled sp => sp.task.level
def Item.readyAt : Item → Nat
  | .record r => r.ready.getD 0
  | .spilled sp => sp.ready

/-! ### The order (R294, R296) -/

/-- The ready items a die's dispatcher serves. -/
def State.items (s : State) (die : Nat) : List Item :=
  ((s.sched.recs.filter fun r => r.die == die && r.ready.isSome && !r.waiting).map .record) ++
    (s.sched.spilled.filter fun sp => coreDie sp.core == die && !s.spilledWaits sp.key).map .spilled

/-- The effective level of a list. -/
def State.effLevel (s : State) (die l : Nat) : Nat := min 7 (l + (tblGet {} s.sched.ages (8 * die + l)).raised)

/-- The deadline an item is ordered by: a record's as its home holds it, a spilled task's as it stood at the spill. -/
def State.itemDl (s : State) : Item → Nat
  | .record r => bitsOf (s.homeRead (r.pa + 24) 8) 0 48
  | .spilled sp => sp.task.deadline.toNat

/-- The distance of a deadline from TIME, modulo 2^48. -/
def State.distance (s : State) (dl : Nat) : Nat := (dl + 2 ^ 48 - s.time % 2 ^ 48) % 2 ^ 48
/-- The deadline is past: the signed distance is below 0. -/
def State.lateBy (s : State) (dl : Nat) : Bool := 2 ^ 47 ≤ s.distance dl

/-- The key of the order: effective level, level, signed distance, ready time. Equal keys go by age. -/
def State.itemKey (s : State) (die : Nat) (x : Item) : Nat × Nat × Nat × Nat × Nat :=
  (7 - s.effLevel die x.level, x.level, (s.distance (s.itemDl x) + 2 ^ 47) % 2 ^ 48, x.readyAt, x.key)

def insertItem (key : Item → Nat × Nat × Nat × Nat × Nat) (x : Item) : List Item → List Item
  | [] => [x]
  | y :: t => if keyLess (key x) (key y) then x :: y :: t else y :: insertItem key x t

/-- All the ready items, smallest key first. -/
def State.order (s : State) (die : Nat) : List Item :=
  (s.items die).foldl (fun l x => insertItem (s.itemKey die) x l) []

/-! ### What a core can take (R297, R298) -/

/-- A launch context of the launch is free on the core. -/
def State.lctxFree (s : State) (c slot lctx : Nat) : Bool :=
  ((s.core c).ctxs.all fun e => match e.2.task with | some t => !(t.slot == slot && t.lctx == lctx) | none => true) &&
    s.sched.spilled.all fun x => !(x.core == c && x.task.slot == slot && x.task.lctx == lctx)

/-- The lowest-numbered one: it is a START = 1 item's too, which R219 gives the first context of its launch there, the one that
every other rule finds free (log 91). -/
def State.freeLctx (s : State) (c slot : Nat) (l : Launch) : Option Nat :=
  (List.range (l.cw + 1)).find? fun i => s.lctxFree c slot i

/-- The item's area holds the core (R290). -/
def Item.inArea (x : Item) (l : Launch) (c : Nat) : Bool :=
  match x with
  | .spilled sp => c == sp.core
  | .record r => match r.onCore with
    | some k => c == k
    | none => l.covers c && match r.onDie with | some d => coreDie c == d | none => true

/-- The core can take the item but for room (R298). A spilled task goes back to its own launch context. -/
def State.mayTake (s : State) (x : Item) (l : Launch) (c : Nat) : Bool :=
  x.inArea l c && s.mxFree c x.slot l && match x with
    | .spilled _ => true
    | .record r => (s.freeLctx c r.slot l).isSome && !s.windowWaits c r.slot

/-- The launch's reservation stands on the core or fits. -/
def State.fits (s : State) (c slot : Nat) (l : Launch) : Bool := s.hasResv c slot || fitsBeside l (s.reserved c)

/-- The core is ready for the item. -/
def State.coreReady (s : State) (x : Item) (l : Launch) (c : Nat) : Bool :=
  s.mayTake x l c && s.fits c x.slot l && (s.hwFor c x.key).isSome

/-- The cores an item's area can hold. -/
def Item.area (x : Item) (l : Launch) : List Nat :=
  (match x with
    | .spilled sp => [sp.core]
    | .record r => match r.onCore with | some k => [k] | none => l.coreList).filter fun c => x.inArea l c

/-! ### The score (R299) -/

/-- Of the bytes of a pin's lines that are still pinned, in the order of its addresses and up to n over all cores, those
homed at the core's stop. -/
def State.pinAt (s : State) (e : Sillage) (n c : Nat) : Nat :=
  ((e.lines.filter fun l => s.homes.pins.contains l.1).foldl (fun (a : Nat × Nat) l =>
    let take := min l.2 (n - a.1)
    let slice := s.sliceOf (64 * l.1)
    (a.1 + take, if sliceStop (slice / 256) (slice % 256) = c then a.2 + take else a.2)) (0, 0)).2

/-- What one table entry contributes to a core for a read-set entry of n bytes. -/
def State.entryScore (s : State) (e : Sillage) (n c : Nat) : Nat :=
  if e.pin then min n (s.pinAt e n c) / 4 else if e.core = c then min n e.bytes else 0

/-- The score of a core for a record's bytes. -/
def State.scoreOf (s : State) (part bits c : Nat) : Nat :=
  (List.range 3).foldl (fun a i =>
    if recBytes bits i = 0 then a
    else ([0, 1] : List Nat).foldl (fun a die =>
      match (s.sillage die).find? fun e => e.hasKey part (recTile bits i) with
      | none => a
      | some e => a + s.entryScore e (recBytes bits i) c) a) 0

/-- The place of the placement table's entry for a record, where host-assisted placement is on (MODE bit 19). -/
def State.pltAt (s : State) (part bits : Nat) : Option Nat :=
  let n := s.ctlF (offPLT part + 8) 0 16
  if !bitOf s.mode.toNat 19 || n == 0 then none else some ((s.ctl64 (offPLT part)).toNat + 2 * ((recTile bits 0).toNat % n))

/-- The core that the placement table prefers for a record. Bits [14:10] of its entry are not looked at (log 71), and an entry
whose line holds poison names no core (log 86). -/
def State.preferred (s : State) (part bits : Nat) : Option Nat :=
  match s.pltAt part bits with
  | none => none
  | some pa =>
    let v := s.homeRead pa 2
    if s.poisonAt pa = 0 && bitOf v 15 then some (bitsOf v 0 10) else none

/-- The score that places a record: by the formula, or by the table (MODE bit 19). -/
def State.placeScore (s : State) (part bits c : Nat) : Nat :=
  if bitOf s.mode.toNat 19 then (if s.preferred part bits = some c then 1 else 0) else s.scoreOf part bits c

/-- The score of a core for an item; what has one core is not scored. -/
def State.score (s : State) (x : Item) (l : Launch) (c : Nat) : Nat :=
  match x with
  | .spilled _ => 0
  | .record r => if r.onCore.isSome then 0 else s.placeScore l.part (s.homeRead r.pa 64) c

/-- Best of R301: greatest score, fewer busy hardware contexts, lowest core. -/
def State.best (s : State) (x : Item) (l : Launch) (cs : List Nat) : Option Nat :=
  (cs.foldl (fun (b : Option (Nat × Nat × Nat)) c =>
    let y := (s.score x l c, s.busyHw c, c)
    match b with
    | none => some y
    | some z =>
      if z.1 < y.1 || (z.1 == y.1 && (y.2.1 < z.2.1 || (y.2.1 == z.2.1 && y.2.2 < z.2.2))) then some y else some z) none).map
    (·.2.2)

/-! ### Victims (R300) -/

/-- How many of the save frames are free, counted up to eight, n of them so far; none where a header must be waited for. -/
def State.freeFrames (s : State) (a : Agent) (die : Nat) : Nat → List Nat → Option Nat × State
  | n, [] => (some n, s)
  | n, j :: t =>
    if 8 ≤ n then (some n, s)
    else match s.frameSpan a die j 0 1 with
      | (.wait, s) => (none, s)
      | (.fault .., s) => s.freeFrames a die n t
      | (.ok pas, s) => s.freeFrames a die (if s.frameState (pas.getD 0 0) = 0 then n + 1 else n) t

/-- Running tasks below a level in the order in which they are taken: lowest level, latest dispatch, highest hardware context.
A context that is stopped for a trap is never asked (24 R353). -/
def State.victimOrder (s : State) (c e : Nat) : List (Nat × Task) :=
  let l := (s.core c).ctxs.filterMap fun x => match x.2.task with
    | some t => if t.level < e && x.2.traps.isEmpty then some (x.1, t) else none
    | none => none
  l.foldl (fun acc x =>
    let before (y : Nat × Task) : Bool :=
      x.2.level < y.2.level || (x.2.level == y.2.level && (y.2.stamp < x.2.stamp || (y.2.stamp == x.2.stamp && y.1 < x.1)))
    (acc.takeWhile fun y => !before y) ++ [x] ++ (acc.dropWhile fun y => !before y)) []

/-- Resident contexts of a launch on a core that are not among the given ones. -/
def State.residentBut (s : State) (c slot : Nat) (out : List Nat) : Nat :=
  ((s.core c).ctxs.filter fun e => !out.contains e.1 && match e.2.task with | some t => t.slot == slot | none => false).length

/-- The reservations left when some contexts are gone. -/
def State.reservedBut (s : State) (c : Nat) (out : List Nat) : Nat × Nat × Nat :=
  ((s.core c).resv.filter fun r => !r.ended).foldl (fun a r => match s.launch r.slot with
    | none => a
    | some l =>
      if s.residentBut c r.slot out = 0 ∧ !s.copyHolds c r.slot then a
      else (a.1 + l.thr, a.2.1 + l.thr * l.regs, a.2.2 + l.smem)) (0, 0, 0)

/-- The least prefix of the order that makes room, at most as many as there are free frames. -/
def State.victims (s : State) (c slot : Nat) (l : Launch) : List (Nat × Task) → Nat → List Nat → Option (List Nat)
  | [], _, _ => none
  | _, 0, _ => none
  | (k, t) :: rest, frames + 1, out =>
    let last := ((s.launch t.slot).map Launch.mxe).getD false && s.residentBut c t.slot (k :: out) == 0
    if last then s.victims c slot l rest (frames + 1) out
    else
      let out := out ++ [k]
      if (s.hasResv c slot && (s.residentBut c slot out != 0 || s.copyHolds c slot)) || fitsBeside l (s.reservedBut c out) then some out
      else s.victims c slot l rest frames out

/-- The victim set for an item on a core. -/
def State.victimSet (s : State) (die : Nat) (x : Item) (l : Launch) (c frames : Nat) : Option (List Nat) :=
  s.victims c x.slot l (s.victimOrder c (s.effLevel die x.level)) frames []

end Sys2Proof.Machine
end

