-- ==== Sys2Proof/Machine/DispatchEv.lean ====
section
/-! DEFINITION. Steps of the dispatchers: dispatch and preemption requests, acceptance of launches, ageing, spills, accesses
that the page-fault service held (17 R290 to R304, R383; 09 R216, R219, R220, R231). A step that is not due changes
nothing (log 6). -/

namespace Sys2Proof.Machine

def State.disp (s : State) (die : Nat) : Disp := tblGet {} s.sched.disps die
def State.modDisp (s : State) (die : Nat) (f : Disp → Disp) : State :=
  { s with sched := { s.sched with disps := tblPut {} s.sched.disps die (f (s.disp die)) } }
def State.modRecs (s : State) (f : List Rec → List Rec) : State := { s with sched := { s.sched with recs := f s.sched.recs } }
/-- A registered record leaves. -/
def State.dropRec (s : State) (key : Nat) : State := (s.modRecs fun l => l.filter fun r => r.key != key).lapse
/-- A record waits for an access that its dispatch needs, or no longer does. -/
def State.recWaits (s : State) (key : Nat) (b : Bool) : State :=
  (s.modRecs (mapIf (fun r => r.key == key) fun r => { r with waiting := b })).lapse

/-! ### Preemption requests (R302) -/

/-- Before a step: members that are gone are forgotten. -/
def State.tidyRequests (s : State) (die : Nat) : State :=
  let tidy (q : Request) : Request := { q with members := q.members.filter fun k => (s.ctx q.core k).marked }
  s.modDisp die fun d =>
    { d with requests := (d.requests.map tidy).filter fun q => !(q.members.isEmpty && q.claim.isNone) }

/-- RequestPreempt: the members of the victim set are marked. -/
def State.requestPreempt (s : State) (die key c : Nat) (members : List Nat) : State :=
  let s := members.foldl (fun s k => s.modCtx c k fun x => { x with marked := true }) s
  s.modDisp die fun d => { d with requests := d.requests ++ [{ key, core := c, members }] }

/-! ### DISPATCH_STEP (R301; R216, R231) -/

/-- A write of the dispatcher for a launch. -/
def dispWrite (die slot part kind bytes : Nat) (user : Bool) (va value : DWord) : DispWait :=
  { id := 0, die, slot, part, va, write := true, kind, user, bytes, value }

/-- What follows a lost access of a dispatch: a record whose read is lost is aborted unrun; a write is dropped (R383). -/
def State.loseAccess (s : State) (w : DispWait) (cause : Nat) (va : DWord) : State :=
  let s := s.accessLost w cause va
  let drop (bit : Nat) (s : State) : State :=
    (s.modRecs (mapIf (fun r => r.key == w.key) fun r => { r with lateDrop := putBit r.lateDrop bit true })).recWaits w.key false
  match w.kind with
  | 0 => (s.dropRec w.key).modLaunch w.slot fun l => { l with aborted := true }
  | 4 => drop 0 s
  | 10 => drop 1 s
  | _ => s

/-- What a late dispatch writes before its task starts: LATE in the record, and the launch's next late entry while there is
room; what a failed service has dropped is not tried again (R231, R383). -/
def State.lateWrites (s : State) (die : Nat) (r : Rec) (l : Launch) (c k : Nat) : List DispWait :=
  let at_ := BitVec.ofNat 64 (l.lqb + 16 * l.late.toNat)
  let dw1 := BitVec.ofNat 64 (s.time % 2 ^ 48 + c % 1024 * 2 ^ 48 + k * 2 ^ 58 + r.level * 2 ^ 61)
  let w (kind bytes : Nat) (va v : DWord) : DispWait := { dispWrite die r.slot l.part kind bytes (!l.priv) va v with key := r.key }
  (if r.lateDrop.getLsbD 0 then [] else [w 4 1 (r.addr + 20#64) 0#64]) ++
    if r.lateDrop.getLsbD 1 || l.lqn ≤ l.late.toNat then [] else [{ w 10 16 at_ r.addr with next := dw1 }]

/-- The launch's counts of late dispatches: an entry written, or one that its queue had no room for. -/
def Launch.countLate (l : Launch) (r : Rec) : Launch :=
  if l.lqn ≤ l.late.toNat then { l with lateLost := l.lateLost + 1#32 }
  else if r.lateDrop.getLsbD 1 then l
  else { l with late := l.late + 1#32 }

/-- The accesses of a list are possible now, at these addresses; or the first that is not. -/
def State.attemptAll (s : State) (a : Agent) : List DispWait → (Option (DispWait × Attempt) × List Nat) × State
  | [] => ((none, []), s)
  | w :: t =>
    match s.attempt a w with
    | (.at_ pa, s) =>
      match s.attemptAll a t with
      | ((e, l), s) => ((e, pa :: l), s)
    | (r, s) => ((some (w, r), []), s)

/-- The task of a record starts on a context (R216): an acquire at pkg scope. -/
def State.startTask (s : State) (die : Nat) (r : Rec) (c k lctx bits : Nat) : State :=
  let s := s.keepBooks c k
  let (stamp, s) := s.next
  let x : Ctx :=
    { str := { pc := recCode bits, regionPc := recCode bits, arr := stamp }
      s := tblPut 0#64 (tblPut 0#64 [] 0 (recFrame bits)) 1 r.addr
      pending := (s.ctx c k).pending
      task := some { slot := r.slot, lctx, record := r.addr, level := r.level, deadline := recDl bits, stamp, came := stamp, startItem := r.startItem }
      wdStart := s.ps }
  (((((s.setCtx c k x).dropDemand c).dropRec r.key).serveList die r.level).startClock c).wakeLender c

/-- An access that a dispatch needs cannot be made now: it is served, or is lost (R383), or the step waits for it, which is
false. -/
def State.dispatchWaits (s : State) (w : DispWait) (r : Attempt) : Bool × State :=
  match r with
  | .fault cause sub => (true, (s.listFault w cause sub w.va).recWaits w.key true)
  | .lost cause => (true, s.loseAccess w cause w.va)
  | _ => (false, s)

/-- The writes of a late dispatch, and the start of its task. -/
def State.startRec (s : State) (die : Nat) (r : Rec) (l : Launch) (c k lctx bits : Nat) (writes : List (DispWait × Nat))
    (window : List Nat) : State :=
  let s := writes.foldl (fun s x => s.applyWait x.1 x.2) s
  let s := if s.lateBy (recDl bits).toNat then s.modLaunch r.slot fun l => l.countLate r else s
  (s.establish c r.slot l window).startTask die r c k lctx bits

/-- Dispatch a record: its CODE, FRAME and DL are read at its home, and the writes of a late one are made first (R231,
R383). False where the step waits: for a home, or for tokens. -/
def State.dispatchRec (s : State) (die : Nat) (r : Rec) (l : Launch) (c : Nat) : Bool × State :=
  match s.hwFor c r.key, s.freeLctx c r.slot l with
  | some k, some lctx =>
    let a : Agent := .dispatch die r.key
    let saved := s.windowFrame c r.slot none
    match s.windowLines a l saved with
    | (.wait, s) => (false, s)
    | (.fault cause sub va, s) => (true, match saved with | some sp => (s.frameFault sp cause sub va).lapse | none => s)
    | (.ok window, s) =>
      let w : DispWait := { id := 0, die, slot := r.slot, part := l.part, va := r.addr, write := false, kind := 0, user := !l.priv, key := r.key }
      match s.attempt a w with
      | (.at_ pa, s) =>
        let bits := s.homeRead pa 64
        let ws := if s.lateBy (recDl bits).toNat then s.lateWrites die r l c k else []
        match s.attemptAll a ws with
        | ((some (x, e), _), s) => s.dispatchWaits x e
        | ((none, pas), s) => match s.settle a with
          | (false, s) => (false, s)
          | (true, s) => (true, s.startRec die r l c k lctx bits (ws.zip pas) window)
      | (e, s) => s.dispatchWaits w e
  | _, _ => (true, s)

/-- Resume a spilled task; a fault on its frame is served first (R304). -/
def State.dispatchSpilled (s : State) (die : Nat) (sp : Spilled) : Bool × State :=
  match s.hwFor sp.core sp.key with
  | none => (true, s)
  | some k =>
    match s.resume (.dispatch die sp.key) sp k with
    | (.ok _, s) => (true, s.startClock sp.core)
    | (.wait, s) => (false, s)
    | (.fault cause sub va, s) => (true, (s.frameFault sp cause sub va).lapse)

/-- Whose step is another dispatch of the die than that of an item. -/
def Agent.dispatches (die : Nat) (key : Option Nat) : Agent → Bool
  | .dispatch d k => d == die && some k != key
  | _ => false

def State.dispatchItem (s : State) (die : Nat) (x : Item) (l : Launch) (c : Nat) : Bool × State :=
  let s := s.dropAgents (Agent.dispatches die (some x.key))
  match x with
  | .record r => s.dispatchRec die r l c
  | .spilled sp => s.dispatchSpilled die sp

/-- The head asks for room where no request of it stands; false where it waits to count the free frames. -/
def State.askRoom (s : State) (die : Nat) (x : Item) (l : Launch) : Bool × State :=
  if (s.disp die).requests.any fun q => q.key == x.key then (true, s)
  else match s.freeFrames (.dispatch die x.key) die 0 (List.range s.frameCount) with
    | (none, s) => (false, s)
    | (some frames, s) =>
      let cs := ((x.area l).filter fun c => s.mayTake x l c).filter fun c => (s.victimSet die x l c frames).isSome
      (true, match s.best x l cs with
        | none => s
        | some c =>
          match s.victimSet die x l c frames with
          | none => s
          | some members => s.requestPreempt die x.key c members)

/-- The items that follow the head, until one is dispatched. -/
def State.tryRest (s : State) (die : Nat) : List Item → Bool × State
  | [] => (true, s)
  | x :: rest =>
    match s.launch x.slot with
    | none => s.tryRest die rest
    | some l =>
      match s.best x l ((x.area l).filter fun c => s.coreReady x l c) with
      | some c => s.dispatchItem die x l c
      | none => s.tryRest die rest

/-- The head of the order, which may ask for room, and what follows it, until one item is dispatched; false where the step
waits. -/
def State.tryItems (s : State) (die : Nat) : List Item → Bool × State
  | [] => (true, s)
  | x :: rest =>
    match s.launch x.slot with
    | none => s.tryRest die rest
    | some l =>
      match s.best x l ((x.area l).filter fun c => s.coreReady x l c) with
      | some c => s.dispatchItem die x l c
      | none => match s.askRoom die x l with
        | (true, s) => s.tryRest die rest
        | r => r

/-- A context held for an item is held for one step. -/
def State.dropClaims (s : State) (die : Nat) (held : List Nat) : State :=
  s.modDisp die fun d => { d with requests := d.requests.filter fun q => !(q.claim.isSome && held.contains q.key) }

/-- The records of a die's ready lists. -/
def State.readyRecs (s : State) (die : Nat) : List Rec := s.sched.recs.filter fun r => r.die == die && r.ready.isSome && !r.waiting

/-- The placement table's entries for those records, where it places. -/
def State.pltReads (s : State) (die : Nat) : List Nat :=
  (s.readyRecs die).filterMap fun r => s.pltAt (((s.launch r.slot).map Launch.part).getD 0) (s.homeRead r.pa 64)

/-- What the order of a die's items is read from is ready at its homes: the records, and the placement table's entries (R296,
R299; 22 R340). -/
def State.orderReady (s : State) (die : Nat) : Bool × State :=
  let a : Agent := .dispatch die 0
  match (s.dropAgents (· == a)).allReady a false ((s.readyRecs die).map (·.pa)) with
  | (true, s) => s.allReady a false (s.pltReads die)
  | r => r

/-- A record whose line holds poison cannot be ordered: its reading is lost (22 R347, R383). -/
def State.losePoisoned (s : State) (die : Nat) : State :=
  ((s.readyRecs die).filter fun r => s.poisonAt r.pa != 0).foldl (fun s r =>
    match s.launch r.slot with
    | none => s
    | some l =>
      s.loseAccess { id := 0, die, slot := r.slot, part := l.part, va := r.addr, write := false, kind := 0, user := !l.priv, key := r.key }
        16 r.addr) s

def execDispatchStep (die : Nat) (s : State) : Res :=
  .next (if 2 ≤ die then s
    else match s.orderReady die with
      | (false, r) => keepMarks [] s r
      | (true, s) =>
        let s := ((s.losePoisoned die).tidyRequests die).retryFreeing
        let held := ((s.disp die).requests.filter fun q => q.claim.isSome).map (·.key)
        match s.tryItems die ((s.order die).take 9) with
        | (true, r) => ((r.dropAgents (Agent.dispatches die none)).noAsks).dropClaims die held
        | (false, r) => keepMarks [] s r)

/-! ### LAUNCH_ACCEPT (R291 to R293; 09 R219, R220) -/

/-- The lowest-numbered free launch slot of the package. -/
def State.freeLaunchSlot (s : State) : Option Nat := (List.range 1024).find? fun i => (s.launch i).isNone

/-- How many cores of a rectangle have room for the launch now (step 3 of R292). -/
def State.roomAt (s : State) (l : Launch) (o : Nat × Nat) : Nat :=
  ((rectCores o.1 o.2 l.width l.height).filter fun c => (s.freeHw c).isSome && fitsBeside l (s.reserved c)).length

/-- The origin a floating launch takes: the most room, then the greatest score, then the lowest core index. -/
def State.chooseOrigin (s : State) (l : Launch) (entry : Nat) (os : List (Nat × Nat)) : Option (Nat × Nat) :=
  (os.foldl (fun (b : Option (Nat × Nat × Nat × (Nat × Nat))) o =>
    let score := ((rectCores o.1 o.2 l.width l.height).map fun c => s.placeScore l.part entry c).foldl (· + ·) 0
    let y := (s.roomAt l o, score, coreAt o.1 o.2, o)
    match b with
    | none => some y
    | some z =>
      if z.1 < y.1 || (z.1 == y.1 && (z.2.1 < y.2.1 || (z.2.1 == y.2.1 && y.2.2.1 < z.2.2.1))) then some y else some z) none).map
    (·.2.2.2)

/-- The origin of a launch, or the reason of its refusal. -/
def State.originOf (s : State) (l : Launch) (entry : Nat) : Nat × (Nat × Nat) :=
  if !l.float then (0, (l.ox, l.oy))
  else
    let os := s.floatOrigins l l.part
    if os.isEmpty then (5, (0, 0))
    else match s.chooseOrigin l entry (l.candidates os) with
      | none => (8, (0, 0))
      | some o => (0, o)

/-- Register the entry record: once, or once for each core of the rectangle (R290). -/
def State.registerEntry (s : State) (slot : Nat) (l : Launch) (die pa : Nat) : State :=
  let va := BitVec.ofNat 64 l.entry
  if l.start then l.coreList.foldl (fun s c => s.register slot l va pa (coreDie c) none (some c) true) s
  else
    let (d, onDie) := l.serves die
    s.register slot l va pa d onDie none false

/-- The entry record of a launch waits for the writing of its SLOT, or no longer does (21 R384). -/
def State.slotWaits (s : State) (slot : Nat) (b : Bool) : State :=
  (s.modRecs (mapIf (fun r => r.slot == slot) fun r => { r with waiting := b })).lapse

/-- The launch takes its slot, which is written into its entry record, and the entry record is registered: it is not dispatched
before that is written (21 R384). -/
def State.acceptLaunch (s : State) (die slot bits : Nat) (origin : Nat × Nat) (pa : Nat) : State :=
  let (serial, s) := s.next
  let l : Launch := { launchOfBits bits with serial, die, ox := origin.1, oy := origin.2 }
  match (s.setLaunch slot (some l)).writeOrList
      (dispWrite die slot l.part 1 2 (!l.priv) (BitVec.ofNat 64 (l.entry + 30)) (BitVec.ofNat 64 slot)) with
  | (written, s) =>
    let s := (s.registerEntry slot l die pa).modDisp die fun d => { d with freeAt := s.ps + 200000 }
    if written then s else s.slotWaits slot true

/-- A launch that LNCH queued is refused at acceptance (R220): logged, 2 written to DONE, SUCC decremented, as its own
accesses. -/
def State.refuseLaunch (s : State) (die bits : Nat) (src : DWord) (reason : Nat) : State :=
  let l := launchOfBits bits
  let s := (s.addLog 5 l.part false reason 0 0 0 src).signalService die
  let w := { dispWrite die 0 l.part 9 8 (!l.priv) (BitVec.ofNat 64 l.doneAddr) 2#64 with key := l.succ }
  let done := if l.doneAddr = 0 then (true, s) else s.writeOrList w
  if done.1 then (done.2.decrement die 0 l.part 2 (!l.priv) (BitVec.ofNat 64 l.succ)).2 else done.2

/-- What acceptance comes to: refused for a reason, or registered, or it waits for a slot. -/
inductive Accepts where
  | refused (reason : Nat)
  | taken (slot : Nat) (origin : Nat × Nat) (pa : Nat)
  | full
  deriving DecidableEq, Repr

/-- What the acceptance of a launch that meets the other checks comes to, by its entry record. -/
def State.acceptance (s : State) (l : Launch) (entry : EntryRead) : Accepts :=
  match entry with
  | .ok pa r =>
    if !recReserved r then .refused 11
    else match s.originOf l r with
      | (0, origin) => (match s.freeLaunchSlot with | none => .full | some slot => .taken slot origin pa)
      | (reason, _) => .refused reason
  | _ => .refused 11

/-- The placement table's entry by which a floating launch is placed is ready at its home (R292, R299). -/
def State.placeReady (s : State) (a : Agent) (l : Launch) (entry : EntryRead) : Bool × State :=
  match (if l.float then entry.found.bind fun e => s.pltAt l.part e.2 else none) with
  | none => (true, s)
  | some pa => s.allReady a false [pa]

/-- The reading of an entry record that holds poison is logged as lost (22 R347; log 86). -/
def State.entryLost (s : State) (die bits : Nat) (entry : EntryRead) : State :=
  match entry with
  | .poison _ => (s.addLog 4 (launchOfBits bits).part false 16 0 0 0 (BitVec.ofNat 64 (launchOfBits bits).entry)).signalService die
  | _ => s

/-- Accept a launch from a queue of the device, or refuse it; false where it must wait. -/
def State.acceptDevice (s : State) (a : Agent) (die bits : Nat) (user : Bool) (src : DWord) : Bool × State :=
  let l := launchOfBits bits
  match s.entryRecord a die l.part user bits with
  | (.wait, s) => (false, s)
  | (entry, s) => match s.placeReady a l entry with
    | (false, s) => (false, s)
    | (true, s) =>
      let out := s.acceptance l entry
      if out = .full then (false, s.unqueue a)
      else match s.settle a with
        | (false, s) => (false, s)
        | (true, s) => (true, match out with
          | .taken slot origin pa => s.acceptLaunch die slot bits origin pa
          | .refused reason => (s.entryLost die bits entry).refuseLaunch die bits src reason
          | .full => s)

/-- A partition whose kill is in progress has nothing accepted (24 R370). -/
def State.killing (s : State) (p : Nat) : Bool := s.ctlF offPKILL (8 + p) 1 == 1

/-- The head of the next pending queue of the die, round robin. -/
def State.nextPending (s : State) (die : Nat) : Option (Nat × Nat × PendingLaunch) :=
  let pos := (s.disp die).pos
  let all := s.cores.flatMap fun e => if coreDie e.1 = die then
      e.2.ctxs.filterMap fun x => match x.2.pending with
        | p :: _ => if s.killing (launchOfBits p.bits).part then none else some (e.1, x.1, p)
        | [] => none
    else []
  leastBy (fun x => (8 * (x.1 - 320 * die) + x.2.1 + 2560 - pos) % 2560) all

/-- The launches that overflow areas belong to: those that have completed, then those that run, by their slots. -/
def State.overflowing (s : State) : List (Bool × Nat × Launch) :=
  (s.sched.leftOver.map fun e => (true, e.1, e.2)) ++ s.launches.filterMap fun e => e.2.map fun l => (false, e.1, l)

/-- The oldest overflow entry of a launch that this die takes. -/
def State.nextOverflow (s : State) (die : Nat) : Option (Bool × Nat × Launch × DWord) :=
  s.overflowing.findSome? fun e => match e.2.2.ovq with
    | (d, src) :: _ => if d = die ∧ !s.killing e.2.2.part then some (e.1, e.2.1, e.2.2, src) else none
    | [] => none

/-- The first entry of the launch's overflow queue is taken. -/
def Launch.takeOverflow (l : Launch) : Launch := { l with ovHead := l.ovHead + 1, ovq := l.ovq.tail }
def State.takeOverflow (s : State) (left : Bool) (slot : Nat) (l : Launch) : State :=
  if left then
    { s with sched := { s.sched with
      leftOver := (mapIf (fun e => e.2.serial == l.serial) (fun e => (e.1, e.2.takeOverflow)) s.sched.leftOver).filter fun e => !e.2.ovq.isEmpty } }
  else s.modLaunch slot Launch.takeOverflow

/-- Take an overflow entry from its copy in memory; false where it must wait. One that does not translate is lost (log 36). -/
def State.acceptOverflow (s : State) (a : Agent) (die : Nat) (left : Bool) (slot : Nat) (l : Launch) (src : DWord) : Bool × State :=
  let va := BitVec.ofNat 64 (l.oqb + 128 * (l.ovHead % l.oqn))
  let w (va : DWord) : DispWait := { id := 0, die, slot, part := l.part, va, write := false, kind := 6, user := !l.priv }
  match s.attemptAll a [w va, w (va + 64#64)] with
  | ((none, pas), s) =>
    match s.acceptDevice a die (s.homeRead (pas.getD 0 0) 128) (!l.priv) src with
    | (true, s) => (true, s.takeOverflow left slot l)
    | r => r
  | ((some (x, .lost c), _), s) => (true, (s.accessLost x c x.va).takeOverflow left slot l)
  | ((some (x, .fault c _), _), s) => (true, (s.accessLost x c x.va).takeOverflow left slot l)
  | (_, s) => (false, s)

/-- The head of host ring p: the launch record's address. -/
def State.hlqHead (s : State) (p : Nat) : Option (Nat × DWord) :=
  let off := offHLQ p
  let head := s.ctlF (off + 16) 0 32
  let cap := s.ctlF (off + 8) 0 32
  if cap = 0 ∨ head = s.ctlF (off + 24) 0 32 ∨ s.killing p then none
  else
    let pa := (s.ctl64 off).toNat + 8 * (head % cap)
    some (pa, BitVec.ofNat 64 (s.homeRead pa 8))

/-- The ring's entry is taken; a reason goes into its bits [3:0]. -/
def State.takeHost (s : State) (die p pa : Nat) (a : DWord) (reason : Nat) : State :=
  let s := if reason = 0 then s else s.homeWrite pa 8 (a.toNat / 16 * 16 + reason)
  (s.setCtlF (offHLQ p + 16) 0 32 (s.ctlF (offHLQ p + 16) 0 32 + 1)).modDisp die fun d => { d with ringPos := (p + 1) % 8 }

/-- The die that takes a host launch: its origin's, or die 0 where the launch floats or names none. -/
def hostDie (l : Launch) : Nat := if !l.float && 20 ≤ l.ox && l.ox < 40 then 1 else 0

/-- The attempt at a ring's head: it was taken, it is not this die's to take, or it waits. -/
inductive Head where
  | taken
  | passed
  | waits
  deriving DecidableEq, Repr

/-- The head of a ring is taken with a reason, once its step's requests are admitted. -/
def State.headTaken (s : State) (a : Agent) (f : State → State) : Head × State :=
  match s.settle a with
  | (true, s) => (.taken, f s)
  | (false, s) => (.waits, s)

/-- A host launch whose record has been read: the checks of R220, then those of acceptance. -/
def State.acceptHost (s : State) (ag : Agent) (die p pa bits : Nat) (a : DWord) : Head × State :=
  let l := launchOfBits bits
  if hostDie l ≠ die then (.passed, s)
  else match s.entryRecord ag die p (p != 0) bits with
    | (.wait, s) => (.waits, s)
    | (entry, s) =>
      let r := s.checkLaunch bits p (p == 0) (entry.found.map (·.2))
      if r ≠ 0 then s.headTaken ag fun s => (s.entryLost die bits entry).takeHost die p pa a r
      else match s.placeReady ag l entry with
        | (false, s) => (.waits, s)
        | (true, s) => match s.acceptance l entry with
          | .refused reason => s.headTaken ag fun s => s.takeHost die p pa a reason
          | .taken slot origin epa => s.headTaken ag fun s => (s.takeHost die p pa a 0).acceptLaunch die slot bits origin epa
          | .full => (.waits, s.unqueue ag)

/-- Try the head of ring p. An entry or a record that holds poison is refused as one that does not translate (log 86). -/
def State.tryHost (s : State) (ag : Agent) (die p : Nat) : Head × State :=
  match s.hlqHead p with
  | none => (.passed, s)
  | some (pa, a) =>
    match s.accReady ag true pa with
    | (false, s) => (.waits, s)
    | (true, s) =>
      let s := s.served (regionOf (s.forward pa)) ag
      let refuse (s : State) : Head × State := if die = 0 then s.headTaken ag fun s => s.takeHost die p pa a 12 else (.passed, s)
      if a.toNat % 128 ≠ 0 || s.poisonAt pa != 0 then refuse s
      else match s.dieTranslate ag die p (p != 0) .read a with
        | (.fault .., s) => refuse s
        | (.wait _, s) => (.waits, s)
        | (.ok rpa _, s) =>
          match s.allReady ag false [rpa, rpa + 64] with
          | (false, s) => (.waits, s)
          | (true, s) =>
            let s := (s.ask p rpa).ask p (rpa + 64)
            if s.poisoned [rpa, rpa + 64] then refuse s else s.acceptHost ag die p pa (s.homeRead rpa 128) a

/-- Whose step is another acceptance of the die than from a source. -/
def Agent.acceptsBut (die src : Nat) : Agent → Bool
  | .accepts d x => d == die && x != src
  | _ => false

/-- The number of a source of launches: a context's pending queue, a host ring, a launch's overflow queue. -/
def pendingSrc (c k : Nat) : Nat := 8 * c + k
def ringSrc (p : Nat) : Nat := 5120 + p
def overflowSrc (serial : Nat) : Nat := 5128 + serial

/-- The rings round robin, until one is served or waits. -/
def State.tryRings (s : State) (die : Nat) : List Nat → Bool × State
  | [] => (true, s)
  | p :: rest =>
    match s.tryHost (.accepts die (ringSrc p)) die p with
    | (.taken, s) => (true, s)
    | (.waits, s) => (false, s.dropAgents (Agent.acceptsBut die (ringSrc p)))
    | (.passed, s) => ((s.dropAgents (· == .accepts die (ringSrc p))).noAsks).tryRings die rest

/-- Die 1 has assigned a slot in this mesh cycle: in one cycle die 0's assignment comes first, so it now waits for the next. -/
def State.slotTaken (s : State) (die : Nat) : Bool :=
  let at_ := (s.disp 1).freeAt
  die == 0 && 200000 ≤ at_ && (at_ - 200000) / 500 == s.ps / 500

/-- One attempt at acceptance: from the pending queues, else from the overflow queues, else from the host rings; false where
it must wait. What another source waited for is given up. -/
def State.acceptNext (s : State) (die : Nat) : Bool × State :=
  match s.nextPending die with
  | some (c, k, p) =>
    (match (s.dropAgents (Agent.acceptsBut die (pendingSrc c k))).acceptDevice (.accepts die (pendingSrc c k)) die p.bits p.user p.addr with
     | (true, s) =>
       (true, (s.modCtx c k fun x => { x with pending := x.pending.tail }).modDisp die fun d =>
         { d with pos := (8 * (c - 320 * die) + k + 1) % 2560 })
     | r => r)
  | none => match s.nextOverflow die with
    | some (left, slot, l, src) =>
      (s.dropAgents (Agent.acceptsBut die (overflowSrc l.serial))).acceptOverflow (.accepts die (overflowSrc l.serial)) die left slot l src
    | none => s.tryRings die ((List.range 8).map fun i => ((s.disp die).ringPos + i) % 8)

def execLaunchAccept (die : Nat) (s : State) : Res :=
  .next (if 2 ≤ die || s.ps < (s.disp die).freeAt || s.slotTaken die then s
    else match s.acceptNext die with
      | (true, r) => (r.dropAgents fun a => match a with | .accepts d _ => d == die | _ => false).noAsks
      | (false, r) => keepMarks [] s r)

/-! ### READY_LIST_AGEING (R294) -/

/-- One list at a microsecond boundary; `held` says whether it holds an item now. -/
def ListAge.boundary (a : ListAge) (aget l : Nat) (held : Bool) : ListAge :=
  let a := if a.idle then { a with a := a.a + 1 } else a
  let a := if aget ≤ a.a then { a with a := 0, raised := min (7 - l) (a.raised + 1) } else a
  { a with idle := held }

/-- The lists of a die at the microsecond boundaries that TIME has passed. -/
def State.ageLists (s : State) (die : Nat) : State :=
  let due := s.ps / 1000000 - tblGet 0 s.sched.agedAt die
  if due = 0 then s
  else
    let aget := s.ctlF offDSPCTL 0 10
    let ages := (List.range 8).foldl (fun t l =>
      let held := s.listHeld die l
      let old := tblGet {} t (8 * die + l)
      if !held && old == {} then t
      else tblPut {} t (8 * die + l) ((List.range due).foldl (fun a _ => a.boundary aget l held) old)) s.sched.ages
    { s with sched := { s.sched with ages, agedAt := tblPut 0 s.sched.agedAt die (s.ps / 1000000) } }

def execReadyListAgeing (die : Nat) (s : State) : Res := .next (if 2 ≤ die then s else s.ageLists die)

/-! ### SPILL and SPILL_COMPLETE (R302, R304) -/

def execSpill (core ctx : Nat) (s : State) : Res :=
  .next (
    let x := s.ctx core ctx
    if x.task.isSome && x.marked && x.stopped && x.spilling.isNone && x.traps.isEmpty && !x.handler && s.quiescent core ctx then
      match s.findFrame (.context core ctx) (coreDie core) (List.range s.frameCount) with
      | (.frame j pa, s) => (s.forget (.context core ctx)).beginSpill core ctx j pa
      | (_, s) => s
    else s)

/-- A member of a request has been spilled: after the last one its hardware context is held for the item, unless it is held
for another. -/
def Request.spilled (q : Request) (c k : Nat) (free : Bool) : Request :=
  if q.core = c ∧ q.members.contains k then
    let rest := q.members.filter (· != k)
    { q with members := rest, claim := if rest.isEmpty && free then some k else none }
  else q

/-- The context is held for one of the requests. -/
def holdsCtx (l : List Request) (c k : Nat) : Bool := l.any fun q => q.core == c && q.claim == some k

/-- The same for a list of requests, of which the first that ends with the member holds its context. -/
def spilledFrom (c k : Nat) (l : List Request) (free : Bool) : List Request :=
  l.foldl (fun acc q => acc ++ [q.spilled c k (free && !holdsCtx acc c k)]) []

def State.requestsSpilled (s : State) (c k : Nat) : State :=
  { s with sched := { s.sched with disps := s.sched.disps.foldl (fun acc d =>
    acc ++ [(d.1, { d.2 with requests := spilledFrom c k d.2.requests (acc.all fun e => !holdsCtx e.2.requests c k) })]) [] } }

/-- A frame that cannot be written kills the context, and is freed (R304). -/
def State.loseSpill (s : State) (c k cause : Nat) (va : DWord) : State :=
  if (s.ctx c k).spilling.isSome then (s.freeSpillFrame (s.partOf c k) c k).killCtx c k cause va else s

def execSpillComplete (core ctx : Nat) (s : State) : Res :=
  .next (match (s.ctx core ctx).spilling with
    | none => s
    | some j =>
      if s.sched.waits.any fun w => w.kind == 8 && w.key == 8 * core + ctx then s
      else match s.endSpill core ctx j with
        | (.ok _, s) => s.requestsSpilled core ctx
        | (.wait, s) => s
        | (.fault cause sub va, s) =>
          if 16 ≤ cause then s.loseSpill core ctx cause va
          else
            s.listFault
              { id := 0, die := coreDie core, slot := s.slotOf core ctx, part := 0, va, write := true, kind := 8, user := false, key := 8 * core + ctx }
              cause sub va)

/-! ### DISPATCHER_ACCESS_FAULT (R383) -/

/-- The access is made again. -/
def State.retryWait (s : State) (w : DispWait) : State :=
  match w.kind with
  | 0 | 4 | 10 => (s.dropWait w.id).recWaits w.key false
  | 1 => (match s.writeOrList w with | (true, s) => s.slotWaits w.slot false | (false, s) => s)
  | 3 | 5 =>
    (match s.launch w.slot with
     | none => s
     | some l => match s.writeOrList w with
       | (true, s) => if w.kind = 3 then s.endSucc w.slot l else s.freeSlot w.slot
       | (false, s) => s)
  | 6 => s.readSucc w
  | 7 | 8 => s.dropWait w.id
  | 9 =>
    (match s.writeOrList w with
     | (true, s) => (s.decrement w.die w.slot w.part 2 w.user (BitVec.ofNat 64 w.key)).2
     | (false, s) => s)
  | _ => (s.writeOrList w).2

/-- What follows a lost access. -/
def State.loseWait (s : State) (w : DispWait) (cause : Nat) (va : DWord) : State :=
  match w.kind with
  | 7 =>
    (match s.sched.spilled.find? fun x => x.key == w.key with
     | none => s
     | some sp => (s.freeFrame sp.part w.die sp.frame).killSpilled sp cause va)
  | 8 => s.loseSpill (w.key / 8) (w.key % 8) cause va
  | kind =>
    let s := s.loseAccess w cause va
    match kind, s.launch w.slot with
    | 1, some _ => s.slotWaits w.slot false
    | 3, some l => s.endSucc w.slot l
    | 5, some _ => s.freeSlot w.slot
    | 9, _ => (s.decrement w.die w.slot w.part 2 w.user (BitVec.ofNat 64 w.key)).2
    | _, _ => s

/-- A listed access goes on once its service has ended, or once what it waited for at its home may have passed. -/
def execDispatcherAccessFault (die id : Nat) (s : State) : Res :=
  .next (match s.sched.waits.find? fun w => w.id == id && w.die == die with
    | none => s
    | some w =>
      match s.sched.faults.find? fun f => f.exk == 3 && f.op == id with
      | none => s.retryWait w
      | some f => match f.outcome with
        | none => s
        | some true => (s.dropService id).retryWait w
        | some false => (s.dropWait id).loseWait w f.cause f.va)

end Sys2Proof.Machine
end

