-- ==== Sys2Proof/Machine/EngOps.lean ====
section
/-! DEFINITION. What the engines share: an operation's global accesses, its faults and errors, its completion and
retirement (07 R173; 08 R186, R191, R192; 24 R365, R367). -/

namespace Sys2Proof.Machine

/-- The class of an operation in a trap record; an MXSHAPE is the matrix engine's. -/
def Op.cls (o : Op) : Nat := (opClass o.kind).getD 2
/-- The hardware context that issued it. -/
def Op.hw (o : Op) : Nat := o.who.ctx % 8

/-! ### Retirement (R173) -/

/-- Operations leave once they and every older one of their class and issuer are complete. -/
def retire (l : List Op) : List Op :=
  l.filter fun o => o.state != .complete ||
    l.any fun p => p.id < o.id && p.who == o.who && opClass p.kind == opClass o.kind && p.state != .complete

/-- The operation is complete: the lines that it wrote leave its core's L1, pushed copies that a cast has put there since
included (R173; 19 R315), and its issuer's watchdog begins again (24 R368). -/
def State.completeOp (s : State) (c id : Nat) : State :=
  match (s.core c).findOp id with
  | none => s
  | some o =>
    let s := s.modOp c id fun o => { o with state := .complete, fault := none, flight := [] }
    let s := s.modCore c fun co => { co with ops := retire co.ops }
    let s := ((((s.loseDemand c o.written).discardCopies c o.written).sweep c).startMatrix c).restClock c
    if !o.orphan && (s.ctx c o.hw).resident then s.modCtx c o.hw fun x => x.wdReset s.ps else s

/-! ### Errors and faults (R192, R365, R367) -/

/-- The error of an operation reaches its issuer's context, or the fault log where the task has ended. -/
def State.engineError (s : State) (c : Nat) (o : Op) (va : DWord) : State :=
  if o.orphan || !(s.ctx c o.hw).resident then s.addLog 2 o.part false 18 c o.hw o.slot va
  else
    s.asyncTrap { o.who with ctx := o.hw } 18 0 va (BitVec.ofNat 64 (o.cls + (o.statOff.getD 0) % 2 ^ 22 * 2 ^ 32)) 2 (8 ≤ o.who.ctx)

/-- A fault is handed to the page-fault service; the operation waits for its outcome. -/
def State.engineFault (s : State) (c : Nat) (o : Op) (write : Bool) (cause sub : Nat) (va : DWord) : State :=
  let (n, s) := s.next
  let f : FaultSvc :=
    { id := n, part := o.part, va, write, fetch := false, user := o.user, cause, sub, core := c, ctx := o.hw, exk := 2
      tid := o.who.tid, op := o.id, hostMode := bitOf s.mode.toNat o.part, time := s.time }
  let s := { s with sched := { s.sched with faults := s.sched.faults ++ [f] } }
  s.modOp c o.id fun o => { o with fault := some n }

/-- CAUSE of a status block for a translation cause (R191). -/
def statusCause (cause : Nat) : Nat := if cause = 8 then 1 else if cause = 10 then 3 else 2

/-! ### Global accesses (R186) -/

/-- What an access gives: a value, a reason to wait, a translation fault, or an error that ends the operation, with
its CAUSE of R191. -/
inductive Got where
  | ok (v : Nat)
  | wait
  | fault (cause sub : Nat) (va : DWord)
  | ends (code : Nat) (va : DWord)
  deriving DecidableEq, Repr

/-- The address of an access within one line, once the access may go through; its request is one of the step's (15 R285).
`part` is the part of the operation that it is for. The control space takes no access of an engine (log 37). -/
def State.engReach (s : State) (c : Nat) (o : Op) (acc : Access) (va : DWord) (part : Nat := 0) : Got × State :=
  match s.dieTranslate (.op c o.id part) (coreDie c) o.part o.user acc va with
  | (.fault 10 _, s) => (.ends 3 va, s)
  | (.fault cause sub, s) => if 16 ≤ cause then (.ends 4 va, s) else (.fault cause sub va, s)
  | (.wait _, s) => (.wait, s)
  | (.ok pa _, s) =>
    if inCtl pa then (.ends 2 va, s)
    else match s.accReady (.op c o.id part) (acc == .write) pa with
      | (false, s) => (.wait, s)
      | (true, s) =>
        let s := s.ask (regulatorOf o.who o.part) pa
        if s.poisonAt pa ≠ 0 then (.ends 4 va, s) else (.ok pa, s.served (regionOf (s.forward pa)) (.op c o.id part))

/-- Read n bytes within one line. -/
def State.engRead (s : State) (c : Nat) (o : Op) (va : DWord) (n : Nat) (part : Nat := 0) : Got × State :=
  match s.engReach c o .read va part with
  | (.ok pa, s) => (.ok (s.homeRead pa n), s)
  | r => r

/-- Read n bytes that may cross lines, in at most k pieces. -/
def State.engReadLines (s : State) (c : Nat) (o : Op) (va : DWord) (k n : Nat) (part : Nat := 0) : Got × State := go s va k n
where
  go (s : State) (va : DWord) : Nat → Nat → Got × State
  | 0, _ => (.ok 0, s)
  | k + 1, n =>
    let m := min n (64 - va.toNat % 64)
    match s.engRead c o va m part with
    | (.ok v, s) =>
      if n ≤ m then (.ok v, s)
      else match go s (va + BitVec.ofNat 64 m) k (n - m) with
        | (.ok w, s) => (.ok (v + w * 2 ^ (8 * m)), s)
        | r => r
    | r => r

/-- Write n bytes within one line; the operation keeps the line for its completion. The physical address is answered. -/
def State.engWrite (s : State) (c : Nat) (o : Op) (va : DWord) (n v : Nat) (part : Nat := 0) : Got × State :=
  match s.engReach c o .write va part with
  | (.ok pa, s) => (.ok pa, (s.homeWrite pa n v).modOp c o.id fun o => { o with written := o.written.filter (· != lineOf pa) ++ [lineOf pa] })
  | r => r

/-- Both addresses of a write of n bytes that may cross into a second line are ready, and the write. -/
def State.engWriteLines (s : State) (c : Nat) (o : Op) (va : DWord) (k n v : Nat) (part : Nat := 0) : Got × State := go s va k n v
where
  go (s : State) (va : DWord) : Nat → Nat → Nat → Got × State
  | 0, _, _ => (.ok 0, s)
  | k + 1, n, v =>
    let m := min n (64 - va.toNat % 64)
    match s.engWrite c o va m (v % 2 ^ (8 * m)) part with
    | (.ok pa, s) =>
      if n ≤ m then (.ok pa, s)
      else match go s (va + BitVec.ofNat 64 m) k (n - m) (v / 2 ^ (8 * m)) with
        | (.ok _, s) => (.ok pa, s)
        | r => r
    | r => r

/-- An operation that must wait leaves nothing behind but what it set going at the homes and for its walks. -/
def State.engWaits (s r : State) : State := keepMarks [] s r
/-- The same for one that stops in the midst of a step: what it wrote is undone, its requests stand. -/
def State.engBack (s r : State) : State := { s.engWaits r with power := { (s.engWaits r).power with asks := r.power.asks } }

/-- An operation of a core that is at work. -/
def State.workingOp (s : State) (c id : Nat) : Option Op :=
  match (s.core c).findOp id with
  | some o => if o.state == .running && o.fault.isNone then some o else none
  | none => none

/-- The agent is an operation's, for whichever part of it. -/
def Agent.ofOp (c id : Nat) : Agent → Bool
  | .op d i _ => d == c && i == id
  | _ => false

/-- A step of an operation takes place once the requests that it has made are admitted; it is held until then (15 R285). One
that the step ends or hands to the service waits for nothing more. -/
def State.engStep (s : State) (c id : Nat) (r : State) (part : Nat := 0) : State :=
  match r.settle (.op c id part) with
  | (true, r) => if (r.workingOp c id).isNone then r.dropAgents (Agent.ofOp c id) else r
  | (false, r) => s.engWaits r

end Sys2Proof.Machine
end

