-- ==== Sys2Proof/Machine/Copy.lean ====
section
/-! DEFINITION. Copies and gathers at work: pieces, suspension, element fetches (08 R187 to R194; 19 R317). -/

namespace Sys2Proof.Machine

/-- End a copy or gather with STATE 11 (R192): the rest is neither written nor arrived. A CPY.tag that ends so records no
tag: the manual gives the tag to the copy that has written all its bytes and is silent here (DESIGN CHOICE, log 92). -/
def State.abortStatus (s : State) (c : Nat) (o : Op) (code : Nat) (va : DWord) : State :=
  let fva := if code = 4 ∨ code = 5 then 0#64 else va
  let s := s.putStatus o 3 code fva
  ((s.completeOp c o.id).dropNamed o).engineError c o va

/-- Suspend a copy or gather and call the page-fault service. -/
def State.suspendOp (s : State) (c : Nat) (o : Op) (write : Bool) (cause sub : Nat) (va : DWord) : State :=
  let s := (s.engineFault c o write cause sub va).modOp c o.id fun o => { o with state := .suspended, flight := [] }
  s.putStatus o 2 (statusCause cause) va

/-! ### Copies -/

/-- Row offset, byte of the row, of a linear offset: (z, y, i) (R189). -/
def copyAt (d off : Nat) : Nat × Nat × Nat :=
  (off / copyNX d / copyNY d, off / copyNX d % copyNY d, off % copyNX d)

/-- A locator's address of a linear offset; a scratchpad offset is its low bits. -/
def copyAddr (d loc sy sz off : Nat) : Nat :=
  let p := copyAt d off
  loc + p.1 * sz + p.2.1 * sy + p.2.2

def copySrcAt (d off : Nat) : Nat := copyAddr d (copySrc d) (descAt d 24 4) (descAt d 28 4) off
def copyDstAt (d off : Nat) : Nat := copyAddr d (copyDst d) (descAt d 32 4) (descAt d 36 4) off

/-- The core whose window a scratchpad locator names. -/
def locCore (c kind loc : Nat) : Nat := if kind = 2 then bitsOf loc 32 10 else c

/-- The offset in the window of an address of a scratchpad locator. -/
def padOff (loc addr : Nat) : Nat := loc % 2 ^ 22 + (addr - loc)

/-- A piece: at most 64 bytes of one row, within one 64-byte block of the destination. -/
def pieceOk (d off len : Nat) : Bool :=
  let a := if copyDstKind d = 1 ∨ copyDstKind d = 2 then padOff (copyDst d) (copyDstAt d off) else copyDstAt d off
  0 < len && len ≤ 64 && off % copyNX d + len ≤ copyNX d && a % 64 + len ≤ 64

/-- The window that a scratchpad locator names: the launch's standing one on another core (R188), or the operation's. -/
def Op.locWindow (o : Op) (kind : Nat) : Nat := if kind = 2 then o.slot else o.win

/-- Read a piece from the source. -/
def State.copyRead (s : State) (c : Nat) (o : Op) (len : Nat) : Got × State :=
  let d := o.desc
  let a := copySrcAt d o.off
  if copySrcKind d = 0 then s.engReadLines c o (BitVec.ofNat 64 a) 2 len
  else (.ok (s.smemRead (locCore c (copySrcKind d) (copySrc d)) (o.locWindow (copySrcKind d)) (padOff (copySrc d) a) len), s)

/-- Write a piece to the destination. -/
def State.copyWrite (s : State) (c : Nat) (o : Op) (len v : Nat) : Got × State :=
  let d := o.desc
  let a := copyDstAt d o.off
  let k := copyDstKind d
  if k = 1 ∨ k = 2 then (.ok 0, s.smemWrite (locCore c k (copyDst d)) (o.locWindow k) (padOff (copyDst d) a) len v)
  else match s.engWrite c o (BitVec.ofNat 64 a) len v with
    | (.ok pa, s) => (.ok pa, if k = 3 then s.pinLine (lineOf pa) else s)
    | r => r

/-- A piece of a copy to pinned memory has landed at an address of a physical line: which bytes of the line it has written. -/
def Op.place (o : Op) (va len line : Nat) : Op :=
  { o with placed := tblPut (0, 0) o.placed (va / 64) (line, (tblGet (0, 0) o.placed (va / 64)).2 ||| ((2 ^ len - 1) * 2 ^ (va % 64))) }

/-- The entry of CPY.tag (R190): the issuer's die's table, keyed by its partition; a pin's lines in address order (17 R299). -/
def copyEntry (c : Nat) (o : Op) : Sillage :=
  let d := o.desc
  let pin := copyDstKind d == 3
  { part := o.part, tile := copyTile d, pin, core := locCore c (copyDstKind d) (copyDst d)
    addr := if pin then ((o.placed.head?.map (·.2.1)).getD 0) else copyDst d % 2 ^ 22, bytes := copyTotal d
    lines := o.placed.map fun e => (e.2.1, popCount e.2.2 64), slot := o.slot }

/-- The copy completes: tag (but for a window that is gone, 09 R229), status, counter. -/
def State.finishCopy (s : State) (c : Nat) (o : Op) : State :=
  let (ref, s) := match o.kind with
    | .copy true =>
      let k := copyDstKind o.desc
      if k ≠ 3 ∧ !(s.hasResv (locCore c k (copyDst o.desc)) o.slot && o.locWindow k == o.slot) then (false, s)
      else
      let (r, s) := s.sillagePut (coreDie c) (copyEntry c o)
      (r == 2, s)
    | _ => (false, s)
  let o := { o with tagref := ref }
  ((s.putStatus o 1 0 0#64).completeOp c o.id).dropNamed o

/-- A piece has landed: arrival, offset, and the end at the last byte. -/
def State.landed (s : State) (c : Nat) (o : Op) (len pa : Nat) : State :=
  let s := s.arrive c o.win (copyAW o.desc) len
  let o := ((s.core c).findOp o.id).getD o
  let o := if copyDstKind o.desc = 3 then o.place (copyDstAt o.desc o.off) len (lineOf pa) else o
  let o := { o with off := o.off + len }
  let s := s.modOp c o.id fun _ => o
  if copyTotal o.desc ≤ o.off then s.finishCopy c o else s

/-- COPY_PIECE_LAND: the next bytes in linear order land, if all of them can; an error at the first of them ends the
copy. -/
def execCopyPieceLand (core op len : Nat) (uncorrectable : Bool) (s : State) : Res :=
  .next (match s.workingOp core op with
    | none => s
    | some o =>
      match o.kind with
      | .copy _ =>
        if !pieceOk o.desc o.off len then s
        else if uncorrectable then s.abortStatus core o 5 0#64
        else
          (match s.copyRead core o len with
           | (.ok v, s1) =>
             (match s1.copyWrite core o len v with
              | (.ok pa, s2) => s.engStep core op (s2.landed core o len pa)
              | (.ends code va, s2) => s.engStep core op (s2.abortStatus core o code va)
              | (_, s2) => s.engWaits s2)
           | (.ends code va, s1) => if len = 1 then s.engStep core op (s1.abortStatus core o code va) else s
           | (_, s1) => s.engWaits s1)
      | _ => s)

/-- COPY_SUSPEND: the byte at OFF does not translate, at the source or the destination. Where it does at neither, the source
is the one reported: the manual does not say which (log 67). -/
def execCopySuspend (core op : Nat) (s : State) : Res :=
  .next (match s.workingOp core op with
    | none => s
    | some o =>
      match o.kind with
      | .copy _ =>
        let d := o.desc
        let look (s : State) (kind : Nat) (acc : Access) (a : Nat) : Xlat × State :=
          if kind = 1 ∨ kind = 2 then (.ok 0 false, s)
          else s.dieTranslate (.op core op 0) (coreDie core) o.part o.user acc (BitVec.ofNat 64 a)
        let stop (s1 : State) (write : Bool) (cause sub a : Nat) : State :=
          s.engStep core op (if cause = 10 then s1.abortStatus core o 3 (BitVec.ofNat 64 a)
            else if 16 ≤ cause then s1.abortStatus core o 4 (BitVec.ofNat 64 a)
            else s1.suspendOp core o write cause sub (BitVec.ofNat 64 a))
        (match look s (copySrcKind d) .read (copySrcAt d o.off) with
         | (.fault cause sub, s1) => stop s1 false cause sub (copySrcAt d o.off)
         | (.wait _, s1) => s.engWaits s1
         | (.ok .., s1) =>
           match look s1 (copyDstKind d) .write (copyDstAt d o.off) with
           | (.fault cause sub, s2) => stop s2 true cause sub (copyDstAt d o.off)
           | (_, s2) => s.engWaits s2)
      | _ => s)

/-! ### Gathers -/

/-- GATHER_FETCH_ISSUE: the next element's index is read and its fetch issued; at most 16 are in flight. -/
def execGatherFetchIssue (core op : Nat) (s : State) : Res :=
  .next (match s.workingOp core op with
    | none => s
    | some o =>
      match o.kind with
      | .gather _ =>
        if 16 ≤ o.flight.length ∨ gathCount o.desc ≤ o.nextFetch then s
        else
          let idx := s.smemRead core o.win (gathIdx o.desc + 4 * o.nextFetch) 4
          s.modOp core op fun o => { o with flight := o.flight ++ [(o.nextFetch, idx, none)], nextFetch := o.nextFetch + 1 }
      | _ => s)

/-- The address of an element. -/
def gathAddr (d size idx : Nat) : DWord := BitVec.ofNat 64 (gathBase d + idx * size)

/-- Land the elements at the head of the flight that have returned, in ascending order; at most n. -/
def State.landElements (s : State) (c size : Nat) (o : Op) : Nat → Op × State
  | 0 => (o, s)
  | n + 1 =>
    match o.flight with
    | (i, _, some v) :: rest =>
      let s := s.smemWrite c o.win (gathDst o.desc + size * i) size v
      let s := s.arrive c o.win (gathAW o.desc) size
      s.landElements c size { o with flight := rest, off := size * (i + 1) } n
    | _ => (o, s)

/-- GATHER_ELEMENT_RETURN: a fetch returns; what can land does. A fault or an error counts at the lowest element only. -/
def execGatherElementReturn (core op i : Nat) (uncorrectable : Bool) (s : State) : Res :=
  .next (match s.workingOp core op with
    | none => s
    | some o =>
      match o.kind with
      | .gather size =>
        (match o.flight.find? fun f => f.1 == i && f.2.2.isNone with
         | none => s
         | some (_, idx, _) =>
           let va := gathAddr o.desc size idx
           let first := o.off == size * i
           if uncorrectable then (if first then s.abortStatus core o 5 0#64 else s)
           else
             match s.engRead core o va size i with
             | (.ok v, s1) =>
               let o := { o with flight := mapIf (fun f => f.1 == i) (fun f => (f.1, f.2.1, some v)) o.flight }
               let (o, s1) := s1.landElements core size o 16
               let s1 := s1.modOp core op fun _ => o
               s.engStep core op (if size * gathCount o.desc ≤ o.off then (s1.putStatus o 1 0 0#64).completeOp core op else s1) i
             | (.ends code va, s1) => if first then s.engStep core op (s1.abortStatus core o code va) i else s.engWaits s1
             | (.fault cause sub va, s1) =>
               if first then
                 s.engStep core op ((s1.suspendOp core o false cause sub va).modOp core op fun o => { o with nextFetch := i }) i
               else s.engWaits s1
             | (.wait, s1) => s.engWaits s1)
      | _ => s)

end Sys2Proof.Machine
end

