-- ==== Sys2Proof/Machine/Draw.lean ====
section
/-! DEFINITION. The raster front ends: triangles to quads of covered pixels, depth, items (08 R211 to R213). A draw keeps
for each screen tile the next candidate quad: 16 × triangle + quad of the tile in ascending (qy, qx). -/

namespace Sys2Proof.Machine

/-! ### Triangles (R212) -/

/-- A vertex: x and y in units of 2^−8, z as FP32 bits. -/
structure Vtx where
  x : Int
  y : Int
  z : Nat
  deriving DecidableEq, Repr

/-- A finite coordinate within ±2^24. -/
def coordOk (v : Nat) : Bool :=
  match fp32.decode v with
  | .fin _ k => k ≤ 2 ^ (24 + 149)
  | _ => false

/-- Rounded to nearest even multiples of 2^−8. -/
def snap (v : Nat) : Int :=
  match fp32.decode v with
  | .fin neg k => signedUnits neg (roundQuot 0 neg k (2 ^ 141))
  | _ => 0

/-- A vertex's 16 bytes; none where a coordinate is not to be used. Its last 4 bytes are not looked at (log 71). -/
def vtxOf (v : Nat) : Option Vtx :=
  let x := bitsOf v 0 32
  let y := bitsOf v 32 32
  let z := bitsOf v 64 32
  if coordOk x && coordOk y && coordOk z then some { x := snap x, y := snap y, z } else none

/-- Twice the signed area, in units of 2^−16. -/
def triArea (a b c : Vtx) : Int := (b.x - a.x) * (c.y - a.y) - (c.x - a.x) * (b.y - a.y)

/-- A triangle to be rasterised, its vertices so ordered that the area is positive. -/
structure Tri where
  a : Vtx
  b : Vtx
  c : Vtx
  area : Int
  deriving DecidableEq, Repr

/-- What becomes of a triangle: discarded, drawn without fragments, or rasterised. -/
inductive TriFate where
  | discard
  | empty
  | tri (t : Tri)
  deriving DecidableEq, Repr

/-- Area and culling (R212, steps 3). -/
def triFate (cull : Nat) (a b c : Option Vtx) : TriFate :=
  match a, b, c with
  | some a, some b, some c =>
    let s := triArea a b c
    if s = 0 ∨ (cull = 1 ∧ s < 0) ∨ (cull = 2 ∧ 0 < s) then .empty
    else if s < 0 then .tri { a, b := c, c := b, area := -s } else .tri { a, b, c, area := s }
  | _, _, _ => .discard

/-- An index's vertex, read from memory for a tile; none inside where the index or a coordinate is not to be used. -/
def State.readVtx (s : State) (c : Nat) (o : Op) (tile idx : Nat) : (Got × Option Vtx) × State :=
  if drawVerts o.desc ≤ idx then ((.ok 0, none), s)
  else match s.engReadLines c o (BitVec.ofNat 64 (drawVB o.desc + 16 * idx)) 2 16 tile with
    | (.ok v, s) => ((.ok 0, vtxOf v), s)
    | (g, s) => ((g, none), s)

/-- Triangle n of the list, for a tile. -/
def State.readTri (s : State) (c : Nat) (o : Op) (tile n : Nat) : (Got × TriFate) × State :=
  match s.engReadLines c o (BitVec.ofNat 64 (drawIB o.desc + 12 * n)) 2 12 tile with
  | (.ok v, s) =>
    (match s.readVtx c o tile (bitsOf v 0 32) with
     | ((.ok _, v0), s) =>
       (match s.readVtx c o tile (bitsOf v 32 32) with
        | ((.ok _, v1), s) =>
          (match s.readVtx c o tile (bitsOf v 64 32) with
           | ((.ok _, v2), s) => ((.ok 0, triFate (drawFlags o.desc % 4) v0 v1 v2), s)
           | ((g, _), s) => ((g, .empty), s))
        | ((g, _), s) => ((g, .empty), s))
     | ((g, _), s) => ((g, .empty), s))
  | (g, s) => ((g, .empty), s)

/-! ### Coverage and depth -/

/-- The edge value of a → b at a pixel's centre, in units of 2^−16. -/
def edgeAt (a b : Vtx) (px py : Nat) : Int :=
  (b.x - a.x) * ((256 * py + 128 : Nat) - a.y) - (b.y - a.y) * ((256 * px + 128 : Nat) - a.x)

/-- The edge covers the pixel: strictly, or on it by the rule for shared edges. -/
def edgeCovers (a b : Vtx) (e : Int) : Bool := 0 < e || (e == 0 && (b.y < a.y || (b.y == a.y && a.x < b.x)))

/-- The pixel is inside the viewport and covered. -/
def Tri.covers (t : Tri) (d px py : Nat) : Bool :=
  drawX0 d ≤ px && px < drawX0 d + drawW d && drawY0 d ≤ py && py < drawY0 d + drawH d &&
    edgeCovers t.a t.b (edgeAt t.a t.b px py) && edgeCovers t.b t.c (edgeAt t.b t.c px py) && edgeCovers t.c t.a (edgeAt t.c t.a px py)

/-- A finite FP32 as a signed number of units. -/
def unitsOf (z : Nat) : Int := match fp32.decode z with | .fin neg k => signedUnits neg k | _ => 0

/-- z at a pixel: exact, then rounded to nearest even. An exact zero is +0, whatever the signs of the vertices' zeros
(log 72). -/
def Tri.depth (t : Tri) (px py : Nat) : Nat :=
  let sum := edgeAt t.b t.c px py * unitsOf t.a.z + edgeAt t.c t.a px py * unitsOf t.b.z + edgeAt t.a t.b px py * unitsOf t.c.z
  fp32.roundInt 0 false sum (t.area.toNat * 2 ^ 149)

/-- The screen tile of a pixel: 8 by 8 pixels, 2048 tiles a row. -/
def tileOfPixel (px py : Nat) : Nat := px / 8 + 2048 * (py / 8)

/-- The early depth test of a pixel, with its store (R212): whether it survives, or whether it is the store that does not go
through. -/
def State.depthTest (s : State) (c : Nat) (o : Op) (z px py : Nat) : (Got × Bool) × State :=
  let va := BitVec.ofNat 64 (drawDepth o.desc + py * drawPitch o.desc + 4 * px)
  match s.engReadLines c o va 2 4 (tileOfPixel px py) with
  | (.ok old, s) =>
    if fp32.cmp z old == some .lt then
      if bitOf (drawFlags o.desc) 2 then
        (match s.engWriteLines c o va 2 4 z (tileOfPixel px py) with
         | (.ok _, s) => ((.ok 0, true), s)
         | (g, s) => ((g, true), s))
      else ((.ok 0, true), s)
    else ((.ok 0, false), s)
  | (g, s) => ((g, false), s)

/-- The coverage bits of the survivors among pixels k of a quad; or, where an access does not go through, 1 for a store. -/
def State.quadBits (s : State) (c : Nat) (o : Op) (ez : Bool) (t : Tri) (qx qy : Nat) : List Nat → (Got × Nat) × State
  | [] => ((.ok 0, 0), s)
  | k :: rest =>
    let px := 2 * qx + k % 2
    let py := 2 * qy + k / 2
    if !t.covers o.desc px py then s.quadBits c o ez t qx qy rest
    else
      let r := if ez then s.depthTest c o (t.depth px py) px py else ((.ok 0, true), s)
      match r with
      | ((.ok _, live), s) =>
        (match s.quadBits c o ez t qx qy rest with
         | ((.ok n, m), s) => ((.ok n, m + if live then 2 ^ k else 0), s)
         | x => x)
      | ((g, store), s) => ((g, if store then 1 else 0), s)

/-- The item of a quad. -/
def quadItem (n mask qx qy : Nat) : DWord := BitVec.ofNat 64 (n * 2 ^ 32 + mask * 2 ^ 28 + qy * 2 ^ 14 + qx)

/-! ### Screen tiles (R213) -/

/-- The core of an incomplete operation with an id on a die. -/
def State.drawCore (s : State) (die op : Nat) : Option Nat :=
  (s.cores.find? fun e => coreDie e.1 == die && e.2.ops.any fun o => o.id == op).map (·.1)

/-- Draws of a die that are not complete. -/
def State.dieDraws (s : State) (die : Nat) : List (Nat × Op) :=
  s.cores.flatMap fun e => if coreDie e.1 = die then (e.2.ops.filter fun o => isDraw o.kind && o.state != .complete).map fun o => (e.1, o) else []

/-- One of the four front ends has the draw, and older draws of its context are done with the tile. -/
def State.drawTurn (s : State) (die c : Nat) (o : Op) (tile : Nat) : Bool :=
  let older := (s.dieDraws die).filter fun x => x.2.id < o.id
  older.length < 4 && older.all fun x => x.1 != c || x.2.hw != o.hw || x.2.orphan != o.orphan || x.2.tileDone tile

/-- A draw stops at an item (24 R367). -/
def State.failDraw (s : State) (c : Nat) (o : Op) (va : DWord) : State := (s.completeOp c o.id).engineError c o va

/-- What a draw leaves where an access for a tile does not go through. -/
def State.drawStops (s : State) (c : Nat) (o : Op) (write : Bool) (tile : Nat) (g : Got) (s1 : State) : State :=
  match g with
  | .ends _ va => s.engStep c o.id ((s.engBack s1).failDraw c o va) tile
  | .fault cause sub va => s.engStep c o.id ((s.engBack s1).engineFault c o write cause sub va) tile
  | _ => s.engWaits s1

/-- The next candidate quad of a tile. -/
def State.drawQuad (s : State) (c : Nat) (o : Op) (ez : Bool) (tile : Nat) : State :=
  let pos := tblGet 0 o.tiles tile
  let n := pos / 16
  let qx := 4 * (tile % 2048) + pos % 16 % 4
  let qy := 4 * (tile / 2048) + pos % 16 / 4
  let next (r : State) : State :=
    s.engStep c o.id (r.modOp c o.id fun o => { o with tiles := tblPut 0 o.tiles tile (pos + 1) }) tile
  match s.readTri c o tile n with
  | ((.ok _, .tri t), s1) =>
    (match s1.quadBits c o ez t qx qy [0, 1, 2, 3] with
     | ((.ok _, m), s2) =>
       if m = 0 then next s2
       else if o.orphan then next s2
       else if 256 ≤ (s.ctx c o.hw).queue.length then s.engWaits s2
       else next (s2.modCtx c o.hw fun x => { x with queue := x.queue ++ [quadItem n m qx qy] })
     | ((g, m), s2) => s.drawStops c o (m == 1) tile g s2)
  | ((.ok _, _), s1) => next s1
  | ((g, _), s1) => s.drawStops c o false tile g s1

def execDrawQuadPush (die op tile : Nat) (uncorrectable : Bool) (s : State) : Res :=
  .next (match s.drawCore die op with
    | none => s
    | some c =>
      match s.workingOp c op with
      | none => s
      | some o =>
        match o.kind with
        | .draw ez =>
          if o.tileDone tile || !s.drawTurn die c o tile then s
          else if uncorrectable then s.failDraw c o 0#64
          else s.drawQuad c o ez tile
        | _ => s)

/-! ### Completion -/

/-- Past every tile: the part of a draw that counts its triangles. -/
def pastTiles : Nat := 2 ^ 22

/-- Triangles discarded, among n from triangle i on. -/
def State.countDiscards (s : State) (c : Nat) (o : Op) : Nat → Nat → (Got × Nat) × State
  | _, 0 => ((.ok 0, 0), s)
  | i, n + 1 =>
    match s.readTri c o pastTiles i with
    | ((.ok _, t), s) =>
      (match s.countDiscards c o (i + 1) n with
       | ((g, m), s) => ((g, m + if t = .discard then 1 else 0), s))
    | ((g, _), s) => ((g, 0), s)

def execDrawComplete (die op : Nat) (s : State) : Res :=
  .next (match s.drawCore die op with
    | none => s
    | some c =>
      match s.workingOp c op with
      | none => s
      | some o =>
        if !isDraw o.kind then s
        else if !o.pushedAll then s
        else match s.countDiscards c o 0 (drawTris o.desc) with
          | ((.ok _, k), s1) =>
            let s1 := s1.smemWrite c o.win (drawStat o.desc) 8 (drawTris o.desc - k + k * 2 ^ 32)
            s.engStep c op ((s1.arrive c o.win (drawAW o.desc) 8).completeOp c op) pastTiles
          | ((g, _), s1) => s.drawStops c o false pastTiles g s1)

end Sys2Proof.Machine
end

