-- ==== Sys2Proof/Machine/Matrix.lean ====
section
/-! DEFINITION. The matrix engine at work: its queue, weight loads, tile tasks and codebook loads (08 R195 to R205;
14 R270 to R277; 12 R263). -/

namespace Sys2Proof.Machine

/-! ### The queue (R197) -/

/-- The command that executes, unless its fault is under service. -/
def State.matrixHead (s : State) (c : Nat) : Option Op :=
  match s.matrixQueue c with
  | o :: _ => if o.fault.isNone then some o else none
  | [] => none

/-- A command has executed for as long as it takes (14 R275). -/
def State.matrixDone (s : State) (o : Op) : Bool := o.started && o.due ≤ s.ps

/-- MXSHAPE_EXECUTE (R200, R271). -/
def execMxshapeExecute (core : Nat) (s : State) : Res :=
  .next (match s.matrixHead core with
    | some o =>
      (match o.kind with
       | .mxshape =>
         if !s.matrixDone o then s
         else (s.modMx core fun m => { m with shape := o.desc, woken := m.woken || m.shape < o.desc }).completeOp core o.id
       | _ => s)
    | none => s)

/-! ### MXLDW (R202, R277) -/

/-- Read the rows of a block from global memory, from row k on: n rows, concatenated at the slot's row size. -/
def State.ldwRows (s : State) (c : Nat) (o : Op) : Nat → Nat → Got × State
  | _, 0 => (.ok 0, s)
  | k, n + 1 =>
    match s.engReadLines c o (BitVec.ofNat 64 (ldwSrc o.desc + k * ldwStr o.desc)) 4 (ldwRow o.desc) with
    | (.ok v, s) =>
      match s.ldwRows c o (k + 1) n with
      | (.ok w, s) => (.ok (v + w * 2 ^ (8 * ldwRow o.desc)), s)
      | r => r
    | r => r

/-- The block's bytes, from where KIND says. -/
def State.ldwBlock (s : State) (c : Nat) (o : Op) : Got × State :=
  let d := o.desc
  let rows := pairRows o.pair
  match ldwKind d with
  | 0 => s.ldwRows c o 0 rows
  | 1 =>
    (.ok (packBytes ((List.range rows).map fun k =>
      (k * ldwRow d, ldwRow d, s.smemRead c o.win (ldwSrc d % 2 ^ 22 + k * ldwStr d) (ldwRow d)))), s)
  | _ => (.ok (readBytes (s.core c).mx.wsram (8192 * ldwSlot d) (rows * ldwRow d)), s)

/-- The load ends with no weights latched; its issuer hears of it (R277, R367). The manual does not say what the slot then
holds: it is left as it was (DESIGN CHOICE, log 96). -/
def State.ldwFails (s : State) (c : Nat) (o : Op) (va : DWord) : State :=
  ((s.modMx c fun m => { m with latched := none, unsound := true, woken := false }).completeOp c o.id).engineError c o va

/-- The block stands in its slot and is latched with its format and codebook. -/
def State.latchBlock (s : State) (c : Nat) (o : Op) (v : Nat) : State :=
  let d := o.desc
  let bytes := pairRows o.pair * ldwRow d
  let cb := tblGet 0#256 (s.booksOf c o) (ldwCbs d)
  (s.modMx c fun m => { m with
    wsram := if ldwKind d = 2 then m.wsram else writeBytes m.wsram (8192 * ldwSlot d) bytes v
    latched := some { fmt := ldwFmt d, wslot := ldwSlot d, cb }, unsound := false, woken := false }).completeOp c o.id

def execMxldwComplete (core : Nat) (uncorrectable : Bool) (s : State) : Res :=
  .next (match s.matrixHead core with
    | some o =>
      (match o.kind with
       | .mxldw =>
         if !s.matrixDone o then s
         else if uncorrectable then s.ldwFails core o 0#64
         else
           (match s.ldwBlock core o with
            | (.ok v, s1) => s.engStep core o.id (s1.latchBlock core o v)
            | (.ends code va, s1) => s.engStep core o.id (s1.ldwFails core o (if code = 4 then 0#64 else va))
            | (.fault cause sub va, s1) => s.engStep core o.id (s1.engineFault core o false cause sub va)
            | (.wait, s1) => s.engWaits s1)
       | _ => s)
    | none => s)

/-! ### Tile tasks (R204, R205) -/

/-- INAW has reached its phase, or is not awaited (R205). -/
def State.inputReady (s : State) (c : Nat) (o : Op) : Bool :=
  !mxqInw o.desc || awPhase (s.smemRead c o.win (mxqInaw o.desc) 16) == mxqInph o.desc

/-- TILE_TASK_START: the input word has its phase. The A codebook is copied, and the first group streams, or after the 64
cycles of bands that wake (14 R271, R275). -/
def execTileTaskStart (core : Nat) (s : State) : Res :=
  .next (match s.matrixHead core with
    | some o =>
      if o.kind != .mxq || o.started || !s.inputReady core o then s
      else
        let m := (s.core core).mx
        let cb := tblGet 0#256 (s.booksOf core o) (mxqAcb o.desc)
        let s := s.modOp core o.id fun o =>
          { o with started := true, cb, due := s.ps + (if m.woken then 625 * 64 else 0), unsound := m.latched.isNone || m.unsound }
        (s.modMx core fun m => { m with woken := false }).streamTile core o.id
    | none => s)

/-- Write the rows of C as one piece. -/
def State.writeTile (s : State) (c : Nat) (o : Op) : State :=
  (List.range (mxqM o.desc)).foldl (fun s row =>
    s.smemWrite c o.win (mxqC o.desc + row * mxqCStr o.desc) 256
      (packBytes ((List.range 64).map fun j => (4 * j, 4, (o.result.getD (64 * row + j) 0#32).toNat)))) s

/-- TILE_TASK_COMPLETE: every group has streamed and the array has drained. C is written unless the weights were unsound;
DONE is signalled either way (R277). -/
def execTileTaskComplete (core : Nat) (uncorrectable : Bool) (s : State) : Res :=
  .next (
    let s := s.streamTiles core
    match s.matrixHead core with
    | some o =>
      if o.kind != .mxq || !s.matrixDone o || o.off < groupCount o.desc then s
      else
        let s := if o.unsound || uncorrectable then s else s.writeTile core o
        let s := (s.arrive core o.win (mxqDone o.desc) (256 * mxqM o.desc)).completeOp core o.id
        if uncorrectable then s.engineError core o 0#64 else s
    | none => s)

/-- ARRAY_ENERGY_PERIOD: a new microsecond; what was held to its boundary streams (12 R263). -/
def execArrayEnergyPeriod (core : Nat) (s : State) : Res :=
  .next (
    let s := s.streamTiles core
    if s.time / 1000 ≤ (s.core core).mx.energyAt then s
    else s.modMx core fun m => { m with energy := 0, energyAt := s.time / 1000 })

/-! ### CBLOAD (R203) -/

def execCbloadComplete (core id : Nat) (s : State) : Res :=
  .next (match s.workingOp core id with
    | none => s
    | some o =>
      match o.kind with
      | .cbload n =>
        if s.matrixTurn core o && s.matrixDone o then
          let v := BitVec.ofNat 256 (s.smemRead core o.win o.off 32)
          (s.setBook core o n v).completeOp core id
        else s
      | _ => s)

end Sys2Proof.Machine
end

