-- ==== Sys2Proof/Machine/Ray.lean ====
section
/-! DEFINITION. The ray unit: box and triangle tests, rays, overlap queries, refits (08 R206 to R210). A query reads the
hierarchy as it stands when it completes (log 34). -/

namespace Sys2Proof.Machine

/-! ### References and shapes (R206) -/

def refType (r : Nat) : Nat := bitsOf r 61 3
def refCount (r : Nat) : Nat := bitsOf r 57 4 + 1
def refTarget (r : Nat) : DWord := sext57 (bitsOf r 4 53 * 16)
def refBad (r : Nat) : Bool := 4 ≤ refType r || bitsOf r 0 4 != 0 || (refType r == 1 && bitsOf r 57 4 != 0)

/-- Three coordinates as FP32 bits. -/
structure Vec3 where
  x : Nat
  y : Nat
  z : Nat
  deriving DecidableEq, Repr

structure Box where
  lo : Vec3
  hi : Vec3
  deriving DecidableEq, Repr

/-- Word n of a value. -/
def word32 (v byte : Nat) : Nat := bitsOf v (8 * byte) 32
def vecAt (v byte : Nat) : Vec3 := { x := word32 v byte, y := word32 v (byte + 4), z := word32 v (byte + 8) }
/-- The box of slot i of a node. -/
def nodeBox (v i : Nat) : Box :=
  { lo := { x := word32 v (4 * i), y := word32 v (16 + 4 * i), z := word32 v (32 + 4 * i) }
    hi := { x := word32 v (48 + 4 * i), y := word32 v (64 + 4 * i), z := word32 v (80 + 4 * i) } }
def nodeRef (v i : Nat) : Nat := bitsOf v (768 + 64 * i) 64
/-- Bytes of a leaf by its reference's type. -/
def leafBytes (ty : Nat) : Nat := if ty = 2 then 48 else 32

/-- Read a node, or leaf j of a run. -/
def State.readNode (s : State) (c : Nat) (o : Op) (va : DWord) : Got × State := s.engReadLines c o va 3 128
def State.readLeaf (s : State) (c : Nat) (o : Op) (r j : Nat) : Got × State :=
  s.engReadLines c o (refTarget r + BitVec.ofNat 64 (j * leafBytes (refType r))) 2 (leafBytes (refType r))

/-! ### The tests (R207) -/

def fAdd (a b : Nat) : Nat := fp32.add 0 a b
def fSub (a b : Nat) : Nat := fp32.sub 0 a b
def fMul (a b : Nat) : Nat := fp32.mul 0 a b
def fDiv (a b : Nat) : Nat := fp32.div a b
def fMin (a b : Nat) : Nat := fp32.minMax false a b
def fMax (a b : Nat) : Nat := fp32.minMax true a b
def fLt (a b : Nat) : Bool := fp32.cmp a b == some .lt
def fLe (a b : Nat) : Bool := fp32.cmp a b == some .lt || fp32.cmp a b == some .eq
def fEq (a b : Nat) : Bool := fp32.cmp a b == some .eq

/-- One axis of BoxTest: none where the ray misses the slab. -/
def slab (o d lo hi : Nat) (t : Nat × Nat) : Option (Nat × Nat) :=
  if fEq d 0 then (if fLt o lo || fLt hi o then none else some t)
  else
    let t1 := fDiv (fSub lo o) d
    let t2 := fDiv (fSub hi o) d
    some (fMax t.1 (fMin t1 t2), fMin t.2 (fMax t1 t2))

/-- BoxTest: tnear of a hit. -/
def boxTest (o d : Vec3) (b : Box) (tmin tmax : Nat) : Option Nat :=
  match slab o.x d.x b.lo.x b.hi.x (tmin, tmax) with
  | none => none
  | some t =>
    match slab o.y d.y b.lo.y b.hi.y t with
    | none => none
    | some t =>
      match slab o.z d.z b.lo.z b.hi.z t with
      | none => none
      | some t => if fLe t.1 t.2 then some t.1 else none

def vSub (a b : Vec3) : Vec3 := { x := fSub a.x b.x, y := fSub a.y b.y, z := fSub a.z b.z }
def vDot (a b : Vec3) : Nat := fAdd (fAdd (fMul a.x b.x) (fMul a.y b.y)) (fMul a.z b.z)
def vCross (a b : Vec3) : Vec3 :=
  { x := fSub (fMul a.y b.z) (fMul a.z b.y), y := fSub (fMul a.z b.x) (fMul a.x b.z), z := fSub (fMul a.x b.y) (fMul a.y b.x) }

/-- TriTest: t, u and v of a hit. -/
def triTest (o d v0 v1 v2 : Vec3) (tmin tmax : Nat) (cull : Bool) : Option (Nat × Nat × Nat) :=
  let e1 := vSub v1 v0
  let e2 := vSub v2 v0
  let p := vCross d e2
  let det := vDot e1 p
  if fEq det 0 || (cull && fLt det 0) then none
  else
    let s := vSub o v0
    let u := fDiv (vDot s p) det
    let q := vCross s e1
    let v := fDiv (vDot d q) det
    let t := fDiv (vDot e2 q) det
    if fLe 0 u && fLe 0 v && fLe (fAdd u v) 0x3F800000 && fLe tmin t && fLe t tmax then some (t, u, v) else none

/-! ### RAY (R208) -/

/-- A hit: kind 1 triangle or 2 box, its values, the leaf's address. -/
structure Hit where
  kind : Nat
  t : Nat
  u : Nat
  v : Nat
  prim : Nat
  addr : DWord
  deriving DecidableEq, Repr

/-- How a traversal ends, apart from its result. -/
inductive Trace where
  | done (h : Option Hit)
  | malformed
  | got (g : Got)
  deriving DecidableEq, Repr

/-- The hit kept is the one of least t, and among equal t the least primitive index. -/
def betterHit (a : Option Hit) (b : Hit) : Option Hit :=
  match a with
  | none => some b
  | some x => if fLt b.t x.t || (fEq b.t x.t && b.prim < x.prim) then some b else some x

/-- The ray of a query. -/
structure RayQ where
  org : Vec3
  dir : Vec3
  tmin : Nat
  tmax : Nat
  cull : Bool
  anyHit : Bool

def rayOf (d : Nat) (anyHit : Bool) : RayQ :=
  { org := vecAt d 0, tmin := word32 d 12, dir := vecAt d 16, tmax := word32 d 28, cull := bitOf d 384, anyHit }

/-- The test of a leaf's bytes. The bytes of a leaf that must be zero are not looked at: the manual gives nonzero ones no
consequence (log 71). -/
def leafHit (q : RayQ) (ty v : Nat) (addr : DWord) : Option Hit :=
  if ty = 2 then
    (triTest q.org q.dir (vecAt v 0) (vecAt v 12) (vecAt v 24) q.tmin q.tmax q.cull).map fun r =>
      { kind := 1, t := r.1, u := r.2.1, v := r.2.2, prim := word32 v 36, addr }
  else
    (boxTest q.org q.dir { lo := vecAt v 0, hi := vecAt v 12 } q.tmin q.tmax).map fun t =>
      { kind := 2, t, u := 0, v := 0, prim := word32 v 24, addr }

/-- Test n leaves of a run from leaf j on. -/
def rayLeaves (q : RayQ) (c : Nat) (o : Op) (r : Nat) : Nat → Nat → Option Hit → State → Trace × State
  | _, 0, h, s => (.done h, s)
  | j, n + 1, h, s =>
    match s.readLeaf c o r j with
    | (.ok v, s) =>
      match leafHit q (refType r) v (refTarget r + BitVec.ofNat 64 (j * leafBytes (refType r))) with
      | none => rayLeaves q c o r (j + 1) n h s
      | some x => if q.anyHit then (.done (some x), s) else rayLeaves q c o r (j + 1) n (betterHit h x) s
    | (g, s) => (.got g, s)

/-- Insert by tnear, a later slot after its equals. -/
def insertNear (x : Nat × Nat) : List (Nat × Nat) → List (Nat × Nat)
  | [] => [x]
  | y :: t => if fLt x.1 y.1 then x :: y :: t else y :: insertNear x t

/-- The references of a node whose boxes the ray hits, nearest first (tnear, reference). -/
def nearChildren (q : RayQ) (node : Nat) : List (Nat × Nat) :=
  (List.range 4).foldl (fun l i =>
    match boxTest q.org q.dir (nodeBox node i) q.tmin q.tmax with
    | some t => insertNear (t, nodeRef node i) l
    | none => l) []

/-- The traversal: references to visit with their tnear and depth, the nodes visited, the hit kept. -/
def rayWalk (q : RayQ) (c : Nat) (o : Op) : Nat → List (Option Nat × Nat × Nat) → Nat → Option Hit → State → Trace × State
  | _, [], _, h, s => (.done h, s)
  | 0, _ :: _, _, _, s => (.malformed, s)
  | fuel + 1, (near, r, depth) :: rest, visits, h, s =>
    let skip := match near, h with | some t, some x => fLt x.t t | _, _ => false
    if skip then rayWalk q c o fuel rest visits h s
    else if refBad r then (.malformed, s)
    else if refType r = 0 then rayWalk q c o fuel rest visits h s
    else if refType r = 1 then
      if 64 < depth ∨ 2 ^ 24 ≤ visits then (.malformed, s)
      else match s.readNode c o (refTarget r) with
        | (.ok v, s) =>
          rayWalk q c o fuel ((nearChildren q v).map (fun x => (some x.1, x.2, depth + 1)) ++ rest) (visits + 1) h s
        | (g, s) => (.got g, s)
    else match rayLeaves q c o r 0 (refCount r) h s with
      | (.done h', s) => if q.anyHit && h'.isSome then (.done h', s) else rayWalk q c o fuel rest visits h' s
      | x => x

/-- A reference to a node at an address. -/
def nodeRefTo (va : Nat) : Nat := 2 ^ 61 + bitsOf va 4 53 * 16
/-- No traversal within the limits takes more steps: four references of each of 2^24 nodes, and the root. -/
def walkFuel : Nat := 2 ^ 26 + 1

/-- The 32 bytes of a result; without a hit every field but the status is open. -/
def rayBits (o : Op) (status : Nat) (h : Option Hit) : Nat :=
  match h with
  | some h =>
    packBytes [(0, 4, h.kind), (4, 4, h.t), (8, 4, h.u), (12, 4, h.v), (16, 4, h.prim), (24, 8, h.addr.toNat)]
  | none =>
    let free (n : Nat) : Nat := (Config.rayOpen o.desc status n).toNat
    packBytes [(0, 4, status), (4, 8, free 0), (12, 8, free 1), (24, 8, free 2)]

def rayResult (d : Nat) : Nat := word32 d 40
def rayAW (d : Nat) : Nat := word32 d 44

/-- Write a query's result and signal its word; the query is complete. -/
def State.endQuery (s : State) (c : Nat) (o : Op) (bytes v : Nat) : State :=
  ((s.smemWrite c o.win (rayResult o.desc) bytes v).arrive c o.win (rayAW o.desc) bytes).completeOp c o.id

/-- A query meets an error: status 3 (24 R367). -/
def State.failRay (s : State) (c : Nat) (o : Op) (va : DWord) : State :=
  (s.endQuery c o 32 (rayBits o 3 none)).engineError c o va

def execRayQueryComplete (core op : Nat) (uncorrectable : Bool) (s : State) : Res :=
  .next (match s.workingOp core op with
    | none => s
    | some o =>
      match o.kind with
      | .ray anyHit =>
        let root := BitVec.ofNat 64 (bitsOf o.desc 256 64)
        if uncorrectable then s.failRay core o 0#64
        else if !canonical root then s.failRay core o root
        else
          (match rayWalk (rayOf o.desc anyHit) core o walkFuel [(none, nodeRefTo root.toNat, 1)] 0 none s with
           | (.done h, s1) => s.engStep core op (s1.endQuery core o 32 (rayBits o 0 h))
           | (.malformed, s1) => s.engStep core op (s1.endQuery core o 32 (rayBits o 3 none))
           | (.got (.ends _ va), s1) => s.engStep core op (s1.failRay core o va)
           | (.got (.fault cause sub va), s1) => s.engStep core op (s1.engineFault core o false cause sub va)
           | (.got _, s1) => s.engWaits s1)
      | _ => s)

/-! ### OVLP (R209) -/

/-- The boxes overlap; a NaN anywhere makes a comparison false. -/
def overlaps (a b : Box) : Bool :=
  fLe a.lo.x b.hi.x && fLe b.lo.x a.hi.x && fLe a.lo.y b.hi.y && fLe b.lo.y a.hi.y && fLe a.lo.z b.hi.z && fLe b.lo.z a.hi.z

def isNan32 (v : Nat) : Bool := fp32.decode v == .nan
def vecNan (v : Vec3) : Bool := isNan32 v.x || isNan32 v.y || isNan32 v.z
def vMin (a b : Vec3) : Vec3 := { x := fMin a.x b.x, y := fMin a.y b.y, z := fMin a.z b.z }
def vMax (a b : Vec3) : Vec3 := { x := fMax a.x b.x, y := fMax a.y b.y, z := fMax a.z b.z }

/-- A leaf's bounds, its primitive index, and whether a vertex holds a NaN; bytes that must be zero are not looked at (log 71). -/
def leafBounds (ty v : Nat) : Box × Nat × Bool :=
  if ty = 2 then
    let a := vecAt v 0
    let b := vecAt v 12
    let d := vecAt v 24
    ({ lo := vMin (vMin a b) d, hi := vMax (vMax a b) d }, word32 v 36, vecNan a || vecNan b || vecNan d)
  else ({ lo := vecAt v 0, hi := vecAt v 12 }, word32 v 24, false)

/-- What an overlap traversal has found: leaves still to skip, indices found (last first), room left, and whether one
more was found than there was room for. -/
structure Found where
  skip : Nat
  prims : List Nat := []
  room : Nat
  more : Bool := false
  deriving DecidableEq, Repr

def Found.add (f : Found) (prim : Nat) : Found :=
  if f.skip ≠ 0 then { f with skip := f.skip - 1 }
  else if f.room ≠ 0 then { f with room := f.room - 1, prims := prim :: f.prims }
  else { f with more := true }

/-- How an overlap traversal ends. -/
inductive Listing where
  | done
  | malformed
  | got (g : Got)
  deriving DecidableEq, Repr

/-- Leaves of a run in address order. -/
def ovlpLeaves (q : Box) (c : Nat) (o : Op) (r : Nat) : Nat → Nat → Found → State → Listing × Found × State
  | _, 0, f, s => (.done, f, s)
  | j, n + 1, f, s =>
    if f.more then (.done, f, s)
    else match s.readLeaf c o r j with
      | (.ok v, s) =>
        let b := leafBounds (refType r) v
        ovlpLeaves q c o r (j + 1) n (if !b.2.2 && overlaps b.1 q then f.add b.2.1 else f) s
      | (g, s) => (.got g, f, s)

def Box.hasNan (b : Box) : Bool := vecNan b.lo || vecNan b.hi

/-- Depth first, children in slot order: references to visit with their boxes, none for the root, and their depth. A child
box with a NaN bound is not entered, be it of a node or of leaves; a malformed reference is reached whatever its box
(log 25). -/
def ovlpWalk (q : Box) (c : Nat) (o : Op) : Nat → List (Option Box × Nat × Nat) → Nat → Found → State → Listing × Found × State
  | _, [], _, f, s => (.done, f, s)
  | 0, _ :: _, _, f, s => (.malformed, f, s)
  | fuel + 1, (b, r, depth) :: rest, visits, f, s =>
    if f.more then (.done, f, s)
    else if refBad r then (.malformed, f, s)
    else if refType r = 0 then ovlpWalk q c o fuel rest visits f s
    else if refType r = 1 then
      if (match b with | some b => !overlaps b q | none => false) then ovlpWalk q c o fuel rest visits f s
      else if 64 < depth ∨ 2 ^ 24 ≤ visits then (.malformed, f, s)
      else match s.readNode c o (refTarget r) with
        | (.ok v, s) =>
          ovlpWalk q c o fuel ((List.range 4).map (fun i => (some (nodeBox v i), nodeRef v i, depth + 1)) ++ rest) (visits + 1) f s
        | (g, s) => (.got g, f, s)
    else if (match b with | some b => b.hasNan | none => false) then ovlpWalk q c o fuel rest visits f s
    else match ovlpLeaves q c o r 0 (refCount r) f s with
      | (.done, f, s) => ovlpWalk q c o fuel rest visits f s
      | x => x

/-- The result: header and entries. -/
def ovlpBits (token status : Nat) (f : Found) : Nat :=
  let n := f.prims.length
  packBytes ([(0, 4, n), (4, 4, token + n), (8, 4, status)] ++ f.prims.reverse.zipIdx.map fun e => (16 + 4 * e.2, 4, e.1))

def State.endOvlp (s : State) (c : Nat) (o : Op) (status : Nat) (f : Found) : State :=
  s.endQuery c o (16 + 4 * f.prims.length) (ovlpBits (word32 o.desc 24) status f)

def execOvlpQueryComplete (core op : Nat) (uncorrectable : Bool) (s : State) : Res :=
  .next (match s.workingOp core op with
    | none => s
    | some o =>
      match o.kind with
      | .ovlp =>
        let start : Found := { skip := word32 o.desc 24, room := word32 o.desc 28 }
        let root := BitVec.ofNat 64 (bitsOf o.desc 256 64)
        if uncorrectable then (s.endOvlp core o 3 start).engineError core o 0#64
        else if !canonical root then (s.endOvlp core o 3 start).engineError core o root
        else
          (match ovlpWalk { lo := vecAt o.desc 0, hi := vecAt o.desc 12 } core o walkFuel
              [(none, nodeRefTo root.toNat, 1)] 0 start s with
           | (.done, f, s1) => s.engStep core op (s1.endOvlp core o (if f.more then 1 else 0) f)
           | (.malformed, f, s1) => s.engStep core op (s1.endOvlp core o 3 f)
           | (.got (.ends _ va), f, s1) => s.engStep core op ((s1.endOvlp core o 3 f).engineError core o va)
           | (.got (.fault cause sub va), _, s1) => s.engStep core op (s1.engineFault core o false cause sub va)
           | (.got _, _, s1) => s.engWaits s1)
      | _ => s)

/-! ### REFIT (R210) -/

def emptyBox : Box :=
  let i := fp32.inf
  let n := fp32.signBit true + fp32.inf
  { lo := { x := i, y := i, z := i }, hi := { x := n, y := n, z := n } }
/-- What a union starts from: under R93 a NaN gives way to every number, and bounds that are all NaN leave the canonical
NaN. -/
def nanBox : Box :=
  let n := fp32.nan
  { lo := { x := n, y := n, z := n }, hi := { x := n, y := n, z := n } }
def boxUnion (a b : Box) : Box := { lo := vMin a.lo b.lo, hi := vMax a.hi b.hi }

/-- The union of the bounds of n leaves from leaf j on. -/
def State.refitLeaves (s : State) (c : Nat) (o : Op) (r : Nat) : Nat → Nat → Box → (Got × Box) × State
  | _, 0, b => ((.ok 0, b), s)
  | j, n + 1, b =>
    match s.readLeaf c o r j with
    | (.ok v, s) => s.refitLeaves c o r (j + 1) n (boxUnion b (leafBounds (refType r) v).1)
    | (g, s) => ((g, b), s)

/-- The new box of a slot, from its reference. -/
def State.refitBox (s : State) (c : Nat) (o : Op) (r : Nat) : (Got × Box) × State :=
  if refType r = 0 then ((.ok 0, emptyBox), s)
  else if refType r = 1 then
    match s.readNode c o (refTarget r) with
    | (.ok v, s) => ((.ok 0, (List.range 4).foldl (fun b i => boxUnion b (nodeBox v i)) nanBox), s)
    | (g, s) => ((g, emptyBox), s)
  else s.refitLeaves c o r 0 (refCount r) nanBox

/-- The new boxes of a node's slots, in order. -/
def State.refitBoxes (s : State) (c : Nat) (o : Op) : List Nat → (Got × List Box) × State
  | [] => ((.ok 0, []), s)
  | r :: t =>
    match s.refitBox c o r with
    | ((.ok _, b), s) =>
      match s.refitBoxes c o t with
      | ((g, l), s) => ((g, b :: l), s)
    | ((g, _), s) => ((g, []), s)

/-- The 96 box bytes of a node. -/
def boxBits (l : List Box) : Nat :=
  packBytes (l.zipIdx.flatMap fun e =>
    [(4 * e.2, 4, e.1.lo.x), (16 + 4 * e.2, 4, e.1.lo.y), (32 + 4 * e.2, 4, e.1.lo.z),
     (48 + 4 * e.2, 4, e.1.hi.x), (64 + 4 * e.2, 4, e.1.hi.y), (80 + 4 * e.2, 4, e.1.hi.z)])

/-- The REFIT ends at a node, with an error at an address. -/
def State.failRefit (s : State) (c : Nat) (o : Op) (va : DWord) : State := (s.completeOp c o.id).engineError c o va

/-- REFIT_NODE: the next node downward is read and its boxes written. -/
def execRefitNode (core op : Nat) (uncorrectable : Bool) (s : State) : Res :=
  .next (match s.workingOp core op with
    | none => s
    | some o =>
      if o.kind != .refit then s
      else
        let va := BitVec.ofNat 64 (refitBase o.desc + 128 * (refitCount o.desc - 1 - o.off))
        if uncorrectable then s.failRefit core o 0#64
        else
          let stop (g : Got) (write : Bool) (s1 : State) : State := match g with
            | .ends _ va => s.engStep core op ((s.engBack s1).failRefit core o va)
            | .fault cause sub va => s.engStep core op ((s.engBack s1).engineFault core o write cause sub va)
            | _ => s.engWaits s1
          match s.readNode core o va with
          | (.ok v, s1) =>
            let refs := (List.range 4).map (nodeRef v)
            if refs.any refBad then s.engStep core op (s1.failRefit core o va)
            else
              (match s1.refitBoxes core o refs with
               | ((.ok _, boxes), s2) =>
                 (match s2.engWriteLines core o va 2 96 (boxBits boxes) with
                  | (.ok _, s3) =>
                    let s3 := (s3.arrive core o.win (refitAW o.desc) 96).modOp core op fun o => { o with off := o.off + 1 }
                    s.engStep core op (if refitCount o.desc ≤ o.off + 1 then s3.completeOp core op else s3)
                  | (g, s3) => stop g true s3)
               | ((g, _), s2) => stop g false s2)
          | (g, s1) => stop g false s1)

end Sys2Proof.Machine
end

