-- ==== Sys2Proof/Machine/TrapEv.lean ====
section
/-! DEFINITION. Steps of traps and faults: delivery, the watchdog, the page-fault service and its ring, the killing of
partitions (24 R357, R365, R368 to R370). A step that is not due changes nothing (log 6). -/

namespace Sys2Proof.Machine

/-! ### TRAP_DELIVERY (R353, R357) -/

/-- Outstanding register writes of an executor have completed; an error that waits for the executor's trap to be
dismissed does not hold the trap back (R353). -/
def State.writesSettled (s : State) (w : Who) : Bool :=
  let co := s.core w.core
  !s.calling w && (co.loads.all fun l => l.who != w || l.discard || (l.data.isSome && l.err != 0)) &&
    co.stores.all fun t => t.who != w || t.discard || t.dst.isNone || (t.done && t.err != 0)

/-- Deliver the oldest listed trap: to the handler, or as the death of the context. A fault under service is not
delivered. -/
def execTrapDelivery (core ctx : Nat) (s : State) : Res :=
  .next (
    let x := s.ctx core ctx
    match x.traps.find? fun t => t.fatal && t.service.isNone with
    | some t => s.killCtx core ctx t.cause t.va
    | none =>
      match x.traps with
      | [] => s
      | t :: _ =>
        if x.handler || t.service.isSome || !((s.executors core ctx).all s.writesSettled) then s
        else if s.trapsOn core then s.deliver core ctx
        else s.killCtx core ctx t.cause t.va)

/-! ### WATCHDOG_EXPIRY (R368) -/

/-- The watchdog limit of a partition in ps; 0 disables it. -/
def State.wdLimit (s : State) (p : Nat) : Nat := s.ctlF (offWDOG p) 0 16 * 1000000

def execWatchdogExpiry (core ctx : Nat) (s : State) : Res :=
  .next (
    let x := s.ctx core ctx
    let limit := s.wdLimit (s.partOf core ctx)
    if x.resident && x.traps.isEmpty && x.spilling.isNone && limit != 0 && x.wdStart + limit ≤ s.ps then
      s.asyncTrap { core, ctx } 19 0 0#64 0#64 1
    else s)

/-! ### The page-fault service (R365) -/

/-- Hardware mode: the service firmware walks again for the faulting access. -/
def execPageFaultService (id : Nat) (s : State) : Res :=
  .next (match s.sched.faults.find? fun f => f.id == id with
    | none => s
    | some f =>
      if f.outcome.isSome || f.hostMode then s
      else match s.rewalk f with
        | (some b, s) => (s.forget (.fault id)).modFault id fun x => { x with outcome := some b }
        | (none, s) => s)

def State.dropFault (s : State) (id : Nat) : State :=
  { s with sched := { s.sched with faults := s.sched.faults.filter fun f => f.id != id } }

/-- The trap of a served fault is dropped with act REPLAY; a lead strand whose state its frame holds replays from there. -/
def State.dropServed (s : State) (c k : Nat) (t : Trap) : State :=
  let x := s.ctx c k
  let e : Who := { core := c, ctx := k, tid := t.tid }
  let rest := x.traps.filter fun y => y.service != t.service
  let drop (s : State) : State := s.modCtx c k fun x => ({ x with traps := rest } : Ctx).unstop s.ps
  if t.exk = 1 ∧ x.handler ∧ !t.fatal then
    let va := s.leadFrame c k + 0x2C8#64
    match s.dieTranslate (.context c k) (coreDie c) (s.partOf c k) false .write va with
    | (.ok pa _, s) =>
      (match s.accReady (.context c k) true pa with
       | (true, s) =>
         if s.poisonAt pa ≠ 0 then s.killCtx c k t.cause va
         else drop (((s.forget (.context c k)).homeWrite pa 8 t.regionPc.toNat).modCtx c k fun x => { x with replayed := true })
       | (false, s) => s)
    | (.wait _, s) => s
    | (.fault _ _, s) => s.killCtx c k t.cause va
  else
    drop (if s.present e then s.modStrand e fun y => { y with pc := t.regionPc, reentry := true, run := 0, wait := .none } else s)

/-- The outcome for a thread or a lead strand. -/
def State.servedTrap (s : State) (f : FaultSvc) (ok : Bool) : State :=
  match (s.ctx f.core f.ctx).traps.find? fun t => t.service == some f.id with
  | none => s.dropFault f.id
  | some t =>
    if ok then
      let r := s.dropServed f.core f.ctx t
      if (r.ctx f.core f.ctx).traps.any fun y => y.service == some f.id then r else r.dropFault f.id
    else
      (s.modCtx f.core f.ctx fun x => { x with traps := mapIf (fun y => y.service == some f.id) (fun y => { y with service := none }) x.traps }).dropFault f.id

/-- The operation resumes where it stands, or begins again. -/
def State.resumeOp (s : State) (c : Nat) (o : Op) : State :=
  let s := s.modOp c o.id fun o => { o with state := .running, fault := none, off := if o.kind = .refit then 0 else o.off }
  match o.kind with
  | .copy _ | .gather _ => s.putStatus o 0 0 0#64
  | _ => s

/-- The operation ends as an error ends it. -/
def State.failOp (s : State) (c : Nat) (o : Op) (cause : Nat) (va : DWord) : State :=
  match o.kind with
  | .copy _ | .gather _ => s.abortStatus c o (statusCause cause) va
  | .mxldw => s.ldwFails c o va
  | .ray _ => s.failRay c o va
  | .ovlp => (s.endOvlp c o 3 { skip := 0, room := 0 }).engineError c o va
  | .refit => s.failRefit c o va
  | .draw _ => s.failDraw c o va
  | .mxshape | .mxq | .cbload _ => s.modOp c o.id fun o => { o with fault := none }

/-- The outcome for an engine operation. -/
def State.servedOp (s : State) (f : FaultSvc) (ok : Bool) : State :=
  let s := s.dropFault f.id
  match (s.core f.core).findOp f.op with
  | none => s
  | some o =>
    if o.fault = some f.id then (if ok then s.resumeOp f.core o else s.failOp f.core o f.cause f.va) else s

/-- The outcome of a service is applied. A dispatcher's access has a step of its own (17 R383). -/
def execPageFaultServiceDone (id : Nat) (s : State) : Res :=
  .next (match s.sched.faults.find? fun f => f.id == id with
    | none => s
    | some f => match f.outcome with
      | none => s
      | some ok => if f.exk = 3 then s else if f.exk = 2 then s.servedOp f ok else s.servedTrap f ok)

/-- A ring entry (R365). The manual gives no core, context or EXK for a dispatcher's access (log 33). -/
def FaultSvc.entryBits (f : FaultSvc) (seq : BitVec 32) (open_ : Nat) : Nat :=
  let place := if f.exk = 3 then bitsOf open_ 0 10 + bitsOf open_ 10 3 * 2 ^ 16 + bitsOf open_ 13 2 * 2 ^ 24
    else f.core + f.ctx * 2 ^ 16 + f.exk * 2 ^ 24
  packBytes [(0, 8, f.va.toNat), (8, 8, seq.toNat),
    (16, 8, f.cause + f.sub % 256 * 2 ^ 8 + (if f.write then 2 ^ 16 else 0) + (if f.fetch then 2 ^ 17 else 0) +
      (if f.user then 2 ^ 18 else 0) + place * 2 ^ 32), (24, 8, f.time)]

/-- An entry that is not answered stands for the page of the fault. -/
def State.ringEntryFor (s : State) (f : FaultSvc) : Option (BitVec 32) :=
  s.sched.faults.findSome? fun g =>
    if g.id != f.id && g.part == f.part && g.outcome.isNone && g.va.toNat / 4096 == f.va.toNat / 4096 then g.seq else none

/-- Host-assisted mode: the fault joins an entry of its page, or is appended; CAP = 0 fails it. -/
def execFaultRingAppend (id : Nat) (s : State) : Res :=
  .next (match s.sched.faults.find? fun f => f.id == id with
    | none => s
    | some f =>
      if !f.hostMode || f.outcome.isSome || f.seq.isSome then s
      else
        let off := offPFRING f.part
        let cap := s.ctlF (off + 8) 0 32
        let tail := s.ctlF (off + 16) 0 32
        if cap = 0 then s.modFault id fun x => { x with outcome := some false }
        else match s.ringEntryFor f with
          | some seq => s.modFault id fun x => { x with seq := some seq }
          | none =>
            if cap ≤ (tail + 2 ^ 32 - s.ctlF (off + 24) 0 32) % 2 ^ 32 then s
            else
              let pa := (s.ctl64 off).toNat + 32 * (tail % cap)
              match s.accReady (.fault id) true pa with
              | (false, s) => s
              | (true, s) =>
                let s := s.forget (.fault id)
                let seq := s.sched.pfSeq
                let s := s.homeWrite pa 32 (f.entryBits seq (Config.freeValue s.choice).toNat)
                let s := { s with sched := { s.sched with pfSeq := seq + 1#32 } }
                (s.setCtlF (off + 16) 0 32 (tail + 1)).modFault id fun x => { x with seq := some seq })

/-- A write of PFRESP with RES 0. -/
def execPfrespRetry (seq : BitVec 32) (s : State) : Res := .next (s.pfRetry seq)
/-- A write of PFRESP with RES 1. -/
def execPfrespFail (seq : BitVec 32) (s : State) : Res := .next (s.pfFail seq)

/-! ### Killing partitions (R370) -/

def execPkillGo (mask : BitVec 8) (s : State) : Res := .next (s.writePkill mask)

/-- Nothing of the partition runs and its frames are free: BUSY clears, and the kill is logged. -/
def execPartitionKillDone (p : Nat) (s : State) : Res :=
  .next (if p < 8 && s.ctlF offPKILL (8 + p) 1 == 1 && (s.partCtxs p).isEmpty then
      let s := s.retryFreeing
      if s.sched.freeing.any fun e => e.1 == p then s
      else (s.setCtlF offPKILL (8 + p) 1 0).addLog 3 p false 0 0 0 0 0#64
    else s)

end Sys2Proof.Machine
end

