-- ==== Sys2Proof/Machine/PowerEv.lean ====
section
/-! DEFINITION. Steps of the power manager, the regulators, the display heads and the placement policy (12 R258 to R264;
15 R281 to R288). A step that is not due changes nothing (log 6). -/

namespace Sys2Proof.Machine

/-- The microsecond of TIME. -/
def State.micro (s : State) : Nat := s.ps / 1000000

/-! ### Regulators (R284, R285, R288) -/

/-- Every bucket at its share. -/
def State.fillBuckets (s : State) : Tbl Nat :=
  (List.range 30).foldl (fun t k => tblPut 0 t k (s.share (k / 2))) []

/-- A microsecond boundary: the writes accepted before it take effect, and every bucket is set to its share. -/
def State.refill (s : State) : State :=
  if s.micro ≤ s.power.refilled then s
  else
    let s := (s.power.pend.filter fun p => p.due ≤ s.micro).foldl (fun s p => s.setCtl p.off p.value) s
    { s with power := { s.power with
      pend := s.power.pend.filter (fun p => s.micro < p.due), buckets := s.fillBuckets, refilled := s.micro } }

/-- The start of a quarter: the urgency of the package is taken, and the quarter's bytes begin at 0. -/
def State.startQuarter (s : State) : State :=
  let q := s.time / 250
  if q ≤ s.power.quarterAt then s
  else
    let u := (List.range 4).foldl (fun m h => max m (s.ctlF (offHEADURG h) 30 2)) 0
    { s with power := { s.power with urgency := u, quarter := [], quarterAt := q } }

/-- TOKEN_REFILL. A step of the machine finds it done for the boundaries that TIME has passed (log 9). -/
def execTokenRefill (s : State) : Res := .next s.refill
/-- THROTTLE_QUARTER, likewise. -/
def execThrottleQuarter (s : State) : Res := .next s.startQuarter

def execQosregWrite (n : Nat) (dw : BitVec 1) (v : BitVec 64) (s : State) : Res :=
  .next (if n < 15 then s.writeQos n dw.toNat v else s)

def execHeadurgWrite (h : Nat) (v : BitVec 64) (s : State) : Res := .next (if h < 4 then s.writeHeadurg h v else s)

/-! ### Display heads (R287) -/

/-- Refill requests of a head from a line on, while the homes can answer and its regulator admits them; the lines that come. -/
def State.refillLines (s : State) (n : Nat) : Nat → Nat → Nat × State
  | _, 0 => (0, s)
  | line, k + 1 =>
    if s.homeBusy (64 * line) then (0, s.recallLine (lineOf (s.forward (64 * line))))
    else match s.regulate .other n (64 * line) with
      | (true, s) => match s.refillLines n (line + 1) k with | (m, s) => (m + 1, s)
      | (false, s) => (0, s)

/-- SCAN_OUT_LINE: the head drains bytes of a line and asks for refill; a line of no bytes ends its scan. The manual
gives no frame's place, so where its lines stand is open (log 38). -/
def execScanOutLine (head bytes refill : Nat) (s : State) : Res :=
  .next (if 4 ≤ head then s
    else
      let line := (Config.freeValue s.choice).toNat % (32768 * regionCount)
      let fill := s.ctlF (offHEADURG head) 32 17
      let left := fill - bytes
      let (n, s) := s.refillLines (10 + head) line (min (refill / 64) ((65536 - left) / 64))
      let s := { s with power := { s.power with scanning := putBit s.power.scanning head (bytes != 0) } }
      (s.setCtlF (offHEADURG head) 32 17 (left + 64 * n)).updateUrgency head)

/-! ### The placement policy (R281) -/

def execPlcmapWrite (i : Nat) (v : BitVec 64) (s : State) : Res := .next (if i < 6 then s.writePlcmap i v else s)

/-- An exclusive host copy of a line of a range is outstanding. -/
def State.exclIn (s : State) (base len : Nat) : Bool :=
  s.homes.hostDir.any fun e => inRange base len e.1 && e.2.excl.isSome

/-- Zero is written to every line of a range of whole regions, under the key numbers given: all copies of them go, and the lines
that the slices hold (15 R281, 25 R375). -/
def State.zeroRange (s : State) (base len : Nat) (key : Nat → Nat) : State :=
  let s := s.dropLine fun l => !inRange base len l
  let regions := (List.range (len / 2097152)).map fun k => base / 2097152 + k
  { s with
    mem := s.mem.filter fun e => !(base ≤ e.1 && e.1 < base + len)
    homes := { s.homes with
      sc := (s.homes.sc.map fun e => (e.1, e.2.filter fun x => !inRange base len x.line)).filter fun e => !e.2.isEmpty
      lineKeys := s.homes.lineKeys.filter fun e => !inRange base len e.1
      regionKeys := if s.keyed then regions.foldl (fun t r => tblPut 0 t r (key r)) s.homes.regionKeys
        else s.homes.regionKeys } }

/-- PLCMAP_SCRUB_DONE: both granules of the pair hold zero, once no host copy is exclusive. -/
def execPlcmapScrubDone (pair : Nat) (s : State) : Res :=
  .next (if !s.homes.scrub.contains pair then s
    else
      let base := 2147483648 * pair
      let s := s.recallRange base 2147483648
      if s.exclIn base 2147483648 then s
      else
        let s := s.zeroRange base 2147483648 fun r => s.keyNo (s.keyOwner r)
        let rest := s.homes.scrub.filter (· != pair)
        ({ s with homes := { s.homes with scrub := rest } }).setCtlF offQOSCTL 1 1 (if rest.isEmpty then 0 else 1))

/-! ### Power lending (R259, R260, R262, R264) -/

def execClprofWrite (n : Nat) (v : BitVec 64) (s : State) : Res := .next (if n < 40 then s.writeClprof n v else s)
def execLendingTableWrite (n : Nat) (dw : BitVec 1) (v : BitVec 64) (s : State) : Res :=
  .next (if n < 40 then s.writeLend n dw.toNat v else s)

/-- A cluster whose cores' clocks have stood still through the interval; one that woke is served first (R264). -/
def State.idleCluster (s : State) (n : Nat) : Bool :=
  !s.recalling n && tblGet 0#1 s.power.lendBusy n == 0#1 && s.cores.all fun e => clusterOf e.1 != n || !e.2.clockOn
/-- Some core of the cluster stalled during the interval. -/
def State.stalledCluster (s : State) (n : Nat) : Bool :=
  s.cores.any fun e => clusterOf e.1 == n && e.2.stall != tblGet 0#64 s.power.lendMark e.1

/-- The table that LendStep writes. -/
def State.lendTable (s : State) : State :=
  let lenders := (List.range 40).filter s.idleCluster
  let borrowers := (List.range 40).filter fun n => !s.idleCluster n && s.stalledCluster n
  let mask := borrowers.foldl (fun m n => m + 2 ^ n) 0
  let k := borrowers.length
  (List.range 40).foldl (fun s n =>
    if lenders.contains n && k != 0 then
      (s.setCtl (offLend n) (BitVec.ofNat 64 (2 ^ 63 + mask))).setCtl (offLend n + 8)
        (BitVec.ofNat 64 ((s.pbase n - 128) / k % 4096 + (s.abase n - 16) / k % 256 * 2 ^ 16))
    else s.setCtlF (offLend n) 63 1 0) s

/-- A lending boundary has passed since the last one that was taken. A LINT of 1001 to 1023, outside the range that the manual
states, is taken as it is written (DESIGN CHOICE, log 94). -/
def State.lendDue (s : State) : Bool :=
  let lint := max 1 (s.ctlF offPMCTL 0 10)
  s.power.lentAt < s.micro / lint * lint

/-- LEND_STEP: in hardware mode the table is rewritten; a new interval begins. -/
def execLendStep (s : State) : Res :=
  .next (if !s.lendDue then s
    else
      let s := if bitOf s.mode.toNat 18 then s else s.lendTable.regrant
      let marks := s.cores.foldl (fun t e => tblPut 0#64 t e.1 e.2.stall) []
      let busy := s.cores.foldl (fun t e => if e.2.clockOn then tblPut 0#1 t (clusterOf e.1) 1#1 else t) []
      { s with power := { s.power with lentAt := s.micro, lendMark := marks, lendBusy := busy } })

/-- LENDER_WAKE: the woken lender's V is cleared, and the borrowers' grants fall. -/
def execLenderWake (cluster : Nat) (s : State) : Res :=
  .next (if s.recalling cluster && s.lendValid cluster then s.clearLoan cluster else s)

/-- LEND_RECALL_DONE: every borrower runs without the loan, and the lender's grants return to its bases. -/
def execLendRecallDone (cluster : Nat) (s : State) : Res :=
  .next (if s.recalling cluster && !s.lendValid cluster then s.endRecall cluster else s)

/-! ### Other registers -/

/-- REGISTER_WRITE: a 64-bit write of a register by an agent that the control space admits (25 R371). It waits for the memory
that the register's write reads. -/
def execRegisterWrite (off : Nat) (v : BitVec 64) (s : State) : Res :=
  .next (match s.regReady .other off v with
    | (true, s) => s.regWrite off v
    | (false, s) => s)

/-- HLQ_TAIL_WRITE (17 R293). -/
def execHlqTailWrite (p : Nat) (v : BitVec 64) (s : State) : Res := .next (if p < 8 then s.writeHlq p 3 v else s)

end Sys2Proof.Machine
end

