-- ==== Sys2Proof/Machine/Agenda.lean ====
section
/-! DEFINITION. What one step of the whole device takes up, and the placing of one instruction where the next step fetches
(log 5, 6, 8). -/

namespace Sys2Proof.Machine

/-- A step of the device's own agents or of the outside world; the rest are words of a slot. -/
def Instr.isStep (i : Instr) : Bool :=
  match i with
  | .taskYield .. | .coreCycle .. | .gbarBatchAdmit .. | .loadReturn .. | .homeWrite .. | .homeRead ..
  | .invalidationAck .. | .castArrive .. | .invalidationArrive .. | .castInstalledReply .. | .castRefusedReply ..
  | .evictionReport .. | .stcCompletion .. | .gaugeRateWindow .. | .copyPieceLand .. | .copySuspend ..
  | .gatherFetchIssue .. | .gatherElementReturn .. | .mxshapeExecute .. | .mxldwComplete .. | .tileTaskStart ..
  | .tileTaskComplete .. | .cbloadComplete .. | .rayQueryComplete .. | .ovlpQueryComplete .. | .refitNode ..
  | .drawQuadPush .. | .drawComplete .. | .dispatchStep .. | .launchAccept .. | .readyListAgeing .. | .spill ..
  | .spillComplete .. | .launchComplete .. | .dispatcherAccessFault .. | .trapDelivery .. | .watchdogExpiry ..
  | .pageFaultService .. | .pageFaultServiceDone .. | .faultRingAppend .. | .pfrespRetry .. | .pfrespFail ..
  | .pkillGo .. | .partitionKillDone .. | .tokenRefill .. | .throttleQuarter .. | .qosregWrite .. | .headurgWrite ..
  | .plcmapWrite .. | .plcmapScrubDone .. | .clprofWrite .. | .lendingTableWrite .. | .lendStep ..
  | .arrayEnergyPeriod .. | .lenderWake .. | .lendRecallDone .. | .hlqTailWrite .. | .owncmdGo ..
  | .transferComplete .. | .hostRequest .. | .hostRecallReply .. | .ownerLostTimeout .. | .reclaimGo ..
  | .migStart .. | .migCopyDone .. | .migSwitch .. | .migRelease .. | .pctlEnWrite .. | .keynew .. | .keynewDone ..
  | .prootWrite .. | .modeWrite .. | .savebaseWrite .. | .fwctlSwitchRequest .. | .fwSwitchComplete ..
  | .svcStorageWrite .. | .svcStorageRead .. | .svcFlush .. | .svcAttestationReport .. | .svcrespWrite ..
  | .mextgoWrite .. | .coldReset .. | .powerFail .. | .ucieModuleTrainFail .. | .registerWrite .. | .scanOutLine ..
  | .reclaimDone .. | .firmwareSlotLoad .. | .tlbInvalidationDone .. => true
  | _ => false

/-- What still happens while the package stays in reset (25 R379). -/
def Instr.outlastsReset (i : Instr) : Bool :=
  match i with
  | .coldReset | .powerFail | .firmwareSlotLoad .. => true
  | _ => false

/-- The step may be taken now: a word runs only within the issue of its bundle. -/
def State.mayTakeUp (s : State) (i : Instr) : Bool :=
  if s.svc.inReset then Instr.outlastsReset i else Instr.isStep i || s.cur.isSome

/-- The start of the next cycle of any core that runs, the earliest. -/
def State.firstCycle (s : State) : Option Nat :=
  s.cores.foldl (fun m e => if e.2.clockOn then (match m with | none => some e.2.next | some n => some (min n e.2.next)) else m) none

/-- TIME after a free delay: it never passes the start of a core's next cycle. -/
def State.freePs (s : State) : Nat :=
  let after := s.ps + Config.freeDelay s.choice
  match s.firstCycle with
  | none => after
  | some n => min after (max s.ps n)

/-- TIME has come to a moment: what its boundaries do, and recalls of loans that have lasted their time (12 R264, R267; 15
R284, R285, R288; 17 R294). -/
def State.elapse (s : State) (ps : Nat) : State :=
  (((({ s with ps }).endRecalls.startQuarter).refill).ageLists 0).ageLists 1

/-- The moment of a step that TIME has come to: a cycle's is no sooner than its core's next. -/
def State.momentOf (s : State) (i : Instr) (ps : Nat) : Nat :=
  match i with
  | .coreCycle c => if cycleDue c s then max ps (s.core c).next else ps
  | _ => ps

/-- The step that is taken up next, and the state in which it is: the first of the agenda, or one of the free schedule. -/
def State.takeUp (s : State) : Instr × State :=
  match s.agenda with
  | (d, i) :: rest => (i, ({ s with agenda := rest, choice := s.choice + 1 }).elapse (s.momentOf i (s.ps + d)))
  | [] =>
    let i := Config.freeEvent s.choice
    (i, ({ s with choice := s.choice + 1 }).elapse (s.momentOf i s.freePs))

/-! ### Placing one instruction -/

/-- The page that holds it: physical address 0x1000, mapped at the same virtual address in partition 0, executable,
writable, for users and others. -/
def placePage : Nat := 0x1000
def placeEntry : TlbEntry := { part := 0, shift := 12, vpn := 1, leaf := 0x11DF#64 }

/-- The launch it runs in: one core, one context, privileged, with the matrix engine, 32 threads of 128 registers and
1 MiB of scratchpad. -/
def placeBits : Nat :=
  packBytes [(0, 8, 0x2000), (32, 8, 64), (64, 8, 2 ^ 16 + 2 ^ 24 + 2 ^ 45 + 2 ^ 46), (72, 8, 32 + 3 * 2 ^ 11 + 0x100000 * 2 ^ 16)]

def placeLaunch : Launch := { bits := placeBits, serial := 0, die := 0, ox := 0, oy := 0, startLeft := 1 }

/-- The context: the lead strand stands at the word, or thread 0 does and the lead strand stands still. -/
def placeCtx (lead : Bool) : Ctx :=
  let at_ : Strand := { pc := BitVec.ofNat 64 placePage, regionPc := BitVec.ofNat 64 placePage }
  { str := if lead then at_ else { at_ with hold := 2 ^ 60 }
    task := some { slot := 0, lctx := 0, record := 0x2000#64, level := 0, deadline := 0#48, stamp := 0 }
    threads := if lead then [] else [(0, some { str := at_ })]
    masks := if lead then [] else (List.range 8).map fun j => (j, 1#32) }

/-- Core 0 with nothing but that context; its next cycle is due. -/
def placeCore (lead : Bool) (now : Nat) : Core :=
  { clockOn := true, next := now, itlb := [placeEntry], dtlb := [placeEntry], resv := [{ slot := 0 }]
    mx := { holder := some 0, lastSerial := some 0 }, ctxs := [(0, placeCtx lead)] }

/-- The word with its stop bit, which the table leaves open for the word of a slot. -/
def placeWord (w : Nat) : Word := BitVec.ofNat 32 w ||| 0x80000000#32

/-- A lead strand may issue the word. -/
def placeLead (w : Nat) : Bool :=
  match decodeBundle .lead [placeWord w] with
  | .error _ => false
  | .ok b => match b.check .lead 64 with
    | .error _ => false
    | .ok _ => true

/-- The instruction stands where core 0's next cycle fetches, in a region that the device owns, in place of all that core 0
ran; that cycle is the next step. -/
def placeFetch (s : State) (nbits w : Nat) : State :=
  { s with
    mem := writeBytes s.mem placePage ((nbits + 7) / 8) (placeWord w).toNat
    homes := { s.homes with regions := tblPut .host s.homes.regions (regionOf placePage) .acc }
    launches := tblPut none s.launches 0 (some placeLaunch)
    cores := tblPut {} (s.cores.map fun e => (e.1, { e.2 with next := max e.2.next s.ps })) 0 (placeCore (placeLead w) s.ps)
    agenda := [(0, .coreCycle 0)] }

end Sys2Proof.Machine
end

