-- ==== Sys2Proof/Machine/HostEv.lean ====
section
/-! DEFINITION. Steps of the host side: ownership transfers, host requests and recalls, lost owners, reclaims, page migration
(22 R339 to R349). A step that is not due changes nothing (log 6). -/

namespace Sys2Proof.Machine

/-! ### Ownership transfers (R341 to R343) -/

def execOwncmdGo (v : BitVec 64) (s : State) : Res := .next (s.writeOwncmd (v ||| 1#64))

/-- A store of the region that a transfer does not wait for: it stands behind a release that is not due, or a migration
holds it. -/
def State.storeStuck (s : State) (c : Nat) (t : Store) : Bool :=
  s.homes.held.contains (c, t.id) ||
    (s.core c).stores.any fun u => u.id ≤ t.id && lineOf u.pa == lineOf t.pa && u.release && !u.done && !s.releaseDue c u

/-- The stores to the region that stood in the cores' write paths when the transfer began have performed. -/
def State.regionDrained (s : State) (r : Nat) : Bool :=
  let mark := (tblGet (0, 0) s.homes.moving r).1
  s.cores.all fun e => e.2.stores.all fun t =>
    t.done || regionOf (s.forward t.pa) != r || mark ≤ t.id || s.storeStuck e.1 t

/-- Every core drops its lines of the region and reports the pushed ones; casts in flight are invalidated once they are
there. -/
def State.dropRegion (s : State) (r : Nat) : State :=
  let s := s.landCasts fun l => l / 32768 == r
  let pushed := s.cores.flatMap fun e => (e.2.l1.filter fun x => x.pushed && x.line / 32768 == r).map fun x => (e.1, x.line)
  let cores := s.cores.map fun e => (e.1, { e.2 with
    l1 := e.2.l1.filter fun x => x.line / 32768 != r
    loads := mapIf (fun l => regionOf l.pa == r) (fun l => { l with fill := false }) e.2.loads })
  let s : State := { s with cores := cores.filter fun (e : Nat × Core) => !(e.2 == ({} : Core)) }
  pushed.foldl (fun s e => s.send e.1 e.2 .evicted) s

/-- An OWN that waits for the region to come to this owner need wait no more (09 R238). -/
def Strand.ownEnds (r : Nat) (x : Region) (t : Strand) : Strand := if t.wait = .own r (x == .host) then { t with wait := .ownDone } else t
def Ctx.ownEnds (r : Nat) (x : Region) (c : Ctx) : Ctx :=
  { c with
    str := c.str.ownEnds r x
    threads := c.threads.map fun t => (t.1, t.2.map fun (h : Thread) => { h with str := h.str.ownEnds r x }) }
def State.ownEnds (s : State) (r : Nat) (x : Region) : State :=
  { s with cores := s.cores.map fun e => (e.1, { e.2 with ctxs := e.2.ctxs.map fun k => (k.1, k.2.ownEnds r x) }) }

/-- The region has its new owner, whose waiting access goes before the next transfer; what a migration held there goes on. -/
def State.endTransfer (s : State) (r : Nat) (x : Region) : State :=
  let s := (s.ownEnds r x).setRegion r x
  let s := { s with homes := { s.homes with
    owed := s.homes.owed.filter (· != r) ++ [r], moving := tblPut (0, 0) s.homes.moving r (0, 0) } }
  s.ownStep.performHeld

def execTransferComplete (region : Nat) (s : State) : Res :=
  .next (match s.region region with
    | .toAcc =>
      if s.homes.hostDir.any fun e => e.1 / 32768 == region && e.2.excl.isSome then s else s.endTransfer region .acc
    | .toHost => if s.regionDrained region then (s.dropRegion region).endTransfer region .host else s
    | _ => s.ownStep)

/-! ### Host agents (R338, R339, R374) -/

/-- Host complexes may reach the line: its region is partition 0's, or in a range with HOST = 1. -/
def State.hostMay (s : State) (line : Nat) : Bool :=
  let r := line / 32768
  r < regionCount && ([1, 2, 3, 4, 5, 6, 7] : List Nat).all fun p =>
    !s.partOn p || (List.range 8).all fun k =>
      let x := (s.ctl64 (offPart p + 0x40 + 8 * k)).toNat
      !(bitOf x 63 && bitsOf x 21 19 ≤ r && r < bitsOf x 21 19 + bitsOf x 42 19) || bitOf x 62

def State.hostQueue (s : State) (agent line : Nat) : State :=
  if s.homes.hostWaits.contains (agent, line) then s
  else { s with homes := { s.homes with hostWaits := s.homes.hostWaits ++ [(agent, line)] } }
def State.hostLeave (s : State) (agent line : Nat) : State :=
  { s with homes := { s.homes with hostWaits := s.homes.hostWaits.filter (· != (agent, line)) } }

/-- The line at its home takes a host's data. -/
def State.takeHostData (s : State) (line : Nat) (data : Line) : State :=
  if tblGet 0 s.homes.poison line = 0 then
    (let s := s.rekey line
     { s with mem := writeBytes s.mem (64 * line) 64 data.toNat })
  else s

/-- A request in an H region is served, once no other agent holds the line exclusive and its regulator admits it. -/
def State.hostServe (s : State) (agent line : Nat) (r : HostReq) : State :=
  let h := s.hdir line
  if h.excl.isSome && h.excl != some agent then (s.recallLine line).hostQueue agent line
  else match s.regulate (.host agent line) (hostRegulator agent) (64 * line) with
    | (false, s) => s.hostQueue agent line
    | (true, s) =>
      let bit : BitVec 2 := BitVec.twoPow 2 agent
      let s := (s.hostLeave agent line).ownerServed (line / 32768)
      match r with
      | .read => if h.excl.isSome then s else s.setHdir line { h with shared := h.shared ||| bit }
      | .own => s.setHdir line { excl := some agent, shared := 0#2, recallAt := none }
      | .write data => s.hostWrite line data
      | .evict _ => s

/-- A request of a PCIe port, agent 2 or 3: it reads or writes at the home, where host copies are snooped, and causes no
transfer (R338). It is its host complex's (25 R381). -/
def State.portServe (s : State) (agent line : Nat) (r : HostReq) : State :=
  if s.homeBusy (64 * line) then (s.recallLine line).hostQueue agent line
  else match s.regulate (.host agent line) (hostRegulator agent) (64 * line) with
    | (false, s) => s.hostQueue agent line
    | (true, s) => match r with
      | .write data => (s.hostLeave agent line).hostWrite line data
      | _ => s.hostLeave agent line

/-- A write of a host to a page that migrates is held at its home with its data, once its regulator admits it (R346). -/
def State.holdHost (s : State) (agent line : Nat) (data : Line) : State :=
  match s.regulate (.host agent line) (hostRegulator agent) (64 * line) with
  | (false, s) => s.hostQueue agent line
  | (true, s) =>
    let (n, s) := (s.hostLeave agent line).next
    { s with homes := { s.homes with
      held := s.homes.held ++ [(640 + agent, n)], hostHeld := s.homes.hostHeld ++ [(n, line, data)] } }

/-- A write of the agent to the line is held still: what it asks of the line comes after it (R346). -/
def State.hostHolds (s : State) (agent line : Nat) : Bool :=
  s.homes.hostHeld.any fun e => s.homes.held.contains (640 + agent, e.1) && s.homeOf (64 * e.2.1) == line

/-- A transfer of the region to the device began in this mesh cycle: a host's request goes first (R342). -/
def State.justMoved (s : State) (r : Nat) : Bool :=
  s.region r == .toAcc && (tblGet (0, 0) s.homes.moving r).2 / 500 == s.ps / 500

/-- An agent gives its copy up, with the data of one held exclusive. -/
def State.hostEvict (s : State) (agent line : Nat) (data : Line) : State :=
  let h := s.hdir line
  if h.excl = some agent then (s.setHdir line {}).takeHostData line data
  else s.setHdir line { h with shared := putBit h.shared agent false }

/-- A host's request that comes in the mesh cycle in which its region began to move goes first (R342): where it must itself
wait, the region does not move before it. -/
def State.takeFirst (s : State) (agent line region : Nat) (r : HostReq) : State :=
  let s := s.hostServe agent line r
  if s.homes.hostWaits.contains (agent, line) then
    let s := s.setRegion region .host
    { s with homes := { s.homes with
      owed := s.homes.owed.filter (· != region) ++ [region], moving := tblPut (0, 0) s.homes.moving region (0, 0) } }
  else { s with homes := { s.homes with hostDir := recallRegion s.ps region s.homes.hostDir } }

/-- A request at its home: it is refused, waits, or is served. -/
def State.takeRequest (s : State) (agent line region : Nat) (r : HostReq) : State :=
  if !s.hostMay line || tblGet 0 s.homes.poison line ≠ 0 then s.hostLeave agent line
  else if s.scrubbing (64 * line) || (s.migLocked (64 * line) && r == .own) || s.hostHolds agent line then s.hostQueue agent line
  else if 2 ≤ agent then s.portServe agent line r
  else if s.justMoved region then s.takeFirst agent line region r
  else match s.region region with
    | .host => s.hostServe agent line r
    | _ => (s.hostQueue agent line).wantHost region

/-- HOST_REQUEST of host complex 0 or 1, or of PCIe port 0 or 1 as agent 2 or 3: an error answers at once; a region of the
device is first transferred to a host complex. -/
def execHostRequest (agent line : Nat) (r : HostReq) (s : State) : Res :=
  .next (
    let at_ := line
    let line := lineOf (s.forward (64 * line))
    let region := line / 32768
    match r with
    | .evict data => if agent < 2 then s.hostEvict agent line data else s
    | .own => if 2 ≤ agent then s else s.takeRequest agent line region r
    | .read => if 4 ≤ agent then s else s.takeRequest agent line region r
    | .write data =>
      if 4 ≤ agent then s
      else if s.hostMay line && s.migLocked (64 * line) && tblGet 0 s.homes.poison line = 0 then s.holdHost agent at_ data
      else s.takeRequest agent line region r)

/-! ### Lost owners (R347 to R349) -/

/-- A LOSTREC entry, or one more that was not logged. -/
def State.logLost (s : State) (agent line : Nat) : State :=
  match (List.range 16).find? fun n => s.ctlF (offLOSTREC n) 63 1 == 0 with
  | none => s.setCtlF offCOHCTL 32 32 (s.ctlF offCOHCTL 32 32 + 1)
  | some n =>
    (s.setCtl (offLOSTREC n) (BitVec.ofNat 64 (2 ^ 63 + agent * 2 ^ 40 + line * 64))).setCtl (offLOSTREC n + 8)
      (BitVec.ofNat 64 s.time)

/-- The recall of a line has gone unanswered for 20 µs: its owner is lost. -/
def State.ownerLost (s : State) (line agent : Nat) : State :=
  let s := s.setHdir line { s.hdir line with excl := none, recallAt := none }
  let s := { s with homes := { s.homes with
    poison := tblPut 0 s.homes.poison line 2, hostWaits := s.homes.hostWaits.filter fun w => w.2 != line } }
  (s.logLost agent line).performHeld

def execOwnerLostTimeout (line : Nat) (s : State) : Res :=
  .next (match (s.hdir line).excl, (s.hdir line).recallAt with
    | some agent, some t0 => if s.ps < t0 + 20000000 then s else s.ownerLost line agent
    | _, _ => s)

/-- HOST_RECALL_REPLY: the data reach the home; a line of an H region stays shared with its holder. A reply later than the
20 µs finds the owner lost (R347). -/
def execHostRecallReply (agent line : Nat) (data : Line) (s : State) : Res :=
  .next (
    let h := s.hdir line
    if h.excl = some agent && h.recallAt.isSome then
      if h.recallAt.any fun t0 => t0 + 20000000 ≤ s.ps then s.ownerLost line agent
      else
      let stays := s.region (line / 32768) == .host && !s.migLocked (64 * line) && !s.scrubbing (64 * line)
      ((s.setHdir line { shared := if stays then BitVec.twoPow 2 agent else 0#2 }).takeHostData line data).performHeld
    else s)

def execReclaimGo (v : BitVec 64) (s : State) : Res := .next (s.writeReclaim (v ||| 1#64))

/-- RCLDATA. -/
def State.reclaimData (s : State) : Nat := packBytes ((List.range 8).map fun i => (8 * i, 8, (s.ctl64 (offRCLDATA + 8 * i)).toNat))

/-- RECLAIM_DONE: the line's data are written or kept, its poison ends, DONE is set. It waits for a scrub of the line
(15 R281, 25 R375). -/
def execReclaimDone (s : State) : Res :=
  .next (match s.reclaiming with
    | none => s
    | some line =>
      if s.scrubbing (64 * line) then s
      else
      let s := if s.ctlF offRECLAIM 40 1 = 1 then
          (let s := ((s.purgeLine line).setHdir line {}).rekey line
           { s with mem := writeBytes s.mem (64 * line) 64 s.reclaimData })
        else s
      ({ s with homes := { s.homes with poison := tblPut 0 s.homes.poison line 0, reclaim := none } }).setCtlF offRECLAIM 63 1 1)

/-! ### Page migration (R346) -/

def execMigStart (k : Nat) (s : State) : Res := .next (if k < 4 then s.migCommand k 1 else s)

/-- The lines of a page at another place, each under the key it has there. -/
def State.copyLines (s : State) (src dst len : Nat) : State :=
  (List.range (len / 64)).foldl (fun s k =>
    let data := s.homeLine (src / 64 + k)
    let s := s.rekey (dst / 64 + k)
    { s with mem := writeBytes s.mem (dst + 64 * k) 64 data.toNat }) s

/-- The bytes of a page, and the poison of its lines, at another place. -/
def State.copyPage (s : State) (src dst len : Nat) : State :=
  let mem := (s.mem.filter fun e => src ≤ e.1 && e.1 < src + len).foldl (fun m e => setByte m (dst + (e.1 - src)) e.2)
    (s.mem.filter fun e => !(dst ≤ e.1 && e.1 < dst + len))
  let poison := (s.homes.poison.filter fun e => inRange src len e.1).foldl
    (fun t e => tblPut 0 t (dst / 64 + (e.1 - src / 64)) e.2) (s.homes.poison.filter fun e => !inRange dst len e.1)
  if s.keyed then
    (let s := s.copyLines src dst len
     { s with homes := { s.homes with poison } })
  else { s with mem, homes := { s.homes with poison } }

/-- MIG_COPY_DONE: every host copy has been recalled, and the lines have been copied. It waits for a scrub of either place
(15 R281, 25 R375). -/
def execMigCopyDone (k : Nat) (s : State) : Res :=
  .next (if 4 ≤ k || s.migState k != 1 then s
    else
      let src := s.migSrc k
      let dst := s.migDst k
      let len := s.migLen k
      let s := s.recallRange dst len
      if s.exclIn src len || s.exclIn dst len || s.scrubbing src || s.scrubbing dst then s
      else ((s.dropLine fun l => !inRange dst len l).copyPage src dst len).setMigState k 2)

def execMigSwitch (k : Nat) (s : State) : Res := .next (if k < 4 then s.migCommand k 2 else s)
def execMigRelease (k : Nat) (s : State) : Res := .next (if k < 4 then s.migCommand k 3 else s)

end Sys2Proof.Machine
end

