-- ==== Sys2Proof/Machine/ServiceEv.lean ====
section
/-! DEFINITION. Steps of partitions, keys, service firmware, boot and links, and the completion of a TLBINV (09 R239; 17 R304;
24 R364; 25 R372 to R381). A step that is not due changes nothing (log 6). -/

namespace Sys2Proof.Machine

/-! ### Partitions and keys (R372, R373, R375) -/

def execPctlEnWrite (p : Nat) (v : BitVec 64) (s : State) : Res := .next (if p < 8 then s.writePctl p v else s)
def execKeynew (p : Nat) (s : State) : Res := .next (if p < 8 then s.writePctl p 2#64 else s)

/-- The valid ranges of a partition: base and length in bytes. -/
def State.pmemRanges (s : State) (p : Nat) : List (Nat × Nat) :=
  (List.range 8).filterMap fun k =>
    let r := (s.ctl64 (offPart p + 0x40 + 8 * k)).toNat
    if bitOf r 63 then some (bitsOf r 21 19 * 2097152, bitsOf r 42 19 * 2097152) else none

/-- KEYNEW_DONE: every line of the ranges holds zero, under the key that it is read with, and the keys are valid, once no host
copy there is exclusive. -/
def execKeynewDone (p : Nat) (s : State) : Res :=
  .next (if 8 ≤ p || !s.homes.keyScrub.contains p then s
    else
      let ranges := s.pmemRanges p
      let s := ranges.foldl (fun s r => s.recallRange r.1 r.2) s
      if ranges.any fun r => s.exclIn r.1 r.2 then s
      else
        let s := { s with homes := { s.homes with
          keyScrub := s.homes.keyScrub.filter (· != p), keys := tblPut 0 s.homes.keys p (tblGet 0 s.homes.keys p + 1) } }
        let s := ranges.foldl (fun s r => s.zeroRange r.1 r.2 fun g => s.keyNo (s.keyOwner g)) s
        (s.setCtlF (offPart p) 3 1 0).setCtlF (offPart p) 2 1 1)

def execProotWrite (v : BitVec 64) (s : State) : Res := .next (s.writePart 0 8 v)

/-! ### MODE, SAVEBASE, FWCTL (24 R364; 17 R304; R377) -/

/-- MODE_WRITE: a value that a CSRW left takes effect on every core and dispatcher. -/
def execModeWrite (s : State) : Res :=
  .next (match s.modeNext with
    | none => s
    | some v => { s with mode := v, modeNext := none })

/-- A CSRW of SAVEBASE by service firmware. -/
def execSavebaseWrite (v : BitVec 64) (s : State) : Res := .next (s.writeSavebase .other v).2
/-- A CSRW of FWCTL by service firmware. -/
def execFwctlSwitchRequest (v : BitVec 64) (s : State) : Res := .next (s.writeFwctl v)

/-- How many records a ring's HEAD stands before a batch's; more than the ring holds where it stands past it. -/
def State.headTo (s : State) (b : Batch) : Nat := (b.index + 2 ^ 32 - s.ctlF (offSvc b.die + 24) 0 32) % 2 ^ 32
/-- The ring's HEAD stands past a batch. -/
def State.passed (s : State) (b : Batch) : Bool :=
  (s.ctlF (offSvc b.die + 16) 0 32 + 2 ^ 32 - s.ctlF (offSvc b.die + 24) 0 32) % 2 ^ 32 ≤ s.headTo b
/-- The firmware has dequeued a batch: it has answered a call of it, or its ring's HEAD stands past it (R377). -/
def State.dequeued (s : State) (b : Batch) : Bool := s.passed b || !b.replied.isEmpty

/-- FW_SWITCH_COMPLETE: no batch that either die's firmware has dequeued is unfinished. -/
def execFwSwitchComplete (s : State) : Res :=
  .next (if s.svc.req && s.svc.batches.all fun b => b.host || !s.dequeued b then
      { s with svc := { s.svc with act := s.svc.tgt, req := false } }
    else s)

/-! ### Firmware images, measured boot (R377, R379) -/

/-- An image that the ROM accepts. -/
def imageOk (i : FwImage) : Bool :=
  i.keyHash == Config.fusedKey && Config.pssVerifies i && Config.minVersion.toNat ≤ i.version.toNat

/-- FIRMWARE_SLOT_LOAD: host software loads a slot, and its OK bit says whether the image verifies. -/
def execFirmwareSlotLoad (slot : Nat) (image : FwImage) (s : State) : Res :=
  .next (if slot = 0 then { s with svc := { s.svc with fw0 := some image, ok := putBit s.svc.ok 0 (imageOk image) } }
    else if slot = 1 then { s with svc := { s.svc with fw1 := some image, ok := putBit s.svc.ok 1 (imageOk image) } }
    else s)

/-- What a slot holds at the release of cold reset (log 13). -/
def State.slotImage (s : State) (slot : Nat) : Option FwImage :=
  if slot = 0 then s.svc.fw0.orElse fun _ => Config.bootImage 0 else s.svc.fw1.orElse fun _ => Config.bootImage 1

/-- A die boots: MEAS0 and MEAS1 are extended, its service context starts. -/
def State.bootDie (s : State) (die : Nat) (image : FwImage) : State :=
  let s := (s.extendMeas die 0 image.digest.toNat).extendMeas die 1 (Config.bootDigest die).toNat
  let entry := Config.serviceEntry die
  (s.setCtx (320 * die) 7 { str := { pc := entry, regionPc := entry }, service := true, wdStart := s.ps }).startClock (320 * die)

/-- Die 0's firmware writes PLCMAP and partition 0's root, and generates partition 0's keys. -/
def State.bootPackage (s : State) : State :=
  let s := (List.range 6).foldl (fun s i => s.setCtl (offPLCMAP i) (Config.bootPlcmap i)) s
  let s := s.setCtl (offPart 0 + 8) (masked Config.bootRoot 0xFFFFFFF000#64)
  ({ s with homes := { s.homes with keys := tblPut 0 s.homes.keys 0 1 } }).setCtlF (offPart 0) 2 1 1

/-- COLD_RESET: everything is at its reset value but what outlasts a reset; then both dies boot the lower-numbered slot
that both accept, or stay in reset. The ROM verifies slot 1 only where it does not accept slot 0. -/
def execColdReset (s : State) : Res :=
  let i0 := s.slotImage 0
  let i1 := s.slotImage 1
  let good (i : Option FwImage) : Bool := match i with | some x => imageOk x | none => false
  let base : State := { State.reset with
    choice := s.choice, fresh := s.fresh, agenda := s.agenda
    svc := { storage := s.svc.storage, fw0 := i0, fw1 := i1 } }
  .next (
    match (if good i0 then i0 else if good i1 then i1 else none) with
    | none => { base with svc := { base.svc with inReset := true } }
    | some image =>
      let act : BitVec 1 := if good i0 then 0#1 else 1#1
      let s := { base with svc := { base.svc with act, ok := BitVec.twoPow 2 act.toNat } }
      (s.bootPackage.bootDie 0 image).bootDie 1 image)

/-- POWER_FAIL: all but the firmware slots is lost, and each storage write that no durable flush covers. -/
def execPowerFail (s : State) : Res :=
  .next { State.reset with
    choice := s.choice, fresh := s.fresh, agenda := s.agenda
    svc := { storage := s.svc.storage.filter (·.durable), fw0 := s.svc.fw0, fw1 := s.svc.fw1, inReset := true } }

/-- MEXTGO_WRITE: host software extends one of MEAS2 to MEAS7 of a die. -/
def execMextgoWrite (die : Nat) (v : BitVec 64) (s : State) : Res := .next (if die < 2 then s.writeMextgo die v else s)

/-- UCIE_MODULE_TRAIN_FAIL: row y's traffic goes to module y xor 1; no result changes (R381). -/
def execUcieModuleTrainFail (y : Nat) (s : State) : Res :=
  .next (if y < 16 then { s with svc := { s.svc with ucie := putBit s.svc.ucie y true } } else s)

/-! ### Service calls (R376, R378, R380) -/

def execSvcrespWrite (die : Nat) (v : BitVec 64) (s : State) : Res :=
  .next (if 2 ≤ die then s
    else match s.regReady .other (offSvcResp die) v with
      | (true, s) => s.writeSvcresp die v
      | (false, s) => s)

/-- The call of a lane that firmware has not answered, with its two arguments. -/
def State.svcLane (s : State) (die n lane : Nat) : Option (Batch × DWord × DWord) :=
  match s.svc.batches.find? fun b => b.die == die && !b.host && b.index == n with
  | none => none
  | some b =>
    if b.replied.contains lane then none
    else (b.args.find? fun a => a.1 == lane).map fun a => (b, a.2.1, a.2.2)

/-- Firmware dequeues batches in order, whole, and none while a switch is pending (R377). -/
def State.mayServe (s : State) (b : Batch) : Bool :=
  s.dequeued b || (!s.svc.req && s.svc.batches.all fun x => x.host || x.die != b.die || s.dequeued x || s.headTo b ≤ s.headTo x)

/-- Firmware consumes the records that it has finished: HEAD comes to the first record that it has not (R376). -/
def State.consume (s : State) (die : Nat) : State :=
  let off := offSvc die
  let head := s.ctlF (off + 24) 0 32
  let left := s.svc.batches.filter fun x => x.die == die && !x.host && !s.passed x
  s.setCtlF (off + 24) 0 32
    (head + left.foldl (fun n x => min n (s.headTo x)) ((s.ctlF (off + 16) 0 32 + 2 ^ 32 - head) % 2 ^ 32))

/-- The function that a first argument names, none for any other code. -/
def svcCode (a : DWord) : Option Nat :=
  let c := bitsOf a.toNat 0 16
  if a.toNat / 2 ^ 17 = 0 ∧ ([1, 2, 3, 16] : List Nat).contains c then some c else none

/-- Write a lane's reply; the last one completes the batch, and the ring may use its record again. -/
def State.svcReply (s : State) (b : Batch) (lane : Nat) (v : DWord) : State :=
  let s := (s.forget (.batch b.die b.seq)).homeWrite (b.addr + 80 + 32 * lane) 8 v.toNat
  let b' := { b with replied := b.replied ++ [lane] }
  let s := { s with svc := { s.svc with batches := mapIf (fun x => x.die == b.die && x.seq == b.seq) (fun _ => b') s.svc.batches } }
  if b'.args.all fun a => b'.replied.contains a.1 then (s.completeBatch b').consume b.die else s

/-- Serve a lane's call of one function: what the function does and its reply, none while it must wait. A code that names
no function is answered with all ones. -/
def State.svcServe (s : State) (die n lane code : Nat) (f : Batch → DWord → DWord → State → Option DWord × State) : State :=
  match s.svcLane die n lane with
  | none => s
  | some (b, a0, a1) =>
    if !s.mayServe b then s
    else
      match s.allReady (.batch die b.seq) true (recordPieces b.addr) with
      | (false, s) => s
      | (true, s) =>
        match svcCode a0 with
        | none => s.svcReply b lane (BitVec.allOnes 64)
        | some c =>
          if c ≠ code then s
          else match f b a0 a1 s with
            | (some v, s) => s.svcReply b lane v
            | (none, s) => s

/-- SVC_STORAGE_WRITE: the data have reached host memory; durable only after a flush. -/
def execSvcStorageWrite (die n lane : Nat) (s : State) : Res :=
  .next (s.svcServe die n lane 1 fun b _ _ s =>
    let (k, s) := s.next
    (some 0#64, { s with svc := { s.svc with storage := s.svc.storage ++ [{ die, seq := b.seq, lane, repliedAt := k, durable := false }] } }))

/-- Bytes put into device memory for an agent, all of them or none while a home is not ready. -/
def State.landBytes (s : State) (a : Agent) (l : List (Nat × Byte)) : Option DWord × State :=
  match s.allReady a true (l.map (·.1)) with
  | (true, s) => (some 0#64, l.foldl (fun s e => s.homeWrite e.1 1 e.2.toNat) s)
  | (false, s) => (none, s)

/-- SVC_STORAGE_READ: the data are in device memory, in regions of the caller's partition (log 15). -/
def execSvcStorageRead (die n lane : Nat) (s : State) : Res :=
  .next (s.svcServe die n lane 2 fun b _ _ s =>
    s.landBytes (.batch die b.seq) ((Config.storageBytes s.choice).filter fun e => s.ownsRegion b.part (regionOf e.1) && !inCtl e.1))

/-- SVC_FLUSH: with the durable flag, every storage write replied before the call was made survives power loss. -/
def execSvcFlush (die n lane : Nat) (s : State) : Res :=
  .next (s.svcServe die n lane 3 fun b a0 _ s =>
    if bitOf a0.toNat 16 then
      let storage := mapIf (fun x => x.repliedAt < b.formed) (fun x => { x with durable := true }) s.svc.storage
      (some 0#64, { s with svc := { s.svc with storage } })
    else (some 0#64, s))

/-- Bytes 0 to 767 of a report (R380). -/
def State.reportBody (s : State) (part nonce : Nat) : Nat :=
  let meas (die : Nat) : List (Nat × Nat × Nat) :=
    (List.range 8).map fun i => (32 + 256 * die + 32 * i, 32, s.ctl256 (offMeas die i))
  let regs := [0, 8] ++ ((List.range 4).map fun k => 0x10 + 8 * k) ++ (List.range 8).map fun k => 0x40 + 8 * k
  packBytes ([(0, 32, nonce)] ++ meas 0 ++ meas 1 ++ [(544, 8, (s.svc.version s.svc.act.toNat).toNat), (552, 8, part)] ++
    regs.zipIdx.map fun e => (560 + 8 * e.2, 8, (s.ctl64 (offPart part + e.1)).toNat))

/-- A reply other than 0: the manual gives an unserved call no other value (log 33). -/
def State.badReply (s : State) : DWord := Config.freeValue s.choice ||| 1#64

/-- SVC_ATTESTATION_REPORT: the signed report is written to the caller's buffer. -/
def execSvcAttestationReport (die n lane : Nat) (s : State) : Res :=
  .next (s.svcServe die n lane 16 fun b _ a1 s =>
    let user := match b.callers.find? fun c => c.1 == lane with
      | some c => !s.privileged { c.2.1 with ctx := c.2.1.ctx % 8 }
      | none => true
    if a1.toNat % 4096 ≠ 0 then (some s.badReply, s)
    else match s.span (.batch die b.seq) die b.part user .write a1 none 18 with
      | (.wait, s) => (none, s)
      | (.fault .., s) => (some s.badReply, s)
      | (.ok pas, s) =>
        if s.poisoned pas || pas.any inCtl then (some s.badReply, s)
        else
          let body := s.reportBody b.part (s.homeRead (pas.getD 0 0) 32)
          (some 0#64, s.pokeLines pas (body + (Config.reportSignature body).toNat * 2 ^ 6144)))

/-! ### TLB_INVALIDATION_DONE (09 R239) -/

/-- A page of a size, given as a shift, that a TLBINV of a partition names. -/
def invalidates (part : Nat) (v : DWord) (p shift vpn : Nat) : Bool :=
  p == part && (bitOf v.toNat 63 || vpn == (sext57 (bitsOf v.toNat 0 57)).toNat >>> shift)

/-- Walks for what a TLBINV names, ended or in flight, give their accesses nothing any more: these walk again. -/
def State.dropWalks (s : State) (named : Nat → Nat → Nat → Bool) : State :=
  let s := s.dropAgents fun a => match a with | .walk _ part vpn => named part 12 vpn | _ => false
  { s with sched := { s.sched with walks := s.sched.walks.filter fun x => !named x.part 12 x.vpn } }

def execTlbInvalidationDone (core ctx : Nat) (s : State) : Res :=
  .next (match (s.ctx core ctx).str.wait with
    | .tlbinv v =>
      let part := s.partOf core ctx
      let keep (t : TlbEntry) : Bool := !invalidates part v t.part t.shift t.vpn
      let cores := s.cores.map fun e => (e.1, { e.2 with itlb := e.2.itlb.filter keep, dtlb := e.2.dtlb.filter keep })
      let s : State := { s with
        cores := cores.filter fun (e : Nat × Core) => !(e.2 == ({} : Core))
        sched := { s.sched with walker0 := s.sched.walker0.filter keep, walker1 := s.sched.walker1.filter keep } }
      (s.dropWalks (invalidates part v)).modStrand { core, ctx } fun x => { x with wait := .tlbinvDone }
    | _ => s)

end Sys2Proof.Machine
end

