-- ==== Sys2Proof/Machine/Dispatch.lean ====
section
/-! DEFINITION. One arm per row of spec/opcode_table.json: each a direct call of its meaning. -/

namespace Sys2Proof.Machine

/-- The meaning of an instruction or step (03 R49). -/
def exec (i : Instr) (s : State) : Host.Outcome State Fault Refusal :=
  match i with
  | .iadd g d a b => Sys2Proof.Machine.execIadd g d a b s
  | .isub g d a b => Sys2Proof.Machine.execIsub g d a b s
  | .imul g d a b => Sys2Proof.Machine.execImul g d a b s
  | .imad g d a b => Sys2Proof.Machine.execImad g d a b s
  | .icmp g x y hc k => Sys2Proof.Machine.execIcmp g x y hc k s
  | .icmpD g x y hc k => Sys2Proof.Machine.execIcmpD g x y hc k s
  | .iand g d a => Sys2Proof.Machine.execIand g d a s
  | .ior g d a => Sys2Proof.Machine.execIor g d a s
  | .ixor g d a => Sys2Proof.Machine.execIxor g d a s
  | .ishl g d a => Sys2Proof.Machine.execIshl g d a s
  | .ishr g d a => Sys2Proof.Machine.execIshr g d a s
  | .isra g d a => Sys2Proof.Machine.execIsra g d a s
  | .imin g d a => Sys2Proof.Machine.execImin g d a s
  | .imax g d a => Sys2Proof.Machine.execImax g d a s
  | .iminu g d a => Sys2Proof.Machine.execIminu g d a s
  | .imaxu g d a => Sys2Proof.Machine.execImaxu g d a s
  | .imulh g d a => Sys2Proof.Machine.execImulh g d a s
  | .imulhu g d a => Sys2Proof.Machine.execImulhu g d a s
  | .iabs g d a => Sys2Proof.Machine.execIabs g d a s
  | .popc g d a => Sys2Proof.Machine.execPopc g d a s
  | .clz g d a => Sys2Proof.Machine.execClz g d a s
  | .brev g d a => Sys2Proof.Machine.execBrev g d a s
  | .bfe g d a => Sys2Proof.Machine.execBfe g d a s
  | .bfi g d a => Sys2Proof.Machine.execBfi g d a s
  | .lea g d a k => Sys2Proof.Machine.execLea g d a k s
  | .plop g d a t => Sys2Proof.Machine.execPlop g d a t s
  | .pset g d a => Sys2Proof.Machine.execPset g d a s
  | .p2g g d blk => Sys2Proof.Machine.execP2g g d blk s
  | .g2p g blk a => Sys2Proof.Machine.execG2p g blk a s
  | .iaddD g d a => Sys2Proof.Machine.execIaddD g d a s
  | .iaddImm g d a n => Sys2Proof.Machine.execIaddImm g d a n s
  | .ishlImm g d a n => Sys2Proof.Machine.execIshlImm g d a n s
  | .ishrImm g d a n => Sys2Proof.Machine.execIshrImm g d a n s
  | .israImm g d a n => Sys2Proof.Machine.execIsraImm g d a n s
  | .iandImm g d a n => Sys2Proof.Machine.execIandImm g d a n s
  | .isel g d a p => Sys2Proof.Machine.execIsel g d a p s
  | .movi g d n => Sys2Proof.Machine.execMovi g d n s
  | .movh g d n => Sys2Proof.Machine.execMovh g d n s
  | .movh20 g d n => Sys2Proof.Machine.execMovh20 g d n s
  | .fadd g d a b => Sys2Proof.Machine.execFadd g d a b s
  | .fsub g d a b => Sys2Proof.Machine.execFsub g d a b s
  | .fmul g d a b => Sys2Proof.Machine.execFmul g d a b s
  | .ffma g d a b => Sys2Proof.Machine.execFfma g d a b s
  | .ffms g d a b => Sys2Proof.Machine.execFfms g d a b s
  | .pkfmaF16 g d a b => Sys2Proof.Machine.execPkfmaF16 g d a b s
  | .pkfmaBf16 g d a b => Sys2Proof.Machine.execPkfmaBf16 g d a b s
  | .fmin g d a => Sys2Proof.Machine.execFmin g d a s
  | .fmax g d a => Sys2Proof.Machine.execFmax g d a s
  | .pkaddF16 g d a => Sys2Proof.Machine.execPkaddF16 g d a s
  | .pkaddBf16 g d a => Sys2Proof.Machine.execPkaddBf16 g d a s
  | .frnd g d a rm => Sys2Proof.Machine.execFrnd g d a rm s
  | .fclass g d a => Sys2Proof.Machine.execFclass g d a s
  | .faddRm g d a rm => Sys2Proof.Machine.execFaddRm g d a rm s
  | .fsubRm g d a rm => Sys2Proof.Machine.execFsubRm g d a rm s
  | .fmulRm g d a rm => Sys2Proof.Machine.execFmulRm g d a rm s
  | .dadd g d a b => Sys2Proof.Machine.execDadd g d a b s
  | .dmul g d a b => Sys2Proof.Machine.execDmul g d a b s
  | .dfma g d a b => Sys2Proof.Machine.execDfma g d a b s
  | .ddiv g d a b => Sys2Proof.Machine.execDdiv g d a b s
  | .fdiv g d a b => Sys2Proof.Machine.execFdiv g d a b s
  | .dcmp g x y hc k => Sys2Proof.Machine.execDcmp g x y hc k s
  | .dmin g d a => Sys2Proof.Machine.execDmin g d a s
  | .dmax g d a => Sys2Proof.Machine.execDmax g d a s
  | .daddRm g d a rm => Sys2Proof.Machine.execDaddRm g d a rm s
  | .dmulRm g d a rm => Sys2Proof.Machine.execDmulRm g d a rm s
  | .dsqrt g d a rm => Sys2Proof.Machine.execDsqrt g d a rm s
  | .fsqrt g d a rm => Sys2Proof.Machine.execFsqrt g d a rm s
  | .fexp2 g d a => Sys2Proof.Machine.execFexp2 g d a s
  | .flog2 g d a => Sys2Proof.Machine.execFlog2 g d a s
  | .fsin g d a => Sys2Proof.Machine.execFsin g d a s
  | .fcos g d a => Sys2Proof.Machine.execFcos g d a s
  | .frcp g d a => Sys2Proof.Machine.execFrcp g d a s
  | .frsq g d a => Sys2Proof.Machine.execFrsq g d a s
  | .fcmp g x y hc k => Sys2Proof.Machine.execFcmp g x y hc k s
  | .qmax g a j => Sys2Proof.Machine.execQmax g a j s
  | .qcvtI8 g d a => Sys2Proof.Machine.execQcvtI8 g d a s
  | .qcvtCb4 g d a => Sys2Proof.Machine.execQcvtCb4 g d a s
  | .dqI8 g d a => Sys2Proof.Machine.execDqI8 g d a s
  | .dqCb4 g d a => Sys2Proof.Machine.execDqCb4 g d a s
  | .cbsel g d a => Sys2Proof.Machine.execCbsel g d a s
  | .cvt g rm d a dst src => Sys2Proof.Machine.execCvt g rm d a dst src s
  | .shflIdx g d a j => Sys2Proof.Machine.execShflIdx g d a j s
  | .shflUp g d a j => Sys2Proof.Machine.execShflUp g d a j s
  | .shflDown g d a j => Sys2Proof.Machine.execShflDown g d a j s
  | .shflXor g d a j => Sys2Proof.Machine.execShflXor g d a j s
  | .voteAny g d a j => Sys2Proof.Machine.execVoteAny g d a j s
  | .voteAll g d a j => Sys2Proof.Machine.execVoteAll g d a j s
  | .voteBallot g d a j => Sys2Proof.Machine.execVoteBallot g d a j s
  | .matchLanes g d a j => Sys2Proof.Machine.execMatchLanes g d a j s
  | .scanAdd g d a j => Sys2Proof.Machine.execScanAdd g d a j s
  | .scanAddEx g d a j => Sys2Proof.Machine.execScanAddEx g d a j s
  | .redAdd g d a j => Sys2Proof.Machine.execRedAdd g d a j s
  | .redMin g d a j => Sys2Proof.Machine.execRedMin g d a j s
  | .redMax g d a j => Sys2Proof.Machine.execRedMax g d a j s
  | .fredAdd g d a j => Sys2Proof.Machine.execFredAdd g d a j s
  | .jset g a j => Sys2Proof.Machine.execJset g a j s
  | .jsetGrp g j => Sys2Proof.Machine.execJsetGrp g j s
  | .join g j => Sys2Proof.Machine.execJoin g j s
  | .ldg g d a sz off => Sys2Proof.Machine.execLdg g d a sz off s
  | .lds g d a sz off => Sys2Proof.Machine.execLds g d a sz off s
  | .lda g d a w scp off => Sys2Proof.Machine.execLda g d a w scp off s
  | .pref g a m off => Sys2Proof.Machine.execPref g a m off s
  | .cinv g a scp off => Sys2Proof.Machine.execCinv g a scp off s
  | .cpin g a off => Sys2Proof.Machine.execCpin g a off s
  | .cunpin g a off => Sys2Proof.Machine.execCunpin g a off s
  | .stg g d a sz off => Sys2Proof.Machine.execStg g d a sz off s
  | .sts g d a sz off => Sys2Proof.Machine.execSts g d a sz off s
  | .stgRel g d a w scp off => Sys2Proof.Machine.execStgRel g d a w scp off s
  | .stc g d a => Sys2Proof.Machine.execStc g d a s
  | .atomAdd g d a ord scp w off => Sys2Proof.Machine.execAtomAdd g d a ord scp w off s
  | .atomMin g d a ord scp w off => Sys2Proof.Machine.execAtomMin g d a ord scp w off s
  | .atomMax g d a ord scp w off => Sys2Proof.Machine.execAtomMax g d a ord scp w off s
  | .atomAnd g d a ord scp w off => Sys2Proof.Machine.execAtomAnd g d a ord scp w off s
  | .atomOr g d a ord scp w off => Sys2Proof.Machine.execAtomOr g d a ord scp w off s
  | .atomXor g d a ord scp w off => Sys2Proof.Machine.execAtomXor g d a ord scp w off s
  | .xchg g d a ord scp w off => Sys2Proof.Machine.execXchg g d a ord scp w off s
  | .cas g d a ord scp w off => Sys2Proof.Machine.execCas g d a ord scp w off s
  | .xadd g d a ord scp off => Sys2Proof.Machine.execXadd g d a ord scp off s
  | .xrd g d a ord scp off => Sys2Proof.Machine.execXrd g d a ord scp off s
  | .xrd64 g d a ord scp off => Sys2Proof.Machine.execXrd64 g d a ord scp off s
  | .xclr g d a ord scp off => Sys2Proof.Machine.execXclr g d a ord scp off s
  | .atomsAdd g d a w off => Sys2Proof.Machine.execAtomsAdd g d a w off s
  | .atomsMin g d a w off => Sys2Proof.Machine.execAtomsMin g d a w off s
  | .atomsMax g d a w off => Sys2Proof.Machine.execAtomsMax g d a w off s
  | .atomsAnd g d a w off => Sys2Proof.Machine.execAtomsAnd g d a w off s
  | .atomsOr g d a w off => Sys2Proof.Machine.execAtomsOr g d a w off s
  | .atomsXor g d a w off => Sys2Proof.Machine.execAtomsXor g d a w off s
  | .atomsXchg g d a w off => Sys2Proof.Machine.execAtomsXchg g d a w off s
  | .atomsCas g d a w off => Sys2Proof.Machine.execAtomsCas g d a w off s
  | .fenceAcq g scp => Sys2Proof.Machine.execFenceAcq g scp s
  | .fenceRel g scp => Sys2Proof.Machine.execFenceRel g scp s
  | .fenceAr g scp => Sys2Proof.Machine.execFenceAr g scp s
  | .drain g => Sys2Proof.Machine.execDrain g s
  | .waitc g k n => Sys2Proof.Machine.execWaitc g k n s
  | .bar g => Sys2Proof.Machine.execBar g s
  | .gbara g a => Sys2Proof.Machine.execGbara g a s
  | .gbarw g a => Sys2Proof.Machine.execGbarw g a s
  | .awinit g d a => Sys2Proof.Machine.execAwinit g d a s
  | .awadd g d a => Sys2Proof.Machine.execAwadd g d a s
  | .awwait g d h => Sys2Proof.Machine.execAwwait g d h s
  | .awtest g k a => Sys2Proof.Machine.execAwtest g k a s
  | .bra g o => Sys2Proof.Machine.execBra g o s
  | .call g o => Sys2Proof.Machine.execCall g o s
  | .brx g a => Sys2Proof.Machine.execBrx g a s
  | .callx g a => Sys2Proof.Machine.execCallx g a s
  | .ret g => Sys2Proof.Machine.execRet g s
  | .exit g => Sys2Proof.Machine.execExit g s
  | .nop g => Sys2Proof.Machine.execNop g s
  | .endl g => Sys2Proof.Machine.execEndl g s
  | .brk g => Sys2Proof.Machine.execBrk g s
  | .loopLc0 g a o => Sys2Proof.Machine.execLoopLc0 g a o s
  | .loopLc1 g a o => Sys2Proof.Machine.execLoopLc1 g a o s
  | .loopp g a t o => Sys2Proof.Machine.execLoopp g a t o s
  | .item g a o => Sys2Proof.Machine.execItem g a o s
  | .cpy g a => Sys2Proof.Machine.execCpy g a s
  | .cpyTag g a => Sys2Proof.Machine.execCpyTag g a s
  | .cpys g d a => Sys2Proof.Machine.execCpys g d a s
  | .gath g a e => Sys2Proof.Machine.execGath g a e s
  | .mxcfg g a => Sys2Proof.Machine.execMxcfg g a s
  | .mxshape g a => Sys2Proof.Machine.execMxshape g a s
  | .mxldw g a => Sys2Proof.Machine.execMxldw g a s
  | .mxq g a => Sys2Proof.Machine.execMxq g a s
  | .mxdrain g => Sys2Proof.Machine.execMxdrain g s
  | .cbload g n a => Sys2Proof.Machine.execCbload g n a s
  | .ntake g => Sys2Proof.Machine.execNtake g s
  | .npass g => Sys2Proof.Machine.execNpass g s
  | .ntest g d => Sys2Proof.Machine.execNtest g d s
  | .ray g a => Sys2Proof.Machine.execRay g a s
  | .rayAny g a => Sys2Proof.Machine.execRayAny g a s
  | .ovlp g a => Sys2Proof.Machine.execOvlp g a s
  | .refit g a => Sys2Proof.Machine.execRefit g a s
  | .draw g a => Sys2Proof.Machine.execDraw g a s
  | .drawEz g a => Sys2Proof.Machine.execDrawEz g a s
  | .tenq g a => Sys2Proof.Machine.execTenq g a s
  | .tdec g a => Sys2Proof.Machine.execTdec g a s
  | .lnch g d a => Sys2Proof.Machine.execLnch g d a s
  | .iqpush g a => Sys2Proof.Machine.execIqpush g a s
  | .wave g d a b => Sys2Proof.Machine.execWave g d a b s
  | .iqclose g => Sys2Proof.Machine.execIqclose g s
  | .wavew g => Sys2Proof.Machine.execWavew g s
  | .setdl g a => Sys2Proof.Machine.execSetdl g a s
  | .restag g d a => Sys2Proof.Machine.execRestag g d a s
  | .resq g d a => Sys2Proof.Machine.execResq g d a s
  | .resdrop g a => Sys2Proof.Machine.execResdrop g a s
  | .movsr g d f => Sys2Proof.Machine.execMovsr g d f s
  | .csrr g d c => Sys2Proof.Machine.execCsrr g d c s
  | .csrw g d c => Sys2Proof.Machine.execCsrw g d c s
  | .svc g d a => Sys2Proof.Machine.execSvc g d a s
  | .trap g a => Sys2Proof.Machine.execTrap g a s
  | .eret g => Sys2Proof.Machine.execEret g s
  | .wfe g => Sys2Proof.Machine.execWfe g s
  | .evsig g a => Sys2Proof.Machine.execEvsig g a s
  | .tlbinv g a => Sys2Proof.Machine.execTlbinv g a s
  | .own g a => Sys2Proof.Machine.execOwn g a s
  | .ctxsv g a => Sys2Proof.Machine.execCtxsv g a s
  | .ctxld g a => Sys2Proof.Machine.execCtxld g a s
  | .emptyBundle e y m w x => Sys2Proof.Machine.execEmptyBundle e y m w x s
  | .taskYield core ctx => Sys2Proof.Machine.execTaskYield core ctx s
  | .coreCycle core => Sys2Proof.Machine.execCoreCycle core s
  | .gbarBatchAdmit gen => Sys2Proof.Machine.execGbarBatchAdmit gen s
  | .loadReturn core id uncorrectable => Sys2Proof.Machine.execLoadReturn core id uncorrectable s
  | .homeWrite core id => Sys2Proof.Machine.execHomeWrite core id s
  | .homeRead core id => Sys2Proof.Machine.execHomeRead core id s
  | .invalidationAck msg => Sys2Proof.Machine.execInvalidationAck msg s
  | .castArrive msg => Sys2Proof.Machine.execCastArrive msg s
  | .invalidationArrive msg => Sys2Proof.Machine.execInvalidationArrive msg s
  | .castInstalledReply msg => Sys2Proof.Machine.execCastInstalledReply msg s
  | .castRefusedReply msg => Sys2Proof.Machine.execCastRefusedReply msg s
  | .evictionReport msg => Sys2Proof.Machine.execEvictionReport msg s
  | .stcCompletion msg => Sys2Proof.Machine.execStcCompletion msg s
  | .gaugeRateWindow core => Sys2Proof.Machine.execGaugeRateWindow core s
  | .copyPieceLand core op len uncorrectable => Sys2Proof.Machine.execCopyPieceLand core op len uncorrectable s
  | .copySuspend core op => Sys2Proof.Machine.execCopySuspend core op s
  | .gatherFetchIssue core op => Sys2Proof.Machine.execGatherFetchIssue core op s
  | .gatherElementReturn core op n uncorrectable => Sys2Proof.Machine.execGatherElementReturn core op n uncorrectable s
  | .mxshapeExecute core => Sys2Proof.Machine.execMxshapeExecute core s
  | .mxldwComplete core uncorrectable => Sys2Proof.Machine.execMxldwComplete core uncorrectable s
  | .tileTaskStart core => Sys2Proof.Machine.execTileTaskStart core s
  | .tileTaskComplete core uncorrectable => Sys2Proof.Machine.execTileTaskComplete core uncorrectable s
  | .cbloadComplete core id => Sys2Proof.Machine.execCbloadComplete core id s
  | .rayQueryComplete core op uncorrectable => Sys2Proof.Machine.execRayQueryComplete core op uncorrectable s
  | .ovlpQueryComplete core op uncorrectable => Sys2Proof.Machine.execOvlpQueryComplete core op uncorrectable s
  | .refitNode core op uncorrectable => Sys2Proof.Machine.execRefitNode core op uncorrectable s
  | .drawQuadPush die op tile uncorrectable => Sys2Proof.Machine.execDrawQuadPush die op tile uncorrectable s
  | .drawComplete die op => Sys2Proof.Machine.execDrawComplete die op s
  | .dispatchStep die => Sys2Proof.Machine.execDispatchStep die s
  | .launchAccept die => Sys2Proof.Machine.execLaunchAccept die s
  | .readyListAgeing die => Sys2Proof.Machine.execReadyListAgeing die s
  | .spill core ctx => Sys2Proof.Machine.execSpill core ctx s
  | .spillComplete core ctx => Sys2Proof.Machine.execSpillComplete core ctx s
  | .launchComplete slot => Sys2Proof.Machine.execLaunchComplete slot s
  | .dispatcherAccessFault die id => Sys2Proof.Machine.execDispatcherAccessFault die id s
  | .trapDelivery core ctx => Sys2Proof.Machine.execTrapDelivery core ctx s
  | .watchdogExpiry core ctx => Sys2Proof.Machine.execWatchdogExpiry core ctx s
  | .pageFaultService id => Sys2Proof.Machine.execPageFaultService id s
  | .pageFaultServiceDone id => Sys2Proof.Machine.execPageFaultServiceDone id s
  | .faultRingAppend id => Sys2Proof.Machine.execFaultRingAppend id s
  | .pfrespRetry seq => Sys2Proof.Machine.execPfrespRetry seq s
  | .pfrespFail seq => Sys2Proof.Machine.execPfrespFail seq s
  | .pkillGo mask => Sys2Proof.Machine.execPkillGo mask s
  | .partitionKillDone p => Sys2Proof.Machine.execPartitionKillDone p s
  | .tokenRefill => Sys2Proof.Machine.execTokenRefill s
  | .throttleQuarter => Sys2Proof.Machine.execThrottleQuarter s
  | .qosregWrite n dw v => Sys2Proof.Machine.execQosregWrite n dw v s
  | .headurgWrite h v => Sys2Proof.Machine.execHeadurgWrite h v s
  | .plcmapWrite n v => Sys2Proof.Machine.execPlcmapWrite n v s
  | .plcmapScrubDone pair => Sys2Proof.Machine.execPlcmapScrubDone pair s
  | .clprofWrite n v => Sys2Proof.Machine.execClprofWrite n v s
  | .lendingTableWrite n dw v => Sys2Proof.Machine.execLendingTableWrite n dw v s
  | .lendStep => Sys2Proof.Machine.execLendStep s
  | .arrayEnergyPeriod core => Sys2Proof.Machine.execArrayEnergyPeriod core s
  | .lenderWake cluster => Sys2Proof.Machine.execLenderWake cluster s
  | .lendRecallDone cluster => Sys2Proof.Machine.execLendRecallDone cluster s
  | .hlqTailWrite p v => Sys2Proof.Machine.execHlqTailWrite p v s
  | .owncmdGo v => Sys2Proof.Machine.execOwncmdGo v s
  | .transferComplete region => Sys2Proof.Machine.execTransferComplete region s
  | .hostRequest agent line r => Sys2Proof.Machine.execHostRequest agent line r s
  | .hostRecallReply agent line data => Sys2Proof.Machine.execHostRecallReply agent line data s
  | .ownerLostTimeout line => Sys2Proof.Machine.execOwnerLostTimeout line s
  | .reclaimGo v => Sys2Proof.Machine.execReclaimGo v s
  | .migStart k => Sys2Proof.Machine.execMigStart k s
  | .migCopyDone k => Sys2Proof.Machine.execMigCopyDone k s
  | .migSwitch k => Sys2Proof.Machine.execMigSwitch k s
  | .migRelease k => Sys2Proof.Machine.execMigRelease k s
  | .pctlEnWrite p v => Sys2Proof.Machine.execPctlEnWrite p v s
  | .keynew p => Sys2Proof.Machine.execKeynew p s
  | .keynewDone p => Sys2Proof.Machine.execKeynewDone p s
  | .prootWrite v => Sys2Proof.Machine.execProotWrite v s
  | .modeWrite => Sys2Proof.Machine.execModeWrite s
  | .savebaseWrite v => Sys2Proof.Machine.execSavebaseWrite v s
  | .fwctlSwitchRequest v => Sys2Proof.Machine.execFwctlSwitchRequest v s
  | .fwSwitchComplete => Sys2Proof.Machine.execFwSwitchComplete s
  | .svcStorageWrite die n lane => Sys2Proof.Machine.execSvcStorageWrite die n lane s
  | .svcStorageRead die n lane => Sys2Proof.Machine.execSvcStorageRead die n lane s
  | .svcFlush die n lane => Sys2Proof.Machine.execSvcFlush die n lane s
  | .svcAttestationReport die n lane => Sys2Proof.Machine.execSvcAttestationReport die n lane s
  | .svcrespWrite die v => Sys2Proof.Machine.execSvcrespWrite die v s
  | .mextgoWrite die v => Sys2Proof.Machine.execMextgoWrite die v s
  | .coldReset => Sys2Proof.Machine.execColdReset s
  | .powerFail => Sys2Proof.Machine.execPowerFail s
  | .ucieModuleTrainFail y => Sys2Proof.Machine.execUcieModuleTrainFail y s
  | .registerWrite off v => Sys2Proof.Machine.execRegisterWrite off v s
  | .scanOutLine head bytes refill => Sys2Proof.Machine.execScanOutLine head bytes refill s
  | .reclaimDone => Sys2Proof.Machine.execReclaimDone s
  | .firmwareSlotLoad slot image => Sys2Proof.Machine.execFirmwareSlotLoad slot image s
  | .tlbInvalidationDone core ctx => Sys2Proof.Machine.execTlbInvalidationDone core ctx s

end Sys2Proof.Machine
end

