-- ==== Sys2Proof/Machine/Step.lean ====
section
/-! DEFINITION. One step of the whole device, and the placing of one instruction where the next step fetches it. -/

namespace Sys2Proof.Machine

/-- One step: what is taken up next, if it may be; else only its time passes (log 5, 6). -/
def step (s : State) : Host.Outcome State Fault Refusal :=
  if s.takeUp.2.mayTakeUp s.takeUp.1 then exec s.takeUp.1 s.takeUp.2 else .next s.takeUp.2

/-- The state with an instruction stored where the next step fetches it, and that step due (log 8). -/
def State.withFetchWord (s : State) (nbits w : Nat) : State := placeFetch s nbits w

end Sys2Proof.Machine
end

