-- ==== Sys2Proof/Safety.lean ====
section
/-! DEFINITION. What counts as a safe run, and the terms claims are stated in: runs, the form of memory, the issue of a
bundle, and what a word may change. -/

namespace Sys2Proof.Machine

/-! ### Runs -/

/-- The states that steps lead to. -/
inductive Reaches : State → State → Prop where
  | refl (s : State) : Reaches s s
  | step {s t u : State} : Reaches s t → Machine.step t = .next u → Reaches s u

/-- A step neither faults nor is refused. -/
def Answers (s : State) : Prop := ∃ t, step s = .next t

/-- A safe run: from every state it leads to, a step answers. -/
def SafeFrom (s : State) : Prop := ∀ t, Reaches s t → Answers t

/-- Global memory is in its canonical form. -/
def State.memOk (s : State) : Prop := s.mem.wf = true

/-! ### What differs between two states -/

/-- Two states that agree on everything but the parts of contexts and of threads that `cx` and `th` take over from the
first. -/
def SameApart (cx : Ctx → Ctx → Ctx) (th : Thread → Thread → Thread) (s t : State) : Prop :=
  { t with cores := s.cores } = s ∧
  ∀ c, { t.core c with ctxs := (s.core c).ctxs } = s.core c ∧
  ∀ k, { cx (s.ctx c k) (t.ctx c k) with threads := (s.ctx c k).threads } = s.ctx c k ∧
  ∀ n, (tblGet none (t.ctx c k).threads n).map (th ((s.ctx c k).thread n)) = tblGet none (s.ctx c k).threads n

/-- Only general registers differ: g-registers of threads, s-registers of contexts. -/
def OnlyRegs : State → State → Prop := SameApart (fun o n => { n with s := o.s }) (fun o n => { n with g := o.g })

/-- Only predicates differ: p of threads, q of contexts. -/
def OnlyPreds : State → State → Prop := SameApart (fun o n => { n with q := o.q }) (fun o n => { n with p := o.p })

/-- Only PCs differ. -/
def OnlyPcs : State → State → Prop :=
  SameApart (fun o n => { n with str := { n.str with pc := o.str.pc } }) (fun o n => { n with str := { n.str with pc := o.str.pc } })

/-! ### The issue of a word -/

/-- A bundle is being issued, by distinct threads that are live, or by a lead strand. -/
def Issuing (s : State) (i : Issue) : Prop :=
  s.cur = some i ∧ i.tids.Nodup ∧ (i.lead = false → ∀ t ∈ i.tids, (tblGet none (s.ctx i.core i.ctx).threads t).isSome)

/-- One executor issues. -/
def IssuingOne (s : State) (i : Issue) (w : Who) : Prop := s.cur = some i ∧ i.whos = [w]

/-- One executor issues the word, with a true guard. -/
def Runs (s : State) (i : Issue) (x : Instr) (w : Who) : Prop := IssuingOne s i w ∧ s.guardOk w x.guard = true

/-- The executor is a lead strand or a live thread. -/
def Alive (s : State) (w : Who) : Prop := ∀ n, w.tid = some n → (tblGet none (s.ctx w.core w.ctx).threads n).isSome

/-- The translation of an executor's own access, at a PC. -/
def State.xlat (s : State) (w : Who) (pc : DWord) (acc : Access) (va : DWord) : Xlat × State :=
  s.translate (.strand w pc) w.core (s.partOf w.core w.ctx) (!s.privileged w) acc va

/-- The word moves the executor's PC to a target that is a multiple of 4, and changes nothing else. -/
def GoesTo (x : Instr) (target : State → Issue → Who → DWord) : Prop :=
  ∀ s i w, Runs s i x w → Alive s w → i.pc.toNat % 4 = 0 → (target s i w).toNat % 4 = 0 → ∃ t, exec x s = .next t ∧
    (t.strand w).pc = target s i w ∧ OnlyPcs s t

/-- The executors of the issue for which an instruction's guard is true. -/
def Acts (s : State) (i : Issue) (x : Instr) (w : Who) : Prop := w ∈ i.whos ∧ s.guardOk w x.guard = true

/-- The word writes register d of each executor that acts, with the value v (from the state before) at its width, and
changes nothing else. -/
def Gives (x : Instr) (d : Reg) (v : State → Who → Nat) : Prop :=
  ∀ s i, Issuing s i → ∃ t, exec x s = .next t ∧
    (∀ w, Acts s i x w → t.reg w d = v s w % 2 ^ w.width) ∧
    (∀ w r, ¬ (Acts s i x w ∧ r = d) → t.reg w r = s.reg w r) ∧ OnlyRegs s t

/-- The word writes the 64-bit operand d of each executor that acts (two registers of a thread), and changes nothing
else. -/
def GivesWide (x : Instr) (d : Reg) (v : State → Who → DWord) : Prop :=
  ∀ s i, Issuing s i → ∃ t, exec x s = .next t ∧
    (∀ w, Acts s i x w → t.reg64 w d = v s w) ∧
    (∀ w (r : Reg), ¬ (Acts s i x w ∧ (r = d ∨ (w.tid.isSome ∧ r.toNat = d.toNat + 1))) → t.reg w r = s.reg w r) ∧
    OnlyRegs s t

/-- The executor has the predicate. -/
def hasPred (w : Who) (n : Nat) : Prop := n < if w.tid.isSome then 48 else 16

/-- The word writes the predicates `ds` of each executor that acts, with the values v, and changes nothing else. -/
def GivesPreds (x : Instr) (ds : Who → List Nat) (v : State → Who → Nat → Bool) : Prop :=
  ∀ s i, Issuing s i → (∀ w ∈ i.whos, ∀ n ∈ ds w, hasPred w n) → ∃ t, exec x s = .next t ∧
    (∀ w n, Acts s i x w → n ∈ ds w → t.pred w n = v s w n) ∧
    (∀ w n, ¬ (Acts s i x w ∧ n ∈ ds w) → t.pred w n = s.pred w n) ∧ OnlyPreds s t

/-- The word traps its one executor with a cause and an address: the trap names the executor, the PC stays at the bundle, and
no register, no predicate, no scratchpad window and no byte of memory changes. -/
def Traps (s : State) (i : Issue) (w : Who) (x : Instr) (cause : Nat) (va : DWord) : Prop :=
  ∃ t, exec x s = .next t ∧ (t.strand w).pc = i.pc ∧ t.mem = s.mem ∧ (∀ v r, t.reg v r = s.reg v r) ∧
    (∀ v n, t.pred v n = s.pred v n) ∧ (∀ c slot, (t.core c).window slot = (s.core c).window slot) ∧
    ∃ tr, (t.ctx w.core w.ctx).traps = (s.ctx w.core w.ctx).traps ++ [tr] ∧ tr.cause = cause ∧ tr.va = va ∧ tr.tid = w.tid ∧
      tr.pc = i.pc ∧ tr.exk = if w.tid.isNone then 1 else 0

/-! ### Rounding (04 R87), told by the representable values alone -/

/-- The greatest finite magnitude of a format in units of its least subnormal, and the spacing there. -/
def Fmt.top (f : Fmt) : Nat := (2 ^ (f.frac + 1) - 1) * 2 ^ (f.emax - 2)
def Fmt.topUlp (f : Fmt) : Nat := 2 ^ (f.emax - 2)

/-- The bits r are what the nonzero value z ÷ q, in units of the least subnormal, rounds to in a mode: the nearest
representable value (an even pattern at a tie), the greatest not beyond it in magnitude, the least not below it, or the
greatest not above it; an infinity where R87 says so. The result keeps the sign of the value. -/
def Fmt.IsRounding (f : Fmt) (rm : Nat) (z : Int) (q r : Nat) : Prop :=
  r < 2 ^ (f.frac + f.ebits + 1) ∧
  match f.decode r with
  | .nan => False
  | .inf s => s = decide (z < 0) ∧
    ((rm = 0 ∧ (2 * f.top + f.topUlp) * q ≤ 2 * z.natAbs) ∨ (rm = 2 ∧ ((f.top * q : Nat) : Int) < z) ∨
      (rm = 3 ∧ z < -((f.top * q : Nat) : Int)))
  | .fin s k => s = decide (z < 0) ∧
    (rm = 0 → 2 * z.natAbs < (2 * f.top + f.topUlp) * q) ∧
    ∀ r' s' k', f.decode r' = .fin s' k' →
      let v := signedUnits s k
      let v' := signedUnits s' k'
      (rm = 0 → (z - v * q).natAbs ≤ (z - v' * q).natAbs ∧ ((z - v * q).natAbs = (z - v' * q).natAbs → v' = v ∨ r % 2 = 0)) ∧
      (rm = 1 → k * q ≤ z.natAbs ∧ (k' * q ≤ z.natAbs → k' ≤ k)) ∧
      (rm = 2 → z ≤ v * q ∧ (z ≤ v' * q → v ≤ v')) ∧
      (rm = 3 → v * q ≤ z ∧ (v' * q ≤ z → v' ≤ v))

/-- The value z ÷ q rounded, an exact zero with the sign given. -/
def Fmt.Rounds (f : Fmt) (rm : Nat) (zeroNeg : Bool) (z : Int) (q r : Nat) : Prop :=
  (z = 0 → r = f.signBit zeroNeg) ∧ (z ≠ 0 → f.IsRounding rm z q r)

/-- The bits r are the rounding of the square root of y, in units of the least subnormal. -/
def Fmt.IsRoot (f : Fmt) (rm y r : Nat) : Prop :=
  ∃ k, f.decode r = .fin false k ∧ r < 2 ^ (f.frac + f.ebits) ∧ ∀ r' s' k', f.decode r' = .fin s' k' →
    (rm = 0 → (k < k' → 4 * y ≤ (k + k') ^ 2) ∧ (k' < k → (k + k') ^ 2 ≤ 4 * y)) ∧
    (rm = 1 ∨ rm = 3 → k ^ 2 ≤ y ∧ (k' ^ 2 ≤ y → k' ≤ k)) ∧
    (rm = 2 → y ≤ k ^ 2 ∧ (y ≤ k' ^ 2 → k ≤ k'))

/-- The integer n is the rounding of z ÷ q in a mode (RoundInt of R87). -/
def RoundsToInt (rm : Nat) (z : Int) (q : Nat) (n : Int) : Prop :=
  (rm = 0 → 2 * (n * q - z).natAbs ≤ q ∧ (2 * (n * q - z).natAbs = q → n % 2 = 0)) ∧
  (rm = 1 → n.natAbs * q ≤ z.natAbs ∧ z.natAbs < (n.natAbs + 1) * q ∧ 0 ≤ n * z) ∧
  (rm = 2 → z ≤ n * q ∧ n * q < z + q) ∧ (rm = 3 → n * q ≤ z ∧ z < n * q + q)

/-- The sums, products, quotients and roots of a format's finite values are the exact results rounded once, with the signs of
R91 on a zero. -/
def Fmt.ArithmeticRounds (f : Fmt) : Prop :=
  ∀ (rm a b d : Nat) (x y z : Bool) (k l m : Nat), rm < 4 →
    f.decode a = .fin x k → f.decode b = .fin y l → f.decode d = .fin z m →
    let zero (p q : Bool) : Bool := if p = q then p else decide (rm = 3)
    let u := 2 ^ f.unit
    let product := signedUnits x k * signedUnits y l
    f.Rounds rm (zero x y) (signedUnits x k + signedUnits y l) 1 (f.add rm a b) ∧
    f.Rounds rm (zero x !y) (signedUnits x k - signedUnits y l) 1 (f.sub rm a b) ∧
    f.Rounds rm (x != y) product u (f.mul rm a b) ∧
    f.Rounds rm (zero (x != y) z) (product + signedUnits z m * u) u (f.fma rm a b d) ∧
    (l ≠ 0 → f.Rounds 0 (x != y) (signedUnits (x != y) (k * u)) l (f.div a b)) ∧
    (0 < k → x = true → f.sqrt rm a = f.nan) ∧ (0 < k → x = false → f.IsRoot rm (k * u) (f.sqrt rm a)) ∧
    (k = 0 → f.sqrt rm a = f.signBit x)

/-- The special operands of R92 and R94. -/
def Fmt.SpecialsRight (f : Fmt) : Prop :=
  ∀ (rm a b d : Nat) (x y z : Bool) (k l m : Nat),
    (∀ r ∈ [f.add rm a b, f.mul rm a b, f.fma rm a b d, f.div a b], f.decode a = .nan ∨ f.decode b = .nan → r = f.nan) ∧
    (f.decode d = .nan → f.fma rm a b d = f.nan) ∧
    (f.decode a = .inf x →
      (f.decode b = .inf y → f.add rm a b = (if x = y then f.signBit x + f.inf else f.nan) ∧
        f.mul rm a b = f.signBit (x != y) + f.inf ∧ f.div a b = f.nan) ∧
      (f.decode b = .fin y l → f.add rm a b = f.signBit x + f.inf ∧ f.add rm b a = f.signBit x + f.inf ∧
        f.mul rm a b = (if l = 0 then f.nan else f.signBit (x != y) + f.inf) ∧ f.mul rm b a = f.mul rm a b ∧
        f.div a b = f.signBit (x != y) + f.inf ∧ f.div b a = f.signBit (x != y) ∧
        (l = 0 → f.fma rm a b d = f.nan ∧ f.fma rm b a d = f.nan) ∧
        (l ≠ 0 → f.decode d = .fin z m → f.fma rm a b d = f.signBit (x != y) + f.inf) ∧
        (l ≠ 0 → f.decode d = .inf z → f.fma rm a b d = (if z = (x != y) then f.signBit z + f.inf else f.nan))) ∧
      f.sqrt rm a = (if x then f.nan else f.inf)) ∧
    (f.decode a = .fin x k → f.decode b = .fin y l →
      (f.decode d = .inf z → f.fma rm a b d = f.signBit z + f.inf) ∧
      (l = 0 → f.div a b = if k = 0 then f.nan else f.signBit (x != y) + f.inf))

/-- Conversions from a format, to another, to and from integers of w bits, and to an integral value of the format itself. -/
def Fmt.ConversionsRound (f h : Fmt) : Prop :=
  ∀ (rm a : Nat) (x : Bool) (k w : Nat) (z : Int), rm < 4 → 0 < w → f.decode a = .fin x k →
    h.Rounds rm x (signedUnits x k * (2 ^ h.unit : Nat)) (2 ^ f.unit) (h.convert f rm a) ∧
    h.Rounds rm false (z * (2 ^ h.unit : Nat)) 1 (h.ofInt rm z) ∧
    ∃ n : Int, RoundsToInt rm (signedUnits x k) (2 ^ f.unit) n ∧
      f.toInt w rm a = max (-((2 ^ (w - 1) : Nat) : Int)) (min n (((2 ^ (w - 1) : Nat) : Int) - 1)) ∧
      ∃ m, f.decode (f.rnd rm a) = .fin x m ∧ signedUnits x m = n * (2 ^ f.unit : Nat)

/-! ### Cross-lane words -/

/-- Every thread of the group is named by mask j of its warp, and every live thread that is named there is in the group. -/
def Joined (s : State) (i : Issue) (j : BitVec 3) : Prop :=
  i.lead = false ∧ ∀ n ∈ i.tids, n < 1024 ∧
    let m := s.mask { core := i.core, ctx := i.ctx } (n / 32) j.toNat
    m.getLsbD (n % 32) = true ∧ ∀ l < 32, m.getLsbD l = true → 32 * (n / 32) + l ∈ (s.ctx i.core i.ctx).liveTids →
      32 * (n / 32) + l ∈ i.tids

/-- The lanes of a warp that are in the group with a true guard, ascending. -/
def activeLanes (s : State) (i : Issue) (g : Guard) (warp : Nat) : List Nat :=
  lanes.filter fun l => i.tids.contains (32 * warp + l) && s.guardOk (i.lane warp l) g

/-- The word writes register d of each active lane, with a value of the lanes' state before, and changes nothing else. -/
def GivesLanes (x : Instr) (j : BitVec 3) (d : Reg) (v : State → (Nat → Who) → List Nat → Nat → Nat) : Prop :=
  ∀ s i, Issuing s i → Joined s i j → ∃ t, exec x s = .next t ∧
    (∀ n, Acts s i x (i.lane (n / 32) (n % 32)) →
      t.reg (i.lane (n / 32) (n % 32)) d = v s (i.lane (n / 32)) (activeLanes s i x.guard (n / 32)) (n % 32) % 2 ^ 32) ∧
    (∀ w r, ¬ (Acts s i x w ∧ r = d) → t.reg w r = s.reg w r) ∧ OnlyRegs s t

/-! ### Engine commands -/

/-- No check of a descriptor fails: its ranges lie in the window, its fields are aligned, nothing in it is illegal. -/
def EngCheck.passes (c : EngCheck) (window : Nat) : Prop :=
  (∀ r ∈ c.ranges, r.1 + r.2 ≤ window) ∧ (∀ r ∈ c.aligned, r.1 % r.2 = 0) ∧ c.illegal = false

end Sys2Proof.Machine
end

