-- ==== Sys2Proof/Certificates/Slice0/Obligations.lean ====
section
/-! DEFINITION. Statements for the provers: what instructions do, what they leave alone, and what every step keeps. -/

open Sys2Proof Sys2Proof.Machine

/-! ### Integer instructions (05 R108 to R118) -/

/-- R108, R109: sums, differences, products and constants are exact integers reduced to the executor's width; no other
register, no predicate, no PC and no byte of memory changes; a thread whose guard is false changes nothing.
R114, R115: the 64-bit forms: an address from a scaled signed index, and the sum of pairs. -/
def Obligations.IntegerSumsAndProducts : Prop :=
  (∀ (g : Guard) (d a b : Reg) (i6 : Imm 6) (i12 : Imm 12) (h12 : BitVec 12) (h20 : BitVec 20),
  Gives (.iadd g d a b) d (fun s w => s.reg w a + s.reg w b) ∧
  Gives (.isub g d a b) d (fun s w => wrapTo w.width ((s.reg w a : Int) - s.reg w b)) ∧
  Gives (.imul g d a b) d (fun s w => s.reg w a * s.reg w b) ∧
  Gives (.imad g d a b) d (fun s w => s.reg w d + s.reg w a * s.reg w b) ∧
  Gives (.iaddImm g d a i6) d (fun s w => wrapTo w.width ((s.reg w a : Int) + immSigned i6)) ∧
  Gives (.movi g d i12) d (fun _ w => wrapTo w.width (immSigned i12)) ∧
  Gives (.movh g d h12) d (fun s w => s.reg w d * 2 ^ 12 + h12.toNat) ∧
  Gives (.movh20 g d h20) d (fun s w => s.reg w d * 2 ^ 20 + h20.toNat)) ∧
  (∀ (g : Guard) (d a : Reg) (k : BitVec 3),
  GivesWide (.lea g d a k) d (fun s w => s.reg64 w d + BitVec.ofInt 64 (signedAt w.width (s.reg w a) * (2 ^ k.toNat : Nat))) ∧
  GivesWide (.iaddD g d a) d (fun s w => s.reg64 w d + s.reg64 w a))

/-- R109, R112, R117, R118: bitwise forms, extremes, magnitude, selection.
R109, R118: the counts and the reversal, told bit by bit.
R113, R118: fields extracted and inserted, and a block of predicates packed into a register. -/
def Obligations.LogicChoiceAndFields : Prop :=
  (∀ (g : Guard) (d a : Reg) (i6 : Imm 6) (p : F6),
  Gives (.iand g d a) d (fun s w => s.reg w d &&& s.reg w a) ∧
  Gives (.ior g d a) d (fun s w => s.reg w d ||| s.reg w a) ∧
  Gives (.ixor g d a) d (fun s w => s.reg w d ^^^ s.reg w a) ∧
  Gives (.iandImm g d a i6) d (fun s w => s.reg w a &&& wrapTo w.width (immSigned i6)) ∧
  Gives (.imin g d a) d (fun s w => wrapTo w.width (min (signedAt w.width (s.reg w d)) (signedAt w.width (s.reg w a)))) ∧
  Gives (.imax g d a) d (fun s w => wrapTo w.width (max (signedAt w.width (s.reg w d)) (signedAt w.width (s.reg w a)))) ∧
  Gives (.iminu g d a) d (fun s w => min (s.reg w d) (s.reg w a)) ∧
  Gives (.imaxu g d a) d (fun s w => max (s.reg w d) (s.reg w a)) ∧
  Gives (.iabs g d a) d (fun s w => (signedAt w.width (s.reg w a)).natAbs) ∧
  Gives (.isel g d a p) d (fun s w => if s.pred w p.toNat then s.reg w a else s.reg w d)) ∧
  (∀ (g : Guard) (d a : Reg),
  Gives (.popc g d a) d (fun s w => ((List.range w.width).filter fun n => (s.reg w a).testBit n).length) ∧
  Gives (.clz g d a) d (fun s w => if s.reg w a = 0 then w.width else w.width - 1 - (s.reg w a).log2) ∧
  ∃ v, Gives (.brev g d a) d v ∧
    ∀ s w n, (v s w).testBit n = (decide (n < w.width) && (s.reg w a).testBit (w.width - 1 - n))) ∧
  (∀ (g : Guard) (d a : Reg) (blk : F6),
  (∃ v, Gives (.bfe g d a) d v ∧ ∀ s w, w.tid.isSome →
    let ctl := s.reg w d
    let len := min (ctl / 2 ^ 8 % 2 ^ 8) 32
    let x : Int := if ctl.testBit 16 then signedAt 32 (s.reg w a) else s.reg w a
    let f := x / (2 ^ (ctl % 2 ^ 8) : Nat) % (2 ^ len : Nat)
    v s w = wrapTo 32 (if ctl.testBit 16 && decide (0 < len) && decide ((2 ^ len : Nat) ≤ 2 * f) then f - (2 ^ len : Nat) else f)) ∧
  (∃ v, Gives (.bfi g d a) d v ∧ ∀ s w n, w.tid.isSome →
    let ctl := s.reg w (d + 1#7)
    let pos := ctl % 2 ^ 8
    let len := min (ctl / 2 ^ 8 % 2 ^ 8) 32
    (v s w).testBit n = (decide (n < 32) && if pos ≤ n ∧ n < pos + len then (s.reg w a).testBit (n - pos) else (s.reg w d).testBit n)) ∧
  (∃ v, Gives (.p2g g d blk) d v ∧ ∀ s w n,
    (v s w).testBit n = (decide (n < blockSize w blk) && s.pred w (32 * blk.toNat + n))))

/-- R110: shifts by an unreduced count, from a register or an immediate, and the high halves of products. -/
def Obligations.ShiftsAndHighProducts : Prop := ∀ (g : Guard) (d a : Reg) (i : Imm 6),
  Gives (.ishl g d a) d (fun s w => s.reg w d * 2 ^ s.reg w a) ∧
  Gives (.ishr g d a) d (fun s w => s.reg w d / 2 ^ s.reg w a) ∧
  Gives (.isra g d a) d (fun s w => wrapTo w.width (signedAt w.width (s.reg w d) / (2 ^ s.reg w a : Nat))) ∧
  Gives (.ishlImm g d a i) d (fun s w => s.reg w a * 2 ^ immUnsigned i) ∧
  Gives (.ishrImm g d a i) d (fun s w => s.reg w a / 2 ^ immUnsigned i) ∧
  Gives (.israImm g d a i) d (fun s w => wrapTo w.width (signedAt w.width (s.reg w a) / (2 ^ immUnsigned i : Nat))) ∧
  Gives (.imulh g d a) d (fun s w =>
    wrapTo w.width (signedAt w.width (s.reg w d) * signedAt w.width (s.reg w a) / (2 ^ w.width : Nat))) ∧
  Gives (.imulhu g d a) d (fun s w => s.reg w d * s.reg w a / 2 ^ w.width)

/-- R58, R111, R115, R132, R134: a compare writes its predicate and the complement, and nothing else.
R117, R118: predicates from a truth table, from a register's value, and from the bits of a register. -/
def Obligations.ComparesAndPredicates : Prop :=
  (∀ (g : Guard) (x y : Reg) (hc : BitVec 2) (k : BitVec 4),
  let both (c : State → Who → Bool) : State → Who → Nat → Bool := fun s w n => if n = k.toNat then c s w else !(c s w)
  let ks : Who → List Nat := fun _ => [k.toNat, (k ^^^ 1#4).toNat]
  (hc ≠ 3#2 → GivesPreds (.icmp g x y hc k) ks (both fun s w =>
    if hc = 0#2 then s.reg w x == s.reg w y
    else if hc = 1#2 then decide (signedAt w.width (s.reg w x) < signedAt w.width (s.reg w y)) else decide (s.reg w x < s.reg w y))) ∧
  (hc ≠ 3#2 → GivesPreds (.icmpD g x y hc k) ks (both fun s w =>
    if hc = 0#2 then s.reg64 w x == s.reg64 w y
    else if hc = 1#2 then (s.reg64 w x).slt (s.reg64 w y) else (s.reg64 w x).ult (s.reg64 w y))) ∧
  GivesPreds (.fcmp g x y hc k) ks (both fun s w => fpCond fp32 hc (s.reg w x) (s.reg w y)) ∧
  GivesPreds (.dcmp g x y hc k) ks (both fun s w => fpCond fp64 hc (s.reg64 w x).toNat (s.reg64 w y).toNat)) ∧
  (∀ (g : Guard) (d p : F6) (a : Reg) (t : BitVec 4),
  GivesPreds (.plop g d p t) (fun _ => [d.toNat])
    (fun s w _ => t.getLsbD (2 * (s.pred w d.toNat).toNat + (s.pred w p.toNat).toNat)) ∧
  GivesPreds (.pset g d a) (fun _ => [d.toNat]) (fun s w _ => s.reg w a != 0) ∧
  GivesPreds (.g2p g d a) (fun w => (List.range (blockSize w d)).map (32 * d.toNat + ·))
    (fun s w n => (s.reg w a).testBit (n - 32 * d.toNat)))

/-! ### Floating point (06 R130 to R143; 04 R89) -/

/-- R130, R131, R134 (FDIV and FSQRT): the FP32 forms name their operands and their mode, and write one register, whose value is
the rounding that RoundingIsCorrect states; FCLASS writes the one bit of the operand's class. -/
def Obligations.Fp32Results : Prop := ∀ (g : Guard) (d a b : Reg) (rm : BitVec 2),
  Gives (.fadd g d a b) d (fun s w => fp32.add 0 (s.reg w a) (s.reg w b)) ∧
  Gives (.fsub g d a b) d (fun s w => fp32.add 0 (s.reg w a) (fp32.neg (s.reg w b))) ∧
  Gives (.fmul g d a b) d (fun s w => fp32.mul 0 (s.reg w a) (s.reg w b)) ∧
  Gives (.ffma g d a b) d (fun s w => fp32.fma 0 (s.reg w a) (s.reg w b) (s.reg w d)) ∧
  Gives (.ffms g d a b) d (fun s w => fp32.fma 0 (s.reg w a) (s.reg w b) (fp32.neg (s.reg w d))) ∧
  Gives (.fmin g d a) d (fun s w => fp32.minMax false (s.reg w d) (s.reg w a)) ∧
  Gives (.fmax g d a) d (fun s w => fp32.minMax true (s.reg w d) (s.reg w a)) ∧
  Gives (.faddRm g d a rm) d (fun s w => fp32.add rm.toNat (s.reg w d) (s.reg w a)) ∧
  Gives (.fsubRm g d a rm) d (fun s w => fp32.add rm.toNat (s.reg w d) (fp32.neg (s.reg w a))) ∧
  Gives (.fmulRm g d a rm) d (fun s w => fp32.mul rm.toNat (s.reg w d) (s.reg w a)) ∧
  Gives (.frnd g d a rm) d (fun s w => fp32.rnd rm.toNat (s.reg w a)) ∧
  Gives (.fdiv g d a b) d (fun s w => fp32.div (s.reg w a) (s.reg w b)) ∧
  Gives (.fsqrt g d a rm) d (fun s w => fp32.sqrt rm.toNat (s.reg w a)) ∧
  (let cls (x : Nat) : Nat :=
     if x = 0xFF800000 then 0 else if x = 0x7F800000 then 7
     else if 0x7F800000 < x % 2 ^ 31 then (if x.testBit 22 then 9 else 8)
     else if x = 0x80000000 then 3 else if x = 0 then 4
     else if x < 0x00800000 then 5 else if x < 0x80000000 then 6 else if x < 0x80800000 then 2 else 1
   Gives (.fclass g d a) d (fun s w => 2 ^ cls (s.reg w a % 2 ^ 32)))

/-- R134: the FP64 forms act on pairs; RoundingIsCorrect states the values.
R57, R95, R137: a conversion reads and writes a pair where the format is FP64, one register elsewhere; between two
floating-point formats, to an integer, from one, and between integers its value is that of the conversion whose rounding
RoundingIsCorrect states. -/
def Obligations.Fp64AndConversions : Prop :=
  (∀ (g : Guard) (d a b : Reg) (rm : BitVec 2),
  let x (s : State) (w : Who) (r : Reg) : Nat := (s.reg64 w r).toNat
  let pair (f : State → Who → Nat) : State → Who → DWord := fun s w => BitVec.ofNat 64 (f s w)
  GivesWide (.dadd g d a b) d (pair fun s w => fp64.add 0 (x s w a) (x s w b)) ∧
  GivesWide (.dmul g d a b) d (pair fun s w => fp64.mul 0 (x s w a) (x s w b)) ∧
  GivesWide (.dfma g d a b) d (pair fun s w => fp64.fma 0 (x s w a) (x s w b) (x s w d)) ∧
  GivesWide (.ddiv g d a b) d (pair fun s w => fp64.div (x s w a) (x s w b)) ∧
  GivesWide (.dmin g d a) d (pair fun s w => fp64.minMax false (x s w d) (x s w a)) ∧
  GivesWide (.dmax g d a) d (pair fun s w => fp64.minMax true (x s w d) (x s w a)) ∧
  GivesWide (.daddRm g d a rm) d (pair fun s w => fp64.add rm.toNat (x s w d) (x s w a)) ∧
  GivesWide (.dmulRm g d a rm) d (pair fun s w => fp64.mul rm.toNat (x s w d) (x s w a)) ∧
  GivesWide (.dsqrt g d a rm) d (pair fun s w => fp64.sqrt rm.toNat (x s w a))) ∧
  (∀ (g : Guard) (rm : BitVec 2) (d a : Reg) (dst src : BitVec 3),
  let fmt : BitVec 3 → Option Fmt := fun c =>
    if c = 0#3 then some fp64 else if c = 1#3 then some fp32 else if c = 2#3 then some fp16 else if c = 3#3 then some bf16 else none
  let bits : BitVec 3 → Nat := fun c => if c = 4#3 then 32 else if c = 5#3 then 16 else if c = 6#3 then 8 else 4
  let v (s : State) (w : Who) : Nat :=
    let x := if src = 0#3 then (s.reg64 w a).toNat else s.reg w a
    match fmt src, fmt dst with
    | some f, some h => h.convert f rm.toNat (x % 2 ^ (1 + f.ebits + f.frac))
    | some f, none => wrapTo 32 (f.toInt (bits dst) rm.toNat (x % 2 ^ (1 + f.ebits + f.frac)))
    | none, some h => h.ofInt rm.toNat (signedAt (bits src) x)
    | none, none => wrapTo 32 (max (-((2 ^ (bits dst - 1) : Nat) : Int)) (min (signedAt (bits src) x) (((2 ^ (bits dst - 1) : Nat) : Int) - 1)))
  (dst ≠ 0#3 → Gives (.cvt g rm d a dst src) d v) ∧
  (dst = 0#3 → GivesWide (.cvt g rm d a dst src) d (fun s w => BitVec.ofNat 64 (v s w))))

/-- R133, R136, R142, R143: packed halves, special functions, and quantising against the latch.
R139: the selector and the register change together, and nothing else does.
R100: the special values of the special functions, and the bounds of every other result against the function's value to
160 fraction bits (log 7), FRCP's against the exact quotient. -/
def Obligations.PackedSpecialAndQuantised : Prop :=
  (∀ (g : Guard) (d a b : Reg),
  let halves (f : Nat → Nat → Nat → Nat) (x y z : Nat) : Nat :=
    f (x % 2 ^ 16) (y % 2 ^ 16) (z % 2 ^ 16) + 2 ^ 16 * f (x / 2 ^ 16 % 2 ^ 16) (y / 2 ^ 16 % 2 ^ 16) (z / 2 ^ 16 % 2 ^ 16)
  Gives (.pkfmaF16 g d a b) d (fun s w => halves (fp16.fma 0) (s.reg w a) (s.reg w b) (s.reg w d)) ∧
  Gives (.pkfmaBf16 g d a b) d (fun s w => halves (bf16.fma 0) (s.reg w a) (s.reg w b) (s.reg w d)) ∧
  Gives (.pkaddF16 g d a) d (fun s w => halves (fun x y _ => fp16.add 0 x y) (s.reg w d) (s.reg w a) 0) ∧
  Gives (.pkaddBf16 g d a) d (fun s w => halves (fun x y _ => bf16.add 0 x y) (s.reg w d) (s.reg w a) 0) ∧
  Gives (.fexp2 g d a) d (fun s w => sfuExp2 (BitVec.ofNat 32 (s.reg w a))) ∧
  Gives (.flog2 g d a) d (fun s w => sfuLog2 (BitVec.ofNat 32 (s.reg w a))) ∧
  Gives (.fsin g d a) d (fun s w => sfuSin (BitVec.ofNat 32 (s.reg w a))) ∧
  Gives (.fcos g d a) d (fun s w => sfuCos (BitVec.ofNat 32 (s.reg w a))) ∧
  Gives (.frcp g d a) d (fun s w => sfuRcp (BitVec.ofNat 32 (s.reg w a))) ∧
  Gives (.frsq g d a) d (fun s w => sfuRsq (BitVec.ofNat 32 (s.reg w a))) ∧
  Gives (.qcvtI8 g d a) d (fun s w => wrapTo 32 (quantI8 (s.reg w a) (s.threadOf w).latchNow)) ∧
  Gives (.qcvtCb4 g d a) d (fun s w =>
    cbEncode (s.cbEntries w (s.threadOf w).sel.toNat) (scaledDown (s.reg w a) (s.threadOf w).latchNow).1
      (scaledDown (s.reg w a) (s.threadOf w).latchNow).2) ∧
  Gives (.dqI8 g d a) d (fun s w =>
    let l := (s.threadOf w).latchNow
    fp32.roundInt 0 false (signedAt 8 (s.reg w a) * (2 ^ l.toNat : Nat)) (2 ^ (-l).toNat)) ∧
  Gives (.dqCb4 g d a) d (fun s w =>
    fp32.scale bf16 ((s.cbEntries w (s.threadOf w).sel.toNat).getD (s.reg w a % 16) 0) (s.threadOf w).latchNow)) ∧
  (∀ (g : Guard) (d a : Reg) (s : State) (i : Issue) (w : Who) (n : Nat),
  IssuingOne s i w → w.tid = some n → s.guardOk w g = true → ∃ t, exec (.cbsel g d a) s = .next t ∧
    (t.threadOf w).sel = BitVec.ofNat 3 (s.reg w a) ∧ t.reg w d = (s.threadOf w).sel.toNat ∧
    (∀ v r, ¬ (v = w ∧ r = d) → t.reg v r = s.reg v r) ∧
    SameApart (fun _ x => x) (fun o x => { x with g := o.g, sel := o.sel }) s t) ∧
  (∀ (a : Word),
  let d := fp32.decode a.toNat
  (d = .nan → ∀ r ∈ [sfuExp2 a, sfuLog2 a, sfuSin a, sfuCos a, sfuRcp a, sfuRsq a], r = 0x7FC00000) ∧
  (∀ neg, d = .inf neg → sfuExp2 a = (if neg then 0 else 0x7F800000) ∧ sfuLog2 a = (if neg then 0x7FC00000 else 0x7F800000) ∧
    sfuSin a = 0x7FC00000 ∧ sfuCos a = 0x7FC00000 ∧ sfuRcp a = (if neg then 0x80000000 else 0) ∧
    sfuRsq a = (if neg then 0x7FC00000 else 0)) ∧
  (∀ neg k, d = .fin neg k →
    let z : Int := if neg then -(k : Int) else k
    (∀ n : Int, z = n * (2 ^ 149 : Nat) → -149 ≤ n → n < 128 → fp32.decode (sfuExp2 a) = .fin false (2 ^ (149 + n).toNat)) ∧
    ((128 * 2 ^ 149 : Nat) ≤ z → sfuExp2 a = 0x7F800000) ∧ (z < -(150 * 2 ^ 149 : Nat) → sfuExp2 a = 0) ∧
    (-(150 * 2 ^ 149 : Nat) ≤ z → z < (128 * 2 ^ 149 : Nat) →
      within (BitVec.ofNat 32 (sfuExp2 a)) (exp2Approx z) (ulpOver (exp2Approx z)) (2 ^ 149) = true) ∧
    (k = 0 → sfuLog2 a = 0xFF800000 ∧ sfuRcp a = (if neg then 0xFF800000 else 0x7F800000) ∧
      sfuRsq a = (if neg then 0xFF800000 else 0x7F800000)) ∧
    (k ≠ 0 → neg = true → sfuLog2 a = 0x7FC00000 ∧ sfuRsq a = 0x7FC00000) ∧
    (∀ l : Nat, neg = false → k = 2 ^ l → sfuLog2 a = fp32.ofInt 0 ((l : Int) - 149)) ∧
    (k ≠ 0 → neg = false → (∀ l : Nat, k ≠ 2 ^ l) →
      within (BitVec.ofNat 32 (sfuLog2 a)) (log2Approx k)
        (if 2 ^ 148 ≤ k ∧ k ≤ 2 ^ 150 then 2 ^ 126 else ulpOver (log2Approx k)) (2 ^ 149) = true) ∧
    (k % 2 ^ 149 = 0 → sfuSin a = (if neg then 0x80000000 else 0) ∧
      sfuCos a = (if k / 2 ^ 149 % 2 = 0 then 0x3F800000 else 0xBF800000)) ∧
    (k % 2 ^ 149 = 2 ^ 148 → sfuCos a = 0) ∧
    (k % 2 ^ 149 ≠ 0 → let x := spSinTurns (k % 2 ^ 150)
      within (BitVec.ofNat 32 (sfuSin a)) { x with neg := x.neg != neg } 1 (2 ^ 22) = true) ∧
    (k % 2 ^ 148 ≠ 0 → within (BitVec.ofNat 32 (sfuCos a)) (spSinTurns ((k + 2 ^ 148) % 2 ^ 150)) 1 (2 ^ 22) = true) ∧
    (k ≠ 0 → (2 ^ 24 - 1) * 2 ^ 104 * k < 2 ^ 149 → sfuRcp a = (if neg then 0xFF800000 else 0x7F800000)) ∧
    (k ≠ 0 → 2 ^ 149 ≤ (2 ^ 24 - 1) * 2 ^ 104 * k → ∃ t m, fp32.decode (sfuRcp a) = .fin t m ∧
      ((if t then -((m * k : Nat) : Int) else (m * k : Nat)) - (if neg then -((2 ^ 298 : Nat) : Int) else (2 ^ 298 : Nat)) : Int).natAbs ≤
        k * 2 ^ ((2 ^ 298 / k).log2 - 23)) ∧
    (k ≠ 0 → neg = false → let x : Approx := { neg := false, n := 2 ^ 300, d := isqrt (k * 2 ^ 451) }
      within (BitVec.ofNat 32 (sfuRsq a)) x (ulpOver x) (2 ^ 149) = true)))

/-- R89: whenever the result of an arithmetic operation is a NaN, it is the canonical NaN of its format: sums, products,
quotients, roots, rounding, extremes, conversions, scalings and the special functions. -/
def Obligations.CanonicalNans : Prop :=
  (∀ f ∈ [fp64, fp32, fp16, bf16], ∀ h ∈ [fp64, fp32, fp16, bf16], ∀ (rm a b d : Nat) (max : Bool) (l : Int),
    ∀ r ∈ [f.add rm a b, f.sub rm a b, f.mul rm a b, f.fma rm a b d, f.div a b, f.sqrt rm a, f.rnd rm a, f.minMax max a b,
      f.convert h rm a, f.scale h a l], f.decode r = .nan → r = f.nan) ∧
  (∀ (rm v : Nat) (dst src : BitVec 3) (f : Fmt), cvtFmt dst = some f → f.decode (convertValue rm dst src v) = .nan →
    convertValue rm dst src v = f.nan) ∧
  (∀ a : Word, ∀ r ∈ [sfuExp2 a, sfuLog2 a, sfuSin a, sfuCos a, sfuRcp a, sfuRsq a], fp32.decode r = .nan → r = fp32.nan)

/-- R87, R88, R91, R92, R94, R95: sums, products, fused products, quotients and roots of the four formats are the exact results
rounded once in the mode named, subnormals at their value and a zero with its sign; special operands give their results; and
conversions between formats, to and from integers, and to integral values round the same way. -/
def Obligations.RoundingIsCorrect : Prop := ∀ f ∈ [fp64, fp32, fp16, bf16], f.ArithmeticRounds ∧ f.SpecialsRight ∧ ∀ h ∈ [fp64, fp32, fp16, bf16], f.ConversionsRound h

/-! ### Cross-lane instructions (06 R140, R144 to R151) -/

/-- R146, R148, R149: every active lane of every warp receives its value; the rest stays.
R148: the signed extreme over the active lanes is one of their values, and none is beyond it. -/
def Obligations.LaneResults : Prop :=
  (∀ (g : Guard) (d a : Reg) (j : BitVec 3) (p : F6),
  GivesLanes (.shflIdx g d a j) j d (fun s who act l =>
    if s.reg (who l) d ∈ act then s.reg (who (s.reg (who l) d)) a else s.reg (who l) a) ∧
  GivesLanes (.shflUp g d a j) j d (fun s who act l =>
    if s.reg (who l) d ≤ l ∧ l - s.reg (who l) d ∈ act then s.reg (who (l - s.reg (who l) d)) a else s.reg (who l) a) ∧
  GivesLanes (.shflDown g d a j) j d (fun s who act l =>
    if l + s.reg (who l) d ∈ act then s.reg (who (l + s.reg (who l) d)) a else s.reg (who l) a) ∧
  GivesLanes (.shflXor g d a j) j d (fun s who act l =>
    if l ^^^ s.reg (who l) d ∈ act then s.reg (who (l ^^^ s.reg (who l) d)) a else s.reg (who l) a) ∧
  GivesLanes (.voteBallot g d p j) j d (fun s who act _ => bitsFrom (fun n => act.contains n && s.pred (who n) p.toNat) 32) ∧
  GivesLanes (.matchLanes g d a j) j d (fun s who act l =>
    bitsFrom (fun n => act.contains n && s.reg (who n) a == s.reg (who l) a) 32) ∧
  GivesLanes (.scanAdd g d a j) j d (fun s who act l => ((act.filter fun n => n ≤ l).map fun n => s.reg (who n) a).sum) ∧
  GivesLanes (.scanAddEx g d a j) j d (fun s who act l => ((act.filter fun n => n < l).map fun n => s.reg (who n) a).sum) ∧
  GivesLanes (.redAdd g d a j) j d (fun s who act _ => (act.map fun n => s.reg (who n) a).sum) ∧
  GivesLanes (.fredAdd g d a j) j d (fun s who act _ =>
    canonicalReduce (fp32.add 0) 0x80000000 (lanes.map fun n => if act.contains n then s.reg (who n) a else 0x80000000))) ∧
  (∀ (g : Guard) (d a : Reg) (j : BitVec 3),
  (∃ v, GivesLanes (.redMin g d a j) j d v ∧ ∀ s who act l, l ∈ act → (∀ n ∈ act, s.reg (who n) a < 2 ^ 32) →
    (∃ n ∈ act, v s who act l = s.reg (who n) a) ∧ ∀ n ∈ act, signedAt 32 (v s who act l) ≤ signedAt 32 (s.reg (who n) a)) ∧
  (∃ v, GivesLanes (.redMax g d a j) j d v ∧ ∀ s who act l, l ∈ act → (∀ n ∈ act, s.reg (who n) a < 2 ^ 32) →
    (∃ n ∈ act, v s who act l = s.reg (who n) a) ∧ ∀ n ∈ act, signedAt 32 (s.reg (who n) a) ≤ signedAt 32 (v s who act l)))

/-- R147, R140, R150, R151: votes, the latch, the masks and the join, for one warp. -/
def Obligations.LaneStates : Prop := ∀ (g : Guard) (d p : F6) (a : Reg) (j : BitVec 3) (s : State) (i : Issue) (warp : Nat),
  Issuing s i → Joined s i j → (∀ n ∈ i.tids, n / 32 = warp) → i.tids ≠ [] →
    let act := activeLanes s i g warp
    let who := i.lane warp
    exec (.voteAny g d p j) s =
      .next (act.foldl (fun t l => t.setPred (who l) d.toNat (act.any fun n => s.pred (who n) p.toNat)) s) ∧
    exec (.voteAll g d p j) s =
      .next (act.foldl (fun t l => t.setPred (who l) d.toNat (act.all fun n => s.pred (who n) p.toNat)) s) ∧
    exec (.qmax g a j) s =
      .next (act.foldl (fun t l => t.modThread (who l) fun th => { th with
        latchPend := th.latchPend ++ [(th.slots + 3, BitVec.ofInt 8 (latchOf (act.map fun n => s.reg (who n) a)))] }) s) ∧
    (∀ l rest, act = l :: rest → exec (.jset g a j) s = .next (s.setMask (who l) warp j.toNat (BitVec.ofNat 32 (s.reg (who l) a)))) ∧
    (∀ l rest, act = l :: rest →
      exec (.jsetGrp g j) s = .next (s.setMask (who l) warp j.toNat (BitVec.ofNat 32 (bitsFrom act.contains 32)))) ∧
    (act = [] → exec (.jset g a j) s = .next s ∧ exec (.jsetGrp g j) s = .next s) ∧
    exec (.join g j) s = .next s

/-- R144: a thread that its own mask does not name traps with cause 5 and its PC at the bundle; no register of any
executor changes.
R198: a matrix command of a context that does not hold the needle is cause 6 and nothing is accepted. -/
def Obligations.LaneAndNeedleTraps : Prop :=
  (∀ (g : Guard) (d a : Reg) (pd pa : F6) (j : BitVec 3) (s : State) (i : Issue)
    (n : Nat),
  Issuing s i → i.lead = false → i.tids = [n] → n < 1024 →
  (s.mask { core := i.core, ctx := i.ctx } (n / 32) j.toNat).getLsbD (n % 32) = false →
  ∀ x ∈ [Instr.shflIdx g d a j, .shflUp g d a j, .shflDown g d a j, .shflXor g d a j, .matchLanes g d a j, .scanAdd g d a j,
      .scanAddEx g d a j, .redAdd g d a j, .redMin g d a j, .redMax g d a j, .fredAdd g d a j, .jset g a j, .jsetGrp g j,
      .join g j, .qmax g a j, .voteAny g pd pa j, .voteAll g pd pa j, .voteBallot g d pa j],
    ∃ t, exec x s = .next t ∧ (∀ w r, t.reg w r = s.reg w r) ∧ t.mem = s.mem ∧
      (t.strand { core := i.core, ctx := i.ctx, tid := some n }).pc = i.pc ∧
      ∃ tr, (t.ctx i.core i.ctx).traps = (s.ctx i.core i.ctx).traps ++ [tr] ∧ tr.cause = 5 ∧ tr.tid = some n ∧ tr.pc = i.pc) ∧
  (∀ (g : Guard) (a : Reg) (s : State) (i : Issue) (w : Who),
  ∀ x ∈ [Instr.mxcfg g a, .mxshape g a, .mxldw g a, .mxq g a, .mxdrain g, .npass g], Runs s i x w → Alive s w →
    s.holdsNeedle w = false → ∃ t, exec x s = .next t ∧ (t.core w.core).ops = (s.core w.core).ops ∧
      (t.core w.core).mx = (s.core w.core).mx ∧ (t.strand w).pc = i.pc ∧
      ∃ tr, (t.ctx w.core w.ctx).traps = (s.ctx w.core w.ctx).traps ++ [tr] ∧ tr.cause = 6)

/-! ### Control transfers (05 R119 to R129) -/

/-- R27, R119, R121: a transfer moves the PC of the executor that takes it and changes nothing else; a register's target
must be a multiple of 4.
R120: a call leaves the address of the next bundle in the link register; an indirect one reads its target first. -/
def Obligations.TransfersAndCalls : Prop :=
  (∀ (g : Guard) (a : Reg) (o : Imm 18),
  GoesTo (.bra g o) (fun _ i _ => i.pc + BitVec.ofInt 64 (4 * immSigned o)) ∧
  GoesTo (.brx g a) (fun s _ w => s.reg64 w a) ∧
  GoesTo (.ret g) (fun s _ w => s.reg64 w (if w.tid.isSome then 30#7 else 63#7))) ∧
  (∀ (g : Guard) (a : Reg) (o : Imm 18) (s : State) (i : Issue) (w : Who),
  let link : Reg := if w.tid.isSome then 30#7 else 63#7
  let back : DWord := i.pc + BitVec.ofNat 64 (4 * i.words)
  (Runs s i (.call g o) w → exec (.call g o) s =
    .next ((s.setReg64 w link back).setPc w (i.pc + BitVec.ofInt 64 (4 * immSigned o)))) ∧
  (Runs s i (.callx g a) w → (s.reg64 w a).toNat % 4 = 0 → exec (.callx g a) s =
    .next ((s.setReg64 w link back).setPc w (s.reg64 w a))))

/-- R120, R121, R353: a misaligned target of BRX, CALLX or RET is cause 3 with the target as its address: the executor stays at
the bundle, and no link is written.
R152, R154, R161, R162, R353: a misaligned access to global memory or to the scratchpad is cause 3 with its address or
offset, and a scratchpad access that leaves the launch's window is cause 4 with its offset; no register, no window and no byte
of memory changes. STC looks at its source in the window first, then at its core set, then at its line. -/
def Obligations.MisalignmentTraps : Prop :=
  (∀ (g : Guard) (a : Reg) (s : State) (i : Issue) (w : Who),
  let misaligned (x : Instr) (target : DWord) : Prop := Runs s i x w → Alive s w → target.toNat % 4 ≠ 0 → Traps s i w x 3 target
  misaligned (.brx g a) (s.reg64 w a) ∧ misaligned (.callx g a) (s.reg64 w a) ∧
  misaligned (.ret g) (s.reg64 w (if w.tid.isSome then 30#7 else 63#7))) ∧
  (∀ (g : Guard) (d a : Reg) (sz : BitVec 3) (ord scp : BitVec 2) (wd : BitVec 1)
    (off : Off) (s : State) (i : Issue) (w : Who),
  let may (x : Instr) : Prop := Runs s i x w ∧ Alive s w ∧ s.acquiring w = false
  let m := if wd = 1#1 then 8 else 4
  let globals : List (Instr × Nat) :=
    [(.ldg g d a sz off, 2 ^ sz.toNat), (.stg g d a sz off, 2 ^ sz.toNat), (.lda g d a wd scp off, m), (.stgRel g d a wd scp off, m)] ++
    [.atomAdd g d a ord scp wd off, .atomMin g d a ord scp wd off, .atomMax g d a ord scp wd off, .atomAnd g d a ord scp wd off,
      .atomOr g d a ord scp wd off, .atomXor g d a ord scp wd off, .xchg g d a ord scp wd off, .cas g d a ord scp wd off].map (·, m) ++
    [.xadd g d a ord scp off, .xrd g d a ord scp off, .xrd64 g d a ord scp off, .xclr g d a ord scp off].map (·, 64)
  let locals : List (Instr × Nat) :=
    [(.lds g d a sz off, 2 ^ sz.toNat), (.sts g d a sz off, 2 ^ sz.toNat)] ++
    [.atomsAdd g d a wd off, .atomsMin g d a wd off, .atomsMax g d a wd off, .atomsAnd g d a wd off, .atomsOr g d a wd off,
      .atomsXor g d a wd off, .atomsXchg g d a wd off, .atomsCas g d a wd off].map (·, m)
  let window : Int := s.smemSize w.core w.ctx
  (∀ x ∈ globals, may x.1 → (s.globalAddr w a off x.2).toNat % x.2 ≠ 0 → Traps s i w x.1 3 (s.globalAddr w a off x.2)) ∧
  (∀ x ∈ locals, may x.1 →
    let o : Int := s.smemAddr w a off x.2
    (o % (x.2 : Nat) ≠ 0 → Traps s i w x.1 3 (BitVec.ofInt 64 o)) ∧
    (o % (x.2 : Nat) = 0 → o < 0 ∨ window < o + (x.2 : Nat) → Traps s i w x.1 4 (BitVec.ofInt 64 o))) ∧
  (may (.stc g d a) →
    let o := (s.regs2 w d).1.toNat % 2 ^ 22
    (o % 64 ≠ 0 → Traps s i w (.stc g d a) 3 (BitVec.ofNat 64 o)) ∧
    (o % 64 = 0 → window < o + 64 → Traps s i w (.stc g d a) 4 (BitVec.ofNat 64 o)) ∧
    (o % 64 = 0 → (o : Int) + 64 ≤ window → decodeCoreSet (s.regs2 w d).2.toNat = none → Traps s i w (.stc g d a) 5 0#64) ∧
    (o % 64 = 0 → (o : Int) + 64 ≤ window → decodeCoreSet (s.regs2 w d).2.toNat ≠ none → (s.reg64 w a).toNat % 64 ≠ 0 →
      Traps s i w (.stc g d a) 3 (s.reg64 w a))))

/-- R122: EXIT ends the thread and leaves its rivals; NOP and PREF, under any guard, change nothing. -/
def Obligations.ExitNopPref : Prop := ∀ (g : Guard) (a : Reg) (h : BitVec 1) (off : Off) (s : State) (i : Issue),
  (∀ w n, Runs s i (.exit g) w → w.tid = some n → ∃ t, exec (.exit g) s = .next t ∧
    (∀ m, tblGet none (t.ctx w.core w.ctx).threads m = if m = n then none else tblGet none (s.ctx w.core w.ctx).threads m) ∧
    t.mem = s.mem ∧ ∀ c k, (c, k) ≠ (w.core, w.ctx) → t.ctx c k = s.ctx c k) ∧
  (s.cur = some i → exec (.nop g) s = .next s ∧ exec (.pref g a h off) s = .next s)

/-- R123 to R127: a loop opens with its count, its start after the bundle and its exit; a count of zero skips it.
R124: ENDL counts the innermost open loop down and goes back to its start, or closes it; BRK closes it and leaves. -/
def Obligations.Loops : Prop :=
  (∀ (g : Guard) (a : Reg) (o : Imm 12) (st : BitVec 2) (o10 : BitVec 10) (s : State) (i : Issue)
    (w : Who),
  let n : BitVec 32 := BitVec.ofNat 32 (s.reg w a)
  let l (off : Int) : Loop :=
    { count := n, start := i.pc + BitVec.ofNat 64 (4 * i.words), exitPc := i.pc + BitVec.ofInt 64 (4 * off), isOpen := true }
  let x := s.ctx w.core w.ctx
  (Runs s i (.loopLc0 g a o) w → x.lc0.isOpen = false → x.lc1.isOpen = false →
    (n = 0#32 → exec (.loopLc0 g a o) s = .next (s.setPc w (l (immSigned o)).exitPc)) ∧
    (n ≠ 0#32 → exec (.loopLc0 g a o) s = .next (s.setLoop0 w { l (immSigned o) with stages := x.lc0.stages }))) ∧
  (Runs s i (.loopLc1 g a o) w → x.lc1.isOpen = false →
    (n = 0#32 → exec (.loopLc1 g a o) s = .next (s.setPc w (l (immSigned o)).exitPc)) ∧
    (n ≠ 0#32 → exec (.loopLc1 g a o) s = .next (s.setLoop1 w (l (immSigned o))))) ∧
  (Runs s i (.loopp g a st o10) w → x.lc0.isOpen = false → x.lc1.isOpen = false →
    (n = 0#32 → exec (.loopp g a st o10) s = .next (s.setPc w (l o10.toInt).exitPc)) ∧
    (n ≠ 0#32 → exec (.loopp g a st o10) s =
      .next ((s.setLoop0 w { l o10.toInt with count := n - 1#32, pipelined := true, stages := st.toNat + 1 }).modCtx w.core w.ctx
        fun y => { y with q := firstStage y.q (st.toNat + 1) })))) ∧
  (∀ (g : Guard) (s : State) (i : Issue) (w : Who),
  let x := s.ctx w.core w.ctx
  let n0 := x.lc0.count - 1#32
  let n1 := x.lc1.count - 1#32
  (Runs s i (.endl g) w →
    (x.lc1.isOpen = true → n1 ≠ 0#32 → exec (.endl g) s = .next ((s.setLoop1 w { x.lc1 with count := n1 }).setPc w x.lc1.start)) ∧
    (x.lc1.isOpen = true → n1 = 0#32 → exec (.endl g) s = .next (s.setLoop1 w { x.lc1 with count := n1, isOpen := false })) ∧
    (x.lc1.isOpen = false → x.lc0.isOpen = true → x.lc0.pipelined = false →
      (n0 ≠ 0#32 → exec (.endl g) s = .next ((s.setLoop0 w { x.lc0 with count := n0 }).setPc w x.lc0.start)) ∧
      (n0 = 0#32 → exec (.endl g) s = .next (s.setLoop0 w { x.lc0 with count := n0, isOpen := false })))) ∧
  (Runs s i (.brk g) w →
    (x.lc1.isOpen = true → exec (.brk g) s = .next ((s.setLoop1 w { x.lc1 with isOpen := false }).setPc w x.lc1.exitPc)) ∧
    (x.lc1.isOpen = false → x.lc0.isOpen = true →
      exec (.brk g) s = .next ((s.setLoop0 w { x.lc0 with isOpen := false }).setPc w x.lc0.exitPc))))

/-- R126, R127: the stages of a pipelined loop turn by one at its ENDL, a new iteration entering while the count lasts; the
loop closes when no stage is live.
R127: from the ENDL at which a request stands, or once its drain has begun, no iteration enters and the count keeps every
iteration not yet started: while a stage is live the drain goes on at the body's start; with none live and iterations left
the loop stands there to be refilled, and with none left it closes. -/
def Obligations.PipelinedLoopTurns : Prop :=
  (∀ (g : Guard) (s : State) (i : Issue) (w : Who),
  let x := s.ctx w.core w.ctx
  Runs s i (.endl g) w → x.lc1.isOpen = false → x.lc0.isOpen = true → x.lc0.pipelined = true → x.lc0.draining = false →
  x.marked = false → 1 ≤ x.lc0.stages → x.lc0.stages ≤ 4 → ∃ t, exec (.endl g) s = .next t ∧
    let y := t.ctx w.core w.ctx
    (y.q.getLsbD 12 = (x.lc0.count != 0#32)) ∧
    (∀ k, 1 ≤ k → k < x.lc0.stages → y.q.getLsbD (12 + k) = x.q.getLsbD (11 + k)) ∧
    (∀ k, k < 12 → y.q.getLsbD k = x.q.getLsbD k) ∧
    (y.lc0.count = if x.lc0.count = 0#32 then 0#32 else x.lc0.count - 1#32) ∧
    (y.lc0.isOpen = true ↔ ∃ k < x.lc0.stages, y.q.getLsbD (12 + k) = true) ∧
    (y.lc0.isOpen = true → y.str.pc = x.lc0.start) ∧ y.s = x.s ∧ y.threads = x.threads ∧ t.mem = s.mem) ∧
  (∀ (g : Guard) (s : State) (i : Issue) (w : Who),
  let x := s.ctx w.core w.ctx
  Runs s i (.endl g) w → x.lc1.isOpen = false → x.lc0.isOpen = true → x.lc0.pipelined = true →
  x.lc0.draining = true ∨ x.marked = true → 1 ≤ x.lc0.stages → x.lc0.stages ≤ 4 → ∃ t, exec (.endl g) s = .next t ∧
    let y := t.ctx w.core w.ctx
    let live := ∃ k < x.lc0.stages, y.q.getLsbD (12 + k) = true
    y.q.getLsbD 12 = false ∧ y.lc0.count = x.lc0.count ∧
    (∀ k, 1 ≤ k → k < x.lc0.stages → y.q.getLsbD (12 + k) = x.q.getLsbD (11 + k)) ∧
    (∀ k, k < 12 → y.q.getLsbD k = x.q.getLsbD k) ∧
    (live → y.lc0 = { x.lc0 with draining := true } ∧ y.str.pc = x.lc0.start) ∧
    (¬ live → x.lc0.count ≠ 0#32 → y.lc0 = { x.lc0 with draining := false, refill := true } ∧ y.str.pc = x.lc0.start) ∧
    (¬ live → x.lc0.count = 0#32 → y.lc0 = { x.lc0 with draining := false, isOpen := false } ∧ y.str.pc = x.str.pc) ∧
    y.s = x.s ∧ y.threads = x.threads ∧ t.mem = s.mem)

/-! ### Memory (07 R152 to R169) -/

/-- R152 to R159: an aligned load whose page translates is served by the L1, or joins the outstanding loads with its
destination. -/
def Obligations.LoadsIssue : Prop := ∀ (g : Guard) (d a : Reg) (sz : BitVec 3) (wd : BitVec 1) (scp : BitVec 2) (off : Off)
    (s s1 : State) (i : Issue) (w : Who) (pa : Nat) (cached : Bool),
  let load (x : Instr) (n : Nat) (viaL1 acquire wide : Bool) : Prop :=
    let va := s.globalAddr w a off n
    Runs s i x w → s.acquiring w = false → va.toNat % n = 0 → s.xlat w i.pc .read va = (.ok pa cached, s1) →
    (inCtl pa = true → n = 8) →
      (∀ l, (viaL1 && cached && s1.canHit w (lineOf pa) && !s1.scrubbing pa) = true → l1Find (s1.core w.core).l1 (lineOf pa) = some l →
        exec x s = .next ((s1.setDest w (dataDest w d n) (lineGet l.data (pa % 64) n)).modCore w.core fun co =>
          { co with l1 := l1Touch co.l1 (lineOf pa) })) ∧
      ((viaL1 && cached && s1.canHit w (lineOf pa) && !s1.scrubbing pa) = false ∨ l1Find (s1.core w.core).l1 (lineOf pa) = none →
        exec x s = .next (s1.addLoad {
          id := 0, who := w, part := s1.partOf w.core w.ctx, pa, va, size := n, dst := dataDest w d n, acquire, wide
          fill := viaL1 && cached }))
  load (.ldg g d a sz off) (2 ^ sz.toNat) true false false ∧
  load (.lda g d a wd scp off) (if wd = 1#1 then 8 else 4) (scp == 0#2) true (scp != 0#2)

/-- R152 to R154, R156, R158, R159, R161, R162: an aligned store whose page translates joins the outstanding writes with its
address, its bytes and what it releases; no byte of memory changes yet. A plain store to a launch ring's TAIL releases at sys
scope (R293). -/
def Obligations.StoresIssue : Prop := ∀ (g : Guard) (d a : Reg) (sz : BitVec 3) (wd : BitVec 1) (scp : BitVec 2) (off : Off)
    (s s1 : State) (i : Issue) (w : Who) (pa : Nat) (cached : Bool),
  let tail : Bool := (List.range 8).any fun p => pa == ctlBase + offHLQ p + 24
  let store (x : Instr) (n : Nat) (release wide : Bool) : Prop :=
    let va := s.globalAddr w a off n
    Runs s i x w → s.acquiring w = false → va.toNat % n = 0 → s.xlat w i.pc .write va = (.ok pa cached, s1) →
    (inCtl pa = true → n = 8) →
      let t : Store :=
        { id := 0, who := w, part := s1.partOf w.core w.ctx, pa, va, kind := .plain n (s1.dataIn w d n), release, wide }
      exec x s = .next (s1.addStore t) ∧ ∀ b, byteAt (s1.addStore t).mem b = byteAt s1.mem b
  store (.stg g d a sz off) (2 ^ sz.toNat) tail tail ∧
  store (.stgRel g d a wd scp off) (if wd = 1#1 then 8 else 4) true (scp != 0#2) ∧
  (∀ set, Runs s i (.stc g d a) w → s.acquiring w = false → (s.reg64 w a).toNat % 64 = 0 →
    (s.regs2 w d).1.toNat % 2 ^ 22 % 64 = 0 → (s.regs2 w d).1.toNat % 2 ^ 22 + 64 ≤ s.smemSize w.core w.ctx →
    decodeCoreSet (s.regs2 w d).2.toNat = some set → s.xlat w i.pc .write (s.reg64 w a) = (.ok pa true, s1) →
      exec (.stc g d a) s = .next (s1.addStore {
        id := 0, who := w, part := s1.partOf w.core w.ctx, pa, va := s.reg64 w a
        kind := .cast (BitVec.ofNat 512 (readBytes i.seen ((s.regs2 w d).1.toNat % 2 ^ 22) 64))
          (set.filter (· != w.core)) }))

/-- R152, R155, R158, R168: scratchpad accesses perform at once, within the launch's window.
R152: where a scratchpad store lands: the window's bytes of the access hold the operand, every other byte of the window
and all of global memory stay. -/
def Obligations.ScratchpadAccesses : Prop :=
  (∀ (g : Guard) (d a : Reg) (sz : BitVec 3) (wd : BitVec 1) (off : Off) (s : State)
    (i : Issue) (w : Who) (o : Nat),
  let slot := s.slotOf w.core w.ctx
  let fits (n : Nat) : Prop := s.smemAddr w a off n = o ∧ o % n = 0 ∧ o + n ≤ s.smemSize w.core w.ctx ∧ s.acquiring w = false
  let n := 2 ^ sz.toNat
  let m := if wd = 1#1 then 8 else 4
  let atom (x : Instr) (f : Nat → Nat → Nat) : Prop := Runs s i x w → fits m → exec x s =
    .next ((s.smemWrite w.core slot o m (f (s.smemRead w.core slot o m) (s.dataIn w d m))).setDest w (dataDest w d m)
      (s.smemRead w.core slot o m))
  (Runs s i (.lds g d a sz off) w → fits n → exec (.lds g d a sz off) s =
    .next (s.setDest w (dataDest w d n) (s.smemRead w.core slot o n))) ∧
  (Runs s i (.sts g d a sz off) w → fits n → exec (.sts g d a sz off) s =
    .next (s.smemWrite w.core slot o n (s.dataIn w d n))) ∧
  atom (.atomsAdd g d a wd off) (fun old x => (old + x) % 2 ^ (8 * m)) ∧
  atom (.atomsMin g d a wd off) (fun old x => if signedAt (8 * m) x < signedAt (8 * m) old then x else old) ∧
  atom (.atomsMax g d a wd off) (fun old x => if signedAt (8 * m) old < signedAt (8 * m) x then x else old) ∧
  atom (.atomsAnd g d a wd off) (fun old x => old &&& x) ∧
  atom (.atomsOr g d a wd off) (fun old x => old ||| x) ∧
  atom (.atomsXor g d a wd off) (fun old x => old ^^^ x) ∧
  atom (.atomsXchg g d a wd off) (fun _ x => x) ∧
  atom (.atomsCas g d a wd off) (fun old x => if old = x then s.dataNext w d m else old)) ∧
  (∀ (g : Guard) (d a : Reg) (sz : BitVec 3) (off : Off) (s t : State) (i : Issue)
    (w : Who) (o : Nat),
  let n := 2 ^ sz.toNat
  let slot := s.slotOf w.core w.ctx
  Runs s i (.sts g d a sz off) w → s.smemAddr w a off n = o → ((s.core w.core).resv.any fun r => r.slot == slot) = true →
  o % n = 0 → o + n ≤ s.smemSize w.core w.ctx → s.acquiring w = false → exec (.sts g d a sz off) s = .next t →
    t.smemRead w.core slot o n = s.dataIn w d n ∧
    (∀ b, b < o ∨ o + n ≤ b → byteAt ((t.core w.core).window slot) b = byteAt ((s.core w.core).window slot) b) ∧
    (∀ b, byteAt t.mem b = byteAt s.mem b) ∧ (∀ v r, t.reg v r = s.reg v r) ∧ ∀ v p, t.pred v p = s.pred v p)

/-- R163, R164: an invalidation at die scope or wider drops the demand copy and keeps a pushed one; a pin joins the pinned lines,
where only a line of its own set can leave for it, and that only where twelve of the set are pinned; an unpin takes it out. -/
def Obligations.CacheHints : Prop := ∀ (g : Guard) (a : Reg) (scp : BitVec 2) (off : Off) (s s1 : State) (i : Issue) (w : Who)
    (pa : Nat) (cached : Bool),
  let va := s.globalAddr w a off 1
  s.acquiring w = false → s.xlat w i.pc .read va = (.ok pa cached, s1) →
    (Runs s i (.cinv g a scp off) w →
      (scp = 0#2 → exec (.cinv g a scp off) s = .next s1) ∧
      (scp ≠ 0#2 → ∃ t, exec (.cinv g a scp off) s = .next t ∧ t.mem = s1.mem ∧
        (∀ x ∈ (t.core w.core).l1, x.line = lineOf pa → x.pushed = true) ∧
        (∀ x ∈ (s1.core w.core).l1, x.line ≠ lineOf pa ∨ x.pushed = true → x ∈ (t.core w.core).l1) ∧
        ∀ l ∈ (t.core w.core).loads, lineOf l.pa = lineOf pa → l.fill = false)) ∧
    (Runs s i (.cpin g a off) w → cached = true → ∃ t, exec (.cpin g a off) s = .next t ∧ lineOf pa ∈ t.homes.pins ∧
      (∀ l ∈ t.homes.pins, l = lineOf pa ∨ l ∈ s1.homes.pins) ∧
      (∀ l ∈ s1.homes.pins, s1.setKey l ≠ s1.setKey (lineOf pa) → l ∈ t.homes.pins) ∧
      ((s1.homes.pins.filter fun l => s1.setKey l == s1.setKey (lineOf pa)).length < 12 → ∀ l ∈ s1.homes.pins, l ∈ t.homes.pins) ∧
      t.mem = s1.mem ∧ t.cores = s1.cores) ∧
    (Runs s i (.cunpin g a off) w → ∃ t, exec (.cunpin g a off) s = .next t ∧ lineOf pa ∉ t.homes.pins ∧
      (∀ l, l ≠ lineOf pa → (l ∈ t.homes.pins ↔ l ∈ s1.homes.pins)) ∧ t.mem = s1.mem ∧ t.cores = s1.cores)

/-- R165 to R169: a global atomic joins the outstanding writes with its operation, its operands and where its old value
returns.
R86: from a cleared line, additions whose finite magnitudes sum below 2^298 leave the same 512 bits in every order, and from
any line so do additions none of which is finite and nonzero. -/
def Obligations.GlobalAtomics : Prop :=
  (∀ (g : Guard) (d a : Reg) (ord scp : BitVec 2) (wd : BitVec 1) (off : Off)
    (s s1 : State) (i : Issue) (w : Who) (pa : Nat) (cached : Bool),
  let n := if wd = 1#1 then 8 else 4
  let put (va : DWord) (kind : WriteKind) (dst : Dest) : Res :=
    .next (s1.addStore {
      id := 0, who := w, part := s1.partOf w.core w.ctx, pa, va, kind, dst, release := ord.getLsbD 1
      acquire := ord.getLsbD 0, wide := scp != 0#2 })
  let atom (x : Instr) (op : AtomOp) : Prop :=
    let va := s.globalAddr w a off n
    Runs s i x w → s.acquiring w = false → va.toNat % n = 0 → s.xlat w i.pc .write va = (.ok pa cached, s1) → inCtl pa = false →
      exec x s = put va (.atom op (wd == 1#1) (BitVec.ofNat 64 (s1.dataIn w d n)) 0#64) (dataDest w d n)
  let xal (x : Instr) (op : XalOp) (acc : Access) (dst : Dest) : Prop :=
    let va := s.globalAddr w a off 64
    Runs s i x w → s.acquiring w = false → va.toNat % 64 = 0 → s.xlat w i.pc acc va = (.ok pa true, s1) →
      exec x s = put va (.xal op (BitVec.ofNat 32 (s1.reg w d))) dst
  atom (.atomAdd g d a ord scp wd off) .add ∧ atom (.atomMin g d a ord scp wd off) .min ∧ atom (.atomMax g d a ord scp wd off) .max ∧
  atom (.atomAnd g d a ord scp wd off) .and ∧ atom (.atomOr g d a ord scp wd off) .or ∧ atom (.atomXor g d a ord scp wd off) .xor ∧
  atom (.xchg g d a ord scp wd off) .xchg ∧
  (let va := s.globalAddr w a off n
   Runs s i (.cas g d a ord scp wd off) w → s.acquiring w = false → va.toNat % n = 0 →
   s.xlat w i.pc .write va = (.ok pa cached, s1) → inCtl pa = false → exec (.cas g d a ord scp wd off) s =
     put va (.atom .cas (wd == 1#1) (BitVec.ofNat 64 (s1.dataNext w d n)) (BitVec.ofNat 64 (s1.dataIn w d n))) (dataDest w d n)) ∧
  xal (.xadd g d a ord scp off) .add .write none ∧ xal (.xrd g d a ord scp off) .rd32 .read (dataDest w d 4) ∧
  xal (.xrd64 g d a ord scp off) .rd64 .read (dataDest w d 8) ∧ xal (.xclr g d a ord scp off) .clr .write (dataDest w d 4)) ∧
  (∀ (line : Line) (xs ys : List Nat), xs.Perm ys →
  let finite (x : Nat) : Nat := match fp32.decode x with | .fin _ k => k | _ => 0
  ((xs.map finite).sum < 2 ^ 447 → xs.foldl xalAdd 0#512 = ys.foldl xalAdd 0#512) ∧
  ((∀ x ∈ xs, finite x = 0) → xs.foldl xalAdd line = ys.foldl xalAdd line))

/-! ### Fences, barriers and arrival words (07 R171 to R181) -/

/-- R159, R171 to R173: a fence, a drain or a counter wait goes on when its condition holds, an acquire at die scope or wider
dropping the demand lines, a release taking its place among the executor's releases; otherwise the executor waits at its bundle
and no register and no byte changes. -/
def Obligations.FencesAndDrains : Prop := ∀ (g : Guard) (scp : BitVec 2) (k n : F6) (s : State) (i : Issue) (w : Who),
  let wide := scp != 0#2
  let acquired (u : State) := if scp = 0#2 then u else u.dropDemand w.core
  let released := s.modStrand w fun x => { x with rel := s.fresh }
  let waits (x : Instr) : Prop := ∃ t, exec x s = .next t ∧ t.mem = s.mem ∧ (∀ v r, t.reg v r = s.reg v r) ∧
    t.cur = some { i with waits := i.waits ++ [w.key] }
  (Runs s i (.fenceAcq g scp) w →
    ((s.loadsDone w && s.atomsDone w) = true → exec (.fenceAcq g scp) s = .next (acquired s)) ∧
    (Alive s w → (s.loadsDone w && s.atomsDone w) = false → waits (.fenceAcq g scp))) ∧
  (Runs s i (.fenceRel g scp) w →
    (s.releaseReady w wide = true → exec (.fenceRel g scp) s = .next released) ∧
    (Alive s w → s.releaseReady w wide = false → waits (.fenceRel g scp))) ∧
  (Runs s i (.fenceAr g scp) w →
    ((s.releaseReady w wide && s.atomsDone w) = true → exec (.fenceAr g scp) s = .next (acquired released)) ∧
    (Alive s w → (s.releaseReady w wide && s.atomsDone w) = false → waits (.fenceAr g scp))) ∧
  (Runs s i (.drain g) w →
    ((s.loadsDone w && s.ownStoresDone w && s.castsDone w) = true → exec (.drain g) s = .next s) ∧
    ((s.loadsDone w && s.ownStoresDone w && s.castsDone w) = false → waits (.drain g))) ∧
  (Runs s i (.waitc g k n) w →
    (s.opCount w k.toNat ≤ n.toNat → exec (.waitc g k n) s = .next s) ∧
    (n.toNat < s.opCount w k.toNat → waits (.waitc g k n)))

/-- R174 to R176: a thread arrives at a barrier once its release is ready (R330; log 17) and waits there; when every live thread
of its launch on the core has arrived, those of spilled contexts too, all of them may go on, and not before; the thread that
goes on takes what it had under way as released (R327, R329). Of a lead's descriptor bits [31:0] are read (log 74). An arrival at a grid barrier is counted, one more for its core,
in the oldest open generation of its descriptor or in a new one, and joins the strand's generations; the arrival that makes
every core of the subgroup complete completes the generation. A wait whose generations have passed goes on as an acquire. -/
def Obligations.Barriers : Prop := ∀ (g : Guard) (a : Reg) (s : State) (i : Issue) (w : Who),
  let desc : BitVec 32 := BitVec.ofNat 32 (s.reg w a)
  let slot := s.slotOf w.core w.ctx
  let waits (x : Instr) (m : Wait) : Prop := ∃ t, exec x s = .next t ∧ (t.strand w).wait = m ∧ t.mem = s.mem ∧
    (∀ v r, t.reg v r = s.reg v r) ∧ t.cur = some { i with waits := i.waits ++ [w.key] }
  (Runs s i (.bar g) w →
    ((s.strand w).wait = .barGo → exec (.bar g) s = .next (s.modStrand w fun x => { x with rel := s.fresh, wait := .none })) ∧
    (Alive s w → (s.strand w).wait ≠ .barGo → s.releaseReady w false = true → waits (.bar g) .barArrived) ∧
    (Alive s w → (s.strand w).wait ≠ .barGo → s.releaseReady w false = false → waits (.bar g) (s.strand w).wait)) ∧
  (let arrived (r : Resv) : Prop := s.launchThreads w.core r.slot ≠ [] ∧
     (∀ x ∈ s.launchThreads w.core r.slot, x.2.wait = .barArrived) ∧
     ∀ x ∈ s.sched.spilled, x.core = w.core → x.task.slot = r.slot → x.saved.barred = true
   (∀ pre r post, (s.core w.core).resv = pre ++ r :: post → (∀ q ∈ pre, ¬ arrived q) → arrived r →
     ∀ x ∈ s.launchThreads w.core r.slot, ((completeBars w.core s).strand x.1).wait = .barGo) ∧
   ((∀ r ∈ (s.core w.core).resv, ¬ arrived r) → completeBars w.core s = s)) ∧
  (∀ l cores, Runs s i (.gbara g a) w → Alive s w → s.launchOf w.core w.ctx = some l →
    subgroup l w.core w.tid.isNone desc.toNat = some cores → s.releaseReady w true = true →
    (desc ∈ trackedDescs s.sched.gens slot w.core ∨ (trackedDescs s.sched.gens slot w.core).length < 8) →
    let e := arrivalsPerCore l desc.toNat
    let oldest := s.sched.gens.find? fun m =>
      m.slot == slot && m.desc == desc && m.done.isNone && decide (tblGet 0 m.arrived w.core < e)
    ∃ t n, exec (.gbara g a) s = .next t ∧ n ∈ t.sched.gens ∧ n.slot = slot ∧ n.desc = desc ∧
      (t.strand w).gens = (s.strand w).gens ++ [(desc, n.id)] ∧
      (∀ m, oldest = some m → n.id = m.id ∧ tblGet 0 n.arrived w.core = tblGet 0 m.arrived w.core + 1 ∧
        ∀ c, c ≠ w.core → tblGet 0 n.arrived c = tblGet 0 m.arrived c) ∧
      (oldest = none → n.id = s.fresh ∧ tblGet 0 n.arrived w.core = 1 ∧ ∀ c, c ≠ w.core → tblGet 0 n.arrived c = 0) ∧
      (∀ m ∈ s.sched.gens, m.id ≠ n.id → m ∈ t.sched.gens) ∧
      (∀ m, s.sched.gens = [m] → oldest = some m →
        (n.done.isSome = true ↔ ∀ c ∈ cores, e ≤ tblGet 0 n.arrived c) ∧ (n.done.isSome = true → ∀ c ∈ n.waking, c ∈ cores)) ∧
      t.mem = s.mem ∧ t.cur = s.cur ∧ ∀ v r, t.reg v r = s.reg v r) ∧
  (∀ l cores, Runs s i (.gbarw g a) w → Alive s w → s.launchOf w.core w.ctx = some l →
    subgroup l w.core w.tid.isNone desc.toNat = some cores → (∃ id, (desc, id) ∈ (s.strand w).gens) →
    ((∀ id, (desc, id) ∈ (s.strand w).gens → s.genPassed w.core id = true) →
      ∃ t, exec (.gbarw g a) s = .next t ∧ (t.strand w).wait = .none ∧
        (∀ e, e ∈ (t.strand w).gens ↔ e ∈ (s.strand w).gens ∧ e.1 ≠ desc) ∧
        (∀ x ∈ (t.core w.core).l1, x.pushed = true) ∧ t.mem = s.mem ∧ t.cur = s.cur) ∧
    (∀ id, (desc, id) ∈ (s.strand w).gens → s.genPassed w.core id = false → waits (.gbarw g a) (.gbar desc)))

/-- R178 to R181: an arrival word starts with both halves equal; an arrival counts down, and the phase turns with a reload
when nothing is pending; a wait goes on when the phase has turned and stands at its bundle until then; a test reads the phase.
Misuse of a word, in what it holds or in what is asked of it, is cause 7 with its offset. -/
def Obligations.ArrivalWords : Prop := ∀ (g : Guard) (d a : Reg) (h : BitVec 1) (k : F6) (s : State) (i : Issue) (w : Who) (o : Nat),
  let slot := s.slotOf w.core w.ctx
  let at_ (r : Reg) : Prop := s.reg w r % 2 ^ 22 = o ∧ o % 16 = 0 ∧ o + 16 ≤ s.smemSize w.core w.ctx ∧ s.acquiring w = false
  let v := s.smemRead w.core slot o 16
  let arr := (s.regs2 w a).2.toNat
  let byt := (s.regs2 w a).1.toNat
  let half := arr * 2 ^ 32 + byt
  (Runs s i (.awinit g d a) w → at_ d → arr < 65536 → (arr ≠ 0 ∨ byt ≠ 0) →
    exec (.awinit g d a) s = .next (s.smemWrite w.core slot o 16 (half + half * 2 ^ 64))) ∧
  (Runs s i (.awadd g d a) w → at_ d → s.releaseReady w false = true → awSound v = true → 0 < s.reg w a →
    s.reg w a ≤ bitsOf v 32 16 → exec (.awadd g d a) s =
      .next ((s.modStrand w fun x => { x with rel := s.fresh }).smemWrite w.core slot o 16 (awArrive v (s.reg w a) 0))) ∧
  (Runs s i (.awwait g d h) w → at_ d → awSound v = true → v.testBit 63 = (h == 1#1) →
    exec (.awwait g d h) s = .next s) ∧
  (Runs s i (.awwait g d h) w → at_ d → awSound v = true → v.testBit 63 ≠ (h == 1#1) →
    exec (.awwait g d h) s = .next { s with cur := some { i with waits := i.waits ++ [w.key] } }) ∧
  (Runs s i (.awtest g k a) w → at_ a → awSound v = true → exec (.awtest g k a) s = .next (s.setPred w k.toNat (v.testBit 63))) ∧
  (let misuse (x : Instr) (r : Reg) (c : Prop) : Prop := Runs s i x w → Alive s w → at_ r → c → Traps s i w x 7 (BitVec.ofNat 64 o)
   misuse (.awinit g d a) d (65536 ≤ arr ∨ (arr = 0 ∧ byt = 0)) ∧
   (s.releaseReady w false = true → misuse (.awadd g d a) d
     (s.reg w a = 0 ∨ 65536 ≤ s.reg w a ∨ bitsOf v 32 16 < s.reg w a ∨ awSound v = false)) ∧
   misuse (.awwait g d h) d (awSound v = false) ∧ misuse (.awtest g k a) a (awSound v = false))

/-- R178: an arrival on a sound word that is owed both arrivals and bytes counts the arrivals off and leaves phase, bytes and
the reload half; the last one, with no bytes owed, turns the phase and reloads. -/
def Obligations.ArrivalCounts : Prop := ∀ (v n : Nat), v < 2 ^ 128 → awSound v = true → 0 < n → n ≤ bitsOf v 32 16 →
  let u := awArrive v n 0
  bitsOf u 64 64 = bitsOf v 64 64 ∧ u < 2 ^ 128 ∧ u.testBit 62 = false ∧
  ((n < bitsOf v 32 16 ∨ bitsOf v 0 32 ≠ 0) →
    bitsOf u 32 16 = bitsOf v 32 16 - n ∧ bitsOf u 0 32 = bitsOf v 0 32 ∧ u.testBit 63 = v.testBit 63) ∧
  ((n = bitsOf v 32 16 ∧ bitsOf v 0 32 = 0) →
    bitsOf u 32 16 = bitsOf v 96 16 ∧ bitsOf u 0 32 = bitsOf v 64 32 ∧ u.testBit 63 = !v.testBit 63)

/-! ### Engine commands (08 R182 to R211) -/

/-- R182 to R184, R187, R194, R203, R206 to R211: a sound command that its engine has room for joins the core's operations,
bearing its issuer, its launch, its partition, its mode and its descriptor, read as the cycle began; a lender of power wakes
(R264); a copy or gather clears its status block. That a command waits until what the engine must see has performed is the
model's way to R329 and R351 (log 66). -/
def Obligations.EngineCommandsAccepted : Prop := ∀ (g : Guard) (a : Reg) (e : BitVec 2) (n : F6) (s : State) (i : Issue)
    (w : Who) (o : Nat),
  let slot := s.slotOf w.core w.ctx
  let desc (size : Nat) : Nat := readBytes i.seen o size
  let at_ (align size : Nat) : Prop :=
    s.reg w a % 2 ^ 22 = o ∧ o % align = 0 ∧ o + size ≤ s.smemSize w.core w.ctx ∧ s.acquiring w = false
  let room (kind : OpKind) : Prop := s.engineSees w = true ∧ ∀ c, opClass kind = some c → s.opCount w c < 63
  let u := s.wakeLender w.core
  let joins (op : Op) : State :=
    ({ u with fresh := u.fresh + 1 }.modCore w.core fun co => { co with
      ops := co.ops ++ [{ op with
        id := u.fresh, who := w, slot, win := slot, part := s.partOf w.core w.ctx, user := !s.privileged w
        mxe := ((s.launchOf w.core w.ctx).map Launch.mxe).getD false, pair := co.mx.pair, epoch := co.mx.epoch
        books := w.ctx }] }).startMatrix w.core
  let takes (x : Instr) (align size : Nat) (check : EngCheck) (held : Bool) (op : Op) : Prop :=
    Runs s i x w → at_ align size → check.passes (s.smemSize w.core w.ctx) → held = false → room op.kind →
      exec x s = .next (joins op)
  (∀ tag, Runs s i (if tag then .cpyTag g a else .cpy g a) w → at_ 64 64 →
    (s.copyCheck w tag (desc 64)).passes (s.smemSize w.core w.ctx) → s.heldOps w.core isCopy < 64 → room (.copy tag) →
      exec (if tag then .cpyTag g a else .cpy g a) s =
        .next ((joins (newOp w (.copy tag) (desc 64))).smemWrite w.core slot (copyStat (desc 64)) 16 0)) ∧
  (Runs s i (.gath g a e) w → at_ 32 32 → (gathCheck (gathSize e) (desc 32)).passes (s.smemSize w.core w.ctx) →
    s.heldOps w.core isGather < 32 → room (.gather (gathSize e)) →
      exec (.gath g a e) s =
        .next ((joins (newOp w (.gather (gathSize e)) (desc 32))).smemWrite w.core slot (gathStat (desc 32)) 16 0)) ∧
  takes (.ray g a) 64 64 (rayCheck (desc 64)) (128 ≤ s.heldOps w.core isRayQueue) (newOp w (.ray false) (desc 64)) ∧
  takes (.rayAny g a) 64 64 (rayCheck (desc 64)) (128 ≤ s.heldOps w.core isRayQueue) (newOp w (.ray true) (desc 64)) ∧
  takes (.ovlp g a) 64 64 (ovlpCheck (desc 64)) (128 ≤ s.heldOps w.core isRayQueue) (newOp w .ovlp (desc 64)) ∧
  takes (.refit g a) 32 32 (refitCheck (desc 32)) (128 ≤ s.heldOps w.core isRayQueue) (newOp w .refit (desc 32)) ∧
  ((s.ctx w.core w.ctx).closing = false → (s.ctx w.core w.ctx).closed = false →
    takes (.draw g a) 64 64 (drawCheck (desc 64)) (8 ≤ s.drawsHeld (coreDie w.core)) (s.newDraw w false (desc 64)) ∧
    takes (.drawEz g a) 64 64 (drawCheck (desc 64)) (8 ≤ s.drawsHeld (coreDie w.core)) (s.newDraw w true (desc 64))) ∧
  (Runs s i (.cbload g n a) w → at_ 32 32 → room (.cbload n.toNat) →
    (if ((s.launchOf w.core w.ctx).map Launch.mxe).getD false then s.matrixHeld w.core < 16 else s.portHeld w.core < 8) →
      exec (.cbload g n a) s = .next (joins { newOp w (.cbload n.toNat) o with off := o }))

/-- R195 to R202, R204, R205, R276: matrix commands of the context that holds the needle; MXCFG's pair takes effect as the bundle
commits.
R193, R198: the status word of a copy and the needle's state are read into a register. -/
def Obligations.MatrixCommands : Prop :=
  (∀ (g : Guard) (a : Reg) (s : State) (i : Issue) (w : Who) (o : Nat),
  let slot := s.slotOf w.core w.ctx
  let mx := (s.core w.core).mx
  let desc (size : Nat) : Nat := readBytes i.seen o size
  let at_ (align size : Nat) : Prop :=
    s.reg w a % 2 ^ 22 = o ∧ o % align = 0 ∧ o + size ≤ s.smemSize w.core w.ctx ∧ s.acquiring w = false
  let room : Prop := s.engineSees w = true ∧ s.opCount w 2 < 63 ∧ s.matrixHeld w.core < 16
  let u := s.wakeLender w.core
  let joins (op : Op) : State :=
    ({ u with fresh := u.fresh + 1 }.modCore w.core fun co => { co with
      ops := co.ops ++ [{ op with
        id := u.fresh, who := w, slot, win := slot, part := s.partOf w.core w.ctx, user := !s.privileged w
        mxe := ((s.launchOf w.core w.ctx).map Launch.mxe).getD false, pair := co.mx.pair, epoch := co.mx.epoch
        books := w.ctx }] }).startMatrix w.core
  s.holdsNeedle w = true →
    (Runs s i (.mxcfg g a) w → s.reg w a % 8 < 5 → s.heldOps w.core isTileOrLoad = 0 →
      (s.reg w a % 8 = mx.pair → exec (.mxcfg g a) s = .next s) ∧
      (s.reg w a % 8 ≠ mx.pair → exec (.mxcfg g a) s = .next { s with cur := some { i with mxcfg := some (s.reg w a % 8) } } ∧
        ∀ b : Bundle, b.yield = false →
          ({ s with cur := some { i with mxcfg := some (s.reg w a % 8) } } : State).finishIssue b none =
            ({ s with cur := none } : State).modMx i.core fun m =>
              { m with pair := s.reg w a % 8, latched := none, fmtAcc := none })) ∧
    (Runs s i (.mxshape g a) w → 1 ≤ s.reg w a → s.reg w a ≤ 4 → s.engineSees w = true → s.matrixHeld w.core < 16 → exec (.mxshape g a) s =
      .next ((joins (newOp w .mxshape (s.reg w a))).modMx w.core fun m => { m with shapeAcc := s.reg w a })) ∧
    (Runs s i (.mxldw g a) w → at_ 16 16 → (ldwCheck mx.pair (desc 16)).passes (s.smemSize w.core w.ctx) → room →
      exec (.mxldw g a) s =
        .next ((joins (newOp w .mxldw (desc 16))).modMx w.core fun m => { m with fmtAcc := some (ldwFmt (desc 16)) })) ∧
    (Runs s i (.mxq g a) w → at_ 64 64 → (mxqCheck mx (desc 64)).passes (s.smemSize w.core w.ctx) → room →
      exec (.mxq g a) s = .next (joins (newOp w .mxq (desc 64)))) ∧
    (Runs s i (.mxdrain g) w →
      (∀ op ∈ (s.core w.core).ops, op.queued = true → op.state = .complete ∨ s.isEarlier op.id = false) →
      exec (.mxdrain g) s = .next s) ∧
    (Runs s i (.ntake g) w → exec (.ntake g) s = .next s) ∧
    (Runs s i (.npass g) w → exec (.npass g) s = .next { s with cur := some { i with passes := i.passes + 1 } })) ∧
  (∀ (g : Guard) (d a : Reg) (s : State) (i : Issue) (w : Who) (o : Nat),
  (Runs s i (.cpys g d a) w → s.reg w a % 2 ^ 22 = o → o % 16 = 0 → o + 16 ≤ s.smemSize w.core w.ctx → s.acquiring w = false →
    exec (.cpys g d a) s = .next (s.setReg64 w d (BitVec.ofNat 64 (readBytes i.seen o 8)))) ∧
  (Runs s i (.ntest g d) w → exec (.ntest g d) s = .next (s.setReg w d (s.needleStatus w.core))))

/-! ### Tasks, launches and items (09 R214 to R229) -/

/-- R215, R218: TENQ writes the launch's slot into the record and registers it, ready when its JOIN is zero; TDEC counts JOIN
down at the record's home, and an excess is marked. That both perform at the home within the issuing step is the model's way
(log 18).
R220, R222: a bad launch record is refused with its reason; a sound one joins the pending queue with status 0; where four
stand there it is written to the launch's overflow queue with status 1, and refused with reason 9 where that is full. Its
reads perform within the issuing step (log 18).
R227: SETDL writes six bytes of the running task's record and the task's own deadline; where no task runs it changes
nothing. Where the record's line holds poison the executor hears of it (22 R347). It performs within the issuing step (log 18). -/
def Obligations.RecordInstructions : Prop :=
  (∀ (g : Guard) (a : Reg) (s s1 s2 s3 u : State) (i : Issue) (w : Who) (pa pa2 : Nat)
    (c c2 : Bool) (l : Launch),
  let va := s.reg64 w a
  let by_ : Agent := .strand w i.pc
  (s.releaseReady w true = true → s.acquiring w = false → va.toNat % 64 = 0 → inCtl pa = false →
    (Runs s i (.tenq g a) w → s.xlat w i.pc .read va = (.ok pa c, s1) → s1.reachHome by_ w false pa = (true, s2) →
      s2.acquiring w = false → s2.xlat w i.pc .write va = (.ok pa2 c2, s3) → inCtl pa2 = false →
      s3.reachHome by_ w true pa2 = (true, u) →
      let slot := u.slotOf w.core w.ctx
      u.poisonAt pa2 = 0 → u.launchOf w.core w.ctx = some l → recSound (u.homeRead pa2 64) = true → u.queueUse slot < l.tqn →
        exec (.tenq g a) s = .next ((u.homeWrite (pa2 + 30) 2 slot).register slot l va pa2
          (l.serves (coreDie w.core)).1 (l.serves (coreDie w.core)).2 none false)) ∧
    (Runs s i (.tdec g a) w → s.xlat w i.pc .write va = (.ok pa c, s1) → s1.reachHome by_ w true pa = (true, u) →
      let join := u.homeRead (pa + 16) 8
      u.poisonAt pa = 0 → exec (.tdec g a) s = .next (if join % 2 ^ 32 = 0 then u.homeWrite (pa + 16) 8 (join ||| 2 ^ 36)
        else if join % 2 ^ 32 = 1 then (u.homeWrite (pa + 16) 8 (join - 1)).joined pa else u.homeWrite (pa + 16) 8 (join - 1)))) ∧
  (∀ slot va pa die onDie onCore startItem, let bits := s.homeRead pa 64
    let t := s.register slot l va pa die onDie onCore startItem
    t.mem = s.mem ∧ t.cores = s.cores ∧ t.sched.recs = s.sched.recs ++ [
      { key := s.fresh, slot, addr := va, pa, level := min (fld bits 2 32 3) l.level, die, onDie, onCore, startItem
        ready := if fld bits 2 0 32 = 0 then some s.ps else none }]) ∧
  (∀ pa, (s.joined pa).mem = s.mem ∧ ∀ r, r ∈ (s.joined pa).sched.recs ↔
    (r ∈ s.sched.recs ∧ (r.pa ≠ pa ∨ r.ready.isSome = true)) ∨
    ∃ q ∈ s.sched.recs, q.pa = pa ∧ q.ready = none ∧ r = { q with ready := some s.ps })) ∧
  (∀ (g : Guard) (d a : Reg) (s s1 u0 u s3 : State) (i : Issue) (w : Who) (pa : Nat)
    (c : Bool) (entry : EntryRead),
  let va := s.reg64 w a
  let by_ : Agent := .strand w i.pc
  let bits := u.homeRead pa 128
  let reason := s3.checkLaunch bits (u.partOf w.core w.ctx) (u.privileged w) (entry.found.map (·.2))
  Runs s i (.lnch g d a) w → s.releaseReady w true = true → s.acquiring w = false → va.toNat % 128 = 0 →
  s.xlat w i.pc .read va = (.ok pa c, s1) → inCtl pa = false → s1.reachHome by_ w false pa = (true, u0) →
  u0.reachHome by_ w false (pa + 64) = (true, u) → u.poisonAt pa = 0 → u.poisonAt (pa + 64) = 0 →
  u.entryRecord by_ (coreDie w.core) (u.partOf w.core w.ctx) (!u.privileged w) bits = (entry, s3) → entry ≠ .wait →
  (∀ e, entry ≠ .poison e) →
    (reason ≠ 0 → exec (.lnch g d a) s = .next (s3.setReg w d (2 + 16 * reason))) ∧
    (reason = 0 → (s3.ctx w.core w.ctx).pending.length < 4 → exec (.lnch g d a) s =
      .next ((s3.modCtx w.core w.ctx fun x =>
        { x with pending := x.pending ++ [{ addr := va, bits, user := !s3.privileged w }] }).setReg w d 0)) ∧
    (∀ l, reason = 0 → 4 ≤ (s3.ctx w.core w.ctx).pending.length → s3.launchOf w.core w.ctx = some l →
      (l.oqn ≤ l.ovTail - l.ovHead → exec (.lnch g d a) s = .next (s3.setReg w d (2 + 16 * 9))) ∧
      (∀ s4 s5 s6 pb c2, l.ovTail - l.ovHead < l.oqn → s3.acquiring w = false →
        s3.xlat w i.pc .write (BitVec.ofNat 64 (l.oqb + 128 * (l.ovTail % l.oqn))) = (.ok pb c2, s4) → inCtl pb = false →
        s4.reachHome by_ w true pb = (true, s5) → s5.reachHome by_ w true (pb + 64) = (true, s6) →
        let z := (((s6.homeWrite pb 64 (bits % 2 ^ 512)).homeWrite (pb + 64) 64 (bits / 2 ^ 512)).modLaunch
          (s3.slotOf w.core w.ctx) fun l => { l with ovTail := l.ovTail + 1, ovq := l.ovq ++ [(coreDie w.core, va)] }).setReg w d 1
        z.poisonAt pb = 0 → z.poisonAt (pb + 64) = 0 → exec (.lnch g d a) s = .next z))) ∧
  (∀ (g : Guard) (a : Reg) (s s1 s2 : State) (i : Issue) (w : Who) (k : Task) (pa : Nat) (c : Bool),
  Runs s i (.setdl g a) w →
    ((s.ctx w.core w.ctx).task = none → exec (.setdl g a) s = .next s) ∧
    ((s.ctx w.core w.ctx).task = some k → s.acquiring w = false → s.xlat w i.pc .write (k.record + 24#64) = (.ok pa c, s1) →
      inCtl pa = false → s1.reachHome (.strand w i.pc) w true pa = (true, s2) →
      let z := (s2.homeWrite pa 6 (s.reg w a % 2 ^ 48)).modCtx w.core w.ctx fun x =>
        { x with task := some { k with deadline := BitVec.ofNat 48 (s.reg w a) } }
      (z.poisonAt pa = 0 → exec (.setdl g a) s = .next z) ∧
      ∀ e, z.poisonAt pa = e + 1 →
        exec (.setdl g a) s = .next (z.asyncTrap w 16 e (k.record + 24#64) 0#64 (if w.tid.isNone then 1 else 0))))

/-- R224 to R227: items are queued while the queue is open and has room; a wave starts its threads with their entry, their
argument and their number; a wave is waited for until no thread is live.
R128, R129: an item that may be popped is popped; a closed and empty queue ends the loop over it. -/
def Obligations.ItemsAndWaves : Prop :=
  (∀ (g : Guard) (d a b : Reg) (s : State) (i : Issue) (w : Who),
  let x := s.ctx w.core w.ctx
  (Runs s i (.iqpush g a) w → x.closing = false → x.closed = false → x.queue.length < 256 → exec (.iqpush g a) s =
    .next (s.modCtx w.core w.ctx fun y => { y with queue := y.queue ++ [s.reg64 w a], fresh := y.fresh + 1 })) ∧
  (Runs s i (.iqclose g) w → exec (.iqclose g) s = .next (s.modCtx w.core w.ctx fun y => { y with closing := true })) ∧
  (Runs s i (.wavew g) w → x.threads = [] → exec (.wavew g) s = .next s) ∧
  (∀ l, Runs s i (.wave g d a b) w → s.launchOf w.core w.ctx = some l →
    let n := s.reg w d % 2 ^ 16
    let warp := s.reg w d / 2 ^ 16 % 2 ^ 5
    s.reg w d < 2 ^ 21 → 0 < n → 32 * warp + n ≤ l.thr → (s.reg64 w a).toNat % 4 = 0 → s.releaseReady w false = true →
    s.warpsIdle w.core (s.slotOf w.core w.ctx) warp ((n + 31) / 32) = true → ∃ t, exec (.wave g d a b) s = .next t ∧ t.mem = s.mem ∧
      ∀ k < n, ∃ th, tblGet none (t.ctx w.core w.ctx).threads (32 * warp + k) = some th ∧ th.str.pc = s.reg64 w a ∧
        tblGet 0#32 th.g 0 = (s.reg64 w b).extractLsb' 0 32 ∧ tblGet 0#32 th.g 1 = (s.reg64 w b).extractLsb' 32 32 ∧
        tblGet 0#32 th.g 2 = BitVec.ofNat 32 k ∧ (∀ r, 3 ≤ r → tblGet 0#32 th.g r = 0#32) ∧ th.p = 0#48)) ∧
  (∀ (g : Guard) (a : Reg) (o : Imm 12) (s : State) (i : Issue) (w : Who),
  let x := s.ctx w.core w.ctx
  Runs s i (.item g a o) w →
    (∀ v rest, x.queue = v :: rest → x.fresh < x.queue.length →
      exec (.item g a o) s = .next ((s.setReg64 w a v).modCtx w.core w.ctx fun y => { y with queue := rest })) ∧
    (x.queue = [] → x.closed = true → exec (.item g a o) s = .next (s.setPc w (i.pc + BitVec.ofInt 64 (4 * immSigned o)))))

/-- R228, R229: the sillage table of the issuer's die. RESTAG places a window's or a pin's entry (each line of a pin where the
issuer's own read of it goes, and one line for a pin of 0 bytes, which is the model's reading: log 84; performed within the
step: log 18) and answers 0 for a new one, 1 for one replaced, 2 where the table is full; RESQ reads the entry of a tile with
the low 32 bits of its count, a pin's holder being any value (log 49); RESDROP drops it. -/
def Obligations.SillageInstructions : Prop := ∀ (g : Guard) (d a : Reg) (s : State) (i : Issue) (w : Who) (o : Nat),
  let die := coreDie w.core
  let part := s.partOf w.core w.ctx
  let tile : BitVec 32 := BitVec.ofNat 32 (s.reg w a)
  let v := readBytes i.seen o 16
  let bytes := bitsOf v 32 32
  let e : Sillage := { part, tile := BitVec.ofNat 32 v, pin := v.testBit 127, core := w.core, addr := bitsOf v 64 57, bytes
                       slot := s.slotOf w.core w.ctx }
  let puts (e : Sillage) : Prop := exec (.restag g d a) s = .next ((s.sillagePut die e).2.setReg w d (s.sillagePut die e).1)
  (Runs s i (.restag g d a) w → s.reg w a % 2 ^ 22 = o → o % 16 = 0 → o + 16 ≤ s.smemSize w.core w.ctx → s.acquiring w = false →
    (v.testBit 127 = false → bitsOf v 64 22 + bytes ≤ s.smemSize w.core w.ctx → bytes ≠ 0 → bitsOf v 86 41 = 0 → puts e) ∧
    (∀ (line : Nat → Nat) (cached : Nat → Bool), let k := max 1 ((bytes + 63) / 64)
      v.testBit 127 = true → bitsOf v 121 6 = 0 → bitsOf v 64 57 % 64 = 0 →
      (∀ n < k, s.xlat w i.pc .read (sext57 (bitsOf v 64 57) + BitVec.ofNat 64 (64 * n)) = (.ok (64 * line n) (cached n), s) ∧
        inCtl (64 * line n) = false) →
      (∀ n, n + 1 < k → (bitsOf v 64 57 / 64 + n) % 64 ≠ 63 → line (n + 1) = line n + 1) →
        puts { e with addr := line 0, lines := (List.range k).map fun n => (line n, min 64 (bytes - 64 * n)) })) ∧
  (∀ e : Sillage, let l := s.sillage die
    let r := s.sillagePut die e
    let has := l.any fun x => x.part == e.part && x.tile == e.tile
    (has = true → r.1 = 1 ∧ ∀ x, x ∈ r.2.sillage die ↔ x = e ∨ (x ∈ l ∧ ¬ (x.part = e.part ∧ x.tile = e.tile))) ∧
    (has = false → l.length < 4096 → r.1 = 0 ∧ r.2.sillage die = l ++ [e]) ∧
    (has = false → 4096 ≤ l.length → r = (2, s)) ∧ r.2.mem = s.mem ∧ r.2.cores = s.cores) ∧
  (Runs s i (.resq g d a) w → ∃ q : DWord, exec (.resq g d a) s = .next (s.setReg64 w d q) ∧
    ((∀ e ∈ s.sillage die, ¬ (e.part = part ∧ e.tile = tile)) → q = 0#64) ∧
    (∀ e, (s.sillage die).find? (fun e => e.part == part && e.tile == tile) = some e → (e.pin = false → e.core < 1024) →
      q.getLsbD 63 = true ∧ q.getLsbD 62 = e.pin ∧ q.extractLsb' 42 20 = 0#20 ∧
      (e.pin = false → (q.extractLsb' 32 10).toNat = e.core) ∧ (q.extractLsb' 0 32).toNat = e.bytes % 2 ^ 32)) ∧
  (Runs s i (.resdrop g a) w → ∃ t, exec (.resdrop g a) s = .next t ∧
    (∀ e, e ∈ t.sillage die ↔ e ∈ s.sillage die ∧ ¬ (e.part = part ∧ e.tile = tile)) ∧ t.mem = s.mem ∧ t.cores = s.cores)

/-! ### Special registers, CSRs, traps and translation (09 R230 to R240; 24 R357) -/

/-- R69, R70, R230, R233: a special register or a CSR is read into a register, or a CSR written, by those who may.
R69, R231: what the special registers hold.
R70, R354, R320: TRAPVEC, GAUGE and GAUGERATE keep their fields and drop their reserved bits; what was written is read. -/
def Obligations.RegistersReadAndWritten : Prop :=
  (∀ (g : Guard) (d : Reg) (f : F6) (c : BitVec 12) (s : State) (i : Issue) (w : Who),
  (Runs s i (.movsr g d f) w → specialLegal w f.toNat = true → exec (.movsr g d f) s =
    .next (if specialWide f.toNat then s.setReg64 w d (BitVec.ofNat 64 (s.special w f.toNat))
      else s.setReg w d (s.special w f.toNat % 2 ^ 32))) ∧
  (Runs s i (.csrr g d c) w → csrAssigned c = true → s.csrAllowed w c.toNat false = true →
    exec (.csrr g d c) s = .next (s.setReg64 w d (s.csr w c.toNat))) ∧
  (Runs s i (.csrw g d c) w → csrAssigned c = true → s.privileged w = true → s.csrAllowed w c.toNat true = true →
    (c ≠ 0x804#12 → exec (.csrw g d c) s = .next (s.writeCsr w c.toNat (s.reg64 w d))) ∧
    ∀ t, c = 0x804#12 → (s.writeSavebase (.strand w i.pc) (s.reg64 w d) = (true, t) → exec (.csrw g d c) s = .next t) ∧
      (s.writeSavebase (.strand w i.pc) (s.reg64 w d) = (false, t) → exec (.csrw g d c) s = .next (markWait w t)))) ∧
  (∀ (s : State) (w : Who),
  s.special w 0 = s.ps / 1000 ∧ s.special w 1 = (s.core w.core).cyc.toNat ∧ s.special w 2 = (s.core w.core).stall.toNat ∧
  s.special w 5 = w.core ∧ s.special w 6 = w.ctx ∧
  (∀ n, w.tid = some n → s.special w 7 = n ∧ s.special w 8 * 32 + s.special w 9 = n ∧ s.special w 9 < 32) ∧
  ∀ l, s.launchOf w.core w.ctx = some l → s.special w 10 = l.width ∧ s.special w 11 = l.height ∧ s.special w 12 = l.part) ∧
  (∀ (s : State) (w : Who) (v : DWord),
  (s.writeCsr w 0x801 v).csr w 0x801 = v &&& 0x1FFFFFFFFFFC001#64 ∧
  (s.writeCsr w 0x802 v).csr w 0x802 = v &&& 0x1FFF#64 ∧
  (s.writeCsr w 0x803 v).csr w 0x803 = v &&& 0xFFFF#64 ∧
  (∀ c, c ≠ w.core → (s.writeCsr w 0x801 v).core c = s.core c) ∧ (s.writeCsr w 0x801 v).mem = s.mem)

/-- R40, R66, R48: a privileged form in a user's hands is cause 2, whatever its guard; no register and no byte of memory
changes, and the executor stays at the bundle. -/
def Obligations.PrivilegeTraps : Prop := ∀ (g : Guard) (d a : Reg) (c : BitVec 12) (s : State) (i : Issue) (w : Who),
  IssuingOne s i w → Alive s w → s.privileged w = false → csrAssigned c = true →
  ∀ x ∈ [Instr.csrw g d c, .eret g, .tlbinv g a, .own g a, .ctxsv g a, .ctxld g a], ∃ t, exec x s = .next t ∧
    (∀ v r, t.reg v r = s.reg v r) ∧ t.mem = s.mem ∧ (t.strand w).pc = i.pc ∧
    ∃ tr, (t.ctx w.core w.ctx).traps = (s.ctx w.core w.ctx).traps ++ [tr] ∧ tr.cause = 2 ∧ tr.tid = w.tid ∧ tr.user = true

/-- R234, R236, R237: a trap lists cause 11 with its code and leaves the PC at the bundle; a set event flag is taken; a call
joins the bundle's calls; an event is set in a context of the issuer's own partition.
R217, R237, 24 R357, R369: a return from the handler of a context waits for what the handler wrote, and for its frame, and
acts on the trap that it handled, by ACT: its thread goes to the region entry, to the bundle or past it, or ends; its lead
strand goes likewise, or is aborted, once the release that its yield would be is complete. Then the trap is dropped, and the
next one is delivered, or the lead strand is restored from its frame and the four CSRs read zero. A delivery loads the next
trap into the CSRs and enters the handler. -/
def Obligations.TrapsCallsAndEvents : Prop :=
  (∀ (g : Guard) (d a : Reg) (s s1 : State) (i : Issue) (w : Who),
  (Runs s i (.trap g a) w → Alive s w → ∃ t tr, exec (.trap g a) s = .next t ∧
    (t.ctx w.core w.ctx).traps = (s.ctx w.core w.ctx).traps ++ [tr] ∧ tr.cause = 11 ∧ tr.tid = w.tid ∧ tr.pc = i.pc ∧
    tr.info = BitVec.ofNat 64 (s.reg w a % 65536) ∧ tr.regionPc = (s.strand w).regionPc ∧ tr.regionCnt = (s.strand w).regionCnt ∧
    (t.strand w).pc = i.pc ∧ (∀ v r, t.reg v r = s.reg v r) ∧ t.mem = s.mem) ∧
  (Runs s i (.wfe g) w → (s.ctx w.core w.ctx).event = true → exec (.wfe g) s =
    .next (s.modCtx w.core w.ctx fun x => { x with event := false })) ∧
  (Runs s i (.evsig g a) w → s.reg w a < 2 ^ 13 → s.reg w a % 2 ^ 10 < 640 →
    (if isServiceCtx (s.reg w a % 2 ^ 10) (s.reg w a / 2 ^ 10) then 0 else s.corePart (s.reg w a % 2 ^ 10)) = s.partOf w.core w.ctx →
    exec (.evsig g a) s =
      .next (s.modCtx (s.reg w a % 2 ^ 10) (s.reg w a / 2 ^ 10) fun x => { x with event := true })) ∧
  (Runs s i (.svc g d a) w → isServiceCtx w.core w.ctx = false → s.releaseReady w true = true →
    let x : DWord := s.reg64 w a
    let y : DWord := match w.tid with | none => s.sreg w (a.toNat + 1) | some n => s.gpair w n (a.toNat + 2)
    let calls := i.calls ++ [(w, d.toNat, x, y)]
    let off := s.ringOff (coreDie w.core) (s.partOf w.core w.ctx)
    (callBatches calls).length ≤ s.ringRoom off → s.ringReady (.strand w i.pc) off (callBatches calls).length = (true, s1) → s1.cur = s.cur →
      exec (.svc g d a) s = .next { s1 with cur := some { i with calls } })) ∧
  (∀ (g : Guard) (s s1 s2 : State) (i : Issue) (w : Who) (pas : List Nat) (ws : List Word)
    (c k n : Nat) (t : Trap) (rest : List Trap),
  (let x := s.ctx w.core w.ctx
   let by_ : Agent := .strand w i.pc
   let frame := s.leadFrame w.core w.ctx
   Runs s i (.eret g) w → s.privileged w = true → w.tid = none → x.handler = true → x.traps = t :: rest →
   (s.loadsDone w && s.ownStoresDone w) = true →
   (x.act t = 3 → t.tid = none →
     (s.abortReady w = true → exec (.eret g) s = .next (s.eret w.core w.ctx 0 [])) ∧
     (s.abortReady w = false → exec (.eret g) s = .next (markWait w s))) ∧
   (x.act t ≠ 3 ∨ t.tid.isSome = true → (∀ y l, rest = y :: l → y.service = none) →
     s.span by_ (coreDie w.core) (s.partOf w.core w.ctx) false .write frame none 16 = (.ok pas, s1) →
     s1.poisoned (if rest = [] then pas.take 12 else (pas.drop 11).take 2) = false →
     (x.act t ≠ 2 → exec (.eret g) s = .next (s1.eret w.core w.ctx 0 pas)) ∧
     (x.act t = 2 → s1.fetchWords w by_ false x.trapPc 4 [] = (.ok ws, s2) →
       exec (.eret g) s = .next (s2.eret w.core w.ctx ws.length pas)))) ∧
  (let x := s.ctx c k
   let act := if bitsOf x.trapCause.toNat 46 2 = 2 ∧ 16 ≤ t.cause then 3 else bitsOf x.trapCause.toNat 46 2
   let dest : DWord := if act = 0 then x.trapRegion else if act = 1 then x.trapPc else x.trapPc + BitVec.ofNat 64 (4 * n)
   x.traps = t :: rest → x.handler = true →
   (act = 3 → t.tid = none → s.eret c k n pas = s.abortTask c k) ∧
   ((act ≠ 3 ∨ t.tid.isSome = true) →
    ∃ z : State, (z.ctx c k).traps = rest ∧
      (∀ m, t.tid = some m → (tblGet none x.threads m).isSome = true → t.exited = false →
        (act = 3 → tblGet none (z.ctx c k).threads m = none) ∧
        (act ≠ 3 → t.exk ≠ 2 → ((z.ctx c k).thread m).str.pc = dest) ∧
        ∀ l, l ≠ m → tblGet none (z.ctx c k).threads l = tblGet none x.threads l) ∧
      (t.tid.isNone = true ∨ t.exited = true → (z.ctx c k).threads = x.threads) ∧
      (rest ≠ [] → s.eret c k n pas = z.deliverAt c k false pas) ∧
      (rest = [] → let y := (s.eret c k n pas).ctx c k
        let f := z.peekLines pas
        y.traps = [] ∧ y.handler = false ∧ y.trapCause = 0#64 ∧ y.trapPc = 0#64 ∧ y.trapRegion = 0#64 ∧ y.trapCount = 0#64 ∧
        y.threads = (z.ctx c k).threads ∧ y.s = tblOf 64 64 8 (bytesAt f 0xC0 512) ∧ y.q = BitVec.ofNat 16 (bytesAt f 0x2C0 2) ∧
        y.str.pc = BitVec.ofNat 64 (bytesAt f 0x2C8 8) ∧ y.str.regionPc = BitVec.ofNat 64 (bytesAt f 0x2D0 8) ∧
        y.lc0.count = BitVec.ofNat 32 (bytesAt f 0 4) ∧ y.lc1.count = BitVec.ofNat 32 (bytesAt f 0x60 4) ∧
        (t.tid = none → t.exk = 1 → 12 ≤ pas.length → s.keyed = false → s.poisonAt (pas.getD 11 0 + 8) = 0 →
          s.forward (pas.getD 11 0 + 8) = s.forward (pas.getD 11 0) + 8 → y.str.pc = dest)))) ∧
  ((s.ctx c k).traps = t :: rest →
    s.span (.context c k) (coreDie c) (s.partOf c k) (!s.privileged { core := c, ctx := k }) .write (s.leadFrame c k) none 16 =
      (.ok pas, s1) →
    (s1.forget (.context c k)).poisoned pas = false → let y := (s.deliver c k).ctx c k
      y.handler = true ∧ y.traps = t :: rest ∧ y.trapCause = t.causeWord ∧ y.trapPc = t.pc ∧ y.trapRegion = t.regionPc ∧
      y.trapCount = t.regionCnt.setWidth 64 ∧ y.str.pc = s.handlerEntry c ∧ tblGet 0#64 y.s 0 = s.leadFrame c k ∧
      tblGet 0#64 y.s 1 = s.leadFrame c k + 0x300#64 ∧ ∀ n, 2 ≤ n → tblGet 0#64 y.s n = tblGet 0#64 (s.ctx c k).s n))

/-- R238 to R240, R303: ownership that stands or has come (which ends the wait whatever the region does next: log 77), or that is
waited for; a translation dropped; a task saved, the wait over when the task that it named has left the context (log 57); a
task restored to the context held for it, or the lowest free one. -/
def Obligations.OwnershipAndSavedContexts : Prop := ∀ (g : Guard) (a : Reg) (s s1 : State) (i : Issue) (w : Who) (pa : Nat) (c : Bool)
    (k : Task),
  s.privileged w = true →
    (Runs s i (.own g a) w → s.acquiring w = false →
      s.xlat w i.pc .read (sext57 ((s.reg64 w a).toNat / 2 ^ 21 % 2 ^ 36 * 2 ^ 21)) = (.ok pa c, s1) →
      let host := (s.reg64 w a).getLsbD 0
      let there := s1.region (regionOf pa) = regionOwner host ∨ (s1.strand w).wait = .ownDone
      (there → exec (.own g a) s = .next s1) ∧
      (¬ there → inCtl pa = false → exec (.own g a) s = .next (waitAs w (.own (regionOf pa) host)
        (if host then s1.wantHost (regionOf pa) else s1.wantAcc (regionOf pa))))) ∧
    (Runs s i (.tlbinv g a) w → (s.strand w).wait = .tlbinvDone → exec (.tlbinv g a) s =
      .next (s.modStrand w fun x => { x with wait := .none })) ∧
    (∀ came, Runs s i (.ctxsv g a) w → (s.strand w).wait = .ctxsv ((s.reg64 w a).toNat % 8) came →
      (∀ t, (s.ctx w.core ((s.reg64 w a).toNat % 8)).task = some t → t.came ≠ came) →
      exec (.ctxsv g a) s = .next (s.modStrand w fun x => { x with wait := .none })) ∧
    (Runs s i (.ctxsv g a) w → (s.strand w).wait = .none → (s.reg64 w a).toNat < 8 → (s.reg64 w a).toNat ≠ w.ctx →
      isServiceCtx w.core (s.reg64 w a).toNat = false → (s.ctx w.core (s.reg64 w a).toNat).task = some k →
      s.partOf w.core (s.reg64 w a).toNat = s.partOf w.core w.ctx →
      exec (.ctxsv g a) s = .next (waitAs w (.ctxsv (s.reg64 w a).toNat k.came) s)) ∧
    (∀ sp l hw pas was s2, Runs s i (.ctxld g a) w → s.spilledAt w.core (s.reg64 w a) = some sp →
      s.frameSpan (.strand w i.pc) (coreDie w.core) sp.frame 0 1 = (.ok pas, s1) →
      sp.matchesFrame (s1.homeRead (pas.getD 0 0) 64) = true →
      fld (s1.homeRead (pas.getD 0 0) 64) 2 0 64 = sp.task.record.toNat → s1.launch sp.task.slot = some l →
      ((s1.hasResv w.core sp.task.slot || fitsBeside l (s1.reserved w.core)) && s1.mxFree w.core sp.task.slot l) = true →
      s1.hwFor w.core sp.key = some hw → s1.spilledWaits sp.key = false →
      s1.resume (.strand w i.pc) sp hw = (.ok was, s2) → exec (.ctxld g a) s = .next s2)

/-- R31, R34, R124, R217: an empty bundle of a header's run issues: the run goes on, and after its last one the PC moves past the
header; the last one of a yield, which waits for the task's threads and its pending launches, begins the task's yield and
closes its loops. A region entered again counts as R358 says (log 54). -/
def Obligations.EmptyBundles : Prop := ∀ (e w4 : BitVec 4) (y m : BitVec 1) (x : BitVec 14) (s : State) (i : Issue) (w : Who),
  IssuingOne s i w → Alive s w →
  (y = 0#1 ∨ (s.strand w).run < e.toNat ∨ ((s.ctx w.core w.ctx).threads = [] ∧ (s.ctx w.core w.ctx).pending = [])) →
  ((s.strand w).reentry = true → (s.strand w).pc = (s.strand w).regionPc) → ∃ t, exec (.emptyBundle e y m w4 x) s = .next t ∧
    ((s.strand w).run < e.toNat → (t.strand w).run = (s.strand w).run + 1 ∧ (t.strand w).pc = (s.strand w).pc) ∧
    ((s.strand w).run = e.toNat → (t.strand w).run = 0 ∧ (t.strand w).pc = (s.strand w).pc + 4#64 ∧
      (y = 1#1 → w.tid = none → let u := t.ctx w.core w.ctx
        u.yielding = true ∧ u.lc0.isOpen = false ∧ u.lc1.isOpen = false)) ∧
    (m = 1#1 → (s.strand w).run = 0 →
      (t.strand w).regionPc = (s.strand w).pc ∧ (t.strand w).regionCnt = (s.strand w).regionCnt + 1) ∧
    (m = 0#1 ∨ (s.strand w).run ≠ 0 → (t.strand w).regionPc = (s.strand w).regionPc ∧ (t.strand w).regionCnt =
      (s.strand w).regionCnt + (if (s.strand w).reentry = true ∧ (s.strand w).run = 0 then 1 else 0)) ∧
    t.mem = s.mem ∧ ∀ v r, t.reg v r = s.reg v r

/-! ### Homes and messages (21 R323 to R336; 02 R33; 20 R319, R320; 12 R266) -/

/-- R325, R323, R165: a read whose turn it is takes the line as its home holds it, with the core's own older writes over it; a
plain write whose turn it is, of up to 16 bytes, puts exactly its bytes at its home, as they read there, and leaves the core's
list; an atomic replaces its location by what its operation makes of it and has the old value to return. An operation on an
exact accumulator (R83 to R85, R169) adds its value exactly to the line's integer, reads it rounded once, or clears it. A cast
line is written whole, takes an entry of the directory, and its casts begin to leave (R161, R331, R334). -/
def Obligations.HomesPerform : Prop := ∀ (s s2 : State) (core id : Nat),
  (∀ l, (s.core core).findLoad id = some l → l.data = none → s.readTurn core l = true → inCtl l.pa = false →
    s.readAllowed core l = (true, s) → s.poisonAt l.pa = 0 →
    s.regulate (.access core l.id) (regulatorOf l.who l.part) l.pa = (true, s2) →
    ∃ t, exec (.homeRead core id) s = .next t ∧
      (t.core core).findLoad id = some { l with data := some (s.readLine core l), err := 0 } ∧ t.mem = s.mem) ∧
  (∀ x, (s.core core).findStore id = some x → x.done = false → x.acks = none →
    (core, id) ∉ s.homes.held → s.writeTurn core x = true → s.releaseDue core x = true → inCtl x.pa = false →
    s.region (regionOf (s.forward x.pa)) = .acc → s.scrubbing (s.forward x.pa) = false → s.migLocked x.pa = false →
    s.poisonAt x.pa = 0 → s.lineBusy (s.homeOf x.pa) x.id = false →
    s.regulate (.access core x.id) (regulatorOf x.who x.part) x.pa = (true, s2) →
    s.castEntry (lineOf (s.forward x.pa)) = none →
    let q := s.forward x.pa
    let apart (t : State) (n : Nat) : Prop := (∀ a, a < q ∨ q + n ≤ a → t.memBytes a 1 = s.memBytes a 1) ∧
      (s.keyed = false → ∀ a, a < q ∨ q + n ≤ a → byteAt t.mem a = byteAt s.mem a)
    let returns (t : State) (value : Nat) : Prop :=
      (t.core core).findStore id = some { x with done := true, acks := none, value, err := 0 } ∧ ∀ v r, t.reg v r = s.reg v r
    (∀ len data, x.kind = .plain len data → len ≤ 16 → ∃ t, exec (.homeWrite core id) s = .next t ∧
      t.homeRead x.pa len = data % 256 ^ len ∧ apart t len ∧
      (∀ y ∈ (t.core core).stores, y.id ≠ id) ∧ ∀ v r, t.reg v r = s.reg v r) ∧
    (∀ op w64 a cmp, x.kind = .atom op w64 a cmp →
      let n := if w64 then 8 else 4
      let old := s.homeRead x.pa n
      ∃ t, exec (.homeWrite core id) s = .next t ∧
        t.homeRead x.pa n = atomApply op (8 * n) old (a.toNat % 2 ^ (8 * n)) (cmp.toNat % 2 ^ (8 * n)) ∧ apart t n ∧ returns t old) ∧
    (x.pa % 64 = 0 → q % 64 = 0 →
      let old := s.homeRead x.pa 64
      let acc : Int := toSigned 448 old
      let nan := old.testBit 448 || old.testBit 451 || (old.testBit 449 && old.testBit 450)
      let reads (f : Fmt) (units v : Nat) : Prop :=
        if nan then v = f.nan else if old.testBit 449 then v = f.inf else if old.testBit 450 then v = f.signBit true + f.inf
        else f.Rounds 0 false (acc * (units : Nat)) 1 v
      (∀ v, x.kind = .xal .add v → ∃ t, exec (.homeWrite core id) s = .next t ∧ apart t 64 ∧ returns t 0 ∧
        let now := t.homeRead x.pa 64
        let sets (n : Nat) (c : Bool) : Prop := now.testBit n = (old.testBit n || c)
        let d := fp32.decode v.toNat
        let sum : Int := acc + match d with | .fin neg k => signedUnits neg k | _ => 0
        now < 2 ^ 452 ∧ toSigned 448 now = sum.bmod (2 ^ 448) ∧ sets 448 (d == .nan) ∧ sets 449 (d == .inf false) ∧
        sets 450 (d == .inf true) ∧ sets 451 (decide (sum < -((2 ^ 447 : Nat) : Int) ∨ ((2 ^ 447 : Nat) : Int) ≤ sum))) ∧
      (∀ op v, x.kind = .xal op v → op ≠ .add → ∃ t value, exec (.homeWrite core id) s = .next t ∧ apart t 64 ∧ returns t value ∧
        t.homeRead x.pa 64 = (if op = .clr then 0 else old) ∧
        (if op = .rd64 then reads fp64 (2 ^ 925) value else reads fp32 1 value)) ∧
      (∀ data cores, x.kind = .cast data cores → (∀ y ∈ s.homes.stcs, y.id ≠ x.id) → ∃ t, exec (.homeWrite core id) s = .next t ∧
        t.homeRead x.pa 64 = data.toNat ∧ apart t 64 ∧ (∀ y ∈ (t.core core).stores, y.id ≠ id) ∧ (∀ v r, t.reg v r = s.reg v r) ∧
        let used := (s.homes.castDir.filter fun e => s.sliceOf (64 * e.line) == s.sliceOf q).length
        ∀ c rest, cores = c :: rest →
          (used < 8192 → (∃ e ∈ t.homes.castDir, e.line = lineOf q ∧ e.pending = cores ∧ e.holders = [] ∧ e.stc = x.id) ∧
            ∃ m ∈ t.homes.msgs, m.core = c ∧ m.line = lineOf q ∧ ∃ part sent, m.kind = .cast x.id part sent ∧ sent = data) ∧
          (8192 ≤ used → t.homes.castDir = s.homes.castDir ∧
            ∃ y ∈ t.homes.stcs, y.id = x.id ∧ y.refused = cores.length ∧ y.waiting = []))))

/-- R33: a return writes its destination, unless it is discarded, and leaves the outstanding accesses; memory stays. -/
def Obligations.ReturnsLand : Prop := ∀ (s : State) (core id : Nat),
  (∀ l d, (s.core core).findLoad id = some l → l.data = some d → l.err = 0 →
    (∀ k ∈ (s.core core).loads, id ≤ k.id ∨ lineOf k.pa ≠ lineOf l.pa ∨ k.data = none) →
    ∃ t, exec (.loadReturn core id false) s = .next t ∧ t.mem = s.mem ∧ (∀ k ∈ (t.core core).loads, k.id ≠ id) ∧
      ∀ v r, t.reg v r = (if l.discard then s else s.setDest l.who l.dst (lineGet d (l.pa % 64) l.size)).reg v r) ∧
  (∀ x, (s.core core).findLoad id = none → (s.core core).findStore id = some x → x.done = true → x.err = 0 →
    ∃ t, exec (.loadReturn core id false) s = .next t ∧ t.mem = s.mem ∧ (∀ y ∈ (t.core core).stores, y.id ≠ id) ∧
      ∀ v r, t.reg v r = (if x.discard then s else s.setDest x.who x.dst x.value).reg v r)

/-- R332, R334, R335: an invalidation takes the core's copy and is acknowledged; the last acknowledgement lets the write
perform, and one that its write no longer waits for moves no pending target; a cast is installed as a pushed line or refused, and either is answered.
R319, R331, R334 to R336: the answers to casts move a core between the masks of the line's entry and count; with the last of
them the sender is told; a completion adds the refusals to the sender's CASTREF, which saturates. -/
def Obligations.CoherenceMessages : Prop :=
  (∀ (s : State) (msg n core line : Nat),
  (∀ store from_, s.firstMsg msg = some { id := n, core, line, kind := .invalidate store from_ } →
    ∃ t, exec (.invalidationArrive msg) s = .next t ∧ (∀ x ∈ (t.core core).l1, x.line ≠ line) ∧ t.mem = s.mem ∧
      ∃ m ∈ t.homes.msgs, m.core = core ∧ m.line = line ∧ m.kind = .ack store from_) ∧
  (∀ store from_ x, s.firstMsg msg = some { id := n, core, line, kind := .ack store from_ } →
    (s.core from_).findStore store = some x →
    (core ∈ x.acks.getD [] → (∀ k ∈ x.acks.getD [], k = core) →
      exec (.invalidationAck msg) s = .next (((s.dropMsg msg).modCast line fun e =>
        { e with holders := e.holders.filter (· != core), pending := e.pending.filter (· != core) }).finishWrite from_ x)) ∧
    (core ∉ x.acks.getD [] → exec (.invalidationAck msg) s = .next ((s.dropMsg msg).modCast line fun e =>
      { e with holders := e.holders.filter (· != core) }))) ∧
  (∀ stc part data, s.firstMsg msg = some { id := n, core, line, kind := .cast stc part data } →
    ∃ t, exec (.castArrive msg) s = .next t ∧ t.mem = s.mem ∧
      if s.castRefuses core part then
        (t.core core).l1 = (s.core core).l1 ∧ ∃ m ∈ t.homes.msgs, m.core = core ∧ m.line = line ∧ m.kind = .castRefused stc
      else (∃ x ∈ (t.core core).l1, x.line = line ∧ x.pushed = true) ∧
        ∃ m ∈ t.homes.msgs, m.core = core ∧ m.line = line ∧ m.kind = .castInstalled stc)) ∧
  (∀ (s : State) (msg n core line : Nat),
  (∀ stc, s.firstMsg msg = some { id := n, core, line, kind := .castInstalled stc } → exec (.castInstalledReply msg) s =
    .next (((s.dropMsg msg).modCast line fun e => if e.stc == stc && e.pending.contains core then
      { e with pending := e.pending.filter (· != core), holders := e.holders.filter (· != core) ++ [core] } else e).castReplied
        stc core 0)) ∧
  (∀ stc, s.firstMsg msg = some { id := n, core, line, kind := .castRefused stc } → exec (.castRefusedReply msg) s =
    .next (((s.dropMsg msg).modCast line fun e => if e.stc == stc then { e with pending := e.pending.filter (· != core) } else e).castReplied
      stc core 1)) ∧
  (∀ stc x k, (s.homes.stcs.find? fun y => y.id == stc) = some x → x.unsent = [] →
    let t := s.castReplied stc core k
    (∃ y, (t.homes.stcs.find? fun y => y.id == stc) = some y ∧ y.refused = x.refused + k ∧
      y.waiting = x.waiting.filter (· != core)) ∧
    ((∀ c ∈ x.waiting, c = core) → ∃ m ∈ t.homes.msgs, m.core = x.who.core ∧ m.line = x.line ∧ m.kind = .stcDone stc)) ∧
  (s.firstMsg msg = some { id := n, core, line, kind := .evicted } → ∃ t, exec (.evictionReport msg) s = .next t ∧
    (∀ e ∈ t.homes.castDir, e.line = line → core ∉ e.holders) ∧ t.mem = s.mem ∧ t.cores = s.cores) ∧
  (∀ stc x, s.firstMsg msg = some { id := n, core, line, kind := .stcDone stc } →
    (s.homes.stcs.find? fun y => y.id == stc) = some x → x.who.ctx < 8 → ∃ t, exec (.stcCompletion msg) s = .next t ∧
      ((t.strand x.who).castRef.toNat = min 0xFFFFFFFF ((s.strand x.who).castRef.toNat + x.refused)) ∧
      (∀ y ∈ t.homes.stcs, y.id ≠ stc) ∧ t.mem = s.mem))

/-- R320, R266: a new window of casts begins empty; a completed generation takes the start index, from the moment of its
completion on, and its cores are admitted in batches of at most 64, 100 ns apart. -/
def Obligations.WindowsAndBatches : Prop := ∀ (s : State) (core gen : Nat),
  ((s.core core).windowAt ≠ s.time / 1024 → exec (.gaugeRateWindow core) s =
    .next (s.modCore core fun co => { co with installed := 0, windowAt := s.time / 1024 })) ∧
  (∀ n, (s.sched.gens.find? fun m => m.id == gen) = some n →
    (n.batch = 0 → s.zTurn n = true → ∃ t, exec (.gbarBatchAdmit gen) s = .next t ∧ t.sched.z = (s.sched.z + 37) % 640 ∧
      (∀ m ∈ t.sched.gens, m.id = gen → m.batch = 1 ∧
        m.waking = sortBy (fun c => (c + 640 - s.sched.z) % 640) n.waking) ∧ t.cores = s.cores ∧ t.mem = s.mem) ∧
    (∀ d, s.sched.gens = [n] → n.batch = 0 → n.done = some d → (s.zTurn n = true ↔ d ≤ s.ps)) ∧
    (0 < n.batch → n.done.getD 0 + 100000 * (n.batch - 1) ≤ s.ps → ∃ t, exec (.gbarBatchAdmit gen) s = .next t ∧
      (∀ m ∈ t.sched.gens, m.id = gen → m.waking = n.waking.drop 64) ∧ (n.waking.length ≤ 64 → ∀ m ∈ t.sched.gens, m.id ≠ gen) ∧
      t.cores = s.cores ∧ t.mem = s.mem))

/-! ### Steps of the engines (08 R186 to R213; 12 R263; 14 R270 to R277) -/

/-- R187 to R192, R194; 19 R317: a copy's next piece lands in linear order and is counted as arrived, between global memory, the
issuer's window and another core's, the last one completing the copy with status 01; the copy is suspended at a byte that does
not translate (where source and destination both fail, at the source: log 67), or ends where the address is not canonical, lies
in the control space, or the walk meets an error; a gather issues its fetches in order and lands what has returned. A step of an
engine takes place once its requests are admitted (R285); one that is held changes no byte and no core. -/
def Obligations.CopyAndGatherSteps : Prop := ∀ (s s1 s2 : State) (core op len : Nat) (o : Op),
  s.workingOp core op = some o →
    let d := o.desc
    let src := copySrcAt d o.off
    let dst := copyDstAt d o.off
    let srcVa : DWord := BitVec.ofNat 64 src
    let dstVa : DWord := BitVec.ofNat 64 dst
    let pad (kind loc : Nat) : Nat × Nat := if kind = 2 then (bitsOf loc 32 10, o.slot) else (core, o.win)
    let from_ := pad (copySrcKind d) (copySrc d)
    let to_ := pad (copyDstKind d) (copyDst d)
    let held (u : State) : Nat := u.smemRead from_.1 from_.2 (padOff (copySrc d) src) len
    let put (u : State) (v : Nat) : State := u.smemWrite to_.1 to_.2 (padOff (copyDst d) dst) len v
    let store (u : State) (pa v : Nat) : State :=
      let u := (u.homeWrite pa len v).modOp core o.id fun p => { p with written := p.written.filter (· != lineOf pa) ++ [lineOf pa] }
      if copyDstKind d = 3 then u.pinLine (lineOf pa) else u
    let does (x : Instr) (r : State) : Prop := exec x s = .next (s.engStep core op r)
    let local_ (k : Nat) : Prop := k = 1 ∨ k = 2
    let global_ (k : Nat) : Prop := k = 0 ∨ k = 3
    (∀ tag, o.kind = .copy tag → pieceOk d o.off len = true →
      (local_ (copySrcKind d) → local_ (copyDstKind d) → does (.copyPieceLand core op len false) ((put s (held s)).landed core o len 0)) ∧
      (∀ pa, copySrcKind d = 0 → srcVa.toNat % 64 + len ≤ 64 → s.engReach core o .read srcVa = (.ok pa, s1) →
        (local_ (copyDstKind d) →
          does (.copyPieceLand core op len false) ((put s1 (s1.homeRead pa len)).landed core o len 0)) ∧
        (∀ qa, global_ (copyDstKind d) → s1.engReach core o .write dstVa = (.ok qa, s2) →
          does (.copyPieceLand core op len false) ((store s2 qa (s1.homeRead pa len)).landed core o len qa))) ∧
      (∀ pa, local_ (copySrcKind d) → global_ (copyDstKind d) → s.engReach core o .write dstVa = (.ok pa, s1) →
        does (.copyPieceLand core op len false) ((store s1 pa (held s)).landed core o len pa)) ∧
      (∀ code va, copySrcKind d = 0 → len = 1 → s.engReach core o .read srcVa = (.ends code va, s1) →
        does (.copyPieceLand core op len false) (s1.abortStatus core o code va)) ∧
      (∀ code va, local_ (copySrcKind d) → global_ (copyDstKind d) → s.engReach core o .write dstVa = (.ends code va, s1) →
        does (.copyPieceLand core op len false) (s1.abortStatus core o code va))) ∧
    (∀ acc va pa c, s.dieTranslate (.op core o.id 0) (coreDie core) o.part o.user acc va = (.ok pa c, s1) → inCtl pa = true →
      s.engReach core o acc va = (.ends 2 va, s1)) ∧
    (∀ (u : State) pa tag, o.kind = .copy tag → (u.core core).findOp o.id = some o →
      (o.off + len < copyTotal d → ∃ p, ((u.landed core o len pa).core core).findOp o.id = some p ∧ p.off = o.off + len ∧
        p.state = o.state ∧ p.desc = d) ∧
      (copyTotal d ≤ o.off + len → tag = false →
        let p := { (if copyDstKind d = 3 then o.place dst len (lineOf pa) else o) with off := o.off + len }
        u.landed core o len pa = (((((u.arrive core o.win (copyAW d) len).modOp core o.id fun _ => p).smemWrite
          o.who.core o.win (copyStat d) 16 (statusBits 1 false 0 (o.off + len) 0#64)).completeOp core o.id).dropNamed
            { p with tagref := false }))) ∧
    (∀ tag cause sub, o.kind = .copy tag →
      let stops (u : State) (write : Bool) (va : DWord) : State := if cause = 10 then u.abortStatus core o 3 va
        else if 16 ≤ cause then u.abortStatus core o 4 va else u.suspendOp core o write cause sub va
      (copySrcKind d = 0 →
        s.dieTranslate (.op core op 0) (coreDie core) o.part o.user .read srcVa = (.fault cause sub, s1) →
        does (.copySuspend core op) (stops s1 false srcVa)) ∧
      (local_ (copySrcKind d) → global_ (copyDstKind d) →
        s.dieTranslate (.op core op 0) (coreDie core) o.part o.user .write dstVa = (.fault cause sub, s1) →
        does (.copySuspend core op) (stops s1 true dstVa))) ∧
    (∀ size, o.kind = .gather size → o.flight.length < 16 → o.nextFetch < gathCount d → exec (.gatherFetchIssue core op) s =
      .next (s.modOp core op fun p => { p with
        flight := p.flight ++ [(p.nextFetch, s.smemRead core o.win (gathIdx d + 4 * o.nextFetch) 4, none)]
        nextFetch := p.nextFetch + 1 })) ∧
    (∀ size i idx v, o.kind = .gather size → o.flight = [(i, idx, none)] → i + 1 < gathCount d → 0 < size →
      s.engRead core o (gathAddr d size idx) size i = (.ok v, s1) → exec (.gatherElementReturn core op i false) s =
        .next (s.engStep core op (((s1.smemWrite core o.win (gathDst d + size * i) size v).arrive core o.win (gathAW d) size).modOp
          core op fun _ => { o with flight := [], off := size * (i + 1) }) i)) ∧
    (∀ (r t : State) part, let u := s.engStep core op r part
      (r.settle (.op core op part) = (true, t) → u.mem = r.mem ∧ u.cores = r.cores) ∧
      (r.settle (.op core op part) = (false, t) → r.sched.waits = s.sched.waits → u.mem = s.mem ∧ u.cores = s.cores))

/-- R200, R202, R203, R205, R270 to R277; 12 R263: the matrix queue executes at its head, each command when its matrix cycles have
passed: a shape, a block latched with its format and codebook, a tile task that takes its codebook as it starts, streams its
groups of 8 rows as their time comes, each reading its operands then, and is complete when the last has streamed and the array has
drained. A group that would take the array past its share is held to the next microsecond. A codebook is loaded. What a group
costs is any value (log 9). A CBLOAD reads its 32 bytes as it completes (log 55); the codebooks of a task that has ended are kept
for the commands that it has left. All of a group's energy counts in the microsecond in which it begins (log 95). -/
def Obligations.MatrixSteps : Prop := ∀ (s s1 : State) (core id v n : Nat) (o : Op) (bad : Bool),
  (s.matrixHead core = some o →
    (s.matrixDone o = false → (o.kind = .mxshape → exec (.mxshapeExecute core) s = .next s) ∧
      (o.kind = .mxldw → exec (.mxldwComplete core bad) s = .next s)) ∧
    (s.matrixDone o = true →
      (o.kind = .mxshape → exec (.mxshapeExecute core) s =
        .next ((s.modMx core fun m => { m with shape := o.desc, woken := m.woken || m.shape < o.desc }).completeOp core o.id)) ∧
      (o.kind = .mxldw → s.ldwBlock core o = (.ok v, s1) → exec (.mxldwComplete core false) s = .next (s.engStep core o.id (s1.latchBlock core o v))) ∧
      (o.kind = .mxldw → exec (.mxldwComplete core true) s = .next (s.ldwFails core o 0#64))) ∧
    (o.kind = .mxq → o.started = false → s.inputReady core o = true →
      let m := (s.core core).mx
      exec (.tileTaskStart core) s = .next (((s.modOp core o.id fun p => { p with
        started := true, cb := tblGet 0#256 (s.booksOf core o) (mxqAcb o.desc)
        due := s.ps + (if m.woken then 625 * 64 else 0), unsound := m.latched.isNone || m.unsound }).modMx core fun m =>
          { m with woken := false }).streamTile core o.id)) ∧
    (o.kind = .mxq → s.inputReady core o = false → exec (.tileTaskStart core) s = .next s)) ∧
  (s.matrixHead core = some o → s.streamTiles core = s → o.kind = .mxq →
    (s.matrixDone o = true → groupCount o.desc ≤ o.off →
      let ended (u : State) : State := (u.arrive core o.win (mxqDone o.desc) (256 * mxqM o.desc)).completeOp core o.id
      exec (.tileTaskComplete core false) s = .next (ended (if o.unsound then s else s.writeTile core o)) ∧
      exec (.tileTaskComplete core true) s = .next ((ended s).engineError core o 0#64)) ∧
    (s.matrixDone o = false ∨ o.off < groupCount o.desc → exec (.tileTaskComplete core bad) s = .next s)) ∧
  ((s.core core).findOp id = some o →
    (∃ p, ((s.streamTile core id).core core).findOp id = some p ∧ p.desc = o.desc ∧ o.off ≤ p.off ∧
      (groupCount o.desc ≤ p.off ∨ s.ps < p.due) ∧ (s.streamTile core id).mem = s.mem ∧ (s.streamTile core id).ps = s.ps) ∧
    (o.off < groupCount o.desc → o.due ≤ s.ps →
      let m := (s.core core).mx
      let micro := o.due / 1000000
      let word := s.groupMarks core o o.off
      let cost := if skipped o.desc word then 0 else Config.groupEnergy (1024 * o.desc + o.off)
      let late := !o.held && decide (s.arrayShare core < m.energyIn micro + cost)
      ∃ p, ((s.streamGroups core id 1).core core).findOp id = some p ∧
        (late = true → p.held = true ∧ p.due = 1000000 * (micro + 1) ∧ p.off = o.off ∧ p.result = o.result ∧
          ((s.streamGroups core id 1).core core).mx = m) ∧
        (late = false → p.held = false ∧ p.due = o.due + 625 * groupCycles o.pair m.shape o.desc o.off word ∧ p.off = o.off + 1 ∧
          (((s.streamGroups core id 1).core core).mx.energyIn micro = m.energyIn micro + cost) ∧
          (∀ l, m.latched = some l → o.unsound = false → p.result = o.result ++ s.groupResult core o l o.off)))) ∧
  (s.workingOp core id = some o → o.kind = .cbload n → s.matrixTurn core o = true →
    (s.matrixDone o = false → exec (.cbloadComplete core id) s = .next s) ∧
    (s.matrixDone o = true →
      exec (.cbloadComplete core id) s = .next ((s.setBook core o n (BitVec.ofNat 256 (s.smemRead core o.win o.off 32))).completeOp core id)) ∧
    ∀ b, tblGet 0#256 ((s.setBook core o n (BitVec.ofNat 256 b)).booksOf core o) n = BitVec.ofNat 256 b) ∧
  (((s.core core).ops.map (·.id)).Nodup → ((s.streamTiles core).core core).mx.energyAt < s.time / 1000 →
    ∃ t, exec (.arrayEnergyPeriod core) s = .next t ∧ (t.core core).mx.energy = 0 ∧ (t.core core).mx.energyAt = s.time / 1000 ∧
      (∀ p ∈ (t.core core).ops, p.kind = .mxq → p.started = true → p.state = .running →
        groupCount p.desc ≤ p.off ∨ s.ps < p.due) ∧ t.mem = s.mem ∧ (t.core core).ctxs = (s.core core).ctxs)

/-- R207 to R213, R282: a query, which reads its hierarchy in the step that completes it (log 34), walks its hierarchy and writes its result, a refit recomputes one node, a draw pushes a covered
quad to its context's item queue or goes on past one that is not, and ends when every tile is done; of a split
frame it does the tiles of its die's side of the boundary column only. -/
def Obligations.QueryAndDrawSteps : Prop := ∀ (s s1 s2 s3 : State) (die core op tile : Nat) (o : Op),
  s.workingOp core op = some o →
    let root := BitVec.ofNat 64 (bitsOf o.desc 256 64)
    let walk := [nodeRefTo root.toNat]
    (∀ anyHit h, o.kind = .ray anyHit → canonical root = true →
      rayWalk (rayOf o.desc anyHit) core o walkFuel (walk.map fun r => (none, r, 1)) 0 none s = (.done h, s1) →
      exec (.rayQueryComplete core op false) s = .next (s.engStep core op (s1.endQuery core o 32 (rayBits o 0 h)))) ∧
    (∀ f, o.kind = .ovlp → canonical root = true →
      ovlpWalk { lo := vecAt o.desc 0, hi := vecAt o.desc 12 } core o walkFuel (walk.map fun r => (none, r, 1)) 0
        { skip := word32 o.desc 24, room := word32 o.desc 28 } s = (.done, f, s1) →
      exec (.ovlpQueryComplete core op false) s = .next (s.engStep core op (s1.endOvlp core o (if f.more then 1 else 0) f))) ∧
    (∀ node boxes n pa, let va := BitVec.ofNat 64 (refitBase o.desc + 128 * (refitCount o.desc - 1 - o.off))
      o.kind = .refit → o.off + 1 < refitCount o.desc → s.readNode core o va = (.ok node, s1) →
      ((List.range 4).map (nodeRef node)).any refBad = false →
      s1.refitBoxes core o ((List.range 4).map (nodeRef node)) = ((.ok n, boxes), s2) →
      s2.engWriteLines core o va 2 96 (boxBits boxes) = (.ok pa, s3) → exec (.refitNode core op false) s =
        .next (s.engStep core op ((s3.arrive core o.win (refitAW o.desc) 96).modOp core op fun p => { p with off := p.off + 1 }))) ∧
    (s.drawCore die op = some core →
      let pos := tblGet 0 o.tiles tile
      let qx := 4 * (tile % 2048) + pos % 16 % 4
      let qy := 4 * (tile / 2048) + pos % 16 / 4
      let goesOn (t : State) : State :=
        s.engStep core op (t.modOp core op fun p => { p with tiles := tblPut 0 p.tiles tile (pos + 1) }) tile
      (∀ ez tri n m k, o.kind = .draw ez → o.tileDone tile = false → s.drawTurn die core o tile = true → o.orphan = false →
        s.readTri core o tile (pos / 16) = ((.ok n, .tri tri), s1) → s1.quadBits core o ez tri qx qy [0, 1, 2, 3] = ((.ok k, m), s2) →
        (m = 0 → exec (.drawQuadPush die op tile false) s = .next (goesOn s2)) ∧
        (m ≠ 0 → (s.ctx core o.hw).queue.length < 256 → exec (.drawQuadPush die op tile false) s =
          .next (goesOn (s2.modCtx core o.hw fun x => { x with queue := x.queue ++ [quadItem (pos / 16) m qx qy] })))) ∧
      (∀ ez n k, o.kind = .draw ez → (drawTileList o).all o.tileDone = true →
        s.countDiscards core o 0 (drawTris o.desc) = ((.ok n, k), s1) → exec (.drawComplete die op) s =
          .next (s.engStep core op (((s1.smemWrite core o.win (drawStat o.desc) 8 (drawTris o.desc - k + k * 2 ^ 32)).arrive core
            o.win (drawAW o.desc) 8).completeOp core op) pastTiles))) ∧
    (∀ tile, (o.half = some 0 ∧ drawXm o.desc ≤ 8 * (tile % 2048)) ∨ (o.half = some 1 ∧ 8 * (tile % 2048) < drawXm o.desc) →
      o.tileDone tile = true)

/-! ### Steps of the dispatchers (09 R217 to R221; 17 R290 to R304, R383) -/

/-- R216, R217, R221, R231, R291 to R304, R309, R383: a task starts with its code, frame and record, all else zero and its loops
closed (log 60), its window zero or from the frame that saved it, and its record leaves the lists, a late one once what tells of
it is written (log 76); a yield counts its items down or decrements its successor, and frees the context; a queued launch is
accepted into the lowest free slot, which is written at the start of its 200 ns (log 58), and its entry record registered, to
wait for that write where it must; lists age at the microsecond boundaries that have passed; a stopped task's header is written,
then its frame, and it is listed as spilled; the end of a launch and an access that was held go on. -/
def Obligations.DispatcherSteps : Prop := ∀ (s s0 s1 s2 s3 : State) (die core ctx slot id : Nat),
  let makes (u v : State) (w : DispWait) (pa : Nat) : Prop := ∃ x,
    (u.numbered w).2.attemptAlone (u.numbered w).1 = (.at_ pa, x) ∧ v = x.dropWait (u.numbered w).1.id
  (∀ k, let x := s.ctx core ctx
    let left := ((s.launch k.slot).map Launch.startLeft).getD 0 - 1
    let u := if k.startItem then s.modLaunch k.slot fun l => { l with startLeft := left } else s
    let read : DispWait := { id := 0, die := coreDie core, slot := k.slot, part := u.partOf core ctx, va := k.record + 32#64,
                             write := false, kind := 6, user := u.slotUser k.slot }
    x.task = some k → x.yielding = true → x.traps = [] → x.handler = false → s.releaseReady { core, ctx } true = true →
    (k.startItem = true → left ≠ 0 → ∃ t, exec (.taskYield core ctx) s = .next t ∧
      t.ctx core ctx = { event := x.event, pending := x.pending, cb := x.cb } ∧ t.mem = s.mem ∧
      t.launch k.slot = (s.launch k.slot).map fun l => { l with startLeft := left }) ∧
    (∀ pa, (k.startItem = true → left = 0) → makes u s1 read pa →
      let succ := BitVec.ofNat 64 (s1.homeRead pa 8)
      (succ = 0#64 → exec (.taskYield core ctx) s = .next (s1.freeCtx core ctx)) ∧
      (∀ qa, succ ≠ 0#64 → makes s1 s2 { read with va := succ + 16#64, write := true, kind := 2 } qa →
        exec (.taskYield core ctx) s = .next ((s2.decJoin (qa - 16)).freeCtx core ctx)))) ∧
  (∀ r rest l k lctx pa pas window, die < 2 → s.orderReady die = (true, s0) →
    let u := ((s0.losePoisoned die).tidyRequests die).retryFreeing
    let held := ((u.disp die).requests.filter fun q => q.claim.isSome).map (·.key)
    let a : Agent := .dispatch die r.key
    (u.order die).take 9 = .record r :: rest → u.launch r.slot = some l →
    u.best (.record r) l ((Item.area (.record r) l).filter fun c => u.coreReady (.record r) l c) = some core →
    let v := u.dropAgents (Agent.dispatches die (some r.key))
    v.hwFor core r.key = some k → v.freeLctx core r.slot l = some lctx →
    v.windowLines a l (v.windowFrame core r.slot none) = (.ok window, s1) →
    s1.attempt a { id := 0, die, slot := r.slot, part := l.part, va := r.addr, write := false, kind := 0, user := !l.priv, key := r.key } =
      (.at_ pa, s2) →
    let bits := s2.homeRead pa 64
    let late := s2.lateBy (recDl bits).toNat
    let ws := if late then s2.lateWrites die r l core k else []
    (late = true → r.lateDrop = 0#2 → l.late.toNat < l.lqn → ws.map (fun w => (w.va, w.bytes)) =
      [(r.addr + 20#64, 1), (BitVec.ofNat 64 (l.lqb + 16 * l.late.toNat), 16)]) ∧
    (∀ s4, s2.attemptAll a ws = ((none, pas), s3) → s3.settle a = (true, s4) → s4.lateBy (recDl bits).toNat = late →
      let wrote := (ws.zip pas).foldl (fun s x => s.applyWait x.1 x.2) s4
      let counted := if late then wrote.modLaunch r.slot fun l => l.countLate r else wrote
      exec (.dispatchStep die) s = .next (((((counted.establish core r.slot l window).startTask die r core k lctx bits).dropAgents
        (Agent.dispatches die none)).noAsks).dropClaims die held))) ∧
  (∀ l, s.launch slot = some l → s.hasResv core slot = false → (s.keptWindow core slot && s.hasSpilled core slot) = false →
    let t := s.establish core slot l []
    t.hasResv core slot = true ∧ (∀ b, byteAt ((t.core core).window slot) b = 0#8) ∧ t.mem = s.mem) ∧
  (∀ r k lctx bits held, ∃ x, (((s.startTask die r core k lctx bits).dropClaims die held).ctx core k) = x ∧
    x.str.pc = recCode bits ∧ x.str.regionPc = recCode bits ∧ tblGet 0#64 x.s 0 = recFrame bits ∧ tblGet 0#64 x.s 1 = r.addr ∧
    (∀ n, 2 ≤ n → tblGet 0#64 x.s n = 0#64) ∧ x.q = 0#16 ∧ x.threads = [] ∧ x.cb = [] ∧ x.queue = [] ∧ x.lc0 = {} ∧ x.lc1 = {} ∧
    (∃ y, x.task = some y ∧ y.slot = r.slot ∧ y.lctx = lctx ∧ y.record = r.addr ∧ y.level = r.level ∧ y.deadline = recDl bits) ∧
    ∀ z ∈ ((s.startTask die r core k lctx bits).dropClaims die held).sched.recs, z.key ≠ r.key) ∧
  (∀ p pa r origin, die < 2 → (s.disp die).freeAt ≤ s.ps → s.slotTaken die = false → s.nextPending die = some (core, ctx, p) →
    let l := launchOfBits p.bits
    let a : Agent := .accepts die (pendingSrc core ctx)
    (s.dropAgents (Agent.acceptsBut die (pendingSrc core ctx))).entryRecord a die l.part p.user p.bits = (.ok pa r, s0) →
    s0.placeReady a l (.ok pa r) = (true, s1) → recReserved r = true → s1.originOf l r = (0, origin) →
    s1.freeLaunchSlot = some slot → s1.settle a = (true, s2) → exec (.launchAccept die) s =
      .next ((((s2.acceptLaunch die slot p.bits origin pa).modCtx core ctx fun x =>
        { x with pending := x.pending.tail }).modDisp die fun d =>
          { d with pos := (8 * (core - 320 * die) + ctx + 1) % 2560 }).dropAgents fun a =>
            match a with | .accepts d _ => d == die | _ => false).noAsks) ∧
  (s.freeLaunchSlot = some slot → s.launch slot = none ∧ ∀ n < slot, s.launch n ≠ none) ∧
  (∀ bits origin pa, let t := s.acceptLaunch die slot bits origin pa
    let l := launchOfBits bits
    let placed : Launch := { l with serial := s.fresh, die, ox := origin.1, oy := origin.2 }
    let writes := (({ s with fresh := s.fresh + 1 } : State).setLaunch slot (some placed)).writeOrList
      (dispWrite die slot placed.part 1 2 (!placed.priv) (BitVec.ofNat 64 (placed.entry + 30)) (BitVec.ofNat 64 slot))
    t.launch slot = some placed ∧ (t.disp die).freeAt = s.ps + 200000 ∧
    (writes.1 = false → ∀ x ∈ t.sched.recs, x.slot = slot → x.waiting = true) ∧
    (l.start = false → writes.1 = true → ∃ x, t.sched.recs = s.sched.recs ++ [x] ∧ x.slot = slot ∧
      x.addr = BitVec.ofNat 64 l.entry ∧ x.pa = pa ∧ x.onCore = none ∧ x.startItem = false ∧ x.waiting = false) ∧
    (l.start = true → writes.1 = true → ∃ xs, t.sched.recs = s.sched.recs ++ xs ∧
      xs.map (·.onCore) = (rectCores origin.1 origin.2 l.width l.height).map some ∧
      ∀ x ∈ xs, x.slot = slot ∧ x.addr = BitVec.ofNat 64 l.entry ∧ x.pa = pa ∧ x.startItem = true ∧ x.waiting = false)) ∧
  (let old := tblGet 0 s.sched.agedAt die
   die < 2 → old < s.ps / 1000000 → 0 < s.ctlF offDSPCTL 0 10 → ∃ t, exec (.readyListAgeing die) s = .next t ∧
    (∀ l < 8, tblGet {} t.sched.ages (8 * die + l) =
      (List.range (s.ps / 1000000 - old)).foldl (fun (a : ListAge) _ => a.boundary (s.ctlF offDSPCTL 0 10) l (s.listHeld die l))
        (tblGet {} s.sched.ages (8 * die + l))) ∧
    tblGet 0 t.sched.agedAt die = s.ps / 1000000 ∧ t.cores = s.cores ∧ t.mem = s.mem) ∧
  (∀ j pa y, let x := s.ctx core ctx
    x.task = some y → x.marked = true → x.stopped = true → x.spilling = none → x.traps = [] → x.handler = false →
    s.quiescent core ctx = true → s.findFrame (.context core ctx) (coreDie core) (List.range s.frameCount) = (.frame j pa, s1) →
    ∃ t, exec (.spill core ctx) s = .next t ∧ (t.ctx core ctx).spilling = some j ∧
      (s1.poisonAt pa = 0 → s1.keyed = false → readBytes t.mem (s1.forward pa) 64 =
        s1.frameHeader core ctx 2 (s1.lastResident core ctx) 0)) ∧
  (∀ st smem spt y, (s.ctx core ctx).task = some y → core < 1024 → ctx < 8 → y.slot < 65536 → y.lctx < 4 → st < 4 →
    let v := s.frameHeader core ctx st smem spt
    bitsOf v 62 2 = st ∧ bitsOf v 61 1 = (if smem then 1 else 0) ∧ bitsOf v 0 10 = core ∧ bitsOf v 32 16 = y.slot ∧
      bitsOf v 56 2 = y.lctx ∧ bitsOf v 58 3 = ctx ∧ bitsOf v 128 64 = y.record.toNat ∧ v < 2 ^ 512) ∧
  (∀ j y l pas, let smem := s.lastResident core ctx
    (s.ctx core ctx).spilling = some j → (s.sched.waits.any fun w => w.kind == 8 && w.key == 8 * core + ctx) = false →
    (s.ctx core ctx).task = some y → s.launchOf core ctx = some l → (smem && s.copyHolds core y.slot) = false →
    s.frameSpan (.context core ctx) (coreDie core) j 0 (1 + bodyLines + (if smem then l.smem / 64 else 0)) = (.ok pas, s1) →
    ∃ t v sp, exec (.spillComplete core ctx) s = .next t ∧ t.mem = (s1.pokeLines pas v).mem ∧
      v % 2 ^ 512 = s1.frameHeader core ctx 1 smem s1.time ∧ (t.ctx core ctx).task = none ∧
      t.sched.spilled = s1.sched.spilled ++ [sp] ∧ sp.task = y ∧ sp.core = core ∧ sp.frame = j ∧ sp.part = l.part ∧
      sp.smem = smem ∧ sp.ready = s1.ps) ∧
  (∀ d (x : Disp) (q : Request), s.sched.disps = [(d, { x with requests := [q] })] → q.core = core → ctx ∈ q.members → q.claim = none →
    let rest := q.members.filter (· != ctx)
    (s.requestsSpilled core ctx).sched.disps =
      [(d, { x with requests := [{ q with members := rest, claim := if rest = [] then some ctx else none }] })]) ∧
  (∀ l u, s.launch slot = some l → s.launchOver slot = true →
    let done : DispWait := { id := 0, die := l.die, slot, part := l.part, va := BitVec.ofNat 64 l.doneAddr, write := true, kind := 3
                             user := !l.priv, value := if l.aborted then 2#64 else 1#64 }
    let dec : DispWait := { id := 0, die := l.die, slot, part := l.part, va := BitVec.ofNat 64 l.succ + 16#64, write := true, kind := 5
                            user := !l.priv }
    ((l.doneAddr = 0 ∧ u = s) ∨
      (l.doneAddr ≠ 0 ∧ ∃ pa, makes s s1 done pa ∧ u = s1.homeWrite pa 8 (if l.aborted then 2 else 1))) →
    (BitVec.ofNat 64 l.succ = 0#64 → exec (.launchComplete slot) s = .next (u.freeSlot slot)) ∧
    (∀ qa, BitVec.ofNat 64 l.succ ≠ 0#64 → makes u s2 dec qa →
      exec (.launchComplete slot) s = .next ((s2.decJoin (qa - 16)).freeSlot slot))) ∧
  ((s.freeSlot slot).launch slot = none ∧
    (s.launch slot ≠ none → ∀ n ∈ (s.freeSlot slot).sched.gens, n.slot = slot → n.done.isSome = true)) ∧
  (∀ w, (s.sched.waits.find? fun w => w.id == id && w.die == die) = some w →
    ((s.sched.faults.find? fun f => f.exk == 3 && f.op == id) = none →
      exec (.dispatcherAccessFault die id) s = .next (s.retryWait w)) ∧
    (∀ f, (s.sched.faults.find? fun f => f.exk == 3 && f.op == id) = some f → f.outcome = some true →
      exec (.dispatcherAccessFault die id) s = .next ((s.dropService id).retryWait w)) ∧
    (∀ f, (s.sched.faults.find? fun f => f.exk == 3 && f.op == id) = some f → f.outcome = some false →
      exec (.dispatcherAccessFault die id) s = .next ((s.dropWait id).loseWait w f.cause f.va)))

/-! ### Steps of traps and faults (24 R357, R365 to R370) -/

/-- R357, R365, R368 to R370: the oldest trap is delivered to the handler with the lead frame and the record written, once the
frame's pieces are ready, or kills its context where no handler is enabled, where its block does not translate or holds poison, or
where it is fatal; a kill ends the context's work, marks its launch, is logged
and signalled; the watchdog lists cause 19; a fault is served, joined to the ring, answered, and its executor or engine operation
goes on or takes the trap; a partition is killed, with all that is pending for it, and its kill ends. -/
def Obligations.TrapAndFaultSteps : Prop := ∀ (s s1 : State) (core ctx id p : Nat) (seq : BitVec 32),
  (∀ t behind, let x := s.ctx core ctx
    x.traps = t :: behind → (∀ y ∈ x.traps, y.fatal = false) → t.service = none → x.handler = false →
    (s.executors core ctx).all s.writesSettled = true →
    (∀ pas, s.trapsOn core = true →
      s.span (.context core ctx) (coreDie core) (s.partOf core ctx) (!s.privileged { core, ctx }) .write (s.leadFrame core ctx) none 16 =
        (.ok pas, s1) → s1.poisoned pas = false →
      let u := ((s1.forget (.context core ctx)).pokeLines pas (x.frameBits + t.recordBits behind.length * 2 ^ (8 * 0x300))).loseDemand
        core (pas.map lineOf)
      exec (.trapDelivery core ctx) s =
        .next (u.modCtx core ctx fun y => y.enterHandler t (s.leadFrame core ctx) (u.handlerEntry core))) ∧
    (∀ c sub va, s.trapsOn core = true →
      s.span (.context core ctx) (coreDie core) (s.partOf core ctx) (!s.privileged { core, ctx }) .write (s.leadFrame core ctx) none 16 =
        (.fault c sub va, s1) → exec (.trapDelivery core ctx) s = .next (s1.killCtx core ctx t.cause va)) ∧
    (s.trapsOn core = false → exec (.trapDelivery core ctx) s = .next (s.killCtx core ctx t.cause t.va))) ∧
  (∀ t, ((s.ctx core ctx).traps.find? fun t => t.fatal && t.service.isNone) = some t →
    exec (.trapDelivery core ctx) s = .next (s.killCtx core ctx t.cause t.va)) ∧
  (∀ cause va, let t := s.killCtx core ctx cause va
    (t.ctx core ctx).task = none ∧ (t.ctx core ctx).threads = [] ∧ t.mem = s.mem ∧
    (∀ y l, (s.ctx core ctx).task = some y → s.launch y.slot = some l → t.launch y.slot = some { l with aborted := true }) ∧
    (∀ z ∈ (t.core core).loads, z.who.ctx ≠ ctx) ∧ (∀ z ∈ (t.core core).stores, z.who.ctx ≠ ctx) ∧
    (∀ o ∈ (t.core core).ops, o.ofCtx ctx = false) ∧ (t.ctx (320 * coreDie core) 7).event = true ∧
    (∀ n, ((List.range 16).find? fun n => s.ctlF (offFLOG n) 63 1 == 0) = some n →
      t.ctlF (offFLOG n) 63 1 = 1 ∧ t.ctlF (offFLOG n) 60 3 = 1 ∧ t.ctlF (offFLOG n) 48 8 = cause % 256 ∧
      t.ctlF (offFLOG n) 56 1 = (if (s.ctx core ctx).fencing then 1 else 0) ∧ t.ctl64 (offFLOG n + 8) = va ∧
      t.ctl64 (offFLOG n + 16) = BitVec.ofNat 64 s.time) ∧
    (∀ j y z, j ≠ ctx → (s.ctx core ctx).task = some y → (s.ctx core j).task = some z → z.slot = y.slot →
      (∀ l, s.launch y.slot = some l → (s.core core).mx.holder = some y.slot → (s.core core).mx.needle = y.lctx →
        (t.core core).mx.needle = l.ringNext y.lctx 1) ∧
      (∀ o a, ((s.core core).ops.filter fun o => o.ofCtx ctx && o.state != .complete) = [o] → o.who.core = core →
        o.slot = y.slot → (s.core core).resv.any (fun r => r.slot == y.slot) = true → o.statOff = some a →
        readBytes ((t.core core).window y.slot) a 16 = statusBits 3 o.tagref 6 o.off 0#64))) ∧
  ((s.ctx core ctx).resident = true → (s.ctx core ctx).traps = [] → (s.ctx core ctx).spilling = none →
    let limit := 1000000 * s.ctlF (offWDOG (s.partOf core ctx)) 0 16
    0 < limit → (s.ctx core ctx).wdStart + limit ≤ s.ps → ∃ t tr, exec (.watchdogExpiry core ctx) s = .next t ∧
      (t.ctx core ctx).traps = [tr] ∧ tr.cause = 19 ∧ tr.tid = none ∧ t.mem = s.mem) ∧
  (∀ f, (s.sched.faults.find? fun f => f.id == id) = some f →
    (∀ b, f.outcome = none → f.hostMode = false → s.rewalk f = (some b, s1) →
      exec (.pageFaultService id) s = .next ((s1.forget (.fault id)).modFault id fun x => { x with outcome := some b })) ∧
    (∀ tr, f.outcome = some false → f.exk < 2 → ((s.ctx f.core f.ctx).traps.find? fun t => t.service == some id) = some tr →
      ∃ t, exec (.pageFaultServiceDone id) s = .next t ∧ (t.ctx f.core f.ctx).traps =
        mapIf (fun y => y.service == some id) (fun y => { y with service := none }) (s.ctx f.core f.ctx).traps ∧
        ∀ y ∈ t.sched.faults, y.id ≠ id) ∧
    (∀ tr, f.outcome = some true → f.exk < 2 → ((s.ctx f.core f.ctx).traps.find? fun t => t.service == some id) = some tr →
      (tr.exk ≠ 1 ∨ (s.ctx f.core f.ctx).handler = false ∨ tr.fatal = true) →
      let e : Who := { core := f.core, ctx := f.ctx, tid := tr.tid }
      s.present e = true → ∃ t, exec (.pageFaultServiceDone id) s = .next t ∧ (t.strand e).pc = tr.regionPc ∧
        (t.strand e).reentry = true ∧ (t.strand e).run = 0 ∧ (∀ y ∈ (t.ctx f.core f.ctx).traps, y.service ≠ some id) ∧
        (∀ y ∈ t.sched.faults, y.id ≠ id) ∧ ∀ v r, t.reg v r = s.reg v r) ∧
    (∀ o, f.exk = 2 → (s.core f.core).findOp f.op = some o → o.fault = some id →
      (f.outcome = some true → ∃ t, exec (.pageFaultServiceDone id) s = .next t ∧ (t.core f.core).findOp f.op =
        some { o with state := .running, fault := none, off := if o.kind = .refit then 0 else o.off } ∧
        ∀ y ∈ t.sched.faults, y.id ≠ id) ∧
      (f.outcome = some false → exec (.pageFaultServiceDone id) s = .next ((s.dropFault id).failOp f.core o f.cause f.va) ∧
        ∀ tag size, o.kind = .copy tag ∨ o.kind = .gather size →
          (s.dropFault id).failOp f.core o f.cause f.va = (s.dropFault id).abortStatus f.core o (statusCause f.cause) f.va)) ∧
    (f.hostMode = true → f.outcome = none → f.seq = none →
      let off := offPFRING f.part
      let cap := s.ctlF (off + 8) 0 32
      let tail := s.ctlF (off + 16) 0 32
      (cap = 0 → exec (.faultRingAppend id) s = .next (s.modFault id fun x => { x with outcome := some false })) ∧
      (∀ n, cap ≠ 0 → s.ringEntryFor f = some n → exec (.faultRingAppend id) s =
        .next (s.modFault id fun x => { x with seq := some n })) ∧
      (let pa := (s.ctl64 off).toNat + 32 * (tail % cap)
       let a := s.forward pa
       cap ≠ 0 → s.ringEntryFor f = none → (tail + 2 ^ 32 - s.ctlF (off + 24) 0 32) % 2 ^ 32 < cap →
       s.accReady (.fault id) true pa = (true, s) → s.poisonAt pa = 0 → s.keyed = false → f.exk < 3 → f.core < 1024 → f.ctx < 8 →
       f.cause < 256 → ∃ t, exec (.faultRingAppend id) s = .next t ∧
         t.sched.pfSeq = s.sched.pfSeq + 1#32 ∧ (∀ y ∈ t.sched.faults, y.id = id → y.seq = some s.sched.pfSeq) ∧
         readBytes t.mem a 8 = f.va.toNat ∧ readBytes t.mem (a + 8) 8 = s.sched.pfSeq.toNat ∧
         readBytes t.mem (a + 16) 1 = f.cause ∧ readBytes t.mem (a + 17) 1 = f.sub % 256 ∧
         readBytes t.mem (a + 18) 1 = (if f.write then 1 else 0) + (if f.fetch then 2 else 0) + (if f.user then 4 else 0) ∧
         readBytes t.mem (a + 20) 2 = f.core ∧ readBytes t.mem (a + 22) 1 = f.ctx ∧ readBytes t.mem (a + 23) 1 = f.exk ∧
         readBytes t.mem (a + 24) 8 = f.time % 2 ^ 64))) ∧
  (s.faultsOf seq = [] → exec (.pfrespRetry seq) s = .next (s.reject offFLTCTL 0) ∧
    exec (.pfrespFail seq) s = .next (s.reject offFLTCTL 0)) ∧
  (∀ f b, s.faultsOf seq = [f] → s.rewalk f = (some b, s1) →
    exec (.pfrespRetry seq) s = .next (s1.modFault f.id fun x => { x with outcome := some b })) ∧
  (s.faultsOf seq ≠ [] → ∃ t, exec (.pfrespFail seq) s = .next t ∧ t.mem = s.mem ∧ t.cores = s.cores ∧
    ∀ f ∈ t.sched.faults, f.seq = some seq → f.outcome.isSome = true) ∧
  (exec (.pkillGo 1#8) s = .next (s.reject offFLTCTL 0) ∧ (0 < p → p < 8 → s.ctlF offPKILL (8 + p) 1 = 0 →
    exec (.pkillGo (BitVec.twoPow 8 p)) s = .next (s.killPartition p))) ∧
  (p < 8 → let t := s.killPartition p
    t.ctlF offPKILL (8 + p) 1 = 1 ∧ (∀ x ∈ t.sched.spilled, x.part ≠ p) ∧ (∀ n l, t.launch n = some l → l.part ≠ p) ∧
    (∀ w ∈ t.sched.waits, w.part ≠ p) ∧ (∀ e ∈ t.sched.leftOver, e.2.part ≠ p) ∧
    (∀ e ∈ t.sched.sillage0 ++ t.sched.sillage1, e.part ≠ p) ∧ (∀ e ∈ t.sched.walker0 ++ t.sched.walker1, e.part ≠ p) ∧
    (∀ c, ∀ e ∈ (t.core c).itlb ++ (t.core c).dtlb, e.part ≠ p) ∧
    (∀ n ∈ t.homes.pins, s.memHolds p (n / 32768) = false) ∧ (∀ x ∈ t.sched.walks, x.part ≠ p) ∧
    (∀ c k, ∀ q ∈ (t.ctx c k).pending, (launchOfBits q.bits).part ≠ p) ∧
    (∀ g ∈ t.sched.gens, ∀ l, s.launch g.slot = some l → l.part = p → g.done.isSome = true) ∧
    t.ctlF (offHLQ p + 16) 0 32 = s.ctlF (offHLQ p + 24) 0 32 ∧
    t.ctlF (offPFRING p + 24) 0 32 = s.ctlF (offPFRING p + 16) 0 32 ∧
    ((s.cores.map (·.1)).Nodup → ∀ x ∈ s.partCtxs p, (t.ctx x.1 x.2).task = none)) ∧
  (p < 8 → s.ctlF offPKILL (8 + p) 1 = 1 → s.partCtxs p = [] → let u := s.retryFreeing
    ((u.sched.freeing.any fun e => e.1 == p) = false → exec (.partitionKillDone p) s =
      .next ((u.setCtlF offPKILL (8 + p) 1 0).addLog 3 p false 0 0 0 0 0#64)) ∧
    ((u.sched.freeing.any fun e => e.1 == p) = true → exec (.partitionKillDone p) s = .next u))

/-! ### Steps of the power manager and the memory regulators (12 R258 to R264; 15 R281 to R288; 17 R293) -/

/-- R281, R284 to R288, R338: buckets refill and accepted writes take effect at the microsecond boundary after them; the urgency of
the package, the largest of the heads', is taken each quarter; writes of the regulators, thresholds and the placement map are checked;
a head's lines drain, and are read at their homes once a host's copy has been recalled and its regulator admits them (the place of
scan-out is open, and a line of no bytes ends the scan: log 38); a changed pair is scrubbed to zero. -/
def Obligations.QosSteps : Prop := ∀ (s u : State) (n h i pair bytes : Nat) (v : DWord),
  (s.power.refilled < s.micro → ∃ t, exec .tokenRefill s = .next t ∧ t.power.refilled = s.micro ∧
    t.power.pend = s.power.pend.filter (fun x => s.micro < x.due) ∧
    (∀ k < 30, tblGet 0 t.power.buckets k = t.share (k / 2)) ∧ t.mem = s.mem ∧ t.cores = s.cores ∧
    (∀ x, s.power.pend = [x] → (x.due ≤ s.micro → t.ctl64 x.off = x.value) ∧ (s.micro < x.due → t.ctl = s.ctl))) ∧
  (s.power.quarterAt < s.time / 250 → ∃ t, exec .throttleQuarter s = .next t ∧ t.power.quarter = [] ∧
    (∀ k < 4, s.ctlF (offHEADURG k) 30 2 ≤ t.power.urgency) ∧ (∃ k < 4, t.power.urgency = s.ctlF (offHEADURG k) 30 2) ∧ t.power.quarterAt = s.time / 250 ∧ t.ctl = s.ctl ∧ t.mem = s.mem) ∧
  (n < 10 → let rate := bitsOf v.toNat 0 24
    let tshare := bitsOf v.toNat 24 24
    (rate % 64 = 0 → tshare % 64 = 0 → (tshare = 0 ∨ rate = 0 ∨ tshare ≤ rate) → exec (.qosregWrite n 0#1 v) s =
      .next { s with power := { s.power with pend := s.power.pend.filter (fun p => p.off != offQos n) ++
        [{ off := offQos n, value := v &&& 0x3FFFFFFFFFFFF#64, due := s.time / 1000 + 1 }] } }) ∧
    ((rate % 64 ≠ 0 ∨ tshare % 64 ≠ 0) → exec (.qosregWrite n 0#1 v) s = .next (s.reject offQOSCTL 0))) ∧
  (h < 4 → let a := bitsOf v.toNat 0 10
    let b := bitsOf v.toNat 10 10
    let c := bitsOf v.toNat 20 10
    ((a < b ∨ b < c) → exec (.headurgWrite h v) s = .next (s.reject offQOSCTL 0)) ∧
    (b ≤ a → c ≤ b → exec (.headurgWrite h v) s =
      .next ((s.setCtlF (offHEADURG h) 0 30 (bitsOf v.toNat 0 30)).updateUrgency h)) ∧
    (let left := s.ctlF (offHEADURG h) 32 17 - bytes
     let line := (Config.freeValue s.choice).toNat % (32768 * regionCount)
     let drained (t : State) (fill : Nat) : State :=
       ({ t with power := { t.power with scanning := putBit t.power.scanning h (bytes != 0) } }.setCtlF (offHEADURG h) 32 17
         fill).updateUrgency h
     exec (.scanOutLine h bytes 0) s = .next (drained s left) ∧
     (s.homeBusy (64 * line) = true → left + 64 ≤ 65536 → exec (.scanOutLine h bytes 64) s =
       .next (drained (s.recallLine (lineOf (s.forward (64 * line)))) left)) ∧
     (s.homeBusy (64 * line) = false → left + 64 ≤ 65536 →
       (s.regulate .other (10 + h) (64 * line) = (true, u) → exec (.scanOutLine h bytes 64) s = .next (drained u (left + 64))) ∧
       (s.regulate .other (10 + h) (64 * line) = (false, u) → exec (.scanOutLine h bytes 64) s = .next (drained u left))))) ∧
  (i < 6 → v ≠ s.ctl64 (offPLCMAP i) →
    (∀ b < 64, (s.ctl64 (offPLCMAP i)).getLsbD b ≠ v.getLsbD b → s.pairHeld (64 * i + b) = false) →
    ∃ t, exec (.plcmapWrite i v) s = .next t ∧ t.ctl64 (offPLCMAP i) = v ∧ t.ctlF offQOSCTL 1 1 = 1 ∧ t.mem = s.mem ∧
      ∀ b < 64, (s.ctl64 (offPLCMAP i)).getLsbD b ≠ v.getLsbD b → 64 * i + b ∈ t.homes.scrub) ∧
  (pair ∈ s.homes.scrub → s.exclIn (2147483648 * pair) 2147483648 = false → ∃ t, exec (.plcmapScrubDone pair) s = .next t ∧
    pair ∉ t.homes.scrub ∧ (∀ a, 2147483648 * pair ≤ a → a < 2147483648 * (pair + 1) → byteAt t.mem a = 0#8) ∧
    (∀ a, a < 2147483648 * pair ∨ 2147483648 * (pair + 1) ≤ a → byteAt t.mem a = byteAt s.mem a))

/-- R258 to R264, R267, R293, R371: a change of bases or table that keeps the rules is granted, another is rejected; at a boundary of
LINT the table is that of LendStep in hardware mode, and a new interval begins; a lender that wakes falls to its floor at once, its entry is cleared, and its bases return when every borrower runs
without the loan, 5 µs after the wake at the latest; writes of registers at other offsets. -/
def Obligations.PowerSteps : Prop := ∀ (s : State) (n p off : Nat) (dw : BitVec 1) (v : DWord),
  (n < 40 → let new := (s.setCtlF (offClprof n) 36 12 (bitsOf v.toNat 36 12)).setCtlF (offClprof n) 16 8 (bitsOf v.toNat 16 8)
    exec (.clprofWrite n v) s = .next (if new.basesOk && (List.range 40).all new.lendOk then new.regrant
      else s.reject offPMCTL 16)) ∧
  (n < 40 →
    (s.mode.getLsbD 18 = false → exec (.lendingTableWrite n dw v) s = .next s) ∧
    (s.mode.getLsbD 18 = true → let new := s.setCtl (offLend n) (v &&& 0x800000FFFFFFFFFF#64)
      exec (.lendingTableWrite n 0#1 v) s = .next (if new.basesOk && (List.range 40).all new.lendOk then new.regrant
        else s.reject offPMCTL 16)) ∧
    (s.mode.getLsbD 18 = true → let new := s.setCtl (offLend n + 8) (v &&& 0xFF0FFF#64)
      exec (.lendingTableWrite n 1#1 v) s = .next (if new.basesOk && (List.range 40).all new.lendOk then new.regrant
        else s.reject offPMCTL 16))) ∧
  (s.lendDue = true → ∃ t, exec .lendStep s = .next t ∧ t.power.lentAt = s.micro ∧ t.mem = s.mem ∧ t.cores = s.cores ∧
    (s.mode.getLsbD 18 = true → t.ctl = s.ctl) ∧
    (s.mode.getLsbD 18 = false → ∃ u : State, t.ctl = u.regrant.ctl ∧
      let borrows (m : Nat) : Bool := !s.idleCluster m && s.stalledCluster m
      let k := ((List.range 40).filter borrows).length
      ∀ m < 40, u.pbase m = s.pbase m ∧ u.abase m = s.abase m ∧ u.lendValid m = (s.idleCluster m && k != 0) ∧
        (s.idleCluster m = true → k ≠ 0 → u.pshare m = (s.pbase m - 128) / k ∧ u.ashare m = (s.abase m - 16) / k ∧
          ∀ b < 40, bitOf (u.lendMask m) b = borrows b))) ∧
  (n < 40 → s.lendValid n = true → s.recalling n = false → ∀ core, clusterOf core = n → let t := s.wakeLender core
    t.power.recalls = s.power.recalls ++ [(n, s.ps)] ∧ t.ctlF (offClprof n) 24 12 = 128 ∧ t.ctlF (offClprof n) 8 8 = 16 ∧
    t.ctlF (offClprof n) 0 1 = 1 ∧ t.mem = s.mem ∧ t.cores = s.cores) ∧
  (s.recalling n = true → s.lendValid n = true → exec (.lenderWake n) s = .next ((s.setCtlF (offLend n) 63 1 0).regrant)) ∧
  (s.recalling n = true → s.lendValid n = false → exec (.lendRecallDone n) s =
    .next ({ s with power := { s.power with recalls := s.power.recalls.filter fun (r : Nat × Nat) => r.1 != n } }.regrant)) ∧
  (∀ t0, s.power.recalls = [(n, t0)] → t0 + 5000000 ≤ s.ps → s.endRecalls = (s.clearLoan n).endRecall n ∧
    s.endRecalls.power.recalls = []) ∧
  (n < 40 → s.lendValid n = false → s.recalling n = false → (∀ m < 40, s.lendValid m = true → bitOf (s.lendMask m) n = false) →
    s.regrant.ctlF (offClprof n) 24 12 = s.pbase n ∧ s.regrant.ctlF (offClprof n) 8 8 = s.abase n) ∧
  (p < 8 → let o := offHLQ p
    let tail := bitsOf v.toNat 0 32
    exec (.hlqTailWrite p v) s = .next (if s.ctlF (o + 8) 0 32 < (tail + 2 ^ 32 - s.ctlF (o + 16) 0 32) % 2 ^ 32 then
      s.reject offDSPCTL 16 else s.setCtlF (o + 24) 0 32 tail)) ∧
  (off % 8 ≠ 0 → exec (.registerWrite off v) s = .next s) ∧
  (∀ t, s.regReady .other off v = (true, t) → exec (.registerWrite off v) s = .next (t.regWrite off v)) ∧
  (p < 8 → exec (.registerWrite (offWDOG p) v) s = .next (s.setCtl (offWDOG p) (v &&& 0xFFFF#64)))

/-! ### Steps of the host side (22 R339 to R349) -/

/-- R238, R338 to R344, R347: a transfer that is asked for starts or is rejected, and ends when nothing of the old owner is left,
and with it the wait of an OWN; a host
request takes its copy, and goes first where its region began to move in the same mesh cycle; a PCIe port's request is made at the
home; a recall returns the data, an owner that does not answer in 20 µs is lost and recorded, and a reply after that finds it so. -/
def Obligations.HostSteps : Prop := ∀ (s u : State) (region agent line : Nat) (v : DWord) (data : Line),
  (let x := v ||| 1#64
   let r := bitsOf x.toNat 21 19
   ((s.homes.ownReq.isSome = true ∨ regionCount ≤ r) → exec (.owncmdGo v) s = .next (s.reject offCOHCTL 16)) ∧
   (s.homes.ownReq = none → r < regionCount → exec (.owncmdGo v) s =
     .next ({ s.setCtl offOWNCMD (putF (x &&& 0x400000FFFFE00000#64) 63 1 1) with
       homes := { s.homes with ownReq := some (r, x.getLsbD 62) } }.ownStep))) ∧
  (∀ r host, s.homes.ownReq = some (r, host) → s.region r = regionOwner host →
    s.ownStep.ctlF offOWNCMD 63 1 = 0 ∧ s.ownStep.homes.ownReq = none) ∧
  (s.region region = .toAcc → (∀ e ∈ s.homes.hostDir, e.1 / 32768 = region → e.2.excl = none) →
    exec (.transferComplete region) s = .next (s.endTransfer region .acc)) ∧
  (s.region region = .toHost → s.regionDrained region = true →
    exec (.transferComplete region) s = .next ((s.dropRegion region).endTransfer region .host)) ∧
  (∀ x, s.homes.ownReq = none → s.homes.held = [] → (s.endTransfer region x).region region = x ∧
    ∀ w host, x = regionOwner host → (s.strand w).wait = .own region host → ((s.endTransfer region x).strand w).wait = .ownDone) ∧
  (agent < 2 → lineOf (s.forward (64 * line)) = line → s.hostMay line = true → tblGet 0 s.homes.poison line = 0 →
    s.scrubbing (64 * line) = false → s.migLocked (64 * line) = false → s.hostHolds agent line = false →
    (∀ a, a ≠ agent → (s.hdir line).excl = some a → s.region (line / 32768) = .toAcc → s.justMoved (line / 32768) = true →
      ∃ t, exec (.hostRequest agent line .read) s = .next t ∧ t.region (line / 32768) = .host ∧ (agent, line) ∈ t.homes.hostWaits ∧
        t.mem = s.mem) ∧
    (s.region (line / 32768) = .host → (s.hdir line).excl = none → s.mayEnter (.host agent line) (8 + agent) = true →
     s.admits (8 + agent) (s.dieOf (s.forward (64 * line))) = true →
      (∃ t, exec (.hostRequest agent line .read) s = .next t ∧ t.mem = s.mem ∧
        (t.hdir line).shared = (s.hdir line).shared ||| BitVec.twoPow 2 agent ∧ (t.hdir line).excl = none ∧
        ∀ l, l ≠ line → t.hdir l = s.hdir l) ∧
      (∃ t, exec (.hostRequest agent line .own) s = .next t ∧ t.mem = s.mem ∧
        t.hdir line = { excl := some agent, shared := 0#2, recallAt := none } ∧ ∀ l, l ≠ line → t.hdir l = s.hdir l) ∧
      (∃ t, exec (.hostRequest agent line (.write data)) s = .next t ∧ t.hdir line = ({} : HostDir) ∧
        (∀ a, a < 64 * line ∨ 64 * line + 64 ≤ a → s.forward (64 * line) = 64 * line → byteAt t.mem a = byteAt s.mem a) ∧
        (s.forward (64 * line) = 64 * line → readBytes t.mem (64 * line) 64 = data.toNat)))) ∧
  (2 ≤ agent → agent < 4 → lineOf (s.forward (64 * line)) = line → s.hostMay line = true → tblGet 0 s.homes.poison line = 0 →
    s.scrubbing (64 * line) = false → s.migLocked (64 * line) = false → s.hostHolds agent line = false →
    (s.homeBusy (64 * line) = true → exec (.hostRequest agent line .read) s =
      .next ((s.recallLine (lineOf (s.forward (64 * line)))).hostQueue agent line)) ∧
    (s.homeBusy (64 * line) = false → s.regulate (.host agent line) (6 + agent) (64 * line) = (false, u) →
      exec (.hostRequest agent line .read) s = .next (u.hostQueue agent line)) ∧
    (s.homeBusy (64 * line) = false → s.regulate (.host agent line) (6 + agent) (64 * line) = (true, u) →
      exec (.hostRequest agent line .read) s = .next (u.hostLeave agent line) ∧
      exec (.hostRequest agent line (.write data)) s = .next ((u.hostLeave agent line).hostWrite line data))) ∧
  (∀ t0, (s.hdir line).excl = some agent → (s.hdir line).recallAt = some t0 → s.ps < t0 + 20000000 →
    tblGet 0 s.homes.poison line = 0 → s.homes.held = [] → ∃ t, exec (.hostRecallReply agent line data) s = .next t ∧ (t.hdir line).excl = none ∧
      readBytes t.mem (64 * line) 64 = data.toNat ∧ (∀ l, l ≠ line → t.hdir l = s.hdir l) ∧ t.cores = s.cores) ∧
  (∀ t0, (s.hdir line).excl = some agent → (s.hdir line).recallAt = some t0 → t0 + 20000000 ≤ s.ps → s.homes.held = [] →
    exec (.hostRecallReply agent line data) s = exec (.ownerLostTimeout line) s ∧
    ∃ t, exec (.ownerLostTimeout line) s = .next t ∧ tblGet 0 t.homes.poison line = 2 ∧ (t.hdir line).excl = none ∧
      t.mem = s.mem ∧ t.cores = s.cores ∧
      ∀ n, ((List.range 16).find? fun n => s.ctlF (offLOSTREC n) 63 1 == 0) = some n →
        t.ctl64 (offLOSTREC n) = BitVec.ofNat 64 (2 ^ 63 + agent * 2 ^ 40 + line * 64) ∧
        t.ctl64 (offLOSTREC n + 8) = BitVec.ofNat 64 s.time)

/-- R345 to R349, R281, R375: a reclaim of a poisoned line, with its data where ACT is 1, ends the poison; a migration copies its page; from its
switch to its release an address of the page leads to the new place, where the writes that were held perform; a command that its slot's state does not allow is
rejected. -/
def Obligations.MigrationSteps : Prop := ∀ (s : State) (k line : Nat) (v : DWord),
  (let x := v ||| 1#64
   let named := bitsOf x.toNat 6 34
   (tblGet 0 s.homes.poison named = 0 → exec (.reclaimGo v) s = .next (s.reject offCOHCTL 16)) ∧
   (tblGet 0 s.homes.poison named ≠ 0 → ∃ t, exec (.reclaimGo v) s = .next t ∧ t.reclaiming = some named ∧
     t.ctl64 offRECLAIM = x &&& 0x1FFFFFFFFC0#64 ∧ t.mem = s.mem ∧ t.cores = s.cores ∧ t.homes.poison = s.homes.poison)) ∧
  (s.reclaiming = some line → s.scrubbing (64 * line) = true → exec .reclaimDone s = .next s) ∧
  (s.reclaiming = some line → s.scrubbing (64 * line) = false → ∃ t, exec .reclaimDone s = .next t ∧ tblGet 0 t.homes.poison line = 0 ∧
    t.reclaiming = none ∧ t.ctlF offRECLAIM 63 1 = 1 ∧
    (∀ a, a < 64 * line ∨ 64 * line + 64 ≤ a → byteAt t.mem a = byteAt s.mem a) ∧
    (s.ctlF offRECLAIM 40 1 = 1 → readBytes t.mem (64 * line) 64 = s.reclaimData) ∧
    (s.ctlF offRECLAIM 40 1 ≠ 1 → t.mem = s.mem)) ∧
  (∀ i < 8, bitsOf s.reclaimData (64 * i) 64 = (s.ctl64 (offRCLDATA + 8 * i)).toNat) ∧
  (k < 4 →
    let inSrc (a : Nat) : Prop := s.migSrc k ≤ a ∧ a < s.migSrc k + s.migLen k ∧
      ∀ j < 4, j ≠ k → s.migState j = 3 → a < s.migSrc j ∨ s.migSrc j + s.migLen j ≤ a
    (s.migState k ≠ 0 ∨ s.migOk k = false → exec (.migStart k) s = .next (s.reject offCOHCTL 16)) ∧
    (s.migState k = 0 → s.migOk k = true → ∃ t, exec (.migStart k) s = .next t ∧ t.migState k = 1 ∧ t.mem = s.mem ∧
      ∀ a, s.migSrc k ≤ a → a < s.migSrc k + s.migLen k → t.migLocked a = true) ∧
    (s.migState k = 1 → s.memOk → s.keyed = false → s.exclIn (s.migSrc k) (s.migLen k) = false →
      s.exclIn (s.migDst k) (s.migLen k) = false → s.scrubbing (s.migSrc k) = false → s.scrubbing (s.migDst k) = false →
      ∃ t, exec (.migCopyDone k) s = .next t ∧ t.migState k = 2 ∧
        (∀ a < s.migLen k, byteAt t.mem (s.migDst k + a) = byteAt s.mem (s.migSrc k + a)) ∧
        ∀ a, a < s.migDst k ∨ s.migDst k + s.migLen k ≤ a → byteAt t.mem a = byteAt s.mem a) ∧
    (s.migState k = 2 → s.migOk k = true → ∃ u : State, exec (.migSwitch k) s = .next u.performHeld ∧ u.migState k = 3 ∧ u.mem = s.mem ∧
      u.homes.held = s.homes.held ∧ (∀ a, inSrc a → u.forward a = s.migDst k + (a - s.migSrc k)) ∧
      (s.homes.held.Nodup → ∀ core w, (core, w.id) ∈ s.homes.held → core < 640 → (s.core core).findStore w.id = some w → inSrc w.pa →
        (u.core core).findStore w.id = some { w with pa := s.migDst k + (w.pa - s.migSrc k) })) ∧
    (∀ core w len data, s.homes.held = [(core, w.id)] → core < 640 → (s.core core).findStore w.id = some w → w.done = false →
      w.kind = .plain len data → s.migLocked w.pa = false → s.devReady (.access core w.id) w.pa = (true, s) → s.poisonAt w.pa = 0 →
      s.lineBusy (s.homeOf w.pa) w.id = false → s.keyed = false → let t := s.performHeld
      t.homes.held = [] ∧ (t.core core).findStore w.id = none ∧ readBytes t.mem (s.forward w.pa) len = data % 256 ^ len ∧
        ∀ a, a < s.forward w.pa ∨ s.forward w.pa + len ≤ a → byteAt t.mem a = byteAt s.mem a) ∧
    (s.migState k ≠ 2 ∨ s.migOk k = false → exec (.migSwitch k) s = .next (s.reject offCOHCTL 16)) ∧
    (s.migState k = 3 → s.migOk k = true → (∀ a, inSrc a → s.forward a = s.migDst k + (a - s.migSrc k)) ∧
      ∃ t, exec (.migRelease k) s = .next t ∧ t.migState k = 0 ∧ t.mem = s.mem ∧ t.cores = s.cores ∧
        ∀ a, inSrc a → t.forward a = a) ∧
    (s.migState k ≠ 3 ∨ s.migOk k = false → exec (.migRelease k) s = .next (s.reject offCOHCTL 16)))

/-! ### Steps of partitions, service firmware and boot (24 R364; 25 R372 to R381; 17 R304; 09 R239) -/

/-- R364, R372 to R375, R304, R239: a partition is enabled where the rules allow it and given keys over scrubbed ranges, also by
the write that disables it; MODE takes effect; the save frames move while none is used, which their headers say where they
translate; the translations that a TLBINV names are gone from every core, walker and walk. -/
def Obligations.PartitionSteps : Prop := ∀ (s s1 : State) (p core ctx : Nat) (v : DWord),
  (exec (.pctlEnWrite 0 v) s = .next (s.reject offPSTAT 0)) ∧
  (0 < p → p < 8 → s.partOn p = false →
    (s.enableOk p = true → exec (.pctlEnWrite p 1#64) s = .next (s.setCtlF (offPart p) 0 1 1)) ∧
    (s.enableOk p = false → exec (.pctlEnWrite p 1#64) s = .next (s.reject offPSTAT 0)) ∧
    exec (.keynew p) s = .next (s.startKeys p)) ∧
  (0 < p → p < 8 → s.partOn p = true →
    exec (.pctlEnWrite p 3#64) s = .next (s.reject offPSTAT 0) ∧
    (s.disableOk p = false → exec (.keynew p) s = .next (s.reject offPSTAT 0) ∧
      exec (.pctlEnWrite p 0#64) s = .next (s.reject offPSTAT 0)) ∧
    (s.disableOk p = true → exec (.pctlEnWrite p 0#64) s = .next (s.setCtlF (offPart p) 0 1 0) ∧
      exec (.keynew p) s = .next ((s.setCtlF (offPart p) 0 1 0).startKeys p))) ∧
  (p < 8 → let t := s.startKeys p
    t.ctlF (offPart p) 3 1 = 1 ∧ t.ctlF (offPart p) 2 1 = 0 ∧ p ∈ t.homes.keyScrub ∧ t.mem = s.mem) ∧
  (p < 8 → p ∈ s.homes.keyScrub → (∀ r ∈ s.pmemRanges p, s.exclIn r.1 r.2 = false) → ∃ t, exec (.keynewDone p) s = .next t ∧
    (∀ r ∈ s.pmemRanges p, ∀ a, r.1 ≤ a → a < r.1 + r.2 → byteAt t.mem a = 0#8) ∧ p ∉ t.homes.keyScrub ∧
    t.ctlF (offPart p) 2 1 = 1 ∧ t.ctlF (offPart p) 3 1 = 0) ∧
  (exec (.prootWrite v) s = .next (s.setCtl (offPart 0 + 8) (v &&& 0xFFFFFFF000#64))) ∧
  (∀ m, s.modeNext = some m → exec .modeWrite s = .next { s with mode := m, modeNext := none }) ∧
  (s.framesUsed .other (List.range s.frameCount) = (some false, s1) → exec (.savebaseWrite v) s =
    .next { s1 with savebase := v &&& 0x1FFFFFFFFC00FFF#64, sched := { s1.sched with skipped := [] } }) ∧
  (∀ r, r ≠ some false → s.framesUsed .other (List.range s.frameCount) = (r, s1) → exec (.savebaseWrite v) s = .next s1) ∧
  (∀ a, s.framesUsed a [] = (some false, s)) ∧
  (∀ a j js pa, s.frameSpan a 0 j 0 1 = (.ok [pa], s1) → s.framesUsed a (j :: js) =
    if bitsOf (s1.homeRead pa 8) 62 2 = 0 then s1.framesUsed a js else (some true, s1)) ∧
  (∀ a j js cause sub va, s.frameSpan a 0 j 0 1 = (.fault cause sub va, s1) → s.framesUsed a (j :: js) = s1.framesUsed a js) ∧
  (∀ n, (s.ctx core ctx).str.wait = .tlbinv n → ∃ t, exec (.tlbInvalidationDone core ctx) s = .next t ∧
    (t.ctx core ctx).str.wait = .tlbinvDone ∧ t.mem = s.mem ∧
    (∀ c, ∀ y ∈ (t.core c).itlb ++ (t.core c).dtlb, invalidates (s.partOf core ctx) n y.part y.shift y.vpn = false) ∧
    (∀ y ∈ t.sched.walks, invalidates (s.partOf core ctx) n y.part 12 y.vpn = false) ∧
    ∀ y ∈ t.sched.walker0 ++ t.sched.walker1, invalidates (s.partOf core ctx) n y.part y.shift y.vpn = false)

/-- R376 to R381: firmware answers the lanes of a batch, each by the function its first argument names (where the manual gives no
reply, as to a buffer that is no page, the reply is open but not zero: logs 33 and 51), and takes the batches of its ring in order; the
host answers the batches of its ring, by a record that is outstanding or at most 2^31 records old (log 89); a switch of firmware happens
between batches; a measurement is extended; a cold reset boots the lower slot that both dies accept, or leaves the package in
reset, its memory listing nothing (logs 1 and 42); what a power failure leaves. -/
def Obligations.ServiceSteps : Prop := ∀ (s s2 s3 : State) (die n lane y : Nat) (v : DWord) (image : FwImage),
  (∀ b a0 a1, s.svcLane die n lane = some (b, a0, a1) → s.mayServe b = true →
    s.allReady (.batch die b.seq) true (recordPieces b.addr) = (true, s2) →
    (svcCode a0 = none → exec (.svcFlush die n lane) s = .next (s2.svcReply b lane (BitVec.allOnes 64))) ∧
    (svcCode a0 = some 1 → exec (.svcStorageWrite die n lane) s =
      .next ({ s2 with
        fresh := s2.fresh + 1
        svc := { s2.svc with storage := s2.svc.storage ++ [({ die, seq := b.seq, lane, repliedAt := s2.fresh, durable := false } : StorageWrite)] } }.svcReply
          b lane 0#64)) ∧
    (let l := (Config.storageBytes s2.choice).filter fun e => s2.ownsRegion b.part (regionOf e.1) && !inCtl e.1
     svcCode a0 = some 2 → s2.allReady (.batch die b.seq) true (l.map (·.1)) = (true, s3) → exec (.svcStorageRead die n lane) s =
       .next ((l.foldl (fun x e => x.homeWrite e.1 1 e.2.toNat) s3).svcReply b lane 0#64)) ∧
    (svcCode a0 = some 3 → a0.getLsbD 16 = false → exec (.svcFlush die n lane) s = .next (s2.svcReply b lane 0#64)) ∧
    (svcCode a0 = some 3 → a0.getLsbD 16 = true → exec (.svcFlush die n lane) s = .next (({ s2 with svc := { s2.svc with
      storage := mapIf (fun x => x.repliedAt < b.formed) (fun x => { x with durable := true }) s2.svc.storage } } : State).svcReply b lane 0#64)) ∧
    (svcCode a0 = some 16 → a1.toNat % 4096 ≠ 0 →
      exec (.svcAttestationReport die n lane) s = .next (s2.svcReply b lane (Config.freeValue s2.choice ||| 1#64))) ∧
    (∀ u w pas, svcCode a0 = some 16 → a1.toNat % 4096 = 0 → (b.callers.find? fun c => c.1 == lane) = some (lane, w, u) →
      s2.span (.batch die b.seq) die b.part (!s2.privileged { w with ctx := w.ctx % 8 }) .write a1 none 18 = (.ok pas, s3) →
      s3.poisoned pas = false → pas.any inCtl = false →
        let body := s3.reportBody b.part (s3.homeRead (pas.getD 0 0) 32)
        exec (.svcAttestationReport die n lane) s =
          .next ((s3.pokeLines pas (body + (Config.reportSignature body).toNat * 2 ^ 6144)).svcReply b lane 0#64))) ∧
  (∀ b, s.mayServe b = (s.dequeued b || (!s.svc.req && s.svc.batches.all fun x => x.host || x.die != b.die || s.dequeued x ||
    s.headTo b ≤ s.headTo x))) ∧
  (∀ b, let t := s.svcReply b lane v
    let u := (s.forget (.batch b.die b.seq)).homeWrite (b.addr + 80 + 32 * lane) 8 v.toNat
    t.mem = u.mem ∧
    ((b.args.all fun a => (b.replied ++ [lane]).contains a.1) = true → ∀ x ∈ t.svc.batches, x.seq ≠ b.seq ∨ x.die ≠ b.die) ∧
    ((b.args.all fun a => (b.replied ++ [lane]).contains a.1) = false → t.cores = u.cores ∧
      ∀ x ∈ t.svc.batches, x.die = b.die → x.seq = b.seq → lane ∈ x.replied)) ∧
  (s.svc.ok.getLsbD (v.extractLsb' 1 1).toNat = true → v.getLsbD 2 = true → v.extractLsb' 1 1 ≠ s.svc.act →
    exec (.fwctlSwitchRequest v) s = .next { s with svc := { s.svc with tgt := v.extractLsb' 1 1, req := true } }) ∧
  (s.svc.req = true → (∀ b ∈ s.svc.batches, b.host = true ∨ s.dequeued b = false) →
    exec .fwSwitchComplete s = .next { s with svc := { s.svc with act := s.svc.tgt, req := false } }) ∧
  (die < 2 →
    (let r := bitsOf v.toNat 0 32
     let off := offSvc die + 0x20
     let cap := s.ctlF (off + 8) 0 32
     let age := (s.ctlF (off + 16) 0 32 + 2 ^ 32 - r) % 2 ^ 32
     let old : Prop := cap ≠ 0 ∧ age ≠ 0 ∧ age ≤ 2 ^ 31
     let found := s.svc.batches.find? fun b => b.die == die && b.host && b.index == r
     let pa := match found with
       | some b => b.addr
       | none => (s.ctl64 off).toNat + 1088 * (r % cap)
     (found = none → ¬ old → exec (.svcrespWrite die v) s = .next (s.reject (offSvcCtl die) 0)) ∧
     (found.isSome = true ∨ old → s.allReady .other false (recordPieces pa) = (true, s) →
       (s.poisonAt pa ≠ 0 ∨ s.homeRead (pa + 16) 8 % 2 = 0 → exec (.svcrespWrite die v) s = .next (s.reject (offSvcCtl die) 0)) ∧
       (s.poisonAt pa = 0 → s.homeRead (pa + 16) 8 % 2 = 1 →
         exec (.svcrespWrite die v) s = .next (match found with
           | some b => s.completeBatch b
           | none => s)))) ∧
    (2 ≤ v.toNat → v.toNat ≤ 7 → ∃ t, exec (.mextgoWrite die v) s = .next t ∧ t.mem = s.mem ∧
      t.ctl256 (offMeas die v.toNat) = valueOf (sha256 (bytesOf (s.ctl256 (offMeas die v.toNat)) 32 ++
        bytesOf (s.ctl256 (offMext die)) 32)) % 2 ^ 256)) ∧
  (∃ t, exec .coldReset s = .next t ∧ t.mem = [] ∧ t.ps = 0 ∧ t.mode = 0#64 ∧ t.svc.tgt = 0#1 ∧
    ((∀ k < 2, ∀ x, s.slotImage k = some x → imageOk x = false) → t.svc.inReset = true ∧ t.cores = [] ∧ t.ctl = []) ∧
    (∀ x k, (k = 0 ∨ k = 1 ∧ ∀ z, s.slotImage 0 = some z → imageOk z = false) → s.slotImage k = some x → imageOk x = true →
      t.svc.inReset = false ∧ t.svc.act = BitVec.ofNat 1 k ∧
      ∀ d < 2, (t.ctx (320 * d) 7).service = true ∧ (t.ctx (320 * d) 7).str.pc = Config.serviceEntry d)) ∧
  (∃ t, exec .powerFail s = .next t ∧ t.mem = [] ∧ t.cores = [] ∧ t.svc.inReset = true ∧ t.svc.fw0 = s.svc.fw0 ∧
    t.svc.fw1 = s.svc.fw1 ∧ ∀ x, x ∈ t.svc.storage ↔ x ∈ s.svc.storage ∧ x.durable = true) ∧
  (y < 16 → ∃ t, exec (.ucieModuleTrainFail y) s = .next t ∧ t.svc.ucie.getLsbD y = true ∧ t.mem = s.mem ∧ t.cores = s.cores) ∧
  (exec (.firmwareSlotLoad 0 image) s =
    .next { s with svc := { s.svc with fw0 := some image, ok := putBit s.svc.ok 0 (imageOk image) } })

/-! ### Words, bundles and steps (02 R26 to R48; 01 R12, R13, R20; 12 R255 to R258) -/

/-- R26 to R44, R49 to R67: every instruction that an executor may run, encoded as a bundle of its own with whatever its header
lends it, decodes for that executor to a bundle of exactly that instruction in its slot, and passes every check. -/
def Obligations.DecodeOfEncode : Prop := ∀ (ex : Executor) (bound : Nat) (i : Instr), (ex = .lead → bound ≤ 64) → i.isWord = true →
  i.legalFor ex bound = true → ∃ b, decodeBundle ex (encode i) = .ok b ∧ b.slots = [(i.homeSlot, i)] ∧
    b.words = (encode i).length ∧ b.empties = 0 ∧ b.yield = false ∧ b.marker = false ∧ b.check ex bound = .ok b

/-- R27, R50, R116, R133, R137, R162: words that the manual writes out decode to the instructions they stand for. -/
def Obligations.WrittenWordsDecode : Prop := decodeTableWord 32 0x97FC7678 = some (.movh 63#6 7#7 0x678#12) ∧
  decodeTableWord 32 0x9FF85187 = some (.pkfmaBf16 63#6 5#7 6#7 7#7) ∧
  decodeTableWord 32 0xF7F43121 = some (.cvt 63#6 1#2 3#7 4#7 4#3 1#3) ∧
  decodeTableWord 32 0xBFEC4200 = some (.stc 63#6 4#7 8#7) ∧
  ∃ b, decodeBundle .thread [0x7C001120#32, 0x97F87345#32] = .ok b ∧ b.slots = [(.a, .movi 63#6 7#7 (.long 0x12345#20))]

/-- R27 to R31, R40 to R48, R101, R382: a step takes up what the agenda names, with what the boundaries of TIME that have passed
do, and runs exec of it (the agenda, the free schedule and the moments of steps are the model's: logs 5, 6 and 9); a word runs as
exec says; an executor's next bundle is what the words at its PC decode to, or no bundle where a fetch faults or a loop makes the
word illegal; issuing a bundle of one instruction is exec of that instruction with the PC moved past the bundle, then, once the
requests that it makes are admitted, the bundle's commit. -/
def Obligations.StepRunsTheBundle : Prop :=
  (∀ (s : State) (d : Nat) (i : Instr) (rest : List (Nat × Instr)), s.agenda = (d, i) :: rest →
    let u := ({ s with agenda := rest, choice := s.choice + 1 } : State).elapse (s.momentOf i (s.ps + d))
    u.mayTakeUp i = true → step s = exec i u) ∧
  (∀ (s : State), s.agenda = [] → let i := Config.freeEvent s.choice
    let u := ({ s with choice := s.choice + 1 } : State).elapse (s.momentOf i s.freePs)
    u.mayTakeUp i = true → step s = exec i u) ∧
  (∀ (s : State) (ps : Nat), let t := s.elapse ps
    t.ps = ps ∧ t.mem = s.mem ∧ t.cores = s.cores ∧ t.homes = s.homes ∧ t.launches = s.launches ∧ t.cur = s.cur ∧
    t.agenda = s.agenda ∧ t.svc = s.svc) ∧
  (∀ (s : State) (i : Instr), i.isWord = true → runWord i s = exec i s) ∧
  (∀ (s s1 : State) (w : Who) (ws : List Word) (b : Bundle), (s.strand w).pc.toNat % 4 = 0 →
    s.fetchWords w (.strand w (s.strand w).pc) (!s.privileged w) (s.strand w).pc 4 [] = (.ok ws, s1) →
    decodeBundle w.ex ws = .ok b → b.check w.ex (s1.regBound w) = .ok b →
    (s1.loopIllegal w b = true → s.nextOf w = (.bad 1 0 0#64 0, s1)) ∧
    (s1.loopIllegal w b = false → b.isEmpty = false → b.empties ≤ (s.strand w).run → s.nextOf w = (.run b, s1))) ∧
  (∀ (s s1 : State) (w : Who) cause sub va, (s.strand w).pc.toNat % 4 = 0 →
    s.fetchWords w (.strand w (s.strand w).pc) (!s.privileged w) (s.strand w).pc 4 [] = (.fault cause sub va, s1) →
    s.nextOf w = (.bad cause sub va 3, s1)) ∧
  (∀ (s r r1 : State) (w : Who) (b : Bundle) (p : SlotPos) (x : Instr) (j : Issue) (seen : Memory), b.slots = [(p, x)] → b.yield = false →
    x.isWord = true →
    let pc := (s.strand w).pc
    let i : Issue := { core := w.core, ctx := w.ctx, tids := w.tid.toList, lead := w.tid.isNone, pc, words := b.words, slot := p, start := s.fresh
                       seen }
    exec x ({ s.enterRegion w b with cur := some i }.modStrand w fun y => { y with pc := pcAfter pc b.words }) = .next r →
    r.cur = some j → j.full = false → j.waits = [] → j.traps = [] →
    (r.settle (.strand w pc) = (true, r1) → issueAlone w (.run b) seen s =
      (.done, ((((r1.forget (.strand w pc)).finishIssue b (s.ctx w.core w.ctx).task).committed w b ((s.strand w).wait == .barGo)).settleTally
        { issued := true, calls := j.calls }))) ∧
    (r.settle (.strand w pc) = (false, r1) → issueAlone w (.run b) seen s = (.waits, (keepMarks [w] s r1).ageless w)))

/-- R17, R20, R30, R44, R242, R247 to R249, R255, R257: a cycle of the core whose next cycle is the earliest issues its lead bundle and
its thread group where the profile admits their charges, and is a stall where it does not; a group is at most 32 ready threads at
one PC of one context, which run the bundle one after another, all of them or none where an engine is full; an idle core's cycle
counts and, with no operation held, stops its clock. -/
def Obligations.CoreCycles : Prop := ∀ (c : Nat) (s : State), cycleDue c s = true →
  let s0 : State := { s with ps := max s.ps (s.core c).next }
  let scan := scanThreads c (completeBars c (scanThreads c (beginCycle c s0)).2)
  let sum (co : Core) : Nat := co.charges.foldl (· + ·) 0
  (∀ k n s2, pickLead c scan.2 = (some (k, n), s2) → scan.1 = [] → let u := ageThreads c [] s2
    (u.core c).held = none →
    (∀ t, sum (u.core c) + n.charge ≤ u.profile c → issueLead c (u.modCore c fun co => { co with held := none }) (k, n) = (true, t) →
      exec (.coreCycle c) s = .next (endCycle c n.charge n.cls false false t)) ∧
    (∀ t, sum (u.core c) + n.charge ≤ u.profile c → issueLead c (u.modCore c fun co => { co with held := none }) (k, n) = (false, t) →
      exec (.coreCycle c) s = .next (endCycle c 0 0 false false t)) ∧
    (u.profile c < sum (u.core c) + n.charge → exec (.coreCycle c) s = .next (endCycle c 0 0 false true u))) ∧
  (∀ lead s2, pickLead c scan.2 = (lead, s2) →
    let able := (scan.1.filter (joinComplete c s2 scan.1)).filter (engineFits c s2 lead (scan.1.filter (joinComplete c s2 scan.1)))
    let u := ageThreads c able s2
    let ready := able.filter fun x => !((u.core c).fp64Full && x.n.fp64)
    let k := (u.core c).classes.foldl max 0
    let first := lead.elim 0 fun x => x.2.charge
    ∀ g, (u.core c).held = none → pickGroup c u ready k = some g → bankPasses c u g ≤ 1 →
      (u.profile c < sum (u.core c) + (first + g.n.charge) → exec (.coreCycle c) s = .next (endCycle c 0 0 false true u)) ∧
      (∀ led t, sum (u.core c) + (first + g.n.charge) ≤ u.profile c →
        issueCycle c lead (some g) ((countPick c k ready g false u).modCore c fun co => { co with held := none }) = (led, true, t) →
        exec (.coreCycle c) s = .next (endCycle c ((if led then first else 0) + g.n.charge)
          (max (if led then lead.elim 0 fun x => x.2.cls else 0) g.n.cls) g.n.fp64 false (ageDry c able t)))) ∧
  (∀ ready k g, pickGroup c s ready k = some g → g.tids.length ≤ 32 ∧
    ∀ n ∈ g.tids, ∃ x ∈ ready, x.ctx = g.ctx ∧ x.tid = n ∧ x.pc = g.pc) ∧
  (∀ g b s1 seen, (g.tids.filter fun n => s.present { core := c, ctx := g.ctx, tid := some n } &&
      (s.strand { core := c, ctx := g.ctx, tid := some n }).pc == g.pc) = g.tids →
    (∀ n rest, g.tids = n :: rest → s.nextOf { core := c, ctx := g.ctx, tid := some n } = (.run b, s1)) → g.tids ≠ [] →
    let r := runGroup c g.ctx g.tids b seen s1
    issueThreads c seen s g =
      if r.1 then (false, (keepMarks [] s1 r.2.2).noAsks) else (r.2.1.issued, (r.2.2.settleTally r.2.1).noAsks)) ∧
  (∀ ctx n m b seen f1 f2 t1 t2 s1 s2, crossMask b = none → issueTogether c ctx false [n] b seen {} s = (f1, t1, s1) →
    (f1 = .full → runGroup c ctx [n, m] b seen s = (true, t1, s1)) ∧
    (f1 ≠ .full → issueTogether c ctx false [m] b seen t1 s1 = (f2, t2, s2) →
      runGroup c ctx [n, m] b seen s = (f2 == .full, t2, s2))) ∧
  ((s.core c).ctxs = [] → (s.core c).held = none → ∃ t, exec (.coreCycle c) s = .next t ∧
    (t.core c).cyc = (s.core c).cyc + 1#64 ∧
    (t.core c).stall = (if s.profile c < sum (s.core c) then (s.core c).stall + 1#64 else (s.core c).stall) ∧
    (t.core c).clockOn = !(s.core c).ops.isEmpty ∧
    (t.core c).next = s0.ps + 80 * classMultiple ((s.core c).classes.foldl max 0) ∧ t.ps = s0.ps ∧
    t.mem = s.mem ∧ ∀ d, d ≠ c → t.core d = s.core d)

/-- R40, R66: an instruction whose guard is false has no effect at all: no register, predicate, byte, queue, counter or engine
changes and no trap is taken, once it is decoded and its privilege is in order. (Words that join on a mask are told apart:
LaneAndNeedleTraps.) -/
def Obligations.FalseGuardLeavesEverything : Prop := ∀ (x : Instr) (s : State) (i : Issue) (w : Who), IssuingOne s i w →
  s.guardOk w x.guard = false →
  (x.isWord = true → x.info.major ≠ 5 → (∀ g a j, x ≠ .qmax g a j) → (∀ g d c, x ≠ .csrr g d c ∧ x ≠ .csrw g d c) →
    (x.info.priv = false ∨ s.privileged w = true) → exec x s = .next s) ∧
  (∀ g d c, csrAssigned c = true →
    (x = .csrr g d c → s.csrAllowed w c.toNat false = true → exec x s = .next s) ∧
    (x = .csrw g d c → s.privileged w = true → s.csrAllowed w c.toNat true = true → exec x s = .next s))

/-! ### What every step keeps -/

/-- Every step keeps global memory in its canonical form: addresses strictly rising, no byte listed that reads as an unlisted
one does. -/
def Obligations.StepsKeepMemoryCanonical : Prop := ∀ (s t : State), s.memOk → step s = .next t → t.memOk

/-- Every state has a step: none faults and none is refused.
R379: while the package is held in reset, no core, engine or dispatcher steps: time passes, at whose boundaries the regulators,
the recalls of loans and the ages of empty lists go on, and only a reset, a loss of power or the loading of a firmware slot acts. A
register keeps its value but for a write that was accepted before and takes effect, and for the grants and the table entry of a
loan whose recall ends. -/
def Obligations.EveryStepAnswers : Prop :=
  (∀ (s : State), Answers s) ∧
  (∀ (s : State), s.svc.inReset = true → Instr.outlastsReset s.takeUp.1 = false →
  ∃ t, step s = .next t ∧ s.ps ≤ t.ps ∧
    { t with
      ps := s.ps, choice := s.choice, agenda := s.agenda, power := s.power, ctl := s.ctl
      sched := { t.sched with ages := s.sched.ages, agedAt := s.sched.agedAt } } = s ∧
    (∀ off, (∀ x ∈ s.power.pend, x.off ≠ off) → (∀ x ∈ s.power.recalls, off ≠ offLend x.1) →
      (s.power.recalls = [] ∨ ∀ n < 40, off ≠ offClprof n) → t.ctl64 off = s.ctl64 off) ∧
    (∀ x ∈ t.power.pend, x ∈ s.power.pend) ∧ (∀ x ∈ t.power.recalls, x ∈ s.power.recalls) ∧
    { t.power with
      pend := s.power.pend, recalls := s.power.recalls, buckets := s.power.buckets, refilled := s.power.refilled
      quarter := s.power.quarter, quarterAt := s.power.quarterAt, urgency := s.power.urgency } = s.power)

/-! ### Reset and the numbering of cores -/

/-- R8, R255, R258, R261, R280, R283, R287, R304, R320, R340, R354, R364, R372: the fields that reset names hold the values it gives
them; memory is canonical, and lists nothing (that an unlisted byte reads 0 is the model's choice, log 1, as are the empty values
of what reset does not name: logs 2, 4 and 8). -/
def Obligations.ResetValues : Prop := State.reset.memOk ∧ (∀ a, byteAt State.reset.mem a = 0#8) ∧ State.reset.mode = 0#64 ∧ State.reset.modeNext = none ∧
  State.reset.savebase = 0#64 ∧
  (∀ c, (State.reset.core c).cyc = 0#64 ∧ (State.reset.core c).stall = 0#64 ∧ (State.reset.core c).trapvec = 0#64 ∧
    (State.reset.core c).gauge = 1024#64 ∧ (State.reset.core c).gaugerate = 1024#64 ∧ (State.reset.core c).clockOn = false ∧
    (State.reset.core c).loads = [] ∧ (State.reset.core c).stores = [] ∧ (State.reset.core c).ops = []) ∧
  (∀ n < 40, State.reset.ctlF (offClprof n) 36 12 = 1024 ∧ State.reset.ctlF (offClprof n) 24 12 = 1024 ∧
    State.reset.ctlF (offClprof n) 16 8 = 132 ∧ State.reset.ctlF (offClprof n) 8 8 = 132 ∧
    State.reset.ctlF (offClprof n) 0 2 = 0 ∧ State.reset.ctl64 (offLend n) = 0#64 ∧ State.reset.ctl64 (offLend n + 8) = 0#64) ∧
  State.reset.ctlF offPMCTL 0 10 = 10 ∧
  (∀ n < 15, State.reset.ctlF (offQos n) 0 48 = 0 ∧
    State.reset.ctlF (offQos n) 48 2 = (if n < 8 then 1 else if n < 10 then 2 else 3) ∧
    State.reset.ctlF (offQos n + 8) 0 16 = (if n = 0 ∨ 8 ≤ n then 0xFFFF else 0)) ∧
  (∀ h < 4, State.reset.ctlF (offHEADURG h) 20 10 = 64 ∧ State.reset.ctlF (offHEADURG h) 10 10 = 128 ∧
    State.reset.ctlF (offHEADURG h) 30 2 = 0 ∧ State.reset.ctlF (offHEADURG h) 32 17 = 0) ∧
  (∀ i < 6, State.reset.ctl64 (offPLCMAP i) = 0#64) ∧
  (∀ p < 8, State.reset.ctlF (offPart p) 0 1 = (if p = 0 then 1 else 0) ∧ State.reset.ctlF (offPart p) 2 2 = 0) ∧
  (∀ r, State.reset.region r = .host)

/-- R12, R13: the index of a core and of its cluster, from its coordinate, and back. -/
def Obligations.CoreNumbers : Prop :=
  (∀ x y, x < 40 → y < 16 → let die := if x ≤ 19 then 0 else 1
    coreAt x y = die * 320 + y * 20 + x % 20 ∧ coreAt x y < 640 ∧ coreDie (coreAt x y) = die ∧
    coreX (coreAt x y) = x ∧ coreY (coreAt x y) = y ∧
    (∀ (s : State) (w : Who), w.core = coreAt x y → s.special w 5 = coreAt x y) ∧
    clusterOf (coreAt x y) = die * 20 + y / 4 * 5 + x % 20 / 4 ∧ clusterOf (coreAt x y) < 40 ∧
    (∀ x' y', x' < 40 → y' < 16 → (clusterOf (coreAt x' y') = clusterOf (coreAt x y) ↔ x' / 4 = x / 4 ∧ y' / 4 = y / 4))) ∧
  (∀ c < 640, coreX c < 40 ∧ coreY c < 16 ∧ coreAt (coreX c) (coreY c) = c) ∧
  coreAt 0 0 = 0 ∧ coreAt 19 15 = 319 ∧ coreAt 20 0 = 0x140 ∧
  (∀ d, d < 2 → ∀ n < 40, (∃ c < 640, coreDie c = d ∧ clusterOf c = n) ↔ d * 20 ≤ n ∧ n < (d + 1) * 20) ∧
  (∀ (s : State) c d, clusterOf c = clusterOf d → s.profile c = s.profile d ∧ s.arrayShare c = s.arrayShare d) ∧
  (∀ v set, bitsOf v 30 2 = 1 → decodeCoreSet v = some set → ∀ c ∈ set, c < 640 ∧ clusterOf c = bitsOf v 0 6)
end

