-- ==== Sys2Proof/Laws/Table.lean ====
section
/-! SUPPORT. What tables and bytes of memory do: a read after a write, and that writing keeps the canonical form. -/

namespace Sys2Proof.Machine

variable {α : Type}

/-! ### Reading after writing -/

theorem tblGet_del_same (d : α) (t : Tbl α) (n : Nat) : tblGet d (tblDel t n) n = d := by
  induction t with
  | nil => rfl
  | cons e t ih =>
    by_cases h : e.1 = n
    · simpa [tblDel, h] using ih
    · simp only [tblDel, List.filter_cons, bne_iff_ne, ne_eq, h, not_false_eq_true, if_true, tblGet, if_false]
      simpa [tblDel] using ih

theorem tblGet_del_other (d : α) (t : Tbl α) (n m : Nat) (h : m ≠ n) : tblGet d (tblDel t n) m = tblGet d t m := by
  induction t with
  | nil => rfl
  | cons e t ih =>
    by_cases hn : e.1 = n
    · have hm : ¬ n = m := fun x => h x.symm
      simp only [tblDel, List.filter_cons, bne_iff_ne, ne_eq, hn, not_true_eq_false, if_false, tblGet, hm]
      simpa [tblDel] using ih
    · simp only [tblDel, List.filter_cons, bne_iff_ne, ne_eq, hn, not_false_eq_true, if_true, tblGet]
      split
      · rfl
      · simpa [tblDel] using ih

theorem tblGet_ins_other (d : α) (v : α) (t : Tbl α) (n m : Nat) (h : m ≠ n) : tblGet d (tblIns n v t) m = tblGet d t m := by
  have hn : ¬ n = m := fun x => h x.symm
  induction t with
  | nil => simp [tblIns, tblGet, hn]
  | cons e t ih =>
    by_cases hk : n < e.1
    · simp [tblIns, hk, tblGet, hn]
    · simp only [tblIns, hk, if_false, tblGet, ih]

theorem tblGet_ins_same (d : α) (v : α) (t : Tbl α) (n : Nat) (h : ∀ e ∈ t, e.1 ≠ n) : tblGet d (tblIns n v t) n = v := by
  induction t with
  | nil => simp [tblIns, tblGet]
  | cons e t ih =>
    by_cases hk : n < e.1
    · simp [tblIns, hk, tblGet]
    · have he : ¬ e.1 = n := h e (by simp)
      simp only [tblIns, hk, if_false, tblGet, he]
      exact ih fun x hx => h x (by simp [hx])

theorem not_mem_del (t : Tbl α) (n : Nat) : ∀ e ∈ tblDel t n, e.1 ≠ n := by
  intro e he
  simpa using (List.mem_filter.mp he).2

@[simp] theorem tblGet_put_same [DecidableEq α] (d : α) (t : Tbl α) (n : Nat) (v : α) : tblGet d (tblPut d t n v) n = v := by
  unfold tblPut
  split
  · next h => rw [tblGet_del_same, h]
  · exact tblGet_ins_same d v _ n (not_mem_del t n)

theorem tblGet_put_other [DecidableEq α] (d : α) (t : Tbl α) (n m : Nat) (v : α) (h : m ≠ n) :
    tblGet d (tblPut d t n v) m = tblGet d t m := by
  unfold tblPut
  split
  · exact tblGet_del_other d t n m h
  · rw [tblGet_ins_other d v _ n m h, tblGet_del_other d t n m h]

theorem tblGet_put [DecidableEq α] (d : α) (t : Tbl α) (n m : Nat) (v : α) :
    tblGet d (tblPut d t n v) m = if m = n then v else tblGet d t m := by
  split
  · next h => rw [h, tblGet_put_same]
  · next h => exact tblGet_put_other d t n m v h

/-! ### The canonical form -/

/-- The form as a property of pairs of entries. -/
theorem tblWfFrom_iff [DecidableEq α] (d : α) (lo : Option Nat) (t : Tbl α) :
    tblWfFrom d lo t = true ↔
      (∀ e ∈ t, (∀ b ∈ lo, b < e.1) ∧ e.2 ≠ d) ∧ t.Pairwise fun x y => x.1 < y.1 := by
  induction t generalizing lo with
  | nil => simp [tblWfFrom]
  | cons e t ih =>
    obtain ⟨k, v⟩ := e
    simp only [tblWfFrom, Bool.and_eq_true, ih, List.mem_cons, List.pairwise_cons, forall_eq_or_imp]
    cases lo with
    | none =>
      simp
      constructor
      · rintro ⟨h1, h2, h3⟩
        exact ⟨⟨h1, fun a b hm => (h2 a b hm).2⟩, fun a b hm => (h2 a b hm).1, h3⟩
      · rintro ⟨⟨h1, h2⟩, h3, h4⟩
        exact ⟨h1, fun a b hm => ⟨h3 a b hm, h2 a b hm⟩, h4⟩
    | some b =>
      simp
      constructor
      · rintro ⟨⟨h0, h1⟩, h2, h3⟩
        exact ⟨⟨⟨h0, h1⟩, fun a c hm => ⟨lt_trans h0 (h2 a c hm).1, (h2 a c hm).2⟩⟩, fun a c hm => (h2 a c hm).1, h3⟩
      · rintro ⟨⟨⟨h0, h1⟩, h2⟩, h3, h4⟩
        exact ⟨⟨h0, h1⟩, fun a c hm => ⟨h3 a c hm, (h2 a c hm).2⟩, h4⟩

theorem tblWf_iff [DecidableEq α] (d : α) (t : Tbl α) :
    tblWf d t = true ↔ (∀ e ∈ t, e.2 ≠ d) ∧ t.Pairwise fun x y => x.1 < y.1 := by
  simp [tblWf, tblWfFrom_iff]

theorem tblWf_nil [DecidableEq α] (d : α) : tblWf d [] = true := rfl

/-- What a filter keeps of a table in the form is in the form. -/
theorem tblWf_filter [DecidableEq α] (d : α) (t : Tbl α) (p : Nat × α → Bool) (h : tblWf d t = true) :
    tblWf d (t.filter p) = true := by
  rw [tblWf_iff] at *
  exact ⟨fun e he => h.1 e (List.mem_filter.mp he).1, h.2.filter p⟩

theorem mem_ins (t : Tbl α) (n : Nat) (v : α) (e : Nat × α) : e ∈ tblIns n v t ↔ e = (n, v) ∨ e ∈ t := by
  induction t with
  | nil => simp [tblIns]
  | cons x t ih =>
    by_cases hk : n < x.1
    · simp [tblIns, hk]
    · simp only [tblIns, hk, if_false, List.mem_cons, ih]
      tauto

theorem tblWf_ins [DecidableEq α] (d : α) (t : Tbl α) (n : Nat) (v : α) (hv : v ≠ d) (ht : ∀ e ∈ t, e.1 ≠ n)
    (h : tblWf d t = true) : tblWf d (tblIns n v t) = true := by
  rw [tblWf_iff] at *
  refine ⟨fun e he => ?_, ?_⟩
  · rcases (mem_ins t n v e).mp he with rfl | he
    · exact hv
    · exact h.1 e he
  · induction t with
    | nil => simp [tblIns]
    | cons x t ih =>
      have hx := List.pairwise_cons.mp h.2
      by_cases hk : n < x.1
      · simp only [tblIns, hk, if_true]
        refine List.pairwise_cons.mpr ⟨fun y hy => ?_, h.2⟩
        rcases List.mem_cons.mp hy with rfl | hy
        · exact hk
        · exact lt_trans hk (hx.1 y hy)
      · simp only [tblIns, hk, if_false]
        refine List.pairwise_cons.mpr ⟨fun y hy => ?_, ih (fun e he => ht e (by simp [he])) ⟨fun e he => h.1 e (by simp [he]), hx.2⟩⟩
        rcases (mem_ins t n v y).mp hy with rfl | hy
        · have := ht x (by simp)
          show x.1 < n
          omega
        · exact hx.1 y hy

/-- Setting a value keeps the form. -/
theorem tblWf_put [DecidableEq α] (d : α) (t : Tbl α) (n : Nat) (v : α) (h : tblWf d t = true) :
    tblWf d (tblPut d t n v) = true := by
  unfold tblPut
  have hd : tblWf d (tblDel t n) = true := tblWf_filter d t _ h
  split
  · exact hd
  · next hv => exact tblWf_ins d _ n v hv (not_mem_del t n) hd

/-! ### Bytes -/

theorem setByte_wf (m : Memory) (a : Nat) (b : Byte) (h : m.wf = true) : (setByte m a b).wf = true := tblWf_put _ m a b h

/-- Writing bytes keeps a memory's form. -/
theorem writeBytes_wf (m : Memory) (a n v : Nat) (h : m.wf = true) : (writeBytes m a n v).wf = true := by
  induction n generalizing m a v with
  | zero => exact h
  | succ n ih => exact ih _ _ _ (setByte_wf m a _ h)

@[simp] theorem byteAt_setByte_same (m : Memory) (a : Nat) (b : Byte) : byteAt (setByte m a b) a = b := tblGet_put_same _ m a b
theorem byteAt_setByte_other (m : Memory) (a x : Nat) (b : Byte) (h : x ≠ a) : byteAt (setByte m a b) x = byteAt m x :=
  tblGet_put_other _ m a x b h

/-- Bytes outside those written stay. -/
theorem byteAt_writeBytes_outside (m : Memory) (a n v x : Nat) (h : x < a ∨ a + n ≤ x) :
    byteAt (writeBytes m a n v) x = byteAt m x := by
  induction n generalizing m a v with
  | zero => rfl
  | succ n ih => rw [writeBytes, ih _ _ _ (by omega), byteAt_setByte_other _ _ _ _ (by omega)]

/-- A written byte is that byte of the value. -/
theorem byteAt_writeBytes_inside (m : Memory) (a n v i : Nat) (h : i < n) :
    byteAt (writeBytes m a n v) (a + i) = BitVec.ofNat 8 (v / 256 ^ i) := by
  induction n generalizing m a v i with
  | zero => omega
  | succ n ih =>
    rw [writeBytes]
    rcases i with _ | i
    · rw [byteAt_writeBytes_outside _ _ _ _ _ (by omega)]
      simp
    · rw [show a + (i + 1) = a + 1 + i by omega, ih _ _ _ _ (by omega), Nat.div_div_eq_div_mul, Nat.pow_succ,
        Nat.mul_comm (256 ^ i)]

/-- Reading bytes sees only the bytes read. -/
theorem readBytes_congr (m m' : Memory) (a n : Nat) (h : ∀ x, a ≤ x → x < a + n → byteAt m x = byteAt m' x) :
    readBytes m a n = readBytes m' a n := by
  induction n generalizing a with
  | zero => rfl
  | succ n ih => rw [readBytes, readBytes, h a (by omega) (by omega), ih (a + 1) fun x h1 h2 => h x (by omega) (by omega)]

/-- A read after a write to the same place gives the value written. -/
theorem readBytes_writeBytes_same (m : Memory) (a n v : Nat) : readBytes (writeBytes m a n v) a n = v % 256 ^ n := by
  induction n generalizing m a v with
  | zero => simp [readBytes, Nat.mod_one]
  | succ n ih =>
    rw [readBytes, writeBytes, byteAt_writeBytes_outside _ _ _ _ _ (by omega), byteAt_setByte_same, ih, BitVec.toNat_ofNat,
      show (2 : Nat) ^ 8 = 256 by decide, Nat.pow_succ, Nat.mul_comm (256 ^ n), Nat.mod_mul]

/-- A write leaves every other place alone. -/
theorem readBytes_writeBytes_other (m : Memory) (a n v b k : Nat) (h : b + k ≤ a ∨ a + n ≤ b) :
    readBytes (writeBytes m a n v) b k = readBytes m b k :=
  readBytes_congr _ _ _ _ fun x h1 h2 => byteAt_writeBytes_outside m a n v x (by omega)

theorem readBytes_lt (m : Memory) (a n : Nat) : readBytes m a n < 256 ^ n := by
  induction n generalizing a with
  | zero => simp [readBytes]
  | succ n ih =>
    have h1 := (byteAt m a).isLt
    have h2 := ih (a + 1)
    rw [readBytes, Nat.pow_succ]
    omega

end Sys2Proof.Machine
end

