-- ==== Sys2Proof/Laws/State.lean ====
section
/-! SUPPORT. What each update of the state leaves of each field, and what cores, contexts, threads, registers and predicates
read after one of them is written. -/

namespace Sys2Proof.Machine

/-! ### Fields -/

/-! setCore writes cores alone. -/

@[simp] theorem State.setCore_ps (s : State) (c : Nat) (x : Core) : (s.setCore c x).ps = s.ps := rfl
@[simp] theorem State.setCore_choice (s : State) (c : Nat) (x : Core) : (s.setCore c x).choice = s.choice := rfl
@[simp] theorem State.setCore_fresh (s : State) (c : Nat) (x : Core) : (s.setCore c x).fresh = s.fresh := rfl
@[simp] theorem State.setCore_agenda (s : State) (c : Nat) (x : Core) : (s.setCore c x).agenda = s.agenda := rfl
@[simp] theorem State.setCore_cur (s : State) (c : Nat) (x : Core) : (s.setCore c x).cur = s.cur := rfl
@[simp] theorem State.setCore_mem (s : State) (c : Nat) (x : Core) : (s.setCore c x).mem = s.mem := rfl
@[simp] theorem State.setCore_ctl (s : State) (c : Nat) (x : Core) : (s.setCore c x).ctl = s.ctl := rfl
@[simp] theorem State.setCore_mode (s : State) (c : Nat) (x : Core) : (s.setCore c x).mode = s.mode := rfl
@[simp] theorem State.setCore_modeNext (s : State) (c : Nat) (x : Core) : (s.setCore c x).modeNext = s.modeNext := rfl
@[simp] theorem State.setCore_savebase (s : State) (c : Nat) (x : Core) : (s.setCore c x).savebase = s.savebase := rfl
@[simp] theorem State.setCore_launches (s : State) (c : Nat) (x : Core) : (s.setCore c x).launches = s.launches := rfl
@[simp] theorem State.setCore_homes (s : State) (c : Nat) (x : Core) : (s.setCore c x).homes = s.homes := rfl
@[simp] theorem State.setCore_sched (s : State) (c : Nat) (x : Core) : (s.setCore c x).sched = s.sched := rfl
@[simp] theorem State.setCore_power (s : State) (c : Nat) (x : Core) : (s.setCore c x).power = s.power := rfl
@[simp] theorem State.setCore_svc (s : State) (c : Nat) (x : Core) : (s.setCore c x).svc = s.svc := rfl

/-! modCore writes cores alone. -/

@[simp] theorem State.modCore_ps (s : State) (c : Nat) (f : Core → Core) : (s.modCore c f).ps = s.ps := rfl
@[simp] theorem State.modCore_choice (s : State) (c : Nat) (f : Core → Core) : (s.modCore c f).choice = s.choice := rfl
@[simp] theorem State.modCore_fresh (s : State) (c : Nat) (f : Core → Core) : (s.modCore c f).fresh = s.fresh := rfl
@[simp] theorem State.modCore_agenda (s : State) (c : Nat) (f : Core → Core) : (s.modCore c f).agenda = s.agenda := rfl
@[simp] theorem State.modCore_cur (s : State) (c : Nat) (f : Core → Core) : (s.modCore c f).cur = s.cur := rfl
@[simp] theorem State.modCore_mem (s : State) (c : Nat) (f : Core → Core) : (s.modCore c f).mem = s.mem := rfl
@[simp] theorem State.modCore_ctl (s : State) (c : Nat) (f : Core → Core) : (s.modCore c f).ctl = s.ctl := rfl
@[simp] theorem State.modCore_mode (s : State) (c : Nat) (f : Core → Core) : (s.modCore c f).mode = s.mode := rfl
@[simp] theorem State.modCore_modeNext (s : State) (c : Nat) (f : Core → Core) : (s.modCore c f).modeNext = s.modeNext := rfl
@[simp] theorem State.modCore_savebase (s : State) (c : Nat) (f : Core → Core) : (s.modCore c f).savebase = s.savebase := rfl
@[simp] theorem State.modCore_launches (s : State) (c : Nat) (f : Core → Core) : (s.modCore c f).launches = s.launches := rfl
@[simp] theorem State.modCore_homes (s : State) (c : Nat) (f : Core → Core) : (s.modCore c f).homes = s.homes := rfl
@[simp] theorem State.modCore_sched (s : State) (c : Nat) (f : Core → Core) : (s.modCore c f).sched = s.sched := rfl
@[simp] theorem State.modCore_power (s : State) (c : Nat) (f : Core → Core) : (s.modCore c f).power = s.power := rfl
@[simp] theorem State.modCore_svc (s : State) (c : Nat) (f : Core → Core) : (s.modCore c f).svc = s.svc := rfl

/-! setCtx writes cores alone. -/

@[simp] theorem State.setCtx_ps (s : State) (c k : Nat) (x : Ctx) : (s.setCtx c k x).ps = s.ps := rfl
@[simp] theorem State.setCtx_choice (s : State) (c k : Nat) (x : Ctx) : (s.setCtx c k x).choice = s.choice := rfl
@[simp] theorem State.setCtx_fresh (s : State) (c k : Nat) (x : Ctx) : (s.setCtx c k x).fresh = s.fresh := rfl
@[simp] theorem State.setCtx_agenda (s : State) (c k : Nat) (x : Ctx) : (s.setCtx c k x).agenda = s.agenda := rfl
@[simp] theorem State.setCtx_cur (s : State) (c k : Nat) (x : Ctx) : (s.setCtx c k x).cur = s.cur := rfl
@[simp] theorem State.setCtx_mem (s : State) (c k : Nat) (x : Ctx) : (s.setCtx c k x).mem = s.mem := rfl
@[simp] theorem State.setCtx_ctl (s : State) (c k : Nat) (x : Ctx) : (s.setCtx c k x).ctl = s.ctl := rfl
@[simp] theorem State.setCtx_mode (s : State) (c k : Nat) (x : Ctx) : (s.setCtx c k x).mode = s.mode := rfl
@[simp] theorem State.setCtx_modeNext (s : State) (c k : Nat) (x : Ctx) : (s.setCtx c k x).modeNext = s.modeNext := rfl
@[simp] theorem State.setCtx_savebase (s : State) (c k : Nat) (x : Ctx) : (s.setCtx c k x).savebase = s.savebase := rfl
@[simp] theorem State.setCtx_launches (s : State) (c k : Nat) (x : Ctx) : (s.setCtx c k x).launches = s.launches := rfl
@[simp] theorem State.setCtx_homes (s : State) (c k : Nat) (x : Ctx) : (s.setCtx c k x).homes = s.homes := rfl
@[simp] theorem State.setCtx_sched (s : State) (c k : Nat) (x : Ctx) : (s.setCtx c k x).sched = s.sched := rfl
@[simp] theorem State.setCtx_power (s : State) (c k : Nat) (x : Ctx) : (s.setCtx c k x).power = s.power := rfl
@[simp] theorem State.setCtx_svc (s : State) (c k : Nat) (x : Ctx) : (s.setCtx c k x).svc = s.svc := rfl

/-! modCtx writes cores alone. -/

@[simp] theorem State.modCtx_ps (s : State) (c k : Nat) (f : Ctx → Ctx) : (s.modCtx c k f).ps = s.ps := rfl
@[simp] theorem State.modCtx_choice (s : State) (c k : Nat) (f : Ctx → Ctx) : (s.modCtx c k f).choice = s.choice := rfl
@[simp] theorem State.modCtx_fresh (s : State) (c k : Nat) (f : Ctx → Ctx) : (s.modCtx c k f).fresh = s.fresh := rfl
@[simp] theorem State.modCtx_agenda (s : State) (c k : Nat) (f : Ctx → Ctx) : (s.modCtx c k f).agenda = s.agenda := rfl
@[simp] theorem State.modCtx_cur (s : State) (c k : Nat) (f : Ctx → Ctx) : (s.modCtx c k f).cur = s.cur := rfl
@[simp] theorem State.modCtx_mem (s : State) (c k : Nat) (f : Ctx → Ctx) : (s.modCtx c k f).mem = s.mem := rfl
@[simp] theorem State.modCtx_ctl (s : State) (c k : Nat) (f : Ctx → Ctx) : (s.modCtx c k f).ctl = s.ctl := rfl
@[simp] theorem State.modCtx_mode (s : State) (c k : Nat) (f : Ctx → Ctx) : (s.modCtx c k f).mode = s.mode := rfl
@[simp] theorem State.modCtx_modeNext (s : State) (c k : Nat) (f : Ctx → Ctx) : (s.modCtx c k f).modeNext = s.modeNext := rfl
@[simp] theorem State.modCtx_savebase (s : State) (c k : Nat) (f : Ctx → Ctx) : (s.modCtx c k f).savebase = s.savebase := rfl
@[simp] theorem State.modCtx_launches (s : State) (c k : Nat) (f : Ctx → Ctx) : (s.modCtx c k f).launches = s.launches := rfl
@[simp] theorem State.modCtx_homes (s : State) (c k : Nat) (f : Ctx → Ctx) : (s.modCtx c k f).homes = s.homes := rfl
@[simp] theorem State.modCtx_sched (s : State) (c k : Nat) (f : Ctx → Ctx) : (s.modCtx c k f).sched = s.sched := rfl
@[simp] theorem State.modCtx_power (s : State) (c k : Nat) (f : Ctx → Ctx) : (s.modCtx c k f).power = s.power := rfl
@[simp] theorem State.modCtx_svc (s : State) (c k : Nat) (f : Ctx → Ctx) : (s.modCtx c k f).svc = s.svc := rfl

/-! setThread writes cores alone. -/

@[simp] theorem State.setThread_ps (s : State) (w : Who) (n : Nat) (x : Thread) : (s.setThread w n x).ps = s.ps := rfl
@[simp] theorem State.setThread_choice (s : State) (w : Who) (n : Nat) (x : Thread) : (s.setThread w n x).choice = s.choice := rfl
@[simp] theorem State.setThread_fresh (s : State) (w : Who) (n : Nat) (x : Thread) : (s.setThread w n x).fresh = s.fresh := rfl
@[simp] theorem State.setThread_agenda (s : State) (w : Who) (n : Nat) (x : Thread) : (s.setThread w n x).agenda = s.agenda := rfl
@[simp] theorem State.setThread_cur (s : State) (w : Who) (n : Nat) (x : Thread) : (s.setThread w n x).cur = s.cur := rfl
@[simp] theorem State.setThread_mem (s : State) (w : Who) (n : Nat) (x : Thread) : (s.setThread w n x).mem = s.mem := rfl
@[simp] theorem State.setThread_ctl (s : State) (w : Who) (n : Nat) (x : Thread) : (s.setThread w n x).ctl = s.ctl := rfl
@[simp] theorem State.setThread_mode (s : State) (w : Who) (n : Nat) (x : Thread) : (s.setThread w n x).mode = s.mode := rfl
@[simp] theorem State.setThread_modeNext (s : State) (w : Who) (n : Nat) (x : Thread) : (s.setThread w n x).modeNext = s.modeNext := rfl
@[simp] theorem State.setThread_savebase (s : State) (w : Who) (n : Nat) (x : Thread) : (s.setThread w n x).savebase = s.savebase := rfl
@[simp] theorem State.setThread_launches (s : State) (w : Who) (n : Nat) (x : Thread) : (s.setThread w n x).launches = s.launches := rfl
@[simp] theorem State.setThread_homes (s : State) (w : Who) (n : Nat) (x : Thread) : (s.setThread w n x).homes = s.homes := rfl
@[simp] theorem State.setThread_sched (s : State) (w : Who) (n : Nat) (x : Thread) : (s.setThread w n x).sched = s.sched := rfl
@[simp] theorem State.setThread_power (s : State) (w : Who) (n : Nat) (x : Thread) : (s.setThread w n x).power = s.power := rfl
@[simp] theorem State.setThread_svc (s : State) (w : Who) (n : Nat) (x : Thread) : (s.setThread w n x).svc = s.svc := rfl

/-! setSreg writes cores alone. -/

@[simp] theorem State.setSreg_ps (s : State) (w : Who) (r : Nat) (v : DWord) : (s.setSreg w r v).ps = s.ps := rfl
@[simp] theorem State.setSreg_choice (s : State) (w : Who) (r : Nat) (v : DWord) : (s.setSreg w r v).choice = s.choice := rfl
@[simp] theorem State.setSreg_fresh (s : State) (w : Who) (r : Nat) (v : DWord) : (s.setSreg w r v).fresh = s.fresh := rfl
@[simp] theorem State.setSreg_agenda (s : State) (w : Who) (r : Nat) (v : DWord) : (s.setSreg w r v).agenda = s.agenda := rfl
@[simp] theorem State.setSreg_cur (s : State) (w : Who) (r : Nat) (v : DWord) : (s.setSreg w r v).cur = s.cur := rfl
@[simp] theorem State.setSreg_mem (s : State) (w : Who) (r : Nat) (v : DWord) : (s.setSreg w r v).mem = s.mem := rfl
@[simp] theorem State.setSreg_ctl (s : State) (w : Who) (r : Nat) (v : DWord) : (s.setSreg w r v).ctl = s.ctl := rfl
@[simp] theorem State.setSreg_mode (s : State) (w : Who) (r : Nat) (v : DWord) : (s.setSreg w r v).mode = s.mode := rfl
@[simp] theorem State.setSreg_modeNext (s : State) (w : Who) (r : Nat) (v : DWord) : (s.setSreg w r v).modeNext = s.modeNext := rfl
@[simp] theorem State.setSreg_savebase (s : State) (w : Who) (r : Nat) (v : DWord) : (s.setSreg w r v).savebase = s.savebase := rfl
@[simp] theorem State.setSreg_launches (s : State) (w : Who) (r : Nat) (v : DWord) : (s.setSreg w r v).launches = s.launches := rfl
@[simp] theorem State.setSreg_homes (s : State) (w : Who) (r : Nat) (v : DWord) : (s.setSreg w r v).homes = s.homes := rfl
@[simp] theorem State.setSreg_sched (s : State) (w : Who) (r : Nat) (v : DWord) : (s.setSreg w r v).sched = s.sched := rfl
@[simp] theorem State.setSreg_power (s : State) (w : Who) (r : Nat) (v : DWord) : (s.setSreg w r v).power = s.power := rfl
@[simp] theorem State.setSreg_svc (s : State) (w : Who) (r : Nat) (v : DWord) : (s.setSreg w r v).svc = s.svc := rfl

/-! setGreg writes cores alone. -/

@[simp] theorem State.setGreg_ps (s : State) (w : Who) (n r : Nat) (v : Word) : (s.setGreg w n r v).ps = s.ps := rfl
@[simp] theorem State.setGreg_choice (s : State) (w : Who) (n r : Nat) (v : Word) : (s.setGreg w n r v).choice = s.choice := rfl
@[simp] theorem State.setGreg_fresh (s : State) (w : Who) (n r : Nat) (v : Word) : (s.setGreg w n r v).fresh = s.fresh := rfl
@[simp] theorem State.setGreg_agenda (s : State) (w : Who) (n r : Nat) (v : Word) : (s.setGreg w n r v).agenda = s.agenda := rfl
@[simp] theorem State.setGreg_cur (s : State) (w : Who) (n r : Nat) (v : Word) : (s.setGreg w n r v).cur = s.cur := rfl
@[simp] theorem State.setGreg_mem (s : State) (w : Who) (n r : Nat) (v : Word) : (s.setGreg w n r v).mem = s.mem := rfl
@[simp] theorem State.setGreg_ctl (s : State) (w : Who) (n r : Nat) (v : Word) : (s.setGreg w n r v).ctl = s.ctl := rfl
@[simp] theorem State.setGreg_mode (s : State) (w : Who) (n r : Nat) (v : Word) : (s.setGreg w n r v).mode = s.mode := rfl
@[simp] theorem State.setGreg_modeNext (s : State) (w : Who) (n r : Nat) (v : Word) : (s.setGreg w n r v).modeNext = s.modeNext := rfl
@[simp] theorem State.setGreg_savebase (s : State) (w : Who) (n r : Nat) (v : Word) : (s.setGreg w n r v).savebase = s.savebase := rfl
@[simp] theorem State.setGreg_launches (s : State) (w : Who) (n r : Nat) (v : Word) : (s.setGreg w n r v).launches = s.launches := rfl
@[simp] theorem State.setGreg_homes (s : State) (w : Who) (n r : Nat) (v : Word) : (s.setGreg w n r v).homes = s.homes := rfl
@[simp] theorem State.setGreg_sched (s : State) (w : Who) (n r : Nat) (v : Word) : (s.setGreg w n r v).sched = s.sched := rfl
@[simp] theorem State.setGreg_power (s : State) (w : Who) (n r : Nat) (v : Word) : (s.setGreg w n r v).power = s.power := rfl
@[simp] theorem State.setGreg_svc (s : State) (w : Who) (n r : Nat) (v : Word) : (s.setGreg w n r v).svc = s.svc := rfl

/-! setLaunch writes launches alone. -/

@[simp] theorem State.setLaunch_ps (s : State) (n : Nat) (l : Option Launch) : (s.setLaunch n l).ps = s.ps := rfl
@[simp] theorem State.setLaunch_choice (s : State) (n : Nat) (l : Option Launch) : (s.setLaunch n l).choice = s.choice := rfl
@[simp] theorem State.setLaunch_fresh (s : State) (n : Nat) (l : Option Launch) : (s.setLaunch n l).fresh = s.fresh := rfl
@[simp] theorem State.setLaunch_agenda (s : State) (n : Nat) (l : Option Launch) : (s.setLaunch n l).agenda = s.agenda := rfl
@[simp] theorem State.setLaunch_cur (s : State) (n : Nat) (l : Option Launch) : (s.setLaunch n l).cur = s.cur := rfl
@[simp] theorem State.setLaunch_mem (s : State) (n : Nat) (l : Option Launch) : (s.setLaunch n l).mem = s.mem := rfl
@[simp] theorem State.setLaunch_ctl (s : State) (n : Nat) (l : Option Launch) : (s.setLaunch n l).ctl = s.ctl := rfl
@[simp] theorem State.setLaunch_mode (s : State) (n : Nat) (l : Option Launch) : (s.setLaunch n l).mode = s.mode := rfl
@[simp] theorem State.setLaunch_modeNext (s : State) (n : Nat) (l : Option Launch) : (s.setLaunch n l).modeNext = s.modeNext := rfl
@[simp] theorem State.setLaunch_savebase (s : State) (n : Nat) (l : Option Launch) : (s.setLaunch n l).savebase = s.savebase := rfl
@[simp] theorem State.setLaunch_cores (s : State) (n : Nat) (l : Option Launch) : (s.setLaunch n l).cores = s.cores := rfl
@[simp] theorem State.setLaunch_homes (s : State) (n : Nat) (l : Option Launch) : (s.setLaunch n l).homes = s.homes := rfl
@[simp] theorem State.setLaunch_sched (s : State) (n : Nat) (l : Option Launch) : (s.setLaunch n l).sched = s.sched := rfl
@[simp] theorem State.setLaunch_power (s : State) (n : Nat) (l : Option Launch) : (s.setLaunch n l).power = s.power := rfl
@[simp] theorem State.setLaunch_svc (s : State) (n : Nat) (l : Option Launch) : (s.setLaunch n l).svc = s.svc := rfl

/-! setRegion writes homes alone. -/

@[simp] theorem State.setRegion_ps (s : State) (r : Nat) (x : Region) : (s.setRegion r x).ps = s.ps := rfl
@[simp] theorem State.setRegion_choice (s : State) (r : Nat) (x : Region) : (s.setRegion r x).choice = s.choice := rfl
@[simp] theorem State.setRegion_fresh (s : State) (r : Nat) (x : Region) : (s.setRegion r x).fresh = s.fresh := rfl
@[simp] theorem State.setRegion_agenda (s : State) (r : Nat) (x : Region) : (s.setRegion r x).agenda = s.agenda := rfl
@[simp] theorem State.setRegion_cur (s : State) (r : Nat) (x : Region) : (s.setRegion r x).cur = s.cur := rfl
@[simp] theorem State.setRegion_mem (s : State) (r : Nat) (x : Region) : (s.setRegion r x).mem = s.mem := rfl
@[simp] theorem State.setRegion_ctl (s : State) (r : Nat) (x : Region) : (s.setRegion r x).ctl = s.ctl := rfl
@[simp] theorem State.setRegion_mode (s : State) (r : Nat) (x : Region) : (s.setRegion r x).mode = s.mode := rfl
@[simp] theorem State.setRegion_modeNext (s : State) (r : Nat) (x : Region) : (s.setRegion r x).modeNext = s.modeNext := rfl
@[simp] theorem State.setRegion_savebase (s : State) (r : Nat) (x : Region) : (s.setRegion r x).savebase = s.savebase := rfl
@[simp] theorem State.setRegion_cores (s : State) (r : Nat) (x : Region) : (s.setRegion r x).cores = s.cores := rfl
@[simp] theorem State.setRegion_launches (s : State) (r : Nat) (x : Region) : (s.setRegion r x).launches = s.launches := rfl
@[simp] theorem State.setRegion_sched (s : State) (r : Nat) (x : Region) : (s.setRegion r x).sched = s.sched := rfl
@[simp] theorem State.setRegion_power (s : State) (r : Nat) (x : Region) : (s.setRegion r x).power = s.power := rfl
@[simp] theorem State.setRegion_svc (s : State) (r : Nat) (x : Region) : (s.setRegion r x).svc = s.svc := rfl

/-! setHdir writes homes alone. -/

@[simp] theorem State.setHdir_ps (s : State) (l : Nat) (x : HostDir) : (s.setHdir l x).ps = s.ps := rfl
@[simp] theorem State.setHdir_choice (s : State) (l : Nat) (x : HostDir) : (s.setHdir l x).choice = s.choice := rfl
@[simp] theorem State.setHdir_fresh (s : State) (l : Nat) (x : HostDir) : (s.setHdir l x).fresh = s.fresh := rfl
@[simp] theorem State.setHdir_agenda (s : State) (l : Nat) (x : HostDir) : (s.setHdir l x).agenda = s.agenda := rfl
@[simp] theorem State.setHdir_cur (s : State) (l : Nat) (x : HostDir) : (s.setHdir l x).cur = s.cur := rfl
@[simp] theorem State.setHdir_mem (s : State) (l : Nat) (x : HostDir) : (s.setHdir l x).mem = s.mem := rfl
@[simp] theorem State.setHdir_ctl (s : State) (l : Nat) (x : HostDir) : (s.setHdir l x).ctl = s.ctl := rfl
@[simp] theorem State.setHdir_mode (s : State) (l : Nat) (x : HostDir) : (s.setHdir l x).mode = s.mode := rfl
@[simp] theorem State.setHdir_modeNext (s : State) (l : Nat) (x : HostDir) : (s.setHdir l x).modeNext = s.modeNext := rfl
@[simp] theorem State.setHdir_savebase (s : State) (l : Nat) (x : HostDir) : (s.setHdir l x).savebase = s.savebase := rfl
@[simp] theorem State.setHdir_cores (s : State) (l : Nat) (x : HostDir) : (s.setHdir l x).cores = s.cores := rfl
@[simp] theorem State.setHdir_launches (s : State) (l : Nat) (x : HostDir) : (s.setHdir l x).launches = s.launches := rfl
@[simp] theorem State.setHdir_sched (s : State) (l : Nat) (x : HostDir) : (s.setHdir l x).sched = s.sched := rfl
@[simp] theorem State.setHdir_power (s : State) (l : Nat) (x : HostDir) : (s.setHdir l x).power = s.power := rfl
@[simp] theorem State.setHdir_svc (s : State) (l : Nat) (x : HostDir) : (s.setHdir l x).svc = s.svc := rfl

/-! setCtl writes ctl alone. -/

@[simp] theorem State.setCtl_ps (s : State) (n : Nat) (v : DWord) : (s.setCtl n v).ps = s.ps := rfl
@[simp] theorem State.setCtl_choice (s : State) (n : Nat) (v : DWord) : (s.setCtl n v).choice = s.choice := rfl
@[simp] theorem State.setCtl_fresh (s : State) (n : Nat) (v : DWord) : (s.setCtl n v).fresh = s.fresh := rfl
@[simp] theorem State.setCtl_agenda (s : State) (n : Nat) (v : DWord) : (s.setCtl n v).agenda = s.agenda := rfl
@[simp] theorem State.setCtl_cur (s : State) (n : Nat) (v : DWord) : (s.setCtl n v).cur = s.cur := rfl
@[simp] theorem State.setCtl_mem (s : State) (n : Nat) (v : DWord) : (s.setCtl n v).mem = s.mem := rfl
@[simp] theorem State.setCtl_mode (s : State) (n : Nat) (v : DWord) : (s.setCtl n v).mode = s.mode := rfl
@[simp] theorem State.setCtl_modeNext (s : State) (n : Nat) (v : DWord) : (s.setCtl n v).modeNext = s.modeNext := rfl
@[simp] theorem State.setCtl_savebase (s : State) (n : Nat) (v : DWord) : (s.setCtl n v).savebase = s.savebase := rfl
@[simp] theorem State.setCtl_cores (s : State) (n : Nat) (v : DWord) : (s.setCtl n v).cores = s.cores := rfl
@[simp] theorem State.setCtl_launches (s : State) (n : Nat) (v : DWord) : (s.setCtl n v).launches = s.launches := rfl
@[simp] theorem State.setCtl_homes (s : State) (n : Nat) (v : DWord) : (s.setCtl n v).homes = s.homes := rfl
@[simp] theorem State.setCtl_sched (s : State) (n : Nat) (v : DWord) : (s.setCtl n v).sched = s.sched := rfl
@[simp] theorem State.setCtl_power (s : State) (n : Nat) (v : DWord) : (s.setCtl n v).power = s.power := rfl
@[simp] theorem State.setCtl_svc (s : State) (n : Nat) (v : DWord) : (s.setCtl n v).svc = s.svc := rfl

/-! ### Cores, contexts, threads -/

@[simp] theorem State.setLaunch_launch (s : State) (n : Nat) (l : Option Launch) : (s.setLaunch n l).launch n = l :=
  tblGet_put_same _ _ _ _
@[simp] theorem State.setRegion_region (s : State) (r : Nat) (x : Region) : (s.setRegion r x).region r = x := tblGet_put_same _ _ _ _
@[simp] theorem State.setHdir_hdir (s : State) (l : Nat) (x : HostDir) : (s.setHdir l x).hdir l = x := tblGet_put_same _ _ _ _
@[simp] theorem State.setCtl_ctl64 (s : State) (n : Nat) (v : DWord) : (s.setCtl n v).ctl64 n = v := tblGet_put_same _ _ _ _
theorem State.setCtl_ctl64_other (s : State) (n m : Nat) (v : DWord) (h : m ≠ n) : (s.setCtl n v).ctl64 m = s.ctl64 m := by
  by_cases hd : ctlReset m = ctlReset n
  · simpa [State.ctl64, State.setCtl, hd] using tblGet_put_other (ctlReset n) s.ctl n m v h
  · unfold State.ctl64 State.setCtl tblPut
    split
    · exact tblGet_del_other _ _ _ _ h
    · rw [tblGet_ins_other _ _ _ _ _ h, tblGet_del_other _ _ _ _ h]

@[simp] theorem State.setCore_core (s : State) (c : Nat) (x : Core) : (s.setCore c x).core c = x := tblGet_put_same _ _ _ _
theorem State.setCore_core_other (s : State) (c d : Nat) (x : Core) (h : d ≠ c) : (s.setCore c x).core d = s.core d :=
  tblGet_put_other _ _ _ _ _ h
theorem State.core_setCore (s : State) (c d : Nat) (x : Core) : (s.setCore c x).core d = if d = c then x else s.core d :=
  tblGet_put _ _ _ _ _

/-- What a context reads after a context is written. -/
theorem State.ctx_setCtx (s : State) (c k d j : Nat) (x : Ctx) :
    (s.setCtx c k x).ctx d j = if d = c ∧ j = k then x else s.ctx d j := by
  unfold State.setCtx State.modCore State.ctx
  rw [State.core_setCore]
  by_cases hd : d = c
  · subst hd
    simp only [if_true, true_and, tblGet_put]
  · simp [hd]

@[simp] theorem State.modCore_core (s : State) (c : Nat) (f : Core → Core) : (s.modCore c f).core c = f (s.core c) :=
  tblGet_put_same _ _ _ _
/-- What a core reads after a core is changed. -/
theorem State.core_modCore (s : State) (c d : Nat) (f : Core → Core) :
    (s.modCore c f).core d = if d = c then f (s.core c) else s.core d := State.core_setCore s c d _
/-- A change of a core that keeps its contexts keeps every context. -/
theorem State.ctx_modCore (s : State) (c d k : Nat) (f : Core → Core) (h : (f (s.core c)).ctxs = (s.core c).ctxs) :
    (s.modCore c f).ctx d k = s.ctx d k := by
  unfold State.ctx
  rw [State.core_modCore]
  split
  · next e => rw [h, e]
  · rfl

@[simp] theorem State.setCtx_ctx (s : State) (c k : Nat) (x : Ctx) : (s.setCtx c k x).ctx c k = x := by simp [State.ctx_setCtx]

@[simp] theorem State.modCtx_ctx (s : State) (c k : Nat) (f : Ctx → Ctx) : (s.modCtx c k f).ctx c k = f (s.ctx c k) := by
  simp [State.modCtx]
/-- What a context reads after a context is changed. -/
theorem State.ctx_modCtx (s : State) (c k d j : Nat) (f : Ctx → Ctx) :
    (s.modCtx c k f).ctx d j = if d = c ∧ j = k then f (s.ctx c k) else s.ctx d j := State.ctx_setCtx s c k d j _

/-- Writing a context changes a core in its contexts alone. -/
theorem State.core_setCtx (s : State) (c k d : Nat) (x : Ctx) :
    (s.setCtx c k x).core d = if d = c then { s.core d with ctxs := tblPut {} (s.core d).ctxs k x } else s.core d := by
  unfold State.setCtx State.modCore
  rw [State.core_setCore]
  split
  · next h => rw [h]
  · rfl

/-- The threads of a context after one is written. -/
theorem Ctx.threads_setThread (x : Ctx) (n m : Nat) (t : Thread) :
    tblGet none (x.setThread n t).threads m = if m = n then some t else tblGet none x.threads m := by
  show tblGet none (tblPut none x.threads n (some t)) m = _
  rw [tblGet_put]

theorem Ctx.thread_setThread (x : Ctx) (n m : Nat) (t : Thread) : (x.setThread n t).thread m = if m = n then t else x.thread m := by
  unfold Ctx.thread
  rw [Ctx.threads_setThread]
  split <;> rfl

/-- What a thread reads after a thread is written. -/
theorem State.thread_setThread (s : State) (w v : Who) (n m : Nat) (t : Thread) :
    (s.setThread w n t).thread v m = if v.core = w.core ∧ v.ctx = w.ctx ∧ m = n then t else s.thread v m := by
  unfold State.setThread State.modCtx State.thread
  rw [State.ctx_setCtx]
  by_cases h : v.core = w.core ∧ v.ctx = w.ctx
  · obtain ⟨h1, h2⟩ := h
    rw [h1, h2]
    simp [Ctx.thread_setThread]
  · rw [if_neg h, if_neg fun x => h ⟨x.1, x.2.1⟩]

/-! ### Registers and predicates -/

/-- Equality of executors, field by field. -/
theorem Who.eq_iff (w v : Who) : w = v ↔ w.core = v.core ∧ w.ctx = v.ctx ∧ w.tid = v.tid := by
  cases w
  cases v
  simp

/-- What an s-register reads after an s-register is written. -/
theorem State.sreg_setSreg (s : State) (w v : Who) (r q : Nat) (x : DWord) :
    (s.setSreg w r x).sreg v q = if v.core = w.core ∧ v.ctx = w.ctx ∧ q = r then x else s.sreg v q := by
  unfold State.setSreg State.modCtx State.sreg
  rw [State.ctx_setCtx]
  by_cases h : v.core = w.core ∧ v.ctx = w.ctx
  · obtain ⟨h1, h2⟩ := h
    rw [h1, h2]
    simp [tblGet_put]
  · rw [if_neg h, if_neg fun x => h ⟨x.1, x.2.1⟩]

/-- What a g-register reads after a g-register is written. -/
theorem State.greg_setGreg (s : State) (w v : Who) (n m r q : Nat) (x : Word) :
    (s.setGreg w n r x).greg v m q = if v.core = w.core ∧ v.ctx = w.ctx ∧ m = n ∧ q = r then x else s.greg v m q := by
  unfold State.setGreg State.greg
  simp only [State.thread_setThread]
  by_cases h : v.core = w.core ∧ v.ctx = w.ctx ∧ m = n
  · obtain ⟨h1, h2, h3⟩ := h
    simp only [h1, h2, h3, and_self, if_true, tblGet_put, true_and]
    split
    · rfl
    · simp [State.thread, h1, h2]
  · rw [if_neg h, if_neg fun x => h ⟨x.1, x.2.1, x.2.2.1⟩]

theorem State.sreg_setGreg (s : State) (w v : Who) (n r q : Nat) (x : Word) : (s.setGreg w n r x).sreg v q = s.sreg v q := by
  unfold State.setGreg State.setThread State.modCtx State.sreg
  rw [State.ctx_setCtx]
  split
  · next h => rw [h.1, h.2]; rfl
  · rfl

theorem State.thread_setSreg (s : State) (w v : Who) (r m : Nat) (x : DWord) : (s.setSreg w r x).thread v m = s.thread v m := by
  unfold State.setSreg State.modCtx State.thread
  rw [State.ctx_setCtx]
  split
  · next h => rw [h.1, h.2]; rfl
  · rfl

/-- What a register reads after a register is written. -/
theorem State.reg_setReg (s : State) (w v : Who) (d r : Reg) (x : Nat) :
    (s.setReg w d x).reg v r = if v = w ∧ r = d then x % 2 ^ w.width else s.reg v r := by
  obtain ⟨c, k, n⟩ := w
  obtain ⟨c', k', n'⟩ := v
  rcases n with _ | n <;> rcases n' with _ | n' <;>
    simp only [State.setReg, State.reg, State.sreg_setSreg, State.greg_setGreg, State.sreg_setGreg, Who.eq_iff, Who.width,
      Option.isSome, Option.some.injEq, BitVec.toNat_inj, reduceCtorEq, and_false, false_and, if_false, and_assoc, and_true]
  · split <;> simp
  · simp [State.greg, State.thread_setSreg]
  · split <;> simp

@[simp] theorem State.reg_setReg_same (s : State) (w : Who) (d : Reg) (x : Nat) : (s.setReg w d x).reg w d = x % 2 ^ w.width := by
  simp [State.reg_setReg]

/-- Register n of an executor, for any n. -/
def State.regN (s : State) (w : Who) (n : Nat) : Nat :=
  match w.tid with
  | none => (s.sreg w n).toNat
  | some t => (s.greg w t n).toNat

theorem State.reg_eq_regN (s : State) (w : Who) (r : Reg) : s.reg w r = s.regN w r.toNat := rfl

theorem State.regN_setReg (s : State) (w v : Who) (d : Reg) (n x : Nat) :
    (s.setReg w d x).regN v n = if v = w ∧ n = d.toNat then x % 2 ^ w.width else s.regN v n := by
  obtain ⟨c, k, t⟩ := w
  obtain ⟨c', k', t'⟩ := v
  rcases t with _ | t <;> rcases t' with _ | t' <;>
    simp only [State.setReg, State.regN, State.sreg_setSreg, State.greg_setGreg, State.sreg_setGreg, Who.eq_iff, Who.width,
      Option.isSome, Option.some.injEq, reduceCtorEq, and_false, false_and, if_false, and_assoc, and_true]
  · split <;> simp
  · simp [State.greg, State.thread_setSreg]
  · split <;> simp

/-- The registers of a 64-bit operand: one of a lead strand, two of a thread. -/
def wideRegs (w : Who) (d : Reg) (n : Nat) : Prop := n = d.toNat ∨ (w.tid.isSome ∧ n = d.toNat + 1)

theorem State.regN_setReg64_other (s : State) (w v : Who) (d : Reg) (n : Nat) (x : DWord) (h : ¬ (v = w ∧ wideRegs w d n)) :
    (s.setReg64 w d x).regN v n = s.regN v n := by
  obtain ⟨c, k, t⟩ := w
  obtain ⟨c', k', t'⟩ := v
  unfold wideRegs at h
  rcases t with _ | t <;> rcases t' with _ | t' <;>
    simp only [State.setReg64, State.setGpair, State.regN, State.sreg_setSreg, State.greg_setGreg, State.sreg_setGreg, Who.eq_iff,
      Option.isSome, Option.some.injEq, reduceCtorEq, and_false, false_and, and_true, true_and, or_false,
      Bool.false_eq_true] at h ⊢
  · rw [if_neg fun x => h ⟨⟨x.1, x.2.1⟩, x.2.2⟩]
  · simp [State.greg, State.thread_setSreg]
  · rw [if_neg fun x => h ⟨⟨x.1, x.2.1, x.2.2.1⟩, .inr x.2.2.2⟩, if_neg fun x => h ⟨⟨x.1, x.2.1, x.2.2.1⟩, .inl x.2.2.2⟩]

theorem append_halves (x : DWord) : x.extractLsb' 32 32 ++ x.extractLsb' 0 32 = x := by
  ext i hi
  rw [BitVec.getElem_append]
  split
  · simp
    rfl
  · next h =>
    simp only [BitVec.getElem_extractLsb']
    rw [show 32 + (i - 32) = i by omega]
    rfl

@[simp] theorem State.reg64_setReg64_same (s : State) (w : Who) (d : Reg) (x : DWord) : (s.setReg64 w d x).reg64 w d = x := by
  obtain ⟨c, k, t⟩ := w
  rcases t with _ | t
  · simp [State.setReg64, State.reg64, State.sreg_setSreg]
  · simp only [State.setReg64, State.setGpair, State.reg64, State.gpair, State.greg_setGreg]
    simp only [and_self, if_true, true_and, Nat.left_eq_add, Nat.succ_ne_self, if_false, one_ne_zero]
    exact append_halves x

/-! ### Predicates -/

theorem getLsbD_putBit {n : Nat} (x : BitVec n) (i j : Nat) (b : Bool) :
    (putBit x i b).getLsbD j = if j = i ∧ i < n then b else x.getLsbD j := by
  unfold putBit
  by_cases hj : j < n
  · by_cases h : j = i
    · subst h
      cases b <;> simp [hj]
    · cases b <;> simp [hj, h]
  · have h : ¬ (j = i ∧ i < n) := by omega
    simp [h, BitVec.getLsbD_of_ge, Nat.not_lt.mp hj]

/-- What a predicate reads after a predicate is written. -/
theorem State.pred_setPred (s : State) (w v : Who) (n m : Nat) (b : Bool) (hn : hasPred w n) :
    (s.setPred w n b).pred v m = if v = w ∧ m = n then b else s.pred v m := by
  obtain ⟨c, k, t⟩ := w
  obtain ⟨c', k', t'⟩ := v
  unfold hasPred at hn
  rcases t with _ | t <;> rcases t' with _ | t' <;>
    simp only [State.setPred, State.pred, State.modCtx, State.ctx_setCtx, State.thread_setThread, Who.eq_iff, reduceCtorEq,
      and_false, false_and, if_false, and_true, Option.some.injEq, Option.isSome_none, Option.isSome_some, Bool.false_eq_true,
      if_true] at hn ⊢
  · by_cases h : c' = c ∧ k' = k
    · rw [if_pos h, getLsbD_putBit, h.1, h.2]
      simp [hn]
    · rw [if_neg h, if_neg fun x => h x.1]
  · unfold State.thread
    rw [State.ctx_setCtx]
    by_cases h : c' = c ∧ k' = k
    · rw [if_pos h, h.1, h.2]
      rfl
    · rw [if_neg h]
  · unfold State.setThread State.modCtx
    rw [State.ctx_setCtx]
    by_cases h : c' = c ∧ k' = k
    · rw [if_pos h, h.1, h.2]
      rfl
    · rw [if_neg h]
  · by_cases h : c' = c ∧ k' = k ∧ t' = t
    · rw [if_pos h, getLsbD_putBit, h.1, h.2.1, h.2.2]
      simp [hn, State.thread]
    · rw [if_neg h, if_neg fun x => h ⟨x.1.1, x.1.2.1, x.1.2.2⟩]

/-- A register holds a value of the executor's width. -/
theorem State.reg_lt (s : State) (w : Who) (r : Reg) : s.reg w r < 2 ^ w.width := by
  obtain ⟨c, k, n⟩ := w
  rcases n with _ | n
  · exact (s.sreg _ _).isLt
  · exact (s.greg _ _ _).isLt

end Sys2Proof.Machine
end

