-- ==== Sys2Proof/Laws/Issue.lean ====
section
/-! SUPPORT. What the shared operations of words do to a whole issue: each executor's registers or predicates, once, and
nothing else. -/

namespace Sys2Proof.Machine

/-! ### States that agree apart from some parts -/

/-- Taking over a part, and then taking it over again, is taking over the last. -/
def Overwrites {α : Type} (f : α → α → α) : Prop := (∀ a, f a a = a) ∧ ∀ a b c, f a (f b c) = f a c

variable {cx : Ctx → Ctx → Ctx} {th : Thread → Thread → Thread}

theorem SameApart.refl (hc : Overwrites cx) (ht : Overwrites th) (s : State) : SameApart cx th s s := by
  refine ⟨rfl, fun c => ⟨rfl, fun k => ⟨by rw [hc.1], fun n => ?_⟩⟩⟩
  rcases h : tblGet none (s.ctx c k).threads n with _ | t
  · rfl
  · have e : (s.ctx c k).thread n = t := by simp [Ctx.thread, h]
    rw [e, Option.map_some, ht.1]

/-- The parts that are taken over stay out of each other's way. -/
def KeepsThreads (cx : Ctx → Ctx → Ctx) : Prop := ∀ a b, (cx a b).threads = b.threads ∧
  ∀ x y, cx { a with threads := x } { b with threads := y } = { cx a b with threads := y }

theorem SameApart.trans (hc : Overwrites cx) (hk : KeepsThreads cx) (ht : Overwrites th) {s t u : State}
    (h1 : SameApart cx th s t) (h2 : SameApart cx th t u) : SameApart cx th s u := by
  obtain ⟨a1, b1⟩ := h1
  obtain ⟨a2, b2⟩ := h2
  refine ⟨?_, fun c => ⟨?_, fun k => ⟨?_, fun n => ?_⟩⟩⟩
  · rw [← a2] at a1
    exact a1
  · have e1 := (b1 c).1
    have e2 := (b2 c).1
    rw [← e2] at e1
    exact e1
  · have e1 := ((b1 c).2 k).1
    have e2 := ((b2 c).2 k).1
    generalize s.ctx c k = x at *
    generalize t.ctx c k = y at *
    generalize u.ctx c k = z at *
    have hy : y = { cx y z with threads := y.threads } := e2.symm
    have e3 : cx x y = { cx x z with threads := y.threads } := by
      have h := (hk x (cx y z)).2 x.threads y.threads
      rw [← hy] at h
      rw [show ({ x with threads := x.threads } : Ctx) = x from rfl] at h
      rw [h, hc.2]
    rw [e3] at e1
    exact e1
  · have e1 := ((b1 c).2 k).2 n
    have e2 := ((b2 c).2 k).2 n
    unfold Ctx.thread at *
    generalize tblGet none (s.ctx c k).threads n = x at *
    generalize tblGet none (t.ctx c k).threads n = y at *
    generalize tblGet none (u.ctx c k).threads n = z at *
    rcases x with _ | x <;> rcases y with _ | y <;> rcases z with _ | z <;>
      simp_all only [Option.map_some, Option.map_none, Option.getD_some, Option.some.injEq, reduceCtorEq]
    rw [← ht.2 x y z, e2, e1]

theorem overwrites_s : Overwrites (fun o n : Ctx => { n with s := o.s }) := ⟨fun _ => rfl, fun _ _ _ => rfl⟩
theorem overwrites_q : Overwrites (fun o n : Ctx => { n with q := o.q }) := ⟨fun _ => rfl, fun _ _ _ => rfl⟩
theorem overwrites_g : Overwrites (fun o n : Thread => { n with g := o.g }) := ⟨fun _ => rfl, fun _ _ _ => rfl⟩
theorem overwrites_p : Overwrites (fun o n : Thread => { n with p := o.p }) := ⟨fun _ => rfl, fun _ _ _ => rfl⟩

theorem OnlyRegs.refl (s : State) : OnlyRegs s s := SameApart.refl overwrites_s overwrites_g s
theorem OnlyRegs.trans {s t u : State} (h1 : OnlyRegs s t) (h2 : OnlyRegs t u) : OnlyRegs s u :=
  SameApart.trans overwrites_s (fun _ _ => ⟨rfl, fun _ _ => rfl⟩) overwrites_g h1 h2
theorem OnlyPreds.refl (s : State) : OnlyPreds s s := SameApart.refl overwrites_q overwrites_p s
theorem OnlyPreds.trans {s t u : State} (h1 : OnlyPreds s t) (h2 : OnlyPreds t u) : OnlyPreds s u :=
  SameApart.trans overwrites_q (fun _ _ => ⟨rfl, fun _ _ => rfl⟩) overwrites_p h1 h2

/-! ### A change of one context or thread -/

/-- A change of one context that leaves its threads alone. -/
theorem SameApart.of_modCtx (hc : Overwrites cx) (ht : Overwrites th) (s : State) (c k : Nat) (f : Ctx → Ctx)
    (hf : { cx (s.ctx c k) (f (s.ctx c k)) with threads := (s.ctx c k).threads } = s.ctx c k)
    (hth : (f (s.ctx c k)).threads = (s.ctx c k).threads) : SameApart cx th s (s.modCtx c k f) := by
  have hr := SameApart.refl hc ht s
  unfold State.modCtx
  refine ⟨rfl, fun d => ⟨?_, fun j => ?_⟩⟩
  · rw [State.core_setCtx]
    split <;> rfl
  · rw [State.ctx_setCtx]
    split
    · next h =>
      obtain ⟨rfl, rfl⟩ := h
      refine ⟨hf, fun n => ?_⟩
      rw [hth]
      exact ((hr.2 d).2 j).2 n
    · exact (hr.2 d).2 j

/-- A change of one live thread. -/
theorem SameApart.of_setThread (hc : Overwrites cx) (hk : KeepsThreads cx) (ht : Overwrites th) (s : State) (w : Who) (n : Nat)
    (x : Thread) (hx : th (s.thread w n) x = s.thread w n) (hl : (tblGet none (s.ctx w.core w.ctx).threads n).isSome) :
    SameApart cx th s (s.setThread w n x) := by
  have hr := SameApart.refl hc ht s
  unfold State.setThread State.modCtx
  refine ⟨rfl, fun d => ⟨?_, fun j => ?_⟩⟩
  · rw [State.core_setCtx]
    split <;> rfl
  · rw [State.ctx_setCtx]
    split
    · next h =>
      obtain ⟨rfl, rfl⟩ := h
      refine ⟨?_, fun m => ?_⟩
      · generalize s.ctx w.core w.ctx = y
        have h := (hk y y).2 y.threads (y.setThread n x).threads
        rw [hc.1] at h
        have h' : cx y (y.setThread n x) = y.setThread n x := h
        show { cx y (y.setThread n x) with threads := y.threads } = y
        rw [h']
        rfl
      · rw [Ctx.threads_setThread]
        split
        · next hm =>
          subst hm
          unfold State.thread Ctx.thread at *
          rcases h : tblGet none (s.ctx w.core w.ctx).threads m with _ | t
          · simp [h] at hl
          · simp only [h, Option.getD_some] at hx
            simp [hx]
        · exact ((hr.2 _).2 _).2 m
    · exact (hr.2 d).2 j

theorem OnlyRegs.setReg (s : State) (w : Who) (d : Reg) (v : Nat) (h : Alive s w) : OnlyRegs s (s.setReg w d v) := by
  obtain ⟨c, k, n⟩ := w
  rcases n with _ | n
  · exact SameApart.of_modCtx overwrites_s overwrites_g s c k _ rfl rfl
  · exact SameApart.of_setThread overwrites_s (fun _ _ => ⟨rfl, fun _ _ => rfl⟩) overwrites_g s _ n _ rfl (h n rfl)

theorem OnlyPreds.setPred (s : State) (w : Who) (n : Nat) (b : Bool) (h : Alive s w) : OnlyPreds s (s.setPred w n b) := by
  obtain ⟨c, k, m⟩ := w
  rcases m with _ | m
  · exact SameApart.of_modCtx overwrites_q overwrites_p s c k _ rfl rfl
  · exact SameApart.of_setThread overwrites_q (fun _ _ => ⟨rfl, fun _ _ => rfl⟩) overwrites_p s _ m _ rfl (h m rfl)

/-- Who is alive stays alive. -/
theorem SameApart.alive {s t : State} (h : SameApart cx th s t) (w : Who) (ha : Alive s w) : Alive t w := by
  intro n hn
  have e := ((h.2 w.core).2 w.ctx).2 n
  have ha := ha n hn
  rw [← e] at ha
  simpa using ha

/-! ### Executors of an issue -/

theorem Issue.whos_nodup {s : State} {i : Issue} (h : Issuing s i) : i.whos.Nodup := by
  unfold Issue.whos
  split
  · simp
  · refine h.2.1.map ?_
    intro a b hab
    simpa using congrArg Who.tid hab

theorem Issue.whos_alive {s : State} {i : Issue} (h : Issuing s i) : ∀ w ∈ i.whos, Alive s w := by
  intro w hw
  unfold Issue.whos at hw
  intro n hn
  split at hw
  · simp only [List.mem_singleton] at hw
    rw [hw] at hn
    exact absurd hn (by simp)
  · next hl =>
    obtain ⟨t, ht, rfl⟩ := List.mem_map.mp hw
    have e : t = n := by simpa using hn
    subst e
    exact h.2.2 (by simpa using hl) t ht

/-- A fold over distinct executors, each of which changes only what it observes of itself: after it, those that act have
changed what they observe once, from the state before, and the others not at all. -/
theorem fold_each {α : Type} (own : State → Who → α) (R : State → State → Prop) (hR : ∀ s, R s s)
    (hT : ∀ s t u, R s t → R t u → R s u) (p : Who → Bool) (b : Who → State → State) (ok : Who → Prop) (s : State)
    (hb : ∀ t w, R s t → ok w → R t (b w t)) (ho : ∀ t w v, R s t → ok w → v ≠ w → own (b w t) v = own t v) :
    ∀ (l : List Who), l.Nodup → (∀ w ∈ l, ok w) → ∀ t, R s t →
      let u := l.foldl (fun st w => if p w then b w st else st) t
      R t u ∧ (∀ v, ¬ (v ∈ l ∧ p v = true) → own u v = own t v) ∧
        ∀ v, v ∈ l → p v = true → ∃ x, R s x ∧ own x v = own t v ∧ own u v = own (b v x) v := by
  intro l
  induction l with
  | nil => intro _ _ t _; exact ⟨hR t, fun v _ => rfl, fun v hv => absurd hv (by simp)⟩
  | cons w l ih =>
    intro hn hok t ht
    have hn' := List.nodup_cons.mp hn
    have hw : ok w := hok w (by simp)
    have hr : R t (if p w then b w t else t) := by
      split
      · exact hb t w ht hw
      · exact hR t
    obtain ⟨h1, h2, h3⟩ := ih hn'.2 (fun v hv => hok v (by simp [hv])) _ (hT _ _ _ ht hr)
    have hne : ∀ v, v ≠ w → own (if p w then b w t else t) v = own t v := by
      intro v hv
      split
      · exact ho t w v ht hw hv
      · rfl
    refine ⟨hT _ _ _ hr h1, fun v hv => ?_, fun v hv hp => ?_⟩
    · have h : own (List.foldl (fun st w => if p w then b w st else st) (if p w then b w t else t) l) v =
          own (if p w then b w t else t) v := h2 v fun hx => hv ⟨by simp [hx.1], hx.2⟩
      rw [List.foldl_cons, h]
      by_cases hvw : v = w
      · subst hvw
        have hp : p v = false := by simpa using hv
        simp [hp]
      · exact hne v hvw
    · rw [List.foldl_cons]
      by_cases hvw : v = w
      · subst hvw
        refine ⟨t, ht, rfl, ?_⟩
        have h := h2 v fun hx => hn'.1 hx.1
        simp only [hp, if_true] at h ⊢
        exact h
      · have hl : v ∈ l := by simpa [hvw] using hv
        obtain ⟨x, hx1, hx2, hx3⟩ := h3 v hl hp
        exact ⟨x, hx1, by rw [hx2, hne v hvw], hx3⟩

/-- What a value that a word computes may depend on: the executor's registers, and what only registers leave alone. -/
def OwnValue {β : Type} (v : State → Who → β) : Prop :=
  ∀ s t w, OnlyRegs s t → (∀ n, t.regN w n = s.regN w n) → v t w = v s w

/-- writeReg writes one register of each executor that acts. -/
theorem writeReg_gives (x : Instr) (d : Reg) (f v : State → Who → Nat) (hx : ∀ s, exec x s = writeReg x.guard d f s)
    (hv : OwnValue f) (he : ∀ s w, f s w % 2 ^ w.width = v s w % 2 ^ w.width) : Gives x d v := by
  intro s i hi
  refine ⟨_, by rw [hx, writeReg, eachExec, onIssue, hi.1], ?_⟩
  have h := fold_each (fun t w n => t.regN w n) OnlyRegs OnlyRegs.refl (fun _ _ _ => OnlyRegs.trans)
    (fun w => s.guardOk w x.guard) (fun w st => st.setReg w d (f st w)) (Alive s) s
    (fun t w ht hw => OnlyRegs.setReg t w d _ (ht.alive w hw))
    (fun t w u _ _ hu => by funext n; rw [State.regN_setReg, if_neg fun h => hu h.1])
    i.whos (Issue.whos_nodup hi) (Issue.whos_alive hi) s (OnlyRegs.refl s)
  obtain ⟨h1, h2, h3⟩ := h
  refine ⟨fun w hw => ?_, fun w r hw => ?_, h1⟩
  · obtain ⟨y, hy1, hy2, hy3⟩ := h3 w hw.1 hw.2
    rw [State.reg_eq_regN, congrFun hy3 d.toNat, ← State.reg_eq_regN, State.reg_setReg_same,
      hv s y w hy1 fun n => congrFun hy2 n, he]
  · by_cases ha : Acts s i x w
    · obtain ⟨y, hy1, hy2, hy3⟩ := h3 w ha.1 ha.2
      rw [State.reg_eq_regN, congrFun hy3 r.toNat, ← State.reg_eq_regN, State.reg_setReg, if_neg fun h => hw ⟨ha, h.2⟩,
        State.reg_eq_regN, congrFun hy2, State.reg_eq_regN]
    · exact congrFun (h2 w ha) r.toNat

theorem OnlyRegs.setReg64 (s : State) (w : Who) (d : Reg) (v : DWord) (h : Alive s w) : OnlyRegs s (s.setReg64 w d v) := by
  obtain ⟨c, k, n⟩ := w
  rcases n with _ | n
  · exact SameApart.of_modCtx overwrites_s overwrites_g s c k _ rfl rfl
  · have h1 : OnlyRegs s (s.setGreg ⟨c, k, some n⟩ n d.toNat (v.extractLsb' 0 32)) :=
      SameApart.of_setThread overwrites_s (fun _ _ => ⟨rfl, fun _ _ => rfl⟩) overwrites_g s _ n _ rfl (h n rfl)
    refine h1.trans ?_
    exact SameApart.of_setThread overwrites_s (fun _ _ => ⟨rfl, fun _ _ => rfl⟩) overwrites_g _ _ n _ rfl (h1.alive ⟨c, k, some n⟩ h n rfl)

/-- A word that writes a 64-bit operand of each executor that acts. -/
theorem setReg64_gives (x : Instr) (d : Reg) (f v : State → Who → DWord)
    (hx : ∀ s, exec x s = eachExec x.guard (fun _ w st => st.setReg64 w d (f st w)) s)
    (hv : OwnValue f) (he : ∀ s w, f s w = v s w) : GivesWide x d v := by
  intro s i hi
  refine ⟨_, by rw [hx, eachExec, onIssue, hi.1], ?_⟩
  have h := fold_each (fun t w n => t.regN w n) OnlyRegs OnlyRegs.refl (fun _ _ _ => OnlyRegs.trans)
    (fun w => s.guardOk w x.guard) (fun w st => st.setReg64 w d (f st w)) (Alive s) s
    (fun t w ht hw => OnlyRegs.setReg64 t w d _ (ht.alive w hw))
    (fun t w u _ _ hu => by funext n; rw [State.regN_setReg64_other _ _ _ _ _ _ fun h => hu h.1])
    i.whos (Issue.whos_nodup hi) (Issue.whos_alive hi) s (OnlyRegs.refl s)
  obtain ⟨h1, h2, h3⟩ := h
  have hread : ∀ (a b : State) (w : Who) (r : Reg), (fun n => a.regN w n) = (fun n => b.regN w n) → a.reg64 w r = b.reg64 w r := by
    intro a b w r hab
    obtain ⟨c, k, n⟩ := w
    rcases n with _ | n
    · exact BitVec.eq_of_toNat_eq (congrFun hab r.toNat)
    · have e1 := BitVec.eq_of_toNat_eq (congrFun hab (r.toNat + 1))
      have e2 := BitVec.eq_of_toNat_eq (congrFun hab r.toNat)
      simp only [State.reg64, State.gpair, e1, e2]
  refine ⟨fun w hw => ?_, fun w r hw => ?_, h1⟩
  · obtain ⟨y, hy1, hy2, hy3⟩ := h3 w hw.1 hw.2
    rw [hread _ _ w d hy3, State.reg64_setReg64_same, hv s y w hy1 fun n => congrFun hy2 n, he]
  · by_cases ha : Acts s i x w
    · obtain ⟨y, hy1, hy2, hy3⟩ := h3 w ha.1 ha.2
      rw [State.reg_eq_regN, congrFun hy3 r.toNat, State.regN_setReg64_other, congrFun hy2, State.reg_eq_regN]
      rintro ⟨-, h | h⟩
      · exact hw ⟨ha, .inl (BitVec.eq_of_toNat_eq h)⟩
      · exact hw ⟨ha, .inr h⟩
    · exact congrFun (h2 w ha) r.toNat

/-! ### Predicates -/

/-- What a predicate's value may depend on: the executor's predicates, and what only predicates leave alone. -/
def OwnTest {β : Type} (v : State → Who → β) : Prop :=
  ∀ s t w, OnlyPreds s t → (∀ n, t.pred w n = s.pred w n) → v t w = v s w

theorem OnlyPreds.regN {s t : State} (h : OnlyPreds s t) (w : Who) (n : Nat) : t.regN w n = s.regN w n := by
  obtain ⟨c, k, m⟩ := w
  have hc := (h.2 c).2 k
  rcases m with _ | m
  · have e := congrArg Ctx.s hc.1
    simp only [State.regN, State.sreg]
    exact congrArg (fun x => (tblGet 0#64 x n).toNat) e
  · have e := hc.2 m
    simp only [State.regN, State.greg, State.thread, Ctx.thread] at *
    generalize tblGet none (s.ctx c k).threads m = a at *
    generalize tblGet none (t.ctx c k).threads m = b at *
    rcases a with _ | a <;> rcases b with _ | b <;> simp_all only [Option.map_some, Option.map_none, reduceCtorEq, Option.getD_some,
      Option.some.injEq]
    have e' : b.g = a.g := by
      rw [← e]
    rw [e']

theorem OnlyPreds.reg {s t : State} (h : OnlyPreds s t) (w : Who) (r : Reg) : t.reg w r = s.reg w r := h.regN w r.toNat

theorem OnlyPreds.reg64 {s t : State} (h : OnlyPreds s t) (w : Who) (r : Reg) : t.reg64 w r = s.reg64 w r := by
  obtain ⟨c, k, n⟩ := w
  rcases n with _ | n
  · exact BitVec.eq_of_toNat_eq (h.regN ⟨c, k, none⟩ r.toNat)
  · have e1 := BitVec.eq_of_toNat_eq (h.regN ⟨c, k, some n⟩ (r.toNat + 1))
    have e2 := BitVec.eq_of_toNat_eq (h.regN ⟨c, k, some n⟩ r.toNat)
    simp only [State.reg64, State.gpair, e1, e2]

/-- A word that writes predicates of each executor that acts. -/
theorem preds_give (x : Instr) (ds : Who → List Nat) (b : Who → State → State) (v : State → Who → Nat → Bool)
    (hx : ∀ s, exec x s = eachExec x.guard (fun _ w st => b w st) s) (hv : OwnTest v)
    (ho : ∀ s w, Alive s w → OnlyPreds s (b w s))
    (hb : ∀ s w u n, (∀ n ∈ ds w, hasPred w n) → (b w s).pred u n = if u = w ∧ n ∈ ds w then v s w n else s.pred u n) :
    GivesPreds x ds v := by
  intro s i hi hp
  refine ⟨_, by rw [hx, eachExec, onIssue, hi.1], ?_⟩
  have h := fold_each (fun t w n => t.pred w n) OnlyPreds OnlyPreds.refl (fun _ _ _ => OnlyPreds.trans)
    (fun w => s.guardOk w x.guard) b (fun w => Alive s w ∧ ∀ n ∈ ds w, hasPred w n) s
    (fun t w ht hw => ho t w (ht.alive w hw.1))
    (fun t w u _ hw hu => by funext n; rw [hb t w u n hw.2, if_neg fun h => hu h.1])
    i.whos (Issue.whos_nodup hi) (fun w hw => ⟨Issue.whos_alive hi w hw, hp w hw⟩) s (OnlyPreds.refl s)
  obtain ⟨h1, h2, h3⟩ := h
  refine ⟨fun w n hw hn => ?_, fun w n hw => ?_, h1⟩
  · obtain ⟨y, hy1, hy2, hy3⟩ := h3 w hw.1 hw.2
    rw [congrFun hy3 n, hb _ _ _ _ (hp w hw.1), if_pos ⟨rfl, hn⟩, hv s y w hy1 fun n => congrFun hy2 n]
  · by_cases ha : Acts s i x w
    · obtain ⟨y, hy1, hy2, hy3⟩ := h3 w ha.1 ha.2
      rw [congrFun hy3 n, hb _ _ _ _ (hp w ha.1), if_neg fun h => hw ⟨ha, h.2⟩, congrFun hy2 n]
    · exact congrFun (h2 w ha) n

end Sys2Proof.Machine
end

