-- ==== Sys2Proof/Laws/Ops.lean ====
section
/-! SUPPORT. What the operations that words share do: one executor's word, an access that reaches its place, a trap, a wait,
and the bytes they leave alone. -/

namespace Sys2Proof.Machine

/-- What only registers leave alone: predicates. -/
theorem OnlyRegs.pred {s t : State} (h : OnlyRegs s t) (w : Who) (n : Nat) : t.pred w n = s.pred w n := by
  obtain ⟨c, k, m⟩ := w
  have hc := (h.2 c).2 k
  rcases m with _ | m
  · have e := congrArg Ctx.q hc.1
    simp only [State.pred]
    exact congrArg (fun x => BitVec.getLsbD x n) e
  · have e := hc.2 m
    simp only [State.pred, State.thread, Ctx.thread] at *
    generalize tblGet none (s.ctx c k).threads m = a at *
    generalize tblGet none (t.ctx c k).threads m = b at *
    rcases a with _ | a <;> rcases b with _ | b <;> simp_all only [Option.map_some, Option.map_none, reduceCtorEq, Option.getD_some,
      Option.some.injEq]
    have e' : b.p = a.p := by rw [← e]
    rw [e']

/-- The word of one executor whose guard is true is its meaning for that executor. -/
theorem exec_one {s : State} {i : Issue} {x : Instr} {w : Who} (h : Runs s i x w) (f : Issue → Who → State → State)
    (hx : exec x s = eachExec x.guard f s) : exec x s = .next (f i w s) := by
  rw [hx, eachExec, onIssue, h.1.1]
  simp [h.1.2, h.2]

/-- The word of one executor whose guard is false leaves everything. -/
theorem exec_none {s : State} {i : Issue} {x : Instr} {w : Who} (h : IssuingOne s i w) (hg : s.guardOk w x.guard = false)
    (f : Issue → Who → State → State) (hx : exec x s = eachExec x.guard f s) : exec x s = .next s := by
  rw [hx, eachExec, onIssue, h.1]
  simp [h.2, hg]

/-! ### Accesses -/

/-- An access to global memory that is free to issue, aligned and translated goes on at its physical address. -/
theorem access_reaches {i : Issue} {w : Who} {acc : Access} {n : Nat} {va : DWord} {s s1 : State} {pa : Nat} {cached : Bool}
    (h1 : s.acquiring w = false) (h2 : va.toNat % n = 0) (h3 : s.xlat w i.pc acc va = (.ok pa cached, s1))
    (f : Reached → State → State) : access i w acc n va f s = f { pa, cached } s1 := by
  simp only [State.xlat] at h3
  simp [access, h1, h2, h3]

/-- A misaligned one is cause 3. -/
theorem access_misaligned {i : Issue} {w : Who} {acc : Access} {n : Nat} {va : DWord} {s : State}
    (h1 : s.acquiring w = false) (h2 : va.toNat % n ≠ 0) (f : Reached → State → State) :
    access i w acc n va f s = trapMisaligned i w va s := by
  simp [access, h1, h2]

/-- An access to the scratchpad that is free to issue, aligned and in the window goes on at its offset. -/
theorem smemAccess_reaches {i : Issue} {w : Who} {align size o : Nat} {off : Int} {s : State} (h1 : s.acquiring w = false)
    (h2 : off = o) (h3 : o % align = 0) (h4 : o + size ≤ s.smemSize w.core w.ctx) (f : Nat → State → State) :
    smemAccess i w align size off f s = f o s := by
  subst h2
  have hz : (o : Int) % (align : Nat) = 0 := by exact_mod_cast h3
  have hb : ¬ ((o : Int) < 0 ∨ ((s.smemSize w.core w.ctx : Nat) : Int) < (o : Int) + (size : Nat)) := by omega
  simp only [smemAccess, h1, hz, hb]
  simp

/-- The scratchpad offset of a base register without a lent offset. -/
theorem smemAddr_none (s : State) (w : Who) (a : Reg) (n : Nat) : s.smemAddr w a none n = (s.reg w a % 2 ^ 22 : Nat) := by
  simp [State.smemAddr, offBytes]

/-! ### Strands -/

theorem State.strand_modStrand (s : State) (w : Who) (f : Strand → Strand) (h : Alive s w) :
    (s.modStrand w f).strand w = f (s.strand w) := by
  obtain ⟨c, k, n⟩ := w
  rcases n with _ | n
  · simp [State.modStrand, State.setStrand, State.strand]
  · have hl := h n rfl
    simp only [State.modStrand, State.setStrand, State.strand, State.thread_setThread]
    rcases hh : tblGet none (s.ctx c k).threads n with _ | t
    · simp [hh] at hl
    · simp

theorem State.reg_modStrand (s : State) (w : Who) (f : Strand → Strand) (v : Who) (r : Reg) :
    (s.modStrand w f).reg v r = s.reg v r := by
  obtain ⟨c, k, n⟩ := w
  obtain ⟨d, j, m⟩ := v
  rcases n with _ | n <;> rcases m with _ | m
  · simp only [State.modStrand, State.setStrand, State.reg_eq_regN, State.regN, State.sreg, State.ctx_modCtx]
    split <;> rename_i h
    · obtain ⟨rfl, rfl⟩ := h; rfl
    · rfl
  · simp only [State.modStrand, State.setStrand, State.reg_eq_regN, State.regN, State.greg, State.thread, State.ctx_modCtx]
    split <;> rename_i h
    · obtain ⟨rfl, rfl⟩ := h; rfl
    · rfl
  · simp only [State.modStrand, State.setStrand, State.setThread, State.reg_eq_regN, State.regN, State.sreg, State.ctx_modCtx]
    split <;> rename_i h
    · obtain ⟨rfl, rfl⟩ := h; rfl
    · rfl
  · simp only [State.modStrand, State.setStrand, State.setThread, State.reg_eq_regN, State.regN, State.greg, State.thread,
      State.ctx_modCtx]
    split <;> rename_i h
    · obtain ⟨rfl, rfl⟩ := h
      rw [Ctx.thread_setThread]
      split <;> rename_i hm
      · subst hm; rfl
      · rfl
    · rfl

@[simp] theorem State.modStrand_mem (s : State) (w : Who) (f : Strand → Strand) : (s.modStrand w f).mem = s.mem := by
  obtain ⟨c, k, n⟩ := w
  rcases n with _ | n <;> rfl
@[simp] theorem State.modStrand_cur (s : State) (w : Who) (f : Strand → Strand) : (s.modStrand w f).cur = s.cur := by
  obtain ⟨c, k, n⟩ := w
  rcases n with _ | n <;> rfl
@[simp] theorem State.modStrand_ps (s : State) (w : Who) (f : Strand → Strand) : (s.modStrand w f).ps = s.ps := by
  obtain ⟨c, k, n⟩ := w
  rcases n with _ | n <;> rfl

/-- A context's other fields are left alone. -/
theorem State.modStrand_traps (s : State) (w : Who) (f : Strand → Strand) (c k : Nat) :
    ((s.modStrand w f).ctx c k).traps = (s.ctx c k).traps := by
  obtain ⟨d, j, n⟩ := w
  rcases n with _ | n
  · simp only [State.modStrand, State.setStrand, State.ctx_modCtx]
    split <;> rename_i h
    · obtain ⟨rfl, rfl⟩ := h; rfl
    · rfl
  · simp only [State.modStrand, State.setStrand, State.setThread, State.ctx_modCtx]
    split <;> rename_i h
    · obtain ⟨rfl, rfl⟩ := h; rfl
    · rfl

/-! ### Traps and waits -/

theorem Ctx.thread_settle (x : Ctx) (n : Nat) : (x.settle.thread n).str = (x.thread n).str ∧ (x.settle.thread n).g = (x.thread n).g := by
  have h : tblGet none x.settle.threads n =
      (tblGet none x.threads n).map fun t => { t with latch := t.settled, latchPend := [] } := by
    unfold Ctx.settle
    simp only
    induction x.threads with
    | nil => rfl
    | cons e t ih =>
      simp only [List.map_cons, tblGet]
      split
      · rfl
      · exact ih
  simp only [Ctx.thread, h]
  rcases tblGet none x.threads n with _ | t
  · exact ⟨rfl, rfl⟩
  · exact ⟨rfl, rfl⟩

/-- A listed trap, its context settled; registers, PCs and memory stay. -/
theorem State.listTrap_spec (s : State) (c k : Nat) (t : Trap) (h : t.cause ≠ 8 ∧ t.cause ≠ 9) :
    let u := s.listTrap c k t
    (u.ctx c k).traps = (s.ctx c k).traps ++ [t] ∧ u.mem = s.mem ∧ u.cur = s.cur ∧ (∀ v r, u.reg v r = s.reg v r) ∧
      (∀ v, (u.strand v).pc = (s.strand v).pc) ∧ ∀ d, (u.core d).ops = (s.core d).ops ∧ (u.core d).mx = (s.core d).mx := by
  intro u
  have hu : u = s.modCtx c k fun x => x.addTrap t s.ps := by
    simp only [u, State.listTrap, if_neg (not_or.mpr h)]
  have hctx : ∀ d j, u.ctx d j = if d = c ∧ j = k then (s.ctx c k).addTrap t s.ps else s.ctx d j := by
    intro d j; rw [hu, State.ctx_modCtx]
  refine ⟨?_, ?_, ?_, ?_, ?_, ?_⟩
  · rw [hctx, if_pos ⟨rfl, rfl⟩]; rfl
  · rw [hu]; rfl
  · rw [hu]; rfl
  · rintro ⟨d, j, n⟩ r
    rcases n with _ | n
    · simp only [State.reg_eq_regN, State.regN, State.sreg, hctx]
      split <;> rename_i e
      · obtain ⟨rfl, rfl⟩ := e; rfl
      · rfl
    · simp only [State.reg_eq_regN, State.regN, State.greg, State.thread, hctx]
      split <;> rename_i e
      · obtain ⟨rfl, rfl⟩ := e
        exact congrArg (fun g => (tblGet 0#32 g r.toNat).toNat) (Ctx.thread_settle (s.ctx d j) n).2
      · rfl
  · rintro ⟨d, j, n⟩
    rcases n with _ | n
    · simp only [State.strand, hctx]
      split <;> rename_i e
      · obtain ⟨rfl, rfl⟩ := e; rfl
      · rfl
    · simp only [State.strand, State.thread, hctx]
      split <;> rename_i e
      · obtain ⟨rfl, rfl⟩ := e
        exact congrArg Strand.pc (Ctx.thread_settle (s.ctx d j) n).1
      · rfl
  · intro d
    rw [hu, State.modCtx, State.core_setCtx]
    split <;> rename_i e
    · subst e; exact ⟨rfl, rfl⟩
    · exact ⟨rfl, rfl⟩

/-- A precise trap that is not a page fault: it is listed last, with its cause, its executor and the bundle's PC, the executor
stays at the bundle, and registers, memory, engines stay as they were. -/
theorem trapAs_spec (i : Issue) (w : Who) (cause sub : Nat) (va info : DWord) (write : Bool) (s : State)
    (h : cause ≠ 8 ∧ cause ≠ 9) (ha : Alive s w) :
    let u := trapAs i w cause sub va info write s
    (∃ tr, (u.ctx w.core w.ctx).traps = (s.ctx w.core w.ctx).traps ++ [tr] ∧ tr.cause = cause ∧ tr.va = va ∧ tr.info = info ∧
      tr.tid = w.tid ∧ tr.pc = i.pc ∧ tr.exk = (if w.tid.isNone then 1 else 0) ∧ tr.regionPc = (s.strand w).regionPc ∧
      tr.regionCnt = (s.strand w).regionCnt) ∧
    (u.strand w).pc = i.pc ∧ u.mem = s.mem ∧ (∀ v r, u.reg v r = s.reg v r) ∧
    ∀ d, (u.core d).ops = (s.core d).ops ∧ (u.core d).mx = (s.core d).mx := by
  intro u
  have hs := State.strand_modStrand s w (fun x => { x with pc := i.pc }) ha
  obtain ⟨h1, h2, -, h4, h5, h6⟩ := State.listTrap_spec (s.modStrand w fun x => { x with pc := i.pc }) w.core w.ctx
    { (s.modStrand w fun x => { x with pc := i.pc }).trapOf w (slotCode i.slot) cause sub va info with write } h
  refine ⟨⟨_, h1.trans (by rw [State.modStrand_traps]), rfl, rfl, rfl, rfl, ?_, rfl, ?_, ?_⟩, ?_, ?_, ?_, ?_⟩
  · simp only [State.trapOf, hs]
  · simp only [State.trapOf, hs]
  · simp only [State.trapOf, hs]
  · exact (h5 w).trans (by rw [hs])
  · exact h2.trans (State.modStrand_mem s w _)
  · intro v r
    exact (h4 v r).trans (State.reg_modStrand s w _ v r)
  · intro d
    obtain ⟨a, b⟩ := h6 d
    have e : ((s.modStrand w fun x => { x with pc := i.pc }).core d).ops = (s.core d).ops ∧
        ((s.modStrand w fun x => { x with pc := i.pc }).core d).mx = (s.core d).mx := by
      obtain ⟨c, k, n⟩ := w
      rcases n with _ | n
      · simp only [State.modStrand, State.setStrand, State.modCtx, State.core_setCtx]
        split <;> rename_i e
        · subst e; exact ⟨rfl, rfl⟩
        · exact ⟨rfl, rfl⟩
      · simp only [State.modStrand, State.setStrand, State.setThread, State.modCtx, State.core_setCtx]
        split <;> rename_i e
        · subst e; exact ⟨rfl, rfl⟩
        · exact ⟨rfl, rfl⟩
    exact ⟨a.trans e.1, b.trans e.2⟩

/-- A wait marks the executor in the issue and nothing else. -/
theorem markWait_spec (w : Who) (s : State) (i : Issue) (h : s.cur = some i) :
    markWait w s = { s with cur := some { i with waits := i.waits ++ [w.key] } } := by
  simp [markWait, h]


/-! ### Walks and spans -/

/-- A level of a walk whose table entry is held. -/
theorem walkFrom_held (s : State) (cached : Nat → Option Nat) (va n table e : Nat) (path : List (Nat × Nat)) (hn : 2 ≤ n + 1)
    (hc : cached (levelShift (n + 1)) = some e) (hv : bitOf e 0 = true) (hl : bitOf e 1 = false) :
    walkFrom s cached va (n + 1) table path = walkFrom s cached va n (bitsOf e 12 28 * 4096) ((levelShift (n + 1), e) :: path) := by
  have h1 : 1 ≤ n := by omega
  have h2 : 2 ≤ n + 1 := by omega
  rw [walkFrom, if_pos h1, hc]
  simp [walkLevel, hv, hl, h2]
/-- A level of a walk that reads a sound leaf, of a page of its own. -/
theorem walkLevel_leaf (s : State) (va n table e : Nat) (path : List (Nat × Nat)) (next : Nat → List (Nat × Nat) → WalkEnd) (hn : n < 3)
    (hx : s.entryStop (table + 8 * bitsOf va (levelShift n) 9) = none)
    (he : s.homeRead (table + 8 * bitsOf va (levelShift n) 9) 8 = e) (hv : bitOf e 0 = true) (hl : bitOf e 1 = true)
    (hb : leafBad n e = false) (hg : bitOf e 9 = false) :
    walkLevel s none va n table path next = .leaf n e (table + 8 * bitsOf va (levelShift n) 9) path := by
  have hn' : ¬ 3 ≤ n := by omega
  simp [walkLevel, hx, he, hv, hl, hb, hg, hn']
/-- A span whose pieces translate where they should and are ready, in every state that its walks and its accesses lead to:
`f` gives the place of each piece, those of one page side by side. -/
theorem span_kept (P : State → Prop) (a : Agent) (die part : Nat) (user : Bool) (acc : Access) (c : Bool) (n : Nat) (va : DWord)
    (f : Nat → Nat) (page : Option Nat)
    (ht : ∀ s k, P s → k < n → ∃ t, s.dieTranslate a die part user acc (va + BitVec.ofNat 64 (64 * k)) = (.ok (f k) c, t) ∧ P t)
    (hr : ∀ s k, P s → k < n → inCtl (f k) = false ∧ s.accReady a (acc == .write) (f k) = (true, s) ∧
      P (s.served (regionOf (s.forward (f k))) a))
    (hf : ∀ k, (va + BitVec.ofNat 64 (64 * (k + 1))).toNat % 4096 ≠ 0 →
      f (k + 1) = f k - (va + BitVec.ofNat 64 (64 * k)).toNat % 4096 + (va + BitVec.ofNat 64 (64 * (k + 1))).toNat % 4096)
    (hp : ∀ p, page = some p → va.toNat % 4096 ≠ 0 → f 0 = p + va.toNat % 4096)
    (s : State) (hs : P s) :
    ∃ t, s.span a die part user acc va page n = (.ok ((List.range n).map f), t) ∧ P t := by
  induction n generalizing va s f page with
  | zero => exact ⟨s, rfl, hs⟩
  | succ n ih =>
    have e : ∀ k, va + 64#64 + BitVec.ofNat 64 (64 * k) = va + BitVec.ofNat 64 (64 * (k + 1)) := by
      intro k
      rw [show 64 * (k + 1) = 64 + 64 * k by omega, BitVec.ofNat_add, ← BitVec.add_assoc]
    have e0 : va + BitVec.ofNat 64 (64 * 0) = va := by simp
    have e1 : va + BitVec.ofNat 64 (64 * 1) = va + 64#64 := by simp
    have tail : ∀ t, P t → ∃ u, (t.served (regionOf (t.forward (f 0))) a).span a die part user acc (va + 64#64) (some (f 0 - va.toNat % 4096)) n =
        (.ok ((List.range n).map fun k => f (k + 1)), u) ∧ P u := fun t h2 =>
      ih (va + 64#64) (fun k => f (k + 1)) (some (f 0 - va.toNat % 4096))
        (fun s k hs hk => by rw [e]; exact ht s (k + 1) hs (by omega)) (fun s k hs hk => hr s (k + 1) hs (by omega))
        (fun k => by rw [e, e]; exact hf (k + 1))
        (fun p h h0 => by
          have hh := hf 0 (by rw [e1]; exact h0)
          rw [e0, e1] at hh
          rw [← Option.some.inj h, hh]) _ (hr t 0 h2 (by omega)).2.2
    have first : ∃ t, s.dieTranslate a die part user acc va = (.ok (f 0) c, t) ∧ P t := by
      have h := ht s 0 hs (by omega)
      rwa [e0] at h
    rw [State.span]
    rcases hq : (if va.toNat % 4096 = 0 then none else page) with _ | q
    · obtain ⟨t, h1, h2⟩ := first
      obtain ⟨u, h6, h7⟩ := tail t h2
      obtain ⟨h3, h4, -⟩ := hr t 0 h2 (by omega)
      refine ⟨u, ?_, h7⟩
      simp only [h1, h3, h4, h6, Bool.false_eq_true, if_false]
      simp [List.range_succ_eq_map, Function.comp_def]
    · obtain ⟨u, h6, h7⟩ := tail s hs
      obtain ⟨h3, h4, -⟩ := hr s 0 hs (by omega)
      refine ⟨u, ?_, h7⟩
      have h0 : va.toNat % 4096 ≠ 0 := fun h => by simp [h] at hq
      rw [if_neg h0] at hq
      have h1 := hp q hq h0
      simp only [← h1, h3, h4, h6, Bool.false_eq_true, if_false]
      simp [List.range_succ_eq_map, Function.comp_def]

end Sys2Proof.Machine
end

