-- ==== Sys2Proof/Laws/Memory.lean ====
section
/-! SUPPORT. What the shared writes do to global memory: where the bytes go, what stays, and that the canonical form is
kept. -/

namespace Sys2Proof.Machine

/-- A fold of steps that keep a property keeps it. -/
theorem foldl_keeps {α β : Type} (P : β → Prop) (f : β → α → β) (l : List α) (b : β) (h : P b) (hf : ∀ b a, P b → P (f b a)) :
    P (l.foldl f b) := by
  induction l generalizing b with
  | nil => exact h
  | cons a t ih => exact ih _ (hf b a h)

/-! ### What a purge leaves alone -/

/-- Two states agree in what addresses memory: its bytes, the control space, the keys, the poison. -/
def SameMemory (s t : State) : Prop :=
  t.mem = s.mem ∧ t.ctl = s.ctl ∧ t.homes.poison = s.homes.poison ∧ t.homes.keys = s.homes.keys

theorem SameMemory.trans {s t u : State} (h : SameMemory s t) (k : SameMemory t u) : SameMemory s u :=
  ⟨k.1.trans h.1, k.2.1.trans h.2.1, k.2.2.1.trans h.2.2.1, k.2.2.2.trans h.2.2.2⟩

theorem SameMemory.rfl (s : State) : SameMemory s s := ⟨.refl _, .refl _, .refl _, .refl _⟩

theorem State.modCore_same (s : State) (c : Nat) (f : Core → Core) : SameMemory s (s.modCore c f) := ⟨rfl, rfl, rfl, rfl⟩
theorem State.loseLine_same (s : State) (c line : Nat) : SameMemory s (s.loseLine c line) := ⟨rfl, rfl, rfl, rfl⟩
theorem State.send_same (s : State) (c l : Nat) (k : MsgKind) : SameMemory s (s.send c l k) := ⟨rfl, rfl, rfl, rfl⟩
theorem State.dropMsg_same (s : State) (n : Nat) : SameMemory s (s.dropMsg n) := ⟨rfl, rfl, rfl, rfl⟩
theorem State.fillL1_same (s : State) (c : Nat) (x : L1Line) : SameMemory s (s.fillL1 c x) := by
  unfold State.fillL1
  dsimp only
  split
  · split <;> exact ⟨rfl, rfl, rfl, rfl⟩
  · exact ⟨rfl, rfl, rfl, rfl⟩

theorem State.castLand_same (s : State) (core line stc part : Nat) (data : Line) : SameMemory s (s.castLand core line stc part data) := by
  unfold State.castLand
  split
  · exact State.send_same _ _ _ _
  · refine .trans ?_ (State.send_same _ _ _ _)
    unfold State.castInstall
    exact ((State.loseLine_same s core line).trans (State.fillL1_same _ core _)).trans (State.modCore_same _ core _)

theorem State.sendCasts_same (s : State) (id n : Nat) : SameMemory s (s.sendCasts id n) := by
  unfold State.sendCasts
  split
  · exact .rfl s
  · refine foldl_keeps (SameMemory s) _ _ _ (.rfl s) fun b a h => ?_
    exact h.trans (State.send_same _ _ _ _)

theorem State.landCasts_same (s : State) (p : Nat → Bool) : SameMemory s (s.landCasts p) := by
  unfold State.landCasts
  refine foldl_keeps (SameMemory s) _ _ _ ?_ fun b a h => ?_
  · exact foldl_keeps (SameMemory s) _ _ _ (.rfl s) fun b a h => h.trans (State.sendCasts_same _ _ _)
  · split
    · split
      · exact h.trans ((State.dropMsg_same _ _).trans (State.castLand_same _ _ _ _ _ _))
      · exact h
    · exact h

/-- The purge of a line's copies touches no memory and no register. -/
theorem State.purgeLine_same (s : State) (line : Nat) : SameMemory s (s.purgeLine line) :=
  (State.landCasts_same s _).trans (.rfl _)

/-- A migration's forwarding depends on the control space alone. -/
theorem State.forward_congr (s t : State) (h : t.ctl = s.ctl) (pa : Nat) : t.forward pa = s.forward pa := by
  unfold State.forward State.migAt State.migDst State.migSrc State.migState State.migLen State.ctlF State.ctl64
  rw [h]

/-! ### Writes at the home -/

theorem State.rekey_memOk (s : State) (line : Nat) (h : s.memOk) : (s.rekey line).memOk := by
  unfold State.rekey
  split
  · exact writeBytes_wf _ _ _ _ h
  · exact h

/-- While partition 0 alone has drawn keys, no line stands under another pair. -/
theorem State.rekey_unkeyed (s : State) (line : Nat) (h : s.keyed = false) : s.rekey line = s := by
  simp [State.rekey, State.stale, h]

theorem State.poke_mem (s : State) (pa n v : Nat) (h : s.keyed = false) : (s.poke pa n v).mem = writeBytes s.mem (s.forward pa) n v := by
  simp [State.poke, State.rekey_unkeyed _ _ h]

theorem State.keyed_congr {s t : State} (h : SameMemory s t) : t.keyed = s.keyed := by
  unfold State.keyed
  rw [h.2.2.2]

/-- A write at the home of a line that holds no poison puts its bytes where the address is forwarded to. -/
theorem State.homeWrite_mem (s : State) (pa n v : Nat) (hp : s.poisonAt pa = 0) (hk : s.keyed = false) :
    (s.homeWrite pa n v).mem = writeBytes s.mem (s.forward pa) n v := by
  have h := State.purgeLine_same s (lineOf (s.forward pa))
  unfold State.homeWrite
  rw [if_neg (by simp [hp]), State.poke_mem _ _ _ _ ((State.keyed_congr h).trans hk), h.1,
    State.forward_congr _ _ h.2.1]
/-- One that meets poison writes nothing (22 R347). -/
theorem State.homeWrite_poison (s : State) (pa n v : Nat) (hp : s.poisonAt pa ≠ 0) : (s.homeWrite pa n v).mem = s.mem := by
  simp [State.homeWrite, hp]

theorem State.poke_memOk (s : State) (pa n v : Nat) (h : s.memOk) : (s.poke pa n v).memOk :=
  writeBytes_wf _ _ _ _ (State.rekey_memOk _ _ (State.rekey_memOk _ _ h))
theorem State.homeWrite_memOk (s : State) (pa n v : Nat) (h : s.memOk) : (s.homeWrite pa n v).memOk := by
  unfold State.homeWrite
  split
  · exact h
  · refine State.poke_memOk _ _ _ _ ?_
    unfold State.memOk
    rw [(State.purgeLine_same s _).1]
    exact h
theorem State.pokeLines_memOk (s : State) (l : List Nat) (v : Nat) (h : s.memOk) : (s.pokeLines l v).memOk := by
  induction l generalizing s v with
  | nil => exact h
  | cons pa t ih => exact ih _ _ (State.homeWrite_memOk s pa 64 _ h)

/-- Outside the bytes of a home write, memory reads as before; inside, it reads what was written. -/
theorem State.homeWrite_outside (s : State) (pa n v a : Nat) (hk : s.keyed = false) (h : a < s.forward pa ∨ s.forward pa + n ≤ a) :
    byteAt (s.homeWrite pa n v).mem a = byteAt s.mem a := by
  by_cases hp : s.poisonAt pa = 0
  · rw [State.homeWrite_mem _ _ _ _ hp hk, byteAt_writeBytes_outside _ _ _ _ _ h]
  · rw [State.homeWrite_poison _ _ _ _ hp]
theorem State.homeWrite_inside (s : State) (pa n v : Nat) (hp : s.poisonAt pa = 0) (hk : s.keyed = false) :
    readBytes (s.homeWrite pa n v).mem (s.forward pa) n = v % 256 ^ n := by
  rw [State.homeWrite_mem _ _ _ _ hp hk, readBytes_writeBytes_same]

/-- A scrub keeps the canonical form. -/
theorem Memory.filter_wf (m : Memory) (p : Nat × Byte → Bool) (h : m.wf = true) : Memory.wf (m.filter p) = true :=
  tblWf_filter _ m p h

/-- Writing the bytes of a list one by one keeps it. -/
theorem Memory.fold_wf (l : List (Nat × Byte)) (f : Nat × Byte → Nat) (m : Memory) (h : m.wf = true) :
    Memory.wf (l.foldl (fun m e => setByte m (f e) e.2) m) = true := by
  induction l generalizing m with
  | nil => exact h
  | cons e t ih => exact ih _ (setByte_wf m _ _ h)

/-- The scratchpad is not global memory. -/
@[simp] theorem State.smemWrite_mem (s : State) (c slot off n v : Nat) : (s.smemWrite c slot off n v).mem = s.mem := rfl

end Sys2Proof.Machine
end

