-- ==== Sys2Proof/Laws/Agenda.lean ====
section
/-! SUPPORT. What the boundaries of TIME can change. -/

namespace Sys2Proof.Machine

/-- Only control registers, what the regulators and the power manager hold, and the ages of the ready lists differ. -/
def OnlyBoundaries (s t : State) : Prop :=
  ∃ ctl power ages agedAt, t = { s with ctl, power, sched := { s.sched with ages, agedAt } }

theorem OnlyBoundaries.refl (s : State) : OnlyBoundaries s s := ⟨_, _, _, _, rfl⟩
theorem OnlyBoundaries.trans {s t u : State} (h : OnlyBoundaries s t) (g : OnlyBoundaries t u) : OnlyBoundaries s u := by
  obtain ⟨_, _, _, _, rfl⟩ := h
  obtain ⟨_, _, _, _, rfl⟩ := g
  exact ⟨_, _, _, _, rfl⟩
theorem OnlyBoundaries.setCtl (s : State) (a : Nat) (v : DWord) : OnlyBoundaries s (s.setCtl a v) := ⟨_, _, _, _, rfl⟩
theorem OnlyBoundaries.setCtlF (s : State) (a lo n v : Nat) : OnlyBoundaries s (s.setCtlF a lo n v) := ⟨_, _, _, _, rfl⟩

theorem OnlyBoundaries.regrant (s : State) : OnlyBoundaries s s.regrant :=
  foldl_keeps (OnlyBoundaries s) _ _ _ (.refl s) (fun _ _ h => h.trans (((OnlyBoundaries.setCtlF _ _ _ _ _).trans (.setCtlF _ _ _ _ _)).trans
    ((OnlyBoundaries.setCtlF _ _ _ _ _).trans (.setCtlF _ _ _ _ _))))
theorem OnlyBoundaries.clearLoan (s : State) (n : Nat) : OnlyBoundaries s (s.clearLoan n) :=
  (OnlyBoundaries.setCtlF s _ _ _ _).trans (.regrant _)
theorem OnlyBoundaries.endRecall (s : State) (n : Nat) : OnlyBoundaries s (s.endRecall n) :=
  OnlyBoundaries.trans ⟨s.ctl, _, s.sched.ages, s.sched.agedAt, rfl⟩ (.regrant _)
theorem OnlyBoundaries.endRecalls (s : State) : OnlyBoundaries s s.endRecalls := by
  unfold State.endRecalls
  refine foldl_keeps (OnlyBoundaries s) _ _ _ (.refl s) ?_
  intro u r h
  exact h.trans ((OnlyBoundaries.clearLoan u r.1).trans (OnlyBoundaries.endRecall (u.clearLoan r.1) r.1))
theorem OnlyBoundaries.startQuarter (s : State) : OnlyBoundaries s s.startQuarter := by
  unfold State.startQuarter
  dsimp only
  split
  · exact .refl s
  · exact ⟨_, _, _, _, rfl⟩
theorem OnlyBoundaries.refill (s : State) : OnlyBoundaries s s.refill := by
  unfold State.refill
  split
  · exact .refl s
  · exact (foldl_keeps (OnlyBoundaries s) _ _ _ (.refl s) (fun _ _ h => h.trans (.setCtl _ _ _))).trans ⟨_, _, _, _, rfl⟩
theorem OnlyBoundaries.ageLists (s : State) (die : Nat) : OnlyBoundaries s (s.ageLists die) := by
  unfold State.ageLists
  dsimp only
  split
  · exact .refl s
  · exact ⟨_, _, _, _, rfl⟩

/-- What the coming of a moment can change. -/
theorem State.elapse_only (s : State) (ps : Nat) : OnlyBoundaries { s with ps } (s.elapse ps) :=
  (((OnlyBoundaries.endRecalls _).trans (.startQuarter _)).trans (.refill _)).trans ((OnlyBoundaries.ageLists _ 0).trans (.ageLists _ 1))

@[simp] theorem State.elapse_svc (s : State) (ps : Nat) : (s.elapse ps).svc = s.svc := by
  obtain ⟨_, _, _, _, h⟩ := s.elapse_only ps
  rw [h]

end Sys2Proof.Machine
end

