-- ==== Sys2Proof/Laws/Arith.lean ====
section
/-! SUPPORT. Wrapping, signed views, shifts and bits, as the integer instructions use them (05 R108 to R113). -/

namespace Sys2Proof.Machine

theorem wrap_mod (n : Nat) (z : Int) : wrapTo n z % 2 ^ n = wrapTo n z := by
  unfold wrapTo
  have h2 : (0:Int) < ((2 ^ n : Nat) : Int) := by positivity
  have h0 := Int.emod_nonneg z h2.ne'
  have h1 := Int.emod_lt_of_pos z h2
  apply Nat.mod_eq_of_lt
  omega

theorem wrap_congr (n : Nat) (x : Nat) (z : Int) (h : (x : Int) % (2 ^ n : Nat) = z % (2 ^ n : Nat)) : x % 2 ^ n = wrapTo n z := by
  unfold wrapTo
  rw [← h, ← Int.natCast_mod, Int.toNat_natCast]

theorem wrap_cast (n : Nat) (z : Int) : ((wrapTo n z : Nat) : Int) = z % (2 ^ n : Nat) := by
  unfold wrapTo
  have h2 : (0:Int) < ((2 ^ n : Nat) : Int) := by positivity
  rw [Int.toNat_of_nonneg (Int.emod_nonneg z h2.ne')]

theorem wrap_sub (n x y : Nat) (hy : y < 2 ^ n) : (x + (2 ^ n - y)) % 2 ^ n = wrapTo n ((x : Int) - y) % 2 ^ n := by
  rw [wrap_mod]
  apply wrap_congr
  rw [Nat.cast_add, Nat.cast_sub hy.le]
  rw [show (x : Int) + (((2 ^ n : Nat) : Int) - y) = (x - y) + ((2 ^ n : Nat) : Int) by ring, Int.add_emod_right]

theorem wrap_add (n x : Nat) (z : Int) : (x + wrapTo n z) % 2 ^ n = wrapTo n ((x : Int) + z) % 2 ^ n := by
  rw [wrap_mod]
  apply wrap_congr
  rw [Nat.cast_add, wrap_cast]
  simp [Int.add_emod]

theorem signed_mod (n x : Nat) : signedAt n x % (2 ^ n : Nat) = (x : Int) % (2 ^ n : Nat) := by
  unfold signedAt
  rw [BitVec.toInt_eq_toNat_bmod]
  rw [BitVec.toNat_ofNat, Int.bmod_emod, Int.natCast_mod, Int.emod_emod_of_dvd _ (dvd_refl _)]

theorem wrap_signed (n x : Nat) (h : x < 2 ^ n) : wrapTo n (signedAt n x) = x := by
  unfold wrapTo
  rw [signed_mod, ← Int.natCast_mod, Int.toNat_natCast, Nat.mod_eq_of_lt h]

theorem shl_mod (n x k : Nat) : shiftLeft n x k % 2 ^ n = x * 2 ^ k % 2 ^ n := by
  unfold shiftLeft
  split
  · next h => 
    rw [Nat.zero_mod]
    exact (Nat.mod_eq_zero_of_dvd (Dvd.dvd.mul_left (pow_dvd_pow 2 h) x)).symm
  · rw [Nat.mod_mod]

theorem shr_mod (n x k : Nat) (hx : x < 2 ^ n) : shiftRight n x k % 2 ^ n = x / 2 ^ k % 2 ^ n := by
  unfold shiftRight
  split
  · next h =>
    rw [Nat.div_eq_of_lt (lt_of_lt_of_le hx (Nat.pow_le_pow_right (by norm_num) h))]
  · rw [Nat.mod_eq_of_lt hx]

theorem signed_bounds (n x : Nat) : -(2 ^ n : Nat) ≤ signedAt n x ∧ signedAt n x < (2 ^ n : Nat) := by
  unfold signedAt
  have h1 := BitVec.toInt_lt (x := BitVec.ofNat n x)
  have h2 := BitVec.le_toInt (x := BitVec.ofNat n x)
  rcases n with _ | n
  · simp at *; omega
  · simp only [Nat.add_sub_cancel, Nat.pow_succ] at *
    push_cast at *
    omega

theorem sra_eq (n x k : Nat) : shiftArith n x k % 2 ^ n = wrapTo n (signedAt n x / (2 ^ k : Nat)) % 2 ^ n := by
  unfold shiftArith
  by_cases h : k ≤ n
  · rw [min_eq_left h]
  · have h := (not_le.mp h).le
    rw [min_eq_right h]
    congr 2
    obtain ⟨h1, h2⟩ := signed_bounds n x
    have hp : (0:Int) < ((2 ^ n : Nat) : Int) := by positivity
    have hk : ((2 ^ n : Nat) : Int) ≤ ((2 ^ k : Nat) : Int) := by exact_mod_cast Nat.pow_le_pow_right (by norm_num) h
    by_cases hs : 0 ≤ signedAt n x
    · rw [Int.ediv_eq_zero_of_lt hs h2, Int.ediv_eq_zero_of_lt hs (lt_of_lt_of_le h2 hk)]
    · have e : ∀ m : Int, 0 < m → -m ≤ signedAt n x → signedAt n x / m = -1 := by
        intro m hm hle
        have a1 := Int.ediv_lt_of_lt_mul hm (show signedAt n x < 0 * m by omega)
        have a2 := (Int.le_ediv_iff_mul_le hm).mpr (show (-1) * m ≤ signedAt n x by omega)
        omega
      rw [e _ hp h1, e _ (lt_of_lt_of_le hp hk) (by omega)]

theorem bitOf_testBit (x n : Nat) : bitOf x n = x.testBit n := by
  unfold bitOf
  rw [Nat.testBit_eq_decide_div_mod_eq, Nat.shiftRight_eq_div_pow, Bool.beq_eq_decide_eq]

theorem bitsFrom_lt (f : Nat → Bool) (n : Nat) : bitsFrom f n < 2 ^ n := by
  induction n with
  | zero => simp [bitsFrom]
  | succ n ih =>
    unfold bitsFrom
    rw [Nat.pow_succ]
    split <;> omega

/-- A number made of bits has them. -/
theorem testBit_bitsFrom (f : Nat → Bool) (n i : Nat) : (bitsFrom f n).testBit i = (decide (i < n) && f i) := by
  induction n with
  | zero => simp [bitsFrom]
  | succ n ih =>
    have hl := bitsFrom_lt f n
    unfold bitsFrom
    rcases Nat.lt_trichotomy i n with h | h | h
    · have e : (bitsFrom f n + if f n then 2 ^ n else 0).testBit i = (bitsFrom f n).testBit i := by
        split
        · rw [Nat.add_comm, Nat.testBit_two_pow_add_gt h]
        · rfl
      rw [e, ih]
      simp [h, Nat.lt_succ_of_lt h]
    · subst h
      cases hf : f i
      · simp [ih, hf]
      · simp only [if_true]
        rw [Nat.add_comm, Nat.testBit_two_pow_add_eq, ih]
        simp [hf]
    · have hb : (bitsFrom f n + if f n then 2 ^ n else 0) < 2 ^ i := by
        refine lt_of_lt_of_le (b := 2 ^ (n + 1)) ?_ (Nat.pow_le_pow_right (by norm_num) h)
        rw [Nat.pow_succ]
        split <;> omega
      rw [Nat.testBit_lt_two_pow hb]
      have : ¬ i < n + 1 := by omega
      simp [this]

end Sys2Proof.Machine
end

