-- ==== Sys2Proof/Laws/Code.lean ====
section
/-! SUPPORT. Bit fields of encoded words, and what the decoder reads of a word that the encoder put together. -/

namespace Sys2Proof

/-! ### Fields -/

theorem hi_append_lo6 (r : Reg) : hi r ++ lo6 r = r := by revert r; decide

theorem extract_hi {n m : Nat} (x : BitVec n) (y : BitVec m) : (x ++ y).extractLsb' m n = x := by
  apply BitVec.eq_of_getLsbD_eq
  intro k hk
  simp [BitVec.getLsbD_append, hk]
theorem extract_lo {n m : Nat} (x : BitVec n) (y : BitVec m) : (x ++ y).extractLsb' 0 m = y := by
  apply BitVec.eq_of_getLsbD_eq
  intro k hk
  simp [BitVec.getLsbD_append, hk]
theorem extract_skip {n m : Nat} (x : BitVec n) (y : BitVec m) (k l : Nat) (h : m ≤ k) :
    (x ++ y).extractLsb' k l = x.extractLsb' (k - m) l := by
  apply BitVec.eq_of_getLsbD_eq
  intro i hi
  simp only [BitVec.getLsbD_extractLsb', BitVec.getLsbD_append, hi, decide_true, Bool.true_and]
  rw [if_neg (by omega), show k + i - m = k - m + i by omega]

theorem mkWord_fields (mj : BitVec 4) (g : Guard) (m : BitVec 3) (d a f : BitVec 6) :
    let w := mkWord mj g m d a f
    w.extractLsb' 27 4 = mj ∧ w.extractLsb' 21 6 = g ∧ w.extractLsb' 18 3 = m ∧ w.extractLsb' 12 6 = d ∧
      w.extractLsb' 6 6 = a ∧ w.extractLsb' 0 6 = f ∧ w.extractLsb' 31 1 = 1#1 := by
  exact ⟨(extract_skip _ f 27 4 (by decide)).trans ((extract_skip _ a 21 4 (by decide)).trans ((extract_skip _ d 15 4 (by decide)).trans ((extract_skip _ m 9 4 (by decide)).trans ((extract_skip _ g 6 4 (by decide)).trans (extract_lo _ mj))))),
    (extract_skip _ f 21 6 (by decide)).trans ((extract_skip _ a 15 6 (by decide)).trans ((extract_skip _ d 9 6 (by decide)).trans ((extract_skip _ m 3 6 (by decide)).trans (extract_lo _ g)))),
    (extract_skip _ f 18 3 (by decide)).trans ((extract_skip _ a 12 3 (by decide)).trans ((extract_skip _ d 6 3 (by decide)).trans (extract_lo _ m))),
    (extract_skip _ f 12 6 (by decide)).trans ((extract_skip _ a 6 6 (by decide)).trans (extract_lo _ d)),
    (extract_skip _ f 6 6 (by decide)).trans (extract_lo _ a),
    extract_lo _ f,
    (extract_skip _ f 31 1 (by decide)).trans ((extract_skip _ a 25 1 (by decide)).trans ((extract_skip _ d 19 1 (by decide)).trans ((extract_skip _ m 13 1 (by decide)).trans ((extract_skip _ g 10 1 (by decide)).trans (extract_hi (1#1) mj)))))⟩

theorem decodeSlot_int (e : Ext) (g : Guard) (m : BitVec 3) (d a f : BitVec 6) :
    decodeSlot e (mkWord 1#4 g m d a f) = decodeInt e g m d a f := by
  obtain ⟨h1, h2, h3, h4, h5, h6, -⟩ := mkWord_fields 1#4 g m d a f
  simp only [decodeSlot, h1, h2, h3, h4, h5, h6]

theorem decodeSlot_inti (e : Ext) (g : Guard) (m : BitVec 3) (d a f : BitVec 6) :
    decodeSlot e (mkWord 2#4 g m d a f) = decodeInti e g m d a f := by
  obtain ⟨h1, h2, h3, h4, h5, h6, -⟩ := mkWord_fields 2#4 g m d a f
  simp only [decodeSlot, h1, h2, h3, h4, h5, h6]

theorem decodeSlot_fp32 (e : Ext) (g : Guard) (m : BitVec 3) (d a f : BitVec 6) :
    decodeSlot e (mkWord 3#4 g m d a f) = decodeFp32 e g m d a f := by
  obtain ⟨h1, h2, h3, h4, h5, h6, -⟩ := mkWord_fields 3#4 g m d a f
  simp only [decodeSlot, h1, h2, h3, h4, h5, h6]

theorem decodeSlot_fp64 (e : Ext) (g : Guard) (m : BitVec 3) (d a f : BitVec 6) :
    decodeSlot e (mkWord 4#4 g m d a f) = decodeFp64 e g m d a f := by
  obtain ⟨h1, h2, h3, h4, h5, h6, -⟩ := mkWord_fields 4#4 g m d a f
  simp only [decodeSlot, h1, h2, h3, h4, h5, h6]

theorem decodeSlot_lane (e : Ext) (g : Guard) (m : BitVec 3) (d a f : BitVec 6) :
    decodeSlot e (mkWord 5#4 g m d a f) = decodeLane e g m d a f := by
  obtain ⟨h1, h2, h3, h4, h5, h6, -⟩ := mkWord_fields 5#4 g m d a f
  simp only [decodeSlot, h1, h2, h3, h4, h5, h6]

theorem decodeSlot_ld (e : Ext) (g : Guard) (m : BitVec 3) (d a f : BitVec 6) :
    decodeSlot e (mkWord 6#4 g m d a f) = decodeLd e g m d a f := by
  obtain ⟨h1, h2, h3, h4, h5, h6, -⟩ := mkWord_fields 6#4 g m d a f
  simp only [decodeSlot, h1, h2, h3, h4, h5, h6]

theorem decodeSlot_st (e : Ext) (g : Guard) (m : BitVec 3) (d a f : BitVec 6) :
    decodeSlot e (mkWord 7#4 g m d a f) = decodeSt e g m d a f := by
  obtain ⟨h1, h2, h3, h4, h5, h6, -⟩ := mkWord_fields 7#4 g m d a f
  simp only [decodeSlot, h1, h2, h3, h4, h5, h6]

theorem decodeSlot_atom (e : Ext) (g : Guard) (m : BitVec 3) (d a f : BitVec 6) :
    decodeSlot e (mkWord 8#4 g m d a f) = decodeAtom e g m d a f := by
  obtain ⟨h1, h2, h3, h4, h5, h6, -⟩ := mkWord_fields 8#4 g m d a f
  simp only [decodeSlot, h1, h2, h3, h4, h5, h6]

theorem decodeSlot_sync (e : Ext) (g : Guard) (m : BitVec 3) (d a f : BitVec 6) :
    decodeSlot e (mkWord 9#4 g m d a f) = decodeSync e g m d a f := by
  obtain ⟨h1, h2, h3, h4, h5, h6, -⟩ := mkWord_fields 9#4 g m d a f
  simp only [decodeSlot, h1, h2, h3, h4, h5, h6]

theorem decodeSlot_br (e : Ext) (g : Guard) (m : BitVec 3) (d a f : BitVec 6) :
    decodeSlot e (mkWord 10#4 g m d a f) = decodeBr e g m d a f := by
  obtain ⟨h1, h2, h3, h4, h5, h6, -⟩ := mkWord_fields 10#4 g m d a f
  simp only [decodeSlot, h1, h2, h3, h4, h5, h6]

theorem decodeSlot_eng (e : Ext) (g : Guard) (m : BitVec 3) (d a f : BitVec 6) :
    decodeSlot e (mkWord 11#4 g m d a f) = decodeEng e g m d a f := by
  obtain ⟨h1, h2, h3, h4, h5, h6, -⟩ := mkWord_fields 11#4 g m d a f
  simp only [decodeSlot, h1, h2, h3, h4, h5, h6]

theorem decodeSlot_task (e : Ext) (g : Guard) (m : BitVec 3) (d a f : BitVec 6) :
    decodeSlot e (mkWord 12#4 g m d a f) = decodeTask e g m d a f := by
  obtain ⟨h1, h2, h3, h4, h5, h6, -⟩ := mkWord_fields 12#4 g m d a f
  simp only [decodeSlot, h1, h2, h3, h4, h5, h6]

theorem decodeSlot_sys (e : Ext) (g : Guard) (m : BitVec 3) (d a f : BitVec 6) :
    decodeSlot e (mkWord 13#4 g m d a f) = decodeSys e g m d a f := by
  obtain ⟨h1, h2, h3, h4, h5, h6, -⟩ := mkWord_fields 13#4 g m d a f
  simp only [decodeSlot, h1, h2, h3, h4, h5, h6]

theorem decodeSlot_sfu (e : Ext) (g : Guard) (m : BitVec 3) (d a f : BitVec 6) :
    decodeSlot e (mkWord 14#4 g m d a f) = decodeSfu e g m d a f := by
  obtain ⟨h1, h2, h3, h4, h5, h6, -⟩ := mkWord_fields 14#4 g m d a f
  simp only [decodeSlot, h1, h2, h3, h4, h5, h6]

theorem rowIf_ok (e : Ext) (t : Takes) (z : Bool) (x : Instr) (hd : t.d = true ∨ e.dh = 0#1) (ha : t.a = true ∨ e.ah = 0#1)
    (hb : t.b = true ∨ e.bh = 0#1) (hi : t.i = true ∨ e.imm = none) (hz : z = true) (hx : x.wf = true) : rowIf e t z x = .ok x := by
  unfold rowIf
  rw [if_neg, hz, hx]
  · rfl
  · rcases hd with h | h <;> rcases ha with h' | h' <;> rcases hb with h'' | h'' <;> rcases hi with h''' | h''' <;> simp [h, h', h'', h''']

/-! ### The parts of a form's fields -/

theorem hi12_append_lo12 (x : BitVec 12) : hi12 x ++ lo12 x = x := by
  apply BitVec.eq_of_getLsbD_eq
  intro k hk
  simp only [hi12, lo12, BitVec.getLsbD_append, BitVec.getLsbD_extractLsb']
  split
  · simp [*]
  · simp only [show k - 6 < 6 by omega, decide_true, Bool.true_and, show 6 + (k - 6) = k by omega]
theorem i18_parts (x : BitVec 18) : i18 x 12 ++ (i18 x 6 ++ i18 x 0) = x := by
  apply BitVec.eq_of_getLsbD_eq
  intro k hk
  simp only [i18, BitVec.getLsbD_append, BitVec.getLsbD_extractLsb']
  split
  · split
    · simp [*]
    · simp only [show k - 6 < 6 by omega, decide_true, Bool.true_and, show 6 + (k - 6) = k by omega]
  · simp only [show k - 12 < 6 by omega, decide_true, Bool.true_and, show 12 + (k - 12) = k by omega]
/-- An immediate from the bits of its word and the bits that are lent. -/
theorem Imm.of_parts {n : Nat} (i : Imm n) (dh ah bh : BitVec 1) : Ext.im { dh, ah, bh, imm := i.hi } i.lo = i := by
  cases i with
  | short i => rfl
  | long i =>
    simp only [Ext.im, Imm.hi, Imm.lo, Imm.long.injEq]
    apply BitVec.eq_of_getLsbD_eq
    intro k hk
    simp only [BitVec.getLsbD_cast, BitVec.getLsbD_append, BitVec.getLsbD_extractLsb']
    split
    · simp [*]
    · simp only [show k - n < 8 by omega, decide_true, Bool.true_and, show n + (k - n) = k by omega]

theorem fields_acqrel (w : BitVec 1) (c : BitVec 2) : let f := 1#2 ++ w ++ 0#1 ++ c
    f.extractLsb' 4 2 = 1#2 ∧ f.extractLsb' 2 1 = 0#1 ∧ f.extractLsb' 3 1 = w ∧ f.extractLsb' 0 2 = c := by
  revert w c; decide
theorem fields_low1 (m : BitVec 1) : (0#5 ++ m).extractLsb' 1 5 = 0#5 ∧ (0#5 ++ m).extractLsb' 0 1 = m := by revert m; decide
theorem fields_low2 (k : BitVec 4) (r : BitVec 2) : (k ++ r).extractLsb' 2 4 = k ∧ (k ++ r).extractLsb' 0 2 = r := by
  revert k r; decide
theorem fields_atom (o c : BitVec 2) (w b : BitVec 1) : let f := o ++ c ++ w ++ b
    f.extractLsb' 4 2 = o ∧ f.extractLsb' 2 2 = c ∧ f.extractLsb' 1 1 = w ∧ f.extractLsb' 0 1 = b := by
  revert o c w b; decide
theorem fields_xal (o c b : BitVec 2) : let f := o ++ c ++ b
    f.extractLsb' 4 2 = o ∧ f.extractLsb' 2 2 = c ∧ f.extractLsb' 1 1 = b.extractLsb' 1 1 ∧
      f.extractLsb' 0 1 = b.extractLsb' 0 1 := by revert o c b; decide
theorem fields_atoms (k : BitVec 4) (w : BitVec 1) : let f := k ++ w ++ 0#1
    f.extractLsb' 2 4 = k ∧ f.extractLsb' 1 1 = w ∧ f.extractLsb' 0 1 = 0#1 := by revert k w; decide
theorem fields_fence (k c : BitVec 2) : let f := k ++ c ++ 0#2
    f.extractLsb' 4 2 = k ∧ f.extractLsb' 2 2 = c ∧ f.extractLsb' 0 2 = 0#2 := by revert k c; decide
theorem fields_gath (e : BitVec 2) : let f := 0#1 ++ e ++ 0#3
    f.extractLsb' 5 1 = 0#1 ∧ f.extractLsb' 0 3 = 0#3 ∧ f.extractLsb' 3 2 = e := by revert e; decide
theorem fields_rm (r : BitVec 2) : (1#1 ++ r).extractLsb' 2 1 = 1#1 ∧ (1#1 ++ r).extractLsb' 0 2 = r := by revert r; decide
theorem fields_loopp (o : BitVec 10) : o.extractLsb' 6 4 ++ o.extractLsb' 0 6 = o := by revert o; decide
theorem fields_movh20 (x : BitVec 20) : x.extractLsb' 12 8 ++ (x.extractLsb' 6 6 ++ x.extractLsb' 0 6) = x := by
  apply BitVec.eq_of_getLsbD_eq
  intro k hk
  simp only [BitVec.getLsbD_append, BitVec.getLsbD_extractLsb']
  split
  · split
    · simp [*]
    · simp only [show k - 6 < 6 by omega, decide_true, Bool.true_and, show 6 + (k - 6) = k by omega]
  · simp only [show k - 12 < 8 by omega, decide_true, Bool.true_and, show 12 + (k - 12) = k by omega]

end Sys2Proof
end

