-- ==== Sys2Proof/Laws/Eng.lean ====
section
/-! SUPPORT. What the operations that engine commands share do: the descriptor that is read, the checks that pass, the
operation that joins its core. -/

namespace Sys2Proof.Machine

/-- A descriptor in the window is read at its offset, from the window as the cycle began. -/
theorem withDesc_reaches {i : Issue} {w : Who} {a : Reg} {align size o : Nat} {s : State} (h1 : s.acquiring w = false)
    (h2 : s.reg w a % 2 ^ 22 = o) (h3 : o % align = 0) (h4 : o + size ≤ s.smemSize w.core w.ctx) (f : Nat → State → State) :
    withDesc i w a align size f s = f (readBytes i.seen o size) s := by
  rw [withDesc, smemAccess_reaches h1 ((smemAddr_none s w a 1).trans (by rw [h2])) h3 h4]

/-- Checks that pass let the command go on. -/
theorem checked_passes {i : Issue} {w : Who} {c : EngCheck} {s : State} (h : c.passes (s.smemSize w.core w.ctx))
    (f : State → State) : checked i w c f s = f s := by
  obtain ⟨h1, h2, h3⟩ := h
  have e1 : c.ranges.find? (fun r => decide (s.smemSize w.core w.ctx < r.1 + r.2)) = none := by
    rw [List.find?_eq_none]
    intro r hr
    have := h1 r hr
    simp only [decide_eq_true_eq]
    omega
  have e2 : c.aligned.find? (fun r => r.1 % r.2 != 0) = none := by
    rw [List.find?_eq_none]
    intro r hr
    simp [h2 r hr]
  simp only [checked, e1, e2, h3]
  simp

/-- An operation for which there is room, of an issuer whose released writes have performed, joins its core's operations, with
its issuer, its launch and window, its partition, its mode, the format pair and the reset of the engine that it finds; a lender of
power wakes. -/
def State.joinOps (s : State) (w : Who) (o : Op) : State :=
  let u := s.wakeLender w.core
  ({ u with fresh := u.fresh + 1 }.modCore w.core fun co => { co with
    ops := co.ops ++ [{ o with
      id := u.fresh, who := w, slot := u.slotOf w.core w.ctx, win := u.slotOf w.core w.ctx, part := u.partOf w.core w.ctx
      user := !u.privileged w, mxe := ((u.launchOf w.core w.ctx).map Launch.mxe).getD false, pair := co.mx.pair, epoch := co.mx.epoch
      books := w.ctx }] }).startMatrix w.core

theorem accept_joins {w : Who} {full : Bool} {o : Op} {s : State} (h : ∀ c, opClass o.kind = some c → s.opCount w c < 63)
    (he : s.engineSees w = true) (hf : full = false) : accept w full o s = s.joinOps w o := by
  subst hf
  unfold accept State.joinOps
  rcases hc : opClass o.kind with _ | c
  · simp only [he, Bool.false_eq_true, if_false]
    rfl
  · have := h c hc
    have e : decide (63 ≤ s.opCount w c) = false := by simp; omega
    simp only [he, e, Bool.false_eq_true, if_false]
    rfl

end Sys2Proof.Machine
end

