-- ==== Sys2Proof/Laws/PerInstr.lean ====
section
/-! SUPPORT. Statements about every instruction, made constructor by constructor.
SlotWord: the word that the encoder gives an instruction, with what the encoder lends it, decodes to that instruction
(02 R26 to R44, 03 R49 to R66). -/

namespace Sys2Proof.Laws.SlotWord
set_option Elab.async false
set_option linter.all false

/-- A well-formed word of a slot is read as what it was written from, every operand at every value. -/
def Statement (i : Instr) : Prop := i.isWord = true → i.wf = true → decodeSlot (extNeeded i) (encodeWord i) = .ok i

theorem iadd (g d a b) : Statement (.iadd g d a b) := by
  intro _ hw
  show decodeSlot { dh := hi d, ah := hi a, bh := hi b } (mkWord 1#4 g 0#3 (lo6 d) (lo6 a) (lo6 b)) = _
  rw [decodeSlot_int]
  simp only [decodeInt, Ext.rd, Ext.ra, Ext.rb, hi_append_lo6, extract_hi, extract_lo]
  exact rowIf_ok _ _ _ _ (.inl rfl) (.inl rfl) (.inl rfl) (.inr rfl) rfl hw
theorem isub (g d a b) : Statement (.isub g d a b) := by
  intro _ hw
  show decodeSlot { dh := hi d, ah := hi a, bh := hi b } (mkWord 1#4 g 1#3 (lo6 d) (lo6 a) (lo6 b)) = _
  rw [decodeSlot_int]
  simp only [decodeInt, Ext.rd, Ext.ra, Ext.rb, hi_append_lo6, extract_hi, extract_lo]
  exact rowIf_ok _ _ _ _ (.inl rfl) (.inl rfl) (.inl rfl) (.inr rfl) rfl hw
theorem imul (g d a b) : Statement (.imul g d a b) := by
  intro _ hw
  show decodeSlot { dh := hi d, ah := hi a, bh := hi b } (mkWord 1#4 g 2#3 (lo6 d) (lo6 a) (lo6 b)) = _
  rw [decodeSlot_int]
  simp only [decodeInt, Ext.rd, Ext.ra, Ext.rb, hi_append_lo6, extract_hi, extract_lo]
  exact rowIf_ok _ _ _ _ (.inl rfl) (.inl rfl) (.inl rfl) (.inr rfl) rfl hw
theorem imad (g d a b) : Statement (.imad g d a b) := by
  intro _ hw
  show decodeSlot { dh := hi d, ah := hi a, bh := hi b } (mkWord 1#4 g 3#3 (lo6 d) (lo6 a) (lo6 b)) = _
  rw [decodeSlot_int]
  simp only [decodeInt, Ext.rd, Ext.ra, Ext.rb, hi_append_lo6, extract_hi, extract_lo]
  exact rowIf_ok _ _ _ _ (.inl rfl) (.inl rfl) (.inl rfl) (.inr rfl) rfl hw
theorem icmp (g x y hc k) : Statement (.icmp g x y hc k) := by
  intro _ hw
  show decodeSlot { dh := hi x, ah := hi y } (mkWord 1#4 g 4#3 (lo6 x) (lo6 y) (hc ++ k)) = _
  rw [decodeSlot_int]
  simp only [decodeInt, Ext.rd, Ext.ra, Ext.rb, hi_append_lo6, extract_hi, extract_lo]
  exact rowIf_ok _ _ _ _ (.inl rfl) (.inl rfl) (.inr rfl) (.inr rfl) rfl hw
theorem icmpD (g x y hc k) : Statement (.icmpD g x y hc k) := by
  intro _ hw
  show decodeSlot { dh := hi x, ah := hi y } (mkWord 1#4 g 5#3 (lo6 x) (lo6 y) (hc ++ k)) = _
  rw [decodeSlot_int]
  simp only [decodeInt, Ext.rd, Ext.ra, Ext.rb, hi_append_lo6, extract_hi, extract_lo]
  exact rowIf_ok _ _ _ _ (.inl rfl) (.inl rfl) (.inr rfl) (.inr rfl) rfl hw
theorem iand (g d a) : Statement (.iand g d a) := by
  intro _ hw
  show decodeSlot { dh := hi d, ah := hi a } (mkWord 1#4 g 6#3 (lo6 d) (lo6 a) 0x00#6) = _
  rw [decodeSlot_int]
  simp only [decodeInt, Ext.rd, Ext.ra, Ext.rb, hi_append_lo6, extract_hi, extract_lo]
  exact rowIf_ok _ _ _ _ (.inl rfl) (.inl rfl) (.inr rfl) (.inr rfl) rfl hw
theorem ior (g d a) : Statement (.ior g d a) := by
  intro _ hw
  show decodeSlot { dh := hi d, ah := hi a } (mkWord 1#4 g 6#3 (lo6 d) (lo6 a) 0x01#6) = _
  rw [decodeSlot_int]
  simp only [decodeInt, Ext.rd, Ext.ra, Ext.rb, hi_append_lo6, extract_hi, extract_lo]
  exact rowIf_ok _ _ _ _ (.inl rfl) (.inl rfl) (.inr rfl) (.inr rfl) rfl hw
theorem ixor (g d a) : Statement (.ixor g d a) := by
  intro _ hw
  show decodeSlot { dh := hi d, ah := hi a } (mkWord 1#4 g 6#3 (lo6 d) (lo6 a) 0x02#6) = _
  rw [decodeSlot_int]
  simp only [decodeInt, Ext.rd, Ext.ra, Ext.rb, hi_append_lo6, extract_hi, extract_lo]
  exact rowIf_ok _ _ _ _ (.inl rfl) (.inl rfl) (.inr rfl) (.inr rfl) rfl hw
theorem ishl (g d a) : Statement (.ishl g d a) := by
  intro _ hw
  show decodeSlot { dh := hi d, ah := hi a } (mkWord 1#4 g 6#3 (lo6 d) (lo6 a) 0x03#6) = _
  rw [decodeSlot_int]
  simp only [decodeInt, Ext.rd, Ext.ra, Ext.rb, hi_append_lo6, extract_hi, extract_lo]
  exact rowIf_ok _ _ _ _ (.inl rfl) (.inl rfl) (.inr rfl) (.inr rfl) rfl hw
theorem ishr (g d a) : Statement (.ishr g d a) := by
  intro _ hw
  show decodeSlot { dh := hi d, ah := hi a } (mkWord 1#4 g 6#3 (lo6 d) (lo6 a) 0x04#6) = _
  rw [decodeSlot_int]
  simp only [decodeInt, Ext.rd, Ext.ra, Ext.rb, hi_append_lo6, extract_hi, extract_lo]
  exact rowIf_ok _ _ _ _ (.inl rfl) (.inl rfl) (.inr rfl) (.inr rfl) rfl hw
theorem isra (g d a) : Statement (.isra g d a) := by
  intro _ hw
  show decodeSlot { dh := hi d, ah := hi a } (mkWord 1#4 g 6#3 (lo6 d) (lo6 a) 0x05#6) = _
  rw [decodeSlot_int]
  simp only [decodeInt, Ext.rd, Ext.ra, Ext.rb, hi_append_lo6, extract_hi, extract_lo]
  exact rowIf_ok _ _ _ _ (.inl rfl) (.inl rfl) (.inr rfl) (.inr rfl) rfl hw
theorem imin (g d a) : Statement (.imin g d a) := by
  intro _ hw
  show decodeSlot { dh := hi d, ah := hi a } (mkWord 1#4 g 6#3 (lo6 d) (lo6 a) 0x06#6) = _
  rw [decodeSlot_int]
  simp only [decodeInt, Ext.rd, Ext.ra, Ext.rb, hi_append_lo6, extract_hi, extract_lo]
  exact rowIf_ok _ _ _ _ (.inl rfl) (.inl rfl) (.inr rfl) (.inr rfl) rfl hw
theorem imax (g d a) : Statement (.imax g d a) := by
  intro _ hw
  show decodeSlot { dh := hi d, ah := hi a } (mkWord 1#4 g 6#3 (lo6 d) (lo6 a) 0x07#6) = _
  rw [decodeSlot_int]
  simp only [decodeInt, Ext.rd, Ext.ra, Ext.rb, hi_append_lo6, extract_hi, extract_lo]
  exact rowIf_ok _ _ _ _ (.inl rfl) (.inl rfl) (.inr rfl) (.inr rfl) rfl hw
theorem iminu (g d a) : Statement (.iminu g d a) := by
  intro _ hw
  show decodeSlot { dh := hi d, ah := hi a } (mkWord 1#4 g 6#3 (lo6 d) (lo6 a) 0x08#6) = _
  rw [decodeSlot_int]
  simp only [decodeInt, Ext.rd, Ext.ra, Ext.rb, hi_append_lo6, extract_hi, extract_lo]
  exact rowIf_ok _ _ _ _ (.inl rfl) (.inl rfl) (.inr rfl) (.inr rfl) rfl hw
theorem imaxu (g d a) : Statement (.imaxu g d a) := by
  intro _ hw
  show decodeSlot { dh := hi d, ah := hi a } (mkWord 1#4 g 6#3 (lo6 d) (lo6 a) 0x09#6) = _
  rw [decodeSlot_int]
  simp only [decodeInt, Ext.rd, Ext.ra, Ext.rb, hi_append_lo6, extract_hi, extract_lo]
  exact rowIf_ok _ _ _ _ (.inl rfl) (.inl rfl) (.inr rfl) (.inr rfl) rfl hw
theorem imulh (g d a) : Statement (.imulh g d a) := by
  intro _ hw
  show decodeSlot { dh := hi d, ah := hi a } (mkWord 1#4 g 6#3 (lo6 d) (lo6 a) 0x0A#6) = _
  rw [decodeSlot_int]
  simp only [decodeInt, Ext.rd, Ext.ra, Ext.rb, hi_append_lo6, extract_hi, extract_lo]
  exact rowIf_ok _ _ _ _ (.inl rfl) (.inl rfl) (.inr rfl) (.inr rfl) rfl hw
theorem imulhu (g d a) : Statement (.imulhu g d a) := by
  intro _ hw
  show decodeSlot { dh := hi d, ah := hi a } (mkWord 1#4 g 6#3 (lo6 d) (lo6 a) 0x0B#6) = _
  rw [decodeSlot_int]
  simp only [decodeInt, Ext.rd, Ext.ra, Ext.rb, hi_append_lo6, extract_hi, extract_lo]
  exact rowIf_ok _ _ _ _ (.inl rfl) (.inl rfl) (.inr rfl) (.inr rfl) rfl hw
theorem iabs (g d a) : Statement (.iabs g d a) := by
  intro _ hw
  show decodeSlot { dh := hi d, ah := hi a } (mkWord 1#4 g 6#3 (lo6 d) (lo6 a) 0x0C#6) = _
  rw [decodeSlot_int]
  simp only [decodeInt, Ext.rd, Ext.ra, Ext.rb, hi_append_lo6, extract_hi, extract_lo]
  exact rowIf_ok _ _ _ _ (.inl rfl) (.inl rfl) (.inr rfl) (.inr rfl) rfl hw
theorem popc (g d a) : Statement (.popc g d a) := by
  intro _ hw
  show decodeSlot { dh := hi d, ah := hi a } (mkWord 1#4 g 6#3 (lo6 d) (lo6 a) 0x0D#6) = _
  rw [decodeSlot_int]
  simp only [decodeInt, Ext.rd, Ext.ra, Ext.rb, hi_append_lo6, extract_hi, extract_lo]
  exact rowIf_ok _ _ _ _ (.inl rfl) (.inl rfl) (.inr rfl) (.inr rfl) rfl hw
theorem clz (g d a) : Statement (.clz g d a) := by
  intro _ hw
  show decodeSlot { dh := hi d, ah := hi a } (mkWord 1#4 g 6#3 (lo6 d) (lo6 a) 0x0E#6) = _
  rw [decodeSlot_int]
  simp only [decodeInt, Ext.rd, Ext.ra, Ext.rb, hi_append_lo6, extract_hi, extract_lo]
  exact rowIf_ok _ _ _ _ (.inl rfl) (.inl rfl) (.inr rfl) (.inr rfl) rfl hw
theorem brev (g d a) : Statement (.brev g d a) := by
  intro _ hw
  show decodeSlot { dh := hi d, ah := hi a } (mkWord 1#4 g 6#3 (lo6 d) (lo6 a) 0x0F#6) = _
  rw [decodeSlot_int]
  simp only [decodeInt, Ext.rd, Ext.ra, Ext.rb, hi_append_lo6, extract_hi, extract_lo]
  exact rowIf_ok _ _ _ _ (.inl rfl) (.inl rfl) (.inr rfl) (.inr rfl) rfl hw
theorem bfe (g d a) : Statement (.bfe g d a) := by
  intro _ hw
  show decodeSlot { dh := hi d, ah := hi a } (mkWord 1#4 g 6#3 (lo6 d) (lo6 a) 0x10#6) = _
  rw [decodeSlot_int]
  simp only [decodeInt, Ext.rd, Ext.ra, Ext.rb, hi_append_lo6, extract_hi, extract_lo]
  exact rowIf_ok _ _ _ _ (.inl rfl) (.inl rfl) (.inr rfl) (.inr rfl) rfl hw
theorem bfi (g d a) : Statement (.bfi g d a) := by
  intro _ hw
  show decodeSlot { dh := hi d, ah := hi a } (mkWord 1#4 g 6#3 (lo6 d) (lo6 a) 0x11#6) = _
  rw [decodeSlot_int]
  simp only [decodeInt, Ext.rd, Ext.ra, Ext.rb, hi_append_lo6, extract_hi, extract_lo]
  exact rowIf_ok _ _ _ _ (.inl rfl) (.inl rfl) (.inr rfl) (.inr rfl) rfl hw
theorem lea (g d a k) : Statement (.lea g d a k) := by
  intro _ hw
  show decodeSlot { dh := hi d, ah := hi a } (mkWord 1#4 g 6#3 (lo6 d) (lo6 a) (3#3 ++ k)) = _
  rw [decodeSlot_int]
  simp only [decodeInt, Ext.rd, Ext.ra, Ext.rb, hi_append_lo6, extract_hi, extract_lo]
  exact rowIf_ok _ _ _ _ (.inl rfl) (.inl rfl) (.inr rfl) (.inr rfl) rfl hw
theorem plop (g d a t) : Statement (.plop g d a t) := by
  intro _ hw
  show decodeSlot {} (mkWord 1#4 g 7#3 d a (0#2 ++ t)) = _
  rw [decodeSlot_int]
  simp only [decodeInt, Ext.rd, Ext.ra, Ext.rb, hi_append_lo6, extract_hi, extract_lo, if_true]
  exact rowIf_ok _ _ _ _ (.inr rfl) (.inr rfl) (.inr rfl) (.inr rfl) rfl hw
theorem pset (g d a) : Statement (.pset g d a) := by
  intro _ hw
  show decodeSlot { ah := hi a } (mkWord 1#4 g 7#3 d (lo6 a) 0x10#6) = _
  rw [decodeSlot_int]
  simp only [decodeInt, Ext.rd, Ext.ra, Ext.rb, hi_append_lo6, extract_hi, extract_lo]
  exact rowIf_ok _ _ _ _ (.inr rfl) (.inl rfl) (.inr rfl) (.inr rfl) rfl hw
theorem p2g (g d blk) : Statement (.p2g g d blk) := by
  intro _ hw
  show decodeSlot { dh := hi d } (mkWord 1#4 g 7#3 (lo6 d) blk 0x11#6) = _
  rw [decodeSlot_int]
  simp only [decodeInt, Ext.rd, Ext.ra, Ext.rb, hi_append_lo6, extract_hi, extract_lo]
  exact rowIf_ok _ _ _ _ (.inl rfl) (.inr rfl) (.inr rfl) (.inr rfl) rfl hw
theorem g2p (g blk a) : Statement (.g2p g blk a) := by
  intro _ hw
  show decodeSlot { ah := hi a } (mkWord 1#4 g 7#3 blk (lo6 a) 0x12#6) = _
  rw [decodeSlot_int]
  simp only [decodeInt, Ext.rd, Ext.ra, Ext.rb, hi_append_lo6, extract_hi, extract_lo]
  exact rowIf_ok _ _ _ _ (.inr rfl) (.inl rfl) (.inr rfl) (.inr rfl) rfl hw
theorem iaddD (g d a) : Statement (.iaddD g d a) := by
  intro _ hw
  show decodeSlot { dh := hi d, ah := hi a } (mkWord 1#4 g 7#3 (lo6 d) (lo6 a) 0x20#6) = _
  rw [decodeSlot_int]
  simp only [decodeInt, Ext.rd, Ext.ra, Ext.rb, hi_append_lo6, extract_hi, extract_lo]
  exact rowIf_ok _ _ _ _ (.inl rfl) (.inl rfl) (.inr rfl) (.inr rfl) rfl hw
theorem iaddImm (g d a i) : Statement (.iaddImm g d a i) := by
  intro _ hw
  show decodeSlot { dh := hi d, ah := hi a, imm := i.hi } (mkWord 2#4 g 0#3 (lo6 d) (lo6 a) (i.lo)) = _
  rw [decodeSlot_inti]
  simp only [decodeInti, Ext.rd, Ext.ra, Ext.rb, hi_append_lo6, extract_hi, extract_lo, Imm.of_parts]
  exact rowIf_ok _ _ _ _ (.inl rfl) (.inl rfl) (.inr rfl) (.inl rfl) rfl hw
theorem ishlImm (g d a i) : Statement (.ishlImm g d a i) := by
  intro _ hw
  show decodeSlot { dh := hi d, ah := hi a, imm := i.hi } (mkWord 2#4 g 1#3 (lo6 d) (lo6 a) (i.lo)) = _
  rw [decodeSlot_inti]
  simp only [decodeInti, Ext.rd, Ext.ra, Ext.rb, hi_append_lo6, extract_hi, extract_lo, Imm.of_parts]
  exact rowIf_ok _ _ _ _ (.inl rfl) (.inl rfl) (.inr rfl) (.inl rfl) rfl hw
theorem ishrImm (g d a i) : Statement (.ishrImm g d a i) := by
  intro _ hw
  show decodeSlot { dh := hi d, ah := hi a, imm := i.hi } (mkWord 2#4 g 2#3 (lo6 d) (lo6 a) (i.lo)) = _
  rw [decodeSlot_inti]
  simp only [decodeInti, Ext.rd, Ext.ra, Ext.rb, hi_append_lo6, extract_hi, extract_lo, Imm.of_parts]
  exact rowIf_ok _ _ _ _ (.inl rfl) (.inl rfl) (.inr rfl) (.inl rfl) rfl hw
theorem israImm (g d a i) : Statement (.israImm g d a i) := by
  intro _ hw
  show decodeSlot { dh := hi d, ah := hi a, imm := i.hi } (mkWord 2#4 g 3#3 (lo6 d) (lo6 a) (i.lo)) = _
  rw [decodeSlot_inti]
  simp only [decodeInti, Ext.rd, Ext.ra, Ext.rb, hi_append_lo6, extract_hi, extract_lo, Imm.of_parts]
  exact rowIf_ok _ _ _ _ (.inl rfl) (.inl rfl) (.inr rfl) (.inl rfl) rfl hw
theorem iandImm (g d a i) : Statement (.iandImm g d a i) := by
  intro _ hw
  show decodeSlot { dh := hi d, ah := hi a, imm := i.hi } (mkWord 2#4 g 4#3 (lo6 d) (lo6 a) (i.lo)) = _
  rw [decodeSlot_inti]
  simp only [decodeInti, Ext.rd, Ext.ra, Ext.rb, hi_append_lo6, extract_hi, extract_lo, Imm.of_parts]
  exact rowIf_ok _ _ _ _ (.inl rfl) (.inl rfl) (.inr rfl) (.inl rfl) rfl hw
theorem isel (g d a p) : Statement (.isel g d a p) := by
  intro _ hw
  show decodeSlot { dh := hi d, ah := hi a } (mkWord 2#4 g 5#3 (lo6 d) (lo6 a) p) = _
  rw [decodeSlot_inti]
  simp only [decodeInti, Ext.rd, Ext.ra, Ext.rb, hi_append_lo6, extract_hi, extract_lo]
  exact rowIf_ok _ _ _ _ (.inl rfl) (.inl rfl) (.inr rfl) (.inr rfl) rfl hw
theorem movi (g d i) : Statement (.movi g d i) := by
  intro _ hw
  show decodeSlot { dh := hi d, imm := i.hi } (mkWord 2#4 g 6#3 (lo6 d) (hi12 i.lo) (lo12 i.lo)) = _
  rw [decodeSlot_inti]
  simp only [decodeInti, Ext.rd, Ext.ra, Ext.rb, hi_append_lo6, extract_hi, extract_lo, hi12_append_lo12, Imm.of_parts]
  exact rowIf_ok _ _ _ _ (.inl rfl) (.inr rfl) (.inr rfl) (.inl rfl) rfl hw
theorem movh (g d i) : Statement (.movh g d i) := by
  intro _ hw
  show decodeSlot { dh := hi d } (mkWord 2#4 g 7#3 (lo6 d) (hi12 i) (lo12 i)) = _
  rw [decodeSlot_inti]
  simp only [decodeInti, Ext.rd, Ext.ra, Ext.rb, hi_append_lo6, extract_hi, extract_lo, hi12_append_lo12]
  exact rowIf_ok _ _ _ _ (.inl rfl) (.inr rfl) (.inr rfl) (.inr rfl) rfl hw
theorem movh20 (g d i) : Statement (.movh20 g d i) := by
  intro _ hw
  show decodeSlot { dh := hi d, imm := some (i.extractLsb' 12 8) } (mkWord 2#4 g 7#3 (lo6 d) (i.extractLsb' 6 6) (i.extractLsb' 0 6)) = _
  rw [decodeSlot_inti]
  simp only [decodeInti, Ext.rd, Ext.ra, Ext.rb, hi_append_lo6, extract_hi, extract_lo, fields_movh20 i]
  exact rowIf_ok _ _ _ _ (.inl rfl) (.inr rfl) (.inr rfl) (.inl rfl) rfl hw
theorem fadd (g d a b) : Statement (.fadd g d a b) := by
  intro _ hw
  show decodeSlot { dh := hi d, ah := hi a, bh := hi b } (mkWord 3#4 g 0#3 (lo6 d) (lo6 a) (lo6 b)) = _
  rw [decodeSlot_fp32]
  simp only [decodeFp32, Ext.rd, Ext.ra, Ext.rb, hi_append_lo6, extract_hi, extract_lo]
  exact rowIf_ok _ _ _ _ (.inl rfl) (.inl rfl) (.inl rfl) (.inr rfl) rfl hw
theorem fsub (g d a b) : Statement (.fsub g d a b) := by
  intro _ hw
  show decodeSlot { dh := hi d, ah := hi a, bh := hi b } (mkWord 3#4 g 1#3 (lo6 d) (lo6 a) (lo6 b)) = _
  rw [decodeSlot_fp32]
  simp only [decodeFp32, Ext.rd, Ext.ra, Ext.rb, hi_append_lo6, extract_hi, extract_lo]
  exact rowIf_ok _ _ _ _ (.inl rfl) (.inl rfl) (.inl rfl) (.inr rfl) rfl hw
theorem fmul (g d a b) : Statement (.fmul g d a b) := by
  intro _ hw
  show decodeSlot { dh := hi d, ah := hi a, bh := hi b } (mkWord 3#4 g 2#3 (lo6 d) (lo6 a) (lo6 b)) = _
  rw [decodeSlot_fp32]
  simp only [decodeFp32, Ext.rd, Ext.ra, Ext.rb, hi_append_lo6, extract_hi, extract_lo]
  exact rowIf_ok _ _ _ _ (.inl rfl) (.inl rfl) (.inl rfl) (.inr rfl) rfl hw
theorem ffma (g d a b) : Statement (.ffma g d a b) := by
  intro _ hw
  show decodeSlot { dh := hi d, ah := hi a, bh := hi b } (mkWord 3#4 g 3#3 (lo6 d) (lo6 a) (lo6 b)) = _
  rw [decodeSlot_fp32]
  simp only [decodeFp32, Ext.rd, Ext.ra, Ext.rb, hi_append_lo6, extract_hi, extract_lo]
  exact rowIf_ok _ _ _ _ (.inl rfl) (.inl rfl) (.inl rfl) (.inr rfl) rfl hw
theorem ffms (g d a b) : Statement (.ffms g d a b) := by
  intro _ hw
  show decodeSlot { dh := hi d, ah := hi a, bh := hi b } (mkWord 3#4 g 4#3 (lo6 d) (lo6 a) (lo6 b)) = _
  rw [decodeSlot_fp32]
  simp only [decodeFp32, Ext.rd, Ext.ra, Ext.rb, hi_append_lo6, extract_hi, extract_lo]
  exact rowIf_ok _ _ _ _ (.inl rfl) (.inl rfl) (.inl rfl) (.inr rfl) rfl hw
theorem pkfmaF16 (g d a b) : Statement (.pkfmaF16 g d a b) := by
  intro _ hw
  show decodeSlot { dh := hi d, ah := hi a, bh := hi b } (mkWord 3#4 g 5#3 (lo6 d) (lo6 a) (lo6 b)) = _
  rw [decodeSlot_fp32]
  simp only [decodeFp32, Ext.rd, Ext.ra, Ext.rb, hi_append_lo6, extract_hi, extract_lo]
  exact rowIf_ok _ _ _ _ (.inl rfl) (.inl rfl) (.inl rfl) (.inr rfl) rfl hw
theorem pkfmaBf16 (g d a b) : Statement (.pkfmaBf16 g d a b) := by
  intro _ hw
  show decodeSlot { dh := hi d, ah := hi a, bh := hi b } (mkWord 3#4 g 6#3 (lo6 d) (lo6 a) (lo6 b)) = _
  rw [decodeSlot_fp32]
  simp only [decodeFp32, Ext.rd, Ext.ra, Ext.rb, hi_append_lo6, extract_hi, extract_lo]
  exact rowIf_ok _ _ _ _ (.inl rfl) (.inl rfl) (.inl rfl) (.inr rfl) rfl hw
theorem fmin (g d a) : Statement (.fmin g d a) := by
  intro _ hw
  show decodeSlot { dh := hi d, ah := hi a } (mkWord 3#4 g 7#3 (lo6 d) (lo6 a) 0#6) = _
  rw [decodeSlot_fp32]
  simp only [decodeFp32, Ext.rd, Ext.ra, Ext.rb, hi_append_lo6, extract_hi, extract_lo]
  exact rowIf_ok _ _ _ _ (.inl rfl) (.inl rfl) (.inr rfl) (.inr rfl) rfl hw
theorem fmax (g d a) : Statement (.fmax g d a) := by
  intro _ hw
  show decodeSlot { dh := hi d, ah := hi a } (mkWord 3#4 g 7#3 (lo6 d) (lo6 a) 1#6) = _
  rw [decodeSlot_fp32]
  simp only [decodeFp32, Ext.rd, Ext.ra, Ext.rb, hi_append_lo6, extract_hi, extract_lo]
  exact rowIf_ok _ _ _ _ (.inl rfl) (.inl rfl) (.inr rfl) (.inr rfl) rfl hw
theorem pkaddF16 (g d a) : Statement (.pkaddF16 g d a) := by
  intro _ hw
  show decodeSlot { dh := hi d, ah := hi a } (mkWord 3#4 g 7#3 (lo6 d) (lo6 a) 2#6) = _
  rw [decodeSlot_fp32]
  simp only [decodeFp32, Ext.rd, Ext.ra, Ext.rb, hi_append_lo6, extract_hi, extract_lo]
  exact rowIf_ok _ _ _ _ (.inl rfl) (.inl rfl) (.inr rfl) (.inr rfl) rfl hw
theorem pkaddBf16 (g d a) : Statement (.pkaddBf16 g d a) := by
  intro _ hw
  show decodeSlot { dh := hi d, ah := hi a } (mkWord 3#4 g 7#3 (lo6 d) (lo6 a) 3#6) = _
  rw [decodeSlot_fp32]
  simp only [decodeFp32, Ext.rd, Ext.ra, Ext.rb, hi_append_lo6, extract_hi, extract_lo]
  exact rowIf_ok _ _ _ _ (.inl rfl) (.inl rfl) (.inr rfl) (.inr rfl) rfl hw
theorem frnd (g d a rm) : Statement (.frnd g d a rm) := by
  intro _ hw
  show decodeSlot { dh := hi d, ah := hi a } (mkWord 3#4 g 7#3 (lo6 d) (lo6 a) (1#4 ++ rm)) = _
  rw [decodeSlot_fp32]
  simp only [decodeFp32, Ext.rd, Ext.ra, Ext.rb, hi_append_lo6, extract_hi, extract_lo, fields_low2 1#4 rm]
  exact rowIf_ok _ _ _ _ (.inl rfl) (.inl rfl) (.inr rfl) (.inr rfl) rfl hw
theorem fclass (g d a) : Statement (.fclass g d a) := by
  intro _ hw
  show decodeSlot { dh := hi d, ah := hi a } (mkWord 3#4 g 7#3 (lo6 d) (lo6 a) 8#6) = _
  rw [decodeSlot_fp32]
  simp only [decodeFp32, Ext.rd, Ext.ra, Ext.rb, hi_append_lo6, extract_hi, extract_lo]
  exact rowIf_ok _ _ _ _ (.inl rfl) (.inl rfl) (.inr rfl) (.inr rfl) rfl hw
theorem faddRm (g d a rm) : Statement (.faddRm g d a rm) := by
  intro _ hw
  show decodeSlot { dh := hi d, ah := hi a } (mkWord 3#4 g 7#3 (lo6 d) (lo6 a) (4#4 ++ rm)) = _
  rw [decodeSlot_fp32]
  simp only [decodeFp32, Ext.rd, Ext.ra, Ext.rb, hi_append_lo6, extract_hi, extract_lo, fields_low2 4#4 rm]
  exact rowIf_ok _ _ _ _ (.inl rfl) (.inl rfl) (.inr rfl) (.inr rfl) rfl hw
theorem fsubRm (g d a rm) : Statement (.fsubRm g d a rm) := by
  intro _ hw
  show decodeSlot { dh := hi d, ah := hi a } (mkWord 3#4 g 7#3 (lo6 d) (lo6 a) (5#4 ++ rm)) = _
  rw [decodeSlot_fp32]
  simp only [decodeFp32, Ext.rd, Ext.ra, Ext.rb, hi_append_lo6, extract_hi, extract_lo, fields_low2 5#4 rm]
  exact rowIf_ok _ _ _ _ (.inl rfl) (.inl rfl) (.inr rfl) (.inr rfl) rfl hw
theorem fmulRm (g d a rm) : Statement (.fmulRm g d a rm) := by
  intro _ hw
  show decodeSlot { dh := hi d, ah := hi a } (mkWord 3#4 g 7#3 (lo6 d) (lo6 a) (6#4 ++ rm)) = _
  rw [decodeSlot_fp32]
  simp only [decodeFp32, Ext.rd, Ext.ra, Ext.rb, hi_append_lo6, extract_hi, extract_lo, fields_low2 6#4 rm]
  exact rowIf_ok _ _ _ _ (.inl rfl) (.inl rfl) (.inr rfl) (.inr rfl) rfl hw
theorem dadd (g d a b) : Statement (.dadd g d a b) := by
  intro _ hw
  show decodeSlot { dh := hi d, ah := hi a, bh := hi b } (mkWord 4#4 g 0#3 (lo6 d) (lo6 a) (lo6 b)) = _
  rw [decodeSlot_fp64]
  simp only [decodeFp64, Ext.rd, Ext.ra, Ext.rb, hi_append_lo6, extract_hi, extract_lo]
  exact rowIf_ok _ _ _ _ (.inl rfl) (.inl rfl) (.inl rfl) (.inr rfl) rfl hw
theorem dmul (g d a b) : Statement (.dmul g d a b) := by
  intro _ hw
  show decodeSlot { dh := hi d, ah := hi a, bh := hi b } (mkWord 4#4 g 1#3 (lo6 d) (lo6 a) (lo6 b)) = _
  rw [decodeSlot_fp64]
  simp only [decodeFp64, Ext.rd, Ext.ra, Ext.rb, hi_append_lo6, extract_hi, extract_lo]
  exact rowIf_ok _ _ _ _ (.inl rfl) (.inl rfl) (.inl rfl) (.inr rfl) rfl hw
theorem dfma (g d a b) : Statement (.dfma g d a b) := by
  intro _ hw
  show decodeSlot { dh := hi d, ah := hi a, bh := hi b } (mkWord 4#4 g 2#3 (lo6 d) (lo6 a) (lo6 b)) = _
  rw [decodeSlot_fp64]
  simp only [decodeFp64, Ext.rd, Ext.ra, Ext.rb, hi_append_lo6, extract_hi, extract_lo]
  exact rowIf_ok _ _ _ _ (.inl rfl) (.inl rfl) (.inl rfl) (.inr rfl) rfl hw
theorem ddiv (g d a b) : Statement (.ddiv g d a b) := by
  intro _ hw
  show decodeSlot { dh := hi d, ah := hi a, bh := hi b } (mkWord 4#4 g 3#3 (lo6 d) (lo6 a) (lo6 b)) = _
  rw [decodeSlot_fp64]
  simp only [decodeFp64, Ext.rd, Ext.ra, Ext.rb, hi_append_lo6, extract_hi, extract_lo]
  exact rowIf_ok _ _ _ _ (.inl rfl) (.inl rfl) (.inl rfl) (.inr rfl) rfl hw
theorem fdiv (g d a b) : Statement (.fdiv g d a b) := by
  intro _ hw
  show decodeSlot { dh := hi d, ah := hi a, bh := hi b } (mkWord 4#4 g 4#3 (lo6 d) (lo6 a) (lo6 b)) = _
  rw [decodeSlot_fp64]
  simp only [decodeFp64, Ext.rd, Ext.ra, Ext.rb, hi_append_lo6, extract_hi, extract_lo]
  exact rowIf_ok _ _ _ _ (.inl rfl) (.inl rfl) (.inl rfl) (.inr rfl) rfl hw
theorem dcmp (g x y hc k) : Statement (.dcmp g x y hc k) := by
  intro _ hw
  show decodeSlot { dh := hi x, ah := hi y } (mkWord 4#4 g 5#3 (lo6 x) (lo6 y) (hc ++ k)) = _
  rw [decodeSlot_fp64]
  simp only [decodeFp64, Ext.rd, Ext.ra, Ext.rb, hi_append_lo6, extract_hi, extract_lo]
  exact rowIf_ok _ _ _ _ (.inl rfl) (.inl rfl) (.inr rfl) (.inr rfl) rfl hw
theorem dmin (g d a) : Statement (.dmin g d a) := by
  intro _ hw
  show decodeSlot { dh := hi d, ah := hi a } (mkWord 4#4 g 6#3 (lo6 d) (lo6 a) 0#6) = _
  rw [decodeSlot_fp64]
  simp only [decodeFp64, Ext.rd, Ext.ra, Ext.rb, hi_append_lo6, extract_hi, extract_lo]
  exact rowIf_ok _ _ _ _ (.inl rfl) (.inl rfl) (.inr rfl) (.inr rfl) rfl hw
theorem dmax (g d a) : Statement (.dmax g d a) := by
  intro _ hw
  show decodeSlot { dh := hi d, ah := hi a } (mkWord 4#4 g 6#3 (lo6 d) (lo6 a) 1#6) = _
  rw [decodeSlot_fp64]
  simp only [decodeFp64, Ext.rd, Ext.ra, Ext.rb, hi_append_lo6, extract_hi, extract_lo]
  exact rowIf_ok _ _ _ _ (.inl rfl) (.inl rfl) (.inr rfl) (.inr rfl) rfl hw
theorem daddRm (g d a rm) : Statement (.daddRm g d a rm) := by
  intro _ hw
  show decodeSlot { dh := hi d, ah := hi a } (mkWord 4#4 g 6#3 (lo6 d) (lo6 a) (1#4 ++ rm)) = _
  rw [decodeSlot_fp64]
  simp only [decodeFp64, Ext.rd, Ext.ra, Ext.rb, hi_append_lo6, extract_hi, extract_lo, fields_low2 1#4 rm]
  exact rowIf_ok _ _ _ _ (.inl rfl) (.inl rfl) (.inr rfl) (.inr rfl) rfl hw
theorem dmulRm (g d a rm) : Statement (.dmulRm g d a rm) := by
  intro _ hw
  show decodeSlot { dh := hi d, ah := hi a } (mkWord 4#4 g 6#3 (lo6 d) (lo6 a) (2#4 ++ rm)) = _
  rw [decodeSlot_fp64]
  simp only [decodeFp64, Ext.rd, Ext.ra, Ext.rb, hi_append_lo6, extract_hi, extract_lo, fields_low2 2#4 rm]
  exact rowIf_ok _ _ _ _ (.inl rfl) (.inl rfl) (.inr rfl) (.inr rfl) rfl hw
theorem dsqrt (g d a rm) : Statement (.dsqrt g d a rm) := by
  intro _ hw
  show decodeSlot { dh := hi d, ah := hi a } (mkWord 4#4 g 6#3 (lo6 d) (lo6 a) (4#4 ++ rm)) = _
  rw [decodeSlot_fp64]
  simp only [decodeFp64, Ext.rd, Ext.ra, Ext.rb, hi_append_lo6, extract_hi, extract_lo, fields_low2 4#4 rm]
  exact rowIf_ok _ _ _ _ (.inl rfl) (.inl rfl) (.inr rfl) (.inr rfl) rfl hw
theorem fsqrt (g d a rm) : Statement (.fsqrt g d a rm) := by
  intro _ hw
  show decodeSlot { dh := hi d, ah := hi a } (mkWord 4#4 g 6#3 (lo6 d) (lo6 a) (5#4 ++ rm)) = _
  rw [decodeSlot_fp64]
  simp only [decodeFp64, Ext.rd, Ext.ra, Ext.rb, hi_append_lo6, extract_hi, extract_lo, fields_low2 5#4 rm]
  exact rowIf_ok _ _ _ _ (.inl rfl) (.inl rfl) (.inr rfl) (.inr rfl) rfl hw
theorem fexp2 (g d a) : Statement (.fexp2 g d a) := by
  intro _ hw
  show decodeSlot { dh := hi d, ah := hi a } (mkWord 14#4 g 0#3 (lo6 d) (lo6 a) 0#6) = _
  rw [decodeSlot_sfu]
  simp only [decodeSfu, Ext.rd, Ext.ra, Ext.rb, hi_append_lo6, extract_hi, extract_lo]
  exact rowIf_ok _ _ _ _ (.inl rfl) (.inl rfl) (.inr rfl) (.inr rfl) rfl hw
theorem flog2 (g d a) : Statement (.flog2 g d a) := by
  intro _ hw
  show decodeSlot { dh := hi d, ah := hi a } (mkWord 14#4 g 0#3 (lo6 d) (lo6 a) 1#6) = _
  rw [decodeSlot_sfu]
  simp only [decodeSfu, Ext.rd, Ext.ra, Ext.rb, hi_append_lo6, extract_hi, extract_lo]
  exact rowIf_ok _ _ _ _ (.inl rfl) (.inl rfl) (.inr rfl) (.inr rfl) rfl hw
theorem fsin (g d a) : Statement (.fsin g d a) := by
  intro _ hw
  show decodeSlot { dh := hi d, ah := hi a } (mkWord 14#4 g 0#3 (lo6 d) (lo6 a) 2#6) = _
  rw [decodeSlot_sfu]
  simp only [decodeSfu, Ext.rd, Ext.ra, Ext.rb, hi_append_lo6, extract_hi, extract_lo]
  exact rowIf_ok _ _ _ _ (.inl rfl) (.inl rfl) (.inr rfl) (.inr rfl) rfl hw
theorem fcos (g d a) : Statement (.fcos g d a) := by
  intro _ hw
  show decodeSlot { dh := hi d, ah := hi a } (mkWord 14#4 g 0#3 (lo6 d) (lo6 a) 3#6) = _
  rw [decodeSlot_sfu]
  simp only [decodeSfu, Ext.rd, Ext.ra, Ext.rb, hi_append_lo6, extract_hi, extract_lo]
  exact rowIf_ok _ _ _ _ (.inl rfl) (.inl rfl) (.inr rfl) (.inr rfl) rfl hw
theorem frcp (g d a) : Statement (.frcp g d a) := by
  intro _ hw
  show decodeSlot { dh := hi d, ah := hi a } (mkWord 14#4 g 0#3 (lo6 d) (lo6 a) 4#6) = _
  rw [decodeSlot_sfu]
  simp only [decodeSfu, Ext.rd, Ext.ra, Ext.rb, hi_append_lo6, extract_hi, extract_lo]
  exact rowIf_ok _ _ _ _ (.inl rfl) (.inl rfl) (.inr rfl) (.inr rfl) rfl hw
theorem frsq (g d a) : Statement (.frsq g d a) := by
  intro _ hw
  show decodeSlot { dh := hi d, ah := hi a } (mkWord 14#4 g 0#3 (lo6 d) (lo6 a) 5#6) = _
  rw [decodeSlot_sfu]
  simp only [decodeSfu, Ext.rd, Ext.ra, Ext.rb, hi_append_lo6, extract_hi, extract_lo]
  exact rowIf_ok _ _ _ _ (.inl rfl) (.inl rfl) (.inr rfl) (.inr rfl) rfl hw
theorem fcmp (g x y hc k) : Statement (.fcmp g x y hc k) := by
  intro _ hw
  show decodeSlot { dh := hi x, ah := hi y } (mkWord 14#4 g 1#3 (lo6 x) (lo6 y) (hc ++ k)) = _
  rw [decodeSlot_sfu]
  simp only [decodeSfu, Ext.rd, Ext.ra, Ext.rb, hi_append_lo6, extract_hi, extract_lo]
  exact rowIf_ok _ _ _ _ (.inl rfl) (.inl rfl) (.inr rfl) (.inr rfl) rfl hw
theorem qmax (g a j) : Statement (.qmax g a j) := by
  intro _ hw
  show decodeSlot { ah := hi a } (mkWord 14#4 g 2#3 0#6 (lo6 a) (j ++ 0#3)) = _
  rw [decodeSlot_sfu]
  simp only [decodeSfu, Ext.rd, Ext.ra, Ext.rb, hi_append_lo6, extract_hi, extract_lo]
  exact rowIf_ok _ _ _ _ (.inr rfl) (.inl rfl) (.inr rfl) (.inr rfl) rfl hw
theorem qcvtI8 (g d a) : Statement (.qcvtI8 g d a) := by
  intro _ hw
  show decodeSlot { dh := hi d, ah := hi a } (mkWord 14#4 g 3#3 (lo6 d) (lo6 a) 0x00#6) = _
  rw [decodeSlot_sfu]
  simp only [decodeSfu, Ext.rd, Ext.ra, Ext.rb, hi_append_lo6, extract_hi, extract_lo]
  exact rowIf_ok _ _ _ _ (.inl rfl) (.inl rfl) (.inr rfl) (.inr rfl) rfl hw
theorem qcvtCb4 (g d a) : Statement (.qcvtCb4 g d a) := by
  intro _ hw
  show decodeSlot { dh := hi d, ah := hi a } (mkWord 14#4 g 3#3 (lo6 d) (lo6 a) 0x01#6) = _
  rw [decodeSlot_sfu]
  simp only [decodeSfu, Ext.rd, Ext.ra, Ext.rb, hi_append_lo6, extract_hi, extract_lo]
  exact rowIf_ok _ _ _ _ (.inl rfl) (.inl rfl) (.inr rfl) (.inr rfl) rfl hw
theorem dqI8 (g d a) : Statement (.dqI8 g d a) := by
  intro _ hw
  show decodeSlot { dh := hi d, ah := hi a } (mkWord 14#4 g 3#3 (lo6 d) (lo6 a) 0x10#6) = _
  rw [decodeSlot_sfu]
  simp only [decodeSfu, Ext.rd, Ext.ra, Ext.rb, hi_append_lo6, extract_hi, extract_lo]
  exact rowIf_ok _ _ _ _ (.inl rfl) (.inl rfl) (.inr rfl) (.inr rfl) rfl hw
theorem dqCb4 (g d a) : Statement (.dqCb4 g d a) := by
  intro _ hw
  show decodeSlot { dh := hi d, ah := hi a } (mkWord 14#4 g 3#3 (lo6 d) (lo6 a) 0x11#6) = _
  rw [decodeSlot_sfu]
  simp only [decodeSfu, Ext.rd, Ext.ra, Ext.rb, hi_append_lo6, extract_hi, extract_lo]
  exact rowIf_ok _ _ _ _ (.inl rfl) (.inl rfl) (.inr rfl) (.inr rfl) rfl hw
theorem cbsel (g d a) : Statement (.cbsel g d a) := by
  intro _ hw
  show decodeSlot { dh := hi d, ah := hi a } (mkWord 14#4 g 3#3 (lo6 d) (lo6 a) 0x20#6) = _
  rw [decodeSlot_sfu]
  simp only [decodeSfu, Ext.rd, Ext.ra, Ext.rb, hi_append_lo6, extract_hi, extract_lo]
  exact rowIf_ok _ _ _ _ (.inl rfl) (.inl rfl) (.inr rfl) (.inr rfl) rfl hw
theorem cvt (g rm d a dst src) : Statement (.cvt g rm d a dst src) := by
  intro _ hw
  show decodeSlot { dh := hi d, ah := hi a } (mkWord 14#4 g (1#1 ++ rm) (lo6 d) (lo6 a) (dst ++ src)) = _
  rw [decodeSlot_sfu]
  simp only [decodeSfu, Ext.rd, Ext.ra, Ext.rb, hi_append_lo6, extract_hi, extract_lo, fields_rm rm]
  exact rowIf_ok _ _ _ _ (.inl rfl) (.inl rfl) (.inr rfl) (.inr rfl) rfl hw
theorem shflIdx (g d a j) : Statement (.shflIdx g d a j) := by
  intro _ hw
  show decodeSlot { dh := hi d, ah := hi a } (mkWord 5#4 g 0#3 (lo6 d) (lo6 a) (j ++ 0#3)) = _
  rw [decodeSlot_lane]
  simp only [decodeLane, Ext.rd, Ext.ra, Ext.rb, hi_append_lo6, extract_hi, extract_lo]
  exact rowIf_ok _ _ _ _ (.inl rfl) (.inl rfl) (.inr rfl) (.inr rfl) rfl hw
theorem shflUp (g d a j) : Statement (.shflUp g d a j) := by
  intro _ hw
  show decodeSlot { dh := hi d, ah := hi a } (mkWord 5#4 g 0#3 (lo6 d) (lo6 a) (j ++ 1#3)) = _
  rw [decodeSlot_lane]
  simp only [decodeLane, Ext.rd, Ext.ra, Ext.rb, hi_append_lo6, extract_hi, extract_lo]
  exact rowIf_ok _ _ _ _ (.inl rfl) (.inl rfl) (.inr rfl) (.inr rfl) rfl hw
theorem shflDown (g d a j) : Statement (.shflDown g d a j) := by
  intro _ hw
  show decodeSlot { dh := hi d, ah := hi a } (mkWord 5#4 g 0#3 (lo6 d) (lo6 a) (j ++ 2#3)) = _
  rw [decodeSlot_lane]
  simp only [decodeLane, Ext.rd, Ext.ra, Ext.rb, hi_append_lo6, extract_hi, extract_lo]
  exact rowIf_ok _ _ _ _ (.inl rfl) (.inl rfl) (.inr rfl) (.inr rfl) rfl hw
theorem shflXor (g d a j) : Statement (.shflXor g d a j) := by
  intro _ hw
  show decodeSlot { dh := hi d, ah := hi a } (mkWord 5#4 g 0#3 (lo6 d) (lo6 a) (j ++ 3#3)) = _
  rw [decodeSlot_lane]
  simp only [decodeLane, Ext.rd, Ext.ra, Ext.rb, hi_append_lo6, extract_hi, extract_lo]
  exact rowIf_ok _ _ _ _ (.inl rfl) (.inl rfl) (.inr rfl) (.inr rfl) rfl hw
theorem voteAny (g d a j) : Statement (.voteAny g d a j) := by
  intro _ hw
  show decodeSlot {} (mkWord 5#4 g 1#3 d a (j ++ 0#3)) = _
  rw [decodeSlot_lane]
  simp only [decodeLane, Ext.rd, Ext.ra, Ext.rb, hi_append_lo6, extract_hi, extract_lo]
  exact rowIf_ok _ _ _ _ (.inr rfl) (.inr rfl) (.inr rfl) (.inr rfl) rfl hw
theorem voteAll (g d a j) : Statement (.voteAll g d a j) := by
  intro _ hw
  show decodeSlot {} (mkWord 5#4 g 1#3 d a (j ++ 1#3)) = _
  rw [decodeSlot_lane]
  simp only [decodeLane, Ext.rd, Ext.ra, Ext.rb, hi_append_lo6, extract_hi, extract_lo]
  exact rowIf_ok _ _ _ _ (.inr rfl) (.inr rfl) (.inr rfl) (.inr rfl) rfl hw
theorem voteBallot (g d a j) : Statement (.voteBallot g d a j) := by
  intro _ hw
  show decodeSlot { dh := hi d } (mkWord 5#4 g 1#3 (lo6 d) a (j ++ 2#3)) = _
  rw [decodeSlot_lane]
  simp only [decodeLane, Ext.rd, Ext.ra, Ext.rb, hi_append_lo6, extract_hi, extract_lo]
  exact rowIf_ok _ _ _ _ (.inl rfl) (.inr rfl) (.inr rfl) (.inr rfl) rfl hw
theorem matchLanes (g d a j) : Statement (.matchLanes g d a j) := by
  intro _ hw
  show decodeSlot { dh := hi d, ah := hi a } (mkWord 5#4 g 2#3 (lo6 d) (lo6 a) (j ++ 0#3)) = _
  rw [decodeSlot_lane]
  simp only [decodeLane, Ext.rd, Ext.ra, Ext.rb, hi_append_lo6, extract_hi, extract_lo]
  exact rowIf_ok _ _ _ _ (.inl rfl) (.inl rfl) (.inr rfl) (.inr rfl) rfl hw
theorem scanAdd (g d a j) : Statement (.scanAdd g d a j) := by
  intro _ hw
  show decodeSlot { dh := hi d, ah := hi a } (mkWord 5#4 g 3#3 (lo6 d) (lo6 a) (j ++ 0#3)) = _
  rw [decodeSlot_lane]
  simp only [decodeLane, Ext.rd, Ext.ra, Ext.rb, hi_append_lo6, extract_hi, extract_lo]
  exact rowIf_ok _ _ _ _ (.inl rfl) (.inl rfl) (.inr rfl) (.inr rfl) rfl hw
theorem scanAddEx (g d a j) : Statement (.scanAddEx g d a j) := by
  intro _ hw
  show decodeSlot { dh := hi d, ah := hi a } (mkWord 5#4 g 3#3 (lo6 d) (lo6 a) (j ++ 1#3)) = _
  rw [decodeSlot_lane]
  simp only [decodeLane, Ext.rd, Ext.ra, Ext.rb, hi_append_lo6, extract_hi, extract_lo]
  exact rowIf_ok _ _ _ _ (.inl rfl) (.inl rfl) (.inr rfl) (.inr rfl) rfl hw
theorem redAdd (g d a j) : Statement (.redAdd g d a j) := by
  intro _ hw
  show decodeSlot { dh := hi d, ah := hi a } (mkWord 5#4 g 4#3 (lo6 d) (lo6 a) (j ++ 0#3)) = _
  rw [decodeSlot_lane]
  simp only [decodeLane, Ext.rd, Ext.ra, Ext.rb, hi_append_lo6, extract_hi, extract_lo]
  exact rowIf_ok _ _ _ _ (.inl rfl) (.inl rfl) (.inr rfl) (.inr rfl) rfl hw
theorem redMin (g d a j) : Statement (.redMin g d a j) := by
  intro _ hw
  show decodeSlot { dh := hi d, ah := hi a } (mkWord 5#4 g 4#3 (lo6 d) (lo6 a) (j ++ 1#3)) = _
  rw [decodeSlot_lane]
  simp only [decodeLane, Ext.rd, Ext.ra, Ext.rb, hi_append_lo6, extract_hi, extract_lo]
  exact rowIf_ok _ _ _ _ (.inl rfl) (.inl rfl) (.inr rfl) (.inr rfl) rfl hw
theorem redMax (g d a j) : Statement (.redMax g d a j) := by
  intro _ hw
  show decodeSlot { dh := hi d, ah := hi a } (mkWord 5#4 g 4#3 (lo6 d) (lo6 a) (j ++ 2#3)) = _
  rw [decodeSlot_lane]
  simp only [decodeLane, Ext.rd, Ext.ra, Ext.rb, hi_append_lo6, extract_hi, extract_lo]
  exact rowIf_ok _ _ _ _ (.inl rfl) (.inl rfl) (.inr rfl) (.inr rfl) rfl hw
theorem fredAdd (g d a j) : Statement (.fredAdd g d a j) := by
  intro _ hw
  show decodeSlot { dh := hi d, ah := hi a } (mkWord 5#4 g 5#3 (lo6 d) (lo6 a) (j ++ 0#3)) = _
  rw [decodeSlot_lane]
  simp only [decodeLane, Ext.rd, Ext.ra, Ext.rb, hi_append_lo6, extract_hi, extract_lo]
  exact rowIf_ok _ _ _ _ (.inl rfl) (.inl rfl) (.inr rfl) (.inr rfl) rfl hw
theorem jset (g a j) : Statement (.jset g a j) := by
  intro _ hw
  show decodeSlot { ah := hi a } (mkWord 5#4 g 6#3 0#6 (lo6 a) (j ++ 0#3)) = _
  rw [decodeSlot_lane]
  simp only [decodeLane, Ext.rd, Ext.ra, Ext.rb, hi_append_lo6, extract_hi, extract_lo]
  exact rowIf_ok _ _ _ _ (.inr rfl) (.inl rfl) (.inr rfl) (.inr rfl) rfl hw
theorem jsetGrp (g j) : Statement (.jsetGrp g j) := by
  intro _ hw
  show decodeSlot {} (mkWord 5#4 g 6#3 0#6 0#6 (j ++ 1#3)) = _
  rw [decodeSlot_lane]
  simp only [decodeLane, Ext.rd, Ext.ra, Ext.rb, hi_append_lo6, extract_hi, extract_lo]
  exact rowIf_ok _ _ _ _ (.inr rfl) (.inr rfl) (.inr rfl) (.inr rfl) rfl hw
theorem join (g j) : Statement (.join g j) := by
  intro _ hw
  show decodeSlot {} (mkWord 5#4 g 7#3 0#6 0#6 (j ++ 0#3)) = _
  rw [decodeSlot_lane]
  simp only [decodeLane, Ext.rd, Ext.ra, Ext.rb, hi_append_lo6, extract_hi, extract_lo]
  exact rowIf_ok _ _ _ _ (.inr rfl) (.inr rfl) (.inr rfl) (.inr rfl) rfl hw
theorem ldg (g d a sz off) : Statement (.ldg g d a sz off) := by
  intro _ hw
  show decodeSlot { dh := hi d, ah := hi a, imm := off } (mkWord 6#4 g 0#3 (lo6 d) (lo6 a) (sz ++ 0#3)) = _
  rw [decodeSlot_ld]
  simp only [decodeLd, Ext.rd, Ext.ra, Ext.rb, hi_append_lo6, extract_hi, extract_lo]
  exact rowIf_ok _ _ _ _ (.inl rfl) (.inl rfl) (.inr rfl) (.inl rfl) rfl hw
theorem lds (g d a sz off) : Statement (.lds g d a sz off) := by
  intro _ hw
  show decodeSlot { dh := hi d, ah := hi a, imm := off } (mkWord 6#4 g 1#3 (lo6 d) (lo6 a) (sz ++ 0#3)) = _
  rw [decodeSlot_ld]
  simp only [decodeLd, Ext.rd, Ext.ra, Ext.rb, hi_append_lo6, extract_hi, extract_lo]
  exact rowIf_ok _ _ _ _ (.inl rfl) (.inl rfl) (.inr rfl) (.inl rfl) rfl hw
theorem lda (g d a w scp off) : Statement (.lda g d a w scp off) := by
  intro _ hw
  show decodeSlot { dh := hi d, ah := hi a, imm := off } (mkWord 6#4 g 2#3 (lo6 d) (lo6 a) (1#2 ++ w ++ 0#1 ++ scp)) = _
  rw [decodeSlot_ld]
  simp only [decodeLd, Ext.rd, Ext.ra, Ext.rb, hi_append_lo6, extract_hi, extract_lo, fields_acqrel w scp]
  exact rowIf_ok _ _ _ _ (.inl rfl) (.inl rfl) (.inr rfl) (.inl rfl) rfl hw
theorem pref (g a m off) : Statement (.pref g a m off) := by
  intro _ hw
  show decodeSlot { ah := hi a, imm := off } (mkWord 6#4 g 3#3 0#6 (lo6 a) (0#5 ++ m)) = _
  rw [decodeSlot_ld]
  simp only [decodeLd, Ext.rd, Ext.ra, Ext.rb, hi_append_lo6, extract_hi, extract_lo, fields_low1 m]
  exact rowIf_ok _ _ _ _ (.inr rfl) (.inl rfl) (.inr rfl) (.inl rfl) rfl hw
theorem cinv (g a scp off) : Statement (.cinv g a scp off) := by
  intro _ hw
  show decodeSlot { ah := hi a, imm := off } (mkWord 6#4 g 4#3 0#6 (lo6 a) (0#4 ++ scp)) = _
  rw [decodeSlot_ld]
  simp only [decodeLd, Ext.rd, Ext.ra, Ext.rb, hi_append_lo6, extract_hi, extract_lo, fields_low2 0#4 scp]
  exact rowIf_ok _ _ _ _ (.inr rfl) (.inl rfl) (.inr rfl) (.inl rfl) rfl hw
theorem cpin (g a off) : Statement (.cpin g a off) := by
  intro _ hw
  show decodeSlot { ah := hi a, imm := off } (mkWord 6#4 g 5#3 0#6 (lo6 a) 0#6) = _
  rw [decodeSlot_ld]
  simp only [decodeLd, Ext.rd, Ext.ra, Ext.rb, hi_append_lo6, extract_hi, extract_lo]
  exact rowIf_ok _ _ _ _ (.inr rfl) (.inl rfl) (.inr rfl) (.inl rfl) rfl hw
theorem cunpin (g a off) : Statement (.cunpin g a off) := by
  intro _ hw
  show decodeSlot { ah := hi a, imm := off } (mkWord 6#4 g 6#3 0#6 (lo6 a) 0#6) = _
  rw [decodeSlot_ld]
  simp only [decodeLd, Ext.rd, Ext.ra, Ext.rb, hi_append_lo6, extract_hi, extract_lo]
  exact rowIf_ok _ _ _ _ (.inr rfl) (.inl rfl) (.inr rfl) (.inl rfl) rfl hw
theorem stg (g d a sz off) : Statement (.stg g d a sz off) := by
  intro _ hw
  show decodeSlot { dh := hi d, ah := hi a, imm := off } (mkWord 7#4 g 0#3 (lo6 d) (lo6 a) (sz ++ 0#3)) = _
  rw [decodeSlot_st]
  simp only [decodeSt, Ext.rd, Ext.ra, Ext.rb, hi_append_lo6, extract_hi, extract_lo]
  exact rowIf_ok _ _ _ _ (.inl rfl) (.inl rfl) (.inr rfl) (.inl rfl) rfl hw
theorem sts (g d a sz off) : Statement (.sts g d a sz off) := by
  intro _ hw
  show decodeSlot { dh := hi d, ah := hi a, imm := off } (mkWord 7#4 g 1#3 (lo6 d) (lo6 a) (sz ++ 0#3)) = _
  rw [decodeSlot_st]
  simp only [decodeSt, Ext.rd, Ext.ra, Ext.rb, hi_append_lo6, extract_hi, extract_lo]
  exact rowIf_ok _ _ _ _ (.inl rfl) (.inl rfl) (.inr rfl) (.inl rfl) rfl hw
theorem stgRel (g d a w scp off) : Statement (.stgRel g d a w scp off) := by
  intro _ hw
  show decodeSlot { dh := hi d, ah := hi a, imm := off } (mkWord 7#4 g 2#3 (lo6 d) (lo6 a) (1#2 ++ w ++ 0#1 ++ scp)) = _
  rw [decodeSlot_st]
  simp only [decodeSt, Ext.rd, Ext.ra, Ext.rb, hi_append_lo6, extract_hi, extract_lo, fields_acqrel w scp]
  exact rowIf_ok _ _ _ _ (.inl rfl) (.inl rfl) (.inr rfl) (.inl rfl) rfl hw
theorem stc (g d a) : Statement (.stc g d a) := by
  intro _ hw
  show decodeSlot { dh := hi d, ah := hi a } (mkWord 7#4 g 3#3 (lo6 d) (lo6 a) 0#6) = _
  rw [decodeSlot_st]
  simp only [decodeSt, Ext.rd, Ext.ra, Ext.rb, hi_append_lo6, extract_hi, extract_lo]
  exact rowIf_ok _ _ _ _ (.inl rfl) (.inl rfl) (.inr rfl) (.inr rfl) rfl hw
theorem atomAdd (g d a ord scp w off) : Statement (.atomAdd g d a ord scp w off) := by
  intro _ hw
  show decodeSlot { dh := hi d, ah := hi a, imm := off } (mkWord 8#4 g 0#3 (lo6 d) (lo6 a) (ord ++ scp ++ w ++ 0#1)) = _
  rw [decodeSlot_atom]
  simp only [decodeAtom, Ext.rd, Ext.ra, Ext.rb, hi_append_lo6, extract_hi, extract_lo, fields_atom ord scp w 0#1]
  exact rowIf_ok _ _ _ _ (.inl rfl) (.inl rfl) (.inr rfl) (.inl rfl) rfl hw
theorem atomMin (g d a ord scp w off) : Statement (.atomMin g d a ord scp w off) := by
  intro _ hw
  show decodeSlot { dh := hi d, ah := hi a, imm := off } (mkWord 8#4 g 1#3 (lo6 d) (lo6 a) (ord ++ scp ++ w ++ 0#1)) = _
  rw [decodeSlot_atom]
  simp only [decodeAtom, Ext.rd, Ext.ra, Ext.rb, hi_append_lo6, extract_hi, extract_lo, fields_atom ord scp w 0#1]
  exact rowIf_ok _ _ _ _ (.inl rfl) (.inl rfl) (.inr rfl) (.inl rfl) rfl hw
theorem atomMax (g d a ord scp w off) : Statement (.atomMax g d a ord scp w off) := by
  intro _ hw
  show decodeSlot { dh := hi d, ah := hi a, imm := off } (mkWord 8#4 g 1#3 (lo6 d) (lo6 a) (ord ++ scp ++ w ++ 1#1)) = _
  rw [decodeSlot_atom]
  simp only [decodeAtom, Ext.rd, Ext.ra, Ext.rb, hi_append_lo6, extract_hi, extract_lo, fields_atom ord scp w 1#1]
  exact rowIf_ok _ _ _ _ (.inl rfl) (.inl rfl) (.inr rfl) (.inl rfl) rfl hw
theorem atomAnd (g d a ord scp w off) : Statement (.atomAnd g d a ord scp w off) := by
  intro _ hw
  show decodeSlot { dh := hi d, ah := hi a, imm := off } (mkWord 8#4 g 2#3 (lo6 d) (lo6 a) (ord ++ scp ++ w ++ 0#1)) = _
  rw [decodeSlot_atom]
  simp only [decodeAtom, Ext.rd, Ext.ra, Ext.rb, hi_append_lo6, extract_hi, extract_lo, fields_atom ord scp w 0#1]
  exact rowIf_ok _ _ _ _ (.inl rfl) (.inl rfl) (.inr rfl) (.inl rfl) rfl hw
theorem atomOr (g d a ord scp w off) : Statement (.atomOr g d a ord scp w off) := by
  intro _ hw
  show decodeSlot { dh := hi d, ah := hi a, imm := off } (mkWord 8#4 g 3#3 (lo6 d) (lo6 a) (ord ++ scp ++ w ++ 0#1)) = _
  rw [decodeSlot_atom]
  simp only [decodeAtom, Ext.rd, Ext.ra, Ext.rb, hi_append_lo6, extract_hi, extract_lo, fields_atom ord scp w 0#1]
  exact rowIf_ok _ _ _ _ (.inl rfl) (.inl rfl) (.inr rfl) (.inl rfl) rfl hw
theorem atomXor (g d a ord scp w off) : Statement (.atomXor g d a ord scp w off) := by
  intro _ hw
  show decodeSlot { dh := hi d, ah := hi a, imm := off } (mkWord 8#4 g 4#3 (lo6 d) (lo6 a) (ord ++ scp ++ w ++ 0#1)) = _
  rw [decodeSlot_atom]
  simp only [decodeAtom, Ext.rd, Ext.ra, Ext.rb, hi_append_lo6, extract_hi, extract_lo, fields_atom ord scp w 0#1]
  exact rowIf_ok _ _ _ _ (.inl rfl) (.inl rfl) (.inr rfl) (.inl rfl) rfl hw
theorem xchg (g d a ord scp w off) : Statement (.xchg g d a ord scp w off) := by
  intro _ hw
  show decodeSlot { dh := hi d, ah := hi a, imm := off } (mkWord 8#4 g 5#3 (lo6 d) (lo6 a) (ord ++ scp ++ w ++ 0#1)) = _
  rw [decodeSlot_atom]
  simp only [decodeAtom, Ext.rd, Ext.ra, Ext.rb, hi_append_lo6, extract_hi, extract_lo, fields_atom ord scp w 0#1]
  exact rowIf_ok _ _ _ _ (.inl rfl) (.inl rfl) (.inr rfl) (.inl rfl) rfl hw
theorem cas (g d a ord scp w off) : Statement (.cas g d a ord scp w off) := by
  intro _ hw
  show decodeSlot { dh := hi d, ah := hi a, imm := off } (mkWord 8#4 g 5#3 (lo6 d) (lo6 a) (ord ++ scp ++ w ++ 1#1)) = _
  rw [decodeSlot_atom]
  simp only [decodeAtom, Ext.rd, Ext.ra, Ext.rb, hi_append_lo6, extract_hi, extract_lo, fields_atom ord scp w 1#1]
  exact rowIf_ok _ _ _ _ (.inl rfl) (.inl rfl) (.inr rfl) (.inl rfl) rfl hw
theorem xadd (g d a ord scp off) : Statement (.xadd g d a ord scp off) := by
  intro _ hw
  show decodeSlot { dh := hi d, ah := hi a, imm := off } (mkWord 8#4 g 6#3 (lo6 d) (lo6 a) (ord ++ scp ++ 0#2)) = _
  rw [decodeSlot_atom]
  simp only [decodeAtom, Ext.rd, Ext.ra, Ext.rb, hi_append_lo6, extract_hi, extract_lo, fields_xal ord scp 0#2]
  exact rowIf_ok _ _ _ _ (.inl rfl) (.inl rfl) (.inr rfl) (.inl rfl) rfl hw
theorem xrd (g d a ord scp off) : Statement (.xrd g d a ord scp off) := by
  intro _ hw
  show decodeSlot { dh := hi d, ah := hi a, imm := off } (mkWord 8#4 g 6#3 (lo6 d) (lo6 a) (ord ++ scp ++ 1#2)) = _
  rw [decodeSlot_atom]
  simp only [decodeAtom, Ext.rd, Ext.ra, Ext.rb, hi_append_lo6, extract_hi, extract_lo, fields_xal ord scp 1#2]
  exact rowIf_ok _ _ _ _ (.inl rfl) (.inl rfl) (.inr rfl) (.inl rfl) rfl hw
theorem xrd64 (g d a ord scp off) : Statement (.xrd64 g d a ord scp off) := by
  intro _ hw
  show decodeSlot { dh := hi d, ah := hi a, imm := off } (mkWord 8#4 g 6#3 (lo6 d) (lo6 a) (ord ++ scp ++ 2#2)) = _
  rw [decodeSlot_atom]
  simp only [decodeAtom, Ext.rd, Ext.ra, Ext.rb, hi_append_lo6, extract_hi, extract_lo, fields_xal ord scp 2#2]
  exact rowIf_ok _ _ _ _ (.inl rfl) (.inl rfl) (.inr rfl) (.inl rfl) rfl hw
theorem xclr (g d a ord scp off) : Statement (.xclr g d a ord scp off) := by
  intro _ hw
  show decodeSlot { dh := hi d, ah := hi a, imm := off } (mkWord 8#4 g 6#3 (lo6 d) (lo6 a) (ord ++ scp ++ 3#2)) = _
  rw [decodeSlot_atom]
  simp only [decodeAtom, Ext.rd, Ext.ra, Ext.rb, hi_append_lo6, extract_hi, extract_lo, fields_xal ord scp 3#2]
  exact rowIf_ok _ _ _ _ (.inl rfl) (.inl rfl) (.inr rfl) (.inl rfl) rfl hw
theorem atomsAdd (g d a w off) : Statement (.atomsAdd g d a w off) := by
  intro _ hw
  show decodeSlot { dh := hi d, ah := hi a, imm := off } (mkWord 8#4 g 7#3 (lo6 d) (lo6 a) (0#4 ++ w ++ 0#1)) = _
  rw [decodeSlot_atom]
  simp only [decodeAtom, Ext.rd, Ext.ra, Ext.rb, hi_append_lo6, extract_hi, extract_lo, fields_atoms 0#4 w]
  exact rowIf_ok _ _ _ _ (.inl rfl) (.inl rfl) (.inr rfl) (.inl rfl) rfl hw
theorem atomsMin (g d a w off) : Statement (.atomsMin g d a w off) := by
  intro _ hw
  show decodeSlot { dh := hi d, ah := hi a, imm := off } (mkWord 8#4 g 7#3 (lo6 d) (lo6 a) (1#4 ++ w ++ 0#1)) = _
  rw [decodeSlot_atom]
  simp only [decodeAtom, Ext.rd, Ext.ra, Ext.rb, hi_append_lo6, extract_hi, extract_lo, fields_atoms 1#4 w]
  exact rowIf_ok _ _ _ _ (.inl rfl) (.inl rfl) (.inr rfl) (.inl rfl) rfl hw
theorem atomsMax (g d a w off) : Statement (.atomsMax g d a w off) := by
  intro _ hw
  show decodeSlot { dh := hi d, ah := hi a, imm := off } (mkWord 8#4 g 7#3 (lo6 d) (lo6 a) (2#4 ++ w ++ 0#1)) = _
  rw [decodeSlot_atom]
  simp only [decodeAtom, Ext.rd, Ext.ra, Ext.rb, hi_append_lo6, extract_hi, extract_lo, fields_atoms 2#4 w]
  exact rowIf_ok _ _ _ _ (.inl rfl) (.inl rfl) (.inr rfl) (.inl rfl) rfl hw
theorem atomsAnd (g d a w off) : Statement (.atomsAnd g d a w off) := by
  intro _ hw
  show decodeSlot { dh := hi d, ah := hi a, imm := off } (mkWord 8#4 g 7#3 (lo6 d) (lo6 a) (3#4 ++ w ++ 0#1)) = _
  rw [decodeSlot_atom]
  simp only [decodeAtom, Ext.rd, Ext.ra, Ext.rb, hi_append_lo6, extract_hi, extract_lo, fields_atoms 3#4 w]
  exact rowIf_ok _ _ _ _ (.inl rfl) (.inl rfl) (.inr rfl) (.inl rfl) rfl hw
theorem atomsOr (g d a w off) : Statement (.atomsOr g d a w off) := by
  intro _ hw
  show decodeSlot { dh := hi d, ah := hi a, imm := off } (mkWord 8#4 g 7#3 (lo6 d) (lo6 a) (4#4 ++ w ++ 0#1)) = _
  rw [decodeSlot_atom]
  simp only [decodeAtom, Ext.rd, Ext.ra, Ext.rb, hi_append_lo6, extract_hi, extract_lo, fields_atoms 4#4 w]
  exact rowIf_ok _ _ _ _ (.inl rfl) (.inl rfl) (.inr rfl) (.inl rfl) rfl hw
theorem atomsXor (g d a w off) : Statement (.atomsXor g d a w off) := by
  intro _ hw
  show decodeSlot { dh := hi d, ah := hi a, imm := off } (mkWord 8#4 g 7#3 (lo6 d) (lo6 a) (5#4 ++ w ++ 0#1)) = _
  rw [decodeSlot_atom]
  simp only [decodeAtom, Ext.rd, Ext.ra, Ext.rb, hi_append_lo6, extract_hi, extract_lo, fields_atoms 5#4 w]
  exact rowIf_ok _ _ _ _ (.inl rfl) (.inl rfl) (.inr rfl) (.inl rfl) rfl hw
theorem atomsXchg (g d a w off) : Statement (.atomsXchg g d a w off) := by
  intro _ hw
  show decodeSlot { dh := hi d, ah := hi a, imm := off } (mkWord 8#4 g 7#3 (lo6 d) (lo6 a) (6#4 ++ w ++ 0#1)) = _
  rw [decodeSlot_atom]
  simp only [decodeAtom, Ext.rd, Ext.ra, Ext.rb, hi_append_lo6, extract_hi, extract_lo, fields_atoms 6#4 w]
  exact rowIf_ok _ _ _ _ (.inl rfl) (.inl rfl) (.inr rfl) (.inl rfl) rfl hw
theorem atomsCas (g d a w off) : Statement (.atomsCas g d a w off) := by
  intro _ hw
  show decodeSlot { dh := hi d, ah := hi a, imm := off } (mkWord 8#4 g 7#3 (lo6 d) (lo6 a) (7#4 ++ w ++ 0#1)) = _
  rw [decodeSlot_atom]
  simp only [decodeAtom, Ext.rd, Ext.ra, Ext.rb, hi_append_lo6, extract_hi, extract_lo, fields_atoms 7#4 w]
  exact rowIf_ok _ _ _ _ (.inl rfl) (.inl rfl) (.inr rfl) (.inl rfl) rfl hw
theorem fenceAcq (g scp) : Statement (.fenceAcq g scp) := by
  intro _ hw
  show decodeSlot {} (mkWord 9#4 g 0#3 0#6 0#6 (0#2 ++ scp ++ 0#2)) = _
  rw [decodeSlot_sync]
  simp only [decodeSync, Ext.rd, Ext.ra, Ext.rb, hi_append_lo6, extract_hi, extract_lo, fields_fence 0#2 scp]
  exact rowIf_ok _ _ _ _ (.inr rfl) (.inr rfl) (.inr rfl) (.inr rfl) rfl hw
theorem fenceRel (g scp) : Statement (.fenceRel g scp) := by
  intro _ hw
  show decodeSlot {} (mkWord 9#4 g 0#3 0#6 0#6 (1#2 ++ scp ++ 0#2)) = _
  rw [decodeSlot_sync]
  simp only [decodeSync, Ext.rd, Ext.ra, Ext.rb, hi_append_lo6, extract_hi, extract_lo, fields_fence 1#2 scp]
  exact rowIf_ok _ _ _ _ (.inr rfl) (.inr rfl) (.inr rfl) (.inr rfl) rfl hw
theorem fenceAr (g scp) : Statement (.fenceAr g scp) := by
  intro _ hw
  show decodeSlot {} (mkWord 9#4 g 0#3 0#6 0#6 (2#2 ++ scp ++ 0#2)) = _
  rw [decodeSlot_sync]
  simp only [decodeSync, Ext.rd, Ext.ra, Ext.rb, hi_append_lo6, extract_hi, extract_lo, fields_fence 2#2 scp]
  exact rowIf_ok _ _ _ _ (.inr rfl) (.inr rfl) (.inr rfl) (.inr rfl) rfl hw
theorem drain (g) : Statement (.drain g) := by
  intro _ hw
  show decodeSlot {} (mkWord 9#4 g 1#3 0#6 0#6 0#6) = _
  rw [decodeSlot_sync]
  simp only [decodeSync, Ext.rd, Ext.ra, Ext.rb, hi_append_lo6, extract_hi, extract_lo, if_true]
  exact rowIf_ok _ _ _ _ (.inr rfl) (.inr rfl) (.inr rfl) (.inr rfl) rfl hw
theorem waitc (g k n) : Statement (.waitc g k n) := by
  intro _ hw
  show decodeSlot {} (mkWord 9#4 g 2#3 k 0#6 n) = _
  rw [decodeSlot_sync]
  simp only [decodeSync, Ext.rd, Ext.ra, Ext.rb, hi_append_lo6, extract_hi, extract_lo]
  exact rowIf_ok _ _ _ _ (.inr rfl) (.inr rfl) (.inr rfl) (.inr rfl) rfl hw
theorem bar (g) : Statement (.bar g) := by
  intro _ hw
  show decodeSlot {} (mkWord 9#4 g 3#3 0#6 0#6 0#6) = _
  rw [decodeSlot_sync]
  simp only [decodeSync, Ext.rd, Ext.ra, Ext.rb, hi_append_lo6, extract_hi, extract_lo, if_true]
  exact rowIf_ok _ _ _ _ (.inr rfl) (.inr rfl) (.inr rfl) (.inr rfl) rfl hw
theorem gbara (g a) : Statement (.gbara g a) := by
  intro _ hw
  show decodeSlot { ah := hi a } (mkWord 9#4 g 4#3 0#6 (lo6 a) 0#6) = _
  rw [decodeSlot_sync]
  simp only [decodeSync, Ext.rd, Ext.ra, Ext.rb, hi_append_lo6, extract_hi, extract_lo]
  exact rowIf_ok _ _ _ _ (.inr rfl) (.inl rfl) (.inr rfl) (.inr rfl) rfl hw
theorem gbarw (g a) : Statement (.gbarw g a) := by
  intro _ hw
  show decodeSlot { ah := hi a } (mkWord 9#4 g 4#3 0#6 (lo6 a) 1#6) = _
  rw [decodeSlot_sync]
  simp only [decodeSync, Ext.rd, Ext.ra, Ext.rb, hi_append_lo6, extract_hi, extract_lo]
  exact rowIf_ok _ _ _ _ (.inr rfl) (.inl rfl) (.inr rfl) (.inr rfl) rfl hw
theorem awinit (g d a) : Statement (.awinit g d a) := by
  intro _ hw
  show decodeSlot { dh := hi d, ah := hi a } (mkWord 9#4 g 5#3 (lo6 d) (lo6 a) 0#6) = _
  rw [decodeSlot_sync]
  simp only [decodeSync, Ext.rd, Ext.ra, Ext.rb, hi_append_lo6, extract_hi, extract_lo]
  exact rowIf_ok _ _ _ _ (.inl rfl) (.inl rfl) (.inr rfl) (.inr rfl) rfl hw
theorem awadd (g d a) : Statement (.awadd g d a) := by
  intro _ hw
  show decodeSlot { dh := hi d, ah := hi a } (mkWord 9#4 g 6#3 (lo6 d) (lo6 a) 0#6) = _
  rw [decodeSlot_sync]
  simp only [decodeSync, Ext.rd, Ext.ra, Ext.rb, hi_append_lo6, extract_hi, extract_lo]
  exact rowIf_ok _ _ _ _ (.inl rfl) (.inl rfl) (.inr rfl) (.inr rfl) rfl hw
theorem awwait (g d h) : Statement (.awwait g d h) := by
  intro _ hw
  show decodeSlot { dh := hi d } (mkWord 9#4 g 7#3 (lo6 d) (0#5 ++ h) 0#6) = _
  rw [decodeSlot_sync]
  simp only [decodeSync, Ext.rd, Ext.ra, Ext.rb, hi_append_lo6, extract_hi, extract_lo, fields_low1 h]
  exact rowIf_ok _ _ _ _ (.inl rfl) (.inr rfl) (.inr rfl) (.inr rfl) rfl hw
theorem awtest (g k a) : Statement (.awtest g k a) := by
  intro _ hw
  show decodeSlot { ah := hi a } (mkWord 9#4 g 7#3 k (lo6 a) 1#6) = _
  rw [decodeSlot_sync]
  simp only [decodeSync, Ext.rd, Ext.ra, Ext.rb, hi_append_lo6, extract_hi, extract_lo]
  exact rowIf_ok _ _ _ _ (.inr rfl) (.inl rfl) (.inr rfl) (.inr rfl) rfl hw
theorem bra (g o) : Statement (.bra g o) := by
  intro _ hw
  show decodeSlot { imm := o.hi } (mkWord 10#4 g 0#3 (i18 o.lo 12) (i18 o.lo 6) (i18 o.lo 0)) = _
  rw [decodeSlot_br]
  simp only [decodeBr, Ext.rd, Ext.ra, Ext.rb, hi_append_lo6, extract_hi, extract_lo, Imm.of_parts, i18_parts]
  exact rowIf_ok _ _ _ _ (.inr rfl) (.inr rfl) (.inr rfl) (.inl rfl) rfl hw
theorem call (g o) : Statement (.call g o) := by
  intro _ hw
  show decodeSlot { imm := o.hi } (mkWord 10#4 g 1#3 (i18 o.lo 12) (i18 o.lo 6) (i18 o.lo 0)) = _
  rw [decodeSlot_br]
  simp only [decodeBr, Ext.rd, Ext.ra, Ext.rb, hi_append_lo6, extract_hi, extract_lo, Imm.of_parts, i18_parts]
  exact rowIf_ok _ _ _ _ (.inr rfl) (.inr rfl) (.inr rfl) (.inl rfl) rfl hw
theorem brx (g a) : Statement (.brx g a) := by
  intro _ hw
  show decodeSlot { ah := hi a } (mkWord 10#4 g 2#3 0#6 (lo6 a) 0#6) = _
  rw [decodeSlot_br]
  simp only [decodeBr, Ext.rd, Ext.ra, Ext.rb, hi_append_lo6, extract_hi, extract_lo]
  exact rowIf_ok _ _ _ _ (.inr rfl) (.inl rfl) (.inr rfl) (.inr rfl) rfl hw
theorem callx (g a) : Statement (.callx g a) := by
  intro _ hw
  show decodeSlot { ah := hi a } (mkWord 10#4 g 2#3 0#6 (lo6 a) 1#6) = _
  rw [decodeSlot_br]
  simp only [decodeBr, Ext.rd, Ext.ra, Ext.rb, hi_append_lo6, extract_hi, extract_lo]
  exact rowIf_ok _ _ _ _ (.inr rfl) (.inl rfl) (.inr rfl) (.inr rfl) rfl hw
theorem ret (g) : Statement (.ret g) := by
  intro _ hw
  show decodeSlot {} (mkWord 10#4 g 3#3 0#6 0#6 0#6) = _
  rw [decodeSlot_br]
  simp only [decodeBr, Ext.rd, Ext.ra, Ext.rb, hi_append_lo6, extract_hi, extract_lo]
  exact rowIf_ok _ _ _ _ (.inr rfl) (.inr rfl) (.inr rfl) (.inr rfl) rfl hw
theorem exit (g) : Statement (.exit g) := by
  intro _ hw
  show decodeSlot {} (mkWord 10#4 g 3#3 0#6 0#6 1#6) = _
  rw [decodeSlot_br]
  simp only [decodeBr, Ext.rd, Ext.ra, Ext.rb, hi_append_lo6, extract_hi, extract_lo]
  exact rowIf_ok _ _ _ _ (.inr rfl) (.inr rfl) (.inr rfl) (.inr rfl) rfl hw
theorem nop (g) : Statement (.nop g) := by
  intro _ hw
  show decodeSlot {} (mkWord 10#4 g 3#3 0#6 0#6 2#6) = _
  rw [decodeSlot_br]
  simp only [decodeBr, Ext.rd, Ext.ra, Ext.rb, hi_append_lo6, extract_hi, extract_lo]
  exact rowIf_ok _ _ _ _ (.inr rfl) (.inr rfl) (.inr rfl) (.inr rfl) rfl hw
theorem endl (g) : Statement (.endl g) := by
  intro _ hw
  show decodeSlot {} (mkWord 10#4 g 3#3 0#6 0#6 3#6) = _
  rw [decodeSlot_br]
  simp only [decodeBr, Ext.rd, Ext.ra, Ext.rb, hi_append_lo6, extract_hi, extract_lo]
  exact rowIf_ok _ _ _ _ (.inr rfl) (.inr rfl) (.inr rfl) (.inr rfl) rfl hw
theorem brk (g) : Statement (.brk g) := by
  intro _ hw
  show decodeSlot {} (mkWord 10#4 g 3#3 0#6 0#6 4#6) = _
  rw [decodeSlot_br]
  simp only [decodeBr, Ext.rd, Ext.ra, Ext.rb, hi_append_lo6, extract_hi, extract_lo]
  exact rowIf_ok _ _ _ _ (.inr rfl) (.inr rfl) (.inr rfl) (.inr rfl) rfl hw
theorem loopLc0 (g a o) : Statement (.loopLc0 g a o) := by
  intro _ hw
  show decodeSlot { dh := hi a, imm := o.hi } (mkWord 10#4 g 4#3 (lo6 a) (hi12 o.lo) (lo12 o.lo)) = _
  rw [decodeSlot_br]
  simp only [decodeBr, Ext.rd, Ext.ra, Ext.rb, hi_append_lo6, extract_hi, extract_lo, hi12_append_lo12, Imm.of_parts]
  exact rowIf_ok _ _ _ _ (.inl rfl) (.inr rfl) (.inr rfl) (.inl rfl) rfl hw
theorem loopLc1 (g a o) : Statement (.loopLc1 g a o) := by
  intro _ hw
  show decodeSlot { dh := hi a, imm := o.hi } (mkWord 10#4 g 5#3 (lo6 a) (hi12 o.lo) (lo12 o.lo)) = _
  rw [decodeSlot_br]
  simp only [decodeBr, Ext.rd, Ext.ra, Ext.rb, hi_append_lo6, extract_hi, extract_lo, hi12_append_lo12, Imm.of_parts]
  exact rowIf_ok _ _ _ _ (.inl rfl) (.inr rfl) (.inr rfl) (.inl rfl) rfl hw
theorem loopp (g a t o) : Statement (.loopp g a t o) := by
  intro _ hw
  show decodeSlot { dh := hi a } (mkWord 10#4 g 6#3 (lo6 a) (t ++ o.extractLsb' 6 4) (o.extractLsb' 0 6)) = _
  rw [decodeSlot_br]
  simp only [decodeBr, Ext.rd, Ext.ra, Ext.rb, hi_append_lo6, extract_hi, extract_lo, fields_loopp o]
  exact rowIf_ok _ _ _ _ (.inl rfl) (.inr rfl) (.inr rfl) (.inr rfl) rfl hw
theorem item (g a o) : Statement (.item g a o) := by
  intro _ hw
  show decodeSlot { dh := hi a, imm := o.hi } (mkWord 10#4 g 7#3 (lo6 a) (hi12 o.lo) (lo12 o.lo)) = _
  rw [decodeSlot_br]
  simp only [decodeBr, Ext.rd, Ext.ra, Ext.rb, hi_append_lo6, extract_hi, extract_lo, hi12_append_lo12, Imm.of_parts]
  exact rowIf_ok _ _ _ _ (.inl rfl) (.inr rfl) (.inr rfl) (.inl rfl) rfl hw
theorem cpy (g a) : Statement (.cpy g a) := by
  intro _ hw
  show decodeSlot { ah := hi a } (mkWord 11#4 g 0#3 0#6 (lo6 a) 0x00#6) = _
  rw [decodeSlot_eng]
  simp only [decodeEng, Ext.rd, Ext.ra, Ext.rb, hi_append_lo6, extract_hi, extract_lo]
  exact rowIf_ok _ _ _ _ (.inr rfl) (.inl rfl) (.inr rfl) (.inr rfl) rfl hw
theorem cpyTag (g a) : Statement (.cpyTag g a) := by
  intro _ hw
  show decodeSlot { ah := hi a } (mkWord 11#4 g 0#3 0#6 (lo6 a) 0x01#6) = _
  rw [decodeSlot_eng]
  simp only [decodeEng, Ext.rd, Ext.ra, Ext.rb, hi_append_lo6, extract_hi, extract_lo]
  exact rowIf_ok _ _ _ _ (.inr rfl) (.inl rfl) (.inr rfl) (.inr rfl) rfl hw
theorem cpys (g d a) : Statement (.cpys g d a) := by
  intro _ hw
  show decodeSlot { dh := hi d, ah := hi a } (mkWord 11#4 g 1#3 (lo6 d) (lo6 a) 0#6) = _
  rw [decodeSlot_eng]
  simp only [decodeEng, Ext.rd, Ext.ra, Ext.rb, hi_append_lo6, extract_hi, extract_lo]
  exact rowIf_ok _ _ _ _ (.inl rfl) (.inl rfl) (.inr rfl) (.inr rfl) rfl hw
theorem gath (g a e) : Statement (.gath g a e) := by
  intro _ hw
  show decodeSlot { ah := hi a } (mkWord 11#4 g 2#3 0#6 (lo6 a) (0#1 ++ e ++ 0#3)) = _
  rw [decodeSlot_eng]
  simp only [decodeEng, Ext.rd, Ext.ra, Ext.rb, hi_append_lo6, extract_hi, extract_lo, fields_gath e]
  exact rowIf_ok _ _ _ _ (.inr rfl) (.inl rfl) (.inr rfl) (.inr rfl) rfl hw
theorem mxcfg (g a) : Statement (.mxcfg g a) := by
  intro _ hw
  show decodeSlot { ah := hi a } (mkWord 11#4 g 3#3 0#6 (lo6 a) 0x00#6) = _
  rw [decodeSlot_eng]
  simp only [decodeEng, Ext.rd, Ext.ra, Ext.rb, hi_append_lo6, extract_hi, extract_lo]
  exact rowIf_ok _ _ _ _ (.inr rfl) (.inl rfl) (.inr rfl) (.inr rfl) rfl hw
theorem mxshape (g a) : Statement (.mxshape g a) := by
  intro _ hw
  show decodeSlot { ah := hi a } (mkWord 11#4 g 3#3 0#6 (lo6 a) 0x08#6) = _
  rw [decodeSlot_eng]
  simp only [decodeEng, Ext.rd, Ext.ra, Ext.rb, hi_append_lo6, extract_hi, extract_lo]
  exact rowIf_ok _ _ _ _ (.inr rfl) (.inl rfl) (.inr rfl) (.inr rfl) rfl hw
theorem mxldw (g a) : Statement (.mxldw g a) := by
  intro _ hw
  show decodeSlot { ah := hi a } (mkWord 11#4 g 3#3 0#6 (lo6 a) 0x10#6) = _
  rw [decodeSlot_eng]
  simp only [decodeEng, Ext.rd, Ext.ra, Ext.rb, hi_append_lo6, extract_hi, extract_lo]
  exact rowIf_ok _ _ _ _ (.inr rfl) (.inl rfl) (.inr rfl) (.inr rfl) rfl hw
theorem mxq (g a) : Statement (.mxq g a) := by
  intro _ hw
  show decodeSlot { ah := hi a } (mkWord 11#4 g 3#3 0#6 (lo6 a) 0x18#6) = _
  rw [decodeSlot_eng]
  simp only [decodeEng, Ext.rd, Ext.ra, Ext.rb, hi_append_lo6, extract_hi, extract_lo]
  exact rowIf_ok _ _ _ _ (.inr rfl) (.inl rfl) (.inr rfl) (.inr rfl) rfl hw
theorem mxdrain (g) : Statement (.mxdrain g) := by
  intro _ hw
  show decodeSlot {} (mkWord 11#4 g 3#3 0#6 0#6 0x20#6) = _
  rw [decodeSlot_eng]
  simp only [decodeEng, Ext.rd, Ext.ra, Ext.rb, hi_append_lo6, extract_hi, extract_lo, if_true]
  exact (show _ = rowIf {} {} true (.mxdrain g) from rfl).trans (rowIf_ok _ _ _ _ (.inr rfl) (.inr rfl) (.inr rfl) (.inr rfl) rfl hw)
theorem cbload (g n a) : Statement (.cbload g n a) := by
  intro _ hw
  show decodeSlot { ah := hi a } (mkWord 11#4 g 3#3 n (lo6 a) 0x28#6) = _
  rw [decodeSlot_eng]
  simp only [decodeEng, Ext.rd, Ext.ra, Ext.rb, hi_append_lo6, extract_hi, extract_lo]
  exact rowIf_ok _ _ _ _ (.inr rfl) (.inl rfl) (.inr rfl) (.inr rfl) rfl hw
theorem ntake (g) : Statement (.ntake g) := by
  intro _ hw
  show decodeSlot {} (mkWord 11#4 g 4#3 0#6 0#6 0#6) = _
  rw [decodeSlot_eng]
  simp only [decodeEng, Ext.rd, Ext.ra, Ext.rb, hi_append_lo6, extract_hi, extract_lo, if_true]
  exact (show _ = rowIf {} {} true (.ntake g) from rfl).trans (rowIf_ok _ _ _ _ (.inr rfl) (.inr rfl) (.inr rfl) (.inr rfl) rfl hw)
theorem npass (g) : Statement (.npass g) := by
  intro _ hw
  show decodeSlot {} (mkWord 11#4 g 4#3 0#6 0#6 8#6) = _
  rw [decodeSlot_eng]
  simp only [decodeEng, Ext.rd, Ext.ra, Ext.rb, hi_append_lo6, extract_hi, extract_lo, if_true]
  exact (show _ = rowIf {} {} true (.npass g) from rfl).trans (rowIf_ok _ _ _ _ (.inr rfl) (.inr rfl) (.inr rfl) (.inr rfl) rfl hw)
theorem ntest (g d) : Statement (.ntest g d) := by
  intro _ hw
  show decodeSlot { dh := hi d } (mkWord 11#4 g 4#3 (lo6 d) 0#6 0x10#6) = _
  rw [decodeSlot_eng]
  simp only [decodeEng, Ext.rd, Ext.ra, Ext.rb, hi_append_lo6, extract_hi, extract_lo]
  exact rowIf_ok _ _ _ _ (.inl rfl) (.inr rfl) (.inr rfl) (.inr rfl) rfl hw
theorem ray (g a) : Statement (.ray g a) := by
  intro _ hw
  show decodeSlot { ah := hi a } (mkWord 11#4 g 5#3 0#6 (lo6 a) 0x00#6) = _
  rw [decodeSlot_eng]
  simp only [decodeEng, Ext.rd, Ext.ra, Ext.rb, hi_append_lo6, extract_hi, extract_lo]
  exact rowIf_ok _ _ _ _ (.inr rfl) (.inl rfl) (.inr rfl) (.inr rfl) rfl hw
theorem rayAny (g a) : Statement (.rayAny g a) := by
  intro _ hw
  show decodeSlot { ah := hi a } (mkWord 11#4 g 5#3 0#6 (lo6 a) 0x01#6) = _
  rw [decodeSlot_eng]
  simp only [decodeEng, Ext.rd, Ext.ra, Ext.rb, hi_append_lo6, extract_hi, extract_lo]
  exact rowIf_ok _ _ _ _ (.inr rfl) (.inl rfl) (.inr rfl) (.inr rfl) rfl hw
theorem ovlp (g a) : Statement (.ovlp g a) := by
  intro _ hw
  show decodeSlot { ah := hi a } (mkWord 11#4 g 5#3 0#6 (lo6 a) 0x08#6) = _
  rw [decodeSlot_eng]
  simp only [decodeEng, Ext.rd, Ext.ra, Ext.rb, hi_append_lo6, extract_hi, extract_lo]
  exact rowIf_ok _ _ _ _ (.inr rfl) (.inl rfl) (.inr rfl) (.inr rfl) rfl hw
theorem refit (g a) : Statement (.refit g a) := by
  intro _ hw
  show decodeSlot { ah := hi a } (mkWord 11#4 g 5#3 0#6 (lo6 a) 0x10#6) = _
  rw [decodeSlot_eng]
  simp only [decodeEng, Ext.rd, Ext.ra, Ext.rb, hi_append_lo6, extract_hi, extract_lo]
  exact rowIf_ok _ _ _ _ (.inr rfl) (.inl rfl) (.inr rfl) (.inr rfl) rfl hw
theorem draw (g a) : Statement (.draw g a) := by
  intro _ hw
  show decodeSlot { ah := hi a } (mkWord 11#4 g 6#3 0#6 (lo6 a) 0x00#6) = _
  rw [decodeSlot_eng]
  simp only [decodeEng, Ext.rd, Ext.ra, Ext.rb, hi_append_lo6, extract_hi, extract_lo]
  exact rowIf_ok _ _ _ _ (.inr rfl) (.inl rfl) (.inr rfl) (.inr rfl) rfl hw
theorem drawEz (g a) : Statement (.drawEz g a) := by
  intro _ hw
  show decodeSlot { ah := hi a } (mkWord 11#4 g 6#3 0#6 (lo6 a) 0x01#6) = _
  rw [decodeSlot_eng]
  simp only [decodeEng, Ext.rd, Ext.ra, Ext.rb, hi_append_lo6, extract_hi, extract_lo]
  exact rowIf_ok _ _ _ _ (.inr rfl) (.inl rfl) (.inr rfl) (.inr rfl) rfl hw
theorem tenq (g a) : Statement (.tenq g a) := by
  intro _ hw
  show decodeSlot { ah := hi a } (mkWord 12#4 g 0#3 0#6 (lo6 a) 0#6) = _
  rw [decodeSlot_task]
  simp only [decodeTask, Ext.rd, Ext.ra, Ext.rb, hi_append_lo6, extract_hi, extract_lo]
  exact rowIf_ok _ _ _ _ (.inr rfl) (.inl rfl) (.inr rfl) (.inr rfl) rfl hw
theorem tdec (g a) : Statement (.tdec g a) := by
  intro _ hw
  show decodeSlot { ah := hi a } (mkWord 12#4 g 1#3 0#6 (lo6 a) 0#6) = _
  rw [decodeSlot_task]
  simp only [decodeTask, Ext.rd, Ext.ra, Ext.rb, hi_append_lo6, extract_hi, extract_lo]
  exact rowIf_ok _ _ _ _ (.inr rfl) (.inl rfl) (.inr rfl) (.inr rfl) rfl hw
theorem lnch (g d a) : Statement (.lnch g d a) := by
  intro _ hw
  show decodeSlot { dh := hi d, ah := hi a } (mkWord 12#4 g 2#3 (lo6 d) (lo6 a) 0#6) = _
  rw [decodeSlot_task]
  simp only [decodeTask, Ext.rd, Ext.ra, Ext.rb, hi_append_lo6, extract_hi, extract_lo]
  exact rowIf_ok _ _ _ _ (.inl rfl) (.inl rfl) (.inr rfl) (.inr rfl) rfl hw
theorem iqpush (g a) : Statement (.iqpush g a) := by
  intro _ hw
  show decodeSlot { ah := hi a } (mkWord 12#4 g 3#3 0#6 (lo6 a) 0#6) = _
  rw [decodeSlot_task]
  simp only [decodeTask, Ext.rd, Ext.ra, Ext.rb, hi_append_lo6, extract_hi, extract_lo]
  exact rowIf_ok _ _ _ _ (.inr rfl) (.inl rfl) (.inr rfl) (.inr rfl) rfl hw
theorem wave (g d a b) : Statement (.wave g d a b) := by
  intro _ hw
  show decodeSlot { dh := hi d, ah := hi a, bh := hi b } (mkWord 12#4 g 4#3 (lo6 d) (lo6 a) (lo6 b)) = _
  rw [decodeSlot_task]
  simp only [decodeTask, Ext.rd, Ext.ra, Ext.rb, hi_append_lo6, extract_hi, extract_lo]
  exact rowIf_ok _ _ _ _ (.inl rfl) (.inl rfl) (.inl rfl) (.inr rfl) rfl hw
theorem iqclose (g) : Statement (.iqclose g) := by
  intro _ hw
  show decodeSlot {} (mkWord 12#4 g 5#3 0#6 0#6 0#6) = _
  rw [decodeSlot_task]
  simp only [decodeTask, Ext.rd, Ext.ra, Ext.rb, hi_append_lo6, extract_hi, extract_lo]
  exact rowIf_ok _ _ _ _ (.inr rfl) (.inr rfl) (.inr rfl) (.inr rfl) rfl hw
theorem wavew (g) : Statement (.wavew g) := by
  intro _ hw
  show decodeSlot {} (mkWord 12#4 g 5#3 0#6 0#6 1#6) = _
  rw [decodeSlot_task]
  simp only [decodeTask, Ext.rd, Ext.ra, Ext.rb, hi_append_lo6, extract_hi, extract_lo]
  exact rowIf_ok _ _ _ _ (.inr rfl) (.inr rfl) (.inr rfl) (.inr rfl) rfl hw
theorem setdl (g a) : Statement (.setdl g a) := by
  intro _ hw
  show decodeSlot { ah := hi a } (mkWord 12#4 g 5#3 0#6 (lo6 a) 2#6) = _
  rw [decodeSlot_task]
  simp only [decodeTask, Ext.rd, Ext.ra, Ext.rb, hi_append_lo6, extract_hi, extract_lo]
  exact rowIf_ok _ _ _ _ (.inr rfl) (.inl rfl) (.inr rfl) (.inr rfl) rfl hw
theorem restag (g d a) : Statement (.restag g d a) := by
  intro _ hw
  show decodeSlot { dh := hi d, ah := hi a } (mkWord 12#4 g 6#3 (lo6 d) (lo6 a) 0#6) = _
  rw [decodeSlot_task]
  simp only [decodeTask, Ext.rd, Ext.ra, Ext.rb, hi_append_lo6, extract_hi, extract_lo]
  exact rowIf_ok _ _ _ _ (.inl rfl) (.inl rfl) (.inr rfl) (.inr rfl) rfl hw
theorem resq (g d a) : Statement (.resq g d a) := by
  intro _ hw
  show decodeSlot { dh := hi d, ah := hi a } (mkWord 12#4 g 6#3 (lo6 d) (lo6 a) 1#6) = _
  rw [decodeSlot_task]
  simp only [decodeTask, Ext.rd, Ext.ra, Ext.rb, hi_append_lo6, extract_hi, extract_lo]
  exact rowIf_ok _ _ _ _ (.inl rfl) (.inl rfl) (.inr rfl) (.inr rfl) rfl hw
theorem resdrop (g a) : Statement (.resdrop g a) := by
  intro _ hw
  show decodeSlot { ah := hi a } (mkWord 12#4 g 6#3 0#6 (lo6 a) 2#6) = _
  rw [decodeSlot_task]
  simp only [decodeTask, Ext.rd, Ext.ra, Ext.rb, hi_append_lo6, extract_hi, extract_lo]
  exact rowIf_ok _ _ _ _ (.inr rfl) (.inl rfl) (.inr rfl) (.inr rfl) rfl hw
theorem movsr (g d f) : Statement (.movsr g d f) := by
  intro _ hw
  show decodeSlot { dh := hi d } (mkWord 13#4 g 0#3 (lo6 d) 0#6 f) = _
  rw [decodeSlot_sys]
  simp only [decodeSys, Ext.rd, Ext.ra, Ext.rb, hi_append_lo6, extract_hi, extract_lo]
  exact rowIf_ok _ _ _ _ (.inl rfl) (.inr rfl) (.inr rfl) (.inr rfl) rfl hw
theorem csrr (g d c) : Statement (.csrr g d c) := by
  intro _ hw
  show decodeSlot { dh := hi d } (mkWord 13#4 g 1#3 (lo6 d) (hi12 c) (lo12 c)) = _
  rw [decodeSlot_sys]
  simp only [decodeSys, Ext.rd, Ext.ra, Ext.rb, hi_append_lo6, extract_hi, extract_lo, hi12_append_lo12]
  exact rowIf_ok _ _ _ _ (.inl rfl) (.inr rfl) (.inr rfl) (.inr rfl) rfl hw
theorem csrw (g d c) : Statement (.csrw g d c) := by
  intro _ hw
  show decodeSlot { dh := hi d } (mkWord 13#4 g 2#3 (lo6 d) (hi12 c) (lo12 c)) = _
  rw [decodeSlot_sys]
  simp only [decodeSys, Ext.rd, Ext.ra, Ext.rb, hi_append_lo6, extract_hi, extract_lo, hi12_append_lo12]
  exact rowIf_ok _ _ _ _ (.inl rfl) (.inr rfl) (.inr rfl) (.inr rfl) rfl hw
theorem svc (g d a) : Statement (.svc g d a) := by
  intro _ hw
  show decodeSlot { dh := hi d, ah := hi a } (mkWord 13#4 g 3#3 (lo6 d) (lo6 a) 0#6) = _
  rw [decodeSlot_sys]
  simp only [decodeSys, Ext.rd, Ext.ra, Ext.rb, hi_append_lo6, extract_hi, extract_lo]
  exact rowIf_ok _ _ _ _ (.inl rfl) (.inl rfl) (.inr rfl) (.inr rfl) rfl hw
theorem trap (g a) : Statement (.trap g a) := by
  intro _ hw
  show decodeSlot { ah := hi a } (mkWord 13#4 g 3#3 0#6 (lo6 a) 1#6) = _
  rw [decodeSlot_sys]
  simp only [decodeSys, Ext.rd, Ext.ra, Ext.rb, hi_append_lo6, extract_hi, extract_lo]
  exact rowIf_ok _ _ _ _ (.inr rfl) (.inl rfl) (.inr rfl) (.inr rfl) rfl hw
theorem eret (g) : Statement (.eret g) := by
  intro _ hw
  show decodeSlot {} (mkWord 13#4 g 3#3 0#6 0#6 2#6) = _
  rw [decodeSlot_sys]
  simp only [decodeSys, Ext.rd, Ext.ra, Ext.rb, hi_append_lo6, extract_hi, extract_lo]
  exact rowIf_ok _ _ _ _ (.inr rfl) (.inr rfl) (.inr rfl) (.inr rfl) rfl hw
theorem wfe (g) : Statement (.wfe g) := by
  intro _ hw
  show decodeSlot {} (mkWord 13#4 g 3#3 0#6 0#6 3#6) = _
  rw [decodeSlot_sys]
  simp only [decodeSys, Ext.rd, Ext.ra, Ext.rb, hi_append_lo6, extract_hi, extract_lo]
  exact rowIf_ok _ _ _ _ (.inr rfl) (.inr rfl) (.inr rfl) (.inr rfl) rfl hw
theorem evsig (g a) : Statement (.evsig g a) := by
  intro _ hw
  show decodeSlot { ah := hi a } (mkWord 13#4 g 3#3 0#6 (lo6 a) 4#6) = _
  rw [decodeSlot_sys]
  simp only [decodeSys, Ext.rd, Ext.ra, Ext.rb, hi_append_lo6, extract_hi, extract_lo]
  exact rowIf_ok _ _ _ _ (.inr rfl) (.inl rfl) (.inr rfl) (.inr rfl) rfl hw
theorem tlbinv (g a) : Statement (.tlbinv g a) := by
  intro _ hw
  show decodeSlot { ah := hi a } (mkWord 13#4 g 3#3 0#6 (lo6 a) 5#6) = _
  rw [decodeSlot_sys]
  simp only [decodeSys, Ext.rd, Ext.ra, Ext.rb, hi_append_lo6, extract_hi, extract_lo]
  exact rowIf_ok _ _ _ _ (.inr rfl) (.inl rfl) (.inr rfl) (.inr rfl) rfl hw
theorem own (g a) : Statement (.own g a) := by
  intro _ hw
  show decodeSlot { ah := hi a } (mkWord 13#4 g 4#3 0#6 (lo6 a) 0#6) = _
  rw [decodeSlot_sys]
  simp only [decodeSys, Ext.rd, Ext.ra, Ext.rb, hi_append_lo6, extract_hi, extract_lo]
  exact rowIf_ok _ _ _ _ (.inr rfl) (.inl rfl) (.inr rfl) (.inr rfl) rfl hw
theorem ctxsv (g a) : Statement (.ctxsv g a) := by
  intro _ hw
  show decodeSlot { ah := hi a } (mkWord 13#4 g 5#3 0#6 (lo6 a) 0#6) = _
  rw [decodeSlot_sys]
  simp only [decodeSys, Ext.rd, Ext.ra, Ext.rb, hi_append_lo6, extract_hi, extract_lo]
  exact rowIf_ok _ _ _ _ (.inr rfl) (.inl rfl) (.inr rfl) (.inr rfl) rfl hw
theorem ctxld (g a) : Statement (.ctxld g a) := by
  intro _ hw
  show decodeSlot { ah := hi a } (mkWord 13#4 g 6#3 0#6 (lo6 a) 0#6) = _
  rw [decodeSlot_sys]
  simp only [decodeSys, Ext.rd, Ext.ra, Ext.rb, hi_append_lo6, extract_hi, extract_lo]
  exact rowIf_ok _ _ _ _ (.inr rfl) (.inl rfl) (.inr rfl) (.inr rfl) rfl hw
theorem emptyBundle (e y m w x) : Statement (.emptyBundle e y m w x) := fun h => (Bool.false_ne_true h).elim
theorem taskYield (core ctx) : Statement (.taskYield core ctx) := fun h => (Bool.false_ne_true h).elim
theorem coreCycle (core) : Statement (.coreCycle core) := fun h => (Bool.false_ne_true h).elim
theorem gbarBatchAdmit (gen) : Statement (.gbarBatchAdmit gen) := fun h => (Bool.false_ne_true h).elim
theorem loadReturn (core id uncorrectable) : Statement (.loadReturn core id uncorrectable) := fun h => (Bool.false_ne_true h).elim
theorem homeWrite (core id) : Statement (.homeWrite core id) := fun h => (Bool.false_ne_true h).elim
theorem homeRead (core id) : Statement (.homeRead core id) := fun h => (Bool.false_ne_true h).elim
theorem invalidationAck (msg) : Statement (.invalidationAck msg) := fun h => (Bool.false_ne_true h).elim
theorem castArrive (msg) : Statement (.castArrive msg) := fun h => (Bool.false_ne_true h).elim
theorem invalidationArrive (msg) : Statement (.invalidationArrive msg) := fun h => (Bool.false_ne_true h).elim
theorem castInstalledReply (msg) : Statement (.castInstalledReply msg) := fun h => (Bool.false_ne_true h).elim
theorem castRefusedReply (msg) : Statement (.castRefusedReply msg) := fun h => (Bool.false_ne_true h).elim
theorem evictionReport (msg) : Statement (.evictionReport msg) := fun h => (Bool.false_ne_true h).elim
theorem stcCompletion (msg) : Statement (.stcCompletion msg) := fun h => (Bool.false_ne_true h).elim
theorem gaugeRateWindow (core) : Statement (.gaugeRateWindow core) := fun h => (Bool.false_ne_true h).elim
theorem copyPieceLand (core op len uncorrectable) : Statement (.copyPieceLand core op len uncorrectable) := fun h => (Bool.false_ne_true h).elim
theorem copySuspend (core op) : Statement (.copySuspend core op) := fun h => (Bool.false_ne_true h).elim
theorem gatherFetchIssue (core op) : Statement (.gatherFetchIssue core op) := fun h => (Bool.false_ne_true h).elim
theorem gatherElementReturn (core op i uncorrectable) : Statement (.gatherElementReturn core op i uncorrectable) := fun h => (Bool.false_ne_true h).elim
theorem mxshapeExecute (core) : Statement (.mxshapeExecute core) := fun h => (Bool.false_ne_true h).elim
theorem mxldwComplete (core uncorrectable) : Statement (.mxldwComplete core uncorrectable) := fun h => (Bool.false_ne_true h).elim
theorem tileTaskStart (core) : Statement (.tileTaskStart core) := fun h => (Bool.false_ne_true h).elim
theorem tileTaskComplete (core uncorrectable) : Statement (.tileTaskComplete core uncorrectable) := fun h => (Bool.false_ne_true h).elim
theorem cbloadComplete (core id) : Statement (.cbloadComplete core id) := fun h => (Bool.false_ne_true h).elim
theorem rayQueryComplete (core op uncorrectable) : Statement (.rayQueryComplete core op uncorrectable) := fun h => (Bool.false_ne_true h).elim
theorem ovlpQueryComplete (core op uncorrectable) : Statement (.ovlpQueryComplete core op uncorrectable) := fun h => (Bool.false_ne_true h).elim
theorem refitNode (core op uncorrectable) : Statement (.refitNode core op uncorrectable) := fun h => (Bool.false_ne_true h).elim
theorem drawQuadPush (die op tile uncorrectable) : Statement (.drawQuadPush die op tile uncorrectable) := fun h => (Bool.false_ne_true h).elim
theorem drawComplete (die op) : Statement (.drawComplete die op) := fun h => (Bool.false_ne_true h).elim
theorem dispatchStep (die) : Statement (.dispatchStep die) := fun h => (Bool.false_ne_true h).elim
theorem launchAccept (die) : Statement (.launchAccept die) := fun h => (Bool.false_ne_true h).elim
theorem readyListAgeing (die) : Statement (.readyListAgeing die) := fun h => (Bool.false_ne_true h).elim
theorem spill (core ctx) : Statement (.spill core ctx) := fun h => (Bool.false_ne_true h).elim
theorem spillComplete (core ctx) : Statement (.spillComplete core ctx) := fun h => (Bool.false_ne_true h).elim
theorem launchComplete (slot) : Statement (.launchComplete slot) := fun h => (Bool.false_ne_true h).elim
theorem dispatcherAccessFault (die id) : Statement (.dispatcherAccessFault die id) := fun h => (Bool.false_ne_true h).elim
theorem trapDelivery (core ctx) : Statement (.trapDelivery core ctx) := fun h => (Bool.false_ne_true h).elim
theorem watchdogExpiry (core ctx) : Statement (.watchdogExpiry core ctx) := fun h => (Bool.false_ne_true h).elim
theorem pageFaultService (id) : Statement (.pageFaultService id) := fun h => (Bool.false_ne_true h).elim
theorem pageFaultServiceDone (id) : Statement (.pageFaultServiceDone id) := fun h => (Bool.false_ne_true h).elim
theorem faultRingAppend (id) : Statement (.faultRingAppend id) := fun h => (Bool.false_ne_true h).elim
theorem pfrespRetry (seq) : Statement (.pfrespRetry seq) := fun h => (Bool.false_ne_true h).elim
theorem pfrespFail (seq) : Statement (.pfrespFail seq) := fun h => (Bool.false_ne_true h).elim
theorem pkillGo (mask) : Statement (.pkillGo mask) := fun h => (Bool.false_ne_true h).elim
theorem partitionKillDone (p) : Statement (.partitionKillDone p) := fun h => (Bool.false_ne_true h).elim
theorem tokenRefill : Statement (.tokenRefill) := fun h => (Bool.false_ne_true h).elim
theorem throttleQuarter : Statement (.throttleQuarter) := fun h => (Bool.false_ne_true h).elim
theorem qosregWrite (n dw v) : Statement (.qosregWrite n dw v) := fun h => (Bool.false_ne_true h).elim
theorem headurgWrite (h v) : Statement (.headurgWrite h v) := fun h => (Bool.false_ne_true h).elim
theorem plcmapWrite (i v) : Statement (.plcmapWrite i v) := fun h => (Bool.false_ne_true h).elim
theorem plcmapScrubDone (pair) : Statement (.plcmapScrubDone pair) := fun h => (Bool.false_ne_true h).elim
theorem clprofWrite (n v) : Statement (.clprofWrite n v) := fun h => (Bool.false_ne_true h).elim
theorem lendingTableWrite (n dw v) : Statement (.lendingTableWrite n dw v) := fun h => (Bool.false_ne_true h).elim
theorem lendStep : Statement (.lendStep) := fun h => (Bool.false_ne_true h).elim
theorem arrayEnergyPeriod (core) : Statement (.arrayEnergyPeriod core) := fun h => (Bool.false_ne_true h).elim
theorem lenderWake (cluster) : Statement (.lenderWake cluster) := fun h => (Bool.false_ne_true h).elim
theorem lendRecallDone (cluster) : Statement (.lendRecallDone cluster) := fun h => (Bool.false_ne_true h).elim
theorem hlqTailWrite (p v) : Statement (.hlqTailWrite p v) := fun h => (Bool.false_ne_true h).elim
theorem owncmdGo (v) : Statement (.owncmdGo v) := fun h => (Bool.false_ne_true h).elim
theorem transferComplete (region) : Statement (.transferComplete region) := fun h => (Bool.false_ne_true h).elim
theorem hostRequest (agent line r) : Statement (.hostRequest agent line r) := fun h => (Bool.false_ne_true h).elim
theorem hostRecallReply (agent line data) : Statement (.hostRecallReply agent line data) := fun h => (Bool.false_ne_true h).elim
theorem ownerLostTimeout (line) : Statement (.ownerLostTimeout line) := fun h => (Bool.false_ne_true h).elim
theorem reclaimGo (v) : Statement (.reclaimGo v) := fun h => (Bool.false_ne_true h).elim
theorem migStart (k) : Statement (.migStart k) := fun h => (Bool.false_ne_true h).elim
theorem migCopyDone (k) : Statement (.migCopyDone k) := fun h => (Bool.false_ne_true h).elim
theorem migSwitch (k) : Statement (.migSwitch k) := fun h => (Bool.false_ne_true h).elim
theorem migRelease (k) : Statement (.migRelease k) := fun h => (Bool.false_ne_true h).elim
theorem pctlEnWrite (p v) : Statement (.pctlEnWrite p v) := fun h => (Bool.false_ne_true h).elim
theorem keynew (p) : Statement (.keynew p) := fun h => (Bool.false_ne_true h).elim
theorem keynewDone (p) : Statement (.keynewDone p) := fun h => (Bool.false_ne_true h).elim
theorem prootWrite (v) : Statement (.prootWrite v) := fun h => (Bool.false_ne_true h).elim
theorem modeWrite : Statement (.modeWrite) := fun h => (Bool.false_ne_true h).elim
theorem savebaseWrite (v) : Statement (.savebaseWrite v) := fun h => (Bool.false_ne_true h).elim
theorem fwctlSwitchRequest (v) : Statement (.fwctlSwitchRequest v) := fun h => (Bool.false_ne_true h).elim
theorem fwSwitchComplete : Statement (.fwSwitchComplete) := fun h => (Bool.false_ne_true h).elim
theorem svcStorageWrite (die n lane) : Statement (.svcStorageWrite die n lane) := fun h => (Bool.false_ne_true h).elim
theorem svcStorageRead (die n lane) : Statement (.svcStorageRead die n lane) := fun h => (Bool.false_ne_true h).elim
theorem svcFlush (die n lane) : Statement (.svcFlush die n lane) := fun h => (Bool.false_ne_true h).elim
theorem svcAttestationReport (die n lane) : Statement (.svcAttestationReport die n lane) := fun h => (Bool.false_ne_true h).elim
theorem svcrespWrite (die v) : Statement (.svcrespWrite die v) := fun h => (Bool.false_ne_true h).elim
theorem mextgoWrite (die v) : Statement (.mextgoWrite die v) := fun h => (Bool.false_ne_true h).elim
theorem coldReset : Statement (.coldReset) := fun h => (Bool.false_ne_true h).elim
theorem powerFail : Statement (.powerFail) := fun h => (Bool.false_ne_true h).elim
theorem ucieModuleTrainFail (y) : Statement (.ucieModuleTrainFail y) := fun h => (Bool.false_ne_true h).elim
theorem registerWrite (off v) : Statement (.registerWrite off v) := fun h => (Bool.false_ne_true h).elim
theorem scanOutLine (head bytes refill) : Statement (.scanOutLine head bytes refill) := fun h => (Bool.false_ne_true h).elim
theorem reclaimDone : Statement (.reclaimDone) := fun h => (Bool.false_ne_true h).elim
theorem firmwareSlotLoad (slot image) : Statement (.firmwareSlotLoad slot image) := fun h => (Bool.false_ne_true h).elim
theorem tlbInvalidationDone (core ctx) : Statement (.tlbInvalidationDone core ctx) := fun h => (Bool.false_ne_true h).elim

end Sys2Proof.Laws.SlotWord
end

