-- ==== Sys2Proof/Laws/Requests.lean ====
section
/-! SUPPORT. What paying for the requests of a step can do to the state (15 R285, R286): nothing but to the regulators, the places of
the slices, and what the paying agent waited for. -/

namespace Sys2Proof.Machine

/-- Nothing but what requests move: numbers, the slices' places, what waits at regions, walks, the regulators. -/
def OnlyRequests (s t : State) : Prop :=
  ∃ fresh sc devWaits walks power,
    t = { s with fresh, homes := { s.homes with sc, devWaits }, sched := { s.sched with walks }, power }

theorem OnlyRequests.refl (s : State) : OnlyRequests s s := ⟨_, _, _, _, _, rfl⟩
theorem OnlyRequests.trans {s t u : State} (h : OnlyRequests s t) (g : OnlyRequests t u) : OnlyRequests s u := by
  obtain ⟨_, _, _, _, _, rfl⟩ := h
  obtain ⟨_, _, _, _, _, rfl⟩ := g
  exact ⟨_, _, _, _, _, rfl⟩
theorem OnlyRequests.mem {s t : State} (h : OnlyRequests s t) : t.mem = s.mem := by
  obtain ⟨_, _, _, _, _, rfl⟩ := h
  rfl
theorem OnlyRequests.cores {s t : State} (h : OnlyRequests s t) : t.cores = s.cores := by
  obtain ⟨_, _, _, _, _, rfl⟩ := h
  rfl
theorem OnlyRequests.cur {s t : State} (h : OnlyRequests s t) : t.cur = s.cur := by
  obtain ⟨_, _, _, _, _, rfl⟩ := h
  rfl

theorem OnlyRequests.request (s : State) (n pa : Nat) : OnlyRequests s (s.request n pa) := ⟨_, _, _, _, _, rfl⟩
theorem OnlyRequests.unqueue (s : State) (a : Agent) : OnlyRequests s (s.unqueue a) := ⟨_, _, _, _, _, rfl⟩
theorem OnlyRequests.setPaid (s : State) (a : Agent) (k : Nat) : OnlyRequests s (s.setPaid a k) := ⟨_, _, _, _, _, rfl⟩
theorem OnlyRequests.ask (s : State) (n pa : Nat) : OnlyRequests s (s.ask n pa) := ⟨_, _, _, _, _, rfl⟩
theorem OnlyRequests.forget (s : State) (a : Agent) : OnlyRequests s (s.forget a) := ⟨_, _, _, _, _, rfl⟩
theorem OnlyRequests.enqueue (s : State) (a : Agent) (n : Nat) : OnlyRequests s (s.enqueue a n) := by
  unfold State.enqueue
  split
  · exact .refl s
  · exact ⟨_, _, _, _, _, rfl⟩
theorem OnlyRequests.regulate (s : State) (a : Agent) (n pa : Nat) : OnlyRequests s (s.regulate a n pa).2 := by
  unfold State.regulate
  split
  · exact (OnlyRequests.unqueue s a).trans (.request _ n pa)
  · exact .enqueue s a n
theorem OnlyRequests.regulateAll (a : Agent) (l : List (Nat × Nat)) (s : State) : OnlyRequests s (s.regulateAll a l).2 := by
  induction l generalizing s with
  | nil => exact .refl s
  | cons r l ih =>
    have h := OnlyRequests.regulate s a r.1 r.2
    unfold State.regulateAll
    split
    · next u hu => rw [hu] at h; exact h.trans (ih u)
    · next u hu => rw [hu] at h; exact h
theorem OnlyRequests.pay (s : State) (a : Agent) (l : List (Nat × Nat)) : OnlyRequests s (s.pay a l).2 := by
  have h := OnlyRequests.regulateAll a (l.drop (s.paidBy a)) s
  simp only [State.pay]
  split <;> exact h.trans (.setPaid _ a _)
/-- Settling a step's requests moves nothing else, whether the step then takes place or is held. -/
theorem State.settle_only (s : State) (a : Agent) : OnlyRequests s (s.settle a).2 := by
  have h := OnlyRequests.pay s a s.power.asks
  unfold State.settle
  split
  · next u hu => rw [hu] at h; exact h.trans (.forget u a)
  · exact h

/-- A step that makes no request takes place. -/
theorem State.settle_none (s : State) (a : Agent) (h : s.power.asks = []) : (s.settle a).1 = true := by
  simp [State.settle, State.pay, h, State.regulateAll]

end Sys2Proof.Machine
end

