-- ==== Sys2Proof/Tests/Slice0.lean ====
section
/-! SUPPORT. Small tests: ill-formed terms refused, words decoded, results calculated by hand from the manual's rules, and for
each statement of Obligations.lean a state and operands that meet its hypotheses. -/

namespace Sys2Proof.Tests

set_option Elab.async false

open Sys2Proof.Machine

/-! ### Well-formedness: one ill-formed term for each check -/

theorem test_wf_compare_code : Instr.wf (.icmp 63#6 1#7 2#7 3#2 0#4) = false := by decide
theorem test_wf_compare_wide_code : Instr.wf (.icmpD 63#6 2#7 4#7 3#2 0#4) = false := by decide
theorem test_wf_predicate_block : Instr.wf (.p2g 63#6 1#7 2#6) = false ∧ Instr.wf (.g2p 63#6 2#6 1#7) = false := by decide
theorem test_wf_convert_same : Instr.wf (.cvt 63#6 0#2 1#7 2#7 1#3 1#3) = false := by decide
theorem test_wf_access_size : Instr.wf (.ldg 63#6 0#7 2#7 5#3 none) = false ∧ Instr.wf (.lds 63#6 0#7 2#7 5#3 none) = false ∧
    Instr.wf (.stg 63#6 0#7 2#7 5#3 none) = false ∧ Instr.wf (.sts 63#6 0#7 2#7 5#3 none) = false := by decide
theorem test_wf_counter : Instr.wf (.waitc 63#6 5#6 0#6) = false := by decide
theorem test_wf_codebook_slot : Instr.wf (.cbload 63#6 8#6 1#7) = false := by decide
theorem test_wf_special_register : Instr.wf (.movsr 63#6 1#7 15#6) = false := by decide
theorem test_wf_csr : Instr.wf (.csrr 63#6 2#7 0x805#12) = false ∧ Instr.wf (.csrw 63#6 2#7 0x805#12) = false := by decide
theorem test_wf_empty_rest : Instr.wf (.emptyBundle 0#4 0#1 0#1 0#4 1#14) = false := by decide
theorem test_legal_executor : Instr.legalFor .lead 64 (.fadd 63#6 1#7 2#7 3#7) = false ∧
    Instr.legalFor .thread 128 (.wave 63#6 1#7 2#7 4#7) = false := by decide
theorem test_legal_guard : Instr.legalFor .thread 128 (.nop 48#6) = false ∧ Instr.legalFor .lead 64 (.nop 16#6) = false := by decide
theorem test_legal_source : Instr.legalFor .thread 32 (.iadd 63#6 1#7 32#7 3#7) = false := by decide
theorem test_legal_destination : Instr.legalFor .thread 32 (.iadd 63#6 32#7 1#7 3#7) = false := by decide
theorem test_legal_pair : Instr.legalFor .thread 32 (.dadd 63#6 1#7 2#7 4#7) = false := by decide
theorem test_legal_predicate : Instr.legalFor .lead 64 (.isel 63#6 1#7 2#7 16#6) = false := by decide
theorem test_legal_listed : Instr.legalFor .lead 64 (.movsr 63#6 1#7 7#6) = false := by decide
theorem test_legal_block : Instr.legalFor .lead 64 (.p2g 63#6 1#7 1#6) = false := by decide
theorem test_legal_cas : Instr.legalFor .lead 64 (.cas 63#6 1#7 2#7 0#2 0#2 0#1 none) = false := by decide
/-- The name under which a check refuses. -/
def refusedBy {α : Type} (r : Except DecodeError α) : Option DecodeError :=
  match r with
  | .ok _ => none
  | .error e => some e

theorem test_bundle_overlap :
    refusedBy (Bundle.check .thread 32 { words := 2, empties := 0, yield := false, marker := false, weight := 0
                                         a := some (.movi 63#6 7#7 (.short 1#12)), b := some (.ldg 63#6 7#7 2#7 2#3 none), c := none }) =
      some .overlap := by decide

/-! ### Decoding -/

/-- Each word decodes to the instruction beside it. -/
def decodesAll (rows : List (Nat × Instr)) : Bool := rows.all fun r => decodeTableWord 32 r.1 == some r.2

/-- R52: words of the rows of spec/opcode_table.json, put together from their fixed bits and fields by hand. -/
theorem test_decode_int : decodesAll [
    (0x8CA2A573, .iadd 37#6 42#7 21#7 51#7),
    (0x8CA6A573, .isub 37#6 42#7 21#7 51#7),
    (0x8CAAA573, .imul 37#6 42#7 21#7 51#7),
    (0x8CAEA573, .imad 37#6 42#7 21#7 51#7),
    (0x8CB2A56B, .icmp 37#6 42#7 21#7 2#2 11#4),
    (0x8CB6A56B, .icmpD 37#6 42#7 21#7 2#2 11#4),
    (0x8CBAA540, .iand 37#6 42#7 21#7),
    (0x8CBAA541, .ior 37#6 42#7 21#7),
    (0x8CBAA542, .ixor 37#6 42#7 21#7),
    (0x8CBAA543, .ishl 37#6 42#7 21#7),
    (0x8CBAA544, .ishr 37#6 42#7 21#7),
    (0x8CBAA545, .isra 37#6 42#7 21#7),
    (0x8CBAA546, .imin 37#6 42#7 21#7),
    (0x8CBAA547, .imax 37#6 42#7 21#7),
    (0x8CBAA548, .iminu 37#6 42#7 21#7),
    (0x8CBAA549, .imaxu 37#6 42#7 21#7),
    (0x8CBAA54A, .imulh 37#6 42#7 21#7),
    (0x8CBAA54B, .imulhu 37#6 42#7 21#7),
    (0x8CBAA54C, .iabs 37#6 42#7 21#7),
    (0x8CBAA54D, .popc 37#6 42#7 21#7),
    (0x8CBAA54E, .clz 37#6 42#7 21#7),
    (0x8CBAA54F, .brev 37#6 42#7 21#7),
    (0x8CBAA550, .bfe 37#6 42#7 21#7),
    (0x8CBAA551, .bfi 37#6 42#7 21#7),
    (0x8CBAA55D, .lea 37#6 42#7 21#7 5#3),
    (0x8CBEA545, .plop 37#6 42#6 21#6 5#4),
    (0x8CBEA550, .pset 37#6 42#6 21#7),
    (0x8CBEA051, .p2g 37#6 42#7 1#6),
    (0x8CBC1552, .g2p 37#6 1#6 21#7),
    (0x8CBEA560, .iaddD 37#6 42#7 21#7)] = true := by decide +kernel

/-- R53: words of the rows of spec/opcode_table.json, put together from their fixed bits and fields by hand. -/
theorem test_decode_inti : decodesAll [
    (0x94A2A575, .iaddImm 37#6 42#7 21#7 (.short 53#6)),
    (0x94A6A575, .ishlImm 37#6 42#7 21#7 (.short 53#6)),
    (0x94AAA575, .ishrImm 37#6 42#7 21#7 (.short 53#6)),
    (0x94AEA575, .israImm 37#6 42#7 21#7 (.short 53#6)),
    (0x94B2A575, .iandImm 37#6 42#7 21#7 (.short 53#6)),
    (0x94B6A575, .isel 37#6 42#7 21#7 53#6),
    (0x94BAAEB5, .movi 37#6 42#7 (.short 3765#12)),
    (0x94BEAEB5, .movh 37#6 42#7 3765#12)] = true := by decide +kernel

/-- R54: words of the rows of spec/opcode_table.json, put together from their fixed bits and fields by hand. -/
theorem test_decode_fp32 : decodesAll [
    (0x9CA2A573, .fadd 37#6 42#7 21#7 51#7),
    (0x9CA6A573, .fsub 37#6 42#7 21#7 51#7),
    (0x9CAAA573, .fmul 37#6 42#7 21#7 51#7),
    (0x9CAEA573, .ffma 37#6 42#7 21#7 51#7),
    (0x9CB2A573, .ffms 37#6 42#7 21#7 51#7),
    (0x9CB6A573, .pkfmaF16 37#6 42#7 21#7 51#7),
    (0x9CBAA573, .pkfmaBf16 37#6 42#7 21#7 51#7),
    (0x9CBEA540, .fmin 37#6 42#7 21#7),
    (0x9CBEA541, .fmax 37#6 42#7 21#7),
    (0x9CBEA542, .pkaddF16 37#6 42#7 21#7),
    (0x9CBEA543, .pkaddBf16 37#6 42#7 21#7),
    (0x9CBEA546, .frnd 37#6 42#7 21#7 2#2),
    (0x9CBEA548, .fclass 37#6 42#7 21#7),
    (0x9CBEA552, .faddRm 37#6 42#7 21#7 2#2),
    (0x9CBEA556, .fsubRm 37#6 42#7 21#7 2#2),
    (0x9CBEA55A, .fmulRm 37#6 42#7 21#7 2#2)] = true := by decide +kernel

/-- R55: words of the rows of spec/opcode_table.json, put together from their fixed bits and fields by hand. -/
theorem test_decode_fp64 : decodesAll [
    (0xA4A2A573, .dadd 37#6 42#7 21#7 51#7),
    (0xA4A6A573, .dmul 37#6 42#7 21#7 51#7),
    (0xA4AAA573, .dfma 37#6 42#7 21#7 51#7),
    (0xA4AEA573, .ddiv 37#6 42#7 21#7 51#7),
    (0xA4B2A573, .fdiv 37#6 42#7 21#7 51#7),
    (0xA4B6A56B, .dcmp 37#6 42#7 21#7 2#2 11#4),
    (0xA4BAA540, .dmin 37#6 42#7 21#7),
    (0xA4BAA541, .dmax 37#6 42#7 21#7),
    (0xA4BAA546, .daddRm 37#6 42#7 21#7 2#2),
    (0xA4BAA54A, .dmulRm 37#6 42#7 21#7 2#2),
    (0xA4BAA552, .dsqrt 37#6 42#7 21#7 2#2),
    (0xA4BAA556, .fsqrt 37#6 42#7 21#7 2#2)] = true := by decide +kernel

/-- R56: words of the rows of spec/opcode_table.json, put together from their fixed bits and fields by hand. -/
theorem test_decode_special : decodesAll [
    (0xF4A2A540, .fexp2 37#6 42#7 21#7),
    (0xF4A2A541, .flog2 37#6 42#7 21#7),
    (0xF4A2A542, .fsin 37#6 42#7 21#7),
    (0xF4A2A543, .fcos 37#6 42#7 21#7),
    (0xF4A2A544, .frcp 37#6 42#7 21#7),
    (0xF4A2A545, .frsq 37#6 42#7 21#7),
    (0xF4A6A56B, .fcmp 37#6 42#7 21#7 2#2 11#4),
    (0xF4A80568, .qmax 37#6 21#7 5#3),
    (0xF4AEA540, .qcvtI8 37#6 42#7 21#7),
    (0xF4AEA541, .qcvtCb4 37#6 42#7 21#7),
    (0xF4AEA550, .dqI8 37#6 42#7 21#7),
    (0xF4AEA551, .dqCb4 37#6 42#7 21#7),
    (0xF4AEA560, .cbsel 37#6 42#7 21#7),
    (0xF4BAA561, .cvt 37#6 2#2 42#7 21#7 4#3 1#3)] = true := by decide +kernel

/-- R59: words of the rows of spec/opcode_table.json, put together from their fixed bits and fields by hand. -/
theorem test_decode_lane : decodesAll [
    (0xACA2A568, .shflIdx 37#6 42#7 21#7 5#3),
    (0xACA2A569, .shflUp 37#6 42#7 21#7 5#3),
    (0xACA2A56A, .shflDown 37#6 42#7 21#7 5#3),
    (0xACA2A56B, .shflXor 37#6 42#7 21#7 5#3),
    (0xACA6A568, .voteAny 37#6 42#6 21#6 5#3),
    (0xACA6A569, .voteAll 37#6 42#6 21#6 5#3),
    (0xACA6A56A, .voteBallot 37#6 42#7 21#6 5#3),
    (0xACAAA568, .matchLanes 37#6 42#7 21#7 5#3),
    (0xACAEA568, .scanAdd 37#6 42#7 21#7 5#3),
    (0xACAEA569, .scanAddEx 37#6 42#7 21#7 5#3),
    (0xACB2A568, .redAdd 37#6 42#7 21#7 5#3),
    (0xACB2A569, .redMin 37#6 42#7 21#7 5#3),
    (0xACB2A56A, .redMax 37#6 42#7 21#7 5#3),
    (0xACB6A568, .fredAdd 37#6 42#7 21#7 5#3),
    (0xACB80568, .jset 37#6 21#7 5#3),
    (0xACB80029, .jsetGrp 37#6 5#3),
    (0xACBC0028, .join 37#6 5#3)] = true := by decide +kernel

/-- R60: words of the rows of spec/opcode_table.json, put together from their fixed bits and fields by hand. -/
theorem test_decode_mem : decodesAll [
    (0xB4A2A558, .ldg 37#6 42#7 21#7 3#3 none),
    (0xB4A6A558, .lds 37#6 42#7 21#7 3#3 none),
    (0xB4AAA55A, .lda 37#6 42#7 21#7 1#1 2#2 none),
    (0xB4AC0541, .pref 37#6 21#7 1#1 none),
    (0xB4B00542, .cinv 37#6 21#7 2#2 none),
    (0xB4B40540, .cpin 37#6 21#7 none),
    (0xB4B80540, .cunpin 37#6 21#7 none),
    (0xBCA2A558, .stg 37#6 42#7 21#7 3#3 none),
    (0xBCA6A558, .sts 37#6 42#7 21#7 3#3 none),
    (0xBCAAA55A, .stgRel 37#6 42#7 21#7 1#1 2#2 none),
    (0xBCAEA540, .stc 37#6 42#7 21#7)] = true := by decide +kernel

/-- R61: words of the rows of spec/opcode_table.json, put together from their fixed bits and fields by hand. -/
theorem test_decode_atom : decodesAll [
    (0xC4A2A56A, .atomAdd 37#6 42#7 21#7 2#2 2#2 1#1 none),
    (0xC4A6A56A, .atomMin 37#6 42#7 21#7 2#2 2#2 1#1 none),
    (0xC4A6A56B, .atomMax 37#6 42#7 21#7 2#2 2#2 1#1 none),
    (0xC4AAA56A, .atomAnd 37#6 42#7 21#7 2#2 2#2 1#1 none),
    (0xC4AEA56A, .atomOr 37#6 42#7 21#7 2#2 2#2 1#1 none),
    (0xC4B2A56A, .atomXor 37#6 42#7 21#7 2#2 2#2 1#1 none),
    (0xC4B6A56A, .xchg 37#6 42#7 21#7 2#2 2#2 1#1 none),
    (0xC4B6A56B, .cas 37#6 42#7 21#7 2#2 2#2 1#1 none),
    (0xC4BAA568, .xadd 37#6 42#7 21#7 2#2 2#2 none),
    (0xC4BAA569, .xrd 37#6 42#7 21#7 2#2 2#2 none),
    (0xC4BAA56A, .xrd64 37#6 42#7 21#7 2#2 2#2 none),
    (0xC4BAA56B, .xclr 37#6 42#7 21#7 2#2 2#2 none),
    (0xC4BEA542, .atomsAdd 37#6 42#7 21#7 1#1 none),
    (0xC4BEA546, .atomsMin 37#6 42#7 21#7 1#1 none),
    (0xC4BEA54A, .atomsMax 37#6 42#7 21#7 1#1 none),
    (0xC4BEA54E, .atomsAnd 37#6 42#7 21#7 1#1 none),
    (0xC4BEA552, .atomsOr 37#6 42#7 21#7 1#1 none),
    (0xC4BEA556, .atomsXor 37#6 42#7 21#7 1#1 none),
    (0xC4BEA55A, .atomsXchg 37#6 42#7 21#7 1#1 none),
    (0xC4BEA55E, .atomsCas 37#6 42#7 21#7 1#1 none)] = true := by decide +kernel

/-- R62: words of the rows of spec/opcode_table.json, put together from their fixed bits and fields by hand. -/
theorem test_decode_sync : decodesAll [
    (0xCCA00008, .fenceAcq 37#6 2#2),
    (0xCCA00018, .fenceRel 37#6 2#2),
    (0xCCA00028, .fenceAr 37#6 2#2),
    (0xCCA40000, .drain 37#6),
    (0xCCA83035, .waitc 37#6 3#6 53#6),
    (0xCCAC0000, .bar 37#6),
    (0xCCB00540, .gbara 37#6 21#7),
    (0xCCB00541, .gbarw 37#6 21#7),
    (0xCCB6A540, .awinit 37#6 42#7 21#7),
    (0xCCBAA540, .awadd 37#6 42#7 21#7),
    (0xCCBEA040, .awwait 37#6 42#7 1#1),
    (0xCCBCB541, .awtest 37#6 11#6 21#7)] = true := by decide +kernel

/-- R63: words of the rows of spec/opcode_table.json, put together from their fixed bits and fields by hand. -/
theorem test_decode_branch : decodesAll [
    (0xD4A2CEB5, .bra 37#6 (.short 183989#18)),
    (0xD4A6CEB5, .call 37#6 (.short 183989#18)),
    (0xD4A80540, .brx 37#6 21#7),
    (0xD4A80541, .callx 37#6 21#7),
    (0xD4AC0000, .ret 37#6),
    (0xD4AC0001, .exit 37#6),
    (0xD4AC0002, .nop 37#6),
    (0xD4AC0003, .endl 37#6),
    (0xD4AC0004, .brk 37#6),
    (0xD4B15EB5, .loopLc0 37#6 21#7 (.short 3765#12)),
    (0xD4B55EB5, .loopLc1 37#6 21#7 (.short 3765#12)),
    (0xD4B95AB5, .loopp 37#6 21#7 2#2 693#10),
    (0xD4BD5EB5, .item 37#6 21#7 (.short 3765#12))] = true := by decide +kernel

/-- R64: words of the rows of spec/opcode_table.json, put together from their fixed bits and fields by hand. -/
theorem test_decode_engine : decodesAll [
    (0xDCA00540, .cpy 37#6 21#7),
    (0xDCA00541, .cpyTag 37#6 21#7),
    (0xDCA6A540, .cpys 37#6 42#7 21#7),
    (0xDCA80550, .gath 37#6 21#7 2#2),
    (0xDCAC0540, .mxcfg 37#6 21#7),
    (0xDCAC0548, .mxshape 37#6 21#7),
    (0xDCAC0550, .mxldw 37#6 21#7),
    (0xDCAC0558, .mxq 37#6 21#7),
    (0xDCAC0020, .mxdrain 37#6),
    (0xDCAC5568, .cbload 37#6 5#6 21#7),
    (0xDCB00000, .ntake 37#6),
    (0xDCB00008, .npass 37#6),
    (0xDCB2A010, .ntest 37#6 42#7),
    (0xDCB40540, .ray 37#6 21#7),
    (0xDCB40541, .rayAny 37#6 21#7),
    (0xDCB40548, .ovlp 37#6 21#7),
    (0xDCB40550, .refit 37#6 21#7),
    (0xDCB80540, .draw 37#6 21#7),
    (0xDCB80541, .drawEz 37#6 21#7)] = true := by decide +kernel

/-- R65: words of the rows of spec/opcode_table.json, put together from their fixed bits and fields by hand. -/
theorem test_decode_task : decodesAll [
    (0xE4A00540, .tenq 37#6 21#7),
    (0xE4A40540, .tdec 37#6 21#7),
    (0xE4AAA540, .lnch 37#6 42#7 21#7),
    (0xE4AC0540, .iqpush 37#6 21#7),
    (0xE4B2A573, .wave 37#6 42#7 21#7 51#7),
    (0xE4B40000, .iqclose 37#6),
    (0xE4B40001, .wavew 37#6),
    (0xE4B40542, .setdl 37#6 21#7),
    (0xE4BAA540, .restag 37#6 42#7 21#7),
    (0xE4BAA541, .resq 37#6 42#7 21#7),
    (0xE4B80542, .resdrop 37#6 21#7)] = true := by decide +kernel

/-- R66: words of the rows of spec/opcode_table.json, put together from their fixed bits and fields by hand. -/
theorem test_decode_system : decodesAll [
    (0xECA2A009, .movsr 37#6 42#7 9#6),
    (0xECA6A802, .csrr 37#6 42#7 2050#12),
    (0xECAAA801, .csrw 37#6 42#7 2049#12),
    (0xECAEA540, .svc 37#6 42#7 21#7),
    (0xECAC0541, .trap 37#6 21#7),
    (0xECAC0002, .eret 37#6),
    (0xECAC0003, .wfe 37#6),
    (0xECAC0544, .evsig 37#6 21#7),
    (0xECAC0545, .tlbinv 37#6 21#7),
    (0xECB00540, .own 37#6 21#7),
    (0xECB40540, .ctxsv 37#6 21#7),
    (0xECB80540, .ctxld 37#6 21#7)] = true := by decide +kernel

/-- R31: words of the rows of spec/opcode_table.json, put together from their fixed bits and fields by hand. -/
theorem test_decode_empty : decodesAll [
    (0xF85D4000, .emptyBundle 5#4 1#1 1#1 5#4 0#14)] = true := by decide +kernel

/-- The bundle that words form, or none where they are refused. -/
def slotsOf (ex : Executor) (ws : List Word) : Option (List SlotPos × Nat) :=
  (decodeBundle ex ws).toOption.map fun b => (b.slots.map (·.1), b.words)
/-- The name under which words are refused. -/
def refusedAs (ex : Executor) (ws : List Word) : Option DecodeError := refusedBy (decodeBundle ex ws)

/-- R116: under a header that lends 0x12 to slot A, MOVH's word is the 20-bit form. -/
theorem test_decode_movh20 : ((decodeBundle .thread [0x7C001120#32, 0x97FC7345#32]).toOption.map Bundle.slots) =
    some [(.a, .movh20 63#6 7#7 0x12345#20)] := by decide +kernel
/-- R26, R49: major 0000 and a function code that no row has are refused by name. -/
theorem test_decode_refused : refusedAs .thread [0x80000000#32] = some .illegalMajor ∧
    refusedAs .thread [0x8FF8003F#32] = some .reservedCode := by decide +kernel
/-- R28: three words of majors 0001, 0110 and 0011 land in A, B and C; 0110 then 0001 in B and C. -/
theorem test_decode_slots : slotsOf .thread [0x0FE01083#32, 0x37E45190#32, 0x9FE87209#32] = some ([.a, .b, .c], 3) ∧
    slotsOf .thread [0x37E45190#32, 0x8FE01083#32] = some ([.b, .c], 2) := by decide +kernel
/-- R28: nothing remains after a word of major 0101; two ENG words land in B and C of lead code only; three words with S = 0
are no bundle. -/
theorem test_decode_no_slot : refusedAs .thread [0x2FE03100#32, 0x8FE01083#32] = some .noSlot ∧
    slotsOf .lead [0x5FE40040#32, 0xDFE40040#32] = some ([.b, .c], 2) ∧
    refusedAs .thread [0x5FE40040#32, 0xDFE40040#32] = some .noSlot ∧
    refusedAs .thread [0x0FE01083#32, 0x37E45190#32, 0x1FE87209#32] = some .stopBit := by decide +kernel
/-- R31: a header with P = 000 and S = 0 is refused; with S = 1 it stands for E + 1 empty bundles. -/
theorem test_decode_empty_run : refusedAs .thread [0x78300000#32] = some .stopBit ∧
    ((decodeBundle .thread [0xF8300000#32]).toOption.map fun b => (b.empties, b.words, b.isEmpty)) = some (4, 1, true) := by
  decide +kernel

/-! ### States: core 0 runs one context, its thread 0 or its lead strand; the bundle at 0x1000 is being issued -/

def leadWho : Who := { core := 0, ctx := 0 }
def threadWho : Who := { core := 0, ctx := 0, tid := some 0 }
def leadIssue : Issue := { pc := 0x1000#64, start := 100 }
def threadIssue : Issue := { pc := 0x1000#64, tids := [0], lead := false, start := 100 }
def leadState : State :=
  { State.reset with launches := [(0, some placeLaunch)], cores := [(0, placeCore true 0)], cur := some leadIssue }
def threadState : State :=
  { State.reset with launches := [(0, some placeLaunch)], cores := [(0, placeCore false 0)], cur := some threadIssue }
/-- The state with registers of an executor set. -/
def with_ (w : Who) (s : State) (rs : List (Nat × Nat)) : State :=
  rs.foldl (fun s r => s.setReg w (BitVec.ofNat 7 r.1) r.2) s
def thread_ (rs : List (Nat × Nat)) : State := with_ threadWho threadState rs
def lead_ (rs : List (Nat × Nat)) : State := with_ leadWho leadState rs

/-- What is seen of the state that an instruction answers. -/
def after {α : Type} (x : Instr) (s : State) (f : State → α) : Option α :=
  match exec x s with
  | .next t => some (f t)
  | _ => none
/-- g3 of thread 0, where g1 and g2 held a and b, and g3 and g4 held d and e. -/
def g3 (x : Instr) (a b : Nat) (d e : Nat := 0) : Option Nat :=
  after x (thread_ [(1, a), (2, b), (3, d), (4, e)]) fun t => t.reg threadWho 3#7
/-- s3 of the lead strand, likewise. -/
def s3 (x : Instr) (a b : Nat) (d : Nat := 0) : Option Nat :=
  after x (lead_ [(1, a), (2, b), (3, d)]) fun t => t.reg leadWho 3#7
/-- The pair g4 and g5 of thread 0, where the pairs at g0 and g2 held a and b, and that at g4 held d. -/
def pair4 (x : Instr) (a b : Nat) (d : Nat := 0) : Option Nat :=
  after x (((threadState.setReg64 threadWho 0#7 (BitVec.ofNat 64 a)).setReg64 threadWho 2#7 (BitVec.ofNat 64 b)).setReg64 threadWho 4#7
    (BitVec.ofNat 64 d)) fun t => (t.reg64 threadWho 4#7).toNat
/-- A predicate of thread 0 afterwards. -/
def predOf (x : Instr) (n : Nat) (s : State) : Option Bool := after x s fun t => t.pred threadWho n
def trapOf (x : Instr) (s : State) : Option (List Nat) := after x s fun t => (t.ctx 0 0).traps.map (·.cause)

/-! ### Results: the expected values follow from the rules by hand -/

theorem test_sums : g3 (.iadd 63#6 3#7 1#7 2#7) 0xFFFFFFFF 2 = some 1 ∧ g3 (.isub 63#6 3#7 1#7 2#7) 0 1 = some 0xFFFFFFFF ∧
    g3 (.imul 63#6 3#7 1#7 2#7) 0x10001 0x10000 = some 0x10000 ∧ g3 (.imad 63#6 3#7 1#7 2#7) 3 4 5 = some 17 ∧
    s3 (.iadd 63#6 3#7 1#7 2#7) 0xFFFFFFFF 2 = some 0x100000001 ∧
    g3 (.iaddImm 63#6 3#7 1#7 (.short 0x3F#6)) 0 0 = some 0xFFFFFFFF ∧
    pair4 (.lea 63#6 4#7 1#7 3#3) 0xFFFFFFFF00000000 0 16 = some 8 ∧
    pair4 (.iaddD 63#6 4#7 0#7) 0xFFFFFFFF 0 1 = some 0x100000000 := by decide +kernel
theorem test_constants : g3 (.movi 63#6 3#7 (.short 0x800#12)) 0 0 = some 0xFFFFF800 ∧
    g3 (.movh 63#6 3#7 0x678#12) 0 0 0x00012345 = some 0x12345678 ∧
    s3 (.movh20 63#6 3#7 0xFFFFF#20) 0 0 1 = some 0x1FFFFF ∧
    s3 (.movi 63#6 3#7 (.long 0x80000#20)) 0 0 = some 0xFFFFFFFFFFF80000 := by decide +kernel
theorem test_logic : g3 (.iand 63#6 3#7 1#7) 0xF0F0 0 0xFF00 = some 0xF000 ∧ g3 (.ior 63#6 3#7 1#7) 0xF0F0 0 0xFF00 = some 0xFFF0 ∧
    g3 (.ixor 63#6 3#7 1#7) 0xF0F0 0 0xFF00 = some 0x0FF0 ∧ g3 (.iandImm 63#6 3#7 1#7 (.short 0x30#6)) 0xFFFF 0 = some 0xFFF0 ∧
    g3 (.imin 63#6 3#7 1#7) 0xFFFFFFFF 0 1 = some 0xFFFFFFFF ∧ g3 (.imax 63#6 3#7 1#7) 0xFFFFFFFF 0 1 = some 1 ∧
    g3 (.iminu 63#6 3#7 1#7) 0xFFFFFFFF 0 1 = some 1 ∧ g3 (.imaxu 63#6 3#7 1#7) 0xFFFFFFFF 0 1 = some 0xFFFFFFFF ∧
    g3 (.iabs 63#6 3#7 1#7) 0x80000000 0 = some 0x80000000 ∧ g3 (.isel 63#6 3#7 1#7 0#6) 7 0 9 = some 9 := by decide +kernel
theorem test_shifts : g3 (.ishl 63#6 3#7 1#7) 32 0 1 = some 0 ∧ g3 (.ishr 63#6 3#7 1#7) 31 0 0x80000000 = some 1 ∧
    g3 (.isra 63#6 3#7 1#7) 40 0 0x80000000 = some 0xFFFFFFFF ∧ s3 (.ishl 63#6 3#7 1#7) 32 0 1 = some 0x100000000 ∧
    g3 (.ishlImm 63#6 3#7 1#7 (.short 4#6)) 0xF000000F 0 = some 0xF0 ∧ g3 (.ishrImm 63#6 3#7 1#7 (.short 4#6)) 0xF000000F 0 = some 0x0F000000 ∧
    g3 (.israImm 63#6 3#7 1#7 (.short 33#6)) 0xF000000F 0 = some 0xFFFFFFFF ∧
    g3 (.imulh 63#6 3#7 1#7) 0xFFFFFFFF 0 2 = some 0xFFFFFFFF ∧ g3 (.imulhu 63#6 3#7 1#7) 0xFFFFFFFF 0 2 = some 1 := by decide +kernel
theorem test_bits : g3 (.popc 63#6 3#7 1#7) 0xF0F0 0 = some 8 ∧ g3 (.clz 63#6 3#7 1#7) 0 0 = some 32 ∧ g3 (.clz 63#6 3#7 1#7) 1 0 = some 31 ∧
    g3 (.brev 63#6 3#7 1#7) 1 0 = some 0x80000000 ∧ s3 (.clz 63#6 3#7 1#7) 1 0 = some 63 ∧
    g3 (.bfe 63#6 3#7 1#7) 0xABCD 0 0x00804 = some 0xBC ∧ g3 (.bfe 63#6 3#7 1#7) 0xABCD 0 0x10804 = some 0xFFFFFFBC ∧
    after (.bfi 63#6 4#7 1#7) (thread_ [(1, 0xFF), (4, 0x11111111), (5, 0x0408)]) (·.reg threadWho 4#7) = some 0x11111F11 ∧
    after (.p2g 63#6 3#7 0#6) ((thread_ []).setPred threadWho 5 true) (·.reg threadWho 3#7) = some 0x20 := by decide +kernel
theorem test_compares : predOf (.icmp 63#6 1#7 2#7 1#2 4#4) 4 (thread_ [(1, 0xFFFFFFFF), (2, 0)]) = some true ∧
    predOf (.icmp 63#6 1#7 2#7 1#2 4#4) 5 (thread_ [(1, 0xFFFFFFFF), (2, 0)]) = some false ∧
    predOf (.icmp 63#6 1#7 2#7 2#2 4#4) 4 (thread_ [(1, 0xFFFFFFFF), (2, 0)]) = some false ∧
    predOf (.icmpD 63#6 0#7 2#7 0#2 7#4) 7 (thread_ [(0, 1), (1, 2), (2, 1), (3, 2)]) = some true ∧
    predOf (.fcmp 63#6 1#7 2#7 1#2 0#4) 0 (thread_ [(1, 0xBF800000), (2, 0x3F800000)]) = some true ∧
    predOf (.fcmp 63#6 1#7 2#7 0#2 0#4) 0 (thread_ [(1, 0x7FC00000), (2, 0x7FC00000)]) = some false ∧
    predOf (.fcmp 63#6 1#7 2#7 0#2 0#4) 0 (thread_ [(1, 0x80000000), (2, 0)]) = some true ∧
    predOf (.pset 63#6 9#6 1#7) 9 (thread_ [(1, 8)]) = some true ∧
    predOf (.g2p 63#6 1#6 1#7) 35 (thread_ [(1, 8)]) = some true ∧
    predOf (.plop 63#6 3#6 4#6 6#4) 3 ((thread_ []).setPred threadWho 4 true) = some true := by decide +kernel
theorem test_binary32 : g3 (.fadd 63#6 3#7 1#7 2#7) 0x3F800000 0x40000000 = some 0x40400000 ∧
    g3 (.fsub 63#6 3#7 1#7 2#7) 0x7F800000 0x7F800000 = some 0x7FC00000 ∧ g3 (.fmul 63#6 3#7 1#7 2#7) 0xC0000000 0x40400000 = some 0xC0C00000 ∧
    g3 (.ffma 63#6 3#7 1#7 2#7) 0x40000000 0x40400000 0x3F800000 = some 0x40E00000 ∧
    g3 (.ffms 63#6 3#7 1#7 2#7) 0x40000000 0x40400000 0x3F800000 = some 0x40A00000 ∧
    g3 (.fdiv 63#6 3#7 1#7 2#7) 0x3F800000 0x40400000 = some 0x3EAAAAAB ∧ g3 (.fsqrt 63#6 3#7 1#7 0#2) 0x40000000 0 = some 0x3FB504F3 ∧
    g3 (.fmin 63#6 3#7 1#7) 0x80000000 0 0 = some 0x80000000 ∧ g3 (.fmax 63#6 3#7 1#7) 0x80000000 0 0 = some 0 ∧
    g3 (.frnd 63#6 3#7 1#7 0#2) 0x40200000 0 = some 0x40000000 ∧ g3 (.fclass 63#6 3#7 1#7) 0xFF800000 0 = some 1 := by decide +kernel
theorem test_binary64 : pair4 (.dadd 63#6 4#7 0#7 2#7) 0x3FF0000000000000 0x4000000000000000 = some 0x4008000000000000 ∧
    pair4 (.dmul 63#6 4#7 0#7 2#7) 0x4000000000000000 0x4008000000000000 = some 0x4018000000000000 ∧
    pair4 (.dfma 63#6 4#7 0#7 2#7) 0x4000000000000000 0x4008000000000000 0x3FF0000000000000 = some 0x401C000000000000 ∧
    pair4 (.ddiv 63#6 4#7 0#7 2#7) 0x3FF0000000000000 0x4008000000000000 = some 0x3FD5555555555555 ∧
    pair4 (.dsqrt 63#6 4#7 0#7 0#2) 0x4010000000000000 0 = some 0x4000000000000000 ∧
    pair4 (.dmax 63#6 4#7 0#7) 0xBFF0000000000000 0 0x4000000000000000 = some 0x4000000000000000 := by decide +kernel
theorem test_conversions : g3 (.cvt 63#6 0#2 3#7 1#7 4#3 1#3) 0x40200000 0 = some 2 ∧ g3 (.cvt 63#6 1#2 3#7 1#7 4#3 1#3) 0xBFC00000 0 = some 0xFFFFFFFF ∧
    g3 (.cvt 63#6 0#2 3#7 1#7 1#3 4#3) 0xFFFFFFFF 0 = some 0xBF800000 ∧ g3 (.cvt 63#6 0#2 3#7 1#7 2#3 1#3) 0x3F800000 0 = some 0x3C00 ∧
    pair4 (.cvt 63#6 0#2 4#7 1#7 0#3 1#3) 0x3F80000000000000 0 = some 0x3FF0000000000000 := by decide +kernel
theorem test_special : g3 (.fexp2 63#6 3#7 1#7) 0 0 = some 0x3F800000 ∧ g3 (.frcp 63#6 3#7 1#7) 0 0 = some 0x7F800000 ∧
    g3 (.flog2 63#6 3#7 1#7) 0xBF800000 0 = some 0x7FC00000 ∧ g3 (.frsq 63#6 3#7 1#7) 0x7F800000 0 = some 0 := by decide +kernel
theorem test_packed : g3 (.pkaddF16 63#6 3#7 1#7) 0x3C003C00 0 0x40003C00 = some 0x42004000 ∧
    g3 (.pkaddBf16 63#6 3#7 1#7) 0x3F803F80 0 0x40003F80 = some 0x40404000 ∧
    g3 (.pkfmaF16 63#6 3#7 1#7 2#7) 0x40003C00 0x42003C00 0x3C000000 = some 0x47003C00 := by decide +kernel

/-! ### Witnesses: for each statement, a state and operands that meet its hypotheses -/

theorem runs_of {s : State} {i : Issue} {x : Instr} {w : Who} (h : s.cur = some i) (hw : i.whos = [w])
    (hg : s.guardOk w x.guard = true) : Runs s i x w := ⟨⟨h, hw⟩, hg⟩
theorem alive_of {s : State} {w : Who} (h : ((w.tid.map fun n => (tblGet none (s.ctx w.core w.ctx).threads n).isSome).getD true) = true) :
    Alive s w := by
  intro n hn
  simpa [hn] using h
theorem pair_of {α β : Type} {p : α × β} {a : α} (h : p.1 = a) : ∃ b, p = (a, b) := ⟨p.2, by rw [← h]⟩
theorem pair_with {α β : Type} {p : α × β} {a : α} {P : β → Prop} (h : p.1 = a) (hp : P p.2) : ∃ b, p = (a, b) ∧ P b :=
  ⟨p.2, by rw [← h], hp⟩
theorem some_with {α : Type} {o : Option α} {P : α → Prop} (h : o.isSome = true) (hp : P (o.get h)) : ∃ k, o = some k ∧ P k :=
  ⟨_, (Option.some_get h).symm, hp⟩
theorem issuing_thread : Issuing threadState threadIssue := ⟨rfl, by decide, by decide +kernel⟩
theorem issuing_lead : Issuing leadState leadIssue := ⟨rfl, by decide, by decide +kernel⟩
/-- A thread issues a word whose guard is always true. -/
theorem thread_runs (x : Instr) (rs : List (Nat × Nat)) (hc : (thread_ rs).cur = some threadIssue) (h : x.guard = 63#6) :
    Runs (thread_ rs) threadIssue x threadWho := runs_of hc rfl (by rw [h]; rfl)
theorem lead_runs (x : Instr) (rs : List (Nat × Nat)) (hc : (lead_ rs).cur = some leadIssue) (h : x.guard = 63#6) :
    Runs (lead_ rs) leadIssue x leadWho := runs_of hc rfl (by rw [h]; rfl)

/-- Meets the hypotheses of IntegerSumsAndProducts, for a thread and for a lead strand; the word acts. -/
theorem witness_IntegerSumsAndProducts : Issuing threadState threadIssue ∧ Acts threadState threadIssue (.iadd 63#6 3#7 1#7 2#7) threadWho ∧
    Issuing leadState leadIssue ∧ Acts leadState leadIssue (.lea 63#6 3#7 1#7 2#3) leadWho :=
  ⟨issuing_thread, ⟨by decide, rfl⟩, issuing_lead, ⟨by decide, rfl⟩⟩
/-- Meets the hypotheses of LogicChoiceAndFields; a word with a false guard does not act; BFE and BFI are a thread's. -/
theorem witness_LogicChoiceAndFields : Issuing threadState threadIssue ∧ Acts threadState threadIssue (.isel 63#6 127#7 0#7 47#6) threadWho ∧
    ¬ Acts threadState threadIssue (.isel 0#6 127#7 0#7 47#6) threadWho ∧
    Acts threadState threadIssue (.bfi 63#6 126#7 0#7) threadWho ∧ threadWho.tid.isSome = true :=
  ⟨issuing_thread, ⟨by decide, rfl⟩, fun h => absurd h.2 (by decide +kernel), ⟨by decide, rfl⟩, rfl⟩
theorem witness_ShiftsAndHighProducts : Issuing leadState leadIssue ∧ Acts leadState leadIssue (.ishlImm 63#6 63#7 0#7 (.long 0x3FFF#14)) leadWho :=
  ⟨issuing_lead, ⟨by decide, rfl⟩⟩
/-- Meets the hypotheses of ComparesAndPredicates: both predicates of a compare at k = 15, the last predicate of either
executor, the second block of a thread. -/
theorem witness_ComparesAndPredicates : Issuing threadState threadIssue ∧ Issuing leadState leadIssue ∧ (2#2 : BitVec 2) ≠ 3#2 ∧
    (∀ w ∈ threadIssue.whos, ∀ n ∈ [(15#4).toNat, (15#4 ^^^ 1#4).toNat], hasPred w n) ∧
    (∀ w ∈ leadIssue.whos, ∀ n ∈ [(15#4).toNat, (15#4 ^^^ 1#4).toNat], hasPred w n) ∧
    (∀ w ∈ threadIssue.whos, ∀ n ∈ [47], hasPred w n) ∧
    (∀ w ∈ threadIssue.whos, ∀ n ∈ (List.range (blockSize w 1#6)).map (32 * (1#6).toNat + ·), hasPred w n) :=
  ⟨issuing_thread, issuing_lead, by decide, by unfold hasPred; decide, by unfold hasPred; decide, by unfold hasPred; decide,
    by unfold hasPred; decide +kernel⟩
theorem witness_Fp32Results : Issuing threadState threadIssue ∧ Acts threadState threadIssue (.fclass 63#6 127#7 127#7) threadWho :=
  ⟨issuing_thread, ⟨by decide, rfl⟩⟩
/-- Meets the hypotheses of Fp64AndConversions: a pair at the top of the registers; a conversion to FP64 and one to another
format. -/
theorem witness_Fp64AndConversions : Issuing threadState threadIssue ∧ Acts threadState threadIssue (.dadd 63#6 126#7 0#7 2#7) threadWho ∧
    (4#3 : BitVec 3) ≠ 0#3 ∧ Acts threadState threadIssue (.cvt 63#6 0#2 3#7 2#7 4#3 0#3) threadWho ∧
    Acts threadState threadIssue (.cvt 63#6 0#2 2#7 1#7 0#3 4#3) threadWho :=
  ⟨issuing_thread, ⟨by decide, rfl⟩, by decide, ⟨by decide, rfl⟩, ⟨by decide, rfl⟩⟩
theorem witness_PackedSpecialAndQuantised : Issuing threadState threadIssue ∧ Acts threadState threadIssue (.qcvtI8 63#6 3#7 1#7) threadWho ∧
    IssuingOne threadState threadIssue threadWho ∧ threadWho.tid = some 0 ∧ threadState.guardOk threadWho 63#6 = true :=
  ⟨issuing_thread, ⟨by decide, rfl⟩, ⟨rfl, rfl⟩, rfl, rfl⟩
/-- Meets the clauses of PackedSpecialAndQuantised on the special functions: a NaN, both infinities, both zeros; 3 and a half;
the bounds 128 and below -150; the least subnormal, whose reciprocal is beyond the format. -/
theorem witness_PackedSpecialAndQuantised_values :
    fp32.decode 0x7FC00001 = .nan ∧ fp32.decode 0x7F800000 = .inf false ∧ fp32.decode 0xFF800000 = .inf true ∧ fp32.decode 0 = .fin false 0 ∧
    fp32.decode 0x80000000 = .fin true 0 ∧ fp32.decode 0x40400000 = .fin false (3 * 2 ^ 149) ∧
    (fp32.decode 0x3F000000 = .fin false (2 ^ 148) ∧ 2 ^ 148 % 2 ^ 149 = 2 ^ 148) ∧ fp32.decode 0x43000000 = .fin false (128 * 2 ^ 149) ∧
    fp32.decode 0xC3170000 = .fin true (151 * 2 ^ 149) ∧
    (fp32.decode 0x3E99999A = .fin false (10066330 * 2 ^ 124) ∧ 10066330 * 2 ^ 124 % 2 ^ 148 ≠ 0) ∧
    (fp32.decode 1 = .fin false 1 ∧ (2 ^ 24 - 1) * 2 ^ 104 * 1 < 2 ^ 149) := by decide +kernel
/-- Meets the hypotheses of CanonicalNans: infinity less infinity, zero by zero, the root of minus one. -/
theorem witness_CanonicalNans : fp32.decode (fp32.sub 0 0x7F800000 0x7F800000) = .nan ∧ fp64.decode (fp64.div 0 0) = .nan ∧
    fp16.decode (fp16.sqrt 0 0xBC00) = .nan ∧ bf16.decode (bf16.fma 0 0x7F80 0 0) = .nan ∧
    fp32 ∈ [fp64, fp32, fp16, bf16] ∧ cvtFmt 2#3 = some fp16 ∧ fp16.decode (convertValue 0 2#3 1#3 0x7FC00001) = .nan ∧
    fp32.decode (sfuSin 0x7F800000#32) = .nan := by decide +kernel
/-- Meets the hypotheses of RoundingIsCorrect: the greatest and the least finite values, both zeros, both infinities, a NaN; a
divisor that is not 0 and one that is; the roots of a positive and of a negative value. -/
theorem witness_RoundingIsCorrect : bf16 ∈ [fp64, fp32, fp16, bf16] ∧ (3 < 4 ∧ 0 < 4) ∧
    fp16.decode 0x7BFF = .fin false (2047 * 2 ^ 29) ∧ fp16.decode 0x8001 = .fin true 1 ∧ fp16.decode 0x8000 = .fin true 0 ∧
    fp64.decode 0 = .fin false 0 ∧ fp64.decode (2 ^ 63 + 0x7FF * 2 ^ 52) = .inf true ∧ bf16.decode 0x7F80 = .inf false ∧
    bf16.decode 0x7FC0 = .nan := by decide +kernel

/-- Threads 0, 1 and 2 of warp 0 are live and named by every mask; g1 holds 5, 9 and 0x80000000. -/
def lanesState : State :=
  [(0, 5), (1, 9), (2, 0x80000000)].foldl (fun s r => s.setReg { core := 0, ctx := 0, tid := some r.1 } 1#7 r.2)
    { threadState.modCtx 0 0 fun x => { x with
        threads := [(0, some {}), (1, some {}), (2, some {})], masks := (List.range 8).map fun j => (j, 7#32) } with
      cur := some { threadIssue with tids := [0, 1, 2] } }
def lanesIssue : Issue := { threadIssue with tids := [0, 1, 2] }
def lane_ (x : Instr) (r : Reg) : Option (List Nat) :=
  after x lanesState fun t => [0, 1, 2].map fun n => t.reg { core := 0, ctx := 0, tid := some n } r

theorem test_lanes : lane_ (.redAdd 63#6 2#7 1#7 0#3) 2#7 = some [0x8000000E, 0x8000000E, 0x8000000E] ∧
    lane_ (.redMin 63#6 2#7 1#7 0#3) 2#7 = some [0x80000000, 0x80000000, 0x80000000] ∧ lane_ (.redMax 63#6 2#7 1#7 7#3) 2#7 = some [9, 9, 9] ∧
    lane_ (.scanAdd 63#6 2#7 1#7 0#3) 2#7 = some [5, 14, 0x8000000E] ∧ lane_ (.scanAddEx 63#6 2#7 1#7 0#3) 2#7 = some [0, 5, 14] ∧
    lane_ (.matchLanes 63#6 2#7 0#7 0#3) 2#7 = some [7, 7, 7] ∧ lane_ (.matchLanes 63#6 2#7 1#7 0#3) 2#7 = some [1, 2, 4] ∧
    lane_ (.shflIdx 63#6 2#7 1#7 0#3) 2#7 = some [5, 5, 5] ∧ lane_ (.shflDown 63#6 1#7 1#7 0#3) 1#7 = some [5, 9, 0x80000000] ∧
    lane_ (.voteBallot 63#6 2#7 0#6 0#3) 2#7 = some [0, 0, 0] ∧ lane_ (.fredAdd 63#6 2#7 4#7 0#3) 2#7 = some [0, 0, 0] := by
  decide +kernel
theorem issuing_lanes : Issuing lanesState lanesIssue := ⟨by rfl, by decide, by decide +kernel⟩
theorem joined_lanes (j : BitVec 3) : Joined lanesState lanesIssue j := by
  have h : ((List.range 8).all fun k => [0, 1, 2].all fun n => decide (n < 1024) &&
      ((lanesState.mask { core := 0, ctx := 0 } (n / 32) k).getLsbD (n % 32) && (List.range 32).all fun l =>
        !(lanesState.mask { core := 0, ctx := 0 } (n / 32) k).getLsbD l || decide (32 * (n / 32) + l ∈ [0, 1, 2]))) = true := by
    decide +kernel
  simp only [List.all_eq_true, List.mem_range, Bool.and_eq_true, Bool.or_eq_true, Bool.not_eq_true', decide_eq_true_eq] at h
  refine ⟨rfl, fun n hn => ?_⟩
  obtain ⟨h1, h2, h3⟩ := h j.toNat j.isLt n hn
  exact ⟨h1, h2, fun l hl hm _ => (h3 l hl).resolve_left fun h => absurd (Eq.trans (Eq.symm hm) h) (by decide)⟩
theorem witness_LaneResults : Issuing lanesState lanesIssue ∧ Joined lanesState lanesIssue 7#3 ∧
    Acts lanesState lanesIssue (.shflIdx 63#6 2#7 1#7 7#3) (lanesIssue.lane 0 2) ∧ 2 ∈ activeLanes lanesState lanesIssue 63#6 0 ∧
    ∀ n ∈ activeLanes lanesState lanesIssue 63#6 0, lanesState.reg (lanesIssue.lane 0 n) 1#7 < 2 ^ 32 :=
  ⟨issuing_lanes, joined_lanes 7#3, ⟨by decide, rfl⟩, by decide +kernel, by decide +kernel⟩
/-- Meets the hypotheses of LaneStates: lanes that act, and a guard under which none does. -/
theorem witness_LaneStates : Issuing lanesState lanesIssue ∧ Joined lanesState lanesIssue 0#3 ∧ (∀ n ∈ lanesIssue.tids, n / 32 = 0) ∧
    lanesIssue.tids ≠ [] ∧ activeLanes lanesState lanesIssue 63#6 0 = [0, 1, 2] ∧ activeLanes lanesState lanesIssue 0#6 0 = [] :=
  ⟨issuing_lanes, joined_lanes 0#3, by decide, by decide, by decide +kernel, by decide +kernel⟩
theorem test_lane_states : after (.voteAny 63#6 3#6 4#6 0#3) (lanesState.setPred { core := 0, ctx := 0, tid := some 1 } 4 true)
      (fun t => [0, 1, 2].map fun n => t.pred { core := 0, ctx := 0, tid := some n } 3) = some [true, true, true] ∧
    after (.voteAll 63#6 3#6 4#6 0#3) (lanesState.setPred { core := 0, ctx := 0, tid := some 1 } 4 true)
      (fun t => [0, 1, 2].map fun n => t.pred { core := 0, ctx := 0, tid := some n } 3) = some [false, false, false] ∧
    after (.jset 63#6 1#7 3#3) lanesState (fun t => t.mask { core := 0, ctx := 0 } 0 3) = some 5#32 ∧
    after (.jsetGrp 63#6 3#3) lanesState (fun t => t.mask { core := 0, ctx := 0 } 0 3) = some 7#32 := by decide +kernel

/-- Meets the hypotheses of LaneAndNeedleTraps: a thread that mask 0 does not name; a context that does not hold the needle. Every word
that the first clause names traps there, a vote too. -/
theorem witness_LaneAndNeedleTraps :
    (let s := threadState.setMask threadWho 0 0 0xFFFFFFFE#32
     Issuing s threadIssue ∧ threadIssue.lead = false ∧ threadIssue.tids = [0] ∧
      (s.mask { core := 0, ctx := 0 } (0 / 32) (0#3).toNat).getLsbD (0 % 32) = false) ∧
    (let s := leadState.modMx 0 fun m => { m with needle := 1 }
     Runs s leadIssue (.mxdrain 63#6) leadWho ∧ Alive s leadWho ∧ s.holdsNeedle leadWho = false) :=
  ⟨⟨⟨rfl, by decide, by decide +kernel⟩, rfl, rfl, by decide +kernel⟩, runs_of rfl rfl rfl, alive_of (by decide +kernel), by decide +kernel⟩
theorem test_own_lane_trap : trapOf (.join 63#6 0#3) (threadState.setMask threadWho 0 0 0xFFFFFFFE#32) = some [5] ∧
    trapOf (.voteAny 63#6 1#6 2#6 0#3) (threadState.setMask threadWho 0 0 0xFFFFFFFE#32) = some [5] ∧
    trapOf (.voteBallot 63#6 1#7 2#6 0#3) (threadState.setMask threadWho 0 0 0xFFFFFFFE#32) = some [5] := by decide +kernel
theorem test_needle_trap : trapOf (.mxdrain 63#6) (leadState.modMx 0 fun m => { m with needle := 1 }) = some [6] := by decide +kernel

/-- Meets the hypotheses of TransfersAndCalls: the longest backward branch, a return, a call. -/
theorem witness_TransfersAndCalls :
    Runs threadState threadIssue (.bra 63#6 (.short 0x20000#18)) threadWho ∧ Alive threadState threadWho ∧ threadIssue.pc.toNat % 4 = 0 ∧
    (threadIssue.pc + BitVec.ofInt 64 (4 * immSigned (.short 0x20000#18 : Imm 18))).toNat % 4 = 0 ∧
    Runs leadState leadIssue (.callx 63#6 5#7) leadWho ∧ (leadState.reg64 leadWho 5#7).toNat % 4 = 0 ∧
    (leadState.reg64 leadWho 63#7).toNat % 4 = 0 :=
  ⟨runs_of rfl rfl rfl, alive_of (by decide +kernel), by decide, by decide +kernel, runs_of rfl rfl rfl, by decide +kernel, by decide +kernel⟩
theorem test_transfers : after (.bra 63#6 (.short 0x3FFFF#18)) leadState (fun t => (t.strand leadWho).pc) = some 0xFFC#64 ∧
    after (.call 63#6 (.short 2#18)) leadState (fun t => ((t.strand leadWho).pc, t.reg64 leadWho 63#7)) = some (0x1008#64, 0x1004#64) ∧
    after (.call 63#6 (.short 2#18)) threadState (fun t => ((t.strand threadWho).pc, t.reg64 threadWho 30#7)) = some (0x1008#64, 0x1004#64) ∧
    after (.ret 63#6) (lead_ [(63, 0x4000)]) (fun t => (t.strand leadWho).pc) = some 0x4000#64 := by decide +kernel
/-- Meets the hypotheses of MisalignmentTraps: targets and addresses off by one, for the lead strand and for a thread; a scratchpad
access off by one, one at the window's end and one before its start. -/
theorem witness_MisalignmentTraps :
    (let s := lead_ [(5, 0x4001), (6, 0x100000)]
     (Runs s leadIssue (.brx 63#6 5#7) leadWho ∧ Runs s leadIssue (.callx 63#6 5#7) leadWho ∧ Alive s leadWho ∧
      (s.reg64 leadWho 5#7).toNat % 4 ≠ 0) ∧
     (Runs s leadIssue (.ldg 63#6 3#7 5#7 4#3 none) leadWho ∧ s.acquiring leadWho = false ∧
      (s.globalAddr leadWho 5#7 none 16).toNat % 16 ≠ 0) ∧
     (Runs s leadIssue (.cas 63#6 4#7 5#7 3#2 0#2 1#1 none) leadWho ∧ (s.globalAddr leadWho 5#7 none 8).toNat % 8 ≠ 0) ∧
     (Runs s leadIssue (.xclr 63#6 3#7 5#7 0#2 0#2 none) leadWho ∧ (s.globalAddr leadWho 5#7 none 64).toNat % 64 ≠ 0) ∧
     (Runs s leadIssue (.lds 63#6 3#7 5#7 1#3 none) leadWho ∧ (s.smemAddr leadWho 5#7 none 2 : Int) % 2 ≠ 0) ∧
     (Runs s leadIssue (.atomsCas 63#6 4#7 6#7 1#1 none) leadWho ∧ (s.smemAddr leadWho 6#7 none 8 : Int) % 8 = 0 ∧
      (s.smemSize leadWho.core leadWho.ctx : Int) < s.smemAddr leadWho 6#7 none 8 + 8) ∧
     (Runs s leadIssue (.lds 63#6 3#7 7#7 2#3 (some 0xFF#8)) leadWho ∧ (s.smemAddr leadWho 7#7 (some 0xFF#8) 4 : Int) % 4 = 0 ∧
      (s.smemAddr leadWho 7#7 (some 0xFF#8) 4 : Int) < 0)) ∧
    (let s := thread_ [(30, 0x4002)]
     Runs s threadIssue (.ret 63#6) threadWho ∧ Alive s threadWho ∧ (s.reg64 threadWho 30#7).toNat % 4 ≠ 0) :=
  ⟨⟨⟨lead_runs _ _ (by rfl) rfl, lead_runs _ _ (by rfl) rfl, alive_of (by decide +kernel), by decide +kernel⟩,
    ⟨lead_runs _ _ (by rfl) rfl, by decide +kernel⟩, ⟨lead_runs _ _ (by rfl) rfl, by decide +kernel⟩,
    ⟨lead_runs _ _ (by rfl) rfl, by decide +kernel⟩, ⟨lead_runs _ _ (by rfl) rfl, by decide +kernel⟩,
    ⟨lead_runs _ _ (by rfl) rfl, by decide +kernel⟩, ⟨lead_runs _ _ (by rfl) rfl, by decide +kernel⟩⟩,
   thread_runs _ _ (by rfl) rfl, alive_of (by decide +kernel), by decide +kernel⟩
/-- Meets the hypotheses of MisalignmentTraps on STC: its source off by one and at the window's end; a core set of an unlisted kind;
its line off by four. -/
theorem witness_MisalignmentTraps_stc :
    let s := lead_ [(5, 0x1004), (6, 0x40), (7, 5), (8, 0x41), (10, 0x100000), (12, 0x40), (13, 0x80000000)]
    let o (r : Reg) : Nat := (s.regs2 leadWho r).1.toNat % 2 ^ 22
    (Runs s leadIssue (.stc 63#6 8#7 5#7) leadWho ∧ Alive s leadWho ∧ s.acquiring leadWho = false ∧ o 8#7 % 64 ≠ 0) ∧
    (Runs s leadIssue (.stc 63#6 10#7 5#7) leadWho ∧ o 10#7 % 64 = 0 ∧ (s.smemSize leadWho.core leadWho.ctx : Int) < o 10#7 + 64) ∧
    (Runs s leadIssue (.stc 63#6 12#7 5#7) leadWho ∧ o 12#7 % 64 = 0 ∧ (o 12#7 : Int) + 64 ≤ s.smemSize leadWho.core leadWho.ctx ∧
     decodeCoreSet (s.regs2 leadWho 12#7).2.toNat = none) ∧
    (Runs s leadIssue (.stc 63#6 6#7 5#7) leadWho ∧ o 6#7 % 64 = 0 ∧ (o 6#7 : Int) + 64 ≤ s.smemSize leadWho.core leadWho.ctx ∧
     decodeCoreSet (s.regs2 leadWho 6#7).2.toNat ≠ none ∧ (s.reg64 leadWho 5#7).toNat % 64 ≠ 0) :=
  ⟨⟨lead_runs _ _ (by rfl) rfl, alive_of (by decide +kernel), by decide +kernel⟩, ⟨lead_runs _ _ (by rfl) rfl, by decide +kernel⟩,
    ⟨lead_runs _ _ (by rfl) rfl, by decide +kernel⟩, ⟨lead_runs _ _ (by rfl) rfl, by decide +kernel⟩⟩
theorem test_misaligned : trapOf (.callx 63#6 5#7) (lead_ [(5, 0x4002)]) = some [3] ∧
    trapOf (.stg 63#6 3#7 5#7 1#3 none) (lead_ [(5, 0x1001)]) = some [3] := by decide +kernel
theorem witness_ExitNopPref : Runs threadState threadIssue (.exit 63#6) threadWho ∧ threadWho.tid = some 0 ∧
    threadState.cur = some threadIssue := ⟨runs_of rfl rfl rfl, rfl, rfl⟩

/-- A loop with a count, open. -/
def looping (n : Nat) : Loop := { count := BitVec.ofNat 32 n, start := 0x800#64, exitPc := 0x2000#64, isOpen := true }
/-- Meets the hypotheses of Loops: counts of zero, of one and more, loops open and not. -/
theorem witness_Loops :
    (let s := lead_ [(5, 3)]
     Runs s leadIssue (.loopp 63#6 5#7 3#2 4#10) leadWho ∧ (s.ctx 0 0).lc0.isOpen = false ∧ (s.ctx 0 0).lc1.isOpen = false ∧
     BitVec.ofNat 32 (s.reg leadWho 5#7) ≠ 0#32 ∧ BitVec.ofNat 32 (s.reg leadWho 6#7) = 0#32) ∧
    (let s := (leadState.setLoop0 leadWho (looping 1)).setLoop1 leadWho (looping 1)
     Runs s leadIssue (.endl 63#6) leadWho ∧ (s.ctx 0 0).lc1.isOpen = true ∧ (s.ctx 0 0).lc1.count - 1#32 = 0#32) ∧
    (let s := (leadState.setLoop0 leadWho (looping 0)).setLoop1 leadWho (looping 0)
     Runs s leadIssue (.brk 63#6) leadWho ∧ (s.ctx 0 0).lc1.isOpen = true ∧ (s.ctx 0 0).lc1.count - 1#32 ≠ 0#32) ∧
    (let s := leadState.setLoop0 leadWho (looping 1)
     Runs s leadIssue (.endl 63#6) leadWho ∧ (s.ctx 0 0).lc1.isOpen = false ∧ (s.ctx 0 0).lc0.isOpen = true ∧
     (s.ctx 0 0).lc0.pipelined = false ∧ (s.ctx 0 0).lc0.count - 1#32 = 0#32 ∧
     ((leadState.setLoop0 leadWho (looping 2)).ctx 0 0).lc0.count - 1#32 ≠ 0#32) :=
  ⟨⟨lead_runs _ _ (by rfl) rfl, by decide +kernel⟩, ⟨runs_of (by rfl) rfl rfl, by decide +kernel⟩, ⟨runs_of (by rfl) rfl rfl, by decide +kernel⟩,
    ⟨runs_of (by rfl) rfl rfl, by decide +kernel⟩⟩
theorem test_loops : after (.loopLc0 63#6 5#7 (.short 8#12)) (lead_ [(5, 2)]) (fun t => ((t.ctx 0 0).lc0.count, (t.ctx 0 0).lc0.start,
      (t.ctx 0 0).lc0.exitPc, (t.ctx 0 0).lc0.isOpen)) = some (2#32, 0x1004#64, 0x1020#64, true) ∧
    after (.loopLc1 63#6 5#7 (.short 8#12)) (lead_ []) (fun t => ((t.strand leadWho).pc, (t.ctx 0 0).lc1.isOpen)) = some (0x1020#64, false) ∧
    after (.endl 63#6) (leadState.setLoop0 leadWho (looping 2)) (fun t => ((t.strand leadWho).pc, (t.ctx 0 0).lc0.count)) = some (0x800#64, 1#32) ∧
    after (.brk 63#6) (leadState.setLoop0 leadWho (looping 2)) (fun t => ((t.strand leadWho).pc, (t.ctx 0 0).lc0.isOpen)) = some (0x2000#64, false) := by
  decide +kernel
/-- A pipelined loop of four stages. -/
def piped : State :=
  (leadState.setLoop0 leadWho { looping 1 with pipelined := true, stages := 4 }).modCtx 0 0 fun x => { x with q := 0x1000#16 }
theorem witness_PipelinedLoopTurns : Runs piped leadIssue (.endl 63#6) leadWho ∧ (piped.ctx 0 0).lc1.isOpen = false ∧
    (piped.ctx 0 0).lc0.isOpen = true ∧ (piped.ctx 0 0).lc0.pipelined = true ∧ (piped.ctx 0 0).lc0.draining = false ∧
    (piped.ctx 0 0).marked = false ∧ 1 ≤ (piped.ctx 0 0).lc0.stages ∧ (piped.ctx 0 0).lc0.stages ≤ 4 :=
  ⟨runs_of (by rfl) rfl rfl, by decide +kernel⟩
/-- R127: a new iteration enters its first stage and the one before it its second, while the count lasts. -/
theorem test_pipeline : after (.endl 63#6) piped (fun t => (((t.ctx 0 0).q.extractLsb' 12 4), (t.ctx 0 0).lc0.count)) = some (3#4, 0#32) := by
  decide +kernel
/-- Meets the second clause's hypotheses of PipelinedLoopTurns: a request stands and a stage goes on; the drain has begun and its last
stage ends with iterations left, and with none. -/
theorem witness_PipelinedLoopTurns_drains :
    (let s := piped.modCtx 0 0 fun x => { x with marked := true }
     Runs s leadIssue (.endl 63#6) leadWho ∧ (s.ctx 0 0).lc0.draining = false ∧ (s.ctx 0 0).marked = true ∧
     (s.ctx 0 0).q.getLsbD 12 = true ∧ (s.ctx 0 0).lc0.pipelined = true ∧ (s.ctx 0 0).lc1.isOpen = false ∧ (s.ctx 0 0).lc0.isOpen = true) ∧
    (∀ n ∈ [0, 1],
     let s := (leadState.setLoop0 leadWho { looping n with pipelined := true, stages := 4, draining := true }).modCtx 0 0 fun x => { x with q := 0x8000#16 }
     Runs s leadIssue (.endl 63#6) leadWho ∧ (s.ctx 0 0).lc0.draining = true ∧ (s.ctx 0 0).lc0.count = BitVec.ofNat 32 n ∧
     (∀ k < 3, (s.ctx 0 0).q.getLsbD (12 + k) = false) ∧ after (.endl 63#6) s (fun t => ((t.ctx 0 0).lc0.isOpen, (t.ctx 0 0).lc0.refill)) =
      some (n == 1, n == 1)) := by
  refine ⟨⟨runs_of (by rfl) rfl rfl, by decide +kernel⟩, fun n h => ?_⟩
  simp only [List.mem_cons, List.not_mem_nil, or_false] at h
  rcases h with rfl | rfl <;> exact ⟨runs_of (by rfl) rfl rfl, by decide +kernel⟩

/-- s5 holds 0x1000, the address of the mapped page; s6 and s7 an offset and a set of one core. -/
def memState : State := lead_ [(5, 0x1000), (6, 0x40), (7, 5)]
theorem mem_runs (x : Instr) (h : x.guard = 63#6) : Runs memState leadIssue x leadWho := lead_runs x _ (by rfl) h
/-- Meets the hypotheses of LoadsIssue: no copy in the L1, and one. -/
theorem witness_LoadsIssue :
    (Runs memState leadIssue (.ldg 63#6 3#7 5#7 4#3 none) leadWho ∧ memState.acquiring leadWho = false ∧
     (memState.globalAddr leadWho 5#7 none 16).toNat % 16 = 0 ∧ inCtl 0x1000 = false ∧
     ∃ s1, memState.xlat leadWho leadIssue.pc .read (memState.globalAddr leadWho 5#7 none 16) = (.ok 0x1000 true, s1) ∧
      l1Find (s1.core 0).l1 (lineOf 0x1000) = none) ∧
    (let s := memState.modCore 0 fun co => { co with l1 := [{ line := lineOf 0x1000, pushed := true, data := 7#512 }] }
     ∃ s1, s.xlat leadWho leadIssue.pc .read (s.globalAddr leadWho 5#7 none 4) = (.ok 0x1000 true, s1) ∧
      s1.canHit leadWho (lineOf 0x1000) = true ∧ s1.scrubbing 0x1000 = false ∧ (l1Find (s1.core 0).l1 (lineOf 0x1000)).isSome = true) :=
  ⟨⟨mem_runs _ rfl, by decide +kernel, by decide +kernel, by decide +kernel, pair_with (by decide +kernel) (by decide +kernel)⟩,
    pair_with (by decide +kernel) (by decide +kernel)⟩
/-- Meets the hypotheses of StoresIssue: a plain store of 16 bytes, a release, a cast to core 5. -/
theorem witness_StoresIssue :
    Runs memState leadIssue (.stg 63#6 6#7 5#7 4#3 none) leadWho ∧ Runs memState leadIssue (.stgRel 63#6 6#7 5#7 1#1 3#2 none) leadWho ∧
    Runs memState leadIssue (.stc 63#6 6#7 5#7) leadWho ∧ memState.acquiring leadWho = false ∧
    (memState.globalAddr leadWho 5#7 none 16).toNat % 16 = 0 ∧ (memState.reg64 leadWho 5#7).toNat % 64 = 0 ∧
    (memState.regs2 leadWho 6#7).1.toNat % 2 ^ 22 % 64 = 0 ∧
    (memState.regs2 leadWho 6#7).1.toNat % 2 ^ 22 + 64 ≤ memState.smemSize leadWho.core leadWho.ctx ∧
    decodeCoreSet (memState.regs2 leadWho 6#7).2.toNat = some [5] ∧ inCtl 0x1000 = false ∧
    (∃ s1, memState.xlat leadWho leadIssue.pc .write (memState.globalAddr leadWho 5#7 none 16) = (.ok 0x1000 true, s1)) ∧
    ∃ s1, memState.xlat leadWho leadIssue.pc .write (memState.reg64 leadWho 5#7) = (.ok 0x1000 true, s1) :=
  ⟨mem_runs _ rfl, mem_runs _ rfl, mem_runs _ rfl, by decide +kernel, by decide +kernel, by decide +kernel, by decide +kernel,
    by decide +kernel, by decide +kernel, by decide +kernel, pair_of (by decide +kernel), pair_of (by decide +kernel)⟩
/-- Meets the hypotheses of StoresIssue where the store is to a launch ring's TAIL: 8 bytes of a page of control space. -/
theorem witness_StoresIssue_tail :
    let s := (lead_ [(5, 0x2118), (6, 3)]).modCore 0 fun co => { co with
      dtlb := [{ part := 0, shift := 12, vpn := 2, leaf := 0xFF000200DF#64 }] }
    Runs s leadIssue (.stg 63#6 6#7 5#7 3#3 none) leadWho ∧ s.acquiring leadWho = false ∧ inCtl 0xFF00020118 = true ∧
    2 ^ (3#3 : BitVec 3).toNat = 8 ∧ (∃ p < 8, 0xFF00020118 = ctlBase + offHLQ p + 24) ∧
    ∃ s1, s.xlat leadWho leadIssue.pc .write (s.globalAddr leadWho 5#7 none 8) = (.ok 0xFF00020118 false, s1) :=
  ⟨runs_of (by rfl) rfl rfl, by decide +kernel, by decide +kernel, by decide, ⟨0, by decide +kernel⟩, pair_of (by decide +kernel)⟩
theorem test_load_issue : after (.ldg 63#6 3#7 5#7 2#3 (some 1#8)) memState (fun t => (t.core 0).loads.map fun l => (l.pa, l.size, l.dst)) =
    some [(0x1004, 4, some (3, 1))] := by decide +kernel
theorem test_stc : after (.stc 63#6 6#7 5#7) memState (fun t => (t.core 0).stores.map fun x => (x.pa, x.kind)) =
    some [(0x1000, .cast 0#512 [5])] := by decide +kernel
/-- The last place of the window: 1 MiB less the access. -/
theorem witness_ScratchpadAccesses :
    (let s := lead_ [(5, 0xFFFF0)]
     Runs s leadIssue (.sts 63#6 6#7 5#7 4#3 none) leadWho ∧ s.smemAddr leadWho 5#7 none 16 = 0xFFFF0 ∧ 0xFFFF0 % 16 = 0 ∧
     0xFFFF0 + 16 ≤ s.smemSize leadWho.core leadWho.ctx ∧ s.acquiring leadWho = false ∧
     ((s.core leadWho.core).resv.any fun r => r.slot == s.slotOf leadWho.core leadWho.ctx) = true) :=
  ⟨lead_runs _ _ (by rfl) rfl, by decide +kernel, by decide, by decide +kernel, by decide +kernel, by decide +kernel⟩
theorem test_scratchpad : trapOf (.sts 63#6 6#7 5#7 4#3 none) (lead_ [(5, 0x100000)]) = some [4] ∧
    after (.atomsAdd 63#6 3#7 5#7 1#1 none) ((lead_ [(5, 0x100), (3, 7)]).smemWrite 0 0 0x100 8 5)
      (fun t => (t.smemRead 0 0 0x100 8, t.reg leadWho 3#7)) = some (12, 5) ∧
    after (.atomsMin 63#6 3#7 5#7 0#1 none) ((lead_ [(5, 0x100), (3, 7)]).smemWrite 0 0 0x100 4 0xFFFFFFFF)
      (fun t => t.smemRead 0 0 0x100 4) = some 0xFFFFFFFF ∧
    after (.sts 63#6 6#7 5#7 0#3 none) (lead_ [(5, 0x101), (6, 0x1234)]) (fun t => t.smemRead 0 0 0x100 4) = some 0x3400 := by decide +kernel
/-- Meets the hypotheses of CacheHints: the mapped page, cacheable. -/
theorem witness_CacheHints :
    memState.acquiring leadWho = false ∧ (∃ s1, memState.xlat leadWho leadIssue.pc .read (memState.globalAddr leadWho 5#7 none 1) = (.ok 0x1000 true, s1)) ∧
    Runs memState leadIssue (.cinv 63#6 5#7 1#2 none) leadWho ∧ Runs memState leadIssue (.cpin 63#6 5#7 none) leadWho ∧
    Runs memState leadIssue (.cunpin 63#6 5#7 none) leadWho ∧ (0#2 : BitVec 2) ≠ 1#2 :=
  ⟨by decide +kernel, pair_of (by decide +kernel), mem_runs _ rfl, mem_runs _ rfl, mem_runs _ rfl, by decide⟩
/-- Meets the hypotheses of GlobalAtomics: eight bytes, a comparand, an accumulator's line. -/
theorem witness_GlobalAtomics :
    Runs memState leadIssue (.cas 63#6 6#7 5#7 3#2 3#2 1#1 none) leadWho ∧ Runs memState leadIssue (.xadd 63#6 6#7 5#7 0#2 0#2 none) leadWho ∧
    memState.acquiring leadWho = false ∧ (memState.globalAddr leadWho 5#7 none 8).toNat % 8 = 0 ∧
    (memState.globalAddr leadWho 5#7 none 64).toNat % 64 = 0 ∧ inCtl 0x1000 = false ∧
    (∃ s1, memState.xlat leadWho leadIssue.pc .write (memState.globalAddr leadWho 5#7 none 8) = (.ok 0x1000 true, s1)) ∧
    (∃ s1, memState.xlat leadWho leadIssue.pc .write (memState.globalAddr leadWho 5#7 none 64) = (.ok 0x1000 true, s1)) ∧
    ∃ s1, memState.xlat leadWho leadIssue.pc .read (memState.globalAddr leadWho 5#7 none 64) = (.ok 0x1000 true, s1) :=
  ⟨mem_runs _ rfl, mem_runs _ rfl, by decide +kernel, by decide +kernel, by decide +kernel, by decide +kernel, pair_of (by decide +kernel),
    pair_of (by decide +kernel), pair_of (by decide +kernel)⟩
/-- Meets the hypotheses of GlobalAtomics on the order of additions: finite addends within the sum, and none finite and nonzero. -/
theorem witness_GlobalAtomics_order :
    let finite (x : Nat) : Nat := match fp32.decode x with | .fin _ k => k | _ => 0
    [0x3F800000, 1].Perm [1, 0x3F800000] ∧ ([0x3F800000, 1].map finite).sum < 2 ^ 447 ∧
    [0x7F800000, 0x80000000].Perm [0x80000000, 0x7F800000] ∧ ∀ x ∈ [0x7F800000, 0x80000000], finite x = 0 := by decide +kernel
/-- A load of the lead strand is outstanding, and an operation of class 0. -/
def busyState : State :=
  (memState.addLoad { id := 0, who := leadWho, part := 0, pa := 0x1000, va := 0x1000#64, size := 8, dst := some (3, 1) }).modCore 0
    fun co => { co with ops := [{ newOp leadWho (.copy false) 0 with id := 9 }] }
/-- Meets the hypotheses of FencesAndDrains: nothing outstanding; and a load and a copy outstanding. -/
theorem witness_FencesAndDrains :
    (Runs memState leadIssue (.fenceAr 63#6 3#2) leadWho ∧ (memState.loadsDone leadWho && memState.atomsDone leadWho) = true ∧
     memState.releaseReady leadWho true = true ∧
     (memState.loadsDone leadWho && memState.ownStoresDone leadWho && memState.castsDone leadWho) = true ∧
     memState.opCount leadWho (4#6).toNat ≤ (0#6).toNat) ∧
    (Runs busyState leadIssue (.waitc 63#6 0#6 0#6) leadWho ∧ Alive busyState leadWho ∧
     (busyState.loadsDone leadWho && busyState.atomsDone leadWho) = false ∧ busyState.releaseReady leadWho false = false ∧
     (busyState.loadsDone leadWho && busyState.ownStoresDone leadWho && busyState.castsDone leadWho) = false ∧
     (0#6).toNat < busyState.opCount leadWho (0#6).toNat) :=
  ⟨⟨mem_runs _ rfl, by decide +kernel⟩, runs_of (by rfl) rfl rfl, alive_of (by decide +kernel), by decide +kernel⟩
/-- Meets the hypotheses of Barriers: a barrier that completed; a first arrival; a wait whose generation has passed. -/
theorem witness_Barriers :
    (let s := threadState.modStrand threadWho fun x => { x with wait := .barGo }
     Runs s threadIssue (.bar 63#6) threadWho ∧ (s.strand threadWho).wait = .barGo) ∧
    (let s := lead_ [(5, 2 ^ 24)]
     Runs s leadIssue (.gbara 63#6 5#7) leadWho ∧ Alive s leadWho ∧ s.launchOf leadWho.core leadWho.ctx = some placeLaunch ∧
     subgroup placeLaunch leadWho.core leadWho.tid.isNone (BitVec.ofNat 32 (s.reg leadWho 5#7)).toNat = some [0] ∧
     s.releaseReady leadWho true = true ∧ (trackedDescs s.sched.gens (s.slotOf leadWho.core leadWho.ctx) leadWho.core).length < 8) ∧
    (let s := (lead_ [(5, 2 ^ 24)]).modStrand leadWho fun x => { x with gens := [(BitVec.ofNat 32 (2 ^ 24), 3)] }
     Runs s leadIssue (.gbarw 63#6 5#7) leadWho ∧ (∀ e ∈ (s.strand leadWho).gens, e = (BitVec.ofNat 32 (s.reg leadWho 5#7), 3)) ∧
     (BitVec.ofNat 32 (s.reg leadWho 5#7), 3) ∈ (s.strand leadWho).gens ∧ s.genPassed leadWho.core 3 = true) :=
  ⟨⟨runs_of (by rfl) rfl rfl, by decide +kernel⟩, ⟨lead_runs _ _ (by rfl) rfl, alive_of (by decide +kernel), by decide +kernel⟩,
    runs_of (by rfl) rfl rfl, by decide +kernel⟩
/-- Meets the other hypotheses of Barriers: a thread that has not arrived, its release ready and not; a launch all of whose
threads have arrived, and one that has not; a second arrival at an open generation; a wait for one that has not passed. -/
theorem witness_Barriers_waits :
    (Runs threadState threadIssue (.bar 63#6) threadWho ∧ Alive threadState threadWho ∧ (threadState.strand threadWho).wait = .none ∧
     threadState.releaseReady threadWho false = true) ∧
    (let s := threadState.addLoad { id := 0, who := threadWho, part := 0, pa := 0x1000, va := 0x1000#64, size := 4, dst := some (3, 0) }
     Runs s threadIssue (.bar 63#6) threadWho ∧ (s.strand threadWho).wait = .none ∧ s.releaseReady threadWho false = false) ∧
    (let s := threadState.modStrand threadWho fun x => { x with wait := .barArrived }
     (s.core 0).resv.map (·.slot) = [0] ∧ s.launchThreads 0 0 ≠ [] ∧ ∀ x ∈ s.launchThreads 0 0, x.2.wait = .barArrived) ∧
    (threadState.launchThreads 0 0 ≠ [] ∧ ¬ ∀ x ∈ threadState.launchThreads 0 0, x.2.wait = .barArrived) ∧
    (let m : Gen := { id := 3, slot := 0, desc := BitVec.ofNat 32 (2 ^ 24 + 2 ^ 25), arrived := [(0, 1)] }
     let t := { thread_ [(5, 2 ^ 24 + 2 ^ 25)] with sched := { leadState.sched with gens := [m] } }
     let s := t.modStrand threadWho fun x => { x with gens := [(BitVec.ofNat 32 (2 ^ 24 + 2 ^ 25), 3)] }
     Runs s threadIssue (.gbara 63#6 5#7) threadWho ∧ (BitVec.ofNat 32 (s.reg threadWho 5#7)) ∈ trackedDescs s.sched.gens (s.slotOf 0 0) 0 ∧
     subgroup placeLaunch 0 false (BitVec.ofNat 32 (s.reg threadWho 5#7)).toNat = some [0] ∧
     (s.sched.gens.find? fun n => n.slot == s.slotOf 0 0 && n.desc == BitVec.ofNat 32 (s.reg threadWho 5#7) && n.done.isNone &&
      decide (tblGet 0 n.arrived 0 < arrivalsPerCore placeLaunch (2 ^ 24 + 2 ^ 25))) = some m ∧
     Runs s threadIssue (.gbarw 63#6 5#7) threadWho ∧ s.genPassed 0 3 = false) :=
  ⟨⟨runs_of (by rfl) rfl rfl, alive_of (by decide +kernel), by decide +kernel⟩, ⟨runs_of (by rfl) rfl rfl, by decide +kernel⟩,
    by decide +kernel, by decide +kernel, runs_of (by rfl) rfl rfl, by decide +kernel, by decide +kernel, by decide +kernel,
    runs_of (by rfl) rfl rfl, by decide +kernel⟩
/-- Meets the hypothesis of Barriers that a spilled context's threads have arrived, and its denial. -/
theorem witness_Barriers_spilled : ∀ wait ∈ [Wait.barArrived, .none],
    let task : Task := { slot := 0, lctx := 1, record := 0x2040#64, level := 0, deadline := 0#48, stamp := 1 }
    let x : Spilled := { key := 1, core := 0, task, part := 0, frame := 0, ready := 0
                         saved := { threads := [(32, some { str := { wait } })] } }
    let s : State := { threadState with sched := { threadState.sched with spilled := [x] } }
    x ∈ s.sched.spilled ∧ x.core = threadWho.core ∧ (∃ r ∈ (s.core 0).resv, x.task.slot = r.slot) ∧
    (x.saved.barred = true ↔ wait = .barArrived) := by decide +kernel
/-- R175: two arrivals at one core are counted in one generation while it is open. -/
theorem test_grid_barrier : after (.gbara 63#6 5#7) (lead_ [(5, 2 ^ 24)]) (fun t => t.sched.gens.map fun m => (m.desc, tblGet 0 m.arrived 0)) =
    some [(BitVec.ofNat 32 (2 ^ 24), 1)] := by decide +kernel
/-- One arrival and no bytes are owed; the reload half owes two arrivals and five bytes. -/
def arrival : Nat := 2 ^ 32 + (2 * 2 ^ 32 + 5) * 2 ^ 64
/-- The word stands at 0x100; s4 holds its offset, s2 one arrival, s6 and s7 what a fresh word is to owe. -/
def arrivalState : State := (lead_ [(4, 0x100), (2, 1), (6, 5), (7, 2)]).smemWrite 0 0 0x100 16 arrival
theorem arrival_runs (x : Instr) (h : x.guard = 63#6) : Runs arrivalState leadIssue x leadWho := runs_of (by rfl) rfl (by rw [h]; rfl)
theorem witness_ArrivalWords :
    (∀ x ∈ [Instr.awinit 63#6 4#7 6#7, .awadd 63#6 4#7 2#7, .awwait 63#6 4#7 0#1, .awtest 63#6 0#6 4#7], Runs arrivalState leadIssue x leadWho) ∧
    arrivalState.reg leadWho 4#7 % 2 ^ 22 = 0x100 ∧ 0x100 + 16 ≤ arrivalState.smemSize leadWho.core leadWho.ctx ∧
    arrivalState.acquiring leadWho = false ∧ (arrivalState.regs2 leadWho 6#7).2.toNat < 65536 ∧ (arrivalState.regs2 leadWho 6#7).2.toNat ≠ 0 ∧
    arrivalState.releaseReady leadWho false = true ∧ awSound (arrivalState.smemRead 0 (arrivalState.slotOf 0 0) 0x100 16) = true ∧
    0 < arrivalState.reg leadWho 2#7 ∧ arrivalState.reg leadWho 2#7 ≤ bitsOf (arrivalState.smemRead 0 (arrivalState.slotOf 0 0) 0x100 16) 32 16 ∧
    (arrivalState.smemRead 0 (arrivalState.slotOf 0 0) 0x100 16).testBit 63 = (0#1 == 1#1) :=
  ⟨fun x hx => arrival_runs x (by simp only [List.mem_cons, List.not_mem_nil, or_false] at hx; rcases hx with rfl | rfl | rfl | rfl <;> rfl),
    by decide +kernel⟩
/-- Meets the other hypotheses of ArrivalWords: a wait for the phase that has not come; a fresh word with too many arrivals and one that
owes nothing; no arrival asked and more than are owed; a word that is unsound. -/
theorem witness_ArrivalWords_misuse :
    (arrivalState.smemRead 0 (arrivalState.slotOf 0 0) 0x100 16).testBit 63 ≠ (1#1 == 1#1) ∧
    (let s := with_ leadWho arrivalState [(7, 65536), (2, 0), (3, 2)]
     Alive s leadWho ∧ s.acquiring leadWho = false ∧ 65536 ≤ (s.regs2 leadWho 6#7).2.toNat ∧
     ((s.regs2 leadWho 8#7).2.toNat = 0 ∧ (s.regs2 leadWho 8#7).1.toNat = 0) ∧ s.reg leadWho 2#7 = 0 ∧
     bitsOf (s.smemRead 0 (s.slotOf 0 0) 0x100 16) 32 16 < s.reg leadWho 3#7 ∧ s.releaseReady leadWho false = true ∧
     trapOf (.awinit 63#6 4#7 8#7) s = some [7] ∧ trapOf (.awadd 63#6 4#7 3#7) s = some [7]) ∧
    (let s := arrivalState.smemWrite 0 0 0x100 16 (2 ^ 62)
     awSound (s.smemRead 0 (s.slotOf 0 0) 0x100 16) = false ∧ Alive s leadWho ∧ Runs s leadIssue (.awwait 63#6 4#7 0#1) leadWho ∧
     Runs s leadIssue (.awtest 63#6 0#6 4#7) leadWho ∧ trapOf (.awtest 63#6 0#6 4#7) s = some [7]) :=
  ⟨by decide +kernel, ⟨alive_of (by decide +kernel), by decide +kernel⟩, by decide +kernel, alive_of (by decide +kernel),
    runs_of (by rfl) rfl rfl, runs_of (by rfl) rfl rfl, by decide +kernel⟩
/-- R178: the last arrival turns the phase and reloads both counts. -/
theorem test_arrival : after (.awadd 63#6 4#7 2#7) arrivalState (fun t => t.smemRead 0 0 0x100 16) =
    some (2 ^ 63 + (2 * 2 ^ 32 + 5) + (2 * 2 ^ 32 + 5) * 2 ^ 64) ∧
    after (.awinit 63#6 4#7 6#7) arrivalState (fun t => t.smemRead 0 0 0x100 16) = some ((2 * 2 ^ 32 + 5) * (1 + 2 ^ 64)) ∧
    after (.awtest 63#6 3#6 4#7) arrivalState (fun t => t.pred leadWho 3) = some false := by decide +kernel
/-- Meets the hypotheses of ArrivalCounts: the last arrival with no bytes owed, and one that leaves arrivals owed. -/
theorem witness_ArrivalCounts : (arrival < 2 ^ 128 ∧ awSound arrival = true ∧ 0 < 1 ∧ 1 ≤ bitsOf arrival 32 16 ∧ 1 = bitsOf arrival 32 16 ∧
    bitsOf arrival 0 32 = 0) ∧ (let v := arrival + 2 ^ 32 + 7
    v < 2 ^ 128 ∧ awSound v = true ∧ 1 ≤ bitsOf v 32 16 ∧ 1 < bitsOf v 32 16 ∧ bitsOf v 0 32 ≠ 0) := by decide +kernel

/-! ### Engines, records, items -/

/-- A descriptor at 0x400; s4 holds its offset. -/
def descIssue (size d : Nat) : Issue := { leadIssue with seen := writeBytes [] 0x400 size d }
def descState (size d : Nat) : State := { (lead_ [(4, 0x400)]).smemWrite 0 0 0x400 size d with cur := some (descIssue size d) }
/-- The bundle that is being issued. -/
def issueOf (s : State) : Issue := s.cur.getD {}
/-- The descriptor at 0x400, as it stood when the cycle began. -/
def descOf (s : State) (n : Nat) : Nat := readBytes (issueOf s).seen 0x400 n
theorem desc_runs (size d : Nat) (x : Instr) (h : x.guard = 63#6) : Runs (descState size d) (issueOf (descState size d)) x leadWho := runs_of (by rfl) rfl (by rw [h]; rfl)
/-- Sixteen bytes from 0x200 to 0x300 of the scratchpad, status at 0x100, no arrival word. -/
def copyDesc : Nat := packBytes [(0, 8, 0x200), (8, 8, 0x300), (16, 4, 16), (20, 2, 1), (22, 2, 1), (40, 4, 0xFFFFFFFF), (44, 4, 0x100), (52, 4, 5)]
/-- Two elements at address 0 by the indices at 0x200, to 0x300. -/
def gathDesc : Nat := packBytes [(8, 4, 0x200), (12, 4, 2), (16, 4, 0x300), (20, 4, 0xFFFFFFFF), (24, 4, 0x100)]
/-- A ray or a query whose root is 0 and whose result goes to 0x100. -/
def rayDesc : Nat := packBytes [(28, 4, 1), (40, 4, 0x100), (44, 4, 0xFFFFFFFF)]
def refitDesc : Nat := packBytes [(8, 4, 1), (16, 4, 0xFFFFFFFF)]
def drawDesc : Nat := packBytes [(28, 2, 8), (30, 2, 8), (48, 4, 0xFFFFFFFF), (52, 4, 0x100)]
/-- Pair 0 loads E5M2 weights of 64 rows of 64 bytes from 0x1000 of the scratchpad. -/
def ldwDesc : Nat := 0x1000 + 64 * 2 ^ 64 + 1 * 2 ^ 103
/-- One row of A at 0x200, of C at 0x1000, K as shape 4 of pair 0 has it. -/
def mxqDesc : Nat := 0x200 + 64 * 2 ^ 32 + 0x1000 * 2 ^ 64 + 256 * 2 ^ 96 + 1 * 2 ^ 128 + 64 * 2 ^ 152 + 0xFFFFFFFF * 2 ^ 256

/-- Whether a check passes, as a test of its lists. -/
def passesB (c : EngCheck) (window : Nat) : Bool :=
  (c.ranges.all fun r => decide (r.1 + r.2 ≤ window)) && (c.aligned.all fun r => r.1 % r.2 == 0) && !c.illegal
theorem passes_of {c : EngCheck} {n : Nat} (h : passesB c n = true) : c.passes n := by
  simp only [passesB, Bool.and_eq_true, List.all_eq_true, decide_eq_true_eq, beq_iff_eq, Bool.not_eq_true'] at h
  exact ⟨h.1.1, h.1.2, h.2⟩

theorem witness_EngineCommandsAccepted :
    (let s := descState 64 copyDesc
     Runs s (issueOf s) (.cpy 63#6 4#7) leadWho ∧ Runs s (issueOf s) (.cpyTag 63#6 4#7) leadWho ∧ s.reg leadWho 4#7 % 2 ^ 22 = 0x400 ∧
     0x400 + 64 ≤ s.smemSize leadWho.core leadWho.ctx ∧ s.acquiring leadWho = false ∧
     (s.copyCheck leadWho true (descOf s 64)).passes (s.smemSize leadWho.core leadWho.ctx) ∧
     s.heldOps leadWho.core isCopy < 64 ∧ s.opCount leadWho 0 < 63 ∧ s.engineSees leadWho = true) ∧
    (let s := descState 32 gathDesc
     Runs s (issueOf s) (.gath 63#6 4#7 0#2) leadWho ∧ (gathCheck (gathSize 0#2) (descOf s 32)).passes (s.smemSize 0 0) ∧
     s.heldOps 0 isGather < 32 ∧ s.opCount leadWho 1 < 63) ∧
    (let s := descState 64 rayDesc
     Runs s (issueOf s) (.ray 63#6 4#7) leadWho ∧ Runs s (issueOf s) (.rayAny 63#6 4#7) leadWho ∧ Runs s (issueOf s) (.ovlp 63#6 4#7) leadWho ∧
     (rayCheck (descOf s 64)).passes (s.smemSize 0 0) ∧ (ovlpCheck (descOf s 64)).passes (s.smemSize 0 0) ∧
     decide (128 ≤ s.heldOps 0 isRayQueue) = false ∧ s.opCount leadWho 3 < 63) ∧
    (let s := descState 32 refitDesc
     Runs s (issueOf s) (.refit 63#6 4#7) leadWho ∧ (refitCheck (descOf s 32)).passes (s.smemSize 0 0)) ∧
    (let s := descState 64 drawDesc
     Runs s (issueOf s) (.draw 63#6 4#7) leadWho ∧ Runs s (issueOf s) (.drawEz 63#6 4#7) leadWho ∧ (s.ctx 0 0).closing = false ∧ (s.ctx 0 0).closed = false ∧
     (drawCheck (descOf s 64)).passes (s.smemSize 0 0) ∧ decide (8 ≤ s.drawsHeld (coreDie 0)) = false ∧ s.opCount leadWho 4 < 63) ∧
    (let s := descState 32 0
     Runs s (issueOf s) (.cbload 63#6 7#6 4#7) leadWho ∧ s.opCount leadWho 2 < 63 ∧ (s.launchOf 0 0).map Launch.mxe = some true ∧ s.matrixHeld 0 < 16) :=
  ⟨⟨desc_runs _ _ _ rfl, desc_runs _ _ _ rfl, by decide +kernel, by decide +kernel, by decide +kernel, passes_of (by decide +kernel),
      by decide +kernel, by decide +kernel, by decide +kernel⟩,
    ⟨desc_runs _ _ _ rfl, passes_of (by decide +kernel), by decide +kernel, by decide +kernel⟩,
    ⟨desc_runs _ _ _ rfl, desc_runs _ _ _ rfl, desc_runs _ _ _ rfl, passes_of (by decide +kernel), passes_of (by decide +kernel),
      by decide +kernel, by decide +kernel⟩,
    ⟨desc_runs _ _ _ rfl, passes_of (by decide +kernel)⟩,
    ⟨desc_runs _ _ _ rfl, desc_runs _ _ _ rfl, by decide +kernel, by decide +kernel, passes_of (by decide +kernel), by decide +kernel,
      by decide +kernel⟩,
    desc_runs _ _ _ rfl, by decide +kernel⟩
/-- R183: a range comes before an alignment, and an alignment before an illegal field. -/
theorem test_descriptor_checks : trapOf (.refit 63#6 4#7) (descState 32 0) = some [5] ∧ trapOf (.cpy 63#6 4#7) (descState 64 (copyDesc + 2 ^ 448)) = some [5] ∧
    trapOf (.ray 63#6 4#7) (descState 64 (rayDesc + 2 ^ 320)) = some [3] ∧ trapOf (.gath 63#6 4#7 0#2) (descState 32 (gathDesc + 2 ^ 90)) = some [4] ∧
    trapOf (.cpy 63#6 4#7) (lead_ [(4, 0x420)]) = some [3] := by decide +kernel
theorem witness_MatrixCommands :
    (let s := descState 16 ldwDesc
     s.holdsNeedle leadWho = true ∧ (∀ x ∈ [Instr.mxcfg 63#6 5#7, .mxldw 63#6 4#7, .mxdrain 63#6, .ntake 63#6, .npass 63#6, .ntest 63#6 3#7],
      Runs s (issueOf s) x leadWho) ∧ s.reg leadWho 5#7 % 8 < 5 ∧ s.heldOps leadWho.core isTileOrLoad = 0 ∧
     s.reg leadWho 5#7 % 8 = (s.core 0).mx.pair ∧ s.reg leadWho 4#7 % 2 ^ 22 = 0x400 ∧ s.opCount leadWho 2 < 63 ∧ s.matrixHeld 0 < 16 ∧ s.engineSees leadWho = true ∧
     (ldwCheck (s.core 0).mx.pair (descOf s 16)).passes (s.smemSize 0 0) ∧ (s.core 0).ops = []) ∧
    (let s := lead_ [(4, 4)]
     Runs s leadIssue (.mxshape 63#6 4#7) leadWho ∧ s.holdsNeedle leadWho = true ∧ 1 ≤ s.reg leadWho 4#7 ∧ s.reg leadWho 4#7 ≤ 4 ∧
     Runs s leadIssue (.mxcfg 63#6 4#7) leadWho ∧ s.reg leadWho 4#7 % 8 ≠ (s.core 0).mx.pair) ∧
    (let s := (descState 64 mxqDesc).modMx 0 fun m => { m with fmtAcc := some 0 }
     Runs s (issueOf s) (.mxq 63#6 4#7) leadWho ∧ s.holdsNeedle leadWho = true ∧
     (mxqCheck (s.core 0).mx (descOf s 64)).passes (s.smemSize 0 0)) ∧
    (let s := descState 16 0
     Runs s (issueOf s) (.cpys 63#6 3#7 4#7) leadWho ∧ 0x400 % 16 = 0 ∧ 0x400 + 16 ≤ s.smemSize leadWho.core leadWho.ctx) :=
  ⟨⟨by decide +kernel, fun x hx => desc_runs _ _ x (by
      simp only [List.mem_cons, List.not_mem_nil, or_false] at hx; rcases hx with rfl | rfl | rfl | rfl | rfl | rfl <;> rfl),
      by decide +kernel, by decide +kernel, by decide +kernel, by decide +kernel, by decide +kernel, by decide +kernel,
      by decide +kernel, passes_of (by decide +kernel), by decide +kernel⟩,
    ⟨lead_runs _ _ (by rfl) rfl, by decide +kernel, by decide +kernel, by decide +kernel, lead_runs _ _ (by rfl) rfl, by decide +kernel⟩,
    ⟨runs_of (by rfl) rfl rfl, by decide +kernel, passes_of (by decide +kernel)⟩,
    desc_runs _ _ _ rfl, by decide +kernel⟩
/-- R198: NTEST reads the context that holds the needle and the launch context's number. -/
theorem test_needle : after (.ntest 63#6 3#7) leadState (fun t => t.reg leadWho 3#7) = some 0 ∧
    after (.ntest 63#6 3#7) (leadState.modMx 0 fun m => { m with needle := 2 }) (fun t => t.reg leadWho 3#7) = some 40 := by decide +kernel

/-- Physical memory that is the device's, with tables that map the first GiB onto itself; s5 holds 0x2000, s6 1 and s7 2. -/
def tabled : State :=
  let s := lead_ [(5, 0x2000), (6, 1), (7, 2)]
  { s with
    mem := [(0, 0x3001), (0x3000, 0x4001), (0x4000, 0x1DF)].foldl (fun m e => writeBytes m e.1 8 e.2) s.mem
    homes := { s.homes with regions := [(0, .acc)] } }
theorem tabled_runs (x : Instr) (h : x.guard = 63#6) : Runs tabled leadIssue x leadWho := runs_of (by rfl) rfl (by rw [h]; rfl)
/-- `tabled` with a record or launch record at 0x2000. -/
def recState (n v : Nat) : State := { tabled with mem := writeBytes tabled.mem 0x2000 n v }
theorem rec_runs (n v : Nat) (x : Instr) (h : x.guard = 63#6) : Runs (recState n v) leadIssue x leadWho := runs_of (by rfl) rfl (by rw [h]; rfl)
/-- A launch of one core and no threads, whose entry record is at 0x2000. -/
def smallLaunch : Nat := packBytes [(0, 8, 0x2000), (32, 8, 64), (64, 8, 2 ^ 16 + 2 ^ 24)]

/-- Meets the hypotheses of RecordInstructions: JOIN counts of 0, 1 and 2. -/
theorem witness_RecordInstructions :
    (let s := recState 64 0
     s.releaseReady leadWho true = true ∧ s.acquiring leadWho = false ∧ (s.reg64 leadWho 5#7).toNat % 64 = 0 ∧
     Runs s leadIssue (.tenq 63#6 5#7) leadWho ∧ Runs s leadIssue (.tdec 63#6 5#7) leadWho ∧
     inCtl 0x2000 = false ∧
     ∃ s1, s.xlat leadWho leadIssue.pc .read (s.reg64 leadWho 5#7) = (.ok 0x2000 true, s1) ∧ ∃ s2, s1.reachHome (.strand leadWho leadIssue.pc) leadWho false 0x2000 = (true, s2) ∧ s2.acquiring leadWho = false ∧
      ∃ s3, s2.xlat leadWho leadIssue.pc .write (s.reg64 leadWho 5#7) = (.ok 0x2000 true, s3) ∧ ∃ u, s3.reachHome (.strand leadWho leadIssue.pc) leadWho true 0x2000 = (true, u) ∧
      u.poisonAt 0x2000 = 0 ∧ u.launchOf leadWho.core leadWho.ctx = some placeLaunch ∧
      recSound (u.homeRead 0x2000 64) = true ∧ u.queueUse (u.slotOf leadWho.core leadWho.ctx) < placeLaunch.tqn) ∧
    (∃ s1, (recState 64 0).xlat leadWho leadIssue.pc .write ((recState 64 0).reg64 leadWho 5#7) = (.ok 0x2000 true, s1) ∧ ∃ s2, s1.reachHome (.strand leadWho leadIssue.pc) leadWho true 0x2000 = (true, s2) ∧
      s2.homeRead (0x2000 + 16) 8 % 2 ^ 32 = 0) ∧
    (∃ s1, (recState 64 (2 ^ 128)).xlat leadWho leadIssue.pc .write ((recState 64 (2 ^ 128)).reg64 leadWho 5#7) = (.ok 0x2000 true, s1) ∧
      ∃ s2, s1.reachHome (.strand leadWho leadIssue.pc) leadWho true 0x2000 = (true, s2) ∧ s2.homeRead (0x2000 + 16) 8 % 2 ^ 32 = 1) ∧
    (∃ s1, (recState 64 (2 ^ 129)).xlat leadWho leadIssue.pc .write ((recState 64 (2 ^ 129)).reg64 leadWho 5#7) = (.ok 0x2000 true, s1) ∧
      ∃ s2, s1.reachHome (.strand leadWho leadIssue.pc) leadWho true 0x2000 = (true, s2) ∧ s2.homeRead (0x2000 + 16) 8 % 2 ^ 32 = 2) :=
  ⟨⟨by decide +kernel, by decide +kernel, by decide +kernel, rec_runs _ _ _ rfl, rec_runs _ _ _ rfl, by decide +kernel,
      pair_with (by decide +kernel) (pair_with (by decide +kernel) ⟨by decide +kernel, pair_with (by decide +kernel)
        (pair_with (by decide +kernel) (by decide +kernel))⟩)⟩,
    pair_with (by decide +kernel) (pair_with (by decide +kernel) (by decide +kernel)),
    pair_with (by decide +kernel) (pair_with (by decide +kernel) (by decide +kernel)),
    pair_with (by decide +kernel) (pair_with (by decide +kernel) (by decide +kernel))⟩
/-- Meets the hypotheses of LaunchInstruction: a sound record; one of zeros, which is refused with reason 2; four pending
entries with an overflow queue that is full or has room. -/
def smallEntry : Nat := packBytes [(0, 8, 0x2000), (32, 8, 64)]
/-- The hypotheses of LaunchInstruction at a state whose record and entry are as given. -/
def launches (s : State) (entry : EntryRead) (P : State → State → Prop) : Prop :=
  let by_ : Agent := .strand leadWho leadIssue.pc
  Runs s leadIssue (.lnch 63#6 3#7 5#7) leadWho ∧ s.releaseReady leadWho true = true ∧ s.acquiring leadWho = false ∧
  (s.reg64 leadWho 5#7).toNat % 128 = 0 ∧ ∃ s1, s.xlat leadWho leadIssue.pc .read (s.reg64 leadWho 5#7) = (.ok 0x2000 true, s1) ∧
    ∃ u0, s1.reachHome by_ leadWho false 0x2000 = (true, u0) ∧ ∃ u, u0.reachHome by_ leadWho false (0x2000 + 64) = (true, u) ∧
    u.poisonAt 0x2000 = 0 ∧ u.poisonAt (0x2000 + 64) = 0 ∧
    ∃ s3, u.entryRecord by_ (coreDie leadWho.core) (u.partOf leadWho.core leadWho.ctx) (!u.privileged leadWho) (u.homeRead 0x2000 128) =
      (entry, s3) ∧ P u s3
def reasonOf (u s3 : State) (entry : EntryRead) : Nat :=
  s3.checkLaunch (u.homeRead 0x2000 128) (u.partOf leadWho.core leadWho.ctx) (u.privileged leadWho) (entry.found.map (·.2))
/-- Four pending entries, and an overflow queue of oqn records at 0x2800. -/
def fullState (oqn : Nat) : State :=
  let full := { addr := 0x2000#64, bits := smallLaunch, user := false }
  let s := (recState 128 smallLaunch).modCtx 0 0 fun x => { x with pending := List.replicate 4 full }
  { s with launches := [(0, some { placeLaunch with bits := placeLaunch.bits + (0x2800 + oqn * 2 ^ 64) * 2 ^ 384 })] }
theorem witness_LaunchInstruction :
    launches (recState 128 smallLaunch) (.ok 0x2000 smallEntry) (fun u s3 => reasonOf u s3 (.ok 0x2000 smallEntry) = 0 ∧
      (s3.ctx leadWho.core leadWho.ctx).pending.length < 4) ∧
    launches (recState 128 0) (.ok 0 0x3001) (fun u s3 => reasonOf u s3 (.ok 0 0x3001) = 2) :=
  ⟨⟨rec_runs _ _ _ rfl, by decide +kernel, by decide +kernel, by decide +kernel, pair_with (by decide +kernel) (pair_with (by decide +kernel)
      (pair_with (by decide +kernel) ⟨by decide +kernel, by decide +kernel, pair_with (by decide +kernel) (by decide +kernel)⟩))⟩,
    ⟨rec_runs _ _ _ rfl, by decide +kernel, by decide +kernel, by decide +kernel, pair_with (by decide +kernel) (pair_with (by decide +kernel)
      (pair_with (by decide +kernel) ⟨by decide +kernel, by decide +kernel, pair_with (by decide +kernel) (by decide +kernel)⟩))⟩⟩
theorem witness_LaunchInstruction_full :
    launches (fullState 0) (.ok 0x2000 smallEntry) (fun u s3 => reasonOf u s3 (.ok 0x2000 smallEntry) = 0 ∧
      4 ≤ (s3.ctx leadWho.core leadWho.ctx).pending.length ∧ (s3.launchOf leadWho.core leadWho.ctx).map (fun l => decide (l.oqn ≤ l.ovTail - l.ovHead)) = some true) ∧
    launches (fullState 1) (.ok 0x2000 smallEntry) (fun u s3 => reasonOf u s3 (.ok 0x2000 smallEntry) = 0 ∧
      4 ≤ (s3.ctx leadWho.core leadWho.ctx).pending.length ∧ ∃ l, s3.launchOf leadWho.core leadWho.ctx = some l ∧
      l.ovTail - l.ovHead < l.oqn ∧ s3.acquiring leadWho = false ∧
      ∃ s4, s3.xlat leadWho leadIssue.pc .write (BitVec.ofNat 64 (l.oqb + 128 * (l.ovTail % l.oqn))) = (.ok 0x2800 true, s4) ∧
      ∃ s5, s4.reachHome (.strand leadWho leadIssue.pc) leadWho true 0x2800 = (true, s5) ∧
      ∃ s6, s5.reachHome (.strand leadWho leadIssue.pc) leadWho true (0x2800 + 64) = (true, s6) ∧
      s6.poisonAt 0x2800 = 0 ∧ s6.poisonAt (0x2800 + 64) = 0) :=
  ⟨⟨runs_of (by rfl) rfl rfl, by decide +kernel, by decide +kernel, by decide +kernel, pair_with (by decide +kernel) (pair_with (by decide +kernel)
      (pair_with (by decide +kernel) ⟨by decide +kernel, by decide +kernel, pair_with (by decide +kernel) (by decide +kernel)⟩))⟩,
    ⟨runs_of (by rfl) rfl rfl, by decide +kernel, by decide +kernel, by decide +kernel, pair_with (by decide +kernel) (pair_with (by decide +kernel)
      (pair_with (by decide +kernel) ⟨by decide +kernel, by decide +kernel, pair_with (by decide +kernel)
        ⟨by decide +kernel, by decide +kernel, some_with (by decide +kernel) ⟨by decide +kernel, by decide +kernel,
          pair_with (by decide +kernel) (pair_with (by decide +kernel) (pair_with (by decide +kernel) (by decide +kernel)))⟩⟩⟩))⟩⟩
/-- Meets the hypotheses of DeadlineSet: no task, and a task whose record's line is sound or holds poison. -/
theorem witness_DeadlineSet :
    (let s := tabled.modCtx 0 0 fun x => { x with task := none }
     Runs s leadIssue (.setdl 63#6 6#7) leadWho ∧ (s.ctx 0 0).task = none) ∧
    (∀ e ∈ [0, 2], let s : State := { tabled with homes := { tabled.homes with poison := if e = 0 then [] else [(0x2000 / 64, e)] } }
     Runs s leadIssue (.setdl 63#6 6#7) leadWho ∧ s.acquiring leadWho = false ∧
     ∃ k, (s.ctx leadWho.core leadWho.ctx).task = some k ∧
      ∃ s1, s.xlat leadWho leadIssue.pc .write (k.record + 24#64) = (.ok 0x2018 true, s1) ∧
      ∃ s2, s1.reachHome (.strand leadWho leadIssue.pc) leadWho true 0x2018 = (true, s2) ∧ s2.poisonAt 0x2018 = e) := by
  refine ⟨⟨runs_of (by rfl) rfl rfl, by decide +kernel⟩, fun e he => ?_⟩
  simp only [List.mem_cons, List.not_mem_nil, or_false] at he
  rcases he with rfl | rfl <;>
    exact ⟨runs_of (by rfl) rfl rfl, by decide +kernel, some_with (by decide +kernel)
      (pair_with (by decide +kernel) (pair_with (by decide +kernel) (by decide +kernel)))⟩
theorem test_launch : after (.lnch 63#6 3#7 5#7) (recState 128 0) (fun t => t.reg leadWho 3#7) = some 0x22 ∧
    after (.tdec 63#6 5#7) (recState 64 (2 ^ 129)) (fun t => readBytes t.mem 0x2010 8) = some 1 ∧
    after (.tdec 63#6 5#7) (recState 64 0) (fun t => readBytes t.mem 0x2010 8) = some (2 ^ 36) ∧
    after (.tenq 63#6 5#7) (recState 64 (2 ^ 128)) (fun t => t.sched.recs.map fun r => (r.addr, r.ready)) = some [(0x2000#64, none)] ∧
    after (.setdl 63#6 6#7) tabled (fun t => readBytes t.mem 0x2018 8) = some 1 := by decide +kernel

/-- s1 counts 33 threads from warp 0; s2 is their entry, s4 their argument. -/
def waveState : State :=
  { lead_ [(1, 33), (2, 0x4000), (4, 0x700000005)] with
    launches := [(0, some { placeLaunch with bits := packBytes [(64, 8, 2 ^ 16 + 2 ^ 24 + 2 ^ 45 + 2 ^ 46), (72, 8, 64 + 3 * 2 ^ 11 + 0x100000 * 2 ^ 16)] })] }
/-- Meets the hypotheses of ItemsAndWaves: an open queue with room and an item; an empty and closed one; 33 threads. -/
theorem witness_ItemsAndWaves :
    (Runs leadState leadIssue (.iqpush 63#6 5#7) leadWho ∧ (leadState.ctx 0 0).closing = false ∧ (leadState.ctx 0 0).closed = false ∧
     (leadState.ctx 0 0).queue.length < 256 ∧ Runs leadState leadIssue (.iqclose 63#6) leadWho ∧ Runs leadState leadIssue (.wavew 63#6) leadWho ∧
     (leadState.ctx 0 0).threads = []) ∧
    (Runs waveState leadIssue (.wave 63#6 1#7 2#7 4#7) leadWho ∧ (waveState.launchOf 0 0).isSome = true ∧ waveState.reg leadWho 1#7 < 2 ^ 21 ∧
     0 < waveState.reg leadWho 1#7 % 2 ^ 16 ∧ ((waveState.launchOf 0 0).map fun l => decide (32 * (waveState.reg leadWho 1#7 / 2 ^ 16 % 2 ^ 5) +
      waveState.reg leadWho 1#7 % 2 ^ 16 ≤ l.thr)) = some true ∧ (waveState.reg64 leadWho 2#7).toNat % 4 = 0 ∧
     waveState.releaseReady leadWho false = true ∧ waveState.warpsIdle 0 (waveState.slotOf 0 0) 0 2 = true) ∧
    (let s := leadState.modCtx 0 0 fun x => { x with queue := [5#64, 6#64], fresh := 1 }
     Runs s leadIssue (.item 63#6 3#7 (.short 4#12)) leadWho ∧ (s.ctx 0 0).queue = 5#64 :: [6#64] ∧ (s.ctx 0 0).fresh < (s.ctx 0 0).queue.length) ∧
    (let s := leadState.modCtx 0 0 fun x => { x with closed := true }
     Runs s leadIssue (.item 63#6 3#7 (.short 4#12)) leadWho ∧ (s.ctx 0 0).queue = [] ∧ (s.ctx 0 0).closed = true) :=
  ⟨⟨runs_of rfl rfl rfl, by decide +kernel, by decide +kernel, by decide +kernel, runs_of rfl rfl rfl, runs_of rfl rfl rfl, by decide +kernel⟩,
    ⟨runs_of (by rfl) rfl rfl, by decide +kernel⟩, ⟨runs_of (by rfl) rfl rfl, by decide +kernel⟩, runs_of (by rfl) rfl rfl, by decide +kernel⟩
/-- R225: thread 32 starts at the entry with the argument's halves in g0 and g1 and its number in g2; 33 threads need two warps. -/
theorem test_wave : after (.wave 63#6 1#7 2#7 4#7) waveState (fun t => ((t.ctx 0 0).liveTids.length, [0, 1, 2].map fun r =>
      t.reg { core := 0, ctx := 0, tid := some 32 } (BitVec.ofNat 7 r))) = some (33, [5, 7, 32]) := by decide +kernel
theorem test_items : after (.item 63#6 3#7 (.short 4#12)) (leadState.modCtx 0 0 fun x => { x with queue := [5#64, 6#64] })
      (fun t => (t.reg leadWho 3#7, (t.ctx 0 0).queue)) = some (5, [6#64]) ∧
    after (.item 63#6 3#7 (.short 4#12)) (leadState.modCtx 0 0 fun x => { x with closed := true })
      (fun t => (t.strand leadWho).pc) = some 0x1010#64 ∧
    after (.iqpush 63#6 5#7) (lead_ [(5, 9)]) (fun t => (t.ctx 0 0).queue) = some [9#64] := by decide +kernel
/-- Meets the hypotheses of SillageInstructions: a scratchpad tile of 64 bytes at 0x200. -/
theorem witness_SillageInstructions :
    let s := descState 16 (7 + 64 * 2 ^ 32 + 0x200 * 2 ^ 64)
    Runs s (issueOf s) (.restag 63#6 3#7 4#7) leadWho ∧ Runs s (issueOf s) (.resq 63#6 3#7 4#7) leadWho ∧ Runs s (issueOf s) (.resdrop 63#6 4#7) leadWho ∧
    s.reg leadWho 4#7 % 2 ^ 22 = 0x400 ∧ 0x400 + 16 ≤ s.smemSize leadWho.core leadWho.ctx ∧ s.acquiring leadWho = false ∧
    (let v := descOf s 16
     v.testBit 127 = false ∧ bitsOf v 64 22 + bitsOf v 32 32 ≤ s.smemSize leadWho.core leadWho.ctx ∧ bitsOf v 32 32 ≠ 0 ∧ bitsOf v 86 41 = 0) :=
  ⟨desc_runs _ _ _ rfl, desc_runs _ _ _ rfl, desc_runs _ _ _ rfl, by decide +kernel⟩
/-- Meets the clause of SillageInstructions on a pin: two lines of the window's untranslated space. -/
theorem witness_SillageInstructions_pin :
    let s := descState 16 (7 + 128 * 2 ^ 32 + 0x1000 * 2 ^ 64 + 2 ^ 127)
    let v := descOf s 16
    Runs s (issueOf s) (.restag 63#6 3#7 4#7) leadWho ∧ v.testBit 127 = true ∧ bitsOf v 121 6 = 0 ∧ bitsOf v 64 57 % 64 = 0 ∧
    (∀ n < max 1 ((bitsOf v 32 32 + 63) / 64), s.xlat leadWho leadIssue.pc .read (sext57 (bitsOf v 64 57) + BitVec.ofNat 64 (64 * n)) =
      (.ok (64 * (0x40 + n)) true, s) ∧ inCtl (64 * (0x40 + n)) = false) ∧
    ∀ n, n + 1 < max 1 ((bitsOf v 32 32 + 63) / 64) → 0x40 + (n + 1) = 0x40 + n + 1 :=
  ⟨desc_runs _ _ _ rfl, by decide +kernel, by decide +kernel, by decide +kernel, by decide +kernel, fun n _ => by omega⟩
theorem test_sillage : after (.resq 63#6 3#7 4#7) ((lead_ [(4, 7)]).setSillage 0 [{ part := 0, tile := 7#32, pin := false, core := 3, addr := 0, bytes := 64, slot := 0 }])
    (fun t => t.reg leadWho 3#7) = some (2 ^ 63 + 3 * 2 ^ 32 + 64) ∧
    after (.restag 63#6 3#7 4#7) (descState 16 (7 + 64 * 2 ^ 32 + 0x200 * 2 ^ 64)) (fun t => (t.reg leadWho 3#7, (t.sillage 0).map (·.addr))) =
      some (0, [0x200]) := by decide +kernel
/-- Meets the hypotheses of RegistersReadAndWritten. -/
theorem witness_RegistersReadAndWritten :
    Runs threadState threadIssue (.movsr 63#6 2#7 14#6) threadWho ∧ specialLegal threadWho (14#6).toNat = true ∧ specialLegal threadWho (9#6).toNat = true ∧
    Runs leadState leadIssue (.csrr 63#6 3#7 0x804#12) leadWho ∧ csrAssigned 0x804#12 = true ∧ leadState.csrAllowed leadWho (0x804#12).toNat false = true ∧
    Runs leadState leadIssue (.csrw 63#6 3#7 0x801#12) leadWho ∧ csrAssigned 0x801#12 = true ∧ leadState.privileged leadWho = true ∧
    leadState.csrAllowed leadWho (0x801#12).toNat true = true ∧ threadWho.tid = some 0 ∧ leadState.launchOf 0 0 = some placeLaunch :=
  ⟨runs_of rfl rfl rfl, by decide +kernel, by decide +kernel, runs_of rfl rfl rfl, by decide +kernel, by decide +kernel, runs_of rfl rfl rfl,
    by decide +kernel, by decide +kernel, by decide +kernel, rfl, by decide +kernel⟩
/-- Meets the clauses of RegistersReadAndWritten on SAVEBASE: one frame, whose header can be read, or must be waited for. -/
theorem witness_RegistersReadAndWritten_savebase : ∀ here ∈ [true, false],
    let s := { tabled with savebase := 0x400001#64, homes := { tabled.homes with regions := if here then [(0, .acc), (2, .acc)] else [(0, .acc)] } }
    s.cur = some leadIssue ∧ s.guardOk leadWho 63#6 = true ∧ s.privileged leadWho = true ∧ csrAssigned 0x804#12 = true ∧
    s.csrAllowed leadWho (0x804#12).toNat true = true ∧ s.frameCount = 1 ∧
    (s.writeSavebase (.strand leadWho leadIssue.pc) (s.reg64 leadWho 3#7)).1 = here := by decide +kernel
/-- R70: TRAPVEC drops its reserved bits; R69: CORE.ID of core (0, 0) and CTX.ID. -/
theorem test_registers : after (.csrw 63#6 5#7 0x801#12) (lead_ [(5, 0xFFFFFFFFFFFFFFFF)]) (fun t => (t.core 0).trapvec) = some 0x1FFFFFFFFFFC001#64 ∧
    after (.movsr 63#6 3#7 5#6) (lead_ [(3, 9)]) (fun t => t.reg leadWho 3#7) = some 0 ∧
    after (.csrr 63#6 3#7 0x802#12) leadState (fun t => t.reg leadWho 3#7) = some 1024 := by decide +kernel
/-- A launch that is not privileged. -/
def userState : State := { leadState with launches := [(0, some { placeLaunch with bits := packBytes [(64, 8, 2 ^ 16 + 2 ^ 24)] })] }
theorem witness_PrivilegeTraps : IssuingOne userState leadIssue leadWho ∧ Alive userState leadWho ∧ userState.privileged leadWho = false ∧
    csrAssigned 0x801#12 = true := ⟨⟨rfl, rfl⟩, alive_of (by decide +kernel), by decide +kernel, by decide +kernel⟩
theorem test_privilege : trapOf (.csrw 0#6 3#7 0x801#12) userState = some [2] ∧ trapOf (.tlbinv 63#6 3#7) userState = some [2] := by decide +kernel
/-- `tabled` in handler mode, a bundle of one word at 0x1000. -/
def handlerState : State :=
  { tabled with mem := writeBytes tabled.mem 0x1000 4 0x92000000 }.modCtx 0 0 fun x => { x with handler := true, trapPc := 0x1000#64 }
/-- Meets the hypotheses of TrapsCallsAndEvents: a service ring of four records on physical memory that is the device's. -/
theorem witness_TrapsCallsAndEvents :
    (Runs (lead_ [(5, 0x12345)]) leadIssue (.trap 63#6 5#7) leadWho ∧ Alive (lead_ [(5, 0x12345)]) leadWho) ∧
    (let s := leadState.modCtx 0 0 fun x => { x with event := true }
     Runs s leadIssue (.wfe 63#6) leadWho ∧ (s.ctx leadWho.core leadWho.ctx).event = true) ∧
    (let s := lead_ [(5, 639 + 7 * 2 ^ 10)]
     Runs s leadIssue (.evsig 63#6 5#7) leadWho ∧ s.reg leadWho 5#7 < 2 ^ 13 ∧ s.reg leadWho 5#7 % 2 ^ 10 < 640 ∧
     (if isServiceCtx (s.reg leadWho 5#7 % 2 ^ 10) (s.reg leadWho 5#7 / 2 ^ 10) then 0 else s.corePart (s.reg leadWho 5#7 % 2 ^ 10)) =
       s.partOf leadWho.core leadWho.ctx) ∧
    (let s := (tabled.setCtl (offSvc 0) 0x10000#64).setCtl (offSvc 0 + 8) 4#64
     Runs s leadIssue (.svc 63#6 3#7 5#7) leadWho ∧ isServiceCtx leadWho.core leadWho.ctx = false ∧ s.releaseReady leadWho true = true ∧
     (callBatches [(leadWho, 3, s.reg64 leadWho 5#7, s.sreg leadWho 6)]).length ≤ s.ringRoom (s.ringOff 0 0) ∧
     ∃ s1, s.ringReady (.strand leadWho leadIssue.pc) (s.ringOff 0 0) (callBatches [(leadWho, 3, s.reg64 leadWho 5#7, s.sreg leadWho 6)]).length = (true, s1) ∧ s1.cur = s.cur) :=
  ⟨⟨lead_runs _ _ (by rfl) rfl, alive_of (by decide +kernel)⟩, ⟨runs_of (by rfl) rfl rfl, by decide +kernel⟩,
    ⟨lead_runs _ _ (by rfl) rfl, by decide +kernel⟩,
    ⟨runs_of (by rfl) rfl rfl, by decide +kernel, by decide +kernel, by decide +kernel, pair_with (by decide +kernel) (by decide +kernel)⟩⟩
/-- A trap of the lead strand, or of the live thread 5; a context that handles it, with the ACT given. -/
def leadTrap : Trap := { exk := 1, tid := none, cause := 11, pc := 0x1000#64, regionPc := 0x900#64 }
def handling (t : Trap) (act : Nat) : State :=
  handlerState.modCtx 0 0 fun x => { x with
    traps := [t], trapCause := BitVec.ofNat 64 (act * 2 ^ 46), trapRegion := 0x900#64, threads := [(5, some {})] }
def handlerFrame : List Nat := (List.range 16).map (64 * ·)
/-- Meets the hypotheses of ReturnFromHandler: each ACT, for the lead strand and for a live thread, with another trap behind or
none; an abort whose release is complete, and one before a store that its lead strand may have observed has performed. -/
theorem witness_ReturnFromHandler :
    (∀ act < 4, ∀ t ∈ [leadTrap, { leadTrap with exk := 0, tid := some 5 }], ∀ rest ∈ [[], [leadTrap]],
      let s := (handling t act).modCtx 0 0 fun x => { x with traps := t :: rest }
      let x := s.ctx 0 0
      let by_ : Agent := .strand leadWho leadIssue.pc
      s.cur = some leadIssue ∧ s.guardOk leadWho 63#6 = true ∧ s.privileged leadWho = true ∧ leadWho.tid = none ∧ x.handler = true ∧
      x.traps = t :: rest ∧ (s.loadsDone leadWho && s.ownStoresDone leadWho) = true ∧ x.act t = act ∧ s.abortReady leadWho = true ∧
      rest.head?.all (fun y => y.service.isNone) = true ∧
      (s.span by_ (coreDie 0) (s.partOf 0 0) false .write (s.leadFrame 0 0) none 16).1 = .ok handlerFrame ∧
      let s1 := (s.span by_ (coreDie 0) (s.partOf 0 0) false .write (s.leadFrame 0 0) none 16).2
      s1.poisoned (if rest = [] then handlerFrame.take 12 else (handlerFrame.drop 11).take 2) = false ∧
      (s1.fetchWords leadWho by_ false x.trapPc 4 []).1 = .ok [0x92000000#32]) ∧
    (let s := { handling leadTrap 3 with cores := [(0, { (handling leadTrap 3).core 0 with
       stores := [{ id := 0, who := { leadWho with tid := some 5 }, part := 0, pa := 0x1000, va := 0x1000#64, kind := .plain 4 1 }] })] }.modStrand leadWho fun x => { x with arr := 1 }
     s.cur = some leadIssue ∧ (s.ctx 0 0).act leadTrap = 3 ∧ (s.loadsDone leadWho && s.ownStoresDone leadWho) = true ∧
     s.abortReady leadWho = false) := by decide +kernel
/-- Meets the other clauses of ReturnFromHandler: what a return does, and a delivery. -/
theorem witness_ReturnFromHandler_effects :
    (∀ act < 4, ∀ t ∈ [leadTrap, { leadTrap with exk := 0, tid := some 5 }], let s := handling t act
      let x := s.ctx 0 0
      x.traps = [t] ∧ x.handler = true ∧ bitsOf x.trapCause.toNat 46 2 = act ∧ (tblGet none x.threads 5).isSome = true ∧ t.exited = false ∧
      12 ≤ handlerFrame.length ∧ s.keyed = false ∧ s.poisonAt (handlerFrame.getD 11 0 + 8) = 0 ∧
      s.forward (handlerFrame.getD 11 0 + 8) = s.forward (handlerFrame.getD 11 0) + 8) ∧
    (let s := handlerState.modCtx 0 0 fun x => { x with handler := false, traps := [leadTrap] }
     (s.ctx 0 0).traps = [leadTrap] ∧
      let r := s.span (.context 0 0) (coreDie 0) (s.partOf 0 0) (!s.privileged { core := 0, ctx := 0 }) .write (s.leadFrame 0 0) none 16
      r.1 = .ok handlerFrame ∧ (r.2.forget (.context 0 0)).poisoned handlerFrame = false) := by
  decide +kernel
theorem test_trap : after (.trap 63#6 5#7) (lead_ [(5, 0x12345)]) (fun t => (t.ctx 0 0).traps.map fun r => (r.cause, r.info, r.pc)) =
    some [(11, 0x2345#64, 0x1000#64)] := by decide +kernel

/-! ### Saved contexts, homes, messages -/

/-- Who restores a task. -/
def savedBy : Agent := .strand leadWho leadIssue.pc
/-- Frame 0 stands at 0x400000 and holds the task of record 0x2000, launch slot 0, launch context 0 of core 0; s5 names it. Every
page of the frame has been walked to for the restoring strand and for context 0: a leaf of 1 GiB at 0x4000 maps all of them. -/
def savedState : State :=
  let s := lead_ [(5, 0x400000)]
  { s with
    mem := [(0, 0x3001), (0x3000, 0x4001), (0x4000, 0x1DF), (0x400000, 2 ^ 62), (0x400010, 0x2000)].foldl (fun m e => writeBytes m e.1 8 e.2) s.mem
    homes := { s.homes with regions := [(0, .acc), (2, .acc), (3, .acc)] }
    savebase := 0x400001#64
    sched := { s.sched with
      walks := (List.range 256).map fun n =>
        { die := 0, part := 0, vpn := 0x400 + n, joined := [savedBy, .context 0 0], ended := some (.leaf 2 0x1DF 0x4000) }
      spilled := [{
        key := 4, core := 0, part := 0, frame := 0, ready := 0
        task := { slot := 0, lctx := 0, record := 0x2000#64, level := 0, deadline := 0#48, stamp := 0 } }] } }
/-- With no migration, an address is its own home and no page is locked. -/
theorem settled (s : State) (h : ∀ k < 4, s.migState k = 0) (a : Nat) : s.forward a = a ∧ s.migLocked a = false := by
  have e : ∀ l : List Nat, l.contains 0 = false → s.migAt l a = none := by
    intro l hl
    refine List.find?_eq_none.mpr fun k hk => ?_
    rw [h k (List.mem_range.mp hk), hl]
    simp
  exact ⟨by simp [State.forward, e [3] rfl], by simp [State.migLocked, e [1, 2] rfl]⟩
/-- Every page of frame 0 has been walked to for an agent, and its region is ready. -/
def Saved (s : State) (a : Agent) : Prop :=
  (∀ n < 256, s.walkedFor a 0 0 (0x400 + n) = some (.leaf 2 0x1DF 0x4000)) ∧ s.ownsRegion 0 2 = true ∧ s.homeRead 0x4000 8 = 0x1DF ∧
    s.frameVa 0 = 0x400000#64 ∧ s.region 2 = .acc ∧ (∀ k < 4, s.migState k = 0) ∧ s.homes.scrub = [] ∧ s.homes.keyScrub = [] ∧
    s.homes.devWaits = [] ∧ s.homes.poison = []
theorem saved_walk {s : State} {a : Agent} (hs : Saved s a) (k : Nat) (h : k < 16384) :
    s.dieTranslate a 0 0 false .write (0x400000#64 + BitVec.ofNat 64 (64 * k)) = (.ok (0x400000 + 64 * k) true, s) := by
  obtain ⟨hw, ho, hn, -⟩ := hs
  have hv : (0x400000#64 + BitVec.ofNat 64 (64 * k)).toNat = 0x400000 + 64 * k := by
    rw [BitVec.toNat_add, BitVec.toNat_ofNat, BitVec.toNat_ofNat]; omega
  have hp : (0x400000 + 64 * k) / 4096 = 0x400 + k / 64 := by omega
  have h56 : (0x400000 + 64 * k) >>> 56 = 0 := by rw [Nat.shiftRight_eq_div_pow]; omega
  have hl : leafPa 2 0x1DF (0x400000 + 64 * k) = 0x400000 + 64 * k := by unfold leafPa bitsOf levelShift; simp; omega
  have hc : inCtl (0x400000 + 64 * k) = false := by unfold inCtl ctlBase; simp; omega
  have hr : regionOf (0x400000 + 64 * k) = 2 := by unfold regionOf; omega
  unfold State.dieTranslate State.walk
  simp only [canonical, hv, h56, hp, hw _ (show k / 64 < 256 by omega)]
  simp [State.useWalk, State.leafCheck, hl, hc, hr, ho, hn, bitOf]
theorem saved_span {s : State} {a : Agent} (hs : Saved s a) (n : Nat) (h : n ≤ 16384) : s.frameSpan a 0 0 0 n =
    (.ok ((List.range n).map fun k => 0x400000 + 64 * k), s) := by
  obtain ⟨-, -, -, hv, h2, hm, hk, hk2, hd, hs0⟩ := id hs
  have ha (k : Nat) (h : k < 16384) : (0x400000#64 + BitVec.ofNat 64 (64 * k)).toNat = 0x400000 + 64 * k := by
    rw [BitVec.toNat_add, BitVec.toNat_ofNat, BitVec.toNat_ofNat]; omega
  obtain ⟨u, e, rfl⟩ := span_kept (fun u => u = s) a 0 0 false .write true n 0x400000#64
    (fun k => (0x400000#64 + BitVec.ofNat 64 (64 * k)).toNat) none
    (fun u k hu hn => ⟨u, by rw [hu, ha k (by omega)]; exact saved_walk hs k (by omega), hu⟩)
    (fun u k hu hn => by
      subst hu
      rw [ha k (by omega)]
      have hc : inCtl (0x400000 + 64 * k) = false := by unfold inCtl ctlBase; simp; omega
      have hr : regionOf (0x400000 + 64 * k) = 2 := by unfold regionOf; omega
      have hx := settled u hm (0x400000 + 64 * k)
      have hq : u.scrubbing (0x400000 + 64 * k) = false := by simp [State.scrubbing, hk, hk2]
      exact ⟨hc, by simp [State.accReady, State.devReady, hc, hx.1, hx.2, hq, hr, h2], by simp [State.served, hd]⟩)
    (fun k h => by
      rw [BitVec.toNat_add, BitVec.toNat_ofNat, BitVec.toNat_ofNat] at h ⊢
      rw [BitVec.toNat_add, BitVec.toNat_ofNat, BitVec.toNat_ofNat]
      omega)
    (fun p hp => by cases hp) s rfl
  rw [List.map_congr_left (fun k hk => ha k (by have := List.mem_range.mp hk; omega))] at e
  have hp : u.soundPieces ((List.range n).map fun k => 0x400000 + 64 * k) = ((List.range n).map fun k => 0x400000 + 64 * k).length := by
    unfold State.soundPieces
    rw [List.takeWhile_eq_self_iff.mpr (fun x _ => by simp [State.poisonAt, hs0, tblGet])]
  rw [State.frameSpan, hv, show 0x400000#64 + BitVec.ofNat 64 (64 * 0) = 0x400000#64 by decide]
  simp only [e, State.sound, hp, Nat.lt_irrefl, if_false]
theorem saved_state : Saved savedState savedBy := by unfold Saved; decide +kernel
/-- The spilled task of `savedState`. -/
def savedTask : Spilled :=
  { key := 4, core := 0, part := 0, frame := 0, ready := 0
    task := { slot := 0, lctx := 0, record := 0x2000#64, level := 0, deadline := 0#48, stamp := 0 } }
theorem saved_resumes : ∃ pas s2, savedState.resume savedBy savedTask 1 = (.ok pas, s2) := by
  have h1 : savedState.launch savedTask.task.slot = some placeLaunch := by decide +kernel
  have h2 : savedTask.matchesFrame (savedState.homeRead 0x400000 8) = true := by decide +kernel
  have h3 : savedState.windowFrame savedTask.core savedTask.task.slot (some (savedTask.key, bitOf (savedState.homeRead 0x400000 8) 61)) = none := by
    decide +kernel
  have h4 : coreDie savedTask.core = 0 := by decide
  have h5 : savedTask.frame = 0 := rfl
  have h6 : ((List.range 1).map fun k => 0x400000 + 64 * k).getD 0 0 = 0x400000 := by decide
  unfold State.resume
  simp only [h1, h4, h5, saved_span saved_state 1 (by decide), saved_span saved_state (1 + bodyLines) (by decide), h6, h2, h3, State.windowLines,
    Bool.not_true, Bool.false_eq_true, if_false]
  exact ⟨_, _, rfl⟩
theorem witness_OwnershipAndSavedContexts :
    (Runs tabled leadIssue (.own 63#6 5#7) leadWho ∧ tabled.privileged leadWho = true ∧ tabled.acquiring leadWho = false ∧
     ∃ s1, tabled.xlat leadWho leadIssue.pc .read (sext57 ((tabled.reg64 leadWho 5#7).toNat / 2 ^ 21 % 2 ^ 36 * 2 ^ 21)) = (.ok 0 true, s1) ∧
      s1.region (regionOf 0) = regionOwner ((tabled.reg64 leadWho 5#7).getLsbD 0)) ∧
    (let s : State := { tabled with homes := { tabled.homes with regions := [] } }
     Runs s leadIssue (.own 63#6 5#7) leadWho ∧ s.acquiring leadWho = false ∧
     ∃ s1, s.xlat leadWho leadIssue.pc .read (sext57 ((s.reg64 leadWho 5#7).toNat / 2 ^ 21 % 2 ^ 36 * 2 ^ 21)) = (.ok 0 true, s1) ∧
      ¬ (s1.region (regionOf 0) = regionOwner ((s.reg64 leadWho 5#7).getLsbD 0) ∨ (s1.strand leadWho).wait = .ownDone) ∧ inCtl 0 = false) ∧
    (let s := leadState.modStrand leadWho fun x => { x with wait := .tlbinvDone }
     Runs s leadIssue (.tlbinv 63#6 5#7) leadWho ∧ (s.strand leadWho).wait = .tlbinvDone) ∧
    (let s := (lead_ [(5, 1)]).modStrand leadWho fun x => { x with wait := .ctxsv 1 7 }
     Runs s leadIssue (.ctxsv 63#6 5#7) leadWho ∧ (s.strand leadWho).wait = .ctxsv ((s.reg64 leadWho 5#7).toNat % 8) 7 ∧
     (s.ctx leadWho.core ((s.reg64 leadWho 5#7).toNat % 8)).task = none) ∧
    (let s := ((lead_ [(5, 1)]).modStrand leadWho fun x => { x with wait := .ctxsv 1 7 }).modCtx 0 1 fun x => { x with task := (leadState.ctx 0 0).task }
     Runs s leadIssue (.ctxsv 63#6 5#7) leadWho ∧ (s.strand leadWho).wait = .ctxsv ((s.reg64 leadWho 5#7).toNat % 8) 7 ∧
     ∀ t, (s.ctx leadWho.core ((s.reg64 leadWho 5#7).toNat % 8)).task = some t → t.came ≠ 7) ∧
    (let s := (lead_ [(5, 1)]).modCtx 0 1 fun x => { x with task := (leadState.ctx 0 0).task }
     Runs s leadIssue (.ctxsv 63#6 5#7) leadWho ∧ (s.strand leadWho).wait = .none ∧ (s.reg64 leadWho 5#7).toNat < 8 ∧
     (s.reg64 leadWho 5#7).toNat ≠ leadWho.ctx ∧ isServiceCtx leadWho.core (s.reg64 leadWho 5#7).toNat = false ∧
     (s.ctx leadWho.core (s.reg64 leadWho 5#7).toNat).task = (leadState.ctx 0 0).task ∧
     s.partOf leadWho.core (s.reg64 leadWho 5#7).toNat = s.partOf leadWho.core leadWho.ctx) ∧
    (Runs savedState leadIssue (.ctxld 63#6 5#7) leadWho ∧ savedState.spilledAt leadWho.core (savedState.reg64 leadWho 5#7) = some savedTask ∧
     savedState.frameSpan (.strand leadWho leadIssue.pc) (coreDie leadWho.core) savedTask.frame 0 1 = (.ok [0x400000], savedState) ∧
     savedTask.matchesFrame (savedState.homeRead 0x400000 64) = true ∧
     fld (savedState.homeRead 0x400000 64) 2 0 64 = savedTask.task.record.toNat ∧ savedState.launch savedTask.task.slot = some placeLaunch ∧
     ((savedState.hasResv leadWho.core savedTask.task.slot || fitsBeside placeLaunch (savedState.reserved leadWho.core)) &&
       savedState.mxFree leadWho.core savedTask.task.slot placeLaunch) = true ∧ savedState.hwFor leadWho.core savedTask.key = some 1 ∧
     savedState.spilledWaits savedTask.key = false ∧ ∃ was s2, savedState.resume (.strand leadWho leadIssue.pc) savedTask 1 = (.ok was, s2)) :=
  ⟨⟨tabled_runs _ rfl, by decide +kernel, by decide +kernel, pair_with (by decide +kernel) (by decide +kernel)⟩,
    ⟨runs_of (by rfl) rfl rfl, by decide +kernel, pair_with (by decide +kernel) (by decide +kernel)⟩,
    ⟨runs_of (by rfl) rfl rfl, by decide +kernel⟩, ⟨runs_of (by rfl) rfl rfl, by decide +kernel⟩,
    ⟨runs_of (by rfl) rfl rfl, by decide +kernel, fun t h => by
      have : ∀ t, (leadState.ctx 0 0).task = some t → t.came ≠ 7 := by decide +kernel
      exact this t h⟩, ⟨runs_of (by rfl) rfl rfl, by decide +kernel⟩,
    runs_of (by rfl) rfl rfl, by decide +kernel, saved_span saved_state 1 (by decide), by decide +kernel, by decide +kernel,
      by decide +kernel, by decide +kernel, by decide +kernel, by decide +kernel, saved_resumes⟩
/-- Meets the hypotheses of EmptyBundles: the first of four, and the last. -/
theorem witness_EmptyBundles :
    (IssuingOne leadState leadIssue leadWho ∧ Alive leadState leadWho ∧ (0#1 = 0#1 ∨ (leadState.strand leadWho).run < (3#4).toNat) ∧
     (leadState.strand leadWho).run < (3#4).toNat) ∧
    (let s := leadState.modStrand leadWho fun x => { x with run := 3 }
     IssuingOne s leadIssue leadWho ∧ (s.strand leadWho).run = (3#4).toNat) ∧
    ((leadState.ctx leadWho.core leadWho.ctx).threads = [] ∧ (leadState.ctx leadWho.core leadWho.ctx).pending = [] ∧ leadWho.tid = none) ∧
    (let s := leadState.modStrand leadWho fun x => { x with reentry := true, regionPc := x.pc }
     (s.strand leadWho).reentry = true ∧ (s.strand leadWho).pc = (s.strand leadWho).regionPc) :=
  ⟨⟨⟨rfl, rfl⟩, alive_of (by decide +kernel), by decide +kernel, by decide +kernel⟩, ⟨⟨by rfl, rfl⟩, by decide +kernel⟩, by decide +kernel, by decide +kernel⟩
theorem test_empty : after (.emptyBundle 3#4 0#1 1#1 0#4 0#14) leadState (fun t => ((t.strand leadWho).run, (t.strand leadWho).regionCnt, (t.strand leadWho).pc)) =
      some (1, 1#32, 0x1000#64) ∧
    after (.emptyBundle 3#4 0#1 1#1 0#4 0#14) (leadState.modStrand leadWho fun x => { x with run := 3 })
      (fun t => ((t.strand leadWho).run, (t.strand leadWho).pc)) = some (0, 0x1004#64) := by decide +kernel

/-- A load of 8 bytes and a plain store of 4, of the lead strand, at 0x2000. -/
def readingState : State := tabled.addLoad { id := 0, who := leadWho, part := 0, pa := 0x2000, va := 0x2000#64, size := 8, dst := some (3, 1) }
def writingState : State := tabled.addStore { id := 0, who := leadWho, part := 0, pa := 0x2004, va := 0x2004#64, kind := .plain 4 0x11223344 }
def loadAt2000 : Load := { id := 1, who := leadWho, part := 0, pa := 0x2000, va := 0x2000#64, size := 8, dst := some (3, 1) }
/-- What a write of core 0 whose turn it is meets at its home. -/
def homeFree (s : State) (x : Store) : Bool :=
  x.done == false && x.acks == none && !s.homes.held.contains (0, x.id) && s.writeTurn 0 x && s.releaseDue 0 x && !inCtl x.pa &&
    s.region (regionOf (s.forward x.pa)) == .acc && !s.scrubbing (s.forward x.pa) && !s.migLocked x.pa && s.poisonAt x.pa == 0 &&
    !s.lineBusy (s.homeOf x.pa) x.id && (s.regulate (.access 0 x.id) (regulatorOf x.who x.part) x.pa).1 &&
    s.castEntry (lineOf (s.forward x.pa)) == none
def writeOf (pa : Nat) (kind : WriteKind) : Store := { id := 1, who := leadWho, part := 0, pa, va := BitVec.ofNat 64 pa, kind, launch := some 0, dst := some (3, 1) }
/-- Each kind of write: a plain one of 16 bytes, an atomic, the operations on an accumulator at 0x2000 and a cast to core 3. -/
def homeKinds : List Store := [writeOf 0x2004 (.plain 4 0x11223344), writeOf 0x2010 (.plain 16 0x11223344), writeOf 0x2000 (.atom .add true 5#64 0#64),
  writeOf 0x2000 (.xal .add 0x3F800000#32), writeOf 0x2000 (.xal .rd32 0#32), writeOf 0x2000 (.xal .rd64 0#32), writeOf 0x2000 (.xal .clr 0#32),
  writeOf 0x2000 (.cast 5#512 [3])]
theorem witness_HomesPerform :
    ((readingState.core 0).findLoad 1 = some loadAt2000 ∧ loadAt2000.data = none ∧ readingState.readTurn 0 loadAt2000 = true ∧
      inCtl loadAt2000.pa = false ∧ readingState.readAllowed 0 loadAt2000 = (true, readingState) ∧ readingState.poisonAt loadAt2000.pa = 0 ∧
      ∃ s2, readingState.regulate (.access 0 loadAt2000.id) (regulatorOf loadAt2000.who loadAt2000.part) loadAt2000.pa = (true, s2)) ∧
    (∀ x ∈ homeKinds, let s := tabled.addStore x
      (s.core 0).findStore 1 = some x ∧ homeFree s x = true ∧ s.keyed = false ∧ (∀ y ∈ s.homes.stcs, y.id ≠ 1)) ∧
    (0x2000 % 64 = 0 ∧ tabled.forward 0x2000 = 0x2000 ∧
      (tabled.homes.castDir.filter fun e => tabled.sliceOf (64 * e.line) == tabled.sliceOf 0x2000).length < 8192) ∧
    (let s : State := { tabled.addStore (writeOf 0x2000 (.cast 5#512 [3])) with
        homes := { tabled.homes with castDir := List.replicate 8192 { line := 385, cluster := 0, holders := [3], stc := 0 } } }
     (s.core 0).findStore 1 = some (writeOf 0x2000 (.cast 5#512 [3])) ∧ homeFree s (writeOf 0x2000 (.cast 5#512 [3])) = true ∧
     (s.homes.castDir.filter fun e => s.sliceOf (64 * e.line) == s.sliceOf 0x2000).length = 8192) :=
  ⟨⟨by decide +kernel, by decide +kernel, by decide +kernel, by decide +kernel, by decide +kernel, by decide +kernel, pair_of (by decide +kernel)⟩,
    by decide +kernel, by decide +kernel, by decide +kernel⟩
theorem test_home : after (.homeWrite 0 1) writingState (fun t => (readBytes t.mem 0x2000 8, (t.core 0).stores)) = some (0x1122334400000000, []) ∧
    after (.homeRead 0 1) readingState (fun t => (t.core 0).loads.map (·.data)) = some [some 0#512] := by decide +kernel
/-- Meets the hypotheses of ReturnsLand: a load with its data, a write that has performed. -/
theorem witness_ReturnsLand :
    (let s := readingState.modCore 0 fun co => { co with loads := co.loads.map fun l => { l with data := some 0x0807060504030201#512 } }
     ∃ l, (s.core 0).findLoad 1 = some l ∧ l.data = some 0x0807060504030201#512 ∧ l.err = 0 ∧
      ∀ k ∈ (s.core 0).loads, 1 ≤ k.id ∨ lineOf k.pa ≠ lineOf l.pa ∨ k.data = none) ∧
    (let s := writingState.modCore 0 fun co => { co with stores := co.stores.map fun x => { x with done := true } }
     ∃ x, (s.core 0).findLoad 1 = none ∧ (s.core 0).findStore 1 = some x ∧ x.done = true ∧ x.err = 0) :=
  ⟨⟨{ id := 1, who := leadWho, part := 0, pa := 0x2000, va := 0x2000#64, size := 8, dst := some (3, 1), data := some 0x0807060504030201#512 }, by decide +kernel⟩,
    { id := 1, who := leadWho, part := 0, pa := 0x2004, va := 0x2004#64, kind := .plain 4 0x11223344, launch := some 0, done := true }, by decide +kernel⟩
theorem test_return : after (.loadReturn 0 1 false)
    (readingState.modCore 0 fun co => { co with loads := co.loads.map fun l => { l with data := some 0x0807060504030201#512 } })
    (fun t => (t.reg64 leadWho 3#7, (t.core 0).loads)) = some (0x0807060504030201#64, []) := by decide +kernel
/-- A message to or from core 3 about line 0x80. -/
def message (kind : MsgKind) : State := { writingState with homes := { writingState.homes with msgs := [{ id := 6, core := 3, line := 0x80, kind }] } }
/-- Meets the hypotheses of CoherenceMessages: the write waits for core 3 alone, or for core 4. -/
theorem witness_CoherenceMessages :
    (message (.invalidate 1 0)).firstMsg 6 = some { id := 6, core := 3, line := 0x80, kind := .invalidate 1 0 } ∧
    (∀ c ∈ [3, 4], let s := (message (.ack 1 0)).modCore 0 fun co => { co with stores := co.stores.map fun x => { x with acks := some [c] } }
      s.firstMsg 6 = some { id := 6, core := 3, line := 0x80, kind := .ack 1 0 } ∧
      ((s.core 0).findStore 1).map (·.acks) = some (some [c])) ∧
    (message (.cast 1 0 0#512)).firstMsg 6 = some { id := 6, core := 3, line := 0x80, kind := .cast 1 0 0#512 } := by decide +kernel
/-- Meets the hypotheses of CastAnswers. -/
theorem witness_CastAnswers :
    (message (.castInstalled 1)).firstMsg 6 = some { id := 6, core := 3, line := 0x80, kind := .castInstalled 1 } ∧
    (message (.castRefused 1)).firstMsg 6 = some { id := 6, core := 3, line := 0x80, kind := .castRefused 1 } ∧
    (message .evicted).firstMsg 6 = some { id := 6, core := 3, line := 0x80, kind := .evicted } ∧
    (let x : Stc := { id := 1, who := leadWho, part := 0, line := 0x80, unsent := [], waiting := [3] }
     let s := { message (.stcDone 1) with homes := { (message (.stcDone 1)).homes with stcs := [x] } }
     s.firstMsg 6 = some { id := 6, core := 3, line := 0x80, kind := .stcDone 1 } ∧
      (s.homes.stcs.find? fun y => y.id == 1) = some x ∧ x.unsent = [] ∧ (∀ c ∈ x.waiting, c = 3) ∧ x.who.ctx < 8) := by decide +kernel
/-- Meets the hypotheses of WindowsAndBatches: a later window; a generation without an order yet, and one whose batch is due. -/
theorem witness_WindowsAndBatches :
    (({ leadState with ps := 1024000 }.core 0).windowAt ≠ { leadState with ps := 1024000 }.time / 1024) ∧
    (let n : Gen := { id := 3, slot := 0, desc := 0#32, done := some 0, waking := [0] }
     let s : State := { leadState with sched := { leadState.sched with gens := [n] } }
     (s.sched.gens.find? fun m => m.id == 3) = some n ∧ n.batch = 0 ∧ { s with ps := 1000 }.zTurn n = true) ∧
    (let n : Gen := { id := 3, slot := 0, desc := 0#32, done := some 0, waking := [0], batch := 2 }
     let s : State := { leadState with ps := 100000, sched := { leadState.sched with gens := [n] } }
     (s.sched.gens.find? fun m => m.id == 3) = some n ∧ 0 < n.batch ∧ n.done.getD 0 + 100000 * (n.batch - 1) ≤ s.ps ∧ n.waking.length ≤ 64) := by
  decide +kernel
theorem pair_of3 {α β γ : Type} {p : α × β × γ} {a : α} {b : β} (h : p.1 = a ∧ p.2.1 = b) : ∃ c, p = (a, b, c) :=
  ⟨p.2.2, by rw [← h.1, ← h.2]⟩
theorem no_triangles (o : Op) (h : drawTris o.desc = 0) : (drawTileList o).all o.tileDone = true :=
  List.all_eq_true.mpr fun t _ => by simp [Op.tileDone, h]

/-! ### Operations at work -/

/-- An operation of the lead strand of core 0, and `tabled` with it. -/
def theOp (kind : OpKind) (d : Nat) : Op := { newOp leadWho kind d with id := 1, user := false }
def opState (o : Op) : State := tabled.modCore 0 fun co => { co with ops := [o] }
/-- Sixteen bytes from a locator to another, by their kinds; status at 0x100. -/
def copyOf (src dst kinds : Nat) : Nat :=
  packBytes [(0, 8, src), (8, 8, dst), (16, 4, 16), (20, 2, 1), (22, 2, 1), (40, 4, 0xFFFFFFFF), (44, 4, 0x100), (52, 4, kinds)]
/-- `opState` with the control space at 0x40000000. -/
def ctlState (o : Op) : State := { opState o with mem := writeBytes (opState o).mem 0x4008 8 0xFF000000DF }
/-- Regulator 0 has a share and no tokens. -/
def dryState (o : Op) : State := (opState o).setCtlF (offQos 0) 0 24 1
/-- Meets the hypotheses of CopyAndGatherSteps: a copy by the kinds of its source and destination, each of them from or to an
address without a translation or in the control space too; a gather before its first fetch, and with that fetch in flight; a
step whose request is admitted, and one that is held. -/
theorem witness_CopyAndGatherSteps :
    (let o := theOp (.copy false) (copyOf 0x200 0x300 5)
     (opState o).workingOp 0 1 = some o ∧ pieceOk o.desc o.off 16 = true ∧ copySrcKind o.desc = 1 ∧ copyDstKind o.desc = 1) ∧
    (∀ k ∈ [0, 1, 3], let o := theOp (.copy false) (copyOf 0x2000 0x2800 (4 * k))
     (opState o).workingOp 0 1 = some o ∧ pieceOk o.desc o.off 16 = true ∧ copySrcKind o.desc = 0 ∧ copyDstKind o.desc = k ∧
     (BitVec.ofNat 64 (copySrcAt o.desc o.off)).toNat % 64 + 16 ≤ 64 ∧
     let r := (opState o).engReach 0 o .read (BitVec.ofNat 64 (copySrcAt o.desc o.off))
     r.1 = .ok 0x2000 ∧ (r.2.engReach 0 o .write (BitVec.ofNat 64 (copyDstAt o.desc o.off))).1 = .ok 0x2800) ∧
    (let o := theOp (.copy false) (copyOf 0x200 0x2000 1)
     (opState o).workingOp 0 1 = some o ∧ pieceOk o.desc o.off 16 = true ∧ copySrcKind o.desc = 1 ∧ copyDstKind o.desc = 0 ∧
     ∃ s1, (opState o).engReach 0 o .write (BitVec.ofNat 64 (copyDstAt o.desc o.off)) = (.ok 0x2000, s1)) ∧
    (let o := theOp (.copy false) (copyOf 0x40000000 0x300 4)
     let a : DWord := 0x40000000#64
     (opState o).workingOp 0 1 = some o ∧ copySrcKind o.desc = 0 ∧ BitVec.ofNat 64 (copySrcAt o.desc o.off) = a ∧
     ((opState o).dieTranslate (.op 0 1 0) (coreDie 0) o.part o.user .read a).1 = .fault 8 0 ∧ pieceOk o.desc o.off 1 = true ∧
     ((ctlState o).dieTranslate (.op 0 o.id 0) (coreDie 0) o.part o.user .read a).1 = .ok 0xFF00000000 false ∧
     ((ctlState o).engReach 0 o .read a).1 = .ends 2 a) ∧
    (let o := theOp (.copy false) (copyOf 0x200 0x40000000 1)
     let a : DWord := 0x40000000#64
     (opState o).workingOp 0 1 = some o ∧ copySrcKind o.desc = 1 ∧ copyDstKind o.desc = 0 ∧ BitVec.ofNat 64 (copyDstAt o.desc o.off) = a ∧
     ((opState o).dieTranslate (.op 0 1 0) (coreDie 0) o.part o.user .write a).1 = .fault 8 0 ∧ pieceOk o.desc o.off 16 = true ∧
     ((ctlState o).engReach 0 o .write a).1 = .ends 2 a) ∧
    (let o := theOp (.gather 4) gathDesc
     (opState o).workingOp 0 1 = some o ∧ o.flight.length < 16 ∧ o.nextFetch < gathCount o.desc) ∧
    (let o := { theOp (.gather 4) gathDesc with flight := [(0, 0x800, none)], nextFetch := 1 }
     (opState o).workingOp 0 1 = some o ∧ 0 + 1 < gathCount o.desc ∧
     ∃ s1, (opState o).engRead 0 o (gathAddr o.desc 4 0x800) 4 = (.ok 0, s1)) ∧
    (let o := theOp (.gather 4) gathDesc
     (((opState o).ask 0 0x2000).settle (.op 0 1 0)).1 = true ∧ (((dryState o).ask 0 0x2000).settle (.op 0 1 0)).1 = false ∧
     ((dryState o).ask 0 0x2000).sched.waits = (dryState o).sched.waits) :=
  ⟨by decide +kernel, by decide +kernel,
    ⟨by decide +kernel, by decide +kernel, by decide +kernel, by decide +kernel, pair_of (by decide +kernel)⟩, by decide +kernel, by decide +kernel,
    by decide +kernel, ⟨by decide +kernel, by decide +kernel, pair_of (by decide +kernel)⟩, by decide +kernel⟩
/-- R189: sixteen bytes arrive at the offset of the destination. -/
theorem test_copy : after (.copyPieceLand 0 1 16 false)
    ((opState (theOp (.copy false) (copyOf 0x200 0x300 5))).smemWrite 0 0 0x200 16 0x1122)
    (fun t => (t.smemRead 0 0 0x300 16, t.smemRead 0 0 0x100 16)) = some (0x1122, 2 ^ 62 + 16) := by decide +kernel

/-- A tile task of one row of C, C = 0, by weights latched in pair 0. -/
def tileState (o : Op) : State := (opState o).modMx 0 fun m => { m with fmtAcc := some 0, latched := some { fmt := 0, wslot := 0, cb := 0#256 } }
/-- Of microsecond 0, an array that has spent its share, and one that has not. -/
def spentState (o : Op) : State := (tileState o).modMx 0 fun m => { m with energyAt := 0, energy := 1000 }
theorem witness_MatrixSteps :
    (let o := { theOp .mxshape 2 with started := true }
     (opState o).matrixHead 0 = some o ∧ (opState o).matrixDone o = true ∧
      (opState { o with due := 1 }).matrixHead 0 = some { o with due := 1 } ∧ (opState { o with due := 1 }).matrixDone { o with due := 1 } = false) ∧
    (let o := { theOp .mxldw (ldwDesc - 0x1000) with started := true }
     (opState o).matrixHead 0 = some o ∧ (opState o).matrixDone o = true ∧ ∃ s1, (opState o).ldwBlock 0 o = (.ok 0, s1)) ∧
    ((tileState (theOp .mxq mxqDesc)).matrixHead 0 = some (theOp .mxq mxqDesc) ∧
      (tileState (theOp .mxq mxqDesc)).inputReady 0 (theOp .mxq mxqDesc) = true) ∧
    (let o := theOp .mxq (mxqDesc + 2 ^ 192)
     (tileState o).matrixHead 0 = some o ∧ ((tileState o).inputReady 0 o = false ∨ mxqInw o.desc = false)) ∧
    (let o := { theOp .mxq mxqDesc with started := true, result := [5#32], off := 1 }
     (tileState o).matrixHead 0 = some o ∧ (tileState o).streamTiles 0 = tileState o ∧ (tileState o).matrixDone o = true ∧
      groupCount o.desc ≤ o.off ∧ o.unsound = false) ∧
    (let o := { theOp .mxq mxqDesc with started := true, due := 1 }
     (tileState o).matrixHead 0 = some o ∧ (tileState o).streamTiles 0 = tileState o ∧ o.off < groupCount o.desc) ∧
    (let o := { theOp .mxq mxqDesc with started := true }
     let s := spentState o
     (s.core 0).findOp 1 = some o ∧ o.off < groupCount o.desc ∧ o.due ≤ s.ps ∧
      (!o.held && decide (s.arrayShare 0 < (s.core 0).mx.energyIn 0)) = true) ∧
    (let o := { theOp .mxq mxqDesc with started := true, held := true }
     (tileState o).core 0 |>.findOp 1 |>.map (fun p => p.held && decide (p.off < groupCount p.desc) && decide (p.due ≤ (tileState o).ps) &&
      !p.unsound)) = some true ∧
    (let o := { theOp (.cbload 1) 0 with off := 0x400, started := true }
     (opState o).workingOp 0 1 = some o ∧ (opState o).matrixTurn 0 o = true ∧ (opState o).matrixDone o = true ∧ o.orphan = false ∧
      (opState { o with due := 1 }).matrixDone { o with due := 1 } = false) ∧
    (let s : State := { opState (theOp .mxq mxqDesc) with ps := 2000000 }
     ((s.core 0).ops.map (·.id)).Nodup ∧ ((s.streamTiles 0).core 0).mx.energyAt < s.time / 1000) :=
  ⟨by decide +kernel, ⟨by decide +kernel, by decide +kernel, pair_of (by decide +kernel)⟩, by decide +kernel, by decide +kernel,
    by decide +kernel, by decide +kernel, by decide +kernel, by decide +kernel, by decide +kernel, by decide +kernel⟩
/-- 14 R275: after a raise the next command waits 64 cycles more; a shape takes one. -/
theorem test_matrix_cycles : matrixCycles {} (theOp .mxshape 2) = 1 ∧ matrixCycles { woken := true } (theOp (.cbload 0) 0) = 4 := by
  decide +kernel
/-- 14 R274: a row of four ones by weights of 3 in one column. -/
theorem test_tile : tileElem 0 0 0#256 0#256 4 (fun _ => false) 0x01010101 (fun _ => 3) 0xFFFFFFFF = 11 ∧
    tileElem 0 1 0#256 0#256 2 (fun i => i == 0) 0xF1 (fun _ => 0x80) 0 = 128 ∧
    -- BF16 2 · 3 in both places: 6 + 6, and C of 1
    tileElem 3 4 0#256 0#256 2 (fun _ => false) 0x40004000 (fun _ => 0x4200) 0x3F800000 = 0x41500000 := by decide +kernel

/-- A draw of one triangle, (0, 0), (8, 0), (0, 8), its indices at 0x2100 and its vertices at 0x2000. -/
def drawOne : Nat := packBytes [(0, 8, 0x2000), (8, 8, 0x2100), (16, 4, 1), (20, 4, 3), (28, 2, 8), (30, 2, 8), (48, 4, 0xFFFFFFFF), (52, 4, 0x100)]
def triangle : Memory :=
  [(0x2010, 0x41000000), (0x2024, 0x41000000), (0x2104, 1), (0x2108, 2)].foldl (fun m e => writeBytes m e.1 4 e.2) tabled.mem
def drawState (o : Op) : State := { opState o with mem := triangle }
def theTri : Tri := { a := ⟨0, 0, 0⟩, b := ⟨2048, 0, 0⟩, c := ⟨0, 2048, 0⟩, area := 4194304 }
def rayAt (va : Nat) : Nat := rayDesc + va * 2 ^ 256
def refitTwo : Nat := packBytes [(0, 8, 0x2000), (8, 4, 2), (16, 4, 0xFFFFFFFF)]
theorem witness_QueryAndDrawSteps :
    (let o := theOp (.ray false) (rayAt 0x2000)
     (opState o).workingOp 0 1 = some o ∧ canonical (BitVec.ofNat 64 (bitsOf o.desc 256 64)) = true ∧
     ∃ s1, rayWalk (rayOf o.desc false) 0 o walkFuel ([nodeRefTo (BitVec.ofNat 64 (bitsOf o.desc 256 64)).toNat].map fun r => (none, r, 1)) 0 none
       (opState o) = (.done none, s1)) ∧
    (let o := theOp .ovlp (rayAt 0x2000)
     (opState o).workingOp 0 1 = some o ∧
     ∃ s1, ovlpWalk { lo := vecAt o.desc 0, hi := vecAt o.desc 12 } 0 o walkFuel
       ([nodeRefTo (BitVec.ofNat 64 (bitsOf o.desc 256 64)).toNat].map fun r => (none, r, 1)) 0
       { skip := word32 o.desc 24, room := word32 o.desc 28 } (opState o) = (.done, { skip := 0, room := 1 }, s1)) ∧
    (let o := theOp .refit refitTwo
     (opState o).workingOp 0 1 = some o ∧ o.off + 1 < refitCount o.desc ∧ ∃ s1, (opState o).readNode 0 o 0x2080#64 = (.ok 0, s1) ∧
     ((List.range 4).map (nodeRef 0)).any refBad = false ∧
     ∃ s2, s1.refitBoxes 0 o ((List.range 4).map (nodeRef 0)) = ((.ok 0, List.replicate 4 emptyBox), s2) ∧
     ∃ s3, s2.engWriteLines 0 o 0x2080#64 2 96 (boxBits (List.replicate 4 emptyBox)) = (.ok 0x2080, s3)) ∧
    (let o := theOp (.draw false) drawOne
     (drawState o).workingOp 0 1 = some o ∧ (drawState o).drawCore 0 1 = some 0 ∧ o.orphan = false ∧ o.tileDone 0 = false ∧ (drawState o).drawTurn 0 0 o 0 = true ∧
     ∃ s1, (drawState o).readTri 0 o 0 0 = ((.ok 0, .tri theTri), s1) ∧
     ∃ s2, s1.quadBits 0 o false theTri 0 0 [0, 1, 2, 3] = ((.ok 0, 15), s2) ∧ ((drawState o).ctx 0 o.hw).queue.length < 256) ∧
    (let o := { theOp (.draw false) drawOne with tiles := [(0, 15)] }
     (drawState o).workingOp 0 1 = some o ∧ (drawState o).drawCore 0 1 = some 0 ∧ o.orphan = false ∧ o.tileDone 0 = false ∧ (drawState o).drawTurn 0 0 o 0 = true ∧
     ∃ s1, (drawState o).readTri 0 o 0 0 = ((.ok 0, .tri theTri), s1) ∧ ∃ s2, s1.quadBits 0 o false theTri 3 3 [0, 1, 2, 3] = ((.ok 0, 0), s2)) ∧
    (let o := theOp (.draw false) drawDesc
     (opState o).workingOp 0 1 = some o ∧ (opState o).drawCore 0 1 = some 0 ∧ (drawTileList o).all o.tileDone = true ∧
     ∃ s1, (opState o).countDiscards 0 o 0 (drawTris o.desc) = ((.ok 0, 0), s1)) ∧
    -- the boundary column of a viewport 8 wide is 0, of one 16 wide 8
    (drawXm drawOne = 0 ∧ drawXm (packBytes [(28, 2, 16), (30, 2, 8)]) = 8) :=
  ⟨⟨by decide +kernel, by decide +kernel, pair_of (by decide +kernel)⟩, ⟨by decide +kernel, pair_of3 (by decide +kernel)⟩,
    ⟨by decide +kernel, by decide +kernel, pair_with (by decide +kernel) ⟨by decide +kernel, pair_with (by decide +kernel) (pair_of (by decide +kernel))⟩⟩,
    ⟨by decide +kernel, by decide +kernel, rfl, by decide +kernel, by decide +kernel, pair_with (by decide +kernel) (pair_with (by decide +kernel) (by decide +kernel))⟩,
    ⟨by decide +kernel, by decide +kernel, rfl, by decide +kernel, by decide +kernel, pair_with (by decide +kernel) (pair_of (by decide +kernel))⟩,
    ⟨by decide +kernel, by decide +kernel, no_triangles _ (by decide +kernel), pair_of (by decide +kernel)⟩, by decide +kernel⟩

/-! ### Dispatchers, traps and faults -/

/-- A launch of one core whose entry record is at 0x2000; its DONE address is given. -/
def oneLaunch (done : Nat) : Launch := launchOfBits (smallLaunch + done * 2 ^ 128)
/-- That launch, its record ready, and no task anywhere. -/
def readyState : State :=
  { tabled with
    cores := [], launches := [(0, some (oneLaunch 0))]
    sched := { tabled.sched with recs := [{ key := 5, slot := 0, addr := 0x2000#64, pa := 0x2000, level := 0, die := 0, ready := some 0 }] } }
def readyRec : Rec := { key := 5, slot := 0, addr := 0x2000#64, pa := 0x2000, level := 0, die := 0, ready := some 0 }
/-- Nothing is left of the launch but its end. -/
def overState (done : Nat) : State := { tabled with cores := [], launches := [(0, some (oneLaunch done))] }
/-- LNCH has queued a launch on context 0 of core 0. -/
def queuedState : State := tabled.modCtx 0 0 fun x => { x with pending := [{ addr := 0x3000#64, bits := smallLaunch, user := false }] }
/-- The task has stopped for its preemption; frame 0 at address 0 is free. -/
def stoppedState : State := { tabled.modCtx 0 0 (fun x => { x with marked := true, stopped := true }) with savebase := 1#64 }
/-- Its launch reserves no scratchpad, and its context is being spilled to frame 0. -/
def spillingState : State :=
  { savedState.modCtx 0 0 (fun x => { x with spilling := some 0 }) with launches := [(0, some (oneLaunch 0))] }
theorem spilling_spans : ∃ pas s1, spillingState.frameSpan (.context 0 0) (coreDie 0) 0 0 (1 + bodyLines +
    (if spillingState.lastResident 0 0 then (oneLaunch 0).smem / 64 else 0)) = (.ok pas, s1) := by
  have h0 : Saved spillingState (.context 0 0) := by unfold Saved; decide +kernel
  have h5 : (oneLaunch 0).smem / 64 = 0 := by decide +kernel
  rw [h5, ite_self, Nat.add_zero]
  exact ⟨_, _, saved_span h0 (1 + bodyLines) (by decide)⟩
/-- A dispatcher's write of 1 to 0x2000 that was held. -/
def heldWrite : DispWait := { id := 7, die := 0, slot := 0, part := 0, va := 0x2000#64, write := true, kind := 1, user := false, value := 1#64 }
def waitState : State := { tabled with sched := { tabled.sched with waits := [heldWrite] } }
def lostFault : FaultSvc :=
  { id := 8, part := 0, va := 0x2000#64, write := true, fetch := false, user := false, cause := 8, sub := 0, core := 0, ctx := 0, exk := 3
    op := 7, hostMode := false, outcome := some false }
/-- The launch with a late queue of four records at 0x2400; its record's deadline is 1 and the time is 1 ms. -/
def lateLaunch : Launch := launchOfBits (smallLaunch + 0x2400 * 2 ^ 320 + 4 * 2 ^ 288)
def lateState : State :=
  { readyState with ps := 1000000000, launches := [(0, some lateLaunch)], mem := writeBytes tabled.mem 0x2018 6 1 }
/-- A dispatcher's access of a launch that is over. -/
def endAccess (l : Launch) (va : DWord) (kind : Nat) (value : DWord) : DispWait :=
  { id := 0, die := l.die, slot := 0, part := l.part, va, write := true, kind, user := !l.priv, value }
/-- Where an access by itself ends, and the state after it. -/
def makesAt (u : State) (w : DispWait) : Attempt := ((u.numbered w).2.attemptAlone (u.numbered w).1).1
def made (u : State) (w : DispWait) : State := ((u.numbered w).2.attemptAlone (u.numbered w).1).2.dropWait (u.numbered w).1.id
/-- Meets the hypotheses of DispatcherSteps on a yield: of an ordinary task; of the last task of a start, whose record's successor is
none; of one whose items are not all done. -/
theorem witness_DispatcherSteps :
    (∀ succ ∈ [0, 0x3000], let s := State.modCtx { tabled with mem := writeBytes tabled.mem 0x2020 8 succ } 0 0 fun x => { x with yielding := true }
     (s.ctx 0 0).yielding = true ∧ (s.ctx 0 0).traps = [] ∧ (s.ctx 0 0).handler = false ∧
     s.releaseReady { core := 0, ctx := 0 } true = true ∧ ∃ k, (s.ctx 0 0).task = some k ∧ k.startItem = false ∧
      let read : DispWait := { id := 0, die := coreDie 0, slot := k.slot, part := s.partOf 0 0, va := k.record + 32#64, write := false, kind := 6
                               user := s.slotUser k.slot }
      makesAt s read = .at_ 0x2020 ∧ (made s read).homeRead 0x2020 8 = succ ∧
      makesAt (made s read) { read with va := 0x3010#64, write := true, kind := 2 } = .at_ 0x3010) ∧
    (let s := State.modCtx { tabled with launches := [(0, some { placeLaunch with startLeft := 2 })] } 0 0 fun x =>
       { x with yielding := true, task := x.task.map fun k => { k with startItem := true } }
     ((s.ctx 0 0).task.map fun k => (k.slot, k.startItem)) = some (0, true) ∧ ((s.launch 0).map Launch.startLeft).getD 0 - 1 ≠ 0) ∧
    -- a boundary has passed
    (let s : State := { leadState.setCtlF offDSPCTL 0 10 5 with ps := 1000000 }
     tblGet 0 s.sched.agedAt 0 < s.ps / 1000000 ∧ 0 < s.ctlF offDSPCTL 0 10) ∧
    -- a request that waits for one context, and for two
    (let q : Request := { key := 5, core := 0, members := [0] }
     q.core = 0 ∧ 0 ∈ q.members ∧ q.claim = none ∧ q.members.filter (· != 0) = [] ∧ ({ q with members := [0, 1] } : Request).members.filter (· != 0) ≠ []) ∧
    -- accesses that were held
    ((waitState.sched.waits.find? fun w => w.id == 7 && w.die == 0) = some heldWrite ∧
      (waitState.sched.faults.find? fun f => f.exk == 3 && f.op == 7) = none) ∧
    (∀ yes ∈ [true, false], let f := { lostFault with outcome := some yes }
     let s : State := { waitState with sched := { waitState.sched with faults := [f] } }
     (s.sched.waits.find? fun w => w.id == 7 && w.die == 0) = some heldWrite ∧
     (s.sched.faults.find? fun f => f.exk == 3 && f.op == 7) = some f ∧ f.outcome = some yes) :=
  ⟨by
    intro succ h
    simp only [List.mem_cons, List.not_mem_nil, or_false] at h
    rcases h with rfl | rfl <;>
      exact ⟨by decide +kernel, by decide +kernel, by decide +kernel, by decide +kernel, some_with (by decide +kernel) (by decide +kernel)⟩,
    by decide +kernel, by decide +kernel, by decide +kernel, by decide +kernel, by decide +kernel⟩
/-- A record is dispatched, in time or late. -/
theorem witness_DispatcherSteps_dispatch :
    ∀ l ∈ [oneLaunch 0, lateLaunch], let s := if l = lateLaunch then lateState else readyState
     let s0 := (s.orderReady 0).2
     let u := ((s0.losePoisoned 0).tidyRequests 0).retryFreeing
     let v := u.dropAgents (Agent.dispatches 0 (some 5))
     let a : Agent := .dispatch 0 5
     (s.orderReady 0).1 = true ∧ (u.order 0).take 9 = .record readyRec :: [] ∧ u.launch 0 = some l ∧
     u.best (.record readyRec) l ((Item.area (.record readyRec) l).filter fun c => u.coreReady (.record readyRec) l c) = some 0 ∧
     v.hwFor 0 5 = some 0 ∧ v.freeLctx 0 0 l = some 0 ∧ v.windowFrame 0 0 none = none ∧
     v.hasResv 0 0 = false ∧ (v.keptWindow 0 0 && v.hasSpilled 0 0) = false ∧
     let r := v.attempt a { id := 0, die := 0, slot := 0, part := l.part, va := 0x2000#64, write := false, kind := 0, user := !l.priv, key := 5 }
     let late := r.2.lateBy (recDl (r.2.homeRead 0x2000 64)).toNat
     let ws := if late then r.2.lateWrites 0 readyRec l 0 0 else []
     let w := r.2.attemptAll a ws
     r.1 = .at_ 0x2000 ∧ late = decide (l = lateLaunch) ∧ readyRec.lateDrop = 0#2 ∧ (late = true → l.late.toNat < l.lqn) ∧
     w.1.1 = none ∧ (w.2.settle a).1 = true ∧ (w.2.settle a).2.lateBy (recDl (r.2.homeRead 0x2000 64)).toNat = late := by decide +kernel
/-- A queued launch is accepted, of one kind or the other, its slot's write made or held. -/
theorem witness_DispatcherSteps_accept :
    (let s := queuedState
     let p : PendingLaunch := { addr := 0x3000#64, bits := smallLaunch, user := false }
     let a : Agent := .accepts 0 (pendingSrc 0 0)
     let e := (s.dropAgents (Agent.acceptsBut 0 (pendingSrc 0 0))).entryRecord a 0 (launchOfBits smallLaunch).part false smallLaunch
     let r := e.2.placeReady a (launchOfBits smallLaunch) e.1
     (s.disp 0).freeAt ≤ s.ps ∧ s.slotTaken 0 = false ∧ s.nextPending 0 = some (0, 0, p) ∧ e.1 = .ok 0x2000 0 ∧ r.1 = true ∧
      recReserved 0 = true ∧ r.2.originOf (launchOfBits smallLaunch) 0 = (0, (0, 0)) ∧ r.2.freeLaunchSlot = some 1 ∧ (r.2.settle a).1 = true) ∧
    (∀ held ∈ [false, true], ∀ start ∈ [0, 2 ^ 44], let bits := smallLaunch + start * 2 ^ 512
     let s : State := { tabled with homes := { tabled.homes with regions := if held then [] else tabled.homes.regions } }
     let l : Launch := { launchOfBits bits with serial := s.fresh }
     l.start = decide (start ≠ 0) ∧ ((({ s with fresh := s.fresh + 1 } : State).setLaunch 1 (some l)).writeOrList (dispWrite 0 1 l.part 1 2
      (!l.priv) (BitVec.ofNat 64 (l.entry + 30)) 1#64)).1 = !held) := by decide +kernel
/-- A stopped task is to be saved; one is being spilled. -/
theorem witness_DispatcherSteps_spill :
    (let s := stoppedState
     let r := s.findFrame (.context 0 0) (coreDie 0) (List.range s.frameCount)
     (s.ctx 0 0).task.isSome = true ∧ (s.ctx 0 0).marked = true ∧ (s.ctx 0 0).stopped = true ∧ (s.ctx 0 0).spilling = none ∧
      (s.ctx 0 0).traps = [] ∧ (s.ctx 0 0).handler = false ∧ s.quiescent 0 0 = true ∧
      r.1 = .frame 0 0 ∧ r.2.poisonAt 0 = 0 ∧ r.2.keyed = false) ∧
    ((spillingState.ctx 0 0).spilling = some 0 ∧ (spillingState.sched.waits.any fun w => w.kind == 8 && w.key == 8 * 0 + 0) = false ∧
      (spillingState.ctx 0 0).task.isSome = true ∧ spillingState.launchOf 0 0 = some (oneLaunch 0) ∧
      (spillingState.lastResident 0 0 && spillingState.copyHolds 0 0) = false) ∧
    ∃ pas s1, spillingState.frameSpan (.context 0 0) (coreDie 0) 0 0 (1 + bodyLines +
      (if spillingState.lastResident 0 0 then (oneLaunch 0).smem / 64 else 0)) = (.ok pas, s1) :=
  ⟨by decide +kernel, by decide +kernel, spilling_spans⟩
/-- Launches that are over, with no DONE, and with a DONE and a SUCC. -/
theorem witness_DispatcherSteps_over :
    ((overState 0).launch 0 = some (oneLaunch 0) ∧ (overState 0).launchOver 0 = true ∧ BitVec.ofNat 64 (oneLaunch 0).succ = 0#64 ∧
      (oneLaunch 0).doneAddr = 0) ∧
    (let l := oneLaunch 0x2008
     let s := overState 0x2008
     let done := endAccess l (BitVec.ofNat 64 0x2008) 3 1#64
     s.launch 0 = some l ∧ s.launchOver 0 = true ∧ l.doneAddr ≠ 0 ∧ makesAt s done = .at_ 0x2008 ∧
      makesAt ((made s done).homeWrite 0x2008 8 1) (endAccess l (0x3000#64 + 16#64) 5 0#64) = .at_ 0x3010) := by decide +kernel
/-- R216: the task starts on context 0 of core 0 with the record's address in s1, and the record is gone. -/
theorem test_dispatch : after (.dispatchStep 0) readyState (fun t => ((t.ctx 0 0).str.pc, tblGet 0#64 (t.ctx 0 0).s 1, t.sched.recs.length,
    (t.ctx 0 0).task.map (·.record))) = some (0#64, 0x2000#64, 0, some 0x2000#64) := by decide +kernel
theorem test_launch_ends : after (.launchComplete 0) (overState 0x2008) (fun t => (readBytes t.mem 0x2008 8, t.launch 0)) = some (1, none) := by
  decide +kernel

/-- A trap of the lead strand: an illegal operand at 0x1000. -/
def listedTrap : Trap := { exk := 1, tid := none, slot := 0, cause := 5, pc := 0x1000#64, regionPc := 0x1000#64 }
/-- It is listed; TRAPVEC names a block at 0x100000, and the handler is enabled or not. -/
def trapState (on : Bool) : State :=
  (tabled.modCtx 0 0 fun x => { x with traps := [listedTrap] }).modCore 0 fun co => { co with trapvec := if on then 0x100001#64 else 0x100000#64 }
/-- A fault of the lead strand of core 0 on a page. -/
def faultAt (va : DWord) (host : Bool) : FaultSvc :=
  { id := 8, part := 0, va, write := false, fetch := false, user := false, cause := 8, sub := 0, core := 0, ctx := 0, exk := 1, hostMode := host }
def faultState (fs : List FaultSvc) : State := { tabled with sched := { tabled.sched with faults := fs } }
/-- Partition 0's fault ring: four entries at 0x5000, none taken. -/
def ringed (s : State) : State := (s.setCtl (offPFRING 0) 0x5000#64).setCtlF (offPFRING 0 + 8) 0 32 4
theorem witness_TrapAndFaultSteps :
    (let s := trapState true
     ((s.ctx 0 0).traps = [listedTrap] ∧ (∀ y ∈ (s.ctx 0 0).traps, y.fatal = false) ∧ listedTrap.service = none ∧ (s.ctx 0 0).handler = false ∧
      (s.executors 0 0).all s.writesSettled = true ∧ s.trapsOn 0 = true) ∧
     ∃ s1, s.span (.context 0 0) (coreDie 0) (s.partOf 0 0) (!s.privileged { core := 0, ctx := 0 }) .write (s.leadFrame 0 0) none 16 =
      (.ok ((List.range 16).map fun k => 0x100000 + 64 * k), s1) ∧ s1.poisoned ((List.range 16).map fun k => 0x100000 + 64 * k) = false) ∧
    -- the handler's block does not translate
    (let s := (trapState true).modCore 0 fun co => { co with trapvec := 0x40000001#64 }
     ((s.ctx 0 0).traps = [listedTrap] ∧ (s.executors 0 0).all s.writesSettled = true ∧ s.trapsOn 0 = true ∧
      (s.span (.context 0 0) (coreDie 0) (s.partOf 0 0) (!s.privileged { core := 0, ctx := 0 }) .write (s.leadFrame 0 0) none 16).1 =
        .fault 8 0 0x40000000#64)) ∧
    (let s := trapState false
     (s.ctx 0 0).traps = [listedTrap] ∧ (∀ y ∈ (s.ctx 0 0).traps, y.fatal = false) ∧ (s.ctx 0 0).handler = false ∧
      (s.executors 0 0).all s.writesSettled = true ∧ s.trapsOn 0 = false) ∧
    (let s : State := { tabled.setCtl (offWDOG 0) 3#64 with ps := 3000000 }
     (s.ctx 0 0).resident = true ∧ (s.ctx 0 0).traps = [] ∧ (s.ctx 0 0).spilling = none ∧
     1000000 * s.ctlF (offWDOG (s.partOf 0 0)) 0 16 = 3000000 ∧ (s.ctx 0 0).wdStart + 3000000 ≤ s.ps) ∧
    (let f := faultAt 0x40000000#64 false
     ((faultState [f]).sched.faults.find? fun f => f.id == 8) = some f ∧ f.outcome = none ∧ f.hostMode = false ∧
     ∃ s1, (faultState [f]).rewalk f = (some false, s1)) ∧
    -- its executor's trap is under service, to end either way; an engine operation is suspended
    (∀ yes ∈ [true, false], let f := { faultAt 0x2000#64 false with outcome := some yes }
     let s := (faultState [f]).modCtx 0 0 fun x => { x with traps := [{ listedTrap with cause := 8, service := some 8 }] }
     (s.sched.faults.find? fun f => f.id == 8) = some f ∧ f.outcome = some yes ∧ f.exk < 2 ∧
     ((s.ctx 0 0).traps.find? fun t => t.service == some 8) = some { listedTrap with cause := 8, service := some 8 } ∧
     (s.ctx 0 0).handler = false ∧ s.present { core := 0, ctx := 0 } = true) ∧
    (∀ yes ∈ [true, false], let f := { faultAt 0x2000#64 false with outcome := some yes, exk := 2, op := 1 }
     let o := { theOp (.copy false) (copyOf 0x2000 0x300 4) with fault := some 8, state := .suspended }
     let s := (faultState [f]).modCore 0 fun co => { co with ops := [o] }
     (s.sched.faults.find? fun f => f.id == 8) = some f ∧ f.outcome = some yes ∧ f.exk = 2 ∧ (s.core 0).findOp f.op = some o ∧
     o.fault = some 8) ∧
    (let f := faultAt 0x40000000#64 true
     ((faultState [f]).sched.faults.find? fun f => f.id == 8) = some f ∧ f.hostMode = true ∧ f.outcome = none ∧ f.seq = none ∧
     (faultState [f]).ctlF (offPFRING f.part + 8) 0 32 = 0) ∧
    (let f := faultAt 0x40000000#64 true
     let s := ringed (faultState [{ faultAt 0x40000008#64 true with id := 9, seq := some 2#32 }, f])
     (s.sched.faults.find? fun f => f.id == 8) = some f ∧ s.ctlF (offPFRING f.part + 8) 0 32 ≠ 0 ∧ s.ringEntryFor f = some 2#32) ∧
    (let f := faultAt 0x40000000#64 true
     let s := ringed (faultState [f])
     ((s.sched.faults.find? fun f => f.id == 8) = some f ∧ s.ctlF (offPFRING f.part + 8) 0 32 ≠ 0 ∧ s.ringEntryFor f = none ∧
      (s.ctlF (offPFRING f.part + 16) 0 32 + 2 ^ 32 - s.ctlF (offPFRING f.part + 24) 0 32) % 2 ^ 32 < s.ctlF (offPFRING f.part + 8) 0 32 ∧
      (s.ctl64 (offPFRING f.part)).toNat + 32 * (s.ctlF (offPFRING f.part + 16) 0 32 % s.ctlF (offPFRING f.part + 8) 0 32) = 0x5000 ∧
      f.exk < 3 ∧ f.core < 1024 ∧ f.ctx < 8 ∧ f.cause < 256) ∧
     s.poisonAt 0x5000 = 0 ∧ s.keyed = false ∧ s.accReady (.fault 8) true 0x5000 = (true, s)) ∧
    (leadState.faultsOf 2#32 = []) ∧
    (let f := { faultAt 0x2000#64 true with seq := some 2#32 }
     (faultState [f]).faultsOf 2#32 = [f] ∧ ∃ s1, (faultState [f]).rewalk f = (some true, s1)) ∧
    (leadState.ctlF offPKILL (8 + 1) 1 = 0 ∧
     (leadState.setCtlF offPKILL (8 + 1) 1 1).ctlF offPKILL (8 + 1) 1 = 1 ∧ (leadState.setCtlF offPKILL (8 + 1) 1 1).partCtxs 1 = [] ∧
     ((leadState.setCtlF offPKILL (8 + 1) 1 1).retryFreeing.sched.freeing.any fun e => e.1 == 1) = false ∧ (leadState.cores.map (·.1)).Nodup) ∧
    -- a fatal trap; a kill beside another context of the launch, with an operation of the killed one
    (let s := tabled.modCtx 0 0 fun x => { x with traps := [{ listedTrap with fatal := true }] }
     ((s.ctx 0 0).traps.find? fun t => t.fatal && t.service.isNone) = some { listedTrap with fatal := true }) ∧
    (let o := theOp (.copy false) (copyOf 0x200 0x300 5)
     let s := (opState o).modCtx 0 1 fun x => { x with task := (tabled.ctx 0 0).task }
     (s.ctx 0 0).task.isSome = true ∧ (s.ctx 0 1).task = (s.ctx 0 0).task ∧ s.launch 0 = some placeLaunch ∧ (s.core 0).mx.holder = some 0 ∧
     (s.core 0).mx.needle = (((s.ctx 0 0).task.map Task.lctx).getD 9) ∧
     ((s.core 0).ops.filter fun o => o.ofCtx 0 && o.state != .complete) = [o] ∧ o.who.core = 0 ∧ o.slot = 0 ∧
     (s.core 0).resv.any (fun r => r.slot == 0) = true ∧ o.statOff = some 0x100 ∧
     ((List.range 16).find? fun n => s.ctlF (offFLOG n) 63 1 == 0) = some 0) :=
  ⟨⟨by decide +kernel, pair_with (by decide +kernel) (by decide +kernel)⟩, by decide +kernel, by decide +kernel, by decide +kernel,
    ⟨by decide +kernel, by decide +kernel, by decide +kernel, pair_of (by decide +kernel)⟩, by decide +kernel, by decide +kernel,
    by decide +kernel, by decide +kernel, ⟨by decide +kernel, by decide +kernel, by decide +kernel, by rfl⟩, by decide +kernel,
    ⟨by decide +kernel, pair_of (by decide +kernel)⟩, by decide +kernel, by decide +kernel, by decide +kernel⟩
/-- R357: the handler starts at its entry, the frame holds the PC; 24 R369: without a handler the context dies. -/
theorem test_delivery : after (.trapDelivery 0 0) (trapState true) (fun t => ((t.ctx 0 0).handler, (t.ctx 0 0).str.pc, readBytes t.mem 0x1002C8 8)) =
      some (true, 0x102000#64, 0x1000) ∧
    after (.trapDelivery 0 0) (trapState false) (fun t => (t.ctx 0 0).task.isNone) = some true := by decide +kernel

/-! ### Regulators, power, the host side, partitions, firmware -/

/-- Meets the hypotheses of QosSteps: an accepted write pending at a microsecond; a quarter; values that are accepted and rejected. -/
theorem witness_QosSteps :
    (let s : State := { leadState with ps := 2000000, power := { leadState.power with pend := [{ off := offQos 1, value := 64#64, due := 2 }] } }
     s.power.refilled < s.micro ∧ s.power.pend = [{ off := offQos 1, value := 64#64, due := 2 }] ∧ 2 ≤ s.micro ∧
      ({ s with ps := 1999999 } : State).micro < 2) ∧
    ({ leadState with ps := 250000 }.power.quarterAt < { leadState with ps := 250000 }.time / 250) ∧
    (bitsOf (64#64).toNat 0 24 % 64 = 0 ∧ bitsOf (64#64).toNat 24 24 % 64 = 0 ∧ bitsOf (64#64).toNat 24 24 = 0 ∧ bitsOf (1#64).toNat 0 24 % 64 ≠ 0) ∧
    (bitsOf (1024#64).toNat 0 10 < bitsOf (1024#64).toNat 10 10 ∧ bitsOf (1#64).toNat 10 10 ≤ bitsOf (1#64).toNat 0 10 ∧
      bitsOf (1#64).toNat 20 10 ≤ bitsOf (1#64).toNat 10 10) ∧
    (1#64 ≠ leadState.ctl64 (offPLCMAP 0) ∧ ∀ b < 64, (leadState.ctl64 (offPLCMAP 0)).getLsbD b ≠ (1#64).getLsbD b →
      leadState.pairHeld (64 * 0 + b) = false) ∧
    (let s : State := { leadState with homes := { leadState.homes with scrub := [2] } }
     2 ∈ s.homes.scrub ∧ s.exclIn (2147483648 * 2) 2147483648 = false) ∧
    leadState.power.quarterAt < ({ leadState with ps := 250000 } : State).time / 250 ∧
    (bitsOf (64#64).toNat 0 24 % 64 = 0 ∧ bitsOf (2 ^ 24 * 65 : DWord).toNat 24 24 % 64 ≠ 0) := by decide +kernel
/-- Meets the clauses of QosSteps on a head's line: room for one; a home that nobody holds alone, and one that a
host does; a regulator that admits the request, and one that does not. -/
theorem witness_QosSteps_head :
    leadState.ctlF (offHEADURG 0) 32 17 - 64 + 64 ≤ 65536 ∧ (∀ line, leadState.homeBusy (64 * line) = false) ∧
    (∀ line, ∃ u, leadState.regulate .other (10 + 0) (64 * line) = (true, u)) ∧
    (∀ line, ∃ u, (leadState.setCtlF (offQos 10) 0 24 1).regulate .other (10 + 0) (64 * line) = (false, u)) ∧
    ∃ s : State, s.homeBusy (64 * 5) = true := by
  refine ⟨by decide +kernel, fun line => ?_, fun line => ?_, fun line => ?_, ⟨tabled.setHdir 5 { excl := some 0 }, by decide +kernel⟩⟩
  · have h : ∀ a, leadState.forward a = a := fun a => (settled leadState (by decide +kernel) a).1
    have h2 : ∀ a, leadState.scrubbing a = false := fun a => by simp [State.scrubbing, leadState, State.reset]
    have h3 : ∀ r, leadState.region r = .host := fun r => rfl
    have h4 : ∀ l, (leadState.hdir l).excl = none := fun l => rfl
    simp [State.homeBusy, h, h2, h3, h4]
  · have h1 : leadState.share 10 = 0 := by decide +kernel
    have h2 : leadState.throttled 10 = false := by decide +kernel
    have h3 : leadState.mayEnter .other 10 = true := by decide +kernel
    exact pair_of (by simp [State.regulate, State.admits, h1, h2, h3])
  · have h1 : (leadState.setCtlF (offQos 10) 0 24 1).share 10 = 1 := by decide +kernel
    have h2 : (leadState.setCtlF (offQos 10) 0 24 1).power.buckets = [] := by decide +kernel
    exact pair_of (by simp [State.regulate, State.admits, h1, h2, tblGet])
/-- 15 R281: the scrub of pair 0 leaves nothing of the page tables. -/
theorem test_scrub : after (.plcmapScrubDone 0) { tabled with homes := { tabled.homes with scrub := [0] } } (fun t => t.mem) = some [] := by
  decide +kernel
/-- MODE bit 18 set or not, a lending boundary passed. -/
def lendState (soft : Bool) : State := { leadState with ps := 10000000, mode := if soft then 0x40000#64 else 0#64 }
theorem witness_PowerSteps :
    ((lendState false).mode.getLsbD 18 = false ∧ (lendState false).lendDue = true) ∧
    ((lendState true).mode.getLsbD 18 = true ∧ (lendState true).lendDue = true) ∧
    (let s := leadState.setCtlF (offLend 0) 63 1 1
     s.lendValid 0 = true ∧ s.recalling 0 = false ∧ clusterOf 0 = 0) ∧
    (let s : State := { leadState.setCtlF (offLend 3) 63 1 1 with power := { leadState.power with recalls := [(3, 7)] } }
     s.recalling 3 = true ∧ s.lendValid 3 = true) ∧
    (let s : State := { leadState with ps := 5000007, power := { leadState.power with recalls := [(3, 7)] } }
     s.recalling 3 = true ∧ s.lendValid 3 = false ∧ s.power.recalls = [(3, 7)] ∧ 7 + 5000000 ≤ s.ps) ∧
    (leadState.lendValid 3 = false ∧ leadState.recalling 3 = false ∧ ∀ m < 40, leadState.lendValid m = true → bitOf (leadState.lendMask m) 3 = false) ∧
    4 % 8 ≠ 0 ∧ (leadState.regReady .other (offWDOG 0) 5#64).1 = true := by decide +kernel
/-- R260, R262: an idle cluster that lends to one that stalled: both grants of the borrower rise by what the others can spare. -/
theorem test_lend : after .lendStep ((lendState false).modCore 0 fun co => { co with stall := 5#64 })
    (fun t => (t.lendValid 0, t.lendValid 1, t.lendMask 1, t.pshare 1, t.ashare 1)) = some (false, true, 1, 896, 116) := by decide +kernel

/-- Line 0x8000 of region 1, whose copies are given. -/
def hostState (d : HostDir) : State := tabled.setHdir 0x8000 d
theorem witness_HostSteps :
    (let x := 0x200000#64 ||| 1#64
     leadState.homes.ownReq = none ∧ bitsOf x.toNat 21 19 < regionCount ∧ regionCount ≤ bitsOf (0xC000000000#64 ||| 1#64 : DWord).toNat 21 19 ∧
     ({ leadState with homes := { leadState.homes with ownReq := some (1, true) } } : State).homes.ownReq.isSome = true) ∧
    (let s : State := { leadState with homes := { leadState.homes with ownReq := some (1, true) } }
     s.homes.ownReq = some (1, true) ∧ s.region 1 = regionOwner true) ∧
    (let s := leadState.setRegion 1 .toAcc
     s.region 1 = .toAcc ∧ ∀ e ∈ s.homes.hostDir, e.1 / 32768 = 1 → e.2.excl = none) ∧
    (let s := leadState.setRegion 1 .toHost
     s.region 1 = .toHost ∧ s.regionDrained 1 = true ∧ s.homes.ownReq = none ∧ s.homes.held = []) ∧
    (let s := (leadState.setRegion 1 .toHost).modStrand leadWho fun x => { x with wait := .own 1 true }
     regionOwner true = .host ∧ (s.strand leadWho).wait = .own 1 true ∧ s.homes.ownReq = none ∧ s.homes.held = []) ∧
    (lineOf (tabled.forward (64 * 0x8000)) = 0x8000 ∧ tabled.hostMay 0x8000 = true ∧ tblGet 0 tabled.homes.poison 0x8000 = 0 ∧
      tabled.scrubbing (64 * 0x8000) = false ∧ tabled.migLocked (64 * 0x8000) = false ∧ tabled.hostHolds 1 0x8000 = false ∧
      tabled.region (0x8000 / 32768) = .host ∧ (tabled.hdir 0x8000).excl = none ∧ tabled.forward (64 * 0x8000) = 64 * 0x8000 ∧
      tabled.mayEnter (.host 1 0x8000) (8 + 1) = true ∧ tabled.admits (8 + 1) (tabled.dieOf (tabled.forward (64 * 0x8000))) = true ∧
      tabled.homeBusy (64 * 0x8000) = false ∧ tabled.hostHolds 3 0x8000 = false) ∧
    -- a device's access has begun to take the region in this mesh cycle, and the other host holds the line
    (let s := (hostState { excl := some 0 }).wantAcc 1
     s.region (0x8000 / 32768) = .toAcc ∧ s.justMoved (0x8000 / 32768) = true ∧ (s.hdir 0x8000).excl = some 0 ∧ s.hostMay 0x8000 = true ∧
      s.scrubbing (64 * 0x8000) = false ∧ s.migLocked (64 * 0x8000) = false ∧ s.hostHolds 1 0x8000 = false) ∧
    (∀ dry ∈ [false, true], let s := if dry then tabled.setCtlF (offQos (6 + 3)) 0 24 1 else tabled
      (s.regulate (.host 3 0x8000) (6 + 3) (64 * 0x8000)).1 = !dry ∧ s.homeBusy (64 * 0x8000) = false) ∧
    ((hostState { excl := some 1 }).homeBusy (64 * 0x8000) = true ∧ (hostState { excl := some 1 }).hostMay 0x8000 = true) ∧
    (let s := hostState { excl := some 1, recallAt := some 0 }
     (s.hdir 0x8000).excl = some 1 ∧ (s.hdir 0x8000).recallAt = some 0 ∧ s.ps < 0 + 20000000 ∧ tblGet 0 s.homes.poison 0x8000 = 0 ∧
      s.homes.held = []) ∧
    (let s : State := { hostState { excl := some 1, recallAt := some 0 } with ps := 20000000 }
     (s.hdir 0x8000).excl = some 1 ∧ (s.hdir 0x8000).recallAt = some 0 ∧ 0 + 20000000 ≤ s.ps ∧ s.homes.held = [] ∧
     ((List.range 16).find? fun n => s.ctlF (offLOSTREC n) 63 1 == 0) = some 0) := by
  refine ⟨?_, ?_, ?_, ?_, ?_, ?_, ?_, ?_, ?_, ?_, ?_⟩ <;> decide +kernel
/-- R339: a recalled line's data reach its home, and its holder keeps it shared. -/
theorem test_recall : after (.hostRecallReply 1 0x8000 7#512) (hostState { excl := some 1, recallAt := some 0 })
    (fun t => (t.hdir 0x8000, readBytes t.mem 0x200000 8)) = some ({ shared := 2#2 }, 7) := by decide +kernel

/-- Migration slot 0 from 0x2000 to 0x8000, a page of 4 KiB, in a state. -/
def migState (n : Nat) : State := ((tabled.setCtl (offMIG 0) 0x2000#64).setCtl (offMIG 0 + 8) 0x8000#64).setCtlF (offMIG 0 + 16) 62 2 n
theorem witness_MigrationSteps :
    (tblGet 0 leadState.homes.poison (bitsOf (0x2000#64 ||| 1#64).toNat 6 34) = 0 ∧
      tblGet 0 ({ leadState with homes := { leadState.homes with poison := [(0x80, 1)] } } : State).homes.poison
        (bitsOf (0x2000#64 ||| 1#64).toNat 6 34) ≠ 0) ∧
    (let s : State := { leadState with homes := { leadState.homes with poison := [(0x80, 2)], reclaim := some 0x80 } }
     s.reclaiming = some 0x80 ∧ s.scrubbing (64 * 0x80) = false ∧
     (let b : State := { s with homes := { s.homes with scrub := [0] } }
      b.reclaiming = some 0x80 ∧ b.scrubbing (64 * 0x80) = true) ∧ s.ctlF offRECLAIM 40 1 ≠ 1 ∧ (s.setCtlF offRECLAIM 40 1 1).ctlF offRECLAIM 40 1 = 1) ∧
    ((migState 0).migState 0 = 0 ∧ (migState 0).migOk 0 = true ∧ (migState 0).migSrc 0 = 0x2000) ∧
    (((migState 0).setCtl (offMIG 0) 0x2010#64).migOk 0 = false) ∧
    ((migState 1).migState 0 = 1 ∧ (migState 1).mem.wf = true ∧ (migState 1).keyed = false ∧
      (migState 1).exclIn ((migState 1).migSrc 0) ((migState 1).migLen 0) = false ∧
      (migState 1).exclIn ((migState 1).migDst 0) ((migState 1).migLen 0) = false ∧
      (migState 1).scrubbing ((migState 1).migSrc 0) = false ∧ (migState 1).scrubbing ((migState 1).migDst 0) = false) ∧
    ((migState 2).migState 0 = 2 ∧ (migState 2).migOk 0 = true) ∧
    -- a write of the page that was held, before the switch and after it
    (let w : Store := writeOf 0x2004 (.plain 4 0x11223344)
     let held (s : State) (w : Store) : State := { s.modCore 0 (fun co => { co with stores := [w] }) with homes := { s.homes with held := [(0, w.id)] } }
     let s := held (migState 2) w
     let w' : Store := { w with pa := 0x8004 }
     let u := held (migState 3) w'
     s.homes.held.Nodup ∧ (0, w.id) ∈ s.homes.held ∧ (s.core 0).findStore w.id = some w ∧ s.migSrc 0 ≤ w.pa ∧ w.pa < s.migSrc 0 + s.migLen 0 ∧
      (∀ j < 4, j ≠ 0 → s.migState j ≠ 3) ∧
      u.homes.held = [(0, w'.id)] ∧ (u.core 0).findStore w'.id = some w' ∧ w'.done = false ∧ u.migLocked w'.pa = false ∧
      u.devReady (.access 0 w'.id) w'.pa = (true, u) ∧ u.poisonAt w'.pa = 0 ∧ u.lineBusy (u.homeOf w'.pa) w'.id = false ∧ u.keyed = false) ∧
    ((migState 3).migOk 0 = true ∧ (migState 3).migState 0 = 3 ∧ (migState 3).migSrc 0 ≤ 0x2FFF ∧ 0x2FFF < (migState 3).migSrc 0 + (migState 3).migLen 0 ∧
      ∀ j < 4, j ≠ 0 → (migState 3).migState j ≠ 3) := by
  refine ⟨?_, ?_, ?_, ?_, ?_, ?_, ?_, ?_⟩ <;> decide +kernel
/-- R346: after the switch the last byte of the page is at its new place, and after the release at its own. -/
theorem test_forward : (migState 3).forward 0x2FFF = 0x8FFF ∧ (migState 3).forward 0x3000 = 0x3000 ∧
    after (.migRelease 0) (migState 3) (fun t => (t.forward 0x2FFF, t.migState 0)) = some (0x2FFF, 0) := by decide +kernel
/-- R346: the page's bytes stand at the new place. -/
theorem test_migration : after (.migCopyDone 0) { migState 1 with mem := writeBytes (migState 1).mem 0x2008 4 0x55AA }
    (fun t => (readBytes t.mem 0x8008 4, readBytes t.mem 0x2008 4, t.migState 0)) = some (0x55AA, 0x55AA, 2) := by decide +kernel

/-- Partition 1 has keys and core rectangle (0, 4) of 4 × 4, its EN bit given. -/
def partState (en : Nat) : State :=
  ((leadState.setCtl (offPart 1 + 0x10) (BitVec.ofNat 64 (2 ^ 63 + 4 * 2 ^ 6 + 4 * 2 ^ 12 + 4 * 2 ^ 18))).setCtlF (offPart 1) 2 1 1).setCtlF (offPart 1) 0 1 en
theorem witness_PartitionSteps :
    ((partState 0).partOn 1 = false ∧ (partState 0).enableOk 1 = true) ∧ (leadState.partOn 1 = false ∧ leadState.enableOk 1 = false) ∧
    ((partState 1).partOn 1 = true ∧ (partState 1).disableOk 1 = true) ∧
    (let k : Task := { slot := 0, lctx := 0, record := 0x2000#64, level := 0, deadline := 0#48, stamp := 0 }
     let s : State := { partState 1 with sched := { (partState 1).sched with spilled := [{ key := 4, core := 0, part := 1, frame := 0, ready := 0, task := k }] } }
     s.partOn 1 = true ∧ s.disableOk 1 = false) ∧
    (let s := leadState.startKeys 1
     1 ∈ s.homes.keyScrub ∧ ∀ r ∈ s.pmemRanges 1, s.exclIn r.1 r.2 = false) ∧
    ({ leadState with modeNext := some 5#64 }.modeNext = some 5#64) ∧ (∀ n ∈ [0, 1], let s : State := { tabled with savebase := BitVec.ofNat 64 n }
      (s.framesUsed .other (List.range s.frameCount)).1 = some false) ∧
    -- one frame that is in use, one that has no page, one whose header must be waited for
    ((savedState.framesUsed savedBy [0]).1 = some true ∧ (savedState.frameSpan savedBy 0 0 0 1).1 = .ok [0x400000]) ∧
    (let s : State := { tabled with savebase := 0x40000001#64 }
     (s.frameSpan .other 0 0 0 1).1 = .fault 8 0 0x40000000#64) ∧
    (let s : State := { tabled with savebase := 1#64, homes := { tabled.homes with regions := [(0, .toHost)] } }
     (s.framesUsed .other (List.range s.frameCount)).1 = none) ∧
    (let s := leadState.modStrand leadWho fun x => { x with wait := .tlbinv 0x1000#64 }
     (s.ctx 0 0).str.wait = .tlbinv 0x1000#64) := by decide +kernel
/-- R239: the translation of the page at 0x1000 is gone from the core, and the wait has ended. -/
theorem test_tlbinv : after (.tlbInvalidationDone 0 0) (leadState.modStrand leadWho fun x => { x with wait := .tlbinv 0x1000#64 })
    (fun t => ((t.core 0).itlb, (t.core 0).dtlb, (t.ctx 0 0).str.wait)) = some ([], [], .tlbinvDone) := by decide +kernel

/-- Die 0's ring at 0x5000 of four entries; a batch of one lane, not yet dequeued, whose first argument is given; host or not. -/
def theBatch (host : Bool) (a0 a1 : DWord) : Batch :=
  { die := 0, host, index := 0, addr := 0x5000, seq := 1#64, part := 0, callers := [(3, leadWho, 4)], args := [(3, a0, a1)], formed := 1 }
def batchState (host : Bool) (a0 a1 : DWord) : State :=
  let off := offSvc 0 + (if host then 0x20 else 0)
  let s := ((tabled.setCtl off 0x5000#64).setCtlF (off + 8) 0 32 4).setCtlF (off + 16) 0 32 1
  { s with svc := { s.svc with batches := [theBatch host a0 a1] } }
/-- A caller of partition 1, which owns nothing. -/
def foreignBatch : Batch := { theBatch false 2#64 0#64 with part := 1 }
def foreignState : State := { batchState false 2#64 0#64 with svc := { tabled.svc with batches := [foreignBatch] } }
theorem foreign_nothing (s : State) (b : Batch) (hb : b.part = 1) (h : s.partOn 1 = false) :
    (Config.storageBytes s.choice).filter (fun e => s.ownsRegion b.part (regionOf e.1) && !inCtl e.1) = [] := by
  refine List.filter_eq_nil_iff.mpr fun e _ => ?_
  simp [hb, State.ownsRegion, h]
theorem nothing_ready (s : State) (a : Agent) {l : List (Nat × Byte)} (h : l = []) : s.allReady a true (l.map (·.1)) = (true, s) := by
  subst h; rfl
/-- A host batch answered in memory, or not, and still known or gone from the list. -/
def answeredState (done known : Bool) : State :=
  let s := { batchState true 1#64 0#64 with mem := writeBytes tabled.mem 0x5010 8 done.toNat }
  if known then s else { s with svc := { s.svc with batches := [] } }
/-- Meets the hypotheses of ServiceSteps on a lane's call. -/
theorem lanes_ready : ∀ a ∈ [(0x55#64, 0#64), (1#64, 0#64), (3#64, 0#64), (0x10003#64, 0#64), (16#64, 1#64), (16#64, 0x2000#64)],
    let s := batchState false a.1 a.2
    let b := theBatch false a.1 a.2
    s.svcLane 0 0 3 = some (b, a.1, a.2) ∧ s.mayServe b = true ∧ s.allReady (.batch 0 b.seq) true (recordPieces b.addr) = (true, s) ∧
      (b.callers.find? fun c => c.1 == 3) = some (3, leadWho, 4) := by
  intro a h
  simp only [List.mem_cons, List.not_mem_nil, or_false] at h
  rcases h with rfl | rfl | rfl | rfl | rfl | rfl <;> decide +kernel
theorem witness_ServiceSteps :
    (let s := batchState false 16#64 0x2000#64
     ∃ s3, s.span (.batch 0 1#64) 0 0 (!s.privileged { leadWho with ctx := leadWho.ctx % 8 }) .write 0x2000#64 none 18 =
        (.ok ((List.range 18).map fun k => 0x2000 + 64 * k), s3) ∧ s3.poisoned ((List.range 18).map fun k => 0x2000 + 64 * k) = false ∧
        ((List.range 18).map fun k => 0x2000 + 64 * k).any inCtl = false) ∧
    (svcCode 0x55#64 = none ∧ svcCode 1#64 = some 1 ∧ svcCode 2#64 = some 2 ∧ svcCode 3#64 = some 3 ∧ (3#64).getLsbD 16 = false ∧
      svcCode 0x10003#64 = some 3 ∧ (0x10003#64).getLsbD 16 = true ∧
      svcCode 16#64 = some 16 ∧ (1#64).toNat % 4096 ≠ 0 ∧ (0x2000#64).toNat % 4096 = 0) ∧
    (∃ s2, foreignState.svcLane 0 0 3 = some (foreignBatch, 2#64, 0#64) ∧ foreignState.mayServe foreignBatch = true ∧
      foreignState.allReady (.batch 0 foreignBatch.seq) true (recordPieces foreignBatch.addr) = (true, s2) ∧
      let l := (Config.storageBytes s2.choice).filter fun e => s2.ownsRegion foreignBatch.part (regionOf e.1) && !inCtl e.1
      s2.allReady (.batch 0 foreignBatch.seq) true (l.map (·.1)) = (true, s2)) :=
  ⟨pair_with (by decide +kernel) (by decide +kernel), by decide +kernel, foreignState, by decide +kernel, by decide +kernel, by decide +kernel,
    nothing_ready _ _ (foreign_nothing _ foreignBatch rfl (by decide +kernel))⟩
/-- Meets its other hypotheses: a reply that is the last, and one that is not; a switch of firmware; the host's answer to a batch that
is outstanding or has completed, or that is none, its DONE set or not. -/
theorem witness_ServiceSteps_answers :
    (let b := theBatch false 1#64 0#64
     (b.args.all fun a => (b.replied ++ [3]).contains a.1) = true ∧ (b.args.all fun a => (b.replied ++ [2]).contains a.1) = false) ∧
    (let s : State := { leadState with svc := { leadState.svc with ok := 2#2 } }
     s.svc.ok.getLsbD ((6#64).extractLsb' 1 1).toNat = true ∧ (6#64).getLsbD 2 = true ∧ (6#64).extractLsb' 1 1 ≠ s.svc.act) ∧
    (let s : State := { leadState with svc := { leadState.svc with req := true } }
     s.svc.req = true ∧ ∀ b ∈ s.svc.batches, b.host = true ∨ s.dequeued b = false) ∧
    (∀ done ∈ [true, false], ∀ known ∈ [true, false], let s := answeredState done known
     let age := (s.ctlF (offSvc 0 + 0x20 + 16) 0 32 + 2 ^ 32 - bitsOf (0#64).toNat 0 32) % 2 ^ 32
     s.ctlF (offSvc 0 + 0x20 + 8) 0 32 = 4 ∧ age = 1 ∧ (s.ctl64 (offSvc 0 + 0x20)).toNat + 1088 * (bitsOf (0#64).toNat 0 32 % 4) = 0x5000 ∧
      s.allReady .other false (recordPieces 0x5000) = (true, s) ∧ s.poisonAt 0x5000 = 0 ∧ s.homeRead (0x5000 + 16) 8 % 2 = done.toNat ∧
      (s.svc.batches.find? fun b => b.die == 0 && b.host && b.index == bitsOf (0#64).toNat 0 32) =
        if known then some (theBatch true 1#64 0#64) else none) ∧
    leadState.ctlF (offSvc 0 + 0x20 + 8) 0 32 = 0 := by
  refine ⟨?_, ?_, ?_, ?_, ?_⟩ <;> decide +kernel
/-- Meets the hypotheses of ServiceSteps on a cold reset: a slot whose image has another key than the fuses; and any image that the
ROM accepts. Which ones it accepts is open (log 14), so the second takes one as given. -/
theorem witness_ServiceSteps_boot :
    (∃ s : State, ∀ k < 2, ∀ x, s.slotImage k = some x → imageOk x = false) ∧
    ∀ x, imageOk x = true → ∃ s : State, s.slotImage 0 = some x :=
  ⟨⟨{ leadState with svc := { leadState.svc with
        fw0 := some { keyHash := Config.fusedKey + 1#256, digest := 0#256, signature := 0#3072, version := 0#64 }
        fw1 := some { keyHash := Config.fusedKey + 1#256, digest := 0#256, signature := 0#3072, version := 0#64 } } }, fun k hk x hx => by
      have h : x.keyHash = Config.fusedKey + 1#256 := by
        have : k = 0 ∨ k = 1 := by omega
        rcases this with rfl | rfl <;> (simp [State.slotImage] at hx; rw [← hx])
      have h2 : (x.keyHash == Config.fusedKey) = false := by
        rw [h, beq_eq_false_iff_ne]
        intro hc
        have := congrArg (· - Config.fusedKey) hc
        simp at this
      simp [imageOk, h2]⟩,
    fun x _ => ⟨{ leadState with svc := { leadState.svc with fw0 := some x } }, rfl⟩⟩
theorem test_mext : after (.mextgoWrite 0 2#64) leadState (fun t => t.ctl256 (offMeas 0 2)) =
    some (valueOf (sha256 (bytesOf 0 64)) % 2 ^ 256) := by decide +kernel

/-! ### Words, bundles, cycles -/

/-- Meets the hypotheses of DecodeOfEncode: for a lead strand, for a thread, and a word that a header lends immediates. -/
theorem witness_DecodeOfEncode :
    (Instr.iadd 63#6 3#7 1#7 2#7).isWord = true ∧ (Instr.iadd 63#6 3#7 1#7 2#7).legalFor .lead 64 = true ∧ 64 ≤ 64 ∧
    (Instr.cvt 47#6 1#2 3#7 4#7 4#3 1#3).isWord = true ∧ (Instr.cvt 47#6 1#2 3#7 4#7 4#3 1#3).legalFor .thread 128 = true ∧
    (Instr.movi 63#6 7#7 (.long 0x12345#20)).isWord = true ∧ (Instr.movi 63#6 7#7 (.long 0x12345#20)).legalFor .lead 64 = true ∧
    (encode (Instr.movi 63#6 7#7 (.long 0x12345#20))).length = 2 := by decide +kernel
/-- Core 0 placed at the word of IADD s3, s1, s2; s1 and s2 hold 5 and 6. -/
def addWord : Word := (encode (Instr.iadd 63#6 3#7 1#7 2#7)).getD 0 0#32
def addState : State := with_ leadWho (State.reset.withFetchWord 32 addWord.toNat) [(1, 5), (2, 6)]
def addBundle : Bundle := match decodeBundle .lead [addWord] with | .ok b => b | .error _ => { words := 0, empties := 0, yield := false, marker := false, weight := 0, a := none, b := none, c := none }
def addIssue : Issue := { core := 0, ctx := 0, tids := [], lead := true, pc := 0x1000#64, words := 1, slot := .a }
/-- BRK while no loop is open, and a PC that no page maps. -/
def brkWord : Word := (encode (Instr.brk 63#6)).getD 0 0#32
def brkBundle : Bundle := match decodeBundle .lead [brkWord] with | .ok b => b | .error _ => addBundle
def brkState : State := State.reset.withFetchWord 32 brkWord.toNat
theorem witness_StepRunsTheBundle_bad :
    ((brkState.strand leadWho).pc.toNat % 4 = 0 ∧ ∃ s1, brkState.fetchWords leadWho (.strand leadWho (brkState.strand leadWho).pc)
        (!brkState.privileged leadWho) (brkState.strand leadWho).pc 4 [] = (.ok [brkWord], s1) ∧
      decodeBundle leadWho.ex [brkWord] = .ok brkBundle ∧ s1.loopIllegal leadWho brkBundle = true ∧
      brkBundle.check leadWho.ex (s1.regBound leadWho) = .ok brkBundle) ∧
    (let s := leadState.modStrand leadWho fun x => { x with pc := 0x9000#64 }
     (s.strand leadWho).pc.toNat % 4 = 0 ∧ ∃ cause sub va s1, s.fetchWords leadWho (.strand leadWho (s.strand leadWho).pc)
      (!s.privileged leadWho) (s.strand leadWho).pc 4 [] = (.fault cause sub va, s1)) :=
  ⟨⟨by decide +kernel, pair_with (by decide +kernel) (by decide +kernel)⟩, by decide +kernel, 8, 1, 0x9000#64, pair_of (by decide +kernel)⟩
theorem witness_StepRunsTheBundle :
    (addState.agenda = (0, .coreCycle 0) :: [] ∧ (({ addState with agenda := [], choice := addState.choice + 1 } : State).elapse
      (addState.momentOf (.coreCycle 0) (addState.ps + 0))).mayTakeUp (.coreCycle 0) = true) ∧
    (leadState.agenda = [] ∧ (({ leadState with choice := leadState.choice + 1 } : State).elapse
      (leadState.momentOf (Config.freeEvent leadState.choice) leadState.freePs)).mayTakeUp (Config.freeEvent leadState.choice) = true) ∧
    (Instr.iadd 63#6 3#7 1#7 2#7).isWord = true ∧
    ((addState.strand leadWho).pc.toNat % 4 = 0 ∧
      (∃ s1, addState.fetchWords leadWho (.strand leadWho (addState.strand leadWho).pc) (!addState.privileged leadWho)
        (addState.strand leadWho).pc 4 [] = (.ok [addWord], s1) ∧ addBundle.check leadWho.ex (s1.regBound leadWho) = .ok addBundle ∧
          s1.loopIllegal leadWho addBundle = false) ∧
      decodeBundle leadWho.ex [addWord] = .ok addBundle ∧ addBundle.isEmpty = false ∧ addBundle.empties ≤ (addState.strand leadWho).run) ∧
    (addBundle.slots = [(.a, .iadd 63#6 3#7 1#7 2#7)] ∧ addBundle.yield = false ∧
      ∃ r j, exec (.iadd 63#6 3#7 1#7 2#7) ({ addState.enterRegion leadWho addBundle with cur := some addIssue }.modStrand leadWho fun y =>
        { y with pc := pcAfter 0x1000#64 addBundle.words }) = .next r ∧ r.cur = some j ∧ j.full = false ∧ j.waits = [] ∧ j.traps = [] ∧
      (r.settle (.strand leadWho (addState.strand leadWho).pc)).1 = true) ∧
    -- an access whose request is not admitted
    (((dryState (theOp .ovlp 0)).ask 0 0x2000).settle (.strand leadWho 0x1000#64)).1 = false := by
  have may : ∀ i ps, (({ leadState with choice := leadState.choice + 1 } : State).elapse ps).mayTakeUp i = true := fun i ps => by
    obtain ⟨_, _, _, _, h⟩ := State.elapse_only ({ leadState with choice := leadState.choice + 1 } : State) ps
    rw [h]
    simp [State.mayTakeUp, leadState, State.reset]
  exact ⟨by decide +kernel, ⟨by decide +kernel, may _ _⟩, by decide +kernel,
    ⟨by decide +kernel, pair_with (by decide +kernel) (by decide +kernel), by decide +kernel, by decide +kernel, by decide +kernel⟩,
    ⟨by decide +kernel, by decide +kernel, _, addIssue, rfl, by decide +kernel, by decide +kernel, by decide +kernel, by decide +kernel,
      by decide +kernel⟩, by decide +kernel⟩
/-- One step from reset with the word placed runs it: s3 = 11, the PC past it, CYC at 1. -/
theorem test_step : (match step addState with
    | .next t => (t.reg leadWho 3#7, (t.strand leadWho).pc, (t.core 0).cyc, (t.core 0).clockOn)
    | _ => (0, 0#64, 0#64, false)) = (11, 0x1004#64, 1#64, true) := by decide +kernel

/-- The threads of core 0 at the start of its cycle. -/
def scanOf (s : State) : List Cand × State :=
  scanThreads 0 (completeBars 0 (scanThreads 0 (beginCycle 0 { s with ps := max s.ps (s.core 0).next })).2)
/-- What its lead strand would issue. -/
def pickOf (s : State) : Option (Nat × Next) × State := ((pickLead 0 (scanOf s).2).1, ageThreads 0 [] (pickLead 0 (scanOf s).2).2)
def hotState : State := addState.modCore 0 fun co => { co with charges := List.replicate 63 40 }
/-- A lead strand that drains before a load of its own has returned. -/
def drainWord : Word := (encode (Instr.drain 63#6)).getD 0 0#32
def drainBundle : Bundle := match decodeBundle .lead [drainWord] with | .ok b => b | .error _ => addBundle
def drainState : State := (State.reset.withFetchWord 32 drainWord.toNat).addLoad
  { id := 0, who := leadWho, part := 0, pa := 0x2000, va := 0x2000#64, size := 8, dst := some (3, 1) }
/-- Meets the hypotheses of CoreCycles on a lead bundle: the profile admits its charge, or does not; it issues; a core with nothing
to run. -/
theorem witness_CoreCycles :
    (cycleDue 0 addState = true ∧ ∃ s2, pickOf addState = (some (0, .run addBundle), s2) ∧ (scanOf addState).1 = [] ∧ (s2.core 0).held = none ∧
      (s2.core 0).charges.foldl (· + ·) 0 + (Next.run addBundle).charge ≤ s2.profile 0 ∧
      (issueLead 0 (s2.modCore 0 fun co => { co with held := none }) (0, .run addBundle)).1 = true) ∧
    (cycleDue 0 hotState = true ∧ ∃ s2, pickOf hotState = (some (0, .run addBundle), s2) ∧ (scanOf hotState).1 = [] ∧ (s2.core 0).held = none ∧
      s2.profile 0 < (s2.core 0).charges.foldl (· + ·) 0 + (Next.run addBundle).charge) ∧
    (issueLead 0 (drainState.modCore 0 fun co => { co with held := none }) (0, .run drainBundle)).1 = false ∧
    (let s : State := { State.reset with cores := [(0, { clockOn := true })] }
     cycleDue 0 s = true ∧ (s.core 0).ctxs = [] ∧ (s.core 0).held = none) :=
  ⟨⟨by decide +kernel, pair_with (by decide +kernel) (by decide +kernel)⟩, ⟨by decide +kernel, pair_with (by decide +kernel) (by decide +kernel)⟩,
    by decide +kernel, by decide +kernel⟩
/-- Threads 0 and 1 of core 0 at FADD g3, g1, g2, the core's charges given. -/
def faddWord : Word := (encode (Instr.fadd 63#6 3#7 1#7 2#7)).getD 0 0#32
def faddBundle : Bundle := match decodeBundle .thread [faddWord] with | .ok b => b | .error _ => addBundle
def pairState (charges : List Nat) : State :=
  ((State.reset.withFetchWord 32 faddWord.toNat).modCtx 0 0 fun x => { x with
    threads := [0, 1].map fun n => (n, tblGet none x.threads 0), masks := (List.range 8).map fun j => (j, 3#32) }).modCore 0 fun co =>
      { co with charges }
/-- What the cycle of core 0 would issue of its threads. -/
def readyOf (s : State) : List Cand × State :=
  let p := pickLead 0 (scanOf s).2
  let joined := (scanOf s).1.filter (joinComplete 0 p.2 (scanOf s).1)
  let able := joined.filter (engineFits 0 p.2 p.1 joined)
  (able, ageThreads 0 able p.2)
def bothThreads : Group := { ctx := 0, tids := [0, 1], pc := (pairState []).strand { core := 0, ctx := 0, tid := some 0 } |>.pc, n := .run faddBundle }
/-- Meets the hypotheses of CoreCycles on a group of two threads: one whose charge the profile admits, which issues, and one that it
does not; its members stand at the bundle, and none finds an engine full. -/
theorem witness_CoreCycles_group :
    (∀ hot ∈ [false, true], let s := pairState (if hot then List.replicate 63 40 else [])
      let lead := (pickLead 0 (scanOf s).2).1
      let u := (readyOf s).2
      let ready := (readyOf s).1.filter fun x => !((u.core 0).fp64Full && x.n.fp64)
      let k := (u.core 0).classes.foldl max 0
      cycleDue 0 s = true ∧ lead = none ∧ (u.core 0).held = none ∧ pickGroup 0 u ready k = some bothThreads ∧ bankPasses 0 u bothThreads ≤ 1 ∧
      (if hot then u.profile 0 < (u.core 0).charges.foldl (· + ·) 0 + (0 + bothThreads.n.charge)
       else (u.core 0).charges.foldl (· + ·) 0 + (0 + bothThreads.n.charge) ≤ u.profile 0 ∧
        (issueCycle 0 lead (some bothThreads) ((countPick 0 k ready bothThreads false u).modCore 0 fun co => { co with held := none })).2.1 = true)) ∧
    (let s := pairState []
     (bothThreads.tids.filter fun n => s.present { core := 0, ctx := bothThreads.ctx, tid := some n } &&
        (s.strand { core := 0, ctx := bothThreads.ctx, tid := some n }).pc == bothThreads.pc) = bothThreads.tids ∧
     (s.nextOf { core := 0, ctx := 0, tid := some 0 }).1 = .run faddBundle ∧ crossMask faddBundle = none ∧
     (issueTogether 0 0 false [0] faddBundle [] {} s).1 ≠ .full) := by
  refine ⟨?_, ?_⟩
  · intro hot h
    simp only [List.mem_cons, List.not_mem_nil, or_false] at h
    rcases h with rfl | rfl <;> decide +kernel
  · decide +kernel
/-- R257: a charge that the profile does not allow makes the cycle a stall: STALLCYC counts, nothing issues. -/
theorem test_stall : after (.coreCycle 0) hotState (fun t => ((t.core 0).stall, (t.core 0).cyc, t.reg leadWho 3#7, (t.strand leadWho).pc)) =
    some (1#64, 1#64, 0, 0x1000#64) := by decide +kernel

/-- Meets the hypotheses of FalseGuardLeavesEverything: an instruction under a predicate that is false, and the register forms. -/
theorem witness_FalseGuardLeavesEverything :
    IssuingOne leadState leadIssue leadWho ∧ leadState.guardOk leadWho 1#6 = false ∧ (Instr.iadd 1#6 3#7 1#7 2#7).isWord = true ∧
    (Instr.iadd 1#6 3#7 1#7 2#7).info.major ≠ 5 ∧ (Instr.iadd 1#6 3#7 1#7 2#7).info.priv = false ∧
    (∃ c, csrAssigned c = true ∧ leadState.csrAllowed leadWho c.toNat false = true ∧ leadState.csrAllowed leadWho c.toNat true = true) ∧
    leadState.privileged leadWho = true :=
  ⟨⟨rfl, rfl⟩, by decide +kernel, by decide +kernel, by decide +kernel, by decide +kernel, ⟨0x800#12, by decide +kernel⟩, by decide +kernel⟩
/-- Meets the hypotheses of StepsKeepMemoryCanonical and EveryStepAnswers. -/
theorem witness_StepsKeepMemoryCanonical : addState.mem.wf = true ∧ ∃ t, step addState = .next t := ⟨by decide +kernel, by
  have h : (match step addState with | .next _ => true | _ => false) = true := by decide +kernel
  split at h
  · exact ⟨_, by assumption⟩
  · cases h⟩
theorem witness_EveryStepAnswers :
    (let s : State := { State.reset with svc := { State.reset.svc with inReset := true }, agenda := [(5, .coreCycle 0)] }
     s.svc.inReset = true ∧ Instr.outlastsReset s.takeUp.1 = false) := by decide +kernel
theorem witness_CoreNumbers : 39 < 40 ∧ 15 < 16 ∧ (639 < 640 ∧ coreAt 39 15 = 639) ∧ clusterOf 0 = clusterOf 1 ∧ bitsOf 0x40000000 30 2 = 1 := by
  decide
end Sys2Proof.Tests
end

section
namespace Sys2Proof.Machine

/-! ### Memory keeps its canonical form (00 R5; 21 R325)

The memory of a state is in canonical form when `Memory.wf` holds of it, which is what `State.memOk` says. A function of the model that
changes no byte has a lemma `…_mem`: it leaves `State.mem` as it was. One that may write has a lemma `…_wf`: it keeps the form. A
meaning that takes another as its continuation has a lemma `…_keeps`, which asks the form of the continuation. The lemmas stand in the
order of the functions in the model, and each goes through the branches of its function and cites the lemmas of those it calls. -/

theorem State.foldl_mem {α : Type} (f : State → α → State) (l : List α) (s : State) (hf : ∀ t x, (f t x).mem = t.mem) :
    (l.foldl f s).mem = s.mem :=
  foldl_keeps (fun t : State => t.mem = s.mem) f l s rfl fun t x ht => (hf t x).trans ht
theorem State.foldl_wf {α : Type} (f : State → α → State) (l : List α) (s : State) (hf : ∀ t x, t.mem.wf = true → (f t x).mem.wf = true)
    (h : s.mem.wf = true) : (l.foldl f s).mem.wf = true :=
  foldl_keeps (fun t : State => t.mem.wf = true) f l s h hf
theorem mem_ite {c : Prop} [Decidable c] {s t u : State} (ht : t.mem = s.mem) (hu : u.mem = s.mem) :
    (if c then t else u).mem = s.mem := by
  split <;> assumption
theorem wf_ite {c : Prop} [Decidable c] {t u : State} (ht : t.mem.wf = true) (hu : u.mem.wf = true) :
    (if c then t else u).mem.wf = true := by
  split <;> assumption
/-- A recursion over a list that passes the state along, for any property `P` of its end and any `R` that each step keeps. -/
theorem brecOn_ends {α β : Type} {F : (l : List α) → List.below (motive := fun _ => State → β) l → State → β}
    {P : β → Prop} {R : State → Prop} (hn : ∀ b s, R s → P (F [] b s))
    (hc : ∀ x l b s, R s → (∀ t, R t → P (b.1 t)) → P (F (x :: l) b s)) (l : List α) (s : State) (h : R s) :
    P (List.brecOn l F s) := by
  induction l generalizing s with
  | nil => exact hn _ s h
  | cons x l ih => exact hc x l _ s h ih
/-- A change of the state that keeps the canonical form of memory. -/
def KeepsWf (f : State → State) : Prop := ∀ s, s.mem.wf = true → (f s).mem.wf = true
/-- Where a meaning answers with a state, that state's memory is in the canonical form. -/
def AnswerWf (r : Res) : Prop := ∀ t, r = .next t → t.mem.wf = true
@[simp] theorem answerWf_next {t : State} : AnswerWf (.next t) ↔ t.mem.wf = true := by
  simp [AnswerWf]
@[simp] theorem answerWf_fault {r : Fault} : AnswerWf (.fault r) := by
  simp [AnswerWf]
theorem keepsWf_id : KeepsWf id := fun _ h => h
/-- Stated for every property of the end, so that no step of the proof compares two states by evaluating the frame's address. -/
theorem keepsWf_of_ends {f : State → State} (hf : ∀ (P : State → Prop) (_ : ∀ t, t.mem.wf = true → P t) s, s.mem.wf = true → P (f s)) :
    KeepsWf f := fun s h => hf (fun t => t.mem.wf = true) (fun _ h => h) s h

/-! ### The state's operations -/

@[simp] theorem State.setReg_mem (s : State) (w : Who) (r : Reg) (v : Nat) : (s.setReg w r v).mem = s.mem := by
  fun_cases State.setReg <;> rfl
@[simp] theorem State.setReg64_mem (s : State) (w : Who) (r : Reg) (v : DWord) : (s.setReg64 w r v).mem = s.mem := by
  fun_cases State.setReg64 <;> rfl
@[simp] theorem State.setRegs_mem (s : State) (w : Who) (r n m : Nat) : (s.setRegs w r n m).mem = s.mem := by
  fun_induction State.setRegs <;> grind [State.setSreg_mem, State.setGreg_mem]
@[simp] theorem State.setDest_mem (s : State) (w : Who) (d : Dest) (v : Nat) : (s.setDest w d v).mem = s.mem := by
  fun_cases State.setDest <;> grind [State.setRegs_mem]
@[simp] theorem State.setPred_mem (s : State) (w : Who) (n : Nat) (b : Bool) : (s.setPred w n b).mem = s.mem := by
  fun_cases State.setPred <;> rfl
theorem onIssue_wf {f : Issue → State → State} (hf : ∀ i, KeepsWf (f i)) {s : State} (h : s.mem.wf = true) : AnswerWf (onIssue s f) := by
  unfold onIssue
  split
  · exact answerWf_fault
  · exact answerWf_next.mpr (hf _ s h)
theorem eachExec_wf {g : Guard} {f : Issue → Who → State → State} (hf : ∀ i w, KeepsWf (f i w)) {s : State} (h : s.mem.wf = true) :
    AnswerWf (eachExec g f s) := by
  refine onIssue_wf (fun i t ht => State.foldl_wf _ _ _ (fun u w hu => ?_) ht) h
  split
  · exact hf i w u hu
  · exact hu
@[simp] theorem markWait_mem (w : Who) (s : State) : (markWait w s).mem = s.mem := rfl
@[simp] theorem State.next_mem (s : State) : s.next.2.mem = s.mem := rfl
@[simp] theorem State.modLaunch_mem (s : State) (slot : Nat) (f : Launch → Launch) : (s.modLaunch slot f).mem = s.mem := rfl
@[simp] theorem State.setCtlF_mem (s : State) (off lo len v : Nat) : (s.setCtlF off lo len v).mem = s.mem := rfl
@[simp] theorem State.send_mem (s : State) (core line : Nat) (k : MsgKind) : (s.send core line k).mem = s.mem := rfl
@[simp] theorem State.fillL1_mem (s : State) (c : Nat) (x : L1Line) : (s.fillL1 c x).mem = s.mem := by
  fun_cases State.fillL1 <;> rfl
@[simp] theorem State.dropDemand_mem (s : State) (c : Nat) : (s.dropDemand c).mem = s.mem := rfl
theorem State.rekey_wf (s : State) (line : Nat) (h : s.mem.wf = true) : (s.rekey line).mem.wf = true :=
  State.rekey_memOk s line h
@[simp] theorem State.dropAgents_mem (s : State) (p : Agent → Bool) : (s.dropAgents p).mem = s.mem := rfl
@[simp] theorem State.noAsks_mem (s : State) : s.noAsks.mem = s.mem := rfl
@[simp] theorem State.forget_mem (s : State) (a : Agent) : (s.forget a).mem = s.mem := rfl
@[simp] theorem State.unqueue_mem (s : State) (a : Agent) : (s.unqueue a).mem = s.mem := rfl
@[simp] theorem State.wantAcc_mem (s : State) (r : Nat) : (s.wantAcc r).mem = s.mem := by
  fun_cases State.wantAcc <;> rfl
@[simp] theorem State.wantHost_mem (s : State) (r : Nat) : (s.wantHost r).mem = s.mem := by
  fun_cases State.wantHost <;> rfl
@[simp] theorem State.waitAt_mem (s : State) (r : Nat) (a : Agent) : (s.waitAt r a).mem = s.mem := by
  fun_cases State.waitAt <;> rfl
@[simp] theorem State.ownerServed_mem (s : State) (r : Nat) : (s.ownerServed r).mem = s.mem := rfl
@[simp] theorem State.served_mem (s : State) (r : Nat) (a : Agent) : (s.served r a).mem = s.mem := by
  fun_cases State.served <;> rfl
@[simp] theorem State.recallLine_mem (s : State) (line : Nat) : (s.recallLine line).mem = s.mem := by
  fun_cases State.recallLine <;> rfl
@[simp] theorem State.devReady_mem (s : State) (a : Agent) (pa : Nat) : (s.devReady a pa).2.mem = s.mem := by
  fun_cases State.devReady <;> grind [State.unqueue_mem, State.waitAt_mem, State.wantAcc_mem]
@[simp] theorem State.accReady_mem (s : State) (a : Agent) (write : Bool) (pa : Nat) : (s.accReady a write pa).2.mem = s.mem := by
  fun_cases State.accReady <;> grind [State.unqueue_mem, State.devReady_mem]
@[simp] theorem State.allReady_mem (s : State) (a : Agent) (write : Bool) (l : List Nat) : (s.allReady a write l).2.mem = s.mem := by
  fun_induction State.allReady <;> grind [State.accReady_mem, State.served_mem]
@[simp] theorem State.loseLine_mem (s : State) (c line : Nat) : (s.loseLine c line).mem = s.mem := rfl
@[simp] theorem State.loseDemand_mem (s : State) (c : Nat) (lines : List Nat) : (s.loseDemand c lines).mem = s.mem := rfl
@[simp] theorem State.discardCopies_mem (s : State) (c : Nat) (lines : List Nat) : (s.discardCopies c lines).mem = s.mem := by
  refine State.foldl_mem _ _ _ fun t x => ?_
  split <;> rfl
@[simp] theorem State.dropAlias_mem (s : State) (c pa : Nat) : (s.dropAlias c pa).mem = s.mem := by
  fun_cases State.dropAlias <;> grind [State.discardCopies_mem, State.modCore_mem]
@[simp] theorem State.castInstall_mem (s : State) (c line : Nat) (data : Line) : (s.castInstall c line data).mem = s.mem :=
  State.fillL1_mem _ _ _
@[simp] theorem State.dropMsg_mem (s : State) (id : Nat) : (s.dropMsg id).mem = s.mem := rfl
@[simp] theorem State.castLand_mem (s : State) (core line stc part : Nat) (data : Line) :
    (s.castLand core line stc part data).mem = s.mem := by
  fun_cases State.castLand <;> grind [State.send_mem, State.castInstall_mem]
@[simp] theorem State.sendCasts_mem (s : State) (id n : Nat) : (s.sendCasts id n).mem = s.mem := (State.sendCasts_same s id n).1
@[simp] theorem State.landCasts_mem (s : State) (p : Nat → Bool) : (s.landCasts p).mem = s.mem := (State.landCasts_same s p).1
@[simp] theorem State.dropCopies_mem (s : State) (p : Nat → Bool) (demand : Bool) : (s.dropCopies p demand).mem = s.mem := rfl
@[simp] theorem State.purgeLine_mem (s : State) (line : Nat) : (s.purgeLine line).mem = s.mem :=
  State.landCasts_mem _ _
theorem State.poke_wf (s : State) (pa n v : Nat) (h : s.mem.wf = true) : (s.poke pa n v).mem.wf = true :=
  State.poke_memOk s pa n v h
theorem State.homeWrite_wf (s : State) (pa n v : Nat) (h : s.mem.wf = true) : (s.homeWrite pa n v).mem.wf = true :=
  State.homeWrite_memOk s pa n v h
@[simp] theorem State.throughSlice_mem (s : State) (n pa : Nat) : (s.throughSlice n pa).mem = s.mem := rfl
@[simp] theorem State.request_mem (s : State) (n pa : Nat) : (s.request n pa).mem = s.mem := rfl
@[simp] theorem State.enqueue_mem (s : State) (a : Agent) (n : Nat) : (s.enqueue a n).mem = s.mem := by
  fun_cases State.enqueue <;> rfl
@[simp] theorem State.regulate_mem (s : State) (a : Agent) (n pa : Nat) : (s.regulate a n pa).2.mem = s.mem := by
  fun_cases State.regulate <;> grind [State.request_mem, State.unqueue_mem, State.enqueue_mem]
@[simp] theorem State.pay_mem (s : State) (a : Agent) (l : List (Nat × Nat)) : (s.pay a l).2.mem = s.mem := (OnlyRequests.pay s a l).mem
@[simp] theorem State.ask_mem (s : State) (n pa : Nat) : (s.ask n pa).mem = s.mem := rfl
@[simp] theorem State.settle_mem (s : State) (a : Agent) : (s.settle a).2.mem = s.mem := (State.settle_only s a).mem
@[simp] theorem State.keepPaid_mem (s r : State) : (s.keepPaid r).mem = s.mem := rfl
@[simp] theorem State.setWalkers_mem (s : State) (die : Nat) (l : List TlbEntry) : (s.setWalkers die l).mem = s.mem := by
  fun_cases State.setWalkers <;> rfl
@[simp] theorem State.joinWalk_mem (s : State) (a : Agent) (die part vpn : Nat) : (s.joinWalk a die part vpn).mem = s.mem := rfl
@[simp] theorem State.endWalk_mem (s : State) (die part vpn : Nat) (r : Walked) : (s.endWalk die part vpn r).mem = s.mem := rfl
@[simp] theorem State.goWalk_mem (s : State) (a : Agent) (die part v : Nat) : (s.goWalk a die part v).2.mem = s.mem := by
  fun_cases State.goWalk <;> grind [State.joinWalk_mem, State.pay_mem, State.endWalk_mem, State.unqueue_mem, State.recallLine_mem]
@[simp] theorem State.keepPath_mem (s : State) (die part v : Nat) (path : List (Nat × Nat)) : (s.keepPath die part v path).mem = s.mem :=
  State.setWalkers_mem _ _ _
theorem State.useWalk_wf (s : State) (part : Nat) (user : Bool) (acc : Access) (v : Nat) (r : Walked) (h : s.mem.wf = true) :
    (s.useWalk part user acc v r).2.2.2.mem.wf = true := by
  fun_cases State.useWalk <;> grind [State.recallLine_mem, State.homeWrite_wf]
theorem State.walk_wf (s : State) (a : Agent) (die part : Nat) (user : Bool) (acc : Access) (va : DWord) (h : s.mem.wf = true) :
    (s.walk a die part user acc va).2.2.2.mem.wf = true := by
  fun_cases State.walk <;> grind [State.useWalk_wf, State.goWalk_mem, State.keepPath_mem]
theorem State.translate_wf (s : State) (a : Agent) (c part : Nat) (user : Bool) (acc : Access) (va : DWord) (h : s.mem.wf = true) :
    (s.translate a c part user acc va).2.mem.wf = true := by
  fun_cases State.translate <;> grind [State.walk_wf, State.modCore_mem]
theorem State.dieTranslate_wf (s : State) (a : Agent) (die part : Nat) (user : Bool) (acc : Access) (va : DWord) (h : s.mem.wf = true) :
    (s.dieTranslate a die part user acc va).2.mem.wf = true := by
  fun_cases State.dieTranslate <;> grind [State.walk_wf]
@[simp] theorem State.listTrap_mem (s : State) (c k : Nat) (t : Trap) : (s.listTrap c k t).mem = s.mem := by
  fun_cases State.listTrap <;> grind [State.next_mem, State.modCtx_mem]
@[simp] theorem trapAs_mem (i : Issue) (w : Who) (cause sub : Nat) (va info : DWord) (write : Bool) (s : State) :
    (trapAs i w cause sub va info write s).mem = s.mem := by
  simp [trapAs]
@[simp] theorem trapNow_mem (i : Issue) (w : Who) (cause : Nat) (va : DWord) (s : State) : (trapNow i w cause va s).mem = s.mem :=
  trapAs_mem _ _ _ _ _ _ _ _
@[simp] theorem trapIllegal_mem (i : Issue) (w : Who) (s : State) : (trapIllegal i w s).mem = s.mem :=
  trapNow_mem _ _ _ _ _
@[simp] theorem trapMisaligned_mem (i : Issue) (w : Who) (va : DWord) (s : State) : (trapMisaligned i w va s).mem = s.mem :=
  trapNow_mem _ _ _ _ _
@[simp] theorem trapRange_mem (i : Issue) (w : Who) (off : DWord) (s : State) : (trapRange i w off s).mem = s.mem :=
  trapNow_mem _ _ _ _ _
@[simp] theorem trapOperand_mem (i : Issue) (w : Who) (s : State) : (trapOperand i w s).mem = s.mem :=
  trapNow_mem _ _ _ _ _
@[simp] theorem trapNeedle_mem (i : Issue) (w : Who) (s : State) : (trapNeedle i w s).mem = s.mem :=
  trapNow_mem _ _ _ _ _
@[simp] theorem trapArrival_mem (i : Issue) (w : Who) (off : DWord) (s : State) : (trapArrival i w off s).mem = s.mem :=
  trapNow_mem _ _ _ _ _
@[simp] theorem trapPrivilege_mem (i : Issue) (w : Who) (s : State) : (trapPrivilege i w s).mem = s.mem :=
  trapNow_mem _ _ _ _ _
@[simp] theorem State.asyncTrap_mem (s : State) (w : Who) (cause sub : Nat) (va info : DWord) (exk : Nat) (exited : Bool := false) :
    (s.asyncTrap w cause sub va info exk exited).mem = s.mem :=
  State.listTrap_mem _ _ _ _
@[simp] theorem State.endExecutor_mem (s : State) (w : Who) : (s.endExecutor w).mem = s.mem := rfl
@[simp] theorem State.released_mem (s : State) (w : Who) : (s.released w).mem = s.mem :=
  State.modStrand_mem _ _ _
theorem State.span_wf (s : State) (a : Agent) (die part : Nat) (user : Bool) (acc : Access) (va : DWord) (page : Option Nat) (n : Nat)
    (h : s.mem.wf = true) : (s.span a die part user acc va page n).2.mem.wf = true := by
  induction n generalizing s va page with
  | zero => exact h
  | succ n ih =>
    have ih (t : State) (p : Option Nat) := ih t (va + 64#64) p
    rw [State.span]
    generalize va + 64#64 = next at ih ⊢
    grind [State.dieTranslate_wf, State.accReady_mem, State.served_mem]
theorem State.pokeLines_wf (s : State) (l : List Nat) (v : Nat) (h : s.mem.wf = true) : (s.pokeLines l v).mem.wf = true :=
  State.pokeLines_memOk s l v h
@[simp] theorem State.signalService_mem (s : State) (die : Nat) : (s.signalService die).mem = s.mem := rfl
@[simp] theorem State.addLog_mem (s : State) (kind part : Nat) (fab : Bool) (cause core ctx slot : Nat) (va : DWord) :
    (s.addLog kind part fab cause core ctx slot va).mem = s.mem := by
  fun_cases State.addLog <;> grind [State.setCtlF_mem, State.setCtl_mem]
@[simp] theorem State.putStatus_mem (s : State) (o : Op) (st cause : Nat) (fva : DWord) : (s.putStatus o st cause fva).mem = s.mem := by
  fun_cases State.putStatus <;> rfl
@[simp] theorem State.modMx_mem (s : State) (core : Nat) (f : Mx → Mx) : (s.modMx core f).mem = s.mem := rfl
@[simp] theorem State.startMatrix_mem (s : State) (c : Nat) : (s.startMatrix c).mem = s.mem := rfl
@[simp] theorem State.setBook_mem (s : State) (c : Nat) (o : Op) (n : Nat) (v : BitVec 256) : (s.setBook c o n v).mem = s.mem := by
  fun_cases State.setBook <;> rfl
@[simp] theorem State.keepBooks_mem (s : State) (c k : Nat) : (s.keepBooks c k).mem = s.mem := by
  fun_cases State.keepBooks <;> grind [State.next_mem, State.modCore_mem]
@[simp] theorem State.sweep_mem (s : State) (c : Nat) : (s.sweep c).mem = s.mem := rfl
@[simp] theorem State.dropResv_mem (s : State) (c slot : Nat) : (s.dropResv c slot).mem = s.mem := by
  fun_cases State.dropResv <;> rfl
@[simp] theorem State.dropNamed_mem (s : State) (o : Op) : (s.dropNamed o).mem = s.mem := by
  fun_cases State.dropNamed <;> grind [State.dropResv_mem]
@[simp] theorem State.burySlot_mem (s : State) (slot serial : Nat) : (s.burySlot slot serial).mem = s.mem := rfl
@[simp] theorem State.restClock_mem (s : State) (c : Nat) : (s.restClock c).mem = s.mem := by
  fun_cases State.restClock <;> rfl
@[simp] theorem State.freeCtx_mem (s : State) (c k : Nat) : (s.freeCtx c k).mem = s.mem := by
  have h (l : List Nat) : ((l.foldl (fun t n => t.endExecutor { core := c, ctx := k, tid := some n }) s).endExecutor
      { core := c, ctx := k }).mem = s.mem :=
    (State.endExecutor_mem _ _).trans (State.foldl_mem _ _ _ fun t n => State.endExecutor_mem t _)
  fun_cases State.freeCtx with
  | case1 x s1 s2 s3 =>
    rw [State.restClock_mem, State.setCtx_mem, State.modCore_mem, h]
  | case2 x slot s1 s2 s3 =>
    rw [State.restClock_mem, State.dropResv_mem, State.setCtx_mem, State.modCore_mem, h]
@[simp] theorem State.abortTask_mem (s : State) (c k : Nat) : (s.abortTask c k).mem = s.mem := by
  fun_cases State.abortTask <;> grind [State.freeCtx_mem, State.modLaunch_mem]
@[simp] theorem State.passNeedle_mem (s : State) (c slot lctx n : Nat) : (s.passNeedle c slot lctx n).mem = s.mem := by
  fun_cases State.passNeedle <;> rfl
@[simp] theorem State.modCast_mem (s : State) (line : Nat) (f : CastEntry → CastEntry) : (s.modCast line f).mem = s.mem := rfl
@[simp] theorem State.castAnswered_mem (s : State) (id : Nat) : (s.castAnswered id).mem = s.mem := by
  fun_cases State.castAnswered <;> rfl
@[simp] theorem State.cutStc_mem (s : State) (t : Stc) : (s.cutStc t).mem = s.mem := by
  fun_cases State.cutStc <;> grind [State.modCast_mem, State.castAnswered_mem]
@[simp] theorem State.killCtx_mem (s : State) (c k cause : Nat) (va : DWord) : (s.killCtx c k cause va).mem = s.mem := by
  fun_cases State.killCtx with
  | case1 x part slot fab mine co lost ended s1 s2 s3 s4 left s5 s6 s7 =>
    have h1 : s1.mem = s.mem := State.foldl_mem (fun t o => t.putStatus o 3 6 0#64) ended s fun t o => State.putStatus_mem t o _ _ _
    have h2 : s2.mem = s1.mem := State.startMatrix_mem _ c
    have h3 : s3.mem = s2.mem := State.discardCopies_mem s2 c _
    have h4 : s4.mem = s3.mem := State.foldl_mem State.cutStc _ s3 State.cutStc_mem
    have h6 : s6.mem = s4.mem := by
      unfold s6
      split
      · dsimp only [s5]
      · rw [State.passNeedle_mem]
    have h7 : s7.mem = s6.mem := (State.abortTask_mem _ c k).trans (State.foldl_mem State.dropNamed ended _ State.dropNamed_mem)
    rw [State.signalService_mem, State.addLog_mem, h7, h6, h4, h3, h2, h1]
theorem State.fetchWords_wf (s : State) (w : Who) (a : Agent) (user : Bool) (pc : DWord) (n : Nat) (l : List Word) (h : s.mem.wf = true) :
    (s.fetchWords w a user pc n l).2.mem.wf = true := by
  fun_induction State.fetchWords <;> grind [State.translate_wf, State.devReady_mem, State.ask_mem, State.served_mem]
theorem State.deliverAt_wf (s : State) (c k : Nat) (first : Bool) (pas : List Nat) (h : s.mem.wf = true) :
    (s.deliverAt c k first pas).mem.wf = true := by
  fun_cases State.deliverAt
  case case1 => exact h
  case case2 => rwa [State.killCtx_mem]
  case case3 => exact State.pokeLines_wf _ _ _ h
theorem State.deliver_wf (s : State) (c k : Nat) (h : s.mem.wf = true) : (s.deliver c k).mem.wf = true := by
  fun_cases State.deliver <;> grind [State.span_wf, State.killCtx_mem, State.deliverAt_wf, State.forget_mem]
theorem State.eret_wf (s : State) (c k words : Nat) (pas : List Nat) (h : s.mem.wf = true) : (s.eret c k words pas).mem.wf = true := by
  fun_cases State.eret with
  | case1 => exact h
  | case2 => rwa [State.abortTask_mem]
  | case3 x t rest _ e act _ dest s1 s2 =>
    rw [State.modCtx_mem, State.modCtx_mem]
    grind [State.endExecutor_mem, State.modCtx_mem, State.modStrand_mem, State.homeWrite_wf]
  | case4 x t rest _ e act _ dest s1 s2 =>
    refine State.deliverAt_wf _ _ _ _ _ ?_
    rw [State.modCtx_mem]
    grind [State.endExecutor_mem, State.modCtx_mem, State.modStrand_mem, State.homeWrite_wf]

/-! ### Predicates and masks -/

@[simp] theorem State.setPair_mem (s : State) (w : Who) (k : BitVec 4) (c : Bool) : (s.setPair w k c).mem = s.mem := by
  simp [State.setPair]
@[simp] theorem State.setPreds_mem (s : State) (w : Who) (base v n : Nat) : (s.setPreds w base v n).mem = s.mem := by
  fun_induction State.setPreds <;> grind [State.setPred_mem]
@[simp] theorem State.setPredBlock_mem (s : State) (w : Who) (blk : F6) (v : Nat) : (s.setPredBlock w blk v).mem = s.mem :=
  State.setPreds_mem _ _ _ _ _

/-! ### Loads and stores -/

@[simp] theorem State.addLoad_mem (s : State) (l : Load) : (s.addLoad l).mem = s.mem := rfl
@[simp] theorem State.addStore_mem (s : State) (t : Store) : (s.addStore t).mem = s.mem := by
  unfold State.addStore
  grind [State.next_mem, State.modStrand_mem, State.modCore_mem, State.dropAlias_mem]
theorem access_keeps {i : Issue} {w : Who} {acc : Access} {align : Nat} {va : DWord} {f : Reached → State → State}
    (hf : ∀ r, KeepsWf (f r)) : KeepsWf (access i w acc align va f) := by
  intro s h
  have ht := State.translate_wf s (.strand w i.pc) w.core (s.partOf w.core w.ctx) (!s.privileged w) acc va h
  unfold access
  split
  · exact h
  · split
    · rwa [trapMisaligned_mem]
    · split
      · next e => rw [e] at ht; exact hf _ _ ht
      · next e => rw [e] at ht; rwa [trapAs_mem]
      · next e => rw [e] at ht; exact ht
@[simp] theorem loadAt_mem (w : Who) (va : DWord) (size : Nat) (dst : Dest) (viaL1 acquire wide : Bool) (r : Reached) (st : State) :
    (loadAt w va size dst viaL1 acquire wide r st).mem = st.mem := by
  fun_cases loadAt <;> grind [State.modCore_mem, State.setDest_mem, State.addLoad_mem]
theorem execLdg_wf {s : State} {g : Guard} {d a : Reg} {sz : BitVec 3} {off : Off} (h : s.mem.wf = true) :
    AnswerWf (execLdg g d a sz off s) := by
  refine eachExec_wf (fun i w t ht => access_keeps (fun r u hu => ?_) t ht) h
  split <;> simpa
theorem execLda_wf {s : State} {g : Guard} {d a : Reg} {wd : BitVec 1} {scp : BitVec 2} {off : Off} (h : s.mem.wf = true) :
    AnswerWf (execLda g d a wd scp off s) := by
  refine eachExec_wf (fun i w t ht => access_keeps (fun r u hu => ?_) t ht) h
  split <;> simpa
@[simp] theorem storeAt_mem (w : Who) (va : DWord) (size data : Nat) (release wide : Bool) (r : Reached) (st : State) :
    (storeAt w va size data release wide r st).mem = st.mem :=
  State.addStore_mem _ _
theorem execStg_wf {s : State} {g : Guard} {d a : Reg} {sz : BitVec 3} {off : Off} (h : s.mem.wf = true) :
    AnswerWf (execStg g d a sz off s) := by
  refine eachExec_wf (fun i w t ht => access_keeps (fun r u hu => ?_) t ht) h
  dsimp only
  split <;> simpa
theorem execStgRel_wf {s : State} {g : Guard} {d a : Reg} {wd : BitVec 1} {scp : BitVec 2} {off : Off} (h : s.mem.wf = true) :
    AnswerWf (execStgRel g d a wd scp off s) := by
  refine eachExec_wf (fun i w t ht => access_keeps (fun r u hu => ?_) t ht) h
  split <;> simpa
theorem smemAccess_keeps {i : Issue} {w : Who} {align size : Nat} {off : Int} {f : Nat → State → State}
    (hf : ∀ o, KeepsWf (f o)) : KeepsWf (smemAccess i w align size off f) := by
  intro s h
  unfold smemAccess
  split
  · exact h
  · split
    · rwa [trapMisaligned_mem]
    · split
      · rwa [trapRange_mem]
      · exact hf _ s h
theorem execLds_wf {s : State} {g : Guard} {d a : Reg} {sz : BitVec 3} {off : Off} (h : s.mem.wf = true) :
    AnswerWf (execLds g d a sz off s) :=
  eachExec_wf (fun i w t ht => smemAccess_keeps (fun o u hu => by simpa) t ht) h
theorem execSts_wf {s : State} {g : Guard} {d a : Reg} {sz : BitVec 3} {off : Off} (h : s.mem.wf = true) :
    AnswerWf (execSts g d a sz off s) :=
  eachExec_wf (fun i w t ht => smemAccess_keeps (fun o u hu => by exact hu) t ht) h
theorem execStc_wf {s : State} {g : Guard} {d a : Reg} (h : s.mem.wf = true) : AnswerWf (execStc g d a s) := by
  refine eachExec_wf (fun i w t ht => smemAccess_keeps (fun o u hu => ?_) t ht) h
  split
  · simpa
  · refine access_keeps (fun r v hv => ?_) u hu
    split <;> simpa
theorem execCinv_wf {s : State} {g : Guard} {a : Reg} {scp : BitVec 2} {off : Off} (h : s.mem.wf = true) :
    AnswerWf (execCinv g a scp off s) := by
  refine eachExec_wf (fun i w t ht => access_keeps (fun r u hu => ?_) t ht) h
  split <;> simpa
@[simp] theorem State.pinLine_mem (s : State) (line : Nat) : (s.pinLine line).mem = s.mem := by
  fun_cases State.pinLine <;> rfl
theorem execCpin_wf {s : State} {g : Guard} {a : Reg} {off : Off} (h : s.mem.wf = true) : AnswerWf (execCpin g a off s) := by
  refine eachExec_wf (fun i w t ht => access_keeps (fun r u hu => ?_) t ht) h
  split <;> simpa
theorem execCunpin_wf {s : State} {g : Guard} {a : Reg} {off : Off} (h : s.mem.wf = true) : AnswerWf (execCunpin g a off s) :=
  eachExec_wf (fun i w t ht => access_keeps (fun r u hu => by exact hu) t ht) h

/-! ### Atomics -/

theorem globalAtom_wf {s : State} {op : AtomOp} {g : Guard} {d a : Reg} {ord scp : BitVec 2} {wd : BitVec 1} {off : Off}
    (h : s.mem.wf = true) :
    AnswerWf (globalAtom op g d a ord scp wd off s) := by
  refine eachExec_wf (fun i w t ht => access_keeps (fun r u hu => ?_) t ht) h
  split <;> simpa
theorem xalAccess_wf {s : State} {op : XalOp} {acc : Access} {g : Guard} {d a : Reg} {ord scp : BitVec 2} {off : Off} {res : Nat}
    (h : s.mem.wf = true) : AnswerWf (xalAccess op acc g d a ord scp off res s) := by
  refine eachExec_wf (fun i w t ht => access_keeps (fun r u hu => ?_) t ht) h
  split <;> simpa
theorem smemAtom_wf {s : State} {op : AtomOp} {g : Guard} {d a : Reg} {wd : BitVec 1} {off : Off} (h : s.mem.wf = true) :
    AnswerWf (smemAtom op g d a wd off s) :=
  eachExec_wf (fun i w t ht => smemAccess_keeps (fun o u hu => by simpa) t ht) h

/-! ### Control transfers and loops -/

@[simp] theorem State.setPc_mem (s : State) (w : Who) (pc : DWord) : (s.setPc w pc).mem = s.mem :=
  State.modStrand_mem _ _ _
@[simp] theorem State.setLink_mem (s : State) (i : Issue) (w : Who) : (s.setLink i w).mem = s.mem :=
  State.setReg64_mem _ _ _ _
@[simp] theorem State.goTo_mem (s : State) (i : Issue) (w : Who) (t : DWord) : (s.goTo i w t).mem = s.mem := by
  fun_cases State.goTo <;> grind [State.setPc_mem, trapMisaligned_mem]
theorem execCallx_wf {s : State} {g : Guard} {a : Reg} (h : s.mem.wf = true) : AnswerWf (execCallx g a s) := by
  refine eachExec_wf (fun i w t ht => ?_) h
  dsimp only
  split <;> simpa
theorem execExit_wf {s : State} {g : Guard} (h : s.mem.wf = true) : AnswerWf (execExit g s) := by
  refine eachExec_wf (fun i w t ht => ?_) h
  split <;> simpa
theorem execLoopLc0_wf {s : State} {g : Guard} {a : Reg} {o : Imm 12} (h : s.mem.wf = true) : AnswerWf (execLoopLc0 g a o s) := by
  refine eachExec_wf (fun i w t ht => ?_) h
  split
  · simpa
  · split <;> simpa
theorem execLoopLc1_wf {s : State} {g : Guard} {a : Reg} {o : Imm 12} (h : s.mem.wf = true) : AnswerWf (execLoopLc1 g a o s) := by
  refine eachExec_wf (fun i w t ht => ?_) h
  split
  · simpa
  · split <;> simpa
theorem execLoopp_wf {s : State} {g : Guard} {a : Reg} {n : BitVec 2} {o : BitVec 10} (h : s.mem.wf = true) :
    AnswerWf (execLoopp g a n o s) := by
  refine eachExec_wf (fun i w t ht => ?_) h
  dsimp only
  split
  · simpa
  · split <;> simpa
theorem execEndl_wf {s : State} {g : Guard} (h : s.mem.wf = true) : AnswerWf (execEndl g s) := by
  refine eachExec_wf (fun i w t ht => ?_) h
  dsimp only
  split
  · split <;> simpa
  · split
    · simpa
    · split
      · simpa
      · split <;> simpa
theorem execBrk_wf {s : State} {g : Guard} (h : s.mem.wf = true) : AnswerWf (execBrk g s) := by
  refine eachExec_wf (fun i w t ht => ?_) h
  dsimp only
  split
  · simpa
  · split <;> simpa
theorem execItem_wf {s : State} {g : Guard} {a : Reg} {o : Imm 12} (h : s.mem.wf = true) : AnswerWf (execItem g a o s) := by
  refine eachExec_wf (fun i w t ht => ?_) h
  dsimp only
  split
  · split <;> simpa
  · split <;> simpa

/-! ### Grants of power -/

theorem OnlyBoundaries.mem {s t : State} (h : OnlyBoundaries s t) : t.mem = s.mem := by
  obtain ⟨_, _, _, _, rfl⟩ := h
  rfl
@[simp] theorem State.regrant_mem (s : State) : s.regrant.mem = s.mem := (OnlyBoundaries.regrant s).mem
@[simp] theorem State.wakeLender_mem (s : State) (c : Nat) : (s.wakeLender c).mem = s.mem := by
  fun_cases State.wakeLender <;> grind [State.regrant_mem]
@[simp] theorem State.clearLoan_mem (s : State) (n : Nat) : (s.clearLoan n).mem = s.mem := by
  unfold State.clearLoan
  grind [State.regrant_mem, State.setCtlF_mem]
@[simp] theorem State.endRecall_mem (s : State) (n : Nat) : (s.endRecall n).mem = s.mem :=
  State.regrant_mem _
@[simp] theorem State.endRecalls_mem (s : State) : s.endRecalls.mem = s.mem := (OnlyBoundaries.endRecalls s).mem

/-! ### Ordering, barriers and arrival words -/

@[simp] theorem waitAs_mem (w : Who) (m : Wait) (s : State) : (waitAs w m s).mem = s.mem :=
  State.modStrand_mem _ _ _
theorem waitUnless_keeps {c : Bool} {w : Who} {f : State → State} (hf : KeepsWf f) : KeepsWf (waitUnless c w f) := by
  intro s h
  unfold waitUnless
  split
  · exact hf s h
  · exact h
@[simp] theorem State.acquireAt_mem (s : State) (w : Who) (wide : Bool) : (s.acquireAt w wide).mem = s.mem := by
  fun_cases State.acquireAt <;> rfl
theorem fenceUnless_keeps {c : Bool} {w : Who} {f : State → State} (hf : KeepsWf f) : KeepsWf (fenceUnless c w f) := by
  intro s h
  unfold fenceUnless
  split
  · exact hf s h
  · rwa [waitAs_mem]
theorem execBar_wf {s : State} {g : Guard} (h : s.mem.wf = true) : AnswerWf (execBar g s) := by
  refine eachExec_wf (fun i w t ht => ?_) h
  split
  · simpa
  · split <;> simpa
@[simp] theorem State.completeGen_mem (s : State) (id : Nat) (cores : List Nat) : (s.completeGen id cores).mem = s.mem := rfl
theorem withGroup_keeps {i : Issue} {w : Who} {a : Reg} {f : Launch → List Nat → BitVec 32 → State → State}
    (hf : ∀ l cores desc, KeepsWf (f l cores desc)) : KeepsWf (withGroup i w a f) := by
  intro s h
  unfold withGroup
  dsimp only
  split
  · rwa [trapOperand_mem]
  · split
    · rwa [trapOperand_mem]
    · exact hf _ _ _ s h
theorem execGbara_wf {s : State} {g : Guard} {a : Reg} (h : s.mem.wf = true) : AnswerWf (execGbara g a s) := by
  refine eachExec_wf (fun i w => withGroup_keeps fun l cores desc t ht => ?_) h
  dsimp only
  split
  · simpa
  · split
    · simpa
    · split
      · split <;> simpa
      · simpa
theorem execGbarw_wf {s : State} {g : Guard} {a : Reg} (h : s.mem.wf = true) : AnswerWf (execGbarw g a s) := by
  refine eachExec_wf (fun i w => withGroup_keeps fun l cores desc t ht => ?_) h
  dsimp only
  split
  · simpa
  · split <;> simpa
@[simp] theorem State.arrive_mem (s : State) (core slot off bytes : Nat) : (s.arrive core slot off bytes).mem = s.mem := by
  fun_cases State.arrive <;> rfl
theorem awAccess_keeps {i : Issue} {w : Who} {d : Reg} {f : Nat → State → State} (hf : ∀ o, KeepsWf (f o)) :
    KeepsWf (awAccess i w d f) := fun s h => smemAccess_keeps hf s h
theorem execAwinit_wf {s : State} {g : Guard} {d a : Reg} (h : s.mem.wf = true) : AnswerWf (execAwinit g d a s) := by
  refine eachExec_wf (fun i w => awAccess_keeps fun o t ht => ?_) h
  dsimp only
  split <;> simpa
theorem execAwadd_wf {s : State} {g : Guard} {d a : Reg} (h : s.mem.wf = true) : AnswerWf (execAwadd g d a s) := by
  refine eachExec_wf (fun i w t ht => ?_) h
  split
  · simpa
  · refine awAccess_keeps (fun o u hu => ?_) t ht
    dsimp only
    split <;> simpa
theorem execAwwait_wf {s : State} {g : Guard} {d : Reg} {b : BitVec 1} (h : s.mem.wf = true) : AnswerWf (execAwwait g d b s) := by
  refine eachExec_wf (fun i w => awAccess_keeps fun o t ht => ?_) h
  dsimp only
  split
  · simpa
  · exact waitUnless_keeps keepsWf_id t ht
theorem execAwtest_wf {s : State} {g : Guard} {k : F6} {a : Reg} (h : s.mem.wf = true) : AnswerWf (execAwtest g k a s) := by
  refine eachExec_wf (fun i w => awAccess_keeps fun o t ht => ?_) h
  dsimp only
  split <;> simpa

/-! ### Commands of the engines -/

theorem checked_keeps {i : Issue} {w : Who} {c : EngCheck} {f : State → State} (hf : KeepsWf f) : KeepsWf (checked i w c f) := by
  intro s h
  unfold checked
  dsimp only
  split
  · rwa [trapRange_mem]
  · split
    · rwa [trapMisaligned_mem]
    · split
      · rwa [trapOperand_mem]
      · exact hf s h
theorem withDesc_keeps {i : Issue} {w : Who} {a : Reg} {align size : Nat} {f : Nat → State → State} (hf : ∀ v, KeepsWf (f v)) :
    KeepsWf (withDesc i w a align size f) := fun s h => smemAccess_keeps (fun _ => hf _) s h
@[simp] theorem State.modOp_mem (s : State) (c id : Nat) (f : Op → Op) : (s.modOp c id f).mem = s.mem := rfl
@[simp] theorem accept_mem (w : Who) (full : Bool) (o : Op) (st : State) : (accept w full o st).mem = st.mem := by
  fun_cases accept <;> grind [markWait_mem, State.next_mem, State.wakeLender_mem, State.startMatrix_mem, State.modCore_mem]
@[simp] theorem acceptWithStatus_mem (w : Who) (full : Bool) (stat : Nat) (o : Op) (st : State) :
    (acceptWithStatus w full stat o st).mem = st.mem := by
  fun_cases acceptWithStatus <;> grind [accept_mem, State.smemWrite_mem]
theorem issueCopy_wf {s : State} {tag : Bool} {g : Guard} {a : Reg} (h : s.mem.wf = true) : AnswerWf (issueCopy tag g a s) := by
  refine eachExec_wf (fun i w t ht => withDesc_keeps (fun d u hu => checked_keeps (fun v hv => ?_) u hu) t ht) h
  simpa
theorem execCpys_wf {s : State} {g : Guard} {d a : Reg} (h : s.mem.wf = true) : AnswerWf (execCpys g d a s) :=
  eachExec_wf (fun i w t ht => smemAccess_keeps (fun o u hu => by simpa) t ht) h
theorem execGath_wf {s : State} {g : Guard} {a : Reg} {e : BitVec 2} (h : s.mem.wf = true) : AnswerWf (execGath g a e s) := by
  refine eachExec_wf (fun i w t ht => withDesc_keeps (fun d u hu => checked_keeps (fun v hv => ?_) u hu) t ht) h
  simpa
theorem withNeedle_keeps {i : Issue} {w : Who} {f : State → State} (hf : KeepsWf f) : KeepsWf (withNeedle i w f) := by
  intro s h
  unfold withNeedle
  split
  · exact hf s h
  · rwa [trapNeedle_mem]
theorem execMxcfg_wf {s : State} {g : Guard} {a : Reg} (h : s.mem.wf = true) : AnswerWf (execMxcfg g a s) := by
  refine eachExec_wf (fun i w t ht => withNeedle_keeps (fun u hu => ?_) t ht) h
  dsimp only
  split
  · simpa
  · split
    · exact hu
    · split <;> simpa
theorem execMxshape_wf {s : State} {g : Guard} {a : Reg} (h : s.mem.wf = true) : AnswerWf (execMxshape g a s) := by
  refine eachExec_wf (fun i w t ht => withNeedle_keeps (fun u hu => ?_) t ht) h
  dsimp only
  split
  · simpa
  · split <;> simpa
theorem execMxldw_wf {s : State} {g : Guard} {a : Reg} (h : s.mem.wf = true) : AnswerWf (execMxldw g a s) := by
  refine eachExec_wf (fun i w t ht => withNeedle_keeps (fun u hu => ?_) t ht) h
  refine withDesc_keeps (fun d v hv => checked_keeps (fun x hx => ?_) v hv) u hu
  dsimp only
  split <;> simpa
theorem execMxq_wf {s : State} {g : Guard} {a : Reg} (h : s.mem.wf = true) : AnswerWf (execMxq g a s) := by
  refine eachExec_wf (fun i w t ht => withNeedle_keeps (fun u hu => ?_) t ht) h
  refine withDesc_keeps (fun d v hv => checked_keeps (fun x hx => ?_) v hv) u hu
  simpa
theorem execMxdrain_wf {s : State} {g : Guard} (h : s.mem.wf = true) : AnswerWf (execMxdrain g s) :=
  eachExec_wf (fun _ _ t ht => withNeedle_keeps (fun u hu => waitUnless_keeps keepsWf_id u hu) t ht) h
theorem execCbload_wf {s : State} {g : Guard} {n : F6} {a : Reg} (h : s.mem.wf = true) : AnswerWf (execCbload g n a s) :=
  eachExec_wf (fun i w t ht => smemAccess_keeps (fun o u hu => by simpa) t ht) h
theorem execNpass_wf {s : State} {g : Guard} (h : s.mem.wf = true) : AnswerWf (execNpass g s) :=
  eachExec_wf (fun i w t ht => withNeedle_keeps (fun u hu => by exact hu) t ht) h
theorem issueRay_wf {s : State} {any : Bool} {g : Guard} {a : Reg} (h : s.mem.wf = true) : AnswerWf (issueRay any g a s) := by
  refine eachExec_wf (fun i w t ht => withDesc_keeps (fun d u hu => checked_keeps (fun v hv => ?_) u hu) t ht) h
  simpa
theorem execOvlp_wf {s : State} {g : Guard} {a : Reg} (h : s.mem.wf = true) : AnswerWf (execOvlp g a s) := by
  refine eachExec_wf (fun i w t ht => withDesc_keeps (fun d u hu => checked_keeps (fun v hv => ?_) u hu) t ht) h
  simpa
theorem execRefit_wf {s : State} {g : Guard} {a : Reg} (h : s.mem.wf = true) : AnswerWf (execRefit g a s) := by
  refine eachExec_wf (fun i w t ht => withDesc_keeps (fun d u hu => checked_keeps (fun v hv => ?_) u hu) t ht) h
  simpa
theorem issueDraw_wf {s : State} {ez : Bool} {g : Guard} {a : Reg} (h : s.mem.wf = true) : AnswerWf (issueDraw ez g a s) := by
  refine eachExec_wf (fun i w t ht => withDesc_keeps (fun d u hu => checked_keeps (fun v hv => ?_) u hu) t ht) h
  simpa

/-! ### Writes of registers -/

theorem writeReg_wf {g : Guard} {d : Reg} {f : State → Who → Nat} {s : State} (h : s.mem.wf = true) : AnswerWf (writeReg g d f s) :=
  eachExec_wf (fun _ w t ht => by rwa [State.setReg_mem]) h

/-! ### Floating point -/

theorem writePair_wf {g : Guard} {d : Reg} {f : State → Who → Nat} {s : State} (h : s.mem.wf = true) : AnswerWf (writePair g d f s) :=
  eachExec_wf (fun _ w t ht => by rwa [State.setReg64_mem]) h
theorem execCvt_wf {s : State} {g : Guard} {rm : BitVec 2} {d a : Reg} {dst src : BitVec 3} (h : s.mem.wf = true) :
    AnswerWf (execCvt g rm d a dst src s) := by
  refine eachExec_wf (fun i w t ht => ?_) h
  dsimp only
  split <;> simpa
@[simp] theorem State.modThread_mem (s : State) (w : Who) (f : Thread → Thread) : (s.modThread w f).mem = s.mem := by
  fun_cases State.modThread <;> rfl

/-! ### Forms across the lanes of a warp -/

theorem crossLane_wf {g : Guard} {j : BitVec 3} {eff : State → (Nat → Who) → Nat → List Nat → State → State}
    (hf : ∀ s0 who warp act, KeepsWf (eff s0 who warp act)) {s : State} (h : s.mem.wf = true) : AnswerWf (crossLane g j eff s) := by
  refine onIssue_wf (fun i t ht => State.foldl_wf _ _ _ (fun u warp hu => ?_) ht) h
  dsimp only
  have htrap (l : List Nat) : (l.foldl (fun st n => trapOperand i (i.lane warp n) st) u).mem.wf = true :=
    State.foldl_wf _ _ _ (fun v n hv => by rwa [trapOperand_mem]) hu
  split
  · exact State.foldl_wf _ _ _ (fun v n hv => hv) (htrap _)
  · exact hf _ _ _ _ _ (htrap _)
theorem crossReg_wf {g : Guard} {d : Reg} {j : BitVec 3} {val : State → (Nat → Who) → List Nat → Nat → Nat} {s : State}
    (h : s.mem.wf = true) : AnswerWf (crossReg g d j val s) :=
  crossLane_wf (fun _ _ _ _ _ ht => State.foldl_wf _ _ _ (fun u l hu => by rwa [State.setReg_mem]) ht) h
theorem crossPred_wf {g : Guard} {d : F6} {j : BitVec 3} {val : State → (Nat → Who) → List Nat → Bool} {s : State}
    (h : s.mem.wf = true) : AnswerWf (crossPred g d j val s) :=
  crossLane_wf (fun _ _ _ _ _ ht => State.foldl_wf _ _ _ (fun u l hu => by rwa [State.setPred_mem]) ht) h
theorem execQmax_wf {s : State} {g : Guard} {a : Reg} {j : BitVec 3} (h : s.mem.wf = true) : AnswerWf (execQmax g a j s) := by
  refine crossLane_wf (fun s0 who warp act t ht => ?_) h
  exact State.foldl_wf _ act t (fun u n hu => by simpa) ht
theorem execJset_wf {s : State} {g : Guard} {a : Reg} {j : BitVec 3} (h : s.mem.wf = true) : AnswerWf (execJset g a j s) := by
  refine crossLane_wf (fun s0 who warp act t ht => ?_) h
  cases act <;> simpa
theorem execJsetGrp_wf {s : State} {g : Guard} {j : BitVec 3} (h : s.mem.wf = true) : AnswerWf (execJsetGrp g j s) := by
  refine crossLane_wf (fun s0 who warp act t ht => ?_) h
  cases act <;> simpa

/-! ### Frames of spilled contexts -/

@[simp] theorem State.newWindow_mem (s : State) (c slot : Nat) : (s.newWindow c slot).mem = s.mem := rfl
@[simp] theorem State.holdMx_mem (s : State) (c slot : Nat) (l : Launch) : (s.holdMx c slot l).mem = s.mem := by
  fun_cases State.holdMx <;> rfl
@[simp] theorem State.reserve_mem (s : State) (c slot : Nat) : (s.reserve c slot).mem = s.mem := by
  fun_cases State.reserve <;> grind [State.modCore_mem, State.newWindow_mem, State.holdMx_mem]
@[simp] theorem State.numbered_mem (s : State) (w : DispWait) : (s.numbered w).2.mem = s.mem := by
  fun_cases State.numbered <;> grind [State.next_mem]
@[simp] theorem State.listWait_mem (s : State) (w : DispWait) : (s.listWait w).mem = s.mem := by
  fun_cases State.listWait <;> rfl
@[simp] theorem State.dropService_mem (s : State) (id : Nat) : (s.dropService id).mem = s.mem := rfl
@[simp] theorem State.dropWait_mem (s : State) (id : Nat) : (s.dropWait id).mem = s.mem := rfl
@[simp] theorem State.waitFault_mem (s : State) (id die part : Nat) (user write : Bool) (cause sub : Nat) (va : DWord) :
    (s.waitFault id die part user write cause sub va).mem = s.mem := rfl
@[simp] theorem State.listFault_mem (s : State) (w : DispWait) (cause sub : Nat) (va : DWord) :
    (s.listFault w cause sub va).mem = s.mem := by
  simp [State.listFault]
@[simp] theorem State.skipFrame_mem (s : State) (die j cause : Nat) (va : DWord) : (s.skipFrame die j cause va).mem = s.mem := by
  fun_cases State.skipFrame <;> grind [State.signalService_mem, State.addLog_mem]
theorem State.sound_snd (r : Span × State) (va : DWord) : (State.sound r va).2 = r.2 := by
  fun_cases State.sound <;> rfl
theorem State.frameSpan_wf (s : State) (a : Agent) (die j first n : Nat) (h : s.mem.wf = true) :
    (s.frameSpan a die j first n).2.mem.wf = true := by
  rw [State.frameSpan, State.sound_snd]
  exact State.span_wf _ _ _ _ _ _ _ _ _ h
/-- How one frame of the search ends, for any property of the end. (Stated for any `P`, so that the kernel compares the two sides
as they stand and does not evaluate the translation of the frame's address.) -/
theorem State.tryFrame_ends {P : Option FrameFound × State → Prop} (s : State) (a : Agent) (die j : Nat)
    (h : ∀ x t, t.mem = (s.frameSpan a die j 0 1).2.mem → P (x, t)) : P (s.tryFrame a die j) := by
  generalize hf : State.tryFrame = f
  delta State.tryFrame at hf
  subst hf
  beta_reduce
  generalize s.frameSpan a die j 0 1 = r at h ⊢
  split
  · exact h _ _ rfl
  · exact h _ _ (State.skipFrame_mem _ _ _ _ _)
  · exact h _ _ rfl
theorem State.tryFrame_wf (s : State) (a : Agent) (die j : Nat) (h : s.mem.wf = true) : (s.tryFrame a die j).2.mem.wf = true :=
  State.tryFrame_ends (P := fun r => r.2.mem.wf = true) s a die j fun x t ht => by
    dsimp only
    rw [ht]
    exact State.frameSpan_wf s a die j 0 1 h
theorem State.findFrame_wf (s : State) (a : Agent) (die : Nat) (js : List Nat) (h : s.mem.wf = true) :
    (s.findFrame a die js).2.mem.wf = true := by
  refine foldl_keeps (fun r : Option FrameFound × State => r.2.mem.wf = true) _ js _ h fun r j hr => ?_
  split
  · exact hr
  · exact State.tryFrame_wf _ _ _ _ hr
/-- How the search of a partition for a used frame ends, for any property of the end: see `State.tryFrame_ends`. -/
theorem State.framesUsed_ends {P : Option Bool × State → Prop} (s : State) (a : Agent) (js : List Nat) 
     (h : s.mem.wf = true) (hP : ∀ x t, t.mem.wf = true → P (x, t)) : P (s.framesUsed a js) := by
  generalize hf : State.framesUsed = f
  delta State.framesUsed at hf
  subst hf
  beta_reduce
  refine brecOn_ends (R := fun s => s.mem.wf = true) (fun b s h => ?_) (fun j l b s h ih => ?_) js s h
  · exact hP _ _ h
  · generalize hf : State.framesUsed._f = f
    delta State.framesUsed._f at hf
    subst hf
    beta_reduce
    have hs := fun j => State.frameSpan_wf s a 0 j 0 1 h
    obtain ⟨span, hspan⟩ : ∃ f, f = State.frameSpan s a 0 := ⟨_, rfl⟩
    rw [← hspan] at hs ⊢
    dsimp only
    have hs := hs j
    revert hs
    generalize span j 0 1 = r
    intro hs
    split
    · exact hP _ _ hs
    · exact ih _ hs
    · split
      · exact ih _ hs
      · exact hP _ _ hs
theorem State.framesUsed_wf (s : State) (a : Agent) (js : List Nat) (h : s.mem.wf = true) : (s.framesUsed a js).2.mem.wf = true :=
  State.framesUsed_ends (P := fun r => r.2.mem.wf = true) s a js h fun _ _ h => h
theorem State.beginSpill_wf (s : State) (c k j pa : Nat) (h : s.mem.wf = true) : (s.beginSpill c k j pa).mem.wf = true :=
  State.homeWrite_wf _ _ _ _ h
@[simp] theorem State.windowSaved_mem (s : State) (c slot : Nat) : (s.windowSaved c slot).mem = s.mem := rfl
theorem State.endSpill_wf (s : State) (c k j : Nat) (h : s.mem.wf = true) : (s.endSpill c k j).2.mem.wf = true := by
  fun_cases State.endSpill <;> grind [State.frameSpan_wf, State.forget_mem, State.next_mem, State.pokeLines_wf, State.freeCtx_mem,
      State.modCtx_mem, State.windowSaved_mem]
theorem State.setFrameState_wf (s : State) (pa st : Nat) (h : s.mem.wf = true) : (s.setFrameState pa st).mem.wf = true :=
  State.homeWrite_wf _ _ _ _ h
/-- How the freeing of a frame ends, for any property of the end: see `State.tryFrame_ends`. -/
theorem State.freeFrame_ends {P : State → Prop} (s : State) (p die j : Nat) (h : s.mem.wf = true) (hP : ∀ t, t.mem.wf = true → P t) :
    P (s.freeFrame p die j) := by
  generalize hf : State.freeFrame = f
  delta State.freeFrame at hf
  subst hf
  beta_reduce
  have hs := State.frameSpan_wf s (.freeing die j) die j 0 1 h
  generalize s.frameSpan (.freeing die j) die j 0 1 = r at hs ⊢
  split
  · exact hP _ (State.setFrameState_wf _ _ _ hs)
  · exact hP _ hs
  · refine hP _ ?_
    rwa [State.signalService_mem, State.addLog_mem]
theorem State.freeFrame_wf (s : State) (p die j : Nat) (h : s.mem.wf = true) : (s.freeFrame p die j).mem.wf = true :=
  State.freeFrame_ends (P := fun t => t.mem.wf = true) s p die j h fun _ h => h
theorem State.retryFreeing_wf (s : State) (h : s.mem.wf = true) : s.retryFreeing.mem.wf = true := by
  unfold State.retryFreeing
  generalize s.sched.freeing = l
  induction l generalizing s with
  | nil => exact h
  | cons e l ih =>
    rw [List.foldl_cons]
    exact ih _ (State.freeFrame_wf s e.1 e.2.1 e.2.2 h)
theorem State.freeSpillFrame_wf (s : State) (p c k : Nat) (h : s.mem.wf = true) : (s.freeSpillFrame p c k).mem.wf = true := by
  fun_cases State.freeSpillFrame <;> grind [State.freeFrame_wf]
@[simp] theorem State.unmark_mem (s : State) (q : Request) : (s.unmark q).mem = s.mem := State.foldl_mem _ _ _ fun _ _ => rfl
@[simp] theorem State.withdrawGone_mem (s : State) : s.withdrawGone.mem = s.mem := State.foldl_mem State.unmark _ s State.unmark_mem
@[simp] theorem State.lapse_mem (s : State) : s.lapse.mem = s.mem :=
  State.withdrawGone_mem _
@[simp] theorem State.dropSpilled_mem (s : State) (key : Nat) : (s.dropSpilled key).mem = s.mem :=
  (State.foldl_mem State.sweep _ _ State.sweep_mem).trans (State.lapse_mem _)
@[simp] theorem State.killSpilled_mem (s : State) (sp : Spilled) (cause : Nat) (va : DWord) :
    (s.killSpilled sp cause va).mem = s.mem := by
  simp [State.killSpilled]
theorem State.frameFault_wf (s : State) (sp : Spilled) (cause sub : Nat) (va : DWord) (h : s.mem.wf = true) :
    (s.frameFault sp cause sub va).mem.wf = true := by
  fun_cases State.frameFault <;> grind [State.killSpilled_mem, State.freeFrame_wf, State.listFault_mem]
@[simp] theorem State.serveList_mem (s : State) (die level : Nat) : (s.serveList die level).mem = s.mem := rfl
theorem State.windowLines_wf (s : State) (a : Agent) (l : Launch) (o : Option Spilled) (h : s.mem.wf = true) :
    (s.windowLines a l o).2.mem.wf = true := by
  fun_cases State.windowLines <;> grind [State.frameSpan_wf]
@[simp] theorem State.establish_mem (s : State) (c slot : Nat) (l : Launch) (window : List Nat) :
    (s.establish c slot l window).mem = s.mem := by
  fun_cases State.establish <;> grind [State.reserve_mem, State.modCore_mem]
theorem State.restore_wf (s : State) (sp : Spilled) (k : Nat) (l : Launch) (pas window : List Nat) (h : s.mem.wf = true) :
    (s.restore sp k l pas window).mem.wf = true := by
  unfold State.restore
  grind [State.keepBooks_mem, State.establish_mem, State.next_mem, State.wakeLender_mem, State.dropDemand_mem, State.setCtx_mem,
      State.serveList_mem, State.dropSpilled_mem, State.setFrameState_wf]
theorem State.resume_wf (s : State) (a : Agent) (sp : Spilled) (k : Nat) (h : s.mem.wf = true) : (s.resume a sp k).2.mem.wf = true := by
  fun_cases State.resume <;> grind [State.frameSpan_wf, State.killSpilled_mem, State.setFrameState_wf, State.windowLines_wf,
      State.restore_wf]

/-! ### Tasks, launches and the sillage table -/

@[simp] theorem State.register_mem (s : State) (slot : Nat) (l : Launch) (va : DWord) (pa die : Nat) (onDie onCore : Option Nat)
    (startItem : Bool) : (s.register slot l va pa die onDie onCore startItem).mem = s.mem := rfl
@[simp] theorem State.joined_mem (s : State) (pa : Nat) : (s.joined pa).mem = s.mem := rfl
theorem State.decJoin_wf (s : State) (pa : Nat) (h : s.mem.wf = true) : (s.decJoin pa).mem.wf = true := by
  fun_cases State.decJoin <;> grind [State.homeWrite_wf, State.joined_mem]
@[simp] theorem State.reachHome_mem (s : State) (a : Agent) (w : Who) (write : Bool) (pa : Nat) :
    (s.reachHome a w write pa).2.mem = s.mem := by
  fun_cases State.reachHome <;> grind [State.accReady_mem, State.served_mem, State.ask_mem]
theorem reaching_keeps {i : Issue} {w : Who} {acc : Access} {align : Nat} {va : DWord} {f : Nat → State → State}
    (hf : ∀ pa, KeepsWf (f pa)) : KeepsWf (reaching i w acc align va f) := by
  refine access_keeps fun r s h => ?_
  have hr := State.reachHome_mem s (.strand w i.pc) w (acc == .write) r.pa
  split
  · rwa [trapOperand_mem]
  · split
    · next t e => rw [e] at hr; exact hf _ t (by rwa [hr])
    · next t e => rw [e] at hr; rwa [markWait_mem, hr]
theorem reachingNext_keeps {i : Issue} {w : Who} {write : Bool} {pa : Nat} {f : State → State} (hf : KeepsWf f) :
    KeepsWf (reachingNext i w write pa f) := by
  intro s h
  have hr := State.reachHome_mem s (.strand w i.pc) w write pa
  unfold reachingNext
  split
  · next t e => rw [e] at hr; exact hf t (by rwa [hr])
  · next t e => rw [e] at hr; rwa [markWait_mem, hr]
theorem releasing_keeps {i : Issue} {w : Who} {acc : Access} {align : Nat} {va : DWord} {f : Nat → State → State}
    (hf : ∀ pa, KeepsWf (f pa)) : KeepsWf (releasing i w acc align va f) := by
  intro s h
  unfold releasing
  split
  · exact h
  · exact reaching_keeps hf s h
theorem unlessPoisoned_keeps {w : Who} {va : DWord} {pa : Nat} {f : State → State} (hf : KeepsWf f) :
    KeepsWf (unlessPoisoned w va pa f) := by
  intro s h
  unfold unlessPoisoned
  split
  · exact hf s h
  · rwa [State.asyncTrap_mem]
theorem execTenq_wf {s : State} {g : Guard} {a : Reg} (h : s.mem.wf = true) : AnswerWf (execTenq g a s) := by
  refine eachExec_wf (fun i w t ht => releasing_keeps (fun _ u hu => reaching_keeps (fun pa v hv => ?_) u hu) t ht) h
  refine unlessPoisoned_keeps (fun x hx => ?_) v hv
  split
  · simpa
  · dsimp only
    split
    · simpa
    · split
      · simpa
      · rw [State.register_mem]
        exact State.homeWrite_wf _ _ _ _ hx
theorem execTdec_wf {s : State} {g : Guard} {a : Reg} (h : s.mem.wf = true) : AnswerWf (execTdec g a s) :=
  eachExec_wf (fun _ _ t ht => releasing_keeps (fun pa u hu => unlessPoisoned_keeps (fun v hv => State.decJoin_wf v pa hv) u hu) t ht) h
theorem State.entryRecord_wf (s : State) (a : Agent) (die part : Nat) (user : Bool) (bits : Nat) (h : s.mem.wf = true) :
    (s.entryRecord a die part user bits).2.mem.wf = true := by
  fun_cases State.entryRecord <;> grind [State.dieTranslate_wf, State.devReady_mem, State.served_mem, State.ask_mem]
theorem overflowWrite_wf (i : Issue) (w : Who) (slot : Nat) (l : Launch) (src : DWord) (bits : Nat) (d : Reg) (st : State)
    (h : st.mem.wf = true) : (overflowWrite i w slot l src bits d st).mem.wf = true := by
  unfold overflowWrite
  dsimp only
  generalize BitVec.ofNat 64 (l.oqb + 128 * (l.ovTail % l.oqn)) = va
  generalize hva' : va + 64#64 = va'
  refine reaching_keeps (fun pa => ?_) st h
  refine reachingNext_keeps fun t ht => ?_
  generalize hb : bits / 2 ^ 512 = b'
  generalize hb' : bits % 2 ^ 512 = b
  generalize hu : ((t.homeWrite pa 64 b).homeWrite (pa + 64) 64 b') = u
  have hw : u.mem.wf = true := by
    rw [← hu]
    exact State.homeWrite_wf _ _ _ _ (State.homeWrite_wf _ _ _ _ ht)
  split
  all_goals
    refine unlessPoisoned_keeps keepsWf_id _ ?_
    rw [State.setReg_mem, State.modLaunch_mem]
    exact hw
theorem queueLaunch_wf (i : Issue) (w : Who) (va : DWord) (bits : Nat) (d : Reg) (st : State) (h : st.mem.wf = true) :
    (queueLaunch i w va bits d st).mem.wf = true := by
  fun_cases queueLaunch <;> grind [State.setReg_mem, State.modCtx_mem, overflowWrite_wf]
theorem execLnch_wf {s : State} {g : Guard} {d a : Reg} (h : s.mem.wf = true) : AnswerWf (execLnch g d a s) := by
  refine eachExec_wf (fun i w t ht => ?_) h
  generalize t.reg64 w a = va
  generalize va + 64#64 = va'
  refine releasing_keeps (fun pa u hu => reachingNext_keeps (fun v hv => ?_) u hu) t ht
  refine unlessPoisoned_keeps (fun x hx => unlessPoisoned_keeps (fun y hy => ?_) x hx) v hv
  have he := State.entryRecord_wf y (.strand w i.pc) (coreDie w.core) (y.partOf w.core w.ctx) (!y.privileged w) (y.homeRead pa 128) hy
  dsimp only
  split
  · next e => rw [e] at he; simpa
  · next e => rw [e] at he; simpa
  · next e =>
    rw [e] at he
    split
    · simpa
    · exact queueLaunch_wf _ _ _ _ _ _ he
theorem execIqpush_wf {s : State} {g : Guard} {a : Reg} (h : s.mem.wf = true) : AnswerWf (execIqpush g a s) := by
  refine eachExec_wf (fun i w t ht => ?_) h
  dsimp only
  split
  · simpa
  · split <;> simpa
theorem execWave_wf {s : State} {g : Guard} {d a b : Reg} (h : s.mem.wf = true) : AnswerWf (execWave g d a b s) := by
  refine eachExec_wf (fun i w t ht => ?_) h
  dsimp only
  split
  · simpa
  · split
    · simpa
    · split <;> simpa
theorem execSetdl_wf {s : State} {g : Guard} {a : Reg} (h : s.mem.wf = true) : AnswerWf (execSetdl g a s) := by
  refine eachExec_wf (fun i w t ht => ?_) h
  dsimp only
  split
  · exact ht
  · next x _ =>
    generalize x.record + 24#64 = va
    refine reaching_keeps (fun pa u hu => unlessPoisoned_keeps keepsWf_id _ ?_) t ht
    rw [State.modCtx_mem]
    exact State.homeWrite_wf _ _ _ _ hu
@[simp] theorem State.setSillage_mem (s : State) (die : Nat) (l : List Sillage) : (s.setSillage die l).mem = s.mem := by
  fun_cases State.setSillage <;> rfl
@[simp] theorem State.sillagePut_mem (s : State) (die : Nat) (e : Sillage) : (s.sillagePut die e).2.mem = s.mem := by
  fun_cases State.sillagePut <;> grind [State.setSillage_mem]
theorem pinLines_keeps {i : Issue} {w : Who} {f : List Nat → State → State} (hf : ∀ ls, KeepsWf (f ls)) (n k : Nat) (va : DWord)
    (ls : List Nat) : KeepsWf (pinLines i w f n k va ls) := by
  induction n generalizing k va ls with
  | zero => exact hf ls
  | succ n ih =>
    intro s h
    rw [pinLines]
    split
    · exact hf ls s h
    · refine access_keeps (fun r t ht => ?_) s h
      split
      · rwa [trapOperand_mem]
      · exact ih _ _ _ t ht
theorem execRestag_wf {s : State} {g : Guard} {d a : Reg} (h : s.mem.wf = true) : AnswerWf (execRestag g d a s) := by
  refine eachExec_wf (fun i w t ht => withDesc_keeps (fun v u hu => ?_) t ht) h
  dsimp only
  split
  · split
    · simpa
    · exact pinLines_keeps (fun ls x hx => by simpa) _ _ _ _ u hu
  · split
    · simpa
    · split <;> simpa

/-! ### Registers of the system, traps and services -/

theorem eachPriv_wf {g : Guard} {f : Issue → Who → State → State} (hf : ∀ i w, KeepsWf (f i w)) {s : State} (h : s.mem.wf = true) :
    AnswerWf (eachPriv g f s) := by
  refine onIssue_wf (fun i t ht => State.foldl_wf _ _ _ (fun u w hu => ?_) ht) h
  split
  · rwa [trapPrivilege_mem]
  · split
    · exact hf i w u hu
    · exact hu
theorem execMovsr_wf {s : State} {g : Guard} {d : Reg} {f : F6} (h : s.mem.wf = true) : AnswerWf (execMovsr g d f s) := by
  refine eachExec_wf (fun i w t ht => ?_) h
  dsimp only
  split
  · simpa
  · split <;> simpa
theorem State.writeSavebase_wf (s : State) (a : Agent) (v : DWord) (h : s.mem.wf = true) : (s.writeSavebase a v).2.mem.wf = true := by
  fun_cases State.writeSavebase <;> grind [State.framesUsed_wf]
@[simp] theorem State.writeFwctl_mem (s : State) (v : DWord) : (s.writeFwctl v).mem = s.mem := by
  fun_cases State.writeFwctl <;> rfl
@[simp] theorem State.writeCsr_mem (s : State) (w : Who) (c : Nat) (v : DWord) : (s.writeCsr w c v).mem = s.mem := by
  fun_cases State.writeCsr <;> grind [State.modCore_mem, State.modCtx_mem, State.writeFwctl_mem]
theorem execCsrr_wf {s : State} {g : Guard} {d : Reg} {c : BitVec 12} (h : s.mem.wf = true) : AnswerWf (execCsrr g d c s) := by
  refine onIssue_wf (fun i t ht => State.foldl_wf _ _ _ (fun u w hu => ?_) ht) h
  split
  · simpa
  · split
    · simpa
    · split <;> simpa
theorem execCsrw_wf {s : State} {g : Guard} {d : Reg} {c : BitVec 12} (h : s.mem.wf = true) : AnswerWf (execCsrw g d c s) := by
  refine onIssue_wf (fun i t ht => State.foldl_wf _ _ _ (fun u w hu => ?_) ht) h
  split
  · simpa
  · split
    · simpa
    · split
      · exact hu
      · split
        · have hw := State.writeSavebase_wf u (.strand w i.pc) (u.reg64 w d) hu
          split
          · next e => rwa [e] at hw
          · next e => rw [e] at hw; simpa
        · simpa
@[simp] theorem State.ringReady_mem (s : State) (a : Agent) (off n : Nat) : (s.ringReady a off n).2.mem = s.mem :=
  State.allReady_mem _ _ _ _
theorem execSvc_wf {s : State} {g : Guard} {d a : Reg} (h : s.mem.wf = true) : AnswerWf (execSvc g d a s) := by
  refine eachExec_wf (fun i w t ht => ?_) h
  dsimp only
  split
  · simpa
  · split
    · simpa
    · generalize ((t.cur.map (·.calls)).getD []) = calls
      have hr : ∀ off n, (t.ringReady (.strand w i.pc) off n).2.mem.wf = true := fun off n => by simpa
      split
      all_goals
        split
        · simpa
        · generalize hr' : t.ringReady _ _ _ = r
          have hr' := hr' ▸ hr _ _
          split <;> simpa using hr'
theorem State.formBatch_wf (s : State) (calls : List (Who × Nat × DWord × DWord)) (h : s.mem.wf = true) :
    (s.formBatch calls).mem.wf = true := by
  unfold State.formBatch
  grind [State.pokeLines_wf, State.setCtlF_mem, State.signalService_mem]
theorem State.formBatches_wf (s : State) (calls : List (Who × Nat × DWord × DWord)) (h : s.mem.wf = true) :
    (s.formBatches calls).mem.wf = true := State.foldl_wf _ _ _ State.formBatch_wf h
@[simp] theorem State.completeBatch_mem (s : State) (b : Batch) : (s.completeBatch b).mem = s.mem := by
  refine State.foldl_mem _ _ _ fun t c => ?_
  dsimp only
  split
  · rfl
  · split
    · rw [State.asyncTrap_mem]
    · rw [State.dropDemand_mem, State.modStrand_mem, State.setReg64_mem]
theorem execEret_wf {s : State} {g : Guard} (h : s.mem.wf = true) : AnswerWf (execEret g s) := by
  refine eachPriv_wf (fun i w t ht => ?_) h
  dsimp only
  split
  · simpa
  · split
    · simpa
    · split
      · exact waitUnless_keeps (fun u hu => State.eret_wf _ _ _ _ _ hu) t ht
      · split
        · simpa
        · have hs := State.span_wf t (.strand w i.pc) (coreDie w.core) (t.partOf w.core w.ctx) false .write (t.leadFrame w.core w.ctx)
            none 16 ht
          generalize t.leadFrame w.core w.ctx = frame at hs ⊢
          split
          · next e => rw [e] at hs; simpa
          · next e => rw [e] at hs; simpa
          · next pas u e =>
            rw [e] at hs
            split
            · simpa
            · generalize (t.ctx w.core w.ctx).traps.head?.any _ = skips
              have hf : (if skips = true then u.fetchWords w (.strand w i.pc) false (t.ctx w.core w.ctx).trapPc 4 []
                  else (.ok [], u)).2.mem.wf = true := by
                split
                · exact State.fetchWords_wf _ _ _ _ _ _ _ hs
                · exact hs
              generalize (if skips = true then u.fetchWords w (.strand w i.pc) false (t.ctx w.core w.ctx).trapPc 4 []
                else (.ok [], u)) = r at hf ⊢
              split
              · simpa using hf
              · exact State.eret_wf _ _ _ _ _ hf
              · exact State.eret_wf _ _ _ _ _ hf
theorem execEvsig_wf {s : State} {g : Guard} {a : Reg} (h : s.mem.wf = true) : AnswerWf (execEvsig g a s) := by
  refine eachExec_wf (fun i w t ht => ?_) h
  dsimp only
  split
  · split
    · simpa
    · split
      · simpa
      · refine access_keeps (fun r u hu => ?_) t ht
        split
        · exact hu
        · next b _ =>
          have hr : (u.allReady (.strand w i.pc) false (recordPieces b.addr)).2.mem.wf = true := by simpa
          generalize u.allReady (.strand w i.pc) false (recordPieces b.addr) = r at hr ⊢
          split <;> simpa using hr
  · exact wf_ite (by simpa) (by simpa)
theorem execOwn_wf {s : State} {g : Guard} {a : Reg} (h : s.mem.wf = true) : AnswerWf (execOwn g a s) := by
  refine eachPriv_wf (fun i w t ht => access_keeps (fun r u hu => ?_) t ht) h
  dsimp only
  split
  · exact hu
  · rw [waitAs_mem]
    split <;> simpa
theorem execTlbinv_wf {s : State} {g : Guard} {a : Reg} (h : s.mem.wf = true) : AnswerWf (execTlbinv g a s) := by
  refine eachPriv_wf (fun i w t ht => ?_) h
  split <;> simpa
theorem execCtxsv_wf {s : State} {g : Guard} {a : Reg} (h : s.mem.wf = true) : AnswerWf (execCtxsv g a s) := by
  refine eachPriv_wf (fun i w t ht => ?_) h
  dsimp only
  split
  · split <;> split <;> simpa
  · split
    · simpa
    · split <;> simpa
theorem execCtxld_wf {s : State} {g : Guard} {a : Reg} (h : s.mem.wf = true) : AnswerWf (execCtxld g a s) := by
  refine eachPriv_wf (fun i w => keepsWf_of_ends fun P hP t ht => ?_) h
  have hf := fun j => State.frameSpan_wf t (.strand w i.pc) (coreDie w.core) j 0 1 ht
  obtain ⟨span, hspan⟩ : ∃ f, f = State.frameSpan t (.strand w i.pc) (coreDie w.core) := ⟨_, rfl⟩
  rw [← hspan] at hf ⊢
  dsimp only
  split
  · exact hP _ (by simpa)
  · next sp _ =>
    specialize hf sp.frame
    generalize span sp.frame 0 1 = r at hf ⊢
    split
    · exact hP _ (by simpa using hf)
    · exact hP _ (by simpa using hf)
    · next pas u =>
      refine hP _ (wf_ite (by simpa using hf) ?_)
      cases u.hwFor w.core sp.key with
      | none => simpa
      | some k =>
        dsimp only
        have hr := State.resume_wf u (.strand w i.pc) sp k hf
        generalize u.resume (.strand w i.pc) sp k = r at hr ⊢
        refine wf_ite (by simpa) ?_
        obtain ⟨x, v⟩ := r
        cases x with
        | ok => exact hr
        | wait => simpa using hr
        | fault => exact wf_ite (State.frameFault_wf _ _ _ _ _ hr) (by simpa using State.frameFault_wf _ _ _ _ _ hr)

/-! ### The words of a slot -/

/-- Whatever word a slot holds, memory keeps its canonical form. -/
theorem runWord_wf (i : Instr) {s : State} (h : s.mem.wf = true) : AnswerWf (runWord i s) := by
  cases i with
  | iadd | isub | imul | imad | iand | ior | ixor | ishl | ishr | isra | imin | imax | iminu | imaxu | imulh | imulhu | iabs | popc
  | clz | brev | bfe | bfi | p2g | iaddImm | ishlImm | ishrImm | israImm | iandImm | isel | movi | movh | movh20 | fadd | fsub |
  fmul | ffma | ffms | pkfmaF16 | pkfmaBf16 | fmin | fmax | pkaddF16 | pkaddBf16 | frnd | fclass | faddRm | fsubRm | fmulRm | fdiv |
  fsqrt | fexp2 | flog2 | fsin | fcos | frcp | frsq | qcvtI8 | qcvtCb4 | dqI8 | dqCb4 =>
    exact writeReg_wf h
  | dadd | dmul | dfma | ddiv | dmin | dmax | daddRm | dmulRm | dsqrt => exact writePair_wf h
  | shflIdx | shflUp | shflDown | shflXor | voteBallot | matchLanes | scanAdd | scanAddEx | redAdd | redMin | redMax | fredAdd =>
    dsimp only [runWord]
    exact crossReg_wf h
  | voteAny | voteAll =>
    dsimp only [runWord]
    exact crossPred_wf h
  | atomAdd | atomMin | atomMax | atomAnd | atomOr | atomXor | xchg | cas => exact globalAtom_wf h
  | xadd | xrd | xrd64 | xclr => exact xalAccess_wf h
  | atomsAdd | atomsMin | atomsMax | atomsAnd | atomsOr | atomsXor | atomsXchg | atomsCas => exact smemAtom_wf h
  | cpy | cpyTag => exact issueCopy_wf h
  | ray | rayAny => exact issueRay_wf h
  | draw | drawEz => exact issueDraw_wf h
  | icmp | icmpD | lea | plop | pset | g2p | iaddD | dcmp | fcmp | cbsel | bra | call | brx | ret | ntest | iqclose | resq | resdrop
  | trap =>
    exact eachExec_wf (fun _ _ _ ht => by simpa) h
  | fenceAcq | fenceRel | fenceAr => exact eachExec_wf (fun _ _ t ht => fenceUnless_keeps (fun u hu => by simpa) t ht) h
  | drain | waitc | ntake | wavew => exact eachExec_wf (fun _ _ t ht => waitUnless_keeps keepsWf_id t ht) h
  | wfe => exact eachExec_wf (fun _ _ t ht => waitUnless_keeps (fun u hu => by simpa) t ht) h
  | pref | nop => exact onIssue_wf (fun _ _ ht => ht) h
  | join =>
    dsimp only [runWord]
    exact crossLane_wf (fun _ _ _ _ _ ht => ht) h
  | qmax => exact execQmax_wf h
  | jset => exact execJset_wf h
  | jsetGrp => exact execJsetGrp_wf h
  | cvt => exact execCvt_wf h
  | ldg => exact execLdg_wf h
  | lds => exact execLds_wf h
  | lda => exact execLda_wf h
  | cinv => exact execCinv_wf h
  | cpin => exact execCpin_wf h
  | cunpin => exact execCunpin_wf h
  | stg => exact execStg_wf h
  | sts => exact execSts_wf h
  | stgRel => exact execStgRel_wf h
  | stc => exact execStc_wf h
  | bar => exact execBar_wf h
  | gbara => exact execGbara_wf h
  | gbarw => exact execGbarw_wf h
  | awinit => exact execAwinit_wf h
  | awadd => exact execAwadd_wf h
  | awwait => exact execAwwait_wf h
  | awtest => exact execAwtest_wf h
  | callx => exact execCallx_wf h
  | exit => exact execExit_wf h
  | endl => exact execEndl_wf h
  | brk => exact execBrk_wf h
  | loopLc0 => exact execLoopLc0_wf h
  | loopLc1 => exact execLoopLc1_wf h
  | loopp => exact execLoopp_wf h
  | item => exact execItem_wf h
  | cpys => exact execCpys_wf h
  | gath => exact execGath_wf h
  | mxcfg => exact execMxcfg_wf h
  | mxshape => exact execMxshape_wf h
  | mxldw => exact execMxldw_wf h
  | mxq => exact execMxq_wf h
  | mxdrain => exact execMxdrain_wf h
  | cbload => exact execCbload_wf h
  | npass => exact execNpass_wf h
  | ovlp => exact execOvlp_wf h
  | refit => exact execRefit_wf h
  | tenq => exact execTenq_wf h
  | tdec => exact execTdec_wf h
  | lnch => exact execLnch_wf h
  | iqpush => exact execIqpush_wf h
  | wave => exact execWave_wf h
  | setdl => exact execSetdl_wf h
  | restag => exact execRestag_wf h
  | movsr => exact execMovsr_wf h
  | svc => exact execSvc_wf h
  | evsig => exact execEvsig_wf h
  | csrr => exact execCsrr_wf h
  | csrw => exact execCsrw_wf h
  | eret => exact execEret_wf h
  | tlbinv => exact execTlbinv_wf h
  | own => exact execOwn_wf h
  | ctxsv => exact execCtxsv_wf h
  | ctxld => exact execCtxld_wf h
  | _ => exact answerWf_next.mpr h

/-! ### The issue of a bundle -/

theorem State.nextOf_wf (s : State) (w : Who) (h : s.mem.wf = true) : (s.nextOf w).2.mem.wf = true := by
  fun_cases State.nextOf <;> grind [State.fetchWords_wf]
theorem runSlot_wf (p : SlotPos × Instr) (s : State) (h : s.mem.wf = true) : (runSlot p s).mem.wf = true := by
  unfold runSlot
  split
  · next e => exact runWord_wf p.2 (s := { s with cur := s.cur.map fun i => { i with slot := p.1 } }) h _ e
  · exact h
theorem runSlots_wf (base : Ctx) (c k : Nat) (ps : List (SlotPos × Instr)) (s : State) (h : s.mem.wf = true) :
    (runSlots base c k ps s).mem.wf = true := by
  fun_induction runSlots with
  | case1 => exact h
  | case2 p s => exact runSlot_wf p s h
  | case3 p ps s _ s1 part s2 _ ih =>
    rw [State.modCtx_mem]
    exact ih (by simpa using runSlot_wf p s h)
  | case4 p ps s _ s1 part _ ih => exact ih (by simpa using runSlot_wf p s h)
theorem runBundle_wf (i : Issue) (b : Bundle) (s : State) (h : s.mem.wf = true) : (runBundle i b s).mem.wf = true :=
  runSlots_wf _ _ _ _ _ (State.foldl_wf _ i.whos _ (fun t w ht => by simpa) h)
@[simp] theorem State.enterRegion_mem (s : State) (w : Who) (b : Bundle) : (s.enterRegion w b).mem = s.mem := by
  fun_cases State.enterRegion <;> grind [State.modStrand_mem]
@[simp] theorem keepFrames_mem (s r : State) : (keepFrames s r).mem = s.mem := by
  fun_cases keepFrames <;> grind [State.lapse_mem]
@[simp] theorem keepMarks_mem (ws : List Who) (s r : State) : (keepMarks ws s r).mem = s.mem := by
  unfold keepMarks
  rw [State.foldl_mem _ _ _ fun t w => State.modStrand_mem t w _]
  simp
@[simp] theorem State.slotSpent_mem (s : State) (w : Who) : (s.slotSpent w).mem = s.mem := by
  fun_cases State.slotSpent <;> rfl
@[simp] theorem State.ageless_mem (s : State) (w : Who) : (s.ageless w).mem = s.mem := by
  fun_cases State.ageless <;> rfl
@[simp] theorem State.relist_mem (s : State) (w : Who) (t : Trap) : (s.relist w t).mem = s.mem := by
  simp [State.relist]
@[simp] theorem State.committed_mem (s : State) (w : Who) (b : Bundle) (barred : Bool) : (s.committed w b barred).mem = s.mem := by
  fun_cases State.committed <;> grind [State.modCtx_mem, State.modStrand_mem, State.slotSpent_mem]
@[simp] theorem State.finishIssue_mem (s : State) (b : Bundle) (task : Option Task) : (s.finishIssue b task).mem = s.mem := by
  fun_cases State.finishIssue <;> grind [State.modMx_mem, State.passNeedle_mem, State.modCtx_mem]
theorem State.settleTally_wf (s : State) (t : Tally) (h : s.mem.wf = true) : (s.settleTally t).mem.wf = true :=
  State.formBatches_wf _ _ (State.foldl_wf _ _ s (fun u x hu => by simpa) h)
@[simp] theorem State.leaving_mem (s : State) (l : List Agent) (r : State) : (s.leaving l r).mem = s.mem := by
  refine State.foldl_mem _ l s fun t a => ?_
  split <;> simp
theorem issueTogether_wf (c k : Nat) (lead : Bool) (tids : List Nat) (b : Bundle) (seen : Memory) (tally : Tally) (s : State)
    (h : s.mem.wf = true) : (issueTogether c k lead tids b seen tally s).2.2.mem.wf = true := by
  unfold issueTogether
  split
  · exact h
  · dsimp only
    generalize (if lead = true then [{ core := c, ctx := k }] else tids.map fun t => ({ core := c, ctx := k, tid := some t } : Who)) = whos
    have hr : ∀ i, (runBundle i b (whos.foldl (fun s w => s.enterRegion w b) s)).mem.wf = true := fun i =>
      runBundle_wf i b _ (State.foldl_wf _ whos s (fun t w ht => by simpa) h)
    generalize hi : issueFor c k tids lead _ b seen tally = i
    specialize hr i
    generalize runBundle i b _ = r at hr ⊢
    have hk : ∀ p, (whos.foldl State.ageless (keepMarks whos s p)).mem.wf = true := fun p => by
      rw [State.foldl_mem _ _ _ State.ageless_mem]
      simpa
    split
    · exact h
    · split
      · rw [State.foldl_mem _ _ _ State.unqueue_mem]
        simpa
      · split
        · rw [State.leaving_mem]
          exact hk r
        · generalize hq : r.settle _ = q
          have hq : q.2.mem = r.mem := hq ▸ State.settle_mem _ _
          split
          · exact hk _
          · split
            · dsimp only
              rw [State.foldl_mem _ _ _ fun t (x : Who × Trap) => State.enterRegion_mem t x.1 b]
              simpa
            · rw [State.foldl_mem _ _ _ fun t w => State.committed_mem t w b _]
              rw [State.finishIssue_mem, State.foldl_mem _ _ _ State.forget_mem]
              rwa [hq]
@[simp] theorem issueEmpty_mem (w : Who) (b : Bundle) (header : Bool) (s : State) : (issueEmpty w b header s).mem = s.mem := by
  fun_cases issueEmpty <;> grind [State.enterRegion_mem, State.modStrand_mem, State.modCtx_mem, State.slotSpent_mem]
theorem execEmptyBundle_wf {e : BitVec 4} {y m : BitVec 1} {w : BitVec 4} {x : BitVec 14} {s : State} (h : s.mem.wf = true) :
    AnswerWf (execEmptyBundle e y m w x s) := by
  refine onIssue_wf (fun i t ht => State.foldl_wf _ _ t (fun u v hu => ?_) ht) h
  split <;> simpa
@[simp] theorem issueBad_mem (w : Who) (cause sub : Nat) (va : DWord) (slot : Nat) (s : State) :
    (issueBad w cause sub va slot s).mem = s.mem :=
  State.relist_mem _ _ _
theorem runGroup_wf (c k : Nat) (tids : List Nat) (b : Bundle) (seen : Memory) (s : State) (h : s.mem.wf = true) :
    (runGroup c k tids b seen s).2.2.mem.wf = true := by
  refine foldl_keeps (fun a : Bool × Tally × State => a.2.2.mem.wf = true) _ _ _ h fun a team ha => ?_
  have ht := issueTogether_wf c k false team b seen a.2.1 a.2.2 ha
  split
  · exact ha
  · generalize issueTogether c k false team b seen a.2.1 a.2.2 = r at ht ⊢
    split <;> exact ht
theorem issueGroup_wf (c k : Nat) (tids : List Nat) (b : Bundle) (seen : Memory) (s : State) (h : s.mem.wf = true) :
    (issueGroup c k tids b seen s).2.mem.wf = true := by
  unfold issueGroup
  dsimp only
  split
  · simpa
  · rw [State.noAsks_mem]
    exact State.settleTally_wf _ _ (runGroup_wf c k tids b seen s h)
theorem issueAlone_wf (w : Who) (n : Next) (seen : Memory) (s : State) (h : s.mem.wf = true) :
    (issueAlone w n seen s).2.mem.wf = true := by
  have hf : ∀ f, KeepsWf f → (match s.settle (.strand w (s.strand w).pc) with
    | (true, s) => (Fate.done, f s) | (false, s) => (.waits, s)).2.mem.wf = true := fun f hf => by
    have hs := State.settle_mem s (.strand w (s.strand w).pc)
    generalize s.settle (.strand w (s.strand w).pc) = q at hs ⊢
    split
    · exact hf _ (by rwa [hs])
    · rwa [hs]
  cases n with
  | wait => exact h
  | bad => exact hf _ fun t ht => by simpa
  | empty =>
    unfold issueAlone
    dsimp only
    split
    · simpa
    · exact hf _ fun t ht => by simpa
  | run b =>
    have ht := issueTogether_wf w.core w.ctx w.tid.isNone w.tid.toList b seen {} s h
    unfold issueAlone
    dsimp only
    generalize issueTogether w.core w.ctx w.tid.isNone w.tid.toList b seen {} s = r at ht ⊢
    exact State.settleTally_wf _ _ ht

/-! ### Tile tasks -/

@[simp] theorem State.streamGroups_mem (s : State) (c id n : Nat) : (s.streamGroups c id n).mem = s.mem := by
  fun_induction State.streamGroups <;> grind [State.modOp_mem, State.modMx_mem]
@[simp] theorem State.streamTile_mem (s : State) (c id : Nat) : (s.streamTile c id).mem = s.mem := by
  fun_cases State.streamTile <;> grind [State.streamGroups_mem]
@[simp] theorem State.streamTiles_mem (s : State) (c : Nat) : (s.streamTiles c).mem = s.mem :=
  State.foldl_mem _ _ s fun t o => State.streamTile_mem t c o.id

/-! ### The core cycle -/

@[simp] theorem State.idles_mem (s : State) (w : Who) : (s.idles w).mem = s.mem := by
  fun_cases State.idles <;> rfl
theorem scanOne_wf (w : Who) (s : State) (h : s.mem.wf = true) : (scanOne w s).2.mem.wf = true := by
  unfold scanOne
  split
  · simpa
  · have hn := State.nextOf_wf s w h
    generalize s.nextOf w = r at hn ⊢
    obtain ⟨n, s1⟩ := r
    dsimp only
    split
    · simpa
    · split
      · simpa
      · split <;> simpa
theorem scanThreads_wf (c : Nat) (s : State) (h : s.mem.wf = true) : (scanThreads c s).2.mem.wf = true := by
  refine foldl_keeps (fun a : List Cand × State => a.2.mem.wf = true) _ _ _ h fun a e ha => ?_
  refine foldl_keeps (fun a : List Cand × State => a.2.mem.wf = true) _ _ _ ha fun a t ha => ?_
  have hs := scanOne_wf { core := c, ctx := e.1, tid := some t } a.2 ha
  generalize hr : scanOne _ a.2 = r at hs
  dsimp only
  rw [hr]
  split <;> exact hs
@[simp] theorem completeBars_mem (c : Nat) (s : State) : (completeBars c s).mem = s.mem := by
  refine State.foldl_mem _ _ s fun t r => ?_
  dsimp only
  split
  · exact State.foldl_mem _ _ t fun u x => State.modStrand_mem u x.1 _
  · rfl
@[simp] theorem markSaved_mem (c : Nat) (s : State) : (markSaved c s).mem = s.mem := by
  refine State.foldl_mem _ _ s fun t e => ?_
  split <;> simp
@[simp] theorem stopMarked_mem (c : Nat) (s : State) : (stopMarked c s).mem = s.mem := by
  refine State.foldl_mem _ _ s fun t e => ?_
  exact mem_ite (mem_ite (State.modCtx_mem _ _ _ _) rfl) rfl
@[simp] theorem beginCycle_mem (c : Nat) (s : State) : (beginCycle c s).mem = s.mem := by
  simp [beginCycle, State.streamTiles_mem]
theorem pickLead_wf (c : Nat) (s : State) (h : s.mem.wf = true) : (pickLead c s).2.mem.wf = true := by
  refine foldl_keeps (fun a : List (Nat × Nat × Next) × State => a.2.mem.wf = true) _ _ _ h fun a e ha => ?_
  dsimp only
  split
  · exact ha
  · simpa
theorem issueLead_wf (c : Nat) (s : State) (x : Nat × Next) (h : s.mem.wf = true) : (issueLead c s x).2.mem.wf = true := by
  have hn := State.nextOf_wf (s.modCtx c x.1 Ctx.refilled) { core := c, ctx := x.1 } h
  unfold issueLead
  dsimp only
  generalize (s.modCtx c x.1 Ctx.refilled).nextOf { core := c, ctx := x.1 } = q at hn ⊢
  obtain ⟨n, s1⟩ := q
  have hi := issueAlone_wf { core := c, ctx := x.1 } n (s.windowOf c x.1) s1 hn
  dsimp only
  generalize issueAlone { core := c, ctx := x.1 } n (s.windowOf c x.1) s1 = r at hi ⊢
  split
  · exact hi
  · simpa
theorem issueThreads_wf (c : Nat) (seen : Memory) (s : State) (g : Group) (h : s.mem.wf = true) :
    (issueThreads c seen s g).2.mem.wf = true := by
  unfold issueThreads
  dsimp only
  split
  · exact h
  · next w ws _ =>
    have hn := State.nextOf_wf s w h
    generalize s.nextOf w = q at hn ⊢
    split
    · exact issueGroup_wf _ _ _ _ _ _ hn
    · next n u _ =>
      rw [State.noAsks_mem]
      refine foldl_keeps (fun a : Bool × State => a.2.mem.wf = true) _ _ _ hn fun a w ha => ?_
      have hi := issueAlone_wf w n seen a.2 ha
      split
      · next e => rwa [e] at hi
      · next e => rwa [e] at hi
@[simp] theorem State.joinCsrs_mem (s before led : State) (c : Nat) : (s.joinCsrs before led c).mem = s.mem := rfl
theorem issueCycle_wf (c : Nat) (lead : Option (Nat × Next)) (g : Option Group) (s : State) (h : s.mem.wf = true) :
    (issueCycle c lead g s).2.2.mem.wf = true := by
  have hg : ∀ (first : Bool) (led : State), led.mem.wf = true → (match g with
      | none => (first, false, led)
      | some g => match issueThreads c (s.windowOf c g.ctx) (led.withCsrs s c) g with
        | (any, t) => (first, any, t.joinCsrs s led c)).2.2.mem.wf = true := fun first led hl => by
    cases g with
    | none => exact hl
    | some g =>
      dsimp only
      rw [State.joinCsrs_mem]
      exact issueThreads_wf _ _ _ _ (by simpa)
  cases lead with
  | none => exact hg false s h
  | some x => exact hg _ _ (issueLead_wf c s x h)
@[simp] theorem ageDry_mem (c : Nat) (ready : List Cand) (s : State) : (ageDry c ready s).mem = s.mem := by
  refine State.foldl_mem _ _ s fun t x => ?_
  split <;> simp
@[simp] theorem endCycle_mem (c charge cls : Nat) (fp64 stalled : Bool) (s : State) :
    (endCycle c charge cls fp64 stalled s).mem = s.mem := rfl
theorem runCycle_wf (c : Nat) (s : State) (h : s.mem.wf = true) : (runCycle c s).mem.wf = true := by
  have h1 := scanThreads_wf c (beginCycle c s) (by simpa)
  have h2 := scanThreads_wf c (completeBars c (scanThreads c (beginCycle c s)).2) (by simpa)
  unfold runCycle
  dsimp only
  generalize scanThreads c (completeBars c (scanThreads c (beginCycle c s)).2) = q at h2 ⊢
  obtain ⟨all, u⟩ := q
  have h3 := pickLead_wf c u h2
  dsimp only
  generalize pickLead c u = p at h3 ⊢
  obtain ⟨lead, v⟩ := p
  dsimp only
  split
  · simpa
  · rw [endCycle_mem, ageDry_mem]
    refine issueCycle_wf _ _ _ _ ?_
    rw [State.modCore_mem]
    split <;> simpa
theorem execCoreCycle_wf (core : Nat) (s : State) (h : s.mem.wf = true) : AnswerWf (execCoreCycle core s) := by
  refine answerWf_next.mpr ?_
  split
  · exact runCycle_wf _ _ h
  · exact h
@[simp] theorem State.startClock_mem (s : State) (c : Nat) : (s.startClock c).mem = s.mem := by
  fun_cases State.startClock <;> rfl

/-! ### What the home of a line does -/

@[simp] theorem State.castSend_mem (s : State) (t : Store) (cores : List Nat) : (s.castSend t cores).mem = s.mem := by
  fun_cases State.castSend <;> grind [State.castAnswered_mem, State.modCast_mem, State.sendCasts_mem]
@[simp] theorem State.dropStore_mem (s : State) (c id : Nat) : (s.dropStore c id).mem = s.mem := rfl
@[simp] theorem State.storeReturns_mem (s : State) (c id value err : Nat) : (s.storeReturns c id value err).mem = s.mem := rfl
theorem State.perform_wf (s : State) (c : Nat) (t : Store) (h : s.mem.wf = true) : (s.perform c t).mem.wf = true := by
  unfold State.perform
  grind [State.poke_wf, State.modCore_mem, State.dropStore_mem, State.storeReturns_mem, State.loseDemand_mem, State.castSend_mem,
      State.served_mem, State.dropAlias_mem]
@[simp] theorem State.refuseWrite_mem (s : State) (c : Nat) (t : Store) (err : Nat) : (s.refuseWrite c t err).mem = s.mem := by
  fun_cases State.refuseWrite <;> grind [State.storeReturns_mem, State.discardCopies_mem, State.dropStore_mem, State.asyncTrap_mem]

/-! ### Registers of the control space -/

@[simp] theorem State.reject_mem (s : State) (off bit : Nat) : (s.reject off bit).mem = s.mem := rfl
@[simp] theorem State.w1c_mem (s : State) (off bit : Nat) (v : DWord) : (s.w1c off bit v).mem = s.mem := by
  fun_cases State.w1c <;> rfl
@[simp] theorem State.powerChange_mem (s new : State) (h : new.mem = s.mem) : (s.powerChange new).mem = s.mem := by
  unfold State.powerChange
  split
  · rw [State.regrant_mem, h]
  · exact State.reject_mem _ _ _
@[simp] theorem State.writeClprof_mem (s : State) (n : Nat) (v : DWord) : (s.writeClprof n v).mem = s.mem := by
  unfold State.writeClprof
  grind [State.powerChange_mem, State.setCtlF_mem]
@[simp] theorem State.writeLend_mem (s : State) (n dw : Nat) (v : DWord) : (s.writeLend n dw v).mem = s.mem := by
  fun_cases State.writeLend <;> grind [State.powerChange_mem, State.setCtl_mem]
@[simp] theorem State.writePmctl_mem (s : State) (v : DWord) : (s.writePmctl v).mem = s.mem :=
  State.w1c_mem _ _ _ _
@[simp] theorem State.writeQos_mem (s : State) (n dw : Nat) (v : DWord) : (s.writeQos n dw v).mem = s.mem := by
  fun_cases State.writeQos <;> rfl
@[simp] theorem State.updateUrgency_mem (s : State) (h : Nat) : (s.updateUrgency h).mem = s.mem :=
  State.setCtlF_mem _ _ _ _ _
@[simp] theorem State.writeHeadurg_mem (s : State) (h : Nat) (v : DWord) : (s.writeHeadurg h v).mem = s.mem := by
  fun_cases State.writeHeadurg <;> grind [State.reject_mem, State.updateUrgency_mem, State.setCtlF_mem]
@[simp] theorem State.writePlcmap_mem (s : State) (i : Nat) (v : DWord) : (s.writePlcmap i v).mem = s.mem := by
  fun_cases State.writePlcmap <;> rfl
@[simp] theorem State.writeDspctl_mem (s : State) (v : DWord) : (s.writeDspctl v).mem = s.mem := by
  fun_cases State.writeDspctl <;> grind [State.reject_mem, State.setCtlF_mem, State.w1c_mem]
@[simp] theorem State.writeHlq_mem (s : State) (p dw : Nat) (v : DWord) : (s.writeHlq p dw v).mem = s.mem := by
  fun_cases State.writeHlq <;> grind [State.reject_mem, State.setCtl_mem, State.setCtlF_mem]
@[simp] theorem State.ownStep_mem (s : State) : s.ownStep.mem = s.mem := by
  fun_cases State.ownStep <;> grind [State.setCtlF_mem, State.wantHost_mem, State.wantAcc_mem]
@[simp] theorem State.writeOwncmd_mem (s : State) (v : DWord) : (s.writeOwncmd v).mem = s.mem := by
  fun_cases State.writeOwncmd <;> grind [State.reject_mem, State.ownStep_mem, State.setCtl_mem]
@[simp] theorem State.dropLine_mem (s : State) (keep : Nat → Bool) : (s.dropLine keep).mem = s.mem :=
  State.landCasts_mem _ _
@[simp] theorem State.recallRange_mem (s : State) (base len : Nat) : (s.recallRange base len).mem = s.mem := rfl
@[simp] theorem State.setMigState_mem (s : State) (k st : Nat) : (s.setMigState k st).mem = s.mem :=
  State.setCtlF_mem _ _ _ _ _
@[simp] theorem State.dropHeld_mem (s : State) (h : Nat × Nat) : (s.dropHeld h).mem = s.mem := rfl
theorem State.hostWrite_wf (s : State) (line : Nat) (data : Line) (h : s.mem.wf = true) : (s.hostWrite line data).mem.wf = true :=
  State.homeWrite_wf _ _ _ _ h
theorem State.tryHeldStore_wf (s : State) (c : Nat) (t : Store) (h : s.mem.wf = true) : (s.tryHeldStore c t).mem.wf = true := by
  fun_cases State.tryHeldStore <;> grind [State.devReady_mem, State.refuseWrite_mem, State.dropHeld_mem, State.perform_wf,
      State.purgeLine_mem, State.throughSlice_mem]
theorem State.tryHeldHost_wf (s : State) (agent n line : Nat) (data : Line) (h : s.mem.wf = true) :
    (s.tryHeldHost agent n line data).mem.wf = true := by
  fun_cases State.tryHeldHost <;> grind [State.recallLine_mem, State.wantHost_mem, State.dropHeld_mem, State.hostWrite_wf,
      State.throughSlice_mem]
theorem State.tryHeld_wf (s : State) (x : Nat × Nat) (h : s.mem.wf = true) : (s.tryHeld x).mem.wf = true := by
  unfold State.tryHeld
  split
  · simpa
  · refine wf_ite h (wf_ite ?_ ?_)
    · split
      · exact State.tryHeldStore_wf _ _ _ h
      · exact h
    · split
      · exact State.tryHeldHost_wf _ _ _ _ _ h
      · exact h
@[simp] theorem State.retarget_mem (s : State) : s.retarget.mem = s.mem := by
  refine State.foldl_mem _ _ _ fun t h => ?_
  split <;> simp
theorem State.performHeld_wf (s : State) (h : s.mem.wf = true) : s.performHeld.mem.wf = true :=
  State.foldl_wf State.tryHeld _ s State.tryHeld_wf h
theorem State.migCommand_wf (s : State) (k cmd : Nat) (h : s.mem.wf = true) : (s.migCommand k cmd).mem.wf = true := by
  fun_cases State.migCommand <;> grind [State.reject_mem, State.dropCopies_mem, State.landCasts_mem, State.recallRange_mem,
      State.setMigState_mem, State.performHeld_wf, State.retarget_mem, State.dropLine_mem]
theorem State.writeMig_wf (s : State) (k dw : Nat) (v : DWord) (h : s.mem.wf = true) : (s.writeMig k dw v).mem.wf = true := by
  fun_cases State.writeMig <;> grind [State.setCtl_mem, State.setCtlF_mem, State.reject_mem, State.migCommand_wf]
@[simp] theorem State.writeReclaim_mem (s : State) (v : DWord) : (s.writeReclaim v).mem = s.mem := by
  fun_cases State.writeReclaim <;> grind [State.reject_mem, State.setCtl_mem]
@[simp] theorem State.writePfring_mem (s : State) (p dw : Nat) (v : DWord) : (s.writePfring p dw v).mem = s.mem := by
  fun_cases State.writePfring <;> rfl
theorem State.rewalk_wf (s : State) (f : FaultSvc) (h : s.mem.wf = true) : (s.rewalk f).2.mem.wf = true := by
  fun_cases State.rewalk <;> grind [State.dieTranslate_wf]
@[simp] theorem State.modFault_mem (s : State) (id : Nat) (f : FaultSvc → FaultSvc) : (s.modFault id f).mem = s.mem := rfl
theorem State.pfRetry_wf (s : State) (seq : BitVec 32) (h : s.mem.wf = true) : (s.pfRetry seq).mem.wf = true := by
  unfold State.pfRetry
  split
  · simpa
  · refine State.foldl_wf _ _ s (fun t f ht => ?_) h
    have hr := State.rewalk_wf t f ht
    generalize t.rewalk f = r at hr ⊢
    split <;> simpa using hr
@[simp] theorem State.pfFail_mem (s : State) (seq : BitVec 32) : (s.pfFail seq).mem = s.mem := by
  unfold State.pfFail
  split
  · simp
  · exact State.foldl_mem _ _ s fun t f => State.modFault_mem t f.id _
theorem State.writePfresp_wf (s : State) (v : DWord) (h : s.mem.wf = true) : (s.writePfresp v).mem.wf = true := by
  fun_cases State.writePfresp <;> grind [State.pfRetry_wf, State.pfFail_mem, State.reject_mem]
@[simp] theorem State.endGens_mem (s : State) (mine : Nat → Bool) : (s.endGens mine).mem = s.mem := rfl
theorem State.freeSpilled_wf (p : Nat) (l : List Spilled) (s : State) (h : s.mem.wf = true) :
    (l.foldl (fun s x => s.freeFrame p (coreDie x.core) x.frame) s).mem.wf = true := by
  induction l generalizing s with
  | nil => exact h
  | cons x l ih =>
    rw [List.foldl_cons]
    exact ih _ (State.freeFrame_wf s p (coreDie x.core) x.frame h)
theorem State.killPartition_wf (s : State) (p : Nat) (h : s.mem.wf = true) : (s.killPartition p).mem.wf = true := by
  unfold State.killPartition
  extract_lets s1 s2 mine s3 working s4 s5 homes sched s6 evict cores s7 s8 s9
  have h2 : s2.mem.wf = true := State.foldl_wf _ _ s1 (fun t x ht => by
    rw [State.killCtx_mem]
    exact State.freeSpillFrame_wf _ _ _ _ ht) (by simpa [s1])
  have h3 : s3.mem.wf = true := State.freeSpilled_wf p _ s2 h2
  clear_value s3 s2 s1
  have h4 : s4.mem = s3.mem := State.foldl_mem _ _ s3 fun t e => by
    split
    · split <;> simp
    · rfl
  have h5 : s5.mem = s4.mem := State.endGens_mem _ _
  clear_value s4
  have h6 : s6.mem = s5.mem := rfl
  clear_value s5
  have h7 : s7.mem = s6.mem := rfl
  clear_value s6
  have h8 : s8.mem = s7.mem := (State.foldl_mem _ evict _ fun t (e : Nat × Nat) => State.send_mem t e.1 e.2 .evicted).trans
    (State.foldl_mem State.sweep _ s7 State.sweep_mem)
  clear_value s8
  rw [State.lapse_mem, State.setCtlF_mem, State.setCtlF_mem, h8, h7, h6, h5, h4]
  exact h3
theorem State.writePkill_wf (s : State) (mask : BitVec 8) (h : s.mem.wf = true) : (s.writePkill mask).mem.wf = true := by
  unfold State.writePkill
  split
  · simpa
  · refine State.foldl_wf _ _ s (fun t p ht => ?_) h
    exact wf_ite (State.killPartition_wf t p ht) ht
@[simp] theorem State.startKeys_mem (s : State) (p : Nat) : (s.startKeys p).mem = s.mem := rfl
@[simp] theorem State.writePctl_mem (s : State) (p : Nat) (v : DWord) : (s.writePctl p v).mem = s.mem := by
  fun_cases State.writePctl <;> grind [State.startKeys_mem, State.reject_mem, State.setCtlF_mem]
@[simp] theorem State.writePart_mem (s : State) (p off : Nat) (v : DWord) : (s.writePart p off v).mem = s.mem := by
  fun_cases State.writePart <;> rfl
@[simp] theorem State.writeSvcRing_mem (s : State) (die ring dw : Nat) (v : DWord) : (s.writeSvcRing die ring dw v).mem = s.mem := by
  fun_cases State.writeSvcRing <;> rfl
@[simp] theorem State.regReady_mem (s : State) (a : Agent) (off : Nat) (v : DWord) : (s.regReady a off v).2.mem = s.mem := by
  fun_cases State.regReady <;> grind [State.allReady_mem]
@[simp] theorem State.writeSvcresp_mem (s : State) (die : Nat) (v : DWord) : (s.writeSvcresp die v).mem = s.mem := by
  fun_cases State.writeSvcresp <;> grind [State.reject_mem, State.completeBatch_mem]
@[simp] theorem State.setCtl256_mem (s : State) (off v : Nat) : (s.setCtl256 off v).mem = s.mem := rfl
@[simp] theorem State.extendMeas_mem (s : State) (die i digest : Nat) : (s.extendMeas die i digest).mem = s.mem :=
  State.setCtl256_mem _ _ _
@[simp] theorem State.writeMextgo_mem (s : State) (die : Nat) (v : DWord) : (s.writeMextgo die v).mem = s.mem := by
  fun_cases State.writeMextgo <;> grind [State.extendMeas_mem]
theorem State.regWrite_wf (s : State) (off : Nat) (v : DWord) (h : s.mem.wf = true) : (s.regWrite off v).mem.wf = true := by
  unfold State.regWrite
  grind [State.writeClprof_mem, State.writeLend_mem, State.writePmctl_mem, State.writeQos_mem, State.writeHeadurg_mem, State.w1c_mem,
      State.writePlcmap_mem, State.writeDspctl_mem, State.writeHlq_mem, State.setCtl_mem, State.writeOwncmd_mem, State.writeMig_wf,
      State.writeReclaim_mem, State.writePkill_wf, State.writePfresp_wf, State.writePfring_mem, State.writePctl_mem,
      State.writePart_mem, State.writeSvcRing_mem, State.writeSvcresp_mem, State.writeMextgo_mem]
theorem State.devRegWrite_wf (s : State) (w : Who) (off : Nat) (v : DWord) (h : s.mem.wf = true) :
    (s.devRegWrite w off v).mem.wf = true := by
  fun_cases State.devRegWrite <;> grind [State.regWrite_wf]

/-! ### Steps of the homes -/

@[simp] theorem State.accessError_mem (s : State) (w : Who) (cause sub : Nat) (va : DWord) :
    (s.accessError w cause sub va).mem = s.mem := by
  fun_cases State.accessError <;> grind [State.asyncTrap_mem]
@[simp] theorem State.capture_mem (s : State) (c id : Nat) (data : Line) (err : Nat) : (s.capture c id data err).mem = s.mem := rfl
@[simp] theorem State.answered_mem (s : State) (c : Nat) (l : Load) (data : Line) (err : Nat) : (s.answered c l data err).mem = s.mem :=
  State.served_mem _ _ _
@[simp] theorem State.readAllowed_mem (s : State) (c : Nat) (l : Load) : (s.readAllowed c l).2.mem = s.mem := by
  fun_cases State.readAllowed <;> grind [State.devReady_mem]
@[simp] theorem State.homeReadOf_mem (s : State) (c : Nat) (l : Load) : (s.homeReadOf c l).mem = s.mem := by
  fun_cases State.homeReadOf <;> grind [State.capture_mem, State.readAllowed_mem, State.regulate_mem, State.answered_mem]
theorem execHomeRead_wf {core id : Nat} {s : State} (h : s.mem.wf = true) : AnswerWf (execHomeRead core id s) := by
  refine answerWf_next.mpr ?_
  split
  · exact h
  · split <;> simpa
@[simp] theorem State.setAcks_mem (s : State) (c id : Nat) (a : Option (List Nat)) : (s.setAcks c id a).mem = s.mem := rfl
theorem State.finishWrite_wf (s : State) (c : Nat) (t : Store) (h : s.mem.wf = true) : (s.finishWrite c t).mem.wf = true := by
  fun_cases State.finishWrite <;> grind [State.setAcks_mem, State.perform_wf, State.served_mem, State.refuseWrite_mem]
@[simp] theorem State.writeAllowed_mem (s : State) (c : Nat) (t : Store) : (s.writeAllowed c t).2.mem = s.mem := by
  fun_cases State.writeAllowed <;> grind [State.devReady_mem]
/-- How a write at its home ends, for any property of the end: see `State.tryFrame_ends`. -/
theorem State.homeWriteOf_ends {P : State → Prop} (s : State) (c : Nat) (t : Store) (h : s.mem.wf = true)
    (hP : ∀ u, u.mem.wf = true → P u) : P (s.homeWriteOf c t) := by
  generalize hf : State.homeWriteOf = f
  delta State.homeWriteOf at hf
  subst hf
  beta_reduce
  have hr : ∀ a off v, (s.regReady a off v).2.mem.wf = true := fun a off v => by simpa
  obtain ⟨ready, hready⟩ : ∃ f, f = State.regReady := ⟨_, rfl⟩
  have hw : (s.writeAllowed c t).2.mem.wf = true := by simpa
  obtain ⟨allowed, hallowed⟩ : ∃ r, r = s.writeAllowed c t := ⟨_, rfl⟩
  rw [← hready] at hr ⊢
  rw [← hallowed] at hw ⊢
  dsimp only
  split
  · split
    · next n data _ =>
      specialize hr (.access c t.id) (t.pa - ctlBase) (BitVec.ofNat 64 data)
      generalize ready s (.access c t.id) (t.pa - ctlBase) (BitVec.ofNat 64 data) = q at hr ⊢
      split
      · exact hP _ (State.devRegWrite_wf _ _ _ _ (by simpa))
      · exact hP _ hr
    · exact hP _ h
  · split
    · exact hP _ hw
    · next u =>
      refine hP _ (wf_ite (by simpa) ?_)
      have hg : (u.regulate (.access c t.id) (regulatorOf t.who t.part) t.pa).2.mem.wf = true := by simpa
      generalize u.regulate (.access c t.id) (regulatorOf t.who t.part) t.pa = q at hg ⊢
      split
      · exact hg
      · next v =>
        generalize (if v.takesLine t = true then v.castTargets c t.pa else []) = targets
        split
        · exact State.finishWrite_wf _ _ _ hg
        · rw [State.foldl_mem _ _ _ fun v k => State.send_mem v k _ _]
          simpa
theorem State.homeWriteOf_wf (s : State) (c : Nat) (t : Store) (h : s.mem.wf = true) : (s.homeWriteOf c t).mem.wf = true :=
  State.homeWriteOf_ends (P := fun u => u.mem.wf = true) s c t h fun _ h => h
theorem execHomeWrite_wf {core id : Nat} {s : State} (h : s.mem.wf = true) : AnswerWf (execHomeWrite core id s) := by
  unfold execHomeWrite
  grind [answerWf_next, State.finishWrite_wf, State.homeWriteOf_wf, State.tryHeld_wf]
@[simp] theorem State.returned_mem (s : State) (w : Who) (acquire wide : Bool) : (s.returned w acquire wide).mem = s.mem := by
  fun_cases State.returned <;> grind [State.modStrand_mem, State.dropDemand_mem]
@[simp] theorem State.returnLoad_mem (s : State) (c : Nat) (l : Load) (data : Line) (uncorrectable : Bool) :
    (s.returnLoad c l data uncorrectable).mem = s.mem := by
  fun_cases State.returnLoad <;> grind [State.modCore_mem, State.accessError_mem, State.setDest_mem, State.returned_mem,
      State.loseDemand_mem, State.fillL1_mem]
@[simp] theorem State.returnAtomic_mem (s : State) (c : Nat) (t : Store) (uncorrectable : Bool) :
    (s.returnAtomic c t uncorrectable).mem = s.mem := by
  fun_cases State.returnAtomic <;> grind [State.dropStore_mem, State.accessError_mem, State.setDest_mem, State.returned_mem]
theorem execLoadReturn_wf {core id : Nat} {uncorrectable : Bool} {s : State} (h : s.mem.wf = true) :
    AnswerWf (execLoadReturn core id uncorrectable s) := by
  unfold execLoadReturn
  grind [answerWf_next, State.returnAtomic_mem, State.returnLoad_mem]
theorem execInvalidationArrive_wf {msg : Nat} {s : State} (h : s.mem.wf = true) : AnswerWf (execInvalidationArrive msg s) := by
  refine answerWf_next.mpr ?_
  split <;> simpa
theorem execInvalidationAck_wf {msg : Nat} {s : State} (h : s.mem.wf = true) : AnswerWf (execInvalidationAck msg s) := by
  unfold execInvalidationAck
  grind [answerWf_next, State.dropMsg_mem, State.finishWrite_wf, State.modCast_mem, State.setAcks_mem]
theorem execCastArrive_wf {msg : Nat} {s : State} (h : s.mem.wf = true) : AnswerWf (execCastArrive msg s) := by
  refine answerWf_next.mpr ?_
  split <;> simpa
@[simp] theorem State.castReplied_mem (s : State) (stc core refused : Nat) : (s.castReplied stc core refused).mem = s.mem := by
  simp [State.castReplied]
theorem execCastInstalledReply_wf {msg : Nat} {s : State} (h : s.mem.wf = true) : AnswerWf (execCastInstalledReply msg s) := by
  refine answerWf_next.mpr ?_
  split <;> simpa
theorem execCastRefusedReply_wf {msg : Nat} {s : State} (h : s.mem.wf = true) : AnswerWf (execCastRefusedReply msg s) := by
  refine answerWf_next.mpr ?_
  split <;> simpa
theorem execEvictionReport_wf {msg : Nat} {s : State} (h : s.mem.wf = true) : AnswerWf (execEvictionReport msg s) := by
  refine answerWf_next.mpr ?_
  split <;> simpa
theorem execStcCompletion_wf {msg : Nat} {s : State} (h : s.mem.wf = true) : AnswerWf (execStcCompletion msg s) := by
  unfold execStcCompletion
  grind [answerWf_next, State.dropMsg_mem, State.modStrand_mem]
theorem execGaugeRateWindow_wf {core : Nat} {s : State} (h : s.mem.wf = true) : AnswerWf (execGaugeRateWindow core s) :=
  answerWf_next.mpr (wf_ite (by simpa) h)
@[simp] theorem State.takeZ_mem (s : State) (n : Gen) : (s.takeZ n).mem = s.mem := rfl
@[simp] theorem State.letBatch_mem (s : State) (n : Gen) : (s.letBatch n).mem = s.mem := by
  fun_cases State.letBatch <;> rfl
theorem execGbarBatchAdmit_wf {gen : Nat} {s : State} (h : s.mem.wf = true) : AnswerWf (execGbarBatchAdmit gen s) := by
  unfold execGbarBatchAdmit
  grind [answerWf_next, State.letBatch_mem, State.takeZ_mem]

/-! ### Accesses of the dispatchers -/

@[simp] theorem State.accessLost_mem (s : State) (w : DispWait) (cause : Nat) (va : DWord) : (s.accessLost w cause va).mem = s.mem := by
  simp [State.accessLost]
theorem State.attempt_wf (s : State) (a : Agent) (w : DispWait) (h : s.mem.wf = true) : (s.attempt a w).2.mem.wf = true := by
  fun_cases State.attempt <;> grind [State.dieTranslate_wf, State.accReady_mem, State.served_mem, State.ask_mem]
theorem State.attemptAlone_wf (s : State) (w : DispWait) (h : s.mem.wf = true) : (s.attemptAlone w).2.mem.wf = true := by
  fun_cases State.attemptAlone <;> grind [State.attempt_wf, State.noAsks_mem, State.settle_mem]
theorem State.applyWait_wf (s : State) (w : DispWait) (pa : Nat) (h : s.mem.wf = true) : (s.applyWait w pa).mem.wf = true := by
  fun_cases State.applyWait <;> grind [State.homeWrite_wf, State.decJoin_wf]
theorem State.makeOrList_wf (s : State) (w : DispWait) {f : Nat → State → State} {lost : State → State} (hf : ∀ pa, KeepsWf (f pa))
    (hl : KeepsWf lost) (h : s.mem.wf = true) : (s.makeOrList w f lost).2.mem.wf = true := by
  unfold State.makeOrList
  have hn := State.numbered_mem s w
  generalize s.numbered w = r at hn ⊢
  obtain ⟨w, t⟩ := r
  have ha := State.attemptAlone_wf t w (by rwa [hn])
  dsimp only
  generalize t.attemptAlone w = q at ha ⊢
  split
  · exact hf _ _ (by simpa using ha)
  · exact hl _ (by simpa using ha)
  · simpa using ha
  · simpa using ha
theorem State.writeOrList_wf (s : State) (w : DispWait) (h : s.mem.wf = true) : (s.writeOrList w).2.mem.wf = true :=
  State.makeOrList_wf s w (fun pa t ht => State.applyWait_wf t w pa ht) keepsWf_id h
theorem State.decrement_wf (s : State) (die slot part kind : Nat) (user : Bool) (va : DWord) (h : s.mem.wf = true) :
    (s.decrement die slot part kind user va).2.mem.wf = true := by
  unfold State.decrement
  split
  · exact h
  · exact State.writeOrList_wf _ _ h
@[simp] theorem State.freeSlot_mem (s : State) (slot : Nat) : (s.freeSlot slot).mem = s.mem := by
  fun_cases State.freeSlot <;> rfl
theorem State.endSucc_wf (s : State) (slot : Nat) (l : Launch) (h : s.mem.wf = true) : (s.endSucc slot l).mem.wf = true := by
  fun_cases State.endSucc <;> grind [State.decrement_wf, State.freeSlot_mem]
theorem State.endLaunch_wf (s : State) (slot : Nat) (l : Launch) (h : s.mem.wf = true) : (s.endLaunch slot l).mem.wf = true := by
  fun_cases State.endLaunch <;> grind [State.endSucc_wf, State.writeOrList_wf]
theorem execLaunchComplete_wf {slot : Nat} {s : State} (h : s.mem.wf = true) : AnswerWf (execLaunchComplete slot s) := by
  unfold execLaunchComplete
  grind [answerWf_next, State.endLaunch_wf]
theorem State.readSucc_wf (s : State) (w : DispWait) (h : s.mem.wf = true) : (s.readSucc w).mem.wf = true :=
  State.makeOrList_wf s w (fun _ t ht => State.decrement_wf t _ _ _ _ _ _ ht) keepsWf_id h
theorem State.yieldSucc_wf (s : State) (die slot part : Nat) (user : Bool) (record : DWord) (h : s.mem.wf = true) :
    (s.yieldSucc die slot part user record).mem.wf = true :=
  State.readSucc_wf _ _ h
theorem State.yieldTask_wf (s : State) (c k : Nat) (t : Task) (h : s.mem.wf = true) : (s.yieldTask c k t).mem.wf = true := by
  unfold State.yieldTask
  grind [State.modLaunch_mem, State.yieldSucc_wf, State.freeCtx_mem]
theorem execTaskYield_wf {core ctx : Nat} {s : State} (h : s.mem.wf = true) : AnswerWf (execTaskYield core ctx s) := by
  unfold execTaskYield
  grind [answerWf_next, State.yieldTask_wf]

/-! ### Placing a task -/

/-- How the count of free frames ends, for any property of the end: see `State.tryFrame_ends`. -/
theorem State.freeFrames_ends {P : Option Nat × State → Prop} (s : State) (a : Agent) (die n : Nat) (js : List Nat)
    (h : s.mem.wf = true) (hP : ∀ x t, t.mem.wf = true → P (x, t)) : P (s.freeFrames a die n js) := by
  generalize hf : State.freeFrames = f
  delta State.freeFrames at hf
  subst hf
  beta_reduce
  refine brecOn_ends (P := fun g : Nat → Option Nat × State => ∀ n, P (g n)) (R := fun s => s.mem.wf = true)
    (fun b s h n => ?_) (fun j l b s h ih n => ?_) js s h n
  · exact hP _ _ h
  · generalize hf : State.freeFrames._f = f
    delta State.freeFrames._f at hf
    subst hf
    beta_reduce
    have hs := fun j => State.frameSpan_wf s a die j 0 1 h
    obtain ⟨span, hspan⟩ : ∃ f, f = State.frameSpan s a die := ⟨_, rfl⟩
    rw [← hspan] at hs ⊢
    dsimp only
    specialize hs j
    generalize span j 0 1 = r at hs ⊢
    split
    · exact hP _ _ h
    · split
      · exact hP _ _ hs
      · exact ih _ hs _
      · exact ih _ hs _
theorem State.freeFrames_wf (s : State) (a : Agent) (die n : Nat) (js : List Nat) (h : s.mem.wf = true) :
    (s.freeFrames a die n js).2.mem.wf = true :=
  State.freeFrames_ends (P := fun r => r.2.mem.wf = true) s a die n js h fun _ _ h => h

/-! ### Steps of the dispatchers -/

@[simp] theorem State.modDisp_mem (s : State) (die : Nat) (f : Disp → Disp) : (s.modDisp die f).mem = s.mem := rfl
@[simp] theorem State.modRecs_mem (s : State) (f : List Rec → List Rec) : (s.modRecs f).mem = s.mem := rfl
@[simp] theorem State.dropRec_mem (s : State) (key : Nat) : (s.dropRec key).mem = s.mem :=
  State.lapse_mem _
@[simp] theorem State.recWaits_mem (s : State) (key : Nat) (b : Bool) : (s.recWaits key b).mem = s.mem :=
  State.lapse_mem _
@[simp] theorem State.tidyRequests_mem (s : State) (die : Nat) : (s.tidyRequests die).mem = s.mem := rfl
@[simp] theorem State.requestPreempt_mem (s : State) (die key c : Nat) (members : List Nat) :
    (s.requestPreempt die key c members).mem = s.mem := by
  rw [State.requestPreempt, State.modDisp_mem]
  exact State.foldl_mem _ members s fun t k => State.modCtx_mem t c k _
@[simp] theorem State.loseAccess_mem (s : State) (w : DispWait) (cause : Nat) (va : DWord) : (s.loseAccess w cause va).mem = s.mem := by
  fun_cases State.loseAccess <;> grind [State.accessLost_mem, State.recWaits_mem, State.modRecs_mem, State.modLaunch_mem,
      State.dropRec_mem]
theorem State.attemptAll_wf (s : State) (a : Agent) (l : List DispWait) (h : s.mem.wf = true) : (s.attemptAll a l).2.mem.wf = true := by
  fun_induction State.attemptAll <;> grind [State.attempt_wf]
@[simp] theorem State.startTask_mem (s : State) (die : Nat) (r : Rec) (c k lctx bits : Nat) :
    (s.startTask die r c k lctx bits).mem = s.mem := by
  simp [State.startTask]
@[simp] theorem State.dispatchWaits_mem (s : State) (w : DispWait) (r : Attempt) : (s.dispatchWaits w r).2.mem = s.mem := by
  fun_cases State.dispatchWaits <;> grind [State.recWaits_mem, State.listFault_mem, State.loseAccess_mem]
theorem State.startRec_wf (s : State) (die : Nat) (r : Rec) (l : Launch) (c k lctx bits : Nat) (writes : List (DispWait × Nat))
    (window : List Nat) (h : s.mem.wf = true) : (s.startRec die r l c k lctx bits writes window).mem.wf = true := by
  have hw := State.foldl_wf (fun s x => s.applyWait x.1 x.2) writes s (fun t x ht => State.applyWait_wf t x.1 x.2 ht) h
  rw [State.startRec, State.startTask_mem, State.establish_mem]
  exact wf_ite (by simpa) hw
/-- How the dispatch of a record ends, for any property of the end: see `State.tryFrame_ends`. -/
theorem State.dispatchRec_ends {P : Bool × State → Prop} (s : State) (die : Nat) (r : Rec) (l : Launch) (c : Nat) (h : s.mem.wf = true)
    (hP : ∀ q : Bool × State, q.2.mem.wf = true → P q) : P (s.dispatchRec die r l c) := by
  generalize hf : State.dispatchRec = f
  delta State.dispatchRec at hf
  subst hf
  beta_reduce
  have hw := fun a saved => State.windowLines_wf s a l saved h
  obtain ⟨lines, hlines⟩ : ∃ f, f = State.windowLines s := ⟨_, rfl⟩
  obtain ⟨attempt, hattempt⟩ : ∃ f, f = State.attempt := ⟨_, rfl⟩
  obtain ⟨attemptAll, hattemptAll⟩ : ∃ f, f = State.attemptAll := ⟨_, rfl⟩
  rw [← hlines] at hw ⊢
  rw [← hattempt, ← hattemptAll]
  split
  · next k lctx _ _ =>
    dsimp only
    generalize s.windowFrame c r.slot none = saved
    specialize hw (.dispatch die r.key) saved
    generalize lines (.dispatch die r.key) l saved = q at hw ⊢
    split
    · exact hP _ hw
    · refine hP _ ?_
      split
      · rw [State.lapse_mem]
        exact State.frameFault_wf _ _ _ _ _ hw
      · exact hw
    · next window t =>
      generalize ({ id := 0, die, slot := r.slot, part := l.part, va := r.addr, write := false, kind := 0, user := !l.priv, key := r.key } :
        DispWait) = w
      have ha := hattempt ▸ State.attempt_wf t (.dispatch die r.key) w hw
      generalize attempt t (.dispatch die r.key) w = q at ha ⊢
      split
      · next pa u =>
        generalize (if u.lateBy (recDl (u.homeRead pa 64)).toNat = true then u.lateWrites die r l c k else []) = ws
        have hb := hattemptAll ▸ State.attemptAll_wf u (.dispatch die r.key) ws ha
        generalize attemptAll u (.dispatch die r.key) ws = q at hb ⊢
        split
        · exact hP _ ((State.dispatchWaits_mem ..).symm ▸ hb)
        · next v =>
          have hv := State.settle_mem v (.dispatch die r.key)
          generalize v.settle (.dispatch die r.key) = q at hv ⊢
          split
          · exact hP _ (hv ▸ hb)
          · exact hP _ (State.startRec_wf _ _ _ _ _ _ _ _ _ _ (hv ▸ hb))
      · exact hP _ ((State.dispatchWaits_mem ..).symm ▸ ha)
  · exact hP _ h
theorem State.dispatchRec_wf (s : State) (die : Nat) (r : Rec) (l : Launch) (c : Nat) (h : s.mem.wf = true) :
    (s.dispatchRec die r l c).2.mem.wf = true :=
  State.dispatchRec_ends (P := fun q => q.2.mem.wf = true) s die r l c h fun _ h => h
theorem State.dispatchSpilled_wf (s : State) (die : Nat) (sp : Spilled) (h : s.mem.wf = true) :
    (s.dispatchSpilled die sp).2.mem.wf = true := by
  fun_cases State.dispatchSpilled <;> grind [State.resume_wf, State.startClock_mem, State.lapse_mem, State.frameFault_wf]
theorem State.dispatchItem_wf (s : State) (die : Nat) (x : Item) (l : Launch) (c : Nat) (h : s.mem.wf = true) :
    (s.dispatchItem die x l c).2.mem.wf = true := by
  fun_cases State.dispatchItem <;> grind [State.dropAgents_mem, State.dispatchRec_wf, State.dispatchSpilled_wf]
theorem State.askRoom_wf (s : State) (die : Nat) (x : Item) (l : Launch) (h : s.mem.wf = true) : (s.askRoom die x l).2.mem.wf = true := by
  fun_cases State.askRoom <;> grind [State.freeFrames_wf, State.requestPreempt_mem]
theorem State.tryRest_wf (s : State) (die : Nat) (l : List Item) (h : s.mem.wf = true) : (s.tryRest die l).2.mem.wf = true := by
  fun_induction State.tryRest <;> grind [State.dispatchItem_wf]
theorem State.tryItems_wf (s : State) (die : Nat) (l : List Item) (h : s.mem.wf = true) : (s.tryItems die l).2.mem.wf = true := by
  fun_cases State.tryItems <;> grind [State.tryRest_wf, State.dispatchItem_wf, State.askRoom_wf]
@[simp] theorem State.dropClaims_mem (s : State) (die : Nat) (held : List Nat) : (s.dropClaims die held).mem = s.mem := rfl
@[simp] theorem State.orderReady_mem (s : State) (die : Nat) : (s.orderReady die).2.mem = s.mem := by
  fun_cases State.orderReady <;> grind [State.allReady_mem, State.dropAgents_mem]
@[simp] theorem State.losePoisoned_mem (s : State) (die : Nat) : (s.losePoisoned die).mem = s.mem := by
  refine State.foldl_mem _ _ s fun t r => ?_
  split
  · rfl
  · exact State.loseAccess_mem _ _ _ _
theorem execDispatchStep_wf {die : Nat} {s : State} (h : s.mem.wf = true) : AnswerWf (execDispatchStep die s) := by
  unfold execDispatchStep
  grind [answerWf_next, State.dropAgents_mem, State.dropClaims_mem, State.losePoisoned_mem, State.noAsks_mem, State.orderReady_mem,
      State.retryFreeing_wf, State.tidyRequests_mem, State.tryItems_wf, keepMarks_mem]
@[simp] theorem State.registerEntry_mem (s : State) (slot : Nat) (l : Launch) (die pa : Nat) :
    (s.registerEntry slot l die pa).mem = s.mem := by
  unfold State.registerEntry
  dsimp only
  split
  · exact State.foldl_mem _ _ s fun t c => State.register_mem _ _ _ _ _ _ _ _ _
  · exact State.register_mem _ _ _ _ _ _ _ _ _
@[simp] theorem State.slotWaits_mem (s : State) (slot : Nat) (b : Bool) : (s.slotWaits slot b).mem = s.mem :=
  State.lapse_mem _
theorem State.acceptLaunch_wf (s : State) (die slot bits : Nat) (origin : Nat × Nat) (pa : Nat) (h : s.mem.wf = true) :
    (s.acceptLaunch die slot bits origin pa).mem.wf = true := by
  fun_cases State.acceptLaunch <;> grind [State.next_mem, State.writeOrList_wf, State.setLaunch_mem, State.modDisp_mem,
      State.registerEntry_mem, State.slotWaits_mem]
theorem State.refuseLaunch_wf (s : State) (die bits : Nat) (src : DWord) (reason : Nat) (h : s.mem.wf = true) :
    (s.refuseLaunch die bits src reason).mem.wf = true := by
  fun_cases State.refuseLaunch <;> grind [State.signalService_mem, State.addLog_mem, State.writeOrList_wf, State.decrement_wf]
@[simp] theorem State.placeReady_mem (s : State) (a : Agent) (l : Launch) (entry : EntryRead) :
    (s.placeReady a l entry).2.mem = s.mem := by
  fun_cases State.placeReady <;> grind [State.allReady_mem]
@[simp] theorem State.entryLost_mem (s : State) (die bits : Nat) (entry : EntryRead) : (s.entryLost die bits entry).mem = s.mem := by
  fun_cases State.entryLost <;> grind [State.signalService_mem, State.addLog_mem]
theorem State.acceptDevice_wf (s : State) (a : Agent) (die bits : Nat) (user : Bool) (src : DWord) (h : s.mem.wf = true) :
    (s.acceptDevice a die bits user src).2.mem.wf = true := by
  fun_cases State.acceptDevice <;> grind [State.entryRecord_wf, State.placeReady_mem, State.unqueue_mem, State.settle_mem,
      State.acceptLaunch_wf, State.refuseLaunch_wf, State.entryLost_mem]
@[simp] theorem State.takeOverflow_mem (s : State) (left : Bool) (slot : Nat) (l : Launch) :
    (s.takeOverflow left slot l).mem = s.mem := by
  fun_cases State.takeOverflow <;> rfl
theorem State.acceptOverflow_wf (s : State) (a : Agent) (die : Nat) (left : Bool) (slot : Nat) (l : Launch) (src : DWord)
    (h : s.mem.wf = true) : (s.acceptOverflow a die left slot l src).2.mem.wf = true := by
  fun_cases State.acceptOverflow <;> grind [State.attemptAll_wf, State.acceptDevice_wf, State.takeOverflow_mem, State.accessLost_mem]
theorem State.takeHost_wf (s : State) (die p pa : Nat) (a : DWord) (reason : Nat) (h : s.mem.wf = true) :
    (s.takeHost die p pa a reason).mem.wf = true := by
  unfold State.takeHost
  grind [State.homeWrite_wf, State.modDisp_mem, State.setCtlF_mem]
theorem State.headTaken_wf (s : State) (a : Agent) {f : State → State} (hf : KeepsWf f) (h : s.mem.wf = true) :
    (s.headTaken a f).2.mem.wf = true := by
  unfold State.headTaken
  have hs := State.settle_mem s a
  generalize s.settle a = r at hs ⊢
  split
  · exact hf _ (by rwa [hs])
  · rwa [hs]
theorem State.acceptHost_wf (s : State) (ag : Agent) (die p pa bits : Nat) (a : DWord) (h : s.mem.wf = true) :
    (s.acceptHost ag die p pa bits a).2.mem.wf = true := by
  unfold State.acceptHost
  dsimp only
  split
  · exact h
  · have he := State.entryRecord_wf s ag die p (p != 0) bits h
    generalize s.entryRecord ag die p (p != 0) bits = q at he ⊢
    split
    · exact he
    · next entry t _ =>
      split
      · exact State.headTaken_wf t ag (fun u hu => State.takeHost_wf _ _ _ _ _ _ (by simpa)) he
      · have hp : (t.placeReady ag (launchOfBits bits) entry).2.mem.wf = true := by simpa
        generalize t.placeReady ag (launchOfBits bits) entry = q at hp ⊢
        split
        · exact hp
        · split
          · exact State.headTaken_wf _ ag (fun u hu => State.takeHost_wf _ _ _ _ _ _ hu) hp
          · exact State.headTaken_wf _ ag (fun u hu => State.acceptLaunch_wf _ _ _ _ _ _ (State.takeHost_wf _ _ _ _ _ _ hu)) hp
          · simpa using hp
theorem State.tryHost_wf (s : State) (ag : Agent) (die p : Nat) (h : s.mem.wf = true) : (s.tryHost ag die p).2.mem.wf = true := by
  unfold State.tryHost
  split
  · exact h
  · next pa a _ =>
    have hr : (s.accReady ag true pa).2.mem.wf = true := by simpa
    generalize s.accReady ag true pa = q at hr ⊢
    split
    · exact hr
    · next t =>
      have hf : ∀ u : State, u.mem.wf = true →
          (if die = 0 then u.headTaken ag fun s => s.takeHost die p pa a 12 else (.passed, u)).2.mem.wf = true := by
        intro u hu
        split
        · exact State.headTaken_wf u ag (fun v hv => State.takeHost_wf _ _ _ _ _ _ hv) hu
        · exact hu
      dsimp only
      have hd := State.dieTranslate_wf (t.served (regionOf (t.forward pa)) ag) ag die p (p != 0) .read a (by simpa)
      generalize (t.served (regionOf (t.forward pa)) ag).dieTranslate ag die p (p != 0) .read a = q at hd ⊢
      split
      · exact hf _ (by simpa)
      · split
        · exact hf _ hd
        · exact hd
        · next rpa _ u =>
          have ha : (u.allReady ag false [rpa, rpa + 64]).2.mem.wf = true := by simpa
          generalize u.allReady ag false [rpa, rpa + 64] = q at ha ⊢
          split
          · exact ha
          · split
            · exact hf _ (by simpa)
            · exact State.acceptHost_wf _ _ _ _ _ _ _ (by simpa)
theorem State.tryRings_wf (s : State) (die : Nat) (l : List Nat) (h : s.mem.wf = true) : (s.tryRings die l).2.mem.wf = true := by
  fun_induction State.tryRings <;> grind [State.tryHost_wf, State.dropAgents_mem, State.noAsks_mem]
theorem State.acceptNext_wf (s : State) (die : Nat) (h : s.mem.wf = true) : (s.acceptNext die).2.mem.wf = true := by
  fun_cases State.acceptNext <;> grind [State.acceptDevice_wf, State.dropAgents_mem, State.modDisp_mem, State.modCtx_mem,
      State.acceptOverflow_wf, State.tryRings_wf]
theorem execLaunchAccept_wf {die : Nat} {s : State} (h : s.mem.wf = true) : AnswerWf (execLaunchAccept die s) := by
  unfold execLaunchAccept
  grind [answerWf_next, State.acceptNext_wf, State.dropAgents_mem, State.noAsks_mem, keepMarks_mem]
@[simp] theorem State.ageLists_mem (s : State) (die : Nat) : (s.ageLists die).mem = s.mem := by
  fun_cases State.ageLists <;> rfl
theorem execReadyListAgeing_wf {die : Nat} {s : State} (h : s.mem.wf = true) : AnswerWf (execReadyListAgeing die s) := by
  refine answerWf_next.mpr ?_
  split <;> simpa
theorem execSpill_wf {core ctx : Nat} {s : State} (h : s.mem.wf = true) : AnswerWf (execSpill core ctx s) := by
  unfold execSpill
  grind [answerWf_next, State.beginSpill_wf, State.findFrame_wf, State.forget_mem]
@[simp] theorem State.requestsSpilled_mem (s : State) (c k : Nat) : (s.requestsSpilled c k).mem = s.mem := rfl
theorem State.loseSpill_wf (s : State) (c k cause : Nat) (va : DWord) (h : s.mem.wf = true) :
    (s.loseSpill c k cause va).mem.wf = true := by
  fun_cases State.loseSpill <;> grind [State.killCtx_mem, State.freeSpillFrame_wf]
theorem execSpillComplete_wf {core ctx : Nat} {s : State} (h : s.mem.wf = true) : AnswerWf (execSpillComplete core ctx s) := by
  unfold execSpillComplete
  grind [answerWf_next, State.endSpill_wf, State.listFault_mem, State.loseSpill_wf, State.requestsSpilled_mem]
theorem State.retryWait_wf (s : State) (w : DispWait) (h : s.mem.wf = true) : (s.retryWait w).mem.wf = true := by
  fun_cases State.retryWait <;> grind [State.recWaits_mem, State.dropWait_mem, State.writeOrList_wf, State.slotWaits_mem,
      State.endSucc_wf, State.freeSlot_mem, State.readSucc_wf, State.decrement_wf]
theorem State.loseWait_wf (s : State) (w : DispWait) (cause : Nat) (va : DWord) (h : s.mem.wf = true) :
    (s.loseWait w cause va).mem.wf = true := by
  fun_cases State.loseWait <;> grind [State.killSpilled_mem, State.freeFrame_wf, State.loseSpill_wf, State.loseAccess_mem,
      State.slotWaits_mem, State.endSucc_wf, State.freeSlot_mem, State.decrement_wf]
theorem execDispatcherAccessFault_wf {die id : Nat} {s : State} (h : s.mem.wf = true) :
    AnswerWf (execDispatcherAccessFault die id s) := by
  unfold execDispatcherAccessFault
  grind [answerWf_next, State.dropService_mem, State.dropWait_mem, State.loseWait_wf, State.retryWait_wf]

/-! ### Operations of the engines -/

@[simp] theorem State.completeOp_mem (s : State) (c id : Nat) : (s.completeOp c id).mem = s.mem := by
  fun_cases State.completeOp <;> grind [State.modOp_mem, State.modCore_mem, State.restClock_mem, State.startMatrix_mem,
      State.sweep_mem, State.discardCopies_mem, State.loseDemand_mem, State.modCtx_mem]
@[simp] theorem State.engineError_mem (s : State) (c : Nat) (o : Op) (va : DWord) : (s.engineError c o va).mem = s.mem := by
  fun_cases State.engineError <;> grind [State.addLog_mem, State.asyncTrap_mem]
@[simp] theorem State.engineFault_mem (s : State) (c : Nat) (o : Op) (write : Bool) (cause sub : Nat) (va : DWord) :
    (s.engineFault c o write cause sub va).mem = s.mem := rfl
theorem State.engReach_wf (s : State) (c : Nat) (o : Op) (acc : Access) (va : DWord) (part : Nat := 0) (h : s.mem.wf = true) :
    (s.engReach c o acc va part).2.mem.wf = true := by
  fun_cases State.engReach <;> grind [State.dieTranslate_wf, State.accReady_mem, State.ask_mem, State.served_mem]
theorem State.engRead_wf (s : State) (c : Nat) (o : Op) (va : DWord) (n : Nat) (part : Nat := 0) (h : s.mem.wf = true) :
    (s.engRead c o va n part).2.mem.wf = true := by
  fun_cases State.engRead <;> grind [State.engReach_wf]
theorem State.engReadLines.go_wf (c : Nat) (o : Op) (part : Nat) (s : State) (va : DWord) (x6 x7 : Nat) (h : s.mem.wf = true) :
    (State.engReadLines.go c o part s va x6 x7).2.mem.wf = true := by
  fun_induction State.engReadLines.go <;> grind [State.engRead_wf]
theorem State.engReadLines_wf (s : State) (c : Nat) (o : Op) (va : DWord) (k n part : Nat) (h : s.mem.wf = true) :
    (s.engReadLines c o va k n part).2.mem.wf = true := State.engReadLines.go_wf c o part s va k n h
theorem State.engWrite_wf (s : State) (c : Nat) (o : Op) (va : DWord) (n v : Nat) (part : Nat := 0) (h : s.mem.wf = true) :
    (s.engWrite c o va n v part).2.mem.wf = true := by
  fun_cases State.engWrite <;> grind [State.engReach_wf, State.modOp_mem, State.homeWrite_wf]
theorem State.engWriteLines.go_wf (c : Nat) (o : Op) (part : Nat) (s : State) (va : DWord) (x6 x7 x8 : Nat) (h : s.mem.wf = true) :
    (State.engWriteLines.go c o part s va x6 x7 x8).2.mem.wf = true := by
  fun_induction State.engWriteLines.go <;> grind [State.engWrite_wf]
theorem State.engWriteLines_wf (s : State) (c : Nat) (o : Op) (va : DWord) (k n v part : Nat) (h : s.mem.wf = true) :
    (s.engWriteLines c o va k n v part).2.mem.wf = true := State.engWriteLines.go_wf c o part s va k n v h
@[simp] theorem State.engWaits_mem (s r : State) : (s.engWaits r).mem = s.mem :=
  keepMarks_mem _ _ _
@[simp] theorem State.engBack_mem (s r : State) : (s.engBack r).mem = s.mem :=
  State.engWaits_mem _ _
theorem State.engStep_wf (s : State) (c id : Nat) (r : State) (part : Nat) (h : s.mem.wf = true) (hr : r.mem.wf = true) :
    (s.engStep c id r part).mem.wf = true := by
  unfold State.engStep
  have hs := State.settle_mem r (.op c id part)
  generalize r.settle (.op c id part) = q at hs ⊢
  split
  · refine wf_ite ?_ (hs ▸ hr)
    rw [State.dropAgents_mem]
    exact hs ▸ hr
  · simpa

/-! ### Copies and gathers -/

@[simp] theorem State.abortStatus_mem (s : State) (c : Nat) (o : Op) (code : Nat) (va : DWord) :
    (s.abortStatus c o code va).mem = s.mem := by
  simp [State.abortStatus]
@[simp] theorem State.suspendOp_mem (s : State) (c : Nat) (o : Op) (write : Bool) (cause sub : Nat) (va : DWord) :
    (s.suspendOp c o write cause sub va).mem = s.mem :=
  State.putStatus_mem _ _ _ _ _
theorem State.copyRead_wf (s : State) (c : Nat) (o : Op) (len : Nat) (h : s.mem.wf = true) : (s.copyRead c o len).2.mem.wf = true := by
  fun_cases State.copyRead <;> grind [State.engReadLines_wf]
theorem State.copyWrite_wf (s : State) (c : Nat) (o : Op) (len v : Nat) (h : s.mem.wf = true) :
    (s.copyWrite c o len v).2.mem.wf = true := by
  fun_cases State.copyWrite <;> grind [State.smemWrite_mem, State.engWrite_wf, State.pinLine_mem]
@[simp] theorem State.finishCopy_mem (s : State) (c : Nat) (o : Op) : (s.finishCopy c o).mem = s.mem := by
  unfold State.finishCopy
  grind [State.sillagePut_mem, State.dropNamed_mem, State.completeOp_mem, State.putStatus_mem]
@[simp] theorem State.landed_mem (s : State) (c : Nat) (o : Op) (len pa : Nat) : (s.landed c o len pa).mem = s.mem := by
  fun_cases State.landed <;> grind [State.arrive_mem, State.modOp_mem, State.finishCopy_mem]
theorem execCopyPieceLand_wf {core op len : Nat} {uncorrectable : Bool} {s : State} (h : s.mem.wf = true) :
    AnswerWf (execCopyPieceLand core op len uncorrectable s) := by
  refine answerWf_next.mpr ?_
  split
  · exact h
  · next o _ =>
    split
    · refine wf_ite h (wf_ite (by simpa) ?_)
      have hr := State.copyRead_wf s core o len h
      generalize s.copyRead core o len = r at hr ⊢
      split
      · next v s1 =>
        have hw := State.copyWrite_wf s1 core o len v hr
        generalize s1.copyWrite core o len v = q at hw ⊢
        split
        · exact State.engStep_wf _ _ _ _ _ h (by simpa)
        · exact State.engStep_wf _ _ _ _ _ h (by simpa)
        · simpa
      · exact wf_ite (State.engStep_wf _ _ _ _ _ h (by simpa)) h
      · simpa
    · exact h
theorem execCopySuspend_wf {core op : Nat} {s : State} (h : s.mem.wf = true) : AnswerWf (execCopySuspend core op s) := by
  refine answerWf_next.mpr ?_
  split
  · exact h
  · next o _ =>
    split
    · extract_lets d look stop
      have hl : ∀ t kind acc a, t.mem.wf = true → (look t kind acc a).2.mem.wf = true := by
        intro t kind acc a ht
        dsimp only [look]
        split
        · exact ht
        · exact State.dieTranslate_wf _ _ _ _ _ _ _ ht
      have hs : ∀ t write cause sub a, t.mem.wf = true → (stop t write cause sub a).mem.wf = true := fun t write cause sub a ht =>
        State.engStep_wf _ _ _ _ _ h (wf_ite (by simpa) (wf_ite (by simpa) (by simpa)))
      clear_value look stop
      have hq := hl s (copySrcKind d) .read (copySrcAt d o.off) h
      generalize look s (copySrcKind d) .read (copySrcAt d o.off) = q at hq ⊢
      split
      · exact hs _ _ _ _ _ hq
      · simpa
      · next s1 =>
        have hp := hl s1 (copyDstKind d) .write (copyDstAt d o.off) hq
        generalize look s1 (copyDstKind d) .write (copyDstAt d o.off) = p at hp ⊢
        split
        · exact hs _ _ _ _ _ hp
        · simpa
    · exact h
theorem execGatherFetchIssue_wf {core op : Nat} {s : State} (h : s.mem.wf = true) : AnswerWf (execGatherFetchIssue core op s) := by
  unfold execGatherFetchIssue
  grind [answerWf_next, State.modOp_mem, State.next_mem]
@[simp] theorem State.landElements_mem (s : State) (c size : Nat) (o : Op) (n : Nat) : (s.landElements c size o n).2.mem = s.mem := by
  fun_induction State.landElements <;> grind [State.smemWrite_mem, State.arrive_mem]
theorem execGatherElementReturn_wf {core op i : Nat} {uncorrectable : Bool} {s : State} (h : s.mem.wf = true) :
    AnswerWf (execGatherElementReturn core op i uncorrectable s) := by
  refine answerWf_next.mpr ?_
  split
  · exact h
  · next o _ =>
    split
    · next size _ =>
      split
      · exact h
      · next idx _ _ =>
        dsimp only
        refine wf_ite (wf_ite (by simpa) h) ?_
        have hr := State.engRead_wf s core o (gathAddr o.desc size idx) size i h
        generalize s.engRead core o (gathAddr o.desc size idx) size i = r at hr ⊢
        split
        · exact State.engStep_wf _ _ _ _ _ h (wf_ite (by simpa) (by simpa))
        · exact wf_ite (State.engStep_wf _ _ _ _ _ h (by simpa)) (by simpa)
        · exact wf_ite (State.engStep_wf _ _ _ _ _ h (by simpa)) (by simpa)
        · simpa
    · exact h

/-! ### Draws -/

theorem State.readVtx_wf (s : State) (c : Nat) (o : Op) (tile idx : Nat) (h : s.mem.wf = true) :
    (s.readVtx c o tile idx).2.mem.wf = true := by
  fun_cases State.readVtx <;> grind [State.engReadLines_wf]
theorem State.readTri_wf (s : State) (c : Nat) (o : Op) (tile n : Nat) (h : s.mem.wf = true) :
    (s.readTri c o tile n).2.mem.wf = true := by
  fun_cases State.readTri <;> grind [State.engReadLines_wf, State.readVtx_wf]
theorem State.depthTest_wf (s : State) (c : Nat) (o : Op) (z px py : Nat) (h : s.mem.wf = true) :
    (s.depthTest c o z px py).2.mem.wf = true := by
  fun_cases State.depthTest <;> grind [State.engReadLines_wf, State.engWriteLines_wf]
theorem State.quadBits_wf (s : State) (c : Nat) (o : Op) (ez : Bool) (t : Tri) (qx qy : Nat) (l : List Nat) (h : s.mem.wf = true) :
    (s.quadBits c o ez t qx qy l).2.mem.wf = true := by
  fun_induction State.quadBits <;> grind [State.depthTest_wf]
@[simp] theorem State.failDraw_mem (s : State) (c : Nat) (o : Op) (va : DWord) : (s.failDraw c o va).mem = s.mem := by
  simp [State.failDraw]
theorem State.drawStops_wf (s : State) (c : Nat) (o : Op) (write : Bool) (tile : Nat) (g : Got) (s1 : State) (h : s.mem.wf = true) :
    (s.drawStops c o write tile g s1).mem.wf = true := by
  fun_cases State.drawStops <;> grind [State.engStep_wf, State.failDraw_mem, State.engBack_mem, State.engineFault_mem, State.engWaits_mem]
theorem State.drawQuad_wf (s : State) (c : Nat) (o : Op) (ez : Bool) (tile : Nat) (h : s.mem.wf = true) :
    (s.drawQuad c o ez tile).mem.wf = true := by
  fun_cases State.drawQuad <;> grind [State.engStep_wf, State.modOp_mem, State.readTri_wf, State.quadBits_wf, State.engWaits_mem,
      State.modCtx_mem, State.drawStops_wf]
theorem execDrawQuadPush_wf {die op tile : Nat} {uncorrectable : Bool} {s : State} (h : s.mem.wf = true) :
    AnswerWf (execDrawQuadPush die op tile uncorrectable s) := by
  unfold execDrawQuadPush
  grind [answerWf_next, State.drawQuad_wf, State.failDraw_mem]
theorem State.countDiscards_wf (s : State) (c : Nat) (o : Op) (n m : Nat) (h : s.mem.wf = true) :
    (s.countDiscards c o n m).2.mem.wf = true := by
  fun_induction State.countDiscards <;> grind [State.readTri_wf]
theorem execDrawComplete_wf {die op : Nat} {s : State} (h : s.mem.wf = true) : AnswerWf (execDrawComplete die op s) := by
  unfold execDrawComplete
  grind [answerWf_next, State.arrive_mem, State.completeOp_mem, State.countDiscards_wf, State.drawStops_wf, State.engStep_wf,
      State.smemWrite_mem]

/-! ### The matrix engine -/

theorem execMxshapeExecute_wf {core : Nat} {s : State} (h : s.mem.wf = true) : AnswerWf (execMxshapeExecute core s) := by
  unfold execMxshapeExecute
  grind [answerWf_next, State.completeOp_mem, State.modMx_mem]
theorem State.ldwRows_wf (s : State) (c : Nat) (o : Op) (n m : Nat) (h : s.mem.wf = true) : (s.ldwRows c o n m).2.mem.wf = true := by
  fun_induction State.ldwRows <;> grind [State.engReadLines_wf]
theorem State.ldwBlock_wf (s : State) (c : Nat) (o : Op) (h : s.mem.wf = true) : (s.ldwBlock c o).2.mem.wf = true := by
  fun_cases State.ldwBlock <;> grind [State.ldwRows_wf]
@[simp] theorem State.ldwFails_mem (s : State) (c : Nat) (o : Op) (va : DWord) : (s.ldwFails c o va).mem = s.mem := by
  simp [State.ldwFails]
@[simp] theorem State.latchBlock_mem (s : State) (c : Nat) (o : Op) (v : Nat) : (s.latchBlock c o v).mem = s.mem :=
  State.completeOp_mem _ _ _
theorem execMxldwComplete_wf {core : Nat} {uncorrectable : Bool} {s : State} (h : s.mem.wf = true) :
    AnswerWf (execMxldwComplete core uncorrectable s) := by
  unfold execMxldwComplete
  grind [answerWf_next, State.engStep_wf, State.engWaits_mem, State.engineFault_mem, State.latchBlock_mem, State.ldwBlock_wf,
      State.ldwFails_mem]
theorem execTileTaskStart_wf {core : Nat} {s : State} (h : s.mem.wf = true) : AnswerWf (execTileTaskStart core s) := by
  refine answerWf_next.mpr ?_
  split
  · split <;> simpa
  · exact h
@[simp] theorem State.writeTile_mem (s : State) (c : Nat) (o : Op) : (s.writeTile c o).mem = s.mem :=
  State.foldl_mem _ _ s fun t _ => State.smemWrite_mem t _ _ _ _ _
theorem execTileTaskComplete_wf {core : Nat} {uncorrectable : Bool} {s : State} (h : s.mem.wf = true) :
    AnswerWf (execTileTaskComplete core uncorrectable s) := by
  unfold execTileTaskComplete
  grind [answerWf_next, State.arrive_mem, State.completeOp_mem, State.engineError_mem, State.streamTiles_mem, State.writeTile_mem]
theorem execArrayEnergyPeriod_wf {core : Nat} {s : State} (h : s.mem.wf = true) : AnswerWf (execArrayEnergyPeriod core s) := by
  unfold execArrayEnergyPeriod
  grind [answerWf_next, State.modMx_mem, State.streamTiles_mem]
theorem execCbloadComplete_wf {core id : Nat} {s : State} (h : s.mem.wf = true) : AnswerWf (execCbloadComplete core id s) := by
  unfold execCbloadComplete
  grind [answerWf_next, State.completeOp_mem, State.setBook_mem]

/-! ### Queries and refits -/

theorem State.readNode_wf (s : State) (c : Nat) (o : Op) (va : DWord) (h : s.mem.wf = true) : (s.readNode c o va).2.mem.wf = true :=
  State.engReadLines_wf _ _ _ _ _ _ _ h
theorem State.readLeaf_wf (s : State) (c : Nat) (o : Op) (r j : Nat) (h : s.mem.wf = true) : (s.readLeaf c o r j).2.mem.wf = true :=
  State.engReadLines_wf _ _ _ _ _ _ _ h
theorem rayLeaves_wf (q : RayQ) (c : Nat) (o : Op) (r n m : Nat) (x : Option Hit) (x8 : State) (h : x8.mem.wf = true) :
    (rayLeaves q c o r n m x x8).2.mem.wf = true := by
  fun_induction rayLeaves <;> grind [State.readLeaf_wf]
theorem rayWalk_wf (q : RayQ) (c : Nat) (o : Op) (n : Nat) (l : List (Option Nat × Nat × Nat)) (m : Nat) (x : Option Hit) (x8 : State)
    (h : x8.mem.wf = true) : (rayWalk q c o n l m x x8).2.mem.wf = true := by
  fun_induction rayWalk <;> grind [State.readNode_wf, rayLeaves_wf]
@[simp] theorem State.endQuery_mem (s : State) (c : Nat) (o : Op) (bytes v : Nat) : (s.endQuery c o bytes v).mem = s.mem := by
  simp [State.endQuery]
@[simp] theorem State.failRay_mem (s : State) (c : Nat) (o : Op) (va : DWord) : (s.failRay c o va).mem = s.mem := by
  simp [State.failRay]
theorem execRayQueryComplete_wf {core op : Nat} {uncorrectable : Bool} {s : State} (h : s.mem.wf = true) :
    AnswerWf (execRayQueryComplete core op uncorrectable s) := by
  unfold execRayQueryComplete
  grind [answerWf_next, State.endQuery_mem, State.engStep_wf, State.engWaits_mem, State.engineFault_mem, State.failRay_mem, rayWalk_wf]
theorem ovlpLeaves_wf (q : Box) (c : Nat) (o : Op) (r n m : Nat) (x : Found) (x8 : State) (h : x8.mem.wf = true) :
    (ovlpLeaves q c o r n m x x8).2.2.mem.wf = true := by
  fun_induction ovlpLeaves <;> grind [State.readLeaf_wf]
theorem ovlpWalk_wf (q : Box) (c : Nat) (o : Op) (n : Nat) (l : List (Option Box × Nat × Nat)) (m : Nat) (x : Found) (x8 : State)
    (h : x8.mem.wf = true) : (ovlpWalk q c o n l m x x8).2.2.mem.wf = true := by
  fun_induction ovlpWalk <;> grind [State.readNode_wf, ovlpLeaves_wf]
@[simp] theorem State.endOvlp_mem (s : State) (c : Nat) (o : Op) (status : Nat) (f : Found) : (s.endOvlp c o status f).mem = s.mem :=
  State.endQuery_mem _ _ _ _ _
theorem execOvlpQueryComplete_wf {core op : Nat} {uncorrectable : Bool} {s : State} (h : s.mem.wf = true) :
    AnswerWf (execOvlpQueryComplete core op uncorrectable s) := by
  unfold execOvlpQueryComplete
  grind [answerWf_next, State.endOvlp_mem, State.engStep_wf, State.engWaits_mem, State.engineError_mem, State.engineFault_mem,
      ovlpWalk_wf]
theorem State.refitLeaves_wf (s : State) (c : Nat) (o : Op) (r n m : Nat) (v : Box) (h : s.mem.wf = true) :
    (s.refitLeaves c o r n m v).2.mem.wf = true := by
  fun_induction State.refitLeaves <;> grind [State.readLeaf_wf]
theorem State.refitBox_wf (s : State) (c : Nat) (o : Op) (r : Nat) (h : s.mem.wf = true) : (s.refitBox c o r).2.mem.wf = true := by
  fun_cases State.refitBox <;> grind [State.readNode_wf, State.refitLeaves_wf]
theorem State.refitBoxes_wf (s : State) (c : Nat) (o : Op) (l : List Nat) (h : s.mem.wf = true) :
    (s.refitBoxes c o l).2.mem.wf = true := by
  fun_induction State.refitBoxes <;> grind [State.refitBox_wf]
@[simp] theorem State.failRefit_mem (s : State) (c : Nat) (o : Op) (va : DWord) : (s.failRefit c o va).mem = s.mem := by
  simp [State.failRefit]
theorem execRefitNode_wf {core op : Nat} {uncorrectable : Bool} {s : State} (h : s.mem.wf = true) :
    AnswerWf (execRefitNode core op uncorrectable s) := by
  refine answerWf_next.mpr ?_
  split
  · exact h
  · next o _ =>
    have hs : ∀ (g : Got) (write : Bool) (t : State), (match g with
        | .ends _ va => s.engStep core op ((s.engBack t).failRefit core o va)
        | .fault cause sub va => s.engStep core op ((s.engBack t).engineFault core o write cause sub va)
        | _ => s.engWaits t).mem.wf = true := by
      intro g write t
      cases g with
      | ends => exact State.engStep_wf _ _ _ _ _ h (by simpa)
      | fault => exact State.engStep_wf _ _ _ _ _ h (by simpa)
      | ok => simpa
      | wait => simpa
    refine wf_ite h (wf_ite (by simpa) ?_)
    generalize BitVec.ofNat 64 (refitBase o.desc + 128 * (refitCount o.desc - 1 - o.off)) = va
    have hr := State.readNode_wf s core o va h
    generalize s.readNode core o va = r at hr ⊢
    split
    · next v s1 =>
      refine wf_ite (State.engStep_wf _ _ _ _ _ h (by simpa)) ?_
      generalize (List.range 4).map (nodeRef v) = refs
      have hb := State.refitBoxes_wf s1 core o refs hr
      generalize s1.refitBoxes core o refs = q at hb ⊢
      split
      · next boxes s2 =>
        have hw := State.engWriteLines_wf s2 core o va 2 96 (boxBits boxes) 0 hb
        generalize s2.engWriteLines core o va 2 96 (boxBits boxes) = p at hw ⊢
        split
        · exact State.engStep_wf _ _ _ _ _ h (wf_ite (by simpa) (by simpa))
        · exact hs _ true _
      · exact hs _ false _
    · exact hs _ false _

/-! ### Delivery of traps and the fault service -/

theorem execTrapDelivery_wf {core ctx : Nat} {s : State} (h : s.mem.wf = true) : AnswerWf (execTrapDelivery core ctx s) := by
  unfold execTrapDelivery
  grind [answerWf_next, State.deliver_wf, State.killCtx_mem]
theorem execWatchdogExpiry_wf {core ctx : Nat} {s : State} (h : s.mem.wf = true) : AnswerWf (execWatchdogExpiry core ctx s) :=
  answerWf_next.mpr (wf_ite (by simpa) h)
theorem execPageFaultService_wf {id : Nat} {s : State} (h : s.mem.wf = true) : AnswerWf (execPageFaultService id s) := by
  unfold execPageFaultService
  grind [answerWf_next, State.forget_mem, State.modFault_mem, State.rewalk_wf]
@[simp] theorem State.dropFault_mem (s : State) (id : Nat) : (s.dropFault id).mem = s.mem := rfl
theorem State.dropServed_wf (s : State) (c k : Nat) (t : Trap) (h : s.mem.wf = true) : (s.dropServed c k t).mem.wf = true := by
  fun_cases State.dropServed <;> grind [State.modCtx_mem, State.dieTranslate_wf, State.accReady_mem, State.killCtx_mem,
      State.homeWrite_wf, State.forget_mem, State.modStrand_mem]
theorem State.servedTrap_wf (s : State) (f : FaultSvc) (ok : Bool) (h : s.mem.wf = true) : (s.servedTrap f ok).mem.wf = true := by
  fun_cases State.servedTrap <;> grind [State.dropFault_mem, State.dropServed_wf, State.modCtx_mem]
@[simp] theorem State.resumeOp_mem (s : State) (c : Nat) (o : Op) : (s.resumeOp c o).mem = s.mem := by
  fun_cases State.resumeOp <;> grind [State.modOp_mem, State.putStatus_mem]
@[simp] theorem State.failOp_mem (s : State) (c : Nat) (o : Op) (cause : Nat) (va : DWord) : (s.failOp c o cause va).mem = s.mem := by
  fun_cases State.failOp <;> grind [State.abortStatus_mem, State.ldwFails_mem, State.failRay_mem, State.engineError_mem,
      State.endOvlp_mem, State.failRefit_mem, State.failDraw_mem, State.modOp_mem]
@[simp] theorem State.servedOp_mem (s : State) (f : FaultSvc) (ok : Bool) : (s.servedOp f ok).mem = s.mem := by
  fun_cases State.servedOp <;> grind [State.dropFault_mem, State.resumeOp_mem, State.failOp_mem]
theorem execPageFaultServiceDone_wf {id : Nat} {s : State} (h : s.mem.wf = true) : AnswerWf (execPageFaultServiceDone id s) := by
  unfold execPageFaultServiceDone
  grind [answerWf_next, State.servedOp_mem, State.servedTrap_wf]
theorem execFaultRingAppend_wf {id : Nat} {s : State} (h : s.mem.wf = true) : AnswerWf (execFaultRingAppend id s) := by
  unfold execFaultRingAppend
  grind [answerWf_next, State.accReady_mem, State.forget_mem, State.homeWrite_mem, State.homeWrite_wf, State.modFault_mem,
      State.setCtlF_mem]
theorem execPfrespRetry_wf {seq : BitVec 32} {s : State} (h : s.mem.wf = true) : AnswerWf (execPfrespRetry seq s) :=
  answerWf_next.mpr (State.pfRetry_wf _ _ h)
theorem execPfrespFail_wf {seq : BitVec 32} {s : State} (h : s.mem.wf = true) : AnswerWf (execPfrespFail seq s) :=
  answerWf_next.mpr (by simpa)
theorem execPkillGo_wf {mask : BitVec 8} {s : State} (h : s.mem.wf = true) : AnswerWf (execPkillGo mask s) :=
  answerWf_next.mpr (State.writePkill_wf _ _ h)
theorem execPartitionKillDone_wf {p : Nat} {s : State} (h : s.mem.wf = true) : AnswerWf (execPartitionKillDone p s) := by
  unfold execPartitionKillDone
  grind [answerWf_next, State.addLog_mem, State.retryFreeing_wf, State.setCtlF_mem]

/-! ### Refills and loans -/

@[simp] theorem State.refill_mem (s : State) : s.refill.mem = s.mem := by
  unfold State.refill
  split
  · rfl
  · exact State.foldl_mem _ _ s fun t p => State.setCtl_mem t _ _
@[simp] theorem State.startQuarter_mem (s : State) : s.startQuarter.mem = s.mem := by
  fun_cases State.startQuarter <;> rfl
theorem execTokenRefill_wf {s : State} (h : s.mem.wf = true) : AnswerWf (execTokenRefill s) :=
  answerWf_next.mpr (by simpa)
theorem execThrottleQuarter_wf {s : State} (h : s.mem.wf = true) : AnswerWf (execThrottleQuarter s) :=
  answerWf_next.mpr (by simpa)
theorem execQosregWrite_wf {n : Nat} {dw : BitVec 1} {v : BitVec 64} {s : State} (h : s.mem.wf = true) :
    AnswerWf (execQosregWrite n dw v s) :=
  answerWf_next.mpr (wf_ite (by simpa) h)
theorem execHeadurgWrite_wf {head : Nat} {v : BitVec 64} {s : State} (h : s.mem.wf = true) : AnswerWf (execHeadurgWrite head v s) := by
  refine answerWf_next.mpr (wf_ite (by simpa) h)
@[simp] theorem State.refillLines_mem (s : State) (n m j : Nat) : (s.refillLines n m j).2.mem = s.mem := by
  fun_induction State.refillLines <;> grind [State.recallLine_mem, State.regulate_mem]
theorem execScanOutLine_wf {head bytes refill : Nat} {s : State} (h : s.mem.wf = true) :
    AnswerWf (execScanOutLine head bytes refill s) := by
  refine answerWf_next.mpr ?_
  split <;> simpa
theorem execPlcmapWrite_wf {i : Nat} {v : BitVec 64} {s : State} (h : s.mem.wf = true) : AnswerWf (execPlcmapWrite i v s) :=
  answerWf_next.mpr (wf_ite (by simpa) h)
theorem State.zeroRange_wf (s : State) (base len : Nat) (key : Nat → Nat) (h : s.mem.wf = true) :
    (s.zeroRange base len key).mem.wf = true := by
  have hm : (s.zeroRange base len key).mem =
      (s.dropLine fun l => !inRange base len l).mem.filter fun e => !(base ≤ e.1 && e.1 < base + len) := rfl
  rw [hm]
  exact Memory.filter_wf _ _ (by simpa)
theorem execPlcmapScrubDone_wf {pair : Nat} {s : State} (h : s.mem.wf = true) : AnswerWf (execPlcmapScrubDone pair s) := by
  unfold execPlcmapScrubDone
  grind [answerWf_next, State.recallRange_mem, State.setCtlF_mem, State.zeroRange_wf]
theorem execClprofWrite_wf {n : Nat} {v : BitVec 64} {s : State} (h : s.mem.wf = true) : AnswerWf (execClprofWrite n v s) :=
  answerWf_next.mpr (wf_ite (by simpa) h)
theorem execLendingTableWrite_wf {n : Nat} {dw : BitVec 1} {v : BitVec 64} {s : State} (h : s.mem.wf = true) :
    AnswerWf (execLendingTableWrite n dw v s) :=
  answerWf_next.mpr (wf_ite (by simpa) h)
@[simp] theorem State.lendTable_mem (s : State) : s.lendTable.mem = s.mem := by
  refine State.foldl_mem _ _ s fun t n => ?_
  exact mem_ite ((State.setCtl_mem _ _ _).trans (State.setCtl_mem _ _ _)) (State.setCtlF_mem _ _ _ _ _)
theorem execLendStep_wf {s : State} (h : s.mem.wf = true) : AnswerWf (execLendStep s) := by
  refine answerWf_next.mpr ?_
  split
  · exact h
  · split <;> simpa
theorem execLenderWake_wf {cluster : Nat} {s : State} (h : s.mem.wf = true) : AnswerWf (execLenderWake cluster s) :=
  answerWf_next.mpr (wf_ite (by simpa) h)
theorem execLendRecallDone_wf {cluster : Nat} {s : State} (h : s.mem.wf = true) : AnswerWf (execLendRecallDone cluster s) :=
  answerWf_next.mpr (wf_ite (by simpa) h)
theorem execRegisterWrite_wf {off : Nat} {v : BitVec 64} {s : State} (h : s.mem.wf = true) : AnswerWf (execRegisterWrite off v s) := by
  unfold execRegisterWrite
  grind [answerWf_next, State.regReady_mem, State.regWrite_wf]
theorem execHlqTailWrite_wf {p : Nat} {v : BitVec 64} {s : State} (h : s.mem.wf = true) : AnswerWf (execHlqTailWrite p v s) :=
  answerWf_next.mpr (wf_ite (by simpa) h)

/-! ### What is taken up -/

@[simp] theorem State.elapse_mem (s : State) (ps : Nat) : (s.elapse ps).mem = s.mem := by
  simp [State.elapse]
@[simp] theorem State.takeUp_mem (s : State) : s.takeUp.2.mem = s.mem := by
  fun_cases State.takeUp <;> grind [State.elapse_mem]
theorem State.takeUp_wf (s : State) (h : s.mem.wf = true) : s.takeUp.2.mem.wf = true := by
  rwa [State.takeUp_mem]

/-! ### Transfers, the host and migration -/

theorem execOwncmdGo_wf {v : BitVec 64} {s : State} (h : s.mem.wf = true) : AnswerWf (execOwncmdGo v s) :=
  answerWf_next.mpr (by simpa)
@[simp] theorem State.dropRegion_mem (s : State) (r : Nat) : (s.dropRegion r).mem = s.mem := by
  unfold State.dropRegion
  dsimp only
  rw [State.foldl_mem _ _ _ fun t (e : Nat × Nat) => State.send_mem t e.1 e.2 .evicted]
  simp
theorem State.endTransfer_wf (s : State) (r : Nat) (x : Region) (h : s.mem.wf = true) : (s.endTransfer r x).mem.wf = true := by
  refine State.performHeld_wf _ ?_
  rw [State.ownStep_mem]
  simpa
theorem execTransferComplete_wf {region : Nat} {s : State} (h : s.mem.wf = true) : AnswerWf (execTransferComplete region s) := by
  unfold execTransferComplete
  grind [answerWf_next, State.dropRegion_mem, State.endTransfer_wf, State.ownStep_mem]
@[simp] theorem State.hostQueue_mem (s : State) (agent line : Nat) : (s.hostQueue agent line).mem = s.mem := by
  fun_cases State.hostQueue <;> rfl
@[simp] theorem State.hostLeave_mem (s : State) (agent line : Nat) : (s.hostLeave agent line).mem = s.mem := rfl
theorem State.takeHostData_wf (s : State) (line : Nat) (data : Line) (h : s.mem.wf = true) :
    (s.takeHostData line data).mem.wf = true := by
  unfold State.takeHostData
  split
  · exact writeBytes_wf _ _ _ _ (State.rekey_wf s line h)
  · exact h
theorem State.hostServe_wf (s : State) (agent line : Nat) (r : HostReq) (h : s.mem.wf = true) :
    (s.hostServe agent line r).mem.wf = true := by
  fun_cases State.hostServe <;> grind [State.hostQueue_mem, State.recallLine_mem, State.regulate_mem, State.ownerServed_mem,
      State.hostLeave_mem, State.setHdir_mem, State.hostWrite_wf]
theorem State.portServe_wf (s : State) (agent line : Nat) (r : HostReq) (h : s.mem.wf = true) :
    (s.portServe agent line r).mem.wf = true := by
  fun_cases State.portServe <;> grind [State.hostQueue_mem, State.recallLine_mem, State.regulate_mem, State.hostWrite_wf,
      State.hostLeave_mem]
@[simp] theorem State.holdHost_mem (s : State) (agent line : Nat) (data : Line) : (s.holdHost agent line data).mem = s.mem := by
  fun_cases State.holdHost <;> grind [State.regulate_mem, State.hostQueue_mem, State.next_mem, State.hostLeave_mem]
theorem State.hostEvict_wf (s : State) (agent line : Nat) (data : Line) (h : s.mem.wf = true) :
    (s.hostEvict agent line data).mem.wf = true := by
  fun_cases State.hostEvict <;> grind [State.takeHostData_wf, State.setHdir_mem]
theorem State.takeFirst_wf (s : State) (agent line region : Nat) (r : HostReq) (h : s.mem.wf = true) :
    (s.takeFirst agent line region r).mem.wf = true := by
  fun_cases State.takeFirst <;> grind [State.hostServe_wf, State.setRegion_mem]
theorem State.takeRequest_wf (s : State) (agent line region : Nat) (r : HostReq) (h : s.mem.wf = true) :
    (s.takeRequest agent line region r).mem.wf = true := by
  fun_cases State.takeRequest <;> grind [State.hostLeave_mem, State.hostQueue_mem, State.portServe_wf, State.takeFirst_wf,
      State.hostServe_wf, State.wantHost_mem]
theorem execHostRequest_wf {agent line : Nat} {r : HostReq} {s : State} (h : s.mem.wf = true) :
    AnswerWf (execHostRequest agent line r s) := by
  unfold execHostRequest
  grind [answerWf_next, State.holdHost_mem, State.hostEvict_wf, State.takeRequest_wf]
@[simp] theorem State.logLost_mem (s : State) (agent line : Nat) : (s.logLost agent line).mem = s.mem := by
  fun_cases State.logLost <;> grind [State.setCtlF_mem, State.setCtl_mem]
theorem State.ownerLost_wf (s : State) (line agent : Nat) (h : s.mem.wf = true) : (s.ownerLost line agent).mem.wf = true := by
  refine State.performHeld_wf _ ?_
  rw [State.logLost_mem]
  simpa
theorem execOwnerLostTimeout_wf {line : Nat} {s : State} (h : s.mem.wf = true) : AnswerWf (execOwnerLostTimeout line s) := by
  unfold execOwnerLostTimeout
  grind [answerWf_next, State.ownerLost_wf]
theorem execHostRecallReply_wf {agent line : Nat} {data : Line} {s : State} (h : s.mem.wf = true) :
    AnswerWf (execHostRecallReply agent line data s) := by
  unfold execHostRecallReply
  grind [answerWf_next, State.ownerLost_wf, State.performHeld_wf, State.setHdir_mem, State.takeHostData_wf]
theorem execReclaimGo_wf {v : BitVec 64} {s : State} (h : s.mem.wf = true) : AnswerWf (execReclaimGo v s) :=
  answerWf_next.mpr (by simpa)
theorem execReclaimDone_wf {s : State} (h : s.mem.wf = true) : AnswerWf (execReclaimDone s) := by
  refine answerWf_next.mpr ?_
  split
  · exact h
  · next line _ =>
    refine wf_ite h ?_
    rw [State.setCtlF_mem]
    dsimp only
    split
    · exact writeBytes_wf _ _ _ _ (State.rekey_wf _ _ (by simpa))
    · exact h
theorem execMigStart_wf {k : Nat} {s : State} (h : s.mem.wf = true) : AnswerWf (execMigStart k s) :=
  answerWf_next.mpr (wf_ite (State.migCommand_wf _ _ _ h) h)
theorem State.copyLines_wf (s : State) (src dst len : Nat) (h : s.mem.wf = true) : (s.copyLines src dst len).mem.wf = true :=
  State.foldl_wf _ _ s (fun t _ ht => writeBytes_wf _ _ _ _ (State.rekey_wf t _ ht)) h
theorem State.copyPage_wf (s : State) (src dst len : Nat) (h : s.mem.wf = true) : (s.copyPage src dst len).mem.wf = true := by
  unfold State.copyPage
  dsimp only
  split
  · exact State.copyLines_wf s src dst len h
  · exact Memory.fold_wf _ _ _ (Memory.filter_wf _ _ h)
theorem execMigCopyDone_wf {k : Nat} {s : State} (h : s.mem.wf = true) : AnswerWf (execMigCopyDone k s) := by
  unfold execMigCopyDone
  grind [answerWf_next, State.copyPage_wf, State.dropLine_mem, State.recallRange_mem, State.setMigState_mem]
theorem execMigSwitch_wf {k : Nat} {s : State} (h : s.mem.wf = true) : AnswerWf (execMigSwitch k s) :=
  answerWf_next.mpr (wf_ite (State.migCommand_wf _ _ _ h) h)
theorem execMigRelease_wf {k : Nat} {s : State} (h : s.mem.wf = true) : AnswerWf (execMigRelease k s) :=
  answerWf_next.mpr (wf_ite (State.migCommand_wf _ _ _ h) h)

/-! ### Reset, firmware and services -/

theorem execPctlEnWrite_wf {p : Nat} {v : BitVec 64} {s : State} (h : s.mem.wf = true) : AnswerWf (execPctlEnWrite p v s) :=
  answerWf_next.mpr (wf_ite (by simpa) h)
theorem execKeynew_wf {p : Nat} {s : State} (h : s.mem.wf = true) : AnswerWf (execKeynew p s) :=
  answerWf_next.mpr (wf_ite (by simpa) h)
theorem execKeynewDone_wf {p : Nat} {s : State} (h : s.mem.wf = true) : AnswerWf (execKeynewDone p s) := by
  unfold execKeynewDone
  grind [answerWf_next, State.foldl_mem, State.foldl_wf, State.recallRange_mem, State.setCtlF_mem, State.zeroRange_wf]
theorem execProotWrite_wf {v : BitVec 64} {s : State} (h : s.mem.wf = true) : AnswerWf (execProotWrite v s) :=
  answerWf_next.mpr (by simpa)
theorem execModeWrite_wf {s : State} (h : s.mem.wf = true) : AnswerWf (execModeWrite s) := by
  refine answerWf_next.mpr ?_
  split <;> simpa
theorem execSavebaseWrite_wf {v : BitVec 64} {s : State} (h : s.mem.wf = true) : AnswerWf (execSavebaseWrite v s) :=
  answerWf_next.mpr (State.writeSavebase_wf _ _ _ h)
theorem execFwctlSwitchRequest_wf {v : BitVec 64} {s : State} (h : s.mem.wf = true) : AnswerWf (execFwctlSwitchRequest v s) :=
  answerWf_next.mpr (by simpa)
theorem execFwSwitchComplete_wf {s : State} (h : s.mem.wf = true) : AnswerWf (execFwSwitchComplete s) :=
  answerWf_next.mpr (wf_ite (by simpa) h)
theorem execFirmwareSlotLoad_wf {slot : Nat} {image : FwImage} {s : State} (h : s.mem.wf = true) :
    AnswerWf (execFirmwareSlotLoad slot image s) := by
  refine answerWf_next.mpr ?_
  split
  · exact h
  · split <;> simpa
@[simp] theorem State.bootDie_mem (s : State) (die : Nat) (image : FwImage) : (s.bootDie die image).mem = s.mem := by
  unfold State.bootDie
  grind [State.extendMeas_mem, State.startClock_mem, State.setCtx_mem]
@[simp] theorem State.bootPackage_mem (s : State) : s.bootPackage.mem = s.mem := by
  unfold State.bootPackage
  dsimp only
  rw [State.setCtlF_mem]
  exact State.foldl_mem _ _ s fun t i => State.setCtl_mem t _ _
theorem execColdReset_wf {s : State} : AnswerWf (execColdReset s) := by
  unfold execColdReset
  dsimp only
  refine answerWf_next.mpr ?_
  split
  · rfl
  · rw [State.bootDie_mem, State.bootDie_mem, State.bootPackage_mem]
    rfl
theorem execPowerFail_wf {s : State} : AnswerWf (execPowerFail s) := answerWf_next.mpr rfl
theorem execMextgoWrite_wf {die : Nat} {v : BitVec 64} {s : State} (h : s.mem.wf = true) : AnswerWf (execMextgoWrite die v s) :=
  answerWf_next.mpr (wf_ite (by simpa) h)
theorem execUcieModuleTrainFail_wf {y : Nat} {s : State} (h : s.mem.wf = true) : AnswerWf (execUcieModuleTrainFail y s) :=
  answerWf_next.mpr (wf_ite (by simpa) h)
theorem execSvcrespWrite_wf {die : Nat} {v : BitVec 64} {s : State} (h : s.mem.wf = true) : AnswerWf (execSvcrespWrite die v s) := by
  unfold execSvcrespWrite
  grind [answerWf_next, State.regReady_mem, State.writeSvcresp_mem]
@[simp] theorem State.consume_mem (s : State) (die : Nat) : (s.consume die).mem = s.mem := rfl
theorem State.svcReply_wf (s : State) (b : Batch) (lane : Nat) (v : DWord) (h : s.mem.wf = true) :
    (s.svcReply b lane v).mem.wf = true := by
  fun_cases State.svcReply <;> grind [State.homeWrite_wf, State.forget_mem, State.consume_mem, State.completeBatch_mem]
theorem State.svcServe_wf (s : State) (die n lane code : Nat) {f : Batch → DWord → DWord → State → Option DWord × State}
    (hf : ∀ b a0 a1 t, t.mem.wf = true → (f b a0 a1 t).2.mem.wf = true) (h : s.mem.wf = true) :
    (s.svcServe die n lane code f).mem.wf = true := by
  unfold State.svcServe
  split
  · exact h
  · next b a0 a1 _ =>
    refine wf_ite h ?_
    have hr : (s.allReady (.batch die b.seq) true (recordPieces b.addr)).2.mem.wf = true := by simpa
    generalize s.allReady (.batch die b.seq) true (recordPieces b.addr) = r at hr ⊢
    split
    · exact hr
    · next t =>
      split
      · exact State.svcReply_wf _ _ _ _ hr
      · refine wf_ite hr ?_
        have hv := hf b a0 a1 t hr
        generalize f b a0 a1 t = q at hv ⊢
        split
        · exact State.svcReply_wf _ _ _ _ hv
        · exact hv
theorem execSvcStorageWrite_wf {die n lane : Nat} {s : State} (h : s.mem.wf = true) : AnswerWf (execSvcStorageWrite die n lane s) := by
  unfold execSvcStorageWrite
  grind [answerWf_next, State.next_mem, State.svcServe_wf]
theorem State.landBytes_wf (s : State) (a : Agent) (l : List (Nat × Byte)) (h : s.mem.wf = true) : (s.landBytes a l).2.mem.wf = true := by
  unfold State.landBytes
  have hr := State.allReady_mem s a true (l.map (·.1))
  generalize s.allReady a true (l.map (·.1)) = r at hr ⊢
  split
  · exact State.foldl_wf _ l _ (fun t e ht => State.homeWrite_wf t e.1 1 e.2.toNat ht) (by rwa [hr])
  · rwa [hr]
theorem execSvcStorageRead_wf {die n lane : Nat} {s : State} (h : s.mem.wf = true) : AnswerWf (execSvcStorageRead die n lane s) := by
  unfold execSvcStorageRead
  grind [answerWf_next, State.landBytes_wf, State.svcServe_wf]
theorem execSvcFlush_wf {die n lane : Nat} {s : State} (h : s.mem.wf = true) : AnswerWf (execSvcFlush die n lane s) := by
  unfold execSvcFlush
  grind [answerWf_next, State.svcServe_wf]
theorem execSvcAttestationReport_wf {die n lane : Nat} {s : State} (h : s.mem.wf = true) :
    AnswerWf (execSvcAttestationReport die n lane s) := by
  unfold execSvcAttestationReport
  grind [answerWf_next, State.pokeLines_wf, State.span_wf, State.svcServe_wf]
@[simp] theorem State.dropWalks_mem (s : State) (named : Nat → Nat → Nat → Bool) : (s.dropWalks named).mem = s.mem := rfl
theorem execTlbInvalidationDone_wf {core ctx : Nat} {s : State} (h : s.mem.wf = true) :
    AnswerWf (execTlbInvalidationDone core ctx s) := by
  refine answerWf_next.mpr ?_
  split <;> simpa

/-! ### Every instruction and event -/

/-- Whatever instruction or event a step takes, memory keeps its canonical form. -/
theorem exec_wf (i : Instr) {s : State} (h : s.mem.wf = true) : AnswerWf (exec i s) := by
  have hw := runWord_wf i h
  cases i with
  | iadd | isub | imul | imad | iand | ior | ixor | ishl | ishr | isra | imin | imax | iminu | imaxu | imulh | imulhu | iabs | popc |
  clz | brev | bfe | bfi | p2g | iaddImm | ishlImm | ishrImm | israImm | iandImm | isel | movi | movh | movh20 | fadd | fsub | fmul |
  ffma | ffms | pkfmaF16 | pkfmaBf16 | fmin | fmax | pkaddF16 | pkaddBf16 | frnd | fclass | faddRm | fsubRm | fmulRm | fdiv | fsqrt |
  fexp2 | flog2 | fsin | fcos | frcp | frsq | qcvtI8 | qcvtCb4 | dqI8 | dqCb4 | icmp | icmpD | lea | plop | pset | g2p | iaddD | dcmp
  | fcmp | cbsel | cvt | ldg | lds | lda | cinv | cpin | cunpin | stg | sts | stgRel | stc | fenceAcq | fenceRel | fenceAr | drain |
  waitc | bar | gbara | gbarw | awinit | awadd | awwait | awtest | bra | call | brx | callx | ret | exit | endl | brk | loopLc0 |
  loopLc1 | loopp | item | cpys | gath | mxcfg | mxshape | mxldw | mxq | mxdrain | cbload | ntake | npass | ntest | ovlp | refit |
  tenq | tdec | lnch | iqpush | wave | iqclose | wavew | setdl | restag | resq | resdrop | movsr | svc | trap | wfe | evsig | dadd |
  dmul | dfma | ddiv | dmin | dmax | daddRm | dmulRm | dsqrt | qmax | jset | jsetGrp | join | shflIdx | shflUp | shflDown | shflXor |
  voteBallot | matchLanes | scanAdd | scanAddEx | redAdd | redMin | redMax | fredAdd | voteAny | voteAll | pref | nop | csrr | csrw |
  atomAdd | atomMin | atomMax | atomAnd | atomOr | atomXor | xchg | cas | xadd | xrd | xrd64 | xclr | atomsAdd | atomsMin | atomsMax |
  atomsAnd | atomsOr | atomsXor | atomsXchg | atomsCas | cpy | cpyTag | ray | rayAny | draw | drawEz | eret | tlbinv | own | ctxsv |
  ctxld =>
    exact hw
  | emptyBundle _ _ _ _ x => exact execEmptyBundle_wf (x := x) h
  | taskYield => exact execTaskYield_wf h
  | coreCycle => exact execCoreCycle_wf _ _ h
  | gbarBatchAdmit => exact execGbarBatchAdmit_wf h
  | loadReturn => exact execLoadReturn_wf h
  | homeWrite => exact execHomeWrite_wf h
  | homeRead => exact execHomeRead_wf h
  | invalidationAck => exact execInvalidationAck_wf h
  | castArrive => exact execCastArrive_wf h
  | invalidationArrive => exact execInvalidationArrive_wf h
  | castInstalledReply => exact execCastInstalledReply_wf h
  | castRefusedReply => exact execCastRefusedReply_wf h
  | evictionReport => exact execEvictionReport_wf h
  | stcCompletion => exact execStcCompletion_wf h
  | gaugeRateWindow => exact execGaugeRateWindow_wf h
  | copyPieceLand => exact execCopyPieceLand_wf h
  | copySuspend => exact execCopySuspend_wf h
  | gatherFetchIssue => exact execGatherFetchIssue_wf h
  | gatherElementReturn => exact execGatherElementReturn_wf h
  | mxshapeExecute => exact execMxshapeExecute_wf h
  | mxldwComplete => exact execMxldwComplete_wf h
  | tileTaskStart => exact execTileTaskStart_wf h
  | tileTaskComplete => exact execTileTaskComplete_wf h
  | cbloadComplete => exact execCbloadComplete_wf h
  | rayQueryComplete => exact execRayQueryComplete_wf h
  | ovlpQueryComplete => exact execOvlpQueryComplete_wf h
  | refitNode => exact execRefitNode_wf h
  | drawQuadPush => exact execDrawQuadPush_wf h
  | drawComplete => exact execDrawComplete_wf h
  | dispatchStep => exact execDispatchStep_wf h
  | launchAccept => exact execLaunchAccept_wf h
  | readyListAgeing => exact execReadyListAgeing_wf h
  | spill => exact execSpill_wf h
  | spillComplete => exact execSpillComplete_wf h
  | launchComplete => exact execLaunchComplete_wf h
  | dispatcherAccessFault => exact execDispatcherAccessFault_wf h
  | trapDelivery => exact execTrapDelivery_wf h
  | watchdogExpiry => exact execWatchdogExpiry_wf h
  | pageFaultService => exact execPageFaultService_wf h
  | pageFaultServiceDone => exact execPageFaultServiceDone_wf h
  | faultRingAppend => exact execFaultRingAppend_wf h
  | pfrespRetry => exact execPfrespRetry_wf h
  | pfrespFail => exact execPfrespFail_wf h
  | pkillGo => exact execPkillGo_wf h
  | partitionKillDone => exact execPartitionKillDone_wf h
  | tokenRefill => exact execTokenRefill_wf h
  | throttleQuarter => exact execThrottleQuarter_wf h
  | qosregWrite => exact execQosregWrite_wf h
  | headurgWrite => exact execHeadurgWrite_wf h
  | plcmapWrite => exact execPlcmapWrite_wf h
  | plcmapScrubDone => exact execPlcmapScrubDone_wf h
  | clprofWrite => exact execClprofWrite_wf h
  | lendingTableWrite => exact execLendingTableWrite_wf h
  | lendStep => exact execLendStep_wf h
  | arrayEnergyPeriod => exact execArrayEnergyPeriod_wf h
  | lenderWake => exact execLenderWake_wf h
  | lendRecallDone => exact execLendRecallDone_wf h
  | hlqTailWrite => exact execHlqTailWrite_wf h
  | owncmdGo => exact execOwncmdGo_wf h
  | transferComplete => exact execTransferComplete_wf h
  | hostRequest => exact execHostRequest_wf h
  | hostRecallReply => exact execHostRecallReply_wf h
  | ownerLostTimeout => exact execOwnerLostTimeout_wf h
  | reclaimGo => exact execReclaimGo_wf h
  | migStart => exact execMigStart_wf h
  | migCopyDone => exact execMigCopyDone_wf h
  | migSwitch => exact execMigSwitch_wf h
  | migRelease => exact execMigRelease_wf h
  | pctlEnWrite => exact execPctlEnWrite_wf h
  | keynew => exact execKeynew_wf h
  | keynewDone => exact execKeynewDone_wf h
  | prootWrite => exact execProotWrite_wf h
  | modeWrite => exact execModeWrite_wf h
  | savebaseWrite => exact execSavebaseWrite_wf h
  | fwctlSwitchRequest => exact execFwctlSwitchRequest_wf h
  | fwSwitchComplete => exact execFwSwitchComplete_wf h
  | svcStorageWrite => exact execSvcStorageWrite_wf h
  | svcStorageRead => exact execSvcStorageRead_wf h
  | svcFlush => exact execSvcFlush_wf h
  | svcAttestationReport => exact execSvcAttestationReport_wf h
  | svcrespWrite => exact execSvcrespWrite_wf h
  | mextgoWrite => exact execMextgoWrite_wf h
  | coldReset => exact execColdReset_wf
  | powerFail => exact execPowerFail_wf
  | ucieModuleTrainFail => exact execUcieModuleTrainFail_wf h
  | registerWrite => exact execRegisterWrite_wf h
  | scanOutLine => exact execScanOutLine_wf h
  | reclaimDone => exact execReclaimDone_wf h
  | firmwareSlotLoad => exact execFirmwareSlotLoad_wf h
  | tlbInvalidationDone => exact execTlbInvalidationDone_wf h

/-! ### Every step -/

/-- Settles O57: a step takes up an instruction or an event, which changes no byte, and performs it. -/
theorem stepsKeepMemoryCanonical : Obligations.StepsKeepMemoryCanonical := by
  intro s t h hs
  have hu := State.takeUp_wf s h
  unfold step at hs
  split at hs
  · exact exec_wf _ hu t hs
  · exact answerWf_next.mpr hu t hs

end Sys2Proof.Machine
end

section
namespace Sys2Proof.Machine

/-! ### Reset -/

/-- No register of the control space is written at reset: each reads its reset value. -/
@[simp] theorem State.reset_ctl64 (off : Nat) : State.reset.ctl64 off = ctlReset off := rfl
@[simp] theorem State.reset_ctlF (off lo len : Nat) : State.reset.ctlF off lo len = bitsOf (ctlReset off).toNat lo len := rfl

/-- CLPROF grants 1,024 twice and 132 twice, and no entry of the lending table is valid (12 R258). -/
theorem ctlReset_power : ∀ n < 40, ctlReset (offClprof n) = 0x400400848400#64 ∧ ctlReset (offLend n) = 0#64 ∧
    ctlReset (offLend n + 8) = 0#64 := by decide

/-- A regulator has no share and no cap; its class and its ways are those of R283 of 15. -/
theorem ctlReset_qos : ∀ n < 15, bitsOf (ctlReset (offQos n)).toNat 0 48 = 0 ∧
    bitsOf (ctlReset (offQos n)).toNat 48 2 = (if n < 8 then 1 else if n < 10 then 2 else 3) ∧
    bitsOf (ctlReset (offQos n + 8)).toNat 0 16 = (if n = 0 ∨ 8 ≤ n then 0xFFFF else 0) := by decide

/-- The thresholds of a display head are 256, 128 and 64, its urgency 0 (15 R287). -/
theorem ctlReset_headurg : ∀ h < 4, ctlReset (offHEADURG h) = 0x4020100#64 := by decide

/-- The placement policy interleaves everything (15 R280). -/
theorem ctlReset_plcmap : ∀ i < 6, ctlReset (offPLCMAP i) = 0#64 := by decide

/-- Partition 0 is enabled, and no other (25 R372). -/
theorem ctlReset_part : ∀ p < 8, ctlReset (offPart p) = if p = 0 then 1#64 else 0#64 := by decide

/-- Settles O59: no register is written at reset, so each reads what `ctlReset` gives, and each table its default. -/
theorem resetValues : Obligations.ResetValues := by
  refine ⟨rfl, fun _ => rfl, rfl, rfl, rfl, fun _ => ⟨rfl, rfl, rfl, rfl, rfl, rfl, rfl, rfl, rfl⟩, fun n hn => ?_, rfl, fun n hn => ?_,
    fun h hh => ?_, fun i hi => ?_, fun p hp => ?_, fun _ => rfl⟩
  · obtain ⟨hprof, hlend, hlend'⟩ := ctlReset_power n hn
    simp only [State.reset_ctlF, State.reset_ctl64, hprof, hlend, hlend']
    decide
  · exact ctlReset_qos n hn
  · simp only [State.reset_ctlF, ctlReset_headurg h hh]
    decide
  · exact ctlReset_plcmap i hi
  · simp only [State.reset_ctlF, ctlReset_part p hp]
    split <;> decide

end Sys2Proof.Machine
end

section
namespace Sys2Proof.Machine

/-! ### The sillage table (09 R228, R229) -/

theorem State.sillage_setSillage (s : State) (die : Nat) (l : List Sillage) : (s.setSillage die l).sillage die = l := by
  unfold State.setSillage State.sillage
  split <;> rfl
@[simp] theorem State.setSillage_cores (s : State) (die : Nat) (l : List Sillage) : (s.setSillage die l).cores = s.cores := by
  unfold State.setSillage
  split <;> rfl

theorem Sillage.hasKey_iff (x : Sillage) (part : Nat) (tile : BitVec 32) : x.hasKey part tile = true ↔ x.part = part ∧ x.tile = tile := by
  simp [Sillage.hasKey]

/-- Placing an entry: 1 where its key stands in the table, 2 where the table is full, else 0. -/
theorem State.sillagePut_replaces {s : State} {die : Nat} {e : Sillage}
    (h : ((s.sillage die).any fun x => x.hasKey e.part e.tile) = true) : s.sillagePut die e =
      (1, s.setSillage die (mapIf (fun x => x.hasKey e.part e.tile) (fun _ => e) (s.sillage die))) := by
  simp only [State.sillagePut, h, if_true]
theorem State.sillagePut_full {s : State} {die : Nat} {e : Sillage}
    (h : ((s.sillage die).any fun x => x.hasKey e.part e.tile) = false) (hl : 4096 ≤ (s.sillage die).length) :
    s.sillagePut die e = (2, s) := by
  simp only [State.sillagePut, h, hl, Bool.false_eq_true, if_false, if_true]
theorem State.sillagePut_new {s : State} {die : Nat} {e : Sillage}
    (h : ((s.sillage die).any fun x => x.hasKey e.part e.tile) = false) (hl : (s.sillage die).length < 4096) :
    s.sillagePut die e = (0, s.setSillage die (s.sillage die ++ [e])) := by
  simp only [State.sillagePut, h, Nat.not_le.mpr hl, Bool.false_eq_true, if_false]

/-- It touches neither memory nor a core. -/
theorem State.sillagePut_frame (s : State) (die : Nat) (e : Sillage) :
    (s.sillagePut die e).2.mem = s.mem ∧ (s.sillagePut die e).2.cores = s.cores := by
  fun_cases State.sillagePut <;> simp

/-- The entries of a table in which one entry has taken the place of those with its key. -/
theorem mem_mapIf_replace {l : List Sillage} {e : Sillage} (h : (l.any fun x => x.hasKey e.part e.tile) = true) (x : Sillage) :
    x ∈ mapIf (fun x => x.hasKey e.part e.tile) (fun _ => e) l ↔ x = e ∨ (x ∈ l ∧ ¬ (x.part = e.part ∧ x.tile = e.tile)) := by
  obtain ⟨y, hy, hk⟩ := List.any_eq_true.mp h
  simp only [mapIf, List.mem_map, ← Sillage.hasKey_iff]
  constructor
  · rintro ⟨z, hz, rfl⟩
    split
    · exact .inl rfl
    · next hn => exact .inr ⟨hz, hn⟩
  · rintro (rfl | ⟨hx, hn⟩)
    · exact ⟨y, hy, if_pos hk⟩
    · exact ⟨x, hx, if_neg hn⟩

/-! ### The lines of a pin -/

theorem sext57_mod (v : Nat) : (sext57 v).toNat % 4096 = v % 4096 := by
  unfold sext57
  rw [BitVec.toNat_signExtend, BitVec.toNat_setWidth, BitVec.toNat_ofNat]
  split <;> omega

/-- Where line j of a run that begins at v stands within its page. -/
theorem lineInPage (v j : Nat) : (sext57 v + BitVec.ofNat 64 (64 * j)).toNat / 64 % 64 = (v / 64 + j) % 64 := by
  have h := sext57_mod v
  simp only [BitVec.toNat_add, BitVec.toNat_ofNat]
  omega

/-- Lines of one page lie side by side. -/
theorem line_in_page {line : Nat → Nat} {p k : Nat}
    (hl : ∀ n, n + 1 < k → (p + n) % 64 ≠ 63 → line (n + 1) = line n + 1) (j m : Nat) (hm : j + m ≤ k) (hp : (p + j) % 64 + m ≤ 64) :
    ∀ x < m, line (j + x) = line j + x := by
  intro x hx
  induction x with
  | zero => rfl
  | succ x ih =>
    rw [← Nat.add_assoc, hl (j + x) (by omega) (by omega), ih (by omega)]
    omega

/-- A pin whose lines translate, each page of them side by side, has them all, from line j on. -/
theorem pinLines_reaches {i : Issue} {w : Who} {s : State} {v k : Nat} {line : Nat → Nat} {cached : Nat → Bool}
    (ha : s.acquiring w = false)
    (hx : ∀ n < k, s.xlat w i.pc .read (sext57 v + BitVec.ofNat 64 (64 * n)) = (.ok (64 * line n) (cached n), s) ∧
      inCtl (64 * line n) = false)
    (hl : ∀ n, n + 1 < k → (v / 64 + n) % 64 ≠ 63 → line (n + 1) = line n + 1) (f : List Nat → State → State)
    (n j : Nat) (hj : j ≤ k) (hn : k - j ≤ 64 * n - (v / 64 + j) % 64) (ls : List Nat) :
    pinLines i w f n (k - j) (sext57 v + BitVec.ofNat 64 (64 * j)) ls s = f (ls ++ (List.range (k - j)).map fun x => line (j + x)) s := by
  induction n generalizing j ls with
  | zero =>
    have h0 : k - j = 0 := by omega
    simp [pinLines, h0]
  | succ n ih =>
    by_cases h0 : k - j = 0
    · simp [pinLines, h0]
    obtain ⟨ht, hc⟩ := hx j (by omega)
    rw [pinLines, if_neg h0, access_reaches ha (Nat.mod_one _) ht]
    simp only [hc, Bool.false_eq_true, if_false, lineInPage]
    generalize hm : min (k - j) (64 - (v / 64 + j) % 64) = m
    have hrest : k - j - m = k - (j + m) := by omega
    have hnext : sext57 v + BitVec.ofNat 64 (64 * j) + BitVec.ofNat 64 (64 * m) = sext57 v + BitVec.ofNat 64 (64 * (j + m)) := by
      rw [BitVec.add_assoc, ← BitVec.ofNat_add, ← Nat.mul_add]
    have hpage : ((List.range m).map fun x => lineOf (64 * line j) + x) = (List.range m).map fun x => line (j + x) := by
      refine List.map_congr_left fun x h => ?_
      rw [line_in_page hl j m (by omega) (by omega) x (List.mem_range.mp h), lineOf, Nat.mul_div_cancel_left _ (by decide)]
    have hsplit : k - j = m + (k - (j + m)) := by omega
    rw [hrest, hnext, hpage, ih (j + m) (by omega) (by omega), List.append_assoc, hsplit, List.range_add, List.map_append, List.map_map]
    simp only [Function.comp_def, Nat.add_assoc]

theorem bitsOf_high (v lo len : Nat) : bitsOf (v / 2 ^ 64) lo len = bitsOf v (64 + lo) len := by
  simp only [bitsOf, Nat.shiftRight_eq_div_pow, Nat.div_div_eq_div_mul, ← Nat.pow_add]
theorem bitOf_high (v n : Nat) : bitOf (v / 2 ^ 64) n = v.testBit (64 + n) := by
  rw [bitOf_testBit, Nat.testBit_div_two_pow, Nat.add_comm]
/-- The fields of a value that RESQ reads of an entry. -/
theorem resqFields {q : DWord} {pin : Bool} {core b : Nat} (hc : core < 1024) (hb : b < 2 ^ 32)
    (hq : q.toNat = 2 ^ 63 + (if pin then 2 ^ 62 else 0) + core * 2 ^ 32 + b) :
    q.getLsbD 63 = true ∧ q.getLsbD 62 = pin ∧ q.extractLsb' 42 20 = 0#20 ∧ (q.extractLsb' 32 10).toNat = core ∧
      (q.extractLsb' 0 32).toNat = b := by
  have h62 : (if pin = true then 2 ^ 62 else 0) = 2 ^ 62 * pin.toNat := by cases pin <;> rfl
  have hp : pin.toNat ≤ 1 := pin.toNat_le
  rw [h62] at hq
  refine ⟨?_, ?_, BitVec.eq_of_toNat_eq ?_, ?_, ?_⟩
  · rw [BitVec.getLsbD, hq, Nat.testBit_eq_decide_div_mod_eq]
    exact decide_eq_true (by omega)
  · have h1 : q.toNat / 2 ^ 62 % 2 = pin.toNat := by omega
    rw [BitVec.getLsbD, Nat.testBit_eq_decide_div_mod_eq, h1]
    cases pin <;> rfl
  · rw [BitVec.extractLsb'_toNat, hq, Nat.shiftRight_eq_div_pow, BitVec.toNat_ofNat]
    omega
  · rw [BitVec.extractLsb'_toNat, hq, Nat.shiftRight_eq_div_pow]
    omega
  · rw [BitVec.extractLsb'_toNat, hq, Nat.shiftRight_eq_div_pow]
    omega

theorem State.resqValue_none {s : State} {w : Who} {tile : BitVec 32}
    (h : (s.sillage (coreDie w.core)).find? (fun e => e.hasKey (s.partOf w.core w.ctx) tile) = none) : s.resqValue w tile = 0#64 := by
  simp only [State.resqValue, h]
theorem State.resqValue_some {s : State} {w : Who} {tile : BitVec 32} {e : Sillage}
    (h : (s.sillage (coreDie w.core)).find? (fun e => e.hasKey (s.partOf w.core w.ctx) tile) = some e) (hc : e.pin = false → e.core < 1024) :
    ∃ core < 1024, (e.pin = false → core = e.core) ∧
      (s.resqValue w tile).toNat = 2 ^ 63 + (if e.pin then 2 ^ 62 else 0) + core * 2 ^ 32 + e.bytes % 2 ^ 32 := by
  have hcore : (if e.pin then bitsOf (Config.freeValue (s.freeKey w 1)).toNat 0 10 else e.core) < 1024 := by
    split
    · exact Nat.mod_lt _ (by decide)
    · next hp => exact hc (by simpa using hp)
  refine ⟨_, hcore, fun hp => if_neg (by simp [hp]), ?_⟩
  simp only [State.resqValue, h]
  generalize (if e.pin then bitsOf (Config.freeValue (s.freeKey w 1)).toNat 0 10 else e.core) = core at hcore ⊢
  rw [BitVec.toNat_ofNat, Nat.mod_eq_of_lt]
  have hb : e.bytes % 2 ^ 32 < 2 ^ 32 := Nat.mod_lt _ (by decide)
  split <;> omega

/-! ### The three words -/

/-- The entry that RESTAG makes of a record. -/
def restagEntry (s : State) (w : Who) (v : Nat) : Sillage :=
  { part := s.partOf w.core w.ctx, tile := BitVec.ofNat 32 v, pin := v.testBit 127, core := w.core, addr := bitsOf v 64 57
    bytes := bitsOf v 32 32, slot := s.slotOf w.core w.ctx }
/-- Placing an entry, with the status in d. -/
def State.restagPut (s : State) (w : Who) (d : Reg) (e : Sillage) : State :=
  (s.sillagePut (coreDie w.core) e).2.setReg w d (s.sillagePut (coreDie w.core) e).1

/-- The lines of a pin, numbered. -/
theorem zipIdx_map_range (f : Nat → Nat) (k : Nat) : ((List.range k).map f).zipIdx = (List.range k).map fun n => (f n, n) := by
  refine List.ext_getElem (by simp) fun n _ _ => ?_
  simp

theorem headD_map_range (f : Nat → Nat) {k : Nat} (h : 0 < k) : ((List.range k).map f).headD 0 = f 0 := by
  obtain ⟨n, rfl⟩ := Nat.exists_eq_succ_of_ne_zero h.ne'
  rw [List.range_succ_eq_map, List.map_cons, List.headD_cons]

theorem restag_window {g : Guard} {d a : Reg} {s : State} {i : Issue} {w : Who} {o : Nat} (hr : Runs s i (.restag g d a) w)
    (ho : s.reg w a % 2 ^ 22 = o) (h16 : o % 16 = 0) (hw : o + 16 ≤ s.smemSize w.core w.ctx) (ha : s.acquiring w = false)
    (hpin : (readBytes i.seen o 16).testBit 127 = false)
    (hin : bitsOf (readBytes i.seen o 16) 64 22 + bitsOf (readBytes i.seen o 16) 32 32 ≤ s.smemSize w.core w.ctx)
    (hb : bitsOf (readBytes i.seen o 16) 32 32 ≠ 0) (hz : bitsOf (readBytes i.seen o 16) 86 41 = 0) :
    exec (.restag g d a) s = .next (s.restagPut w d (restagEntry s w (readBytes i.seen o 16))) := by
  rw [exec_one hr _ rfl, withDesc_reaches ha ho h16 hw]
  generalize readBytes i.seen o 16 = v at hpin hin hb hz ⊢
  simp only [bitOf_high, bitsOf_high, hpin, hb, hz, Nat.not_lt.mpr hin, Bool.false_eq_true, if_false, ne_eq, not_true_eq_false,
    or_self]
  simp only [State.restagPut, restagEntry, hpin]

theorem restag_pin {g : Guard} {d a : Reg} {s : State} {i : Issue} {w : Who} {o : Nat} (hr : Runs s i (.restag g d a) w)
    (ho : s.reg w a % 2 ^ 22 = o) (h16 : o % 16 = 0) (hw : o + 16 ≤ s.smemSize w.core w.ctx) (ha : s.acquiring w = false)
    {line : Nat → Nat} {cached : Nat → Bool} {k : Nat} (hk : k = max 1 ((bitsOf (readBytes i.seen o 16) 32 32 + 63) / 64))
    (hpin : (readBytes i.seen o 16).testBit 127 = true) (hz : bitsOf (readBytes i.seen o 16) 121 6 = 0)
    (h64 : bitsOf (readBytes i.seen o 16) 64 57 % 64 = 0)
    (hx : ∀ n < k, s.xlat w i.pc .read (sext57 (bitsOf (readBytes i.seen o 16) 64 57) + BitVec.ofNat 64 (64 * n)) =
      (.ok (64 * line n) (cached n), s) ∧ inCtl (64 * line n) = false)
    (hl : ∀ n, n + 1 < k → (bitsOf (readBytes i.seen o 16) 64 57 / 64 + n) % 64 ≠ 63 → line (n + 1) = line n + 1) :
    exec (.restag g d a) s = .next (s.restagPut w d { restagEntry s w (readBytes i.seen o 16) with
      addr := line 0, lines := (List.range k).map fun n => (line n, min 64 (bitsOf (readBytes i.seen o 16) 32 32 - 64 * n)) }) := by
  rw [exec_one hr _ rfl, withDesc_reaches ha ho h16 hw]
  generalize readBytes i.seen o 16 = v at hk hpin hz h64 hx hl ⊢
  have hlines := fun f => pinLines_reaches ha hx hl f (k / 64 + 2) 0 (Nat.zero_le k) (by omega) []
  simp only [Nat.mul_zero, BitVec.add_zero, Nat.sub_zero, List.nil_append, Nat.zero_add] at hlines
  simp only [bitOf_high, bitsOf_high, hpin, hz, h64, if_true, ne_eq, not_true_eq_false, or_self, if_false, ← hk]
  rw [hlines]
  simp only [zipIdx_map_range, headD_map_range line (show 0 < k by omega), List.map_map, Function.comp_def]
  simp only [State.restagPut, restagEntry, hpin]

/-- Settles O31, word by word: the two kinds of RESTAG, the placing of an entry, RESQ and RESDROP. -/
theorem sillageInstructions : Obligations.SillageInstructions := by
  intro g d a s i w o die part tile v bytes e puts
  refine ⟨fun hr ho h16 hw ha => ⟨fun hp => restag_window hr ho h16 hw ha hp, fun line cached hp hz h64 hx hl =>
    restag_pin hr ho h16 hw ha rfl hp hz h64 hx hl⟩, fun e => ⟨fun h => ?_, fun h hl => ?_, fun h hl => ?_, ?_⟩,
    fun hr => ⟨s.resqValue w tile, exec_one hr _ rfl, fun hn => ?_, fun x hx hc => ?_⟩, fun hr => ⟨_, exec_one hr _ rfl, fun x => ?_, ?_⟩⟩
  · rw [State.sillagePut_replaces h]
    exact ⟨rfl, fun x => by rw [State.sillage_setSillage, mem_mapIf_replace h]⟩
  · rw [State.sillagePut_new h hl]
    exact ⟨rfl, State.sillage_setSillage _ _ _⟩
  · exact State.sillagePut_full h hl
  · exact State.sillagePut_frame s die e
  · refine State.resqValue_none (List.find?_eq_none.mpr fun x hx => ?_)
    rw [Sillage.hasKey_iff]
    exact hn x hx
  · obtain ⟨core, hcore, heq, hq⟩ := State.resqValue_some hx hc
    obtain ⟨h63, h62, h42, h32, h0⟩ := resqFields hcore (Nat.mod_lt _ (by decide)) hq
    exact ⟨h63, h62, h42, fun hp => h32.trans (heq hp), h0⟩
  · rw [State.sillage_setSillage, List.mem_filter, Bool.not_eq_true', ← Bool.not_eq_true, Sillage.hasKey_iff]
  · exact ⟨State.setSillage_mem _ _ _, State.setSillage_cores _ _ _⟩

end Sys2Proof.Machine
end

section
namespace Sys2Proof.Machine

/-! ### The numbers of cores and clusters (01 R12, R13) -/

variable {x y c : Nat}

theorem coreAt_lt (hx : x < 40) (hy : y < 16) : coreAt x y < 640 := by
  unfold coreAt
  omega
theorem coreDie_coreAt (hy : y < 16) : coreDie (coreAt x y) = x / 20 := by
  unfold coreDie coreAt
  omega
theorem coreX_coreAt (hy : y < 16) : coreX (coreAt x y) = x := by
  unfold coreX coreAt
  omega
theorem coreY_coreAt (hy : y < 16) : coreY (coreAt x y) = y := by
  unfold coreY coreAt
  omega
theorem coreX_lt (hc : c < 640) : coreX c < 40 := by
  unfold coreX
  omega
theorem coreY_lt (c : Nat) : coreY c < 16 := by
  unfold coreY
  omega
theorem coreAt_coreX_coreY (c : Nat) : coreAt (coreX c) (coreY c) = c := by
  unfold coreAt coreX coreY
  omega

theorem clusterOf_coreAt (hy : y < 16) : clusterOf (coreAt x y) = x / 20 * 20 + y / 4 * 5 + x % 20 / 4 := by
  rw [clusterOf, coreDie_coreAt hy, coreX_coreAt hy, coreY_coreAt hy]
/-- A cluster is a square of four columns and four rows. -/
theorem clusterOf_coreAt_eq_iff {x' y' : Nat} (hy : y < 16) (hy' : y' < 16) :
    clusterOf (coreAt x' y') = clusterOf (coreAt x y) ↔ x' / 4 = x / 4 ∧ y' / 4 = y / 4 := by
  rw [clusterOf_coreAt hy, clusterOf_coreAt hy']
  omega
/-- A die has 20 clusters: those of die d are numbered from 20 d. -/
theorem clusterOf_div (c : Nat) : clusterOf c / 20 = coreDie c := by
  unfold clusterOf coreDie coreY coreX
  omega

/-- The core at the least coordinates of a cluster. -/
def cornerOf (n : Nat) : Nat := coreAt (n / 20 * 20 + n % 5 * 4) (n % 20 / 5 * 4)

theorem cornerOf_spec {n : Nat} (hn : n < 40) : cornerOf n < 640 ∧ clusterOf (cornerOf n) = n := by
  have hx : n / 20 * 20 + n % 5 * 4 < 40 := by omega
  have hy : n % 20 / 5 * 4 < 16 := by omega
  refine ⟨coreAt_lt hx hy, (clusterOf_coreAt hy).trans ?_⟩
  omega

/-- The clusters of a die. -/
theorem exists_core_of_cluster {d n : Nat} (hn : n < 40) :
    (∃ c < 640, coreDie c = d ∧ clusterOf c = n) ↔ d * 20 ≤ n ∧ n < (d + 1) * 20 := by
  constructor
  · rintro ⟨c, hc, rfl, rfl⟩
    have h := clusterOf_div c
    omega
  · intro h
    obtain ⟨hlt, hcl⟩ := cornerOf_spec hn
    refine ⟨cornerOf n, hlt, ?_, hcl⟩
    rw [← clusterOf_div, hcl]
    omega

/-- The power manager's tables are per cluster (12 R258). -/
theorem profile_eq_of_cluster {c d : Nat} (s : State) (h : clusterOf c = clusterOf d) :
    s.profile c = s.profile d ∧ s.arrayShare c = s.arrayShare d := by
  unfold State.profile State.arrayShare
  rw [h]
  exact ⟨rfl, rfl⟩

/-- A core set of kind 1 names cores of its cluster (07 R162). -/
theorem mem_decodeCoreSet_cluster {v : Nat} {set : List Nat} (hk : bitsOf v 30 2 = 1) (hs : decodeCoreSet v = some set) {c : Nat}
    (hc : c ∈ set) : c < 640 ∧ clusterOf c = bitsOf v 0 6 := by
  simp only [decodeCoreSet, hk, Option.ite_none_right_eq_some, Option.some.injEq] at hs
  obtain ⟨-, rfl⟩ := hs
  simp only [List.mem_filter, List.mem_range, Bool.and_eq_true, beq_iff_eq] at hc
  exact ⟨hc.1, hc.2.1⟩

/-- Settles O60: both numberings are the arithmetic of a die's 20 columns and 16 rows, in squares of four. -/
theorem coreNumbers : Obligations.CoreNumbers := by
  refine ⟨fun x y hx hy => ?_, fun c hc => ⟨coreX_lt hc, coreY_lt c, coreAt_coreX_coreY c⟩, rfl, rfl, rfl,
    fun d _ n hn => exists_core_of_cluster hn, fun s c d => profile_eq_of_cluster s, fun v set hk hs c hc => mem_decodeCoreSet_cluster hk hs hc⟩
  have hdie : (if x ≤ 19 then 0 else 1) = x / 20 := by
    split <;> omega
  dsimp only
  rw [hdie]
  refine ⟨rfl, coreAt_lt hx hy, coreDie_coreAt hy, coreX_coreAt hy, coreY_coreAt hy, fun s w hw => hw, clusterOf_coreAt hy, ?_,
    fun x' y' _ => clusterOf_coreAt_eq_iff hy⟩
  rw [clusterOf_coreAt hy]
  omega

end Sys2Proof.Machine
end

section
namespace Sys2Proof.Machine

/-! ### Sorting and picking -/

section Sorting
variable {α : Type} (key : α → Nat)

theorem insertBy_perm (x : α) (l : List α) : (insertBy key x l).Perm (x :: l) := by
  induction l with
  | nil => exact .refl _
  | cons y t ih =>
    unfold insertBy
    split
    · exact .refl _
    · exact (ih.cons y).trans (.swap x y t)
theorem sortBy_perm (l : List α) : (sortBy key l).Perm l := by
  have h : ∀ a : List α, (l.foldl (fun a x => insertBy key x a) a).Perm (l ++ a) := by
    induction l with
    | nil => exact .refl
    | cons x t ih => exact fun a => (ih _).trans (((insertBy_perm key x a).append_left t).trans List.perm_middle)
  exact (h []).trans (.of_eq (List.append_nil l))

end Sorting

/-! ### The thread group (11 R247, R248) -/

/-- A group is at most 32 of the ready threads that stand at its context and PC. -/
theorem groupAt_spec (c : Nat) (s : State) (ready : List Cand) (x : Cand) :
    (groupAt c s ready x).tids.length ≤ 32 ∧
      ∀ n ∈ (groupAt c s ready x).tids, ∃ y ∈ ready, y.ctx = (groupAt c s ready x).ctx ∧ y.tid = n ∧ y.pc = (groupAt c s ready x).pc := by
  unfold groupAt
  extract_lets same cross team tids
  have hsame : ∀ y ∈ same, y ∈ ready ∧ y.ctx = x.ctx ∧ y.pc = x.pc := fun y hy => by
    have h := (sortBy_perm _ _).mem_iff.mp hy
    simp only [List.mem_filter, Bool.and_eq_true, beq_iff_eq] at h
    exact ⟨h.1, h.2.1.1, h.2.1.2⟩
  clear_value same cross
  have hteam : ∀ y ∈ same, ∀ n ∈ team y, ∃ z ∈ same, z.tid = n := fun y hy n hn => by
    unfold team at hn
    split at hn
    · exact ⟨y, hy, (List.mem_singleton.mp hn).symm⟩
    · dsimp only at hn
      split at hn
      · obtain ⟨z, hz, rfl⟩ := List.mem_map.mp hn
        exact ⟨z, (List.mem_filter.mp hz).1, rfl⟩
      · exact ⟨y, hy, (List.mem_singleton.mp hn).symm⟩
  have htids : tids.length ≤ 32 ∧ ∀ n ∈ tids, ∃ z ∈ same, z.tid = n := by
    refine List.foldlRecOn (motive := fun l : List Nat => l.length ≤ 32 ∧ ∀ n ∈ l, ∃ z ∈ same, z.tid = n) same _
      ⟨Nat.zero_le _, fun _ hn => absurd hn List.not_mem_nil⟩ fun l hl y hy => ?_
    split
    · exact hl
    · split
      · next hlen =>
        refine ⟨by rwa [List.length_append], fun n hn => ?_⟩
        exact (List.mem_append.mp hn).elim (hl.2 n) (hteam y hy n)
      · exact hl
  have hsorted := sortBy_perm id tids
  refine ⟨hsorted.length_eq ▸ htids.1, fun n hn => ?_⟩
  obtain ⟨z, hz, hzn⟩ := htids.2 n (hsorted.mem_iff.mp hn)
  obtain ⟨hr, hctx, hpc⟩ := hsame z hz
  exact ⟨z, hr, hctx, hzn, hpc⟩

/-- What the picker chooses is the group of a thread. -/
theorem pickGroup_eq_groupAt {c k : Nat} {s : State} {ready : List Cand} {g : Group} (h : pickGroup c s ready k = some g) :
    ∃ x, g = groupAt c s ready x := by
  simp only [pickGroup] at h
  split at h
  · exact ⟨_, (Option.some.inj h).symm⟩
  · split at h
    · cases h
    · obtain ⟨x, -, hx⟩ := Option.map_eq_some_iff.mp h
      exact ⟨x, hx.symm⟩

theorem pickGroup_nil (c k : Nat) (s : State) : pickGroup c s [] k = none := rfl

/-! ### Running a group (02 R44; 11 R249; 08 R184) -/

/-- Without a cross-lane word every thread commits by itself. -/
theorem State.teams_of_crossMask_none {s : State} {c k : Nat} {tids : List Nat} {b : Bundle} (h : crossMask b = none) :
    s.teams c k tids b = tids.map fun t => [t] := by
  simp only [State.teams, h]

/-- Of two threads the second runs after the first, unless an engine is full for it. -/
theorem runGroup_pair {c k n m : Nat} {b : Bundle} {seen : Memory} {s s1 : State} {f1 : Fate} {t1 : Tally} (hb : crossMask b = none)
    (h1 : issueTogether c k false [n] b seen {} s = (f1, t1, s1)) :
    (f1 = .full → runGroup c k [n, m] b seen s = (true, t1, s1)) ∧
      ∀ f2 t2 s2, f1 ≠ .full → issueTogether c k false [m] b seen t1 s1 = (f2, t2, s2) →
        runGroup c k [n, m] b seen s = (f2 == .full, t2, s2) := by
  simp only [runGroup, State.teams_of_crossMask_none hb, List.map_cons, List.map_nil, List.foldl_cons, List.foldl_nil, h1]
  refine ⟨fun hf => ?_, fun f2 t2 s2 hf h2 => ?_⟩
  · subst hf
    rfl
  · cases f1 with
    | full => exact absurd rfl hf
    | done | waits =>
      simp only [Bool.false_eq_true, if_false, h2]
      cases f2 <;> rfl

/-- A group whose members all stand at a bundle still issues it as one. -/
theorem issueThreads_run {c n : Nat} {rest : List Nat} {seen : Memory} {s s1 : State} {g : Group} {b : Bundle} (hg : g.tids = n :: rest)
    (hall : (g.tids.filter fun n => s.present { core := c, ctx := g.ctx, tid := some n } &&
      (s.strand { core := c, ctx := g.ctx, tid := some n }).pc == g.pc) = g.tids)
    (hn : s.nextOf { core := c, ctx := g.ctx, tid := some n } = (.run b, s1)) :
    issueThreads c seen s g = issueGroup c g.ctx g.tids b seen s1 := by
  have hwhos : ((g.tids.map fun t => ({ core := c, ctx := g.ctx, tid := some t } : Who)).filter fun w =>
      s.present w && (s.strand w).pc == g.pc) = g.tids.map fun t => { core := c, ctx := g.ctx, tid := some t } := by
    rw [List.filter_map]
    exact congrArg _ hall
  have hkeys : (g.tids.map fun t => ({ core := c, ctx := g.ctx, tid := some t } : Who)).map Who.key = g.tids := by
    rw [List.map_map]
    exact List.map_id _
  simp only [issueThreads, hwhos, hkeys]
  simp only [hg, List.map_cons, hn]

/-! ### The parts of a cycle (11 R247; 12 R255, R257)

A cycle falls into the judging of the threads, the choice of those that are able to issue, and what the plan for them comes to. -/

/-- The threads that could issue, judged once barriers have completed, and the state that the judging leaves. -/
def cycleScan (c : Nat) (s : State) : List Cand × State :=
  scanThreads c (completeBars c (scanThreads c (beginCycle c s)).2)

/-- Those of them whose joins are complete and whose groups the engines take beside the lead bundle. -/
def ableThreads (c : Nat) (lead : Option (Nat × Next)) (all : List Cand) (s : State) : List Cand :=
  (all.filter (joinComplete c s all)).filter (engineFits c s lead (all.filter (joinComplete c s all)))

/-- Those that the FP64 lane takes. -/
def readyThreads (c : Nat) (able : List Cand) (s : State) : List Cand :=
  able.filter fun x => !((s.core c).fp64Full && x.n.fp64)

theorem readyThreads_nil (c : Nat) (s : State) : readyThreads c [] s = [] := rfl

/-- The highest class of the two cycles before. -/
def Core.topClass (co : Core) : Nat := co.classes.foldl max 0
/-- The sum of the charges in the window. -/
def Core.chargeSum (co : Core) : Nat := co.charges.foldl (· + ·) 0

/-- The state in which the cycle's bundles issue under a plan. -/
def planned (c : Nat) (ready : List Cand) (plan : ThreadPlan) (s : State) : State :=
  (match plan.picked with | some g => countPick c (s.core c).topClass ready g plan.hold.isSome s | none => s).modCore c fun co =>
    { co with held := nextHeld co.held plan }

/-- What the cycle charges for a plan: the lead bundle and the group, each where it counts. -/
def chargeOf (lead : Option (Nat × Next)) (now : Option Group) (first any : Bool) : Nat :=
  (if first then (lead.map fun x => x.2.charge).getD 0 else 0) + if any then (now.map fun g => g.n.charge).getD 0 else 0
/-- The class of what issued. -/
def classOf (lead : Option (Nat × Next)) (now : Option Group) (first any : Bool) : Nat :=
  max (if first then (lead.map fun x => x.2.cls).getD 0 else 0) (if any then (now.map fun g => g.n.cls).getD 0 else 0)

/-- The lead bundle and the plan issue where the profile admits their charges, else the cycle is a stall. -/
def carryOut (c : Nat) (lead : Option (Nat × Next)) (able : List Cand) (plan : ThreadPlan) (s : State) : State :=
  if s.profile c < (s.core c).chargeSum + chargeOf lead plan.now true true then endCycle c 0 0 false true s
  else
    let (first, any, t) := issueCycle c lead plan.now (planned c (readyThreads c able s) plan s)
    endCycle c (chargeOf lead plan.now first any) (classOf lead plan.now first any)
      (any && (plan.now.map fun g => g.n.fp64).getD false) false (ageDry c able t)

theorem runCycle_eq_carryOut {c : Nat} {s v u : State} {lead : Option (Nat × Next)} {able : List Cand}
    (hp : pickLead c (cycleScan c s).2 = (lead, v)) (hable : ableThreads c lead (cycleScan c s).1 v = able) (hu : ageThreads c able v = u) :
    runCycle c s = carryOut c lead able (planThreads c u (readyThreads c able u) (u.core c).topClass) u := by
  rw [← hu, ← hable]
  unfold runCycle cycleScan at *
  dsimp only
  generalize scanThreads c (completeBars c (scanThreads c (beginCycle c s)).2) = q at hp ⊢
  obtain ⟨all, w⟩ := q
  dsimp only at hp ⊢
  rw [hp]
  rfl

theorem getD_map_eq_elim {α : Type} (o : Option α) (f : α → Nat) : (o.map f).getD 0 = o.elim 0 f := by
  cases o <;> rfl

theorem chargeOf_lead (x : Nat × Next) (first any : Bool) : chargeOf (some x) none first any = if first then x.2.charge else 0 := by
  cases any <;> rfl
theorem classOf_lead (x : Nat × Next) (first any : Bool) : classOf (some x) none first any = if first then x.2.cls else 0 := by
  cases any <;> exact Nat.max_zero _
theorem chargeOf_group (lead : Option (Nat × Next)) (g : Group) (led : Bool) :
    chargeOf lead (some g) led true = (if led then lead.elim 0 fun x => x.2.charge else 0) + g.n.charge := by
  rw [chargeOf, getD_map_eq_elim]
  rfl
theorem classOf_group (lead : Option (Nat × Next)) (g : Group) (led : Bool) :
    classOf lead (some g) led true = max (if led then lead.elim 0 fun x => x.2.cls else 0) g.n.cls := by
  rw [classOf, getD_map_eq_elim]
  rfl

section Outcomes
variable {c : Nat} {lead : Option (Nat × Next)} {able : List Cand} {plan : ThreadPlan} {s : State}

theorem carryOut_stalls (h : s.profile c < (s.core c).chargeSum + chargeOf lead plan.now true true) :
    carryOut c lead able plan s = endCycle c 0 0 false true s := if_pos h

theorem carryOut_issues {first any : Bool} {t : State}
    (h : (s.core c).chargeSum + chargeOf lead plan.now true true ≤ s.profile c)
    (hi : issueCycle c lead plan.now (planned c (readyThreads c able s) plan s) = (first, any, t)) :
    carryOut c lead able plan s = endCycle c (chargeOf lead plan.now first any) (classOf lead plan.now first any)
      (any && (plan.now.map fun g => g.n.fp64).getD false) false (ageDry c able t) := by
  rw [carryOut, if_neg (Nat.not_lt.mpr h), hi]

end Outcomes

/-! ### Plans of a core that holds no group (11 R247; 19 R312) -/

theorem State.modCore_congr {s : State} {c : Nat} {f g : Core → Core} (h : f (s.core c) = g (s.core c)) :
    s.modCore c f = s.modCore c g := by
  rw [State.modCore, h]
  rfl

section NoneHeld
variable {c k : Nat} {s : State} {ready : List Cand} (hheld : (s.core c).held = none)
include hheld

theorem planThreads_nothing (hg : pickGroup c s ready k = none) : planThreads c s ready k = {} := by
  simp only [planThreads, hheld, hg]
theorem planThreads_group {g : Group} (hg : pickGroup c s ready k = some g) (hb : bankPasses c s g ≤ 1) :
    planThreads c s ready k = { now := some g, picked := some g } := by
  simp only [planThreads, hheld, hg, hb, if_true]

theorem planned_nothing : planned c ready {} s = s.modCore c fun co => { co with held := none } :=
  State.modCore_congr (by rw [hheld]; rfl)
theorem planned_group (g : Group) : planned c ready { now := some g, picked := some g } s =
    (countPick c (s.core c).topClass ready g false s).modCore c fun co => { co with held := none } := by
  refine State.modCore_congr ?_
  have hcount : ((countPick c (s.core c).topClass ready g false s).core c).held = none := by
    rw [countPick, State.modCore_core]
    exact hheld
  dsimp only [Option.isSome_none]
  rw [hcount]
  rfl

end NoneHeld

/-- The cycle of a core none of whose threads could issue. -/
theorem runCycle_of_no_thread {c : Nat} {s v : State} {lead : Option (Nat × Next)} (hp : pickLead c (cycleScan c s).2 = (lead, v))
    (hs : (cycleScan c s).1 = []) (hheld : ((ageThreads c [] v).core c).held = none) :
    runCycle c s = carryOut c lead [] {} (ageThreads c [] v) := by
  rw [runCycle_eq_carryOut (able := []) hp (by rw [hs]; rfl) rfl, readyThreads_nil, planThreads_nothing hheld (pickGroup_nil ..)]

/-- The cycle of a core whose picker chooses a group that needs one pass of the scratchpad. -/
theorem runCycle_of_group {c : Nat} {s v u : State} {lead : Option (Nat × Next)} {able : List Cand} {g : Group}
    (hp : pickLead c (cycleScan c s).2 = (lead, v)) (hable : ableThreads c lead (cycleScan c s).1 v = able) (hu : ageThreads c able v = u)
    (hheld : (u.core c).held = none) (hg : pickGroup c u (readyThreads c able u) (u.core c).topClass = some g) (hb : bankPasses c u g ≤ 1) :
    runCycle c s = carryOut c lead able { now := some g, picked := some g } u := by
  rw [runCycle_eq_carryOut hp hable hu, planThreads_group hheld hg hb]

theorem issueCycle_nothing (c : Nat) (s : State) : issueCycle c none none s = (false, false, s) := rfl
theorem issueCycle_lead {c : Nat} {x : Nat × Next} {s t : State} {first : Bool} (h : issueLead c s x = (first, t)) :
    issueCycle c (some x) none s = (first, false, t) := by
  simp only [issueCycle, h]

/-- The lead bundle by itself issues where the profile admits its charge. -/
theorem carryOut_lead {c : Nat} {x : Nat × Next} {able : List Cand} {s t : State} {first : Bool} (hheld : (s.core c).held = none)
    (hle : (s.core c).chargeSum + x.2.charge ≤ s.profile c)
    (hi : issueLead c (s.modCore c fun co => { co with held := none }) x = (first, t)) :
    carryOut c (some x) able {} s = endCycle c (if first then x.2.charge else 0) (if first then x.2.cls else 0) false false
      (ageDry c able t) := by
  rw [← planned_nothing (ready := readyThreads c able s) hheld] at hi
  rw [carryOut_issues (plan := {}) (by rw [chargeOf_lead]; exact hle) (issueCycle_lead hi), chargeOf_lead, classOf_lead]
  rfl

/-- A group issues beside the lead bundle where the profile admits the charges of both. -/
theorem carryOut_group {c : Nat} {lead : Option (Nat × Next)} {g : Group} {able : List Cand} {s t : State} {led : Bool}
    (hheld : (s.core c).held = none)
    (hle : (s.core c).chargeSum + ((lead.elim 0 fun x => x.2.charge) + g.n.charge) ≤ s.profile c)
    (hi : issueCycle c lead (some g) ((countPick c (s.core c).topClass (readyThreads c able s) g false s).modCore c fun co =>
      { co with held := none }) = (led, true, t)) :
    carryOut c lead able { now := some g, picked := some g } s =
      endCycle c ((if led then lead.elim 0 fun x => x.2.charge else 0) + g.n.charge)
        (max (if led then lead.elim 0 fun x => x.2.cls else 0) g.n.cls) g.n.fp64 false (ageDry c able t) := by
  rw [← planned_group hheld] at hi
  rw [carryOut_issues (plan := { now := some g, picked := some g }) (by rw [chargeOf_group]; exact hle) hi, chargeOf_group, classOf_group]
  rfl

/-! ### An idle core (12 R255) -/

/-- Two states differ in nothing but the matrix unit of a core and what its operations hold, which stay as many. -/
structure OnlyEngine (c : Nat) (s t : State) : Prop where
  rest : { t with cores := s.cores } = s
  other : ∀ d, d ≠ c → t.core d = s.core d
  core : { t.core c with ops := (s.core c).ops, mx := (s.core c).mx } = s.core c
  ops : (t.core c).ops.length = (s.core c).ops.length

theorem OnlyEngine.refl (c : Nat) (s : State) : OnlyEngine c s s := ⟨rfl, fun _ _ => rfl, rfl, rfl⟩
theorem OnlyEngine.trans {c : Nat} {s t u : State} (h : OnlyEngine c s t) (k : OnlyEngine c t u) : OnlyEngine c s u where
  rest := by rw [← h.rest, ← k.rest]
  other := fun d hd => (k.other d hd).trans (h.other d hd)
  core := by
    have hcore := h.core
    rw [← k.core] at hcore
    exact hcore
  ops := k.ops.trans h.ops

/-- A change of a core that keeps all but these. -/
theorem OnlyEngine.modCore {c : Nat} {s : State} {f : Core → Core}
    (hf : { f (s.core c) with ops := (s.core c).ops, mx := (s.core c).mx } = s.core c)
    (hl : (f (s.core c)).ops.length = (s.core c).ops.length) : OnlyEngine c s (s.modCore c f) where
  rest := rfl
  other := fun d hd => State.setCore_core_other s c d _ hd
  core := by rwa [State.modCore_core]
  ops := by rwa [State.modCore_core]

theorem OnlyEngine.modOp (s : State) (c id : Nat) (f : Op → Op) : OnlyEngine c s (s.modOp c id f) :=
  OnlyEngine.modCore rfl (List.length_map _)
theorem OnlyEngine.modMx (s : State) (c : Nat) (f : Mx → Mx) : OnlyEngine c s (s.modMx c f) := OnlyEngine.modCore rfl rfl

theorem OnlyEngine.streamGroups (s : State) (c id n : Nat) : OnlyEngine c s (s.streamGroups c id n) := by
  fun_induction State.streamGroups with
  | case1 => exact .refl _ _
  | case2 => exact .refl _ _
  | case3 => exact .refl _ _
  | case4 s n o ho g hg m micro word cost hh ih => exact (OnlyEngine.modOp ..).trans ih
  | case5 s n o ho g hg m micro word cost hh rows s1 ih => exact ((OnlyEngine.modOp ..).trans (OnlyEngine.modMx ..)).trans ih
theorem OnlyEngine.streamTile (s : State) (c id : Nat) : OnlyEngine c s (s.streamTile c id) := by
  unfold State.streamTile
  split
  · exact .refl c s
  · exact .streamGroups ..
/-- Streaming goes on within the core's engine. -/
theorem OnlyEngine.streamTiles (s : State) (c : Nat) : OnlyEngine c s (s.streamTiles c) :=
  foldl_keeps (OnlyEngine c s) _ _ s (.refl c s) fun t o ht => ht.trans (.streamTile t c o.id)

section Kept
variable {c : Nat} {s t : State} (h : OnlyEngine c s t)
include h

theorem OnlyEngine.cyc : (t.core c).cyc = (s.core c).cyc := (congrArg Core.cyc h.core :)
theorem OnlyEngine.stall : (t.core c).stall = (s.core c).stall := (congrArg Core.stall h.core :)
theorem OnlyEngine.charges : (t.core c).charges = (s.core c).charges := (congrArg Core.charges h.core :)
theorem OnlyEngine.classes : (t.core c).classes = (s.core c).classes := (congrArg Core.classes h.core :)
theorem OnlyEngine.held : (t.core c).held = (s.core c).held := (congrArg Core.held h.core :)
theorem OnlyEngine.ctxs : (t.core c).ctxs = (s.core c).ctxs := (congrArg Core.ctxs h.core :)
theorem OnlyEngine.ps : t.ps = s.ps := (congrArg State.ps h.rest :)
theorem OnlyEngine.mem : t.mem = s.mem := (congrArg State.mem h.rest :)
theorem OnlyEngine.ctl : t.ctl = s.ctl := (congrArg State.ctl h.rest :)
theorem OnlyEngine.profile : t.profile c = s.profile c := by
  rw [State.profile, State.ctlF, State.ctl64, h.ctl]
  rfl
theorem OnlyEngine.ops_isEmpty : (t.core c).ops.isEmpty = (s.core c).ops.isEmpty := by
  rw [Bool.eq_iff_iff, List.isEmpty_iff_length_eq_zero, List.isEmpty_iff_length_eq_zero, h.ops]

end Kept

section NoContext
variable {c : Nat} {s : State} (h : (s.core c).ctxs = [])
include h

theorem scanThreads_of_no_ctx : scanThreads c s = ([], s) := by
  rw [scanThreads, h, List.foldl_nil]
theorem pickLead_of_no_ctx : pickLead c s = (none, s) := by
  simp only [pickLead, h, List.foldl_nil]
  rfl
theorem markSaved_of_no_ctx : markSaved c s = s := by
  rw [markSaved, h, List.foldl_nil]
theorem stopMarked_of_no_ctx : stopMarked c s = s := by
  rw [stopMarked, h, List.foldl_nil]
/-- No barrier completes where no thread waits at one. -/
theorem completeBars_of_no_ctx : completeBars c s = s := by
  refine foldl_keeps (· = s) _ _ s rfl fun t r ht => ?_
  subst ht
  simp only [State.launchThreads, h, List.flatMap_nil, List.isEmpty_nil, Bool.not_true, Bool.false_and, Bool.false_eq_true, if_false]
/-- A change of its contexts finds none. -/
theorem OnlyEngine.mapCtxs (f : Core → Nat × Ctx → Nat × Ctx) :
    OnlyEngine c s (s.modCore c fun co => { co with ctxs := co.ctxs.map (f co) }) :=
  OnlyEngine.modCore (by rw [h, List.map_nil, ← h]) rfl
theorem ageThreads_onlyEngine : OnlyEngine c s (ageThreads c [] s) := OnlyEngine.mapCtxs h _
theorem beginCycle_onlyEngine : OnlyEngine c s (beginCycle c s) := by
  have hstream := (OnlyEngine.mapCtxs h fun co e =>
    (e.1, e.2.newCycle (co.ops.any fun o => isDraw o.kind && o.ofCtx e.1 && o.state != .complete && !o.pushedAll))).trans
    (OnlyEngine.streamTiles _ c)
  have hctxs := hstream.ctxs.trans h
  unfold beginCycle
  dsimp only
  rwa [markSaved_of_no_ctx hctxs, stopMarked_of_no_ctx hctxs]

/-- The cycle of a core without a context: it ends, a stall where the charges in the window pass the profile. -/
theorem runCycle_of_no_ctx (hheld : (s.core c).held = none) :
    ∃ u, OnlyEngine c s u ∧ runCycle c s = endCycle c 0 0 false (decide (s.profile c < (s.core c).chargeSum)) u := by
  have hbegin := beginCycle_onlyEngine h
  have hctxs := hbegin.ctxs.trans h
  have hscan : cycleScan c s = ([], beginCycle c s) := by
    simp only [cycleScan, scanThreads_of_no_ctx hctxs, completeBars_of_no_ctx hctxs]
  have hu := hbegin.trans (ageThreads_onlyEngine hctxs)
  have hnone := hu.held.trans hheld
  have hrun : runCycle c s = carryOut c none [] {} (ageThreads c [] (beginCycle c s)) :=
    runCycle_of_no_thread (by rw [hscan, pickLead_of_no_ctx hctxs]) (by rw [hscan]) hnone
  generalize ageThreads c [] (beginCycle c s) = u at hu hnone hrun
  have hsum : (u.core c).chargeSum = (s.core c).chargeSum := congrArg (List.foldl (· + ·) 0) hu.charges
  by_cases hp : s.profile c < (s.core c).chargeSum
  · refine ⟨u, hu, ?_⟩
    rw [hrun, decide_eq_true hp]
    exact carryOut_stalls (by rw [hu.profile, hsum]; exact hp)
  · refine ⟨u.modCore c fun co => { co with held := none }, hu.trans (OnlyEngine.modCore (by rw [← hnone]) rfl), ?_⟩
    rw [hrun, decide_eq_false hp, carryOut_issues (by rw [hu.profile, hsum]; exact Nat.not_lt.mp hp) (issueCycle_nothing c _),
      planned_nothing hnone]
    rfl

end NoContext

/-! ### The cycle's step -/

theorem exec_coreCycle {c : Nat} {s : State} (h : cycleDue c s = true) :
    exec (.coreCycle c) s = .next (runCycle c { s with ps := max s.ps (s.core c).next }) := by
  show execCoreCycle c s = _
  rw [execCoreCycle, if_pos h]

/-- What a core reads when its cycle has ended. -/
theorem endCycle_core (c charge cls : Nat) (fp64 stalled : Bool) (s : State) :
    (endCycle c charge cls fp64 stalled s).core c =
      { s.core c with
        cyc := (s.core c).cyc + 1, stall := if stalled then (s.core c).stall + 1 else (s.core c).stall
        charges := (charge :: (s.core c).charges).take 63, classes := (cls :: (s.core c).classes).take 2
        fp64 := (fp64 :: (s.core c).fp64).take 15, next := s.ps + 80 * classMultiple ((s.core c).classes.foldl max cls)
        clockOn := (s.core c).ctxs.any (fun e => e.2.resident) || !(s.core c).ops.isEmpty } :=
  State.modCore_core s c fun co => { co with
    cyc := co.cyc + 1, stall := if stalled then co.stall + 1 else co.stall
    charges := (charge :: co.charges).take 63, classes := (cls :: co.classes).take 2, fp64 := (fp64 :: co.fp64).take 15
    next := s.ps + 80 * classMultiple (co.classes.foldl max cls)
    clockOn := co.ctxs.any (fun e => e.2.resident) || !co.ops.isEmpty }
theorem endCycle_core_other {c d : Nat} (charge cls : Nat) (fp64 stalled : Bool) (s : State) (h : d ≠ c) :
    (endCycle c charge cls fp64 stalled s).core d = s.core d := State.setCore_core_other s c d _ h

/-- Settles O55: a cycle is the carrying out of its plan, which is nothing, or the lead bundle's alone, or that of the group the picker
chooses; an idle core's plan is nothing, and its cycle touches only its engine before it ends. -/
theorem coreCycles : Obligations.CoreCycles := by
  intro c s hdue
  rw [exec_coreCycle hdue]
  extract_lets s0 scan sum
  refine ⟨?_, ?_, ?_, ?_, ?_, ?_⟩
  · intro k n s2 hp hs u hheld
    rw [runCycle_of_no_thread hp hs hheld]
    refine ⟨fun t hle hi => ?_, fun t hle hi => ?_, fun hlt => ?_⟩
    · rw [carryOut_lead (x := (k, n)) hheld hle hi]
      rfl
    · rw [carryOut_lead (x := (k, n)) hheld hle hi]
      rfl
    · exact congrArg Host.Outcome.next (carryOut_stalls (by rw [chargeOf_lead]; exact hlt))
  · intro lead s2 hp able u ready k first g hheld hg hb
    have hrun : runCycle c s0 = carryOut c lead able { now := some g, picked := some g } u :=
      runCycle_of_group hp rfl rfl hheld hg hb
    rw [hrun]
    refine ⟨fun hlt => ?_, fun led t hle hi => ?_⟩
    · rw [carryOut_stalls (by rw [chargeOf_group]; exact hlt)]
    · rw [carryOut_group hheld hle hi]
  · intro ready k g hg
    obtain ⟨x, rfl⟩ := pickGroup_eq_groupAt hg
    exact groupAt_spec c s ready x
  · intro g b s1 seen hall hnext hne r
    obtain ⟨n, rest, hn⟩ := List.exists_cons_of_ne_nil hne
    exact issueThreads_run hn hall (hnext n rest hn)
  · intro ctx n m b seen f1 f2 t1 t2 s1 s2 hb h1
    exact ⟨(runGroup_pair hb h1).1, (runGroup_pair hb h1).2 f2 t2 s2⟩
  · intro hctxs hheld
    obtain ⟨u, hu, hrun⟩ := runCycle_of_no_ctx (s := s0) hctxs hheld
    refine ⟨_, congrArg _ hrun, ?_⟩
    simp only [endCycle_core]
    have hnext : List.foldl max 0 (u.core c).classes = List.foldl max 0 (s.core c).classes := congrArg _ hu.classes
    refine ⟨congrArg (· + 1) hu.cyc, ?_, ?_, ?_, hu.ps, hu.mem, fun d hd => (endCycle_core_other _ _ _ _ _ hd).trans (hu.other d hd)⟩
    · rw [hu.stall]
      simp only [decide_eq_true_eq]
      rfl
    · rw [hu.ctxs.trans hctxs, hu.ops_isEmpty]
      rfl
    · rw [hnext, hu.ps]

end Sys2Proof.Machine
end

section
namespace Sys2Proof.Laws.SlotWord

/-- Every well-formed word, constructor by constructor. -/
theorem of_instr (i : Instr) : Statement i :=
  Instr.casesOn i iadd isub imul imad icmp icmpD iand ior ixor ishl ishr isra imin imax iminu imaxu imulh imulhu iabs popc clz
    brev bfe bfi lea plop pset p2g g2p iaddD iaddImm ishlImm ishrImm israImm iandImm isel movi movh movh20 fadd fsub fmul ffma
    ffms pkfmaF16 pkfmaBf16 fmin fmax pkaddF16 pkaddBf16 frnd fclass faddRm fsubRm fmulRm dadd dmul dfma ddiv fdiv dcmp dmin dmax
    daddRm dmulRm dsqrt fsqrt fexp2 flog2 fsin fcos frcp frsq fcmp qmax qcvtI8 qcvtCb4 dqI8 dqCb4 cbsel cvt shflIdx shflUp
    shflDown shflXor voteAny voteAll voteBallot matchLanes scanAdd scanAddEx redAdd redMin redMax fredAdd jset jsetGrp join ldg
    lds lda pref cinv cpin cunpin stg sts stgRel stc atomAdd atomMin atomMax atomAnd atomOr atomXor xchg cas xadd xrd xrd64 xclr
    atomsAdd atomsMin atomsMax atomsAnd atomsOr atomsXor atomsXchg atomsCas fenceAcq fenceRel fenceAr drain waitc bar gbara gbarw
    awinit awadd awwait awtest bra call brx callx ret exit nop endl brk loopLc0 loopLc1 loopp item cpy cpyTag cpys gath mxcfg
    mxshape mxldw mxq mxdrain cbload ntake npass ntest ray rayAny ovlp refit draw drawEz tenq tdec lnch iqpush wave iqclose wavew
    setdl restag resq resdrop movsr csrr csrw svc trap eret wfe evsig tlbinv own ctxsv ctxld emptyBundle taskYield coreCycle
    gbarBatchAdmit loadReturn homeWrite homeRead invalidationAck castArrive invalidationArrive castInstalledReply castRefusedReply
    evictionReport stcCompletion gaugeRateWindow copyPieceLand copySuspend gatherFetchIssue gatherElementReturn mxshapeExecute
    mxldwComplete tileTaskStart tileTaskComplete cbloadComplete rayQueryComplete ovlpQueryComplete refitNode drawQuadPush
    drawComplete dispatchStep launchAccept readyListAgeing spill spillComplete launchComplete dispatcherAccessFault trapDelivery
    watchdogExpiry pageFaultService pageFaultServiceDone faultRingAppend pfrespRetry pfrespFail pkillGo partitionKillDone
    tokenRefill throttleQuarter qosregWrite headurgWrite plcmapWrite plcmapScrubDone clprofWrite lendingTableWrite lendStep
    arrayEnergyPeriod lenderWake lendRecallDone hlqTailWrite owncmdGo transferComplete hostRequest hostRecallReply
    ownerLostTimeout reclaimGo migStart migCopyDone migSwitch migRelease pctlEnWrite keynew keynewDone prootWrite modeWrite
    savebaseWrite fwctlSwitchRequest fwSwitchComplete svcStorageWrite svcStorageRead svcFlush svcAttestationReport svcrespWrite
    mextgoWrite coldReset powerFail ucieModuleTrainFail registerWrite scanOutLine reclaimDone firmwareSlotLoad tlbInvalidationDone

end Sys2Proof.Laws.SlotWord
end

section
namespace Sys2Proof

/-! ### One instruction as a bundle of its own (02 R26 to R39) -/

/-- A word of a slot is put together from its major, its guard and four more fields. -/
theorem encodeWord_eq_mkWord (i : Instr) (h : i.isWord = true) :
    ∃ m d a f, encodeWord i = mkWord (BitVec.ofNat 4 i.info.major) i.guard m d a f := by
  cases i <;> cases h <;> exact ⟨_, _, _, _, rfl⟩

/-- A form that has a second register is lent no immediate (R37). -/
theorem extNeeded_imm_of_bh (i : Instr) (h : (extNeeded i).bh ≠ 0#1) : (extNeeded i).imm = none := by
  cases i <;> trivial

theorem Instr.major_bounds_of_isWord {i : Instr} (h : i.isWord = true) : 0 < i.info.major ∧ i.info.major < 15 :=
  ⟨by cases i <;> exact Nat.succ_pos _, of_decide_eq_true h⟩

/-- What is read of the word of an instruction: its major and its stop bit. -/
theorem encodeWord_major_stop {i : Instr} (h : i.isWord = true) :
    majorOf (encodeWord i) = i.info.major ∧ stopBit (encodeWord i) = true := by
  obtain ⟨m, d, a, f, hw⟩ := encodeWord_eq_mkWord i h
  obtain ⟨hmajor, -, -, -, -, -, hstop⟩ := mkWord_fields (BitVec.ofNat 4 i.info.major) i.guard m d a f
  have := (Instr.major_bounds_of_isWord h).2
  refine ⟨?_, ?_⟩
  · rw [majorOf, hw, hmajor, BitVec.toNat_ofNat, Nat.mod_eq_of_lt (by omega)]
  · rw [stopBit, hw, hstop]
    rfl

/-- The home slot of a word is the first that accepts its major, for either executor. -/
theorem nextSlot_homeSlot (ex : Executor) {i : Instr} (h : i.isWord = true) : nextSlot ex i.info.major 0 = some i.homeSlot := by
  obtain ⟨hpos, hlt⟩ := Instr.major_bounds_of_isWord h
  unfold Instr.homeSlot
  generalize i.info.major = m at hpos hlt
  interval_cases m <;> cases ex <;> rfl

theorem majorAccepts_homeSlot (ex : Executor) {i : Instr} (h : i.isWord = true) : majorAccepts ex i.info.major i.homeSlot = true := by
  have hp := List.find?_some (nextSlot_homeSlot ex h)
  simpa using hp

theorem decodeSlot_encodeWord {i : Instr} (h : i.isWord = true) (hw : i.wf = true) : decodeSlot (extNeeded i) (encodeWord i) = .ok i :=
  Laws.SlotWord.of_instr i h hw

/-! The header of a bundle of one slot. -/

/-- A field that lies in the lower part of a word. -/
theorem extract_within {n m : Nat} (x : BitVec n) (y : BitVec m) (k l : Nat) (h : k + l ≤ m) :
    (x ++ y).extractLsb' k l = y.extractLsb' k l := by
  apply BitVec.eq_of_getLsbD_eq
  intro i hi
  simp only [BitVec.getLsbD_extractLsb', BitVec.getLsbD_append, hi, decide_true, Bool.true_and]
  rw [if_pos (by omega)]

/-- The header of a bundle of one slot, with an extension field. -/
def headerWord (p : SlotPos) (x : BitVec 14) : Word := 0#1 ++ 15#4 ++ oneSlot p ++ 0#10 ++ x

theorem headerWord_fields (p : SlotPos) (x : BitVec 14) :
    let h := headerWord p x
    stopBit h = false ∧ majorOf h = 15 ∧ h.extractLsb' 24 3 = oneSlot p ∧ h.extractLsb' 20 4 = 0#4 ∧ h.extractLsb' 19 1 = 0#1 ∧
      h.extractLsb' 18 1 = 0#1 ∧ h.extractLsb' 14 4 = 0#4 ∧ h.extractLsb' 0 14 = x := by
  have fixed : ∀ k l, 14 ≤ k → (headerWord p x).extractLsb' k l = (0#1 ++ 15#4 ++ oneSlot p ++ 0#10).extractLsb' (k - 14) l :=
    fun k l hk => extract_skip _ x k l hk
  refine ⟨?_, ?_, ?_, ?_, ?_, ?_, ?_, extract_lo _ x⟩
  · rw [stopBit, fixed _ _ (by decide)]
    cases p <;> rfl
  · rw [majorOf, fixed _ _ (by decide)]
    cases p <;> rfl
  all_goals
    rw [fixed _ _ (by decide)]
    cases p <;> rfl

/-- What the extension field gives a slot, when it gives it to one slot alone. -/
def lentTo (p : SlotPos) (e : Ext) (q : SlotPos) : Ext := if q = p then e else {}

/-- The fields of an extension field that lends an immediate (R37). -/
theorem lentImm_fields (k : BitVec 2) (imm : BitVec 8) (d a : BitVec 1) :
    let x := k ++ imm ++ d ++ a ++ 0#2
    x.extractLsb' 12 2 = k ∧ x.extractLsb' 4 8 = imm ∧ x.extractLsb' 3 1 = d ∧ x.extractLsb' 2 1 = a ∧ x.extractLsb' 1 1 = 0#1 ∧
      x.extractLsb' 0 1 = 0#1 := by
  have upper : ∀ n l, 2 ≤ n → (k ++ imm ++ d ++ a ++ 0#2).extractLsb' n l = (k ++ imm ++ d ++ a).extractLsb' (n - 2) l :=
    fun n l hn => extract_skip _ 0#2 n l hn
  refine ⟨?_, ?_, ?_, ?_, extract_within _ 0#2 1 1 (by decide), extract_within _ 0#2 0 1 (by decide)⟩
  · rw [upper _ _ (by decide), extract_skip _ a _ _ (by decide), extract_skip _ d _ _ (by decide), extract_hi]
  · rw [upper _ _ (by decide), extract_skip _ a _ _ (by decide), extract_skip _ d _ _ (by decide), extract_lo]
  · rw [upper _ _ (by decide), extract_skip _ a _ _ (by decide), extract_lo]
  · rw [upper _ _ (by decide), extract_lo]

theorem extOf_encodeX (p : SlotPos) (e : Ext) (h : e.imm = none ∨ e.bh = 0#1) :
    extOf (encodeX p e) = .ok (lentTo p e .a, lentTo p e .b, lentTo p e .c) := by
  obtain ⟨d, a, b, imm⟩ := e
  rcases imm with _ | imm
  · cases p <;> revert d a b <;> decide
  · obtain rfl : b = 0#1 := by simpa using h
    cases p <;> simp only [extOf, encodeX, lentImm_fields] <;> rfl

/-- The bundle of one instruction in one slot, of n words. -/
def Bundle.alone (n : Nat) (p : SlotPos) (i : Instr) : Bundle :=
  ({ words := n, empties := 0, yield := false, marker := false, weight := 0, a := none, b := none, c := none } : Bundle).put p i

/-- A header, and one slot's word that takes what the header lends. -/
theorem decodeHeaded_alone (ex : Executor) (p : SlotPos) (e : Ext) (w : Word) (i : Instr) (he : e.imm = none ∨ e.bh = 0#1)
    (hlead : ex = .lead → e.noHigh = true) (hp : majorAccepts ex (majorOf w) p = true) (hstop : stopBit w = true)
    (hw : decodeSlot e w = .ok i) : decodeHeaded ex (headerWord p (encodeX p e)) [w] = .ok (.alone 2 p i) := by
  obtain ⟨hs, -, hmask, hE, hY, hM, hW, hX⟩ := headerWord_fields p (encodeX p e)
  have hslot : slotAt ex p e w = .ok i := by rw [slotAt, if_pos hp, hw]
  unfold decodeHeaded
  simp only [hs, hmask, hE, hY, hM, hW, hX, extOf_encodeX p e he]
  have hhigh : (ex == .lead && !((lentTo p e .a).noHigh && (lentTo p e .b).noHigh && (lentTo p e .c).noHigh)) = false := by
    cases ex
    case lead =>
      have he := hlead rfl
      cases p <;> simp [lentTo, he] <;> rfl
    case thread => rfl
  rw [hhigh]
  cases p <;> simp [oneSlot, present, placeHeaded, hstop, lentTo, hslot] <;> rfl

/-! A lead strand's registers are below 64, so that no form lends it a high bit. -/

/-- An operand that names no register above 63 first. -/
def Opnd.low : Opnd → Bool
  | .reg n len => len = 0 || n < 64
  | _ => true

theorem Opnd.low_reg (r : Reg) (len : Nat) (h : len ≠ 0) : (Opnd.reg r.toNat len).low = (hi r == 0#1) := by
  have hr : decide (r.toNat < 64) = (hi r == 0#1) := by revert r; decide
  simp [Opnd.low, h, hr]

theorem Opnd.low_of_legal {ex : Executor} {bound : Nat} (hb : bound ≤ 64) {o : Opnd} (h : o.legal ex bound = true) : o.low = true := by
  cases o
  case reg n len =>
    simp only [Opnd.legal, Bool.and_eq_true, decide_eq_true_eq] at h
    simp only [Opnd.low, Bool.or_eq_true, decide_eq_true_eq]
    omega
  all_goals rfl

/-- The registers that the extension field widens are sources or destinations: form by form, each register whose high bit
`extNeeded` lends stands in one of the two lists. -/
theorem noHigh_of_low {i : Instr} (h : i.info.lead = true) (hs : ∀ o ∈ i.srcs .lead ++ i.dsts .lead, o.low = true) :
    (extNeeded i).noHigh = true := by
  cases i <;> cases h
  all_goals
    unfold extNeeded Ext.noHigh
    unfold Instr.srcs Instr.dsts at hs
    simp_all [r1, r2, r64, r128, rsz, Opnd.low_reg, apply_ite Opnd.low, or_imp, forall_and]

theorem noHigh_of_legal {i : Instr} {bound : Nat} (hb : bound ≤ 64) (h : i.legalFor .lead bound = true) : (extNeeded i).noHigh = true := by
  simp only [Instr.legalFor, Bool.and_eq_true, reduceCtorEq, if_false, List.all_eq_true] at h
  obtain ⟨⟨⟨⟨⟨-, hlead⟩, -⟩, hsrcs⟩, hdsts⟩, -⟩ := h
  refine noHigh_of_low hlead fun o ho => Opnd.low_of_legal (ex := .lead) hb ?_
  exact (List.mem_append.mp ho).elim (hsrcs o) (hdsts o)

/-! The whole bundle. -/

theorem Bundle.alone_slots (n : Nat) (p : SlotPos) (i : Instr) : (Bundle.alone n p i).slots = [(p, i)] := by cases p <;> rfl

theorem Bundle.alone_fields (n : Nat) (p : SlotPos) (i : Instr) : (Bundle.alone n p i).words = n ∧ (Bundle.alone n p i).empties = 0 ∧
    (Bundle.alone n p i).yield = false ∧ (Bundle.alone n p i).marker = false := by cases p <;> exact ⟨rfl, rfl, rfl, rfl⟩

/-- A bundle of one legal instruction passes every check: no second slot can write what it writes. -/
theorem Bundle.alone_check {ex : Executor} {bound n : Nat} {p : SlotPos} {i : Instr} (h : i.legalFor ex bound = true) :
    (Bundle.alone n p i).check ex bound = .ok (Bundle.alone n p i) := by
  unfold Bundle.check
  rw [Bundle.alone_slots]
  cases p <;> simp [h, Bundle.alone, Bundle.put]

/-- A word that needs nothing lent, by itself. -/
theorem decodeBundle_word (ex : Executor) {i : Instr} (h : i.isWord = true) (hw : i.wf = true) (he : extNeeded i = {}) :
    decodeBundle ex [encodeWord i] = .ok (.alone 1 i.homeSlot i) := by
  obtain ⟨hmajor, hstop⟩ := encodeWord_major_stop h
  have hi := decodeSlot_encodeWord h hw
  rw [he] at hi
  have hlt := (Instr.major_bounds_of_isWord h).2
  simp only [decodeBundle, hmajor, if_neg (show ¬ i.info.major = 15 by omega), List.getLast?_singleton, Option.any_some, hstop,
    Bool.not_true, Bool.false_eq_true, if_false, placeWords, nextSlot_homeSlot ex h, hi]
  rfl

/-- A word after the header that lends it what it needs. -/
theorem decodeBundle_headed (ex : Executor) {i : Instr} (h : i.isWord = true) (hw : i.wf = true)
    (hlead : ex = .lead → (extNeeded i).noHigh = true) :
    decodeBundle ex [headerWord i.homeSlot (encodeX i.homeSlot (extNeeded i)), encodeWord i] = .ok (.alone 2 i.homeSlot i) := by
  obtain ⟨hmajor, hstop⟩ := encodeWord_major_stop h
  obtain ⟨-, hheader, -⟩ := headerWord_fields i.homeSlot (encodeX i.homeSlot (extNeeded i))
  have hext : (extNeeded i).imm = none ∨ (extNeeded i).bh = 0#1 := or_iff_not_imp_right.mpr (extNeeded_imm_of_bh i)
  rw [decodeBundle, if_pos hheader]
  exact decodeHeaded_alone ex _ _ _ i hext hlead (hmajor ▸ majorAccepts_homeSlot ex h) hstop (decodeSlot_encodeWord h hw)

theorem decodeBundle_encode {ex : Executor} {bound : Nat} {i : Instr} (hb : ex = .lead → bound ≤ 64) (h : i.isWord = true)
    (hl : i.legalFor ex bound = true) : decodeBundle ex (encode i) = .ok (.alone (encode i).length i.homeSlot i) := by
  have hw : i.wf = true := by
    simp only [Instr.legalFor, Bool.and_eq_true] at hl
    obtain ⟨⟨⟨⟨⟨hw, -⟩, -⟩, -⟩, -⟩, -⟩ := hl
    exact hw
  unfold encode
  split
  · next he => exact decodeBundle_word ex h hw he
  · exact decodeBundle_headed ex h hw fun he => noHigh_of_legal (hb he) (he ▸ hl)

/-- Settles O52: the bundle is the instruction alone in its home slot, by its own word or after the header that lends to it. -/
theorem decodeOfEncode : Obligations.DecodeOfEncode := by
  intro ex bound i hb h hl
  obtain ⟨hwords, hempties, hyield, hmarker⟩ := Bundle.alone_fields (encode i).length i.homeSlot i
  exact ⟨_, decodeBundle_encode hb h hl, Bundle.alone_slots _ _ _, hwords, hempties, hyield, hmarker, Bundle.alone_check hl⟩

end Sys2Proof
end

section
namespace Sys2Proof.Machine

/-! ### Returns (02 R33) -/

/-- Registers read the same in both states. -/
def SameRegs (s t : State) : Prop := ∀ (v : Who) (r : Reg), t.reg v r = s.reg v r

theorem SameRegs.trans {s t u : State} (h : SameRegs s t) (k : SameRegs t u) : SameRegs s u := fun v n => (k v n).trans (h v n)

/-- The outstanding accesses of each core are the same, but for whether a load still fills its line. -/
def SameAccesses (s t : State) : Prop :=
  ∀ c, (t.core c).loads.map Load.id = (s.core c).loads.map Load.id ∧ (t.core c).stores = (s.core c).stores

theorem SameAccesses.refl (s : State) : SameAccesses s s := fun _ => ⟨rfl, rfl⟩
theorem SameAccesses.trans {s t u : State} (h : SameAccesses s t) (k : SameAccesses t u) : SameAccesses s u :=
  fun c => ⟨(k c).1.trans (h c).1, (k c).2.trans (h c).2⟩

theorem SameAccesses.load_ids {s t : State} (h : SameAccesses s t) {c id : Nat} (hs : ∀ k ∈ (s.core c).loads, k.id ≠ id) :
    ∀ k ∈ (t.core c).loads, k.id ≠ id := by
  intro k hk
  have hm : k.id ∈ (s.core c).loads.map Load.id := (h c).1 ▸ List.mem_map_of_mem hk
  obtain ⟨l, hl, he⟩ := List.mem_map.mp hm
  exact he ▸ hs l hl

/-! A change of a core or of a context. -/

theorem State.modCore_regs (s : State) (c : Nat) (f : Core → Core) (h : (f (s.core c)).ctxs = (s.core c).ctxs) :
    SameRegs s (s.modCore c f) := by
  rintro ⟨d, k, _ | m⟩ r
  · simp only [State.reg, State.sreg, State.ctx_modCore s c d k f h]
  · simp only [State.reg, State.greg, State.thread, State.ctx_modCore s c d k f h]

theorem State.modCore_accesses (s : State) (c : Nat) (f : Core → Core)
    (hl : (f (s.core c)).loads.map Load.id = (s.core c).loads.map Load.id) (hs : (f (s.core c)).stores = (s.core c).stores) :
    SameAccesses s (s.modCore c f) := by
  intro d
  rw [State.core_modCore]
  split
  · next h => rw [h]; exact ⟨hl, hs⟩
  · exact ⟨rfl, rfl⟩

theorem State.modCtx_accesses (s : State) (c k : Nat) (f : Ctx → Ctx) : SameAccesses s (s.modCtx c k f) :=
  State.modCore_accesses s c _ rfl rfl

theorem State.modStrand_accesses (s : State) (w : Who) (f : Strand → Strand) : SameAccesses s (s.modStrand w f) := by
  unfold State.modStrand State.setStrand
  split <;> exact State.modCtx_accesses _ _ _ _

theorem State.setRegs_accesses (w : Who) (n : Nat) : ∀ (s : State) (r v : Nat), SameAccesses s (s.setRegs w r n v) := by
  induction n with
  | zero => exact fun s _ _ => .refl s
  | succ n ih =>
    intro s r v
    unfold State.setRegs
    split
    · exact (State.modCtx_accesses s _ _ _).trans (ih _ _ _)
    · exact (State.modCtx_accesses s _ _ _).trans (ih _ _ _)

theorem State.setDest_accesses (s : State) (w : Who) (d : Dest) (v : Nat) : SameAccesses s (s.setDest w d v) := by
  unfold State.setDest
  split
  · exact .refl s
  · exact State.setRegs_accesses w _ s _ _

/-! What a return writes depends on the registers alone. -/

theorem State.reg_setSreg (s : State) (c k r : Nat) (x : DWord) (v : Who) (q : Reg) :
    (s.setSreg ⟨c, k, none⟩ r x).reg v q = if v = ⟨c, k, none⟩ ∧ q.toNat = r then x.toNat else s.reg v q := by
  obtain ⟨d, j, _ | m⟩ := v
  · simp only [State.reg, State.sreg_setSreg, Who.eq_iff, and_assoc, true_and]
    split <;> rfl
  · simp only [State.reg, State.greg, State.thread_setSreg, Who.eq_iff, reduceCtorEq, and_false, false_and, if_false]

theorem State.reg_setGreg (s : State) (c k t r : Nat) (x : Word) (v : Who) (q : Reg) :
    (s.setGreg ⟨c, k, some t⟩ t r x).reg v q = if v = ⟨c, k, some t⟩ ∧ q.toNat = r then x.toNat else s.reg v q := by
  obtain ⟨d, j, _ | m⟩ := v
  · simp only [State.reg, State.sreg_setGreg, Who.eq_iff, reduceCtorEq, and_false, false_and, if_false]
  · simp only [State.reg, State.greg_setGreg, Who.eq_iff, Option.some.injEq, and_assoc]
    split <;> rfl

theorem SameRegs.setRegs (w : Who) (n : Nat) : ∀ {s t : State} (_ : SameRegs s t) (r v : Nat),
    SameRegs (s.setRegs w r n v) (t.setRegs w r n v) := by
  obtain ⟨c, k, tid⟩ := w
  induction n with
  | zero => exact fun h _ _ => h
  | succ n ih =>
    intro s t h r v
    rcases tid with _ | m
    · exact ih (fun u q => by rw [State.reg_setSreg, State.reg_setSreg, h]) _ _
    · exact ih (fun u q => by rw [State.reg_setGreg, State.reg_setGreg, h]) _ _

theorem SameRegs.setDest {s t : State} (h : SameRegs s t) (w : Who) (d : Dest) (v : Nat) :
    SameRegs (s.setDest w d v) (t.setDest w d v) := by
  unfold State.setDest
  split
  · exact h
  · exact h.setRegs w _ _ _

/-! What follows the write of the destination leaves registers and outstanding accesses alone. -/

/-- Registers and outstanding accesses are the same. -/
def SettlesReturn (s t : State) : Prop := SameRegs s t ∧ SameAccesses s t

theorem SettlesReturn.refl (s : State) : SettlesReturn s s := ⟨fun _ _ => rfl, .refl s⟩
theorem SettlesReturn.trans {s t u : State} (h : SettlesReturn s t) (k : SettlesReturn t u) : SettlesReturn s u :=
  ⟨h.1.trans k.1, h.2.trans k.2⟩

theorem map_id_mapIf (p : Load → Bool) (l : List Load) : (mapIf p (fun k => { k with fill := false }) l).map Load.id = l.map Load.id := by
  unfold mapIf
  rw [List.map_map]
  congr 1
  funext k
  simp only [Function.comp_apply]
  split <;> rfl

theorem State.dropDemand_settles (s : State) (c : Nat) : SettlesReturn s (s.dropDemand c) :=
  ⟨State.modCore_regs s c _ rfl, State.modCore_accesses s c _ (List.map_map ..) rfl⟩

theorem State.loseDemand_settles (s : State) (c : Nat) (lines : List Nat) : SettlesReturn s (s.loseDemand c lines) :=
  ⟨State.modCore_regs s c _ rfl, State.modCore_accesses s c _ (map_id_mapIf _ _) rfl⟩

theorem State.fillL1_settles (s : State) (c : Nat) (x : L1Line) : SettlesReturn s (s.fillL1 c x) := by
  have h : SettlesReturn s (s.modCore c fun co => { co with l1 := l1Install co.l1 x }) :=
    ⟨State.modCore_regs s c _ rfl, State.modCore_accesses s c _ rfl rfl⟩
  unfold State.fillL1
  dsimp only
  split
  · split
    · exact h
    · exact h
  · exact h

theorem State.returned_settles (s : State) (w : Who) (acquire wide : Bool) : SettlesReturn s (s.returned w acquire wide) := by
  have h : SettlesReturn s (if w.ctx < 8 then s.modStrand w fun x => { x with arr := s.fresh } else s) := by
    split
    · exact ⟨State.reg_modStrand s w _, State.modStrand_accesses s w _⟩
    · exact .refl s
  unfold State.returned
  dsimp only
  generalize (if w.ctx < 8 then s.modStrand w fun x => { x with arr := s.fresh } else s) = u at h
  split
  · exact h.trans (State.dropDemand_settles _ _)
  · exact h

/-- The load leaves the core's list. -/
def State.dropLoad (s : State) (c id : Nat) : State := s.modCore c fun co => { co with loads := co.loads.filter fun k => k.id != id }

theorem State.dropLoad_regs (s : State) (c id : Nat) : SameRegs s (s.dropLoad c id) := State.modCore_regs s c _ rfl
theorem State.dropStore_regs (s : State) (c id : Nat) : SameRegs s (s.dropStore c id) := State.modCore_regs s c _ rfl

theorem State.dropLoad_gone (s : State) (c id : Nat) : ∀ k ∈ ((s.dropLoad c id).core c).loads, k.id ≠ id := by
  simp [State.dropLoad]
theorem State.dropStore_gone (s : State) (c id : Nat) : ∀ k ∈ ((s.dropStore c id).core c).stores, k.id ≠ id := by
  simp [State.dropStore]

/-- The write of a destination, unless the return is discarded. -/
def State.landDest (s : State) (discard : Bool) (w : Who) (d : Dest) (v : Nat) : State := if discard then s else s.setDest w d v

theorem SameRegs.landDest {s t : State} (h : SameRegs s t) (discard : Bool) (w : Who) (d : Dest) (v : Nat) :
    SameRegs (s.landDest discard w d v) (t.landDest discard w d v) := by
  unfold State.landDest
  split
  · exact h
  · exact h.setDest w d v

theorem State.landDest_accesses (s : State) (discard : Bool) (w : Who) (d : Dest) (v : Nat) :
    SameAccesses s (s.landDest discard w d v) := by
  unfold State.landDest
  split
  · exact .refl s
  · exact State.setDest_accesses s w d v

/-- The return of a sound load: the load is gone, its destination is written, and what follows settles. -/
theorem State.returnLoad_sound (s : State) (c : Nat) (l : Load) (d : Line) (h : l.err = 0) :
    SettlesReturn ((s.dropLoad c l.id).landDest l.discard l.who l.dst (lineGet d (l.pa % 64) l.size)) (s.returnLoad c l d false) := by
  have hr := State.returned_settles ((s.dropLoad c l.id).landDest l.discard l.who l.dst (lineGet d (l.pa % 64) l.size))
    l.who l.acquire l.wide
  unfold State.returnLoad
  simp only [h, bne_self_eq_false, Bool.or_self, Bool.false_and, Bool.false_eq_true, if_false]
  refine hr.trans ?_
  unfold State.landDest State.dropLoad
  generalize State.returned _ l.who l.acquire l.wide = u
  split_ifs
  · exact State.loseDemand_settles _ _ _
  · exact State.fillL1_settles _ _ _
  · exact .refl _

theorem State.returnAtomic_sound (s : State) (c : Nat) (t : Store) (h : t.err = 0) :
    SettlesReturn ((s.dropStore c t.id).landDest t.discard t.who t.dst t.value) (s.returnAtomic c t false) := by
  have hr := State.returned_settles ((s.dropStore c t.id).landDest t.discard t.who t.dst t.value) t.who t.acquire t.wide
  unfold State.returnAtomic
  simp only [h, bne_self_eq_false, Bool.or_self, Bool.false_and, Bool.false_eq_true, if_false]
  exact hr

/-! The step. -/

theorem exec_loadReturn_load {s : State} {core id : Nat} {l : Load} {d : Line} (hl : (s.core core).findLoad id = some l)
    (hd : l.data = some d) (hfirst : ∀ k ∈ (s.core core).loads, id ≤ k.id ∨ lineOf k.pa ≠ lineOf l.pa ∨ k.data = none) :
    exec (.loadReturn core id false) s = .next (s.returnLoad core l d false) := by
  have hall : ((s.core core).loads.all fun k => id ≤ k.id || lineOf k.pa != lineOf l.pa || k.data.isNone) = true := by
    simpa [or_assoc] using hfirst
  show execLoadReturn core id false s = _
  simp only [execLoadReturn, hl, hd, hall, if_true]

theorem exec_loadReturn_store {s : State} {core id : Nat} {x : Store} (hl : (s.core core).findLoad id = none)
    (hx : (s.core core).findStore id = some x) (hd : x.done = true) :
    exec (.loadReturn core id false) s = .next (s.returnAtomic core x false) := by
  show execLoadReturn core id false s = _
  simp only [execLoadReturn, hl, hx, hd, if_true]

/-- Settles O38: the access leaves its list before its destination is written, and what follows the write moves no register. -/
theorem returnsLand : Obligations.ReturnsLand := by
  intro s core id
  refine ⟨fun l d hl hd herr hfirst => ?_, fun x hl hx hdone herr => ?_⟩
  · obtain ⟨hregs, haccs⟩ := State.returnLoad_sound s core l d herr
    obtain rfl : l.id = id := by simpa using List.find?_some hl
    refine ⟨_, exec_loadReturn_load hl hd hfirst, State.returnLoad_mem .., ?_, ?_⟩
    · exact (SameAccesses.trans (State.landDest_accesses _ _ _ _ _) haccs).load_ids (State.dropLoad_gone s core l.id)
    · exact (State.dropLoad_regs s core l.id).landDest _ _ _ _ |>.trans hregs
  · obtain ⟨hregs, haccs⟩ := State.returnAtomic_sound s core x herr
    obtain rfl : x.id = id := by simpa using List.find?_some hx
    refine ⟨_, exec_loadReturn_store hl hx hdone, State.returnAtomic_mem .., ?_, ?_⟩
    · rw [(SameAccesses.trans (State.landDest_accesses _ _ _ _ _) haccs core).2]
      exact State.dropStore_gone s core x.id
    · exact (State.dropStore_regs s core x.id).landDest _ _ _ _ |>.trans hregs

end Sys2Proof.Machine
end

section
namespace Sys2Proof.Machine

/-! ### Transfers and calls (05 R119 to R121) -/

theorem overwrites_pc : Overwrites (fun o n : Ctx => { n with str := { n.str with pc := o.str.pc } }) := ⟨fun _ => rfl, fun _ _ _ => rfl⟩
theorem overwrites_thread_pc : Overwrites (fun o n : Thread => { n with str := { n.str with pc := o.str.pc } }) :=
  ⟨fun _ => rfl, fun _ _ _ => rfl⟩

theorem OnlyPcs.setPc (s : State) (w : Who) (pc : DWord) (h : Alive s w) : OnlyPcs s (s.setPc w pc) := by
  obtain ⟨c, k, _ | n⟩ := w
  · exact SameApart.of_modCtx overwrites_pc overwrites_thread_pc s c k _ rfl rfl
  · exact SameApart.of_setThread overwrites_pc (fun _ _ => ⟨rfl, fun _ _ => rfl⟩) overwrites_thread_pc s _ n _ rfl (h n rfl)

theorem State.setPc_pc (s : State) (w : Who) (pc : DWord) (h : Alive s w) : ((s.setPc w pc).strand w).pc = pc :=
  congrArg Strand.pc (State.strand_modStrand s w _ h)

/-- A word that sets the PC of its one executor, to a target that is known to be aligned, goes to the target. -/
theorem goesTo_of_setPc {x : Instr} {target : State → Issue → Who → DWord}
    (hx : ∀ s i w, Runs s i x w → (target s i w).toNat % 4 = 0 → exec x s = .next (s.setPc w (target s i w))) : GoesTo x target :=
  fun s i w hr ha _ ht => ⟨_, hx s i w hr ht, State.setPc_pc s w _ ha, OnlyPcs.setPc s w _ ha⟩

theorem targetAligned_of_mod {t : DWord} (h : t.toNat % 4 = 0) : targetAligned t = true := by
  simpa [targetAligned] using h

theorem State.goTo_aligned {s : State} {i : Issue} {w : Who} {t : DWord} (h : t.toNat % 4 = 0) : s.goTo i w t = s.setPc w t :=
  if_pos (targetAligned_of_mod h)

/-- Settles O13: each word is `setPc` for its executor, a call after the write of its link. -/
theorem transfersAndCalls : Obligations.TransfersAndCalls := by
  refine ⟨fun g a o => ⟨?_, ?_, ?_⟩, fun g a o s i w => ⟨fun hr => ?_, fun hr ht => ?_⟩⟩
  · exact goesTo_of_setPc fun s i w hr _ => exec_one hr _ rfl
  · exact goesTo_of_setPc fun s i w hr ht => (exec_one hr _ rfl).trans (congrArg Host.Outcome.next (State.goTo_aligned ht))
  · exact goesTo_of_setPc fun s i w hr ht => (exec_one hr _ rfl).trans (congrArg Host.Outcome.next (State.goTo_aligned ht))
  · exact exec_one hr _ rfl
  · exact (exec_one hr _ rfl).trans (congrArg Host.Outcome.next (if_pos (targetAligned_of_mod ht)))

end Sys2Proof.Machine
end

section
namespace Sys2Proof.Machine

/-! ### Privilege (02 R40, 03 R66) -/

/-- An executor's privilege is told by launches, tasks and handlers, which PCs leave alone. -/
theorem OnlyPcs.privileged {s t : State} (h : OnlyPcs s t) (w : Who) : t.privileged w = s.privileged w := by
  obtain ⟨hstate, hcores⟩ := h
  have hctx := ((hcores w.core).2 w.ctx).1
  have hlaunches : t.launches = s.launches := (congrArg State.launches hstate :)
  have htask : (t.ctx w.core w.ctx).task = (s.ctx w.core w.ctx).task := (congrArg Ctx.task hctx :)
  have hhandler : (t.ctx w.core w.ctx).handler = (s.ctx w.core w.ctx).handler := (congrArg Ctx.handler hctx :)
  simp only [State.privileged, State.launchOf, State.launch, hlaunches, htask, hhandler]

/-- The trap that a precise trap lists, as its executor stands at the bundle. -/
theorem trapAs_traps (i : Issue) (w : Who) (cause sub : Nat) (va info : DWord) (write : Bool) (s : State) (h : cause ≠ 8 ∧ cause ≠ 9) :
    ((trapAs i w cause sub va info write s).ctx w.core w.ctx).traps =
      (s.ctx w.core w.ctx).traps ++ [{ (s.setPc w i.pc).trapOf w (slotCode i.slot) cause sub va info with write }] := by
  obtain ⟨htraps, -⟩ := State.listTrap_spec (s.setPc w i.pc) w.core w.ctx
    { (s.setPc w i.pc).trapOf w (slotCode i.slot) cause sub va info with write } h
  refine htraps.trans ?_
  rw [State.setPc, State.modStrand_traps]

/-- The privilege check of a privileged form comes before its guard. -/
theorem eachPriv_unprivileged {s : State} {i : Issue} {w : Who} (h : IssuingOne s i w) (hp : s.privileged w = false) (g : Guard)
    (f : Issue → Who → State → State) : eachPriv g f s = .next (trapPrivilege i w s) := by
  rw [eachPriv, onIssue, h.1]
  simp [h.2, hp]

/-- What a privileged form does in a user's hands, whatever its guard. -/
theorem exec_unprivileged {g : Guard} {d a : Reg} {c : BitVec 12} {s : State} {i : Issue} {w : Who} (h : IssuingOne s i w)
    (hp : s.privileged w = false) (hc : csrAssigned c = true) {x : Instr}
    (hx : x ∈ [Instr.csrw g d c, .eret g, .tlbinv g a, .own g a, .ctxsv g a, .ctxld g a]) : exec x s = .next (trapPrivilege i w s) := by
  have hcsrw : exec (.csrw g d c) s = .next (trapPrivilege i w s) := by
    show execCsrw g d c s = _
    rw [execCsrw, onIssue, h.1]
    simp [h.2, hp, hc]
  have each : ∀ f, eachPriv g f s = .next (trapPrivilege i w s) := eachPriv_unprivileged h hp g
  simp only [List.mem_cons, List.not_mem_nil, or_false] at hx
  rcases hx with rfl | rfl | rfl | rfl | rfl | rfl
  · exact hcsrw
  all_goals exact each _

/-- Settles O33: each form is `trapPrivilege` for its executor, which lists a trap of a user and moves no register. -/
theorem privilegeTraps : Obligations.PrivilegeTraps := by
  intro g d a c s i w hi ha hp hc x hx
  obtain ⟨-, hpc, hmem, hregs, -⟩ := trapAs_spec i w 2 0 0#64 0#64 false s (by decide) ha
  refine ⟨_, exec_unprivileged hi hp hc hx, hregs, hmem, hpc, _, trapAs_traps i w 2 0 0#64 0#64 false s (by decide), rfl, rfl, ?_⟩
  have huser : (s.setPc w i.pc).privileged w = false := ((OnlyPcs.setPc s w i.pc ha).privileged w).trans hp
  simp [State.trapOf, huser]

end Sys2Proof.Machine
end

section
namespace Sys2Proof.Machine

/-! ### Empty bundles (02 R31, R34) -/

theorem Alive.modStrand {s : State} {w : Who} (h : Alive s w) (f : Strand → Strand) : Alive (s.modStrand w f) w := by
  intro n hn
  obtain ⟨c, k, m⟩ := w
  obtain rfl : m = some n := hn
  simp [State.modStrand, State.setStrand, State.setThread, Ctx.threads_setThread]

/-! A change of a context that keeps its threads and its strand, or its s-registers. -/

theorem State.strand_modCtx (s : State) (w : Who) (f : Ctx → Ctx) (c k : Nat) (hstr : (f (s.ctx c k)).str = (s.ctx c k).str)
    (hthreads : (f (s.ctx c k)).threads = (s.ctx c k).threads) : (s.modCtx c k f).strand w = s.strand w := by
  obtain ⟨d, j, _ | n⟩ := w
  · simp only [State.strand, State.ctx_modCtx]
    split
    · next h => rw [hstr, h.1, h.2]
    · rfl
  · simp only [State.strand, State.thread, Ctx.thread, State.ctx_modCtx]
    split
    · next h => rw [hthreads, h.1, h.2]
    · rfl

theorem State.modCtx_regs (s : State) (f : Ctx → Ctx) (c k : Nat) (hs : (f (s.ctx c k)).s = (s.ctx c k).s)
    (hthreads : (f (s.ctx c k)).threads = (s.ctx c k).threads) : SameRegs s (s.modCtx c k f) := by
  rintro ⟨d, j, _ | n⟩ r
  · simp only [State.reg, State.sreg, State.ctx_modCtx]
    split
    · next h => rw [hs, h.1, h.2]
    · rfl
  · simp only [State.reg, State.greg, State.thread, Ctx.thread, State.ctx_modCtx]
    split
    · next h => rw [hthreads, h.1, h.2]
    · rfl

/-- An issue slot that passes moves no register and no strand. -/
theorem State.strand_slotSpent (s : State) (w : Who) : (s.slotSpent w).strand w = s.strand w := by
  obtain ⟨c, k, _ | n⟩ := w
  · rfl
  · simp [State.slotSpent, State.strand, State.thread_setThread]

theorem State.slotSpent_regs (s : State) (w : Who) : SameRegs s (s.slotSpent w) := by
  obtain ⟨c, k, _ | n⟩ := w
  · exact fun _ _ => rfl
  · rintro ⟨d, j, _ | m⟩ r
    · simp only [State.slotSpent, State.setThread, State.reg, State.sreg, State.ctx_modCtx]
      split
      · next h => rw [h.1, h.2]; rfl
      · rfl
    · simp only [State.slotSpent, State.reg, State.greg, State.thread_setThread]
      split
      · next h => rw [h.2.2]; simp only [State.thread, h.1, h.2.1]
      · rfl

/-! Entry to a region. -/

theorem State.strand_enterRegion {s : State} {w : Who} (b : Bundle) (h : Alive s w) : (s.enterRegion w b).strand w =
    if (s.strand w).run = 0 ∧ (b.marker = true ∨ (s.strand w).reentry = true) then (s.strand w).enterRegion b.marker else s.strand w := by
  unfold State.enterRegion
  simp only [Bool.and_eq_true, beq_iff_eq, Bool.or_eq_true]
  split
  · exact State.strand_modStrand s w _ h
  · rfl

theorem Alive.enterRegion {s : State} {w : Who} (h : Alive s w) (b : Bundle) : Alive (s.enterRegion w b) w := by
  unfold State.enterRegion
  split
  · exact h.modStrand _
  · exact h

theorem State.enterRegion_regs (s : State) (w : Who) (b : Bundle) : SameRegs s (s.enterRegion w b) := by
  unfold State.enterRegion
  split
  · exact State.reg_modStrand s w _
  · exact fun _ _ => rfl

/-- The region entry and its count after a bundle's first cycle (R34; R358: an entry that a REPLAY begins counts once). -/
theorem State.enterRegion_spec {s : State} {w : Who} (b : Bundle) (h : Alive s w)
    (hre : (s.strand w).reentry = true → (s.strand w).pc = (s.strand w).regionPc) :
    let x := s.strand w
    let y := (s.enterRegion w b).strand w
    y.run = x.run ∧ y.pc = x.pc ∧
    (b.marker = true → x.run = 0 → y.regionPc = x.pc ∧ y.regionCnt = x.regionCnt + 1) ∧
    (b.marker = false ∨ x.run ≠ 0 → y.regionPc = x.regionPc ∧
      y.regionCnt = x.regionCnt + (if x.reentry = true ∧ x.run = 0 then 1 else 0)) := by
  intro x y
  have hy : y = if x.run = 0 ∧ (b.marker = true ∨ x.reentry = true) then x.enterRegion b.marker else x := State.strand_enterRegion b h
  rw [hy]
  have hre' : x.reentry = true → x.pc = x.regionPc := hre
  rcases b.marker <;> rcases hr : x.reentry <;> by_cases h0 : x.run = 0 <;> simp [h0, hr, hre', Strand.enterRegion]

/-! One empty bundle. -/

/-- The strand after one empty bundle of a header's run: the run goes on, or the PC moves past the header. -/
theorem issueEmpty_strand {s : State} {w : Who} (b : Bundle) (h : Alive s w) :
    let y := (s.enterRegion w b).strand w
    let z := (issueEmpty w b true s).strand w
    z.regionPc = y.regionPc ∧ z.regionCnt = y.regionCnt ∧
    (y.run + 1 = b.empties → z.run = 0 ∧ z.pc = y.pc + 4#64) ∧ (y.run + 1 ≠ b.empties → z.run = y.run + 1 ∧ z.pc = y.pc) := by
  intro y z
  have hz : z = ((s.enterRegion w b).modStrand w fun x =>
      if true && y.run + 1 == b.empties then
        { x with run := 0, pc := x.pc + 4#64, hold := ((s.enterRegion w b).core w.core).cyc.toNat + 1, arr := (s.enterRegion w b).fresh }
      else { x with run := x.run + 1, hold := ((s.enterRegion w b).core w.core).cyc.toNat + 1 }).strand w := by
    unfold z issueEmpty
    dsimp only
    split
    · rw [State.strand_modCtx _ _ _ _ _ rfl rfl, State.strand_modCtx _ _ _ _ _ rfl rfl, State.strand_slotSpent]
    · rw [State.strand_modCtx _ _ _ _ _ rfl rfl, State.strand_slotSpent]
  rw [hz, State.strand_modStrand _ _ _ (h.enterRegion b)]
  by_cases hlast : y.run + 1 = b.empties <;> simp [hlast, show (s.enterRegion w b).strand w = y from rfl]

theorem issueEmpty_regs (w : Who) (b : Bundle) (header : Bool) (s : State) : SameRegs s (issueEmpty w b header s) := by
  have h : ∀ (f : Strand → Strand) (g : Ctx → Ctx), (∀ x, (g x).s = x.s ∧ (g x).threads = x.threads) →
      SameRegs s ((((s.enterRegion w b).modStrand w f).slotSpent w).modCtx w.core w.ctx g) := fun f g hg =>
    (State.enterRegion_regs s w b).trans <| SameRegs.trans (State.reg_modStrand _ w f) <| (State.slotSpent_regs _ w).trans
      (State.modCtx_regs _ g _ _ (hg _).1 (hg _).2)
  unfold issueEmpty
  dsimp only
  split
  · refine SameRegs.trans (h _ _ ?_) (State.modCtx_regs _ Ctx.commitYield _ _ rfl rfl)
    exact fun _ => ⟨rfl, rfl⟩
  · refine h _ _ ?_
    exact fun _ => ⟨rfl, rfl⟩

/-- The last empty bundle of a lead strand's yield begins the yield. -/
theorem issueEmpty_yields {s : State} {w : Who} {b : Bundle} (hlead : w.tid = none) (hy : b.yield = true)
    (hlast : ((s.enterRegion w b).strand w).run + 1 = b.empties) : ∃ x : Ctx, (issueEmpty w b true s).ctx w.core w.ctx = x.commitYield := by
  unfold issueEmpty
  dsimp only
  rw [if_pos (by simp [hlast, hy, hlead]), State.modCtx_ctx]
  exact ⟨_, rfl⟩

theorem exec_emptyBundle {e w4 : BitVec 4} {y m : BitVec 1} {x : BitVec 14} {s : State} {i : Issue} {w : Who} (hi : IssuingOne s i w)
    (h : s.yieldReady w (headerBundle e y m w4) = true ∨ (s.strand w).run < e.toNat) :
    exec (.emptyBundle e y m w4 x) s = .next (issueEmpty w (headerBundle e y m w4) true s) := by
  show execEmptyBundle e y m w4 x s = _
  rw [execEmptyBundle, onIssue, hi.1]
  simp [hi.2, h]

/-- Settles O36: the word is `issueEmpty` of the header's bundle, after the entry to its region. -/
theorem emptyBundles : Obligations.EmptyBundles := by
  intro e w4 y m x s i w hi ha hready hre
  have hgo : s.yieldReady w (headerBundle e y m w4) = true ∨ (s.strand w).run < e.toNat := by
    rcases hready with hy | hrun | ⟨hthreads, hpending⟩
    · exact .inl (by simp [State.yieldReady, headerBundle, hy])
    · exact .inr hrun
    · exact .inl (by simp [State.yieldReady, hthreads, hpending])
  obtain ⟨hrun, hpc, hmarked, hkept⟩ := State.enterRegion_spec (headerBundle e y m w4) ha hre
  obtain ⟨hregion, hcount, hlast, hon⟩ := issueEmpty_strand (headerBundle e y m w4) ha
  rw [hrun, hpc] at hlast hon
  have hempties : (headerBundle e y m w4).empties = e.toNat + 1 := rfl
  refine ⟨_, exec_emptyBundle hi hgo, fun h => hon (by omega), fun h => ?_, fun hm h0 => ?_, fun hm => ?_,
    issueEmpty_mem .., issueEmpty_regs _ _ _ _⟩
  · obtain ⟨hrun', hpc'⟩ := hlast (by omega)
    refine ⟨hrun', hpc', fun hy hlead => ?_⟩
    obtain ⟨u, hu⟩ := issueEmpty_yields (s := s) (b := headerBundle e y m w4) hlead (by simp [headerBundle, hy]) (by omega)
    rw [hu]
    exact ⟨rfl, rfl, rfl⟩
  · rw [hregion, hcount]
    exact hmarked (by simp [headerBundle, hm]) h0
  · rw [hregion, hcount]
    exact hkept (hm.imp (fun h => by simp [headerBundle, h]) id)

end Sys2Proof.Machine
end

section
namespace Sys2Proof.Machine

/-! ### False guards (02 R40, 03 R66) -/

/-- The words that join on a mask are those of major 5 and QMAX (R59, R140). -/
theorem Instr.cross_forms {x : Instr} (h : x.info.cross = true) : x.info.major = 5 ∨ ∃ g a j, x = .qmax g a j := by
  cases x <;> cases h
  case qmax => exact .inr ⟨_, _, _, rfl⟩
  all_goals exact .inl rfl

section FalseGuard
variable {x : Instr} {s : State} {i : Issue} {w : Who} (hi : IssuingOne s i w) (hg : s.guardOk w x.guard = false)
include hi

theorem onIssue_idle : (onIssue s fun _ st => st) = .next s := by rw [onIssue, hi.1]

include hg

theorem eachPriv_falseGuard (hp : s.privileged w = true) (f : Issue → Who → State → State) : eachPriv x.guard f s = .next s := by
  rw [eachPriv, onIssue, hi.1]
  simp [hi.2, hg, hp]

/-- A word that is neither privileged nor joins on a mask, CSRR apart, runs for each executor whose guard is true; NOP and PREF
do nothing. -/
theorem exec_falseGuard_user (hx : (x.isWord && !x.info.cross && !x.info.priv) = true) (hcsrr : ∀ g d c, x ≠ .csrr g d c) :
    exec x s = .next s := by
  cases x <;> cases hx
  case nop => exact onIssue_idle hi
  case pref => exact onIssue_idle hi
  case csrr g d c => exact absurd rfl (hcsrr g d c)
  all_goals exact exec_none hi hg _ rfl

/-- A privileged word but CSRW runs for each executor whose guard is true, once its privilege is in order. -/
theorem exec_falseGuard_priv (hx : (x.isWord && x.info.priv) = true) (hp : s.privileged w = true) (hcsrw : ∀ g d c, x ≠ .csrw g d c) :
    exec x s = .next s := by
  cases x <;> cases hx
  case csrw g d c => exact absurd rfl (hcsrw g d c)
  all_goals exact eachPriv_falseGuard hi hg hp _

end FalseGuard

theorem exec_csrr_falseGuard {g : Guard} {d : Reg} {c : BitVec 12} {s : State} {i : Issue} {w : Who} (hi : IssuingOne s i w)
    (hg : s.guardOk w g = false) (hc : csrAssigned c = true) (ha : s.csrAllowed w c.toNat false = true) :
    exec (.csrr g d c) s = .next s := by
  show execCsrr g d c s = _
  rw [execCsrr, onIssue, hi.1]
  simp [hi.2, hg, hc, ha]

theorem exec_csrw_falseGuard {g : Guard} {d : Reg} {c : BitVec 12} {s : State} {i : Issue} {w : Who} (hi : IssuingOne s i w)
    (hg : s.guardOk w g = false) (hc : csrAssigned c = true) (hp : s.privileged w = true) (ha : s.csrAllowed w c.toNat true = true) :
    exec (.csrw g d c) s = .next s := by
  show execCsrw g d c s = _
  rw [execCsrw, onIssue, hi.1]
  simp [hi.2, hg, hc, hp, ha]

/-- Settles O56: a word does nothing for an executor whose guard is false, and one executor issues. -/
theorem falseGuardLeavesEverything : Obligations.FalseGuardLeavesEverything := by
  intro x s i w hi hg
  refine ⟨fun hw hmajor hqmax hcsr hpriv => ?_, fun g d c hc => ⟨?_, ?_⟩⟩
  · have hcross : x.info.cross = false := by
      by_contra h
      rcases Instr.cross_forms (eq_true_of_ne_false h) with h5 | ⟨g, a, j, rfl⟩
      · exact hmajor h5
      · exact hqmax g a j rfl
    rcases hp : x.info.priv
    · exact exec_falseGuard_user hi hg (by simp [hw, hcross, hp]) fun g d c => (hcsr g d c).1
    · have hw' : s.privileged w = true := hpriv.resolve_left (by simp [hp])
      exact exec_falseGuard_priv hi hg (by simp [hw, hp]) hw' fun g d c => (hcsr g d c).2
  · rintro rfl ha
    exact exec_csrr_falseGuard hi hg hc ha
  · rintro rfl hp ha
    exact exec_csrw_falseGuard hi hg hc hp ha

end Sys2Proof.Machine
end

section
namespace Sys2Proof.Machine

/-! ### Steps, fetches and the issue of one word (02 R27 to R48) -/

theorem step_eq_exec {s u : State} {i : Instr} (h : s.takeUp = (i, u)) (hu : u.mayTakeUp i = true) : step s = exec i u := by
  rw [step, h]
  exact if_pos hu

theorem State.elapse_keeps (s : State) (ps : Nat) : let t := s.elapse ps
    t.ps = ps ∧ t.mem = s.mem ∧ t.cores = s.cores ∧ t.homes = s.homes ∧ t.launches = s.launches ∧ t.cur = s.cur ∧ t.agenda = s.agenda ∧
      t.svc = s.svc := by
  obtain ⟨_, _, _, _, h⟩ := s.elapse_only ps
  rw [h]
  exact ⟨rfl, rfl, rfl, rfl, rfl, rfl, rfl, rfl⟩

theorem runWord_eq_exec (i : Instr) (s : State) (h : i.isWord = true) : runWord i s = exec i s := by
  cases i <;> cases h <;> rfl

/-! What stands at an executor's PC. -/

theorem State.nextOf_fetched {s s1 : State} {w : Who} {ws : List Word} {b : Bundle} (hpc : (s.strand w).pc.toNat % 4 = 0)
    (hf : s.fetchWords w (.strand w (s.strand w).pc) (!s.privileged w) (s.strand w).pc 4 [] = (.ok ws, s1))
    (hd : decodeBundle w.ex ws = .ok b) (hc : b.check w.ex (s1.regBound w) = .ok b) :
    s.nextOf w = if s1.loopIllegal w b then (.bad 1 0 0#64 0, s1) else if b.isEmpty then (.empty b true, s1)
      else if (s.strand w).run < b.empties then (.empty b false, s1) else (.run b, s1) := by
  simp only [State.nextOf, hpc, hf, hd, hc, ne_eq, not_true_eq_false, if_false]

theorem State.nextOf_fault {s s1 : State} {w : Who} {cause sub : Nat} {va : DWord} (hpc : (s.strand w).pc.toNat % 4 = 0)
    (hf : s.fetchWords w (.strand w (s.strand w).pc) (!s.privileged w) (s.strand w).pc 4 [] = (.fault cause sub va, s1)) :
    s.nextOf w = (.bad cause sub va 3, s1) := by
  simp only [State.nextOf, hpc, hf, ne_eq, not_true_eq_false, if_false]

/-! The issue of a bundle of one word by one executor. -/

/-- The issue, by one executor, of a bundle whose word stands in slot p. -/
def issueOf (s : State) (w : Who) (b : Bundle) (p : SlotPos) (seen : Memory) : Issue :=
  { core := w.core, ctx := w.ctx, tids := w.tid.toList, lead := w.tid.isNone, pc := (s.strand w).pc, words := b.words, slot := p
    start := s.fresh, seen }

/-- The state in which that word runs: the PC past the bundle, the issue at hand. -/
def State.atSlot (s : State) (w : Who) (b : Bundle) (p : SlotPos) (seen : Memory) : State :=
  { s.enterRegion w b with cur := some (issueOf s w b p seen) }.modStrand w fun y => { y with pc := pcAfter (s.strand w).pc b.words }

theorem slotOrder_single {b : Bundle} {p : SlotPos} {x : Instr} (h : b.slots = [(p, x)]) : slotOrder b = [(p, x)] := by
  obtain ⟨words, empties, yield, marker, weight, a, b, c⟩ := b
  rcases a with _ | a <;> rcases b with _ | b <;> rcases c with _ | c <;> simp_all [Bundle.slots, slotOrder]

theorem State.modStrand_setCur (s : State) (w : Who) (f : Strand → Strand) (j : Option Issue) :
    { s.modStrand w f with cur := j } = { s with cur := j }.modStrand w f := by
  obtain ⟨c, k, _ | n⟩ := w <;> rfl

theorem State.enterRegion_fresh (s : State) (w : Who) (b : Bundle) : (s.enterRegion w b).fresh = s.fresh := by
  unfold State.enterRegion
  split
  · obtain ⟨c, k, _ | n⟩ := w <;> rfl
  · rfl

/-- The executors of an issue by one. -/
theorem issueFor_whos (w : Who) (pc : DWord) (b : Bundle) (seen : Memory) (tally : Tally) :
    (issueFor w.core w.ctx w.tid.toList w.tid.isNone pc b seen tally).whos = [w] := by
  obtain ⟨c, k, _ | n⟩ := w <;> rfl

theorem runSlot_of_exec {s r : State} {p : SlotPos} {x : Instr} (hx : x.isWord = true)
    (hr : exec x { s with cur := s.cur.map fun i => { i with slot := p } } = .next r) : runSlot (p, x) s = r := by
  rw [runSlot, runWord_eq_exec _ _ hx, hr]

/-- The bundle of one word runs as the word does where its bundle has been entered and its PC has been moved. -/
theorem runBundle_single {s r : State} {w : Who} {b : Bundle} {p : SlotPos} {x : Instr} {seen : Memory} (hb : b.slots = [(p, x)])
    (hx : x.isWord = true) (hr : exec x (s.atSlot w b p seen) = .next r) :
    runBundle (issueFor w.core w.ctx w.tid.toList w.tid.isNone (s.strand w).pc b seen {}) b (s.enterRegion w b) = r := by
  rw [runBundle, slotOrder_single hb, issueFor_whos]
  refine runSlot_of_exec hx ?_
  rw [← hr, State.atSlot, issueOf, ← State.enterRegion_fresh s w b]
  congr 1
  obtain ⟨c, k, _ | n⟩ := w <;> rfl

/-- One executor's bundle, whose slots have neither waited nor trapped, commits when its requests are admitted, and waits while
they are not. -/
theorem issueTogether_settles {s r r1 : State} {w : Who} {b : Bundle} {seen : Memory} {j : Issue}
    (hr : runBundle (issueFor w.core w.ctx w.tid.toList w.tid.isNone (s.strand w).pc b seen {}) b (s.enterRegion w b) = r)
    (hj : r.cur = some j) (hfull : j.full = false) (hwaits : j.waits = []) (htraps : j.traps = []) (hy : b.yield = false) :
    let a : Agent := .strand w (s.strand w).pc
    (r.settle a = (true, r1) → issueTogether w.core w.ctx w.tid.isNone w.tid.toList b seen {} s =
      (.done, { issued := true, calls := j.calls },
        ((r1.forget a).finishIssue b (s.ctx w.core w.ctx).task).committed w b ((s.strand w).wait == .barGo))) ∧
    (r.settle a = (false, r1) → issueTogether w.core w.ctx w.tid.isNone w.tid.toList b seen {} s =
      (.waits, {}, (keepMarks [w] s r1).ageless w)) := by
  have hready : s.yieldReady w b = true := by simp [State.yieldReady, hy]
  obtain ⟨c, k, _ | n⟩ := w
  all_goals
    simp only [Option.isNone_none, Option.isNone_some, Option.toList_none, Option.toList_some] at hr
    refine ⟨fun hs => ?_, fun hs => ?_⟩ <;> simp [issueTogether, hr, hj, hfull, hwaits, htraps, hs, hready]

theorem issueAlone_run {w : Who} {b : Bundle} {seen : Memory} {s u : State} {f : Fate} {t : Tally}
    (h : issueTogether w.core w.ctx w.tid.isNone w.tid.toList b seen {} s = (f, t, u)) :
    issueAlone w (.run b) seen s = (f, u.settleTally t) := by
  simp only [issueAlone, h]

/-- Settles O54: steps, fetches and issues each by the equation of their function; a bundle of one word runs that word alone. -/
theorem stepRunsTheBundle : Obligations.StepRunsTheBundle := by
  refine ⟨fun s d i rest ha hu => ?_, fun s ha hu => ?_, fun s ps => State.elapse_keeps s ps, fun s i => runWord_eq_exec i s,
    fun s s1 w ws b hpc hf hd hc => ⟨fun hl => ?_, fun hl he hrun => ?_⟩, fun s s1 w cause sub va hpc hf => State.nextOf_fault hpc hf,
    fun s r r1 w b p x j seen hb hy hx hr hj hfull hwaits htraps => ?_⟩
  · exact step_eq_exec (by simp only [State.takeUp, ha]) hu
  · exact step_eq_exec (by simp only [State.takeUp, ha]) hu
  · simp [State.nextOf_fetched hpc hf hd hc, hl]
  · simp [State.nextOf_fetched hpc hf hd hc, hl, he, Nat.not_lt.mpr hrun]
  · obtain ⟨hdone, hwait⟩ := issueTogether_settles (runBundle_single hb hx hr) hj hfull hwaits htraps hy
    exact ⟨fun hs => issueAlone_run (hdone hs), fun hs => issueAlone_run (hwait hs)⟩

end Sys2Proof.Machine
end

section
namespace Sys2Proof

/-- Settles O53: the decoder is run on each word. -/
theorem writtenWordsDecode : Obligations.WrittenWordsDecode := by
  refine ⟨by decide, by decide, by decide, by decide, ?_⟩
  exact ⟨_, rfl, by decide⟩

end Sys2Proof
end

section
namespace Sys2Proof.Machine

/-! ### Conditions of compares (05 R111, R115, R117) -/

/-- The condition of an integer compare on operands of the width. -/
theorem intCond_eq (hc : BitVec 2) {n x y : Nat} (hx : x < 2 ^ n) (hy : y < 2 ^ n) : intCond hc n x y =
    if hc = 0#2 then x == y else if hc = 1#2 then decide (signedAt n x < signedAt n y) else decide (x < y) := by
  unfold intCond
  rw [Nat.mod_eq_of_lt hx, Nat.mod_eq_of_lt hy]
  by_cases h0 : hc = 0#2
  · subst h0; rfl
  by_cases h1 : hc = 1#2
  · subst h1; rfl
  rw [if_neg h0, if_neg h1]
  split
  · next h => exact absurd (BitVec.eq_of_toNat_eq h) h0
  · next h => exact absurd (BitVec.eq_of_toNat_eq h) h1
  · rfl

theorem signedAt_toNat {n : Nat} (x : BitVec n) : signedAt n x.toNat = x.toInt := by
  rw [signedAt, BitVec.ofNat_toNat, BitVec.setWidth_eq]

/-- The condition of a compare of 64-bit operands. -/
theorem intCond_toNat (hc : BitVec 2) {n : Nat} (x y : BitVec n) : intCond hc n x.toNat y.toNat =
    if hc = 0#2 then x == y else if hc = 1#2 then x.slt y else x.ult y := by
  have heq : (x.toNat == y.toNat) = (x == y) := by
    rw [Bool.eq_iff_iff, beq_iff_eq, beq_iff_eq, BitVec.toNat_inj]
  rw [intCond_eq hc x.isLt y.isLt, heq, signedAt_toNat, signedAt_toNat]
  rfl

theorem truthBit_eq (t : BitVec 4) (d a : Bool) : truthBit t d a = t.getLsbD (2 * d.toNat + a.toNat) := by
  cases d <;> cases a <;> rfl

/-! ### Predicates written together (05 R111, R118) -/

theorem ne_complement (k : BitVec 4) : (k ^^^ 1#4).toNat ≠ k.toNat := by
  revert k
  decide

theorem State.pred_setPair (s : State) (w u : Who) (k : BitVec 4) (c : Bool) (n : Nat)
    (hk : ∀ n ∈ [k.toNat, (k ^^^ 1#4).toNat], hasPred w n) : (s.setPair w k c).pred u n =
      if u = w ∧ n ∈ [k.toNat, (k ^^^ 1#4).toNat] then (if n = k.toNat then c else !c) else s.pred u n := by
  have hne := ne_complement k
  rw [State.setPair, State.pred_setPred _ _ _ _ _ _ (hk _ (by simp)), State.pred_setPred _ _ _ _ _ _ (hk _ (by simp))]
  generalize (k ^^^ 1#4).toNat = j at hne ⊢
  rcases eq_or_ne n j with rfl | hj
  · simp [hne]
  rcases eq_or_ne n k.toNat with rfl | hk
  · simp [hj]
  · simp [hj, hk]

theorem OnlyPreds.setPair (s : State) (w : Who) (k : BitVec 4) (c : Bool) (h : Alive s w) : OnlyPreds s (s.setPair w k c) :=
  have h1 := OnlyPreds.setPred s w k.toNat c h
  h1.trans (OnlyPreds.setPred _ w _ _ (h1.alive w h))

/-- What a predicate reads after a run of n predicates is written. -/
theorem State.pred_setPreds (s : State) (w u : Who) (base v m n : Nat) (h : ∀ i < n, hasPred w (base + i)) :
    (s.setPreds w base v n).pred u m = if u = w ∧ base ≤ m ∧ m < base + n then v.testBit (m - base) else s.pred u m := by
  induction n with
  | zero => exact (if_neg (by omega)).symm
  | succ n ih =>
    rw [State.setPreds, State.pred_setPred _ _ _ _ _ _ (h n (by omega)), ih fun i hi => h i (by omega), bitOf_testBit]
    by_cases hm : m = base + n
    · subst hm
      simp
    · have hlt : (base ≤ m ∧ m < base + (n + 1)) ↔ (base ≤ m ∧ m < base + n) := by omega
      simp only [hm, and_false, if_false, hlt]

theorem OnlyPreds.setPreds (s : State) (w : Who) (base v n : Nat) (h : Alive s w) : OnlyPreds s (s.setPreds w base v n) := by
  induction n with
  | zero => exact .refl s
  | succ n ih => exact ih.trans (OnlyPreds.setPred _ w _ _ (ih.alive w h))

theorem mem_predBlock (base n m : Nat) : m ∈ (List.range n).map (base + ·) ↔ base ≤ m ∧ m < base + n := by
  simp only [List.mem_map, List.mem_range]
  constructor
  · rintro ⟨i, hi, rfl⟩
    omega
  · exact fun h => ⟨m - base, by omega, by omega⟩

/-! ### Words that write predicates -/

/-- A compare of registers writes its predicate and the complement. -/
theorem setPair_gives {x : Instr} {k : BitVec 4} (c v : State → Who → Bool)
    (hx : ∀ s, exec x s = eachExec x.guard (fun _ w st => st.setPair w k (c st w)) s)
    (hc : ∀ s t w, OnlyPreds s t → c t w = c s w) (hv : ∀ s w, c s w = v s w) :
    GivesPreds x (fun _ => [k.toNat, (k ^^^ 1#4).toNat]) (fun s w n => if n = k.toNat then v s w else !(v s w)) := by
  obtain rfl : c = v := funext fun s => funext (hv s)
  refine preds_give x _ (fun w st => st.setPair w k (c st w)) _ hx (fun s t w h _ => ?_) (fun s w h => OnlyPreds.setPair s w k _ h)
    fun s w u n hp => State.pred_setPair s w u k _ n hp
  funext n
  rw [hc s t w h]

/-- A word that writes one predicate of each executor that acts. -/
theorem setPred_gives {x : Instr} {d : Nat} (c : State → Who → Bool)
    (hx : ∀ s, exec x s = eachExec x.guard (fun _ w st => st.setPred w d (c st w)) s) (hc : OwnTest c) :
    GivesPreds x (fun _ => [d]) (fun s w _ => c s w) := by
  refine preds_give x _ (fun w st => st.setPred w d (c st w)) _ hx (fun s t w h hp => funext fun _ => hc s t w h hp)
    (fun s w h => OnlyPreds.setPred s w d _ h) fun s w u n hp => ?_
  simp only [State.pred_setPred _ _ _ _ _ _ (hp d (by simp)), List.mem_singleton]

/-- G2P writes each predicate of a block from its bit of a register. -/
theorem g2p_gives (g : Guard) (d : F6) (a : Reg) : GivesPreds (.g2p g d a)
    (fun w => (List.range (blockSize w d)).map (32 * d.toNat + ·)) (fun s w n => (s.reg w a).testBit (n - 32 * d.toNat)) := by
  refine preds_give _ _ (fun w st => st.setPredBlock w d (st.reg w a)) _ (fun _ => rfl) (fun s t w h _ => ?_)
    (fun s w h => OnlyPreds.setPreds s w _ _ _ h) fun s w u n hp => ?_
  · funext n
    rw [h.reg]
  · have hrun : ∀ i < blockSize w d, hasPred w (32 * d.toNat + i) := fun i hi => hp _ (List.mem_map_of_mem (List.mem_range.mpr hi))
    rw [State.setPredBlock, State.pred_setPreds _ _ _ _ _ _ _ hrun]
    simp only [mem_predBlock]

/-- Settles O4: a compare is `setPair` of its condition; PLOP and PSET write one predicate, G2P a run of them. -/
theorem comparesAndPredicates : Obligations.ComparesAndPredicates := by
  refine ⟨fun g x y hc k => ⟨fun _ => ?_, fun _ => ?_, ?_, ?_⟩, fun g d p a t => ⟨?_, ?_, g2p_gives g d a⟩⟩
  · refine setPair_gives (fun s w => intCond hc w.width (s.reg w x) (s.reg w y)) _ (fun _ => rfl) (fun s t w h => ?_)
      fun s w => intCond_eq hc (s.reg_lt w x) (s.reg_lt w y)
    rw [h.reg, h.reg]
  · refine setPair_gives (fun s w => intCond hc 64 (s.reg64 w x).toNat (s.reg64 w y).toNat) _ (fun _ => rfl) (fun s t w h => ?_)
      fun s w => intCond_toNat hc _ _
    rw [h.reg64, h.reg64]
  · refine setPair_gives (fun s w => fpCond fp32 hc (s.reg w x) (s.reg w y)) _ (fun _ => rfl) (fun s t w h => ?_) fun _ _ => rfl
    rw [h.reg, h.reg]
  · refine setPair_gives (fun s w => fpCond fp64 hc (s.pair w x) (s.pair w y)) _ (fun _ => rfl) (fun s t w h => ?_) fun _ _ => rfl
    simp only [State.pair, h.reg64]
  · simp only [← truthBit_eq]
    refine setPred_gives _ (fun _ => rfl) fun s t w _ h => ?_
    rw [h, h]
  · refine setPred_gives _ (fun _ => rfl) fun s t w h _ => ?_
    rw [h.reg]

end Sys2Proof.Machine
end

section
namespace Sys2Proof.Machine

/-! ### 64-bit operands and conversions (03 R57; 06 R134, R137) -/

/-- A 64-bit operand is made of registers. -/
theorem State.reg64_of_regN {s t : State} {w : Who} (h : ∀ n, t.regN w n = s.regN w n) (r : Reg) : t.reg64 w r = s.reg64 w r := by
  obtain ⟨c, k, _ | n⟩ := w
  · exact BitVec.eq_of_toNat_eq (h r.toNat)
  · have hlo : t.greg ⟨c, k, some n⟩ n r.toNat = s.greg ⟨c, k, some n⟩ n r.toNat := BitVec.eq_of_toNat_eq (h r.toNat)
    have hhi : t.greg ⟨c, k, some n⟩ n (r.toNat + 1) = s.greg ⟨c, k, some n⟩ n (r.toNat + 1) := BitVec.eq_of_toNat_eq (h (r.toNat + 1))
    simp only [State.reg64, State.gpair, hlo, hhi]

theorem State.pair_of_regN {s t : State} {w : Who} (h : ∀ n, t.regN w n = s.regN w n) : t.pair w = s.pair w :=
  funext fun r => congrArg BitVec.toNat (State.reg64_of_regN h r)

/-- writePair writes a function of the executor's own pairs to one of them. -/
theorem writePair_gives {x : Instr} {d : Reg} (f : (Reg → Nat) → Nat)
    (hx : ∀ s, exec x s = writePair x.guard d (fun s w => f (s.pair w)) s) :
    GivesWide x d (fun s w => BitVec.ofNat 64 (f (s.pair w))) := by
  refine setReg64_gives x d _ _ hx (fun s t w _ h => ?_) fun _ _ => rfl
  simp only [State.pair_of_regN h]

theorem cvtFmt_eq (c : BitVec 3) : cvtFmt c =
    if c = 0#3 then some fp64 else if c = 1#3 then some fp32 else if c = 2#3 then some fp16 else if c = 3#3 then some bf16 else none := by
  revert c
  decide

theorem cvtBits_eq (c : BitVec 3) : cvtBits c = if c = 4#3 then 32 else if c = 5#3 then 16 else if c = 6#3 then 8 else 4 := by
  revert c
  decide

/-- What CVT reads: a pair where the format is FP64, one register elsewhere. -/
def State.cvtOperand (s : State) (w : Who) (a : Reg) (src : BitVec 3) : Nat := if src = 0#3 then s.pair w a else s.reg w a

/-- What CVT computes. -/
def State.cvtResult (s : State) (w : Who) (rm : BitVec 2) (a : Reg) (dst src : BitVec 3) : Nat :=
  convertValue rm.toNat dst src (s.cvtOperand w a src)

theorem ownValue_cvtResult (rm : BitVec 2) (a : Reg) (dst src : BitVec 3) : OwnValue fun s w => s.cvtResult w rm a dst src := by
  intro s t w _ h
  simp only [State.cvtResult, State.cvtOperand, State.pair_of_regN h, State.reg_eq_regN, h]

theorem exec_cvt_reg {g : Guard} {rm : BitVec 2} {d a : Reg} {dst src : BitVec 3} (h : dst ≠ 0#3) (s : State) :
    exec (.cvt g rm d a dst src) s = writeReg g d (fun s w => s.cvtResult w rm a dst src) s := by
  show execCvt g rm d a dst src s = _
  simp only [execCvt, h, if_false]
  rfl

theorem exec_cvt_pair (g : Guard) (rm : BitVec 2) (d a : Reg) (src : BitVec 3) (s : State) :
    exec (.cvt g rm d a 0#3 src) s = writePair g d (fun s w => s.cvtResult w rm a 0#3 src) s := rfl

/-- Settles O6: the FP64 forms are functions of pairs; CVT writes `cvtResult`, by the format of its destination. -/
theorem fp64AndConversions : Obligations.Fp64AndConversions := by
  refine ⟨fun g d a b rm => ?_, ?_⟩
  · exact ⟨writePair_gives (fun x => fp64.add 0 (x a) (x b)) fun _ => rfl,
      writePair_gives (fun x => fp64.mul 0 (x a) (x b)) fun _ => rfl,
      writePair_gives (fun x => fp64.fma 0 (x a) (x b) (x d)) fun _ => rfl,
      writePair_gives (fun x => fp64.div (x a) (x b)) fun _ => rfl,
      writePair_gives (fun x => fp64.minMax false (x d) (x a)) fun _ => rfl,
      writePair_gives (fun x => fp64.minMax true (x d) (x a)) fun _ => rfl,
      writePair_gives (fun x => fp64.add rm.toNat (x d) (x a)) fun _ => rfl,
      writePair_gives (fun x => fp64.mul rm.toNat (x d) (x a)) fun _ => rfl,
      writePair_gives (fun x => fp64.sqrt rm.toNat (x a)) fun _ => rfl⟩
  · intro g rm d a dst src fmt bits v
    have hfmt : cvtFmt = fmt := funext cvtFmt_eq
    have hbits : cvtBits = bits := funext cvtBits_eq
    have hv : ∀ s w, s.cvtResult w rm a dst src = v s w := by
      intro s w
      rw [State.cvtResult, convertValue, hfmt, hbits]
      rfl
    have hown := ownValue_cvtResult rm a dst src
    refine ⟨fun h => writeReg_gives _ d _ v (exec_cvt_reg h) hown fun s w => by rw [hv], fun h => ?_⟩
    refine setReg64_gives _ d (fun s w => BitVec.ofNat 64 (s.cvtResult w rm a dst src)) _ (fun s => ?_)
      (fun s t w ho hr => congrArg _ (hown s t w ho hr)) fun s w => by rw [hv]
    rw [h]
    exact exec_cvt_pair g rm d a src s

end Sys2Proof.Machine
end

section
namespace Sys2Proof.Machine

/-! ### Special registers and CSRs (03 R69, R70; 09 R230, R233) -/

section Words
variable {g : Guard} {d : Reg} {s : State} {i : Issue} {w : Who}

/-- A legal MOVSR writes the special register's value at its width. -/
theorem exec_movsr {f : F6} (hr : Runs s i (.movsr g d f) w) (hl : specialLegal w f.toNat = true) : exec (.movsr g d f) s =
    .next (if specialWide f.toNat then s.setReg64 w d (BitVec.ofNat 64 (s.special w f.toNat))
      else s.setReg w d (s.special w f.toNat % 2 ^ 32)) := by
  rw [exec_one hr _ rfl]
  simp [hl]

theorem exec_csrr {c : BitVec 12} (hr : Runs s i (.csrr g d c) w) (hc : csrAssigned c = true)
    (ha : s.csrAllowed w c.toNat false = true) : exec (.csrr g d c) s = .next (s.setReg64 w d (s.csr w c.toNat)) := by
  obtain ⟨⟨hcur, hwhos⟩, hg⟩ := hr
  have hg : s.guardOk w g = true := hg
  show execCsrr g d c s = _
  rw [execCsrr, onIssue, hcur]
  simp [hwhos, hg, hc, ha]

/-- The write of a CSR that its executor may write: SAVEBASE may have to wait for a frame's header. -/
theorem exec_csrw {c : BitVec 12} (hr : Runs s i (.csrw g d c) w) (hc : csrAssigned c = true) (hp : s.privileged w = true)
    (ha : s.csrAllowed w c.toNat true = true) : exec (.csrw g d c) s = .next (
      if c = 0x804#12 then
        let r := s.writeSavebase (.strand w i.pc) (s.reg64 w d)
        if r.1 then r.2 else markWait w r.2
      else s.writeCsr w c.toNat (s.reg64 w d)) := by
  obtain ⟨⟨hcur, hwhos⟩, hg⟩ := hr
  have hg : s.guardOk w g = true := hg
  show execCsrw g d c s = _
  rw [execCsrw, onIssue, hcur]
  simp only [hwhos, List.foldl_cons, List.foldl_nil, hg, hc, hp, ha, Bool.not_true, Bool.or_self, Bool.false_eq_true, if_false]
  rcases s.writeSavebase (.strand w i.pc) (s.reg64 w d) with ⟨_ | _, t⟩ <;> rfl

theorem State.ofLaunch_some {l : Launch} (h : s.launchOf w.core w.ctx = some l) (f : Launch → Nat) : s.ofLaunch w f = f l := by
  rw [State.ofLaunch, h]

theorem State.partOf_some {c k : Nat} {l : Launch} (h : s.launchOf c k = some l) : s.partOf c k = l.part := by
  rw [State.partOf, h]
  rfl

/-- A thread's index, its warp and its lane. -/
theorem State.special_thread {n : Nat} (h : w.tid = some n) :
    s.special w 7 = n ∧ s.special w 8 = n / 32 ∧ s.special w 9 = n % 32 := by
  simp [State.special, h]

end Words

/-- Settles O32: the words by their equations; a written CSR is a field of the executor's core alone. -/
theorem registersReadAndWritten : Obligations.RegistersReadAndWritten := by
  refine ⟨fun g d f c s i w => ⟨exec_movsr, exec_csrr, fun hr hc hp ha => ⟨fun hne => ?_, fun t he => ⟨fun h => ?_, fun h => ?_⟩⟩⟩,
    fun s w => ⟨rfl, rfl, rfl, rfl, rfl, fun n hn => ?_, fun l hl => ?_⟩, fun s w v => ⟨?_, ?_, ?_, fun c hne => ?_, rfl⟩⟩
  · rw [exec_csrw hr hc hp ha, if_neg hne]
  · rw [exec_csrw hr hc hp ha, if_pos he, h]
    rfl
  · rw [exec_csrw hr hc hp ha, if_pos he, h]
    rfl
  · obtain ⟨htid, hwarp, hlane⟩ := State.special_thread (s := s) hn
    rw [hwarp, hlane]
    exact ⟨htid, by omega, by omega⟩
  · exact ⟨State.ofLaunch_some hl _, State.ofLaunch_some hl _, State.partOf_some hl⟩
  · exact congrArg Core.trapvec (State.modCore_core s w.core _)
  · exact congrArg Core.gauge (State.modCore_core s w.core _)
  · exact congrArg Core.gaugerate (State.modCore_core s w.core _)
  · exact State.setCore_core_other s w.core c _ hne

end Sys2Proof.Machine
end

section
namespace Sys2Proof.Machine

/-! ### CBSEL for a thread that is not live (06 R139) -/

/-- The group of an issue that names thread 0, and the state of reset while it issues: no thread is live there. -/
def strayIssue : Issue := { lead := false, tids := [0] }
def strayThread : Who := { core := 0, ctx := 0, tid := some 0 }
def strayState : State := { State.reset with cur := some strayIssue }

theorem strayState_no_thread (n : Nat) : tblGet none (strayState.ctx 0 0).threads n = none := rfl

theorem exec_cbsel {g : Guard} {d a : Reg} {s : State} {i : Issue} {w : Who} (hr : Runs s i (.cbsel g d a) w) :
    exec (.cbsel g d a) s = .next ((s.setReg w d (s.threadOf w).sel.toNat).modThread w fun th => { th with
      sel := BitVec.ofNat 3 (s.reg w a) }) :=
  exec_one hr _ rfl

/-- A thread that has been written is live. -/
theorem State.threads_modThread {w : Who} {n : Nat} (s : State) (f : Thread → Thread) (h : w.tid = some n) :
    (tblGet none ((s.modThread w f).ctx w.core w.ctx).threads n).isSome = true := by
  simp only [State.modThread, h, State.setThread, State.modCtx, State.ctx_setCtx, and_self, if_true, Ctx.threads_setThread, Option.isSome_some]

/-- Refutes O7: the clause on CBSEL asks nothing of the issue's threads. At the state of reset with a group that names thread 0, which
is not live, the word writes the selector of thread 0 and so makes it live, where the clause has only registers and selectors of the
threads there are change. -/
theorem not_packedSpecialAndQuantised : ¬ Obligations.PackedSpecialAndQuantised := by
  unfold Obligations.PackedSpecialAndQuantised
  rintro ⟨-, hsel, -⟩
  have hissue : IssuingOne strayState strayIssue strayThread := ⟨rfl, rfl⟩
  obtain ⟨t, ht, -, -, -, -, hframe⟩ := hsel 63#6 0#7 0#7 strayState strayIssue strayThread 0 hissue rfl rfl
  have hlive : (tblGet none (t.ctx 0 0).threads 0).isSome = true := by
    rw [exec_cbsel ⟨hissue, rfl⟩] at ht
    obtain rfl := Host.Outcome.next.inj ht
    exact State.threads_modThread (w := strayThread) _ _ rfl
  have hnone := ((hframe 0).2 0).2 0
  rw [strayState_no_thread, Option.map_eq_none_iff] at hnone
  rw [hnone] at hlive
  exact absurd hlive (by decide)

end Sys2Proof.Machine
end

section
namespace Sys2Proof.Machine

/-! ### Exact accumulator lines (04 R83, R84)

What an addition sees of a line is a set of four flags (NaN, +∞, −∞, overflow: bits 448 to 451) over an integer of 448 bits. An
addition joins its flags to the set and adds to the integer, so additions that do not overflow commute. -/

/-- The line of a set of flags, below 16, and an integer. -/
def xalLine (flags : Nat) (z : Int) : Line := BitVec.ofNat 512 (2 ^ 448 * flags + (BitVec.ofInt 448 z).toNat)
/-- The integers of 448 bits. -/
def XalFits (z : Int) : Prop := -2 ^ 447 ≤ z ∧ z < 2 ^ 447

/-- What the addition of an FP32 value adds to the integer, its magnitude, and the flag it sets. -/
def xalUnits (x : Nat) : Int :=
  match fp32.decode x with
  | .fin neg k => signedUnits neg k
  | _ => 0
def xalMagnitude (x : Nat) : Nat :=
  match fp32.decode x with
  | .fin _ k => k
  | _ => 0
def xalFlag (x : Nat) : Nat :=
  match fp32.decode x with
  | .nan => 1
  | .inf neg => if neg then 4 else 2
  | .fin .. => 0
/-- The flag of a sum outside the integers of 448 bits. -/
def xalOverflow (z : Int) : Nat := if z < -2 ^ 447 ∨ 2 ^ 447 ≤ z then 8 else 0

variable {flags : Nat} {z : Int}

theorem xalFlag_lt (x : Nat) : xalFlag x < 16 := by
  unfold xalFlag
  split
  · decide
  · split <;> decide
  · decide
theorem xalOverflow_fits (h : XalFits z) : xalOverflow z = 0 :=
  if_neg fun ho => ho.elim (fun hl => absurd h.1 (not_le.mpr hl)) fun hr => absurd h.2 (not_lt.mpr hr)
theorem xalOverflow_lt (z : Int) : xalOverflow z < 16 := by
  unfold xalOverflow
  split <;> decide
theorem signedUnits_natAbs (neg : Bool) (k : Nat) : (signedUnits neg k).natAbs = k := by
  cases neg <;> simp [signedUnits]
theorem xalUnits_natAbs (x : Nat) : (xalUnits x).natAbs = xalMagnitude x := by
  unfold xalUnits xalMagnitude
  cases fp32.decode x
  · rfl
  · rfl
  · exact signedUnits_natAbs _ _

/-! Flags over a field of m bits. -/

theorem flags_below {m lo : Nat} (hf : flags < 16) (hl : lo < 2 ^ m) : 2 ^ m * flags + lo < 2 ^ (m + 4) :=
  calc 2 ^ m * flags + lo < 2 ^ m * flags + 2 ^ m := Nat.add_lt_add_left hl _
    _ = 2 ^ m * (flags + 1) := by ring
    _ ≤ 2 ^ m * 16 := Nat.mul_le_mul_left _ hf
    _ = 2 ^ (m + 4) := (pow_add 2 m 4).symm
theorem flags_of {m lo : Nat} (hl : lo < 2 ^ m) : (2 ^ m * flags + lo) / 2 ^ m = flags := by
  rw [Nat.mul_add_div (Nat.two_pow_pos m), Nat.div_eq_of_lt hl, Nat.add_zero]
theorem set_flag {m lo n : Nat} (hf : flags < 16) (hn : n < 4) (hl : lo < 2 ^ m) :
    (if bitOf (2 ^ m * flags + lo) (m + n) then 2 ^ m * flags + lo else 2 ^ m * flags + lo + 2 ^ (m + n)) =
      2 ^ m * (flags ||| 2 ^ n) + lo := by
  have key : ∀ f < 16, ∀ n < 4, (f ||| 2 ^ n) = if f.testBit n then f else f + 2 ^ n := by decide
  rw [key flags hf n hn, bitOf_testBit, Nat.testBit_two_pow_mul_add _ hl, if_neg (Nat.le_add_right m n).not_gt,
    Nat.add_sub_cancel_left]
  split
  · rfl
  · rw [pow_add]
    ring

theorem xalLine_toNat (hf : flags < 16) : (xalLine flags z).toNat = 2 ^ 448 * flags + (BitVec.ofInt 448 z).toNat := by
  have h : ∀ n, 2 ^ (448 + 4) ≤ 2 ^ (448 + 4 + n) := fun n => Nat.pow_le_pow_right Nat.two_pos (Nat.le_add_right _ n)
  rw [xalLine, BitVec.toNat_ofNat]
  exact Nat.mod_eq_of_lt ((flags_below hf (BitVec.isLt _)).trans_le (h 60))
theorem toInt_ofInt_xalFits (h : XalFits z) : (BitVec.ofInt 448 z).toInt = z := BitVec.toInt_ofInt_eq_self (by decide) h.1 h.2

/-- An addition to a line of flags and an integer. -/
theorem xalAdd_xalLine (hf : flags < 16) (hz : XalFits z) (x : Nat) :
    xalAdd (xalLine flags z) x = xalLine (flags ||| xalFlag x ||| xalOverflow (z + xalUnits x)) (z + xalUnits x) := by
  have hlo := (BitVec.ofInt 448 z).isLt
  have hint : BitVec.ofNat 448 (2 ^ 448 * flags + (BitVec.ofInt 448 z).toNat) = BitVec.ofInt 448 z := by
    apply BitVec.eq_of_toNat_eq
    rw [BitVec.toNat_ofNat, Nat.mul_add_mod, Nat.mod_eq_of_lt hlo]
  have hset := fun n (hn : n < 4) => set_flag (n := n) hf hn hlo
  unfold xalAdd
  simp only [xalLine_toNat hf, Nat.mod_eq_of_lt (flags_below hf hlo), hint, toInt_ofInt_xalFits hz]
  unfold xalFlag xalUnits
  cases fp32.decode x with
  | nan =>
    simp only [add_zero, xalOverflow_fits hz, Nat.or_zero]
    rw [hset 0 (by decide)]
    rfl
  | inf neg =>
    simp only [add_zero, xalOverflow_fits hz, Nat.or_zero]
    cases neg
    · exact congrArg (BitVec.ofNat 512) (hset 1 (by decide))
    · exact congrArg (BitVec.ofNat 512) (hset 2 (by decide))
  | fin neg k =>
    simp only [hset 3 (by decide), Nat.or_zero, xalOverflow, xalLine, Bool.or_eq_true, decide_eq_true_eq, Nat.cast_pow, Nat.cast_ofNat]
    split
    · rw [flags_of hlo, Nat.mul_comm]
      rfl
    · rw [flags_of hlo, Nat.mul_comm, Nat.or_zero]

/-- The flags and the integer of a line, as an addition reads them. -/
def xalFlagsOf (line : Line) : Nat := line.toNat / 2 ^ 448 % 16
def xalIntOf (line : Line) : Int := (BitVec.ofNat 448 line.toNat).toInt

theorem xalFlagsOf_lt (line : Line) : xalFlagsOf line < 16 := Nat.mod_lt _ (by decide)
theorem xalIntOf_fits (line : Line) : XalFits (xalIntOf line) := ⟨BitVec.le_toInt _, BitVec.toInt_lt⟩

theorem xalLine_of_toNat (line : Line) : (xalLine (xalFlagsOf line) (xalIntOf line)).toNat = line.toNat % 2 ^ 452 := by
  have hmod : ∀ l m : Nat, l % 2 ^ (m + 4) = 2 ^ m * (l / 2 ^ m % 16) + l % 2 ^ m := fun l m => by
    rw [pow_add, Nat.mod_mul, Nat.add_comm]
    rfl
  rw [xalLine_toNat (xalFlagsOf_lt line), xalIntOf, BitVec.ofInt_toInt, BitVec.toNat_ofNat]
  exact (hmod line.toNat 448).symm

/-- An addition to any line. -/
theorem xalAdd_eq (line : Line) (x : Nat) : xalAdd line x =
    xalLine (xalFlagsOf line ||| xalFlag x ||| xalOverflow (xalIntOf line + xalUnits x)) (xalIntOf line + xalUnits x) := by
  rw [← xalAdd_xalLine (xalFlagsOf_lt line) (xalIntOf_fits line)]
  unfold xalAdd
  rw [xalLine_of_toNat, Nat.mod_mod]

/-! ### Additions in any order (04 R86) -/

/-- An addition that does not overflow, on flags and an integer. -/
def xalStep (p : Nat × Int) (x : Nat) : Nat × Int := (p.1 ||| xalFlag x, p.2 + xalUnits x)

theorem xalStep_comm : RightCommutative xalStep :=
  ⟨fun _ _ _ => Prod.ext (Nat.or_right_comm _ _ _) (add_right_comm _ _ _)⟩

/-- Additions whose magnitudes leave the integer within its bits. -/
theorem foldl_xalAdd (xs : List Nat) (hf : flags < 16) (hlo : -2 ^ 447 ≤ z - (xs.map xalMagnitude).sum)
    (hhi : z + (xs.map xalMagnitude).sum < 2 ^ 447) :
    xs.foldl xalAdd (xalLine flags z) = xalLine (xs.foldl xalStep (flags, z)).1 (xs.foldl xalStep (flags, z)).2 := by
  induction xs generalizing flags z with
  | nil => rfl
  | cons x xs ih =>
    have habs := xalUnits_natAbs x
    rw [List.map_cons, List.sum_cons] at hlo hhi
    generalize hB : (2 : Int) ^ 447 = B at hlo hhi ih
    have hz : XalFits z := by
      unfold XalFits
      omega
    have hz' : XalFits (z + xalUnits x) := by
      unfold XalFits
      omega
    rw [List.foldl_cons, List.foldl_cons, xalAdd_xalLine hf hz, xalOverflow_fits hz', Nat.or_zero]
    exact ih (Nat.or_lt_two_pow (n := 4) hf (xalFlag_lt x)) (by omega) (by omega)

/-- The same additions in another order. -/
theorem foldl_xalAdd_perm {xs ys : List Nat} (h : xs.Perm ys) (hf : flags < 16) (hlo : -2 ^ 447 ≤ z - (xs.map xalMagnitude).sum)
    (hhi : z + (xs.map xalMagnitude).sum < 2 ^ 447) : xs.foldl xalAdd (xalLine flags z) = ys.foldl xalAdd (xalLine flags z) := by
  have hsum := (h.map xalMagnitude).sum_eq
  have hstep := xalStep_comm
  rw [foldl_xalAdd xs hf hlo hhi, foldl_xalAdd ys hf (hsum ▸ hlo) (hsum ▸ hhi), h.foldl_eq]

/-- Additions to the cleared line. -/
theorem foldl_xalAdd_cleared {xs ys : List Nat} (h : xs.Perm ys) (hs : (xs.map xalMagnitude).sum < 2 ^ 447) :
    xs.foldl xalAdd 0#512 = ys.foldl xalAdd 0#512 := by
  have hs' : (((xs.map xalMagnitude).sum : Nat) : Int) < 2 ^ 447 := by exact_mod_cast hs
  exact foldl_xalAdd_perm (flags := 0) (z := 0) h (by decide) (by omega) (by omega)

/-- Additions that add nothing to the integer, to any line. -/
theorem foldl_xalAdd_flags {xs ys : List Nat} (h : xs.Perm ys) (hs : ∀ x ∈ xs, xalMagnitude x = 0) (line : Line) :
    xs.foldl xalAdd line = ys.foldl xalAdd line := by
  have hfirst : ∀ l : List Nat, l ≠ [] → l.foldl xalAdd line = l.foldl xalAdd (xalLine (xalFlagsOf line) (xalIntOf line)) := by
    intro l hl
    obtain ⟨x, l, rfl⟩ := List.exists_cons_of_ne_nil hl
    rw [List.foldl_cons, List.foldl_cons, xalAdd_eq, xalAdd_xalLine (xalFlagsOf_lt line) (xalIntOf_fits line)]
  by_cases hx : xs = []
  · subst hx
    rw [h.nil_eq]
  · have hy : ys ≠ [] := fun hy => hx (hy ▸ h).eq_nil
    have hsum : (xs.map xalMagnitude).sum = 0 := List.sum_eq_zero (List.forall_mem_map.mpr hs)
    obtain ⟨hlo, hhi⟩ := xalIntOf_fits line
    rw [hfirst xs hx, hfirst ys hy]
    exact foldl_xalAdd_perm h (xalFlagsOf_lt line) (by rw [hsum]; omega) (by rw [hsum]; omega)

/-! ### Global atomics join the outstanding writes (07 R165 to R169) -/

section Atomics

variable {g : Guard} {d a : Reg} {ord scp : BitVec 2} {wd : BitVec 1} {off : Off} {s s1 : State} {i : Issue} {w : Who} {pa : Nat}
  {cached : Bool}

/-- The outstanding write that an atomic with an order and a scope becomes. -/
def State.addAtomic (s : State) (w : Who) (pa : Nat) (va : DWord) (kind : WriteKind) (dst : Dest) (ord scp : BitVec 2) : State :=
  s.addStore { id := 0, who := w, part := s.partOf w.core w.ctx, pa, va, kind, dst, release := ordRelease ord
               acquire := ordAcquire ord, wide := scopeWide scp }

theorem exec_globalAtom {x : Instr} {op : AtomOp} (hx : exec x s = globalAtom op x.guard d a ord scp wd off s) (hr : Runs s i x w)
    (hq : s.acquiring w = false) (ha : (s.globalAddr w a off (wBytes wd)).toNat % wBytes wd = 0)
    (ht : s.xlat w i.pc .write (s.globalAddr w a off (wBytes wd)) = (.ok pa cached, s1)) (hc : inCtl pa = false) :
    exec x s = .next (s1.addAtomic w pa (s.globalAddr w a off (wBytes wd))
      (.atom op (wd == 1#1) (s1.atomOperands w op d (wBytes wd)).1 (s1.atomOperands w op d (wBytes wd)).2) (dataDest w d (wBytes wd)) ord scp) := by
  rw [exec_one hr _ hx, access_reaches hq ha ht]
  simp only [hc, Bool.false_eq_true, if_false]
  rfl

theorem exec_xal {x : Instr} {op : XalOp} {acc : Access} {res : Nat} (hx : exec x s = xalAccess op acc x.guard d a ord scp off res s)
    (hr : Runs s i x w) (hq : s.acquiring w = false) (ha : (s.globalAddr w a off 64).toNat % 64 = 0)
    (ht : s.xlat w i.pc acc (s.globalAddr w a off 64) = (.ok pa true, s1)) :
    exec x s = .next (s1.addAtomic w pa (s.globalAddr w a off 64) (.xal op (BitVec.ofNat 32 (s1.reg w d)))
      (if res = 0 then none else dataDest w d res) ord scp) := by
  rw [exec_one hr _ hx, access_reaches hq ha ht]
  rfl

end Atomics

/-- Settles O22: each word is `globalAtom` or `xalAccess` with its operation; additions are joins of flags and sums of integers. -/
theorem globalAtomics : Obligations.GlobalAtomics := by
  refine ⟨fun g d a ord scp wd off s s1 i w pa cached => ?_, fun line xs ys h => ⟨foldl_xalAdd_cleared h, fun hs => foldl_xalAdd_flags h hs line⟩⟩
  dsimp only
  exact ⟨exec_globalAtom (op := .add) rfl, exec_globalAtom (op := .min) rfl, exec_globalAtom (op := .max) rfl,
    exec_globalAtom (op := .and) rfl, exec_globalAtom (op := .or) rfl, exec_globalAtom (op := .xor) rfl,
    exec_globalAtom (op := .xchg) rfl, exec_globalAtom (op := .cas) rfl, exec_xal (op := .add) (res := 0) rfl,
    exec_xal (op := .rd32) (res := 4) rfl, exec_xal (op := .rd64) (res := 8) rfl, exec_xal (op := .clr) (res := 4) rfl⟩

end Sys2Proof.Machine
end

section
namespace Sys2Proof.Machine

/-! ### The codes of a format (04 R76, R77)

A finite value is a sign and a code: the bits below the sign, exponent over fraction. The magnitude of a code, in units of the least
subnormal, rises with it, so rounding is between a code and the next. -/

/-- The sign and the code of a format's bits. -/
def Fmt.sign (f : Fmt) (r : Nat) : Bool := bitOf r (f.frac + f.ebits)
def Fmt.code (f : Fmt) (r : Nat) : Nat := r % 2 ^ (f.frac + f.ebits)

/-- The magnitude of a code; beyond the finite codes it goes on as if the exponent did. -/
def Fmt.mag (f : Fmt) (b : Nat) : Nat :=
  if b / 2 ^ f.frac = 0 then b % 2 ^ f.frac else (2 ^ f.frac + b % 2 ^ f.frac) * 2 ^ (b / 2 ^ f.frac - 1)

theorem Fmt.decode_eq (f : Fmt) (r : Nat) : f.decode r = if f.code r / 2 ^ f.frac = f.emax then
    (if f.code r % 2 ^ f.frac = 0 then .inf (f.sign r) else .nan) else .fin (f.sign r) (f.mag (f.code r)) := by
  have he : bitsOf r f.frac f.ebits = f.code r / 2 ^ f.frac := by
    rw [bitsOf, Fmt.code, Nat.shiftRight_eq_div_pow, pow_add, Nat.mod_mul_right_div_self]
  have hm : bitsOf r 0 f.frac = f.code r % 2 ^ f.frac := by
    rw [bitsOf, Fmt.code, Nat.shiftRight_zero, Nat.mod_mod_of_dvd _ (pow_dvd_pow 2 (Nat.le_add_right _ _))]
  simp only [Fmt.decode, Fmt.mag, he, hm]
  split
  · rfl
  · split <;> rfl

section Codes

variable (f : Fmt)

theorem Fmt.inf_lt : f.inf < 2 ^ (f.frac + f.ebits) := by
  have h : f.emax < 2 ^ f.ebits := Nat.sub_lt (Nat.two_pow_pos _) Nat.one_pos
  rw [Fmt.inf, Nat.mul_comm, pow_add]
  exact Nat.mul_lt_mul_of_pos_left h (Nat.two_pow_pos _)

theorem Fmt.signBit_eq (neg : Bool) : f.signBit neg = 2 ^ (f.frac + f.ebits) * neg.toNat := by
  cases neg <;> simp [Fmt.signBit]

variable {f} {b : Nat} (hb : b ≤ f.inf) (neg : Bool)
include hb

theorem Fmt.code_signBit_add : f.code (f.signBit neg + b) = b := by
  rw [Fmt.code, Fmt.signBit_eq, Nat.mul_add_mod, Nat.mod_eq_of_lt (hb.trans_lt f.inf_lt)]
theorem Fmt.sign_signBit_add : f.sign (f.signBit neg + b) = neg := by
  rw [Fmt.sign, bitOf_testBit, Fmt.signBit_eq, Nat.testBit_two_pow_mul_add _ (hb.trans_lt f.inf_lt), if_neg (lt_irrefl _), Nat.sub_self]
  cases neg <;> rfl
theorem Fmt.signBit_add_lt : f.signBit neg + b < 2 ^ (f.frac + f.ebits + 1) := by
  have h := hb.trans_lt f.inf_lt
  rw [Fmt.signBit_eq, pow_succ]
  cases neg <;> simp <;> omega

omit hb
/-- The finite codes are those below infinity's. -/
theorem Fmt.decode_of_lt (h : b < f.inf) : f.decode (f.signBit neg + b) = .fin neg (f.mag b) := by
  have hne : b / 2 ^ f.frac ≠ f.emax := ((Nat.div_lt_iff_lt_mul (Nat.two_pow_pos _)).mpr h).ne
  rw [Fmt.decode_eq, Fmt.code_signBit_add h.le, Fmt.sign_signBit_add h.le, if_neg hne]
theorem Fmt.decode_inf : f.decode (f.signBit neg + f.inf) = .inf neg := by
  rw [Fmt.decode_eq, Fmt.code_signBit_add le_rfl, Fmt.sign_signBit_add le_rfl, Fmt.inf, Nat.mul_div_cancel _ (Nat.two_pow_pos _),
    Nat.mul_mod_left, if_pos rfl, if_pos rfl]

theorem Fmt.code_of_fin {r k : Nat} {s : Bool} (h : f.decode r = .fin s k) : f.sign r = s ∧ f.code r < f.inf ∧ k = f.mag (f.code r) := by
  have hlt : f.code r / 2 ^ f.frac < 2 ^ f.ebits := by
    rw [Nat.div_lt_iff_lt_mul (Nat.two_pow_pos _), ← pow_add, Nat.add_comm]
    exact Nat.mod_lt _ (Nat.two_pow_pos _)
  rw [Fmt.decode_eq] at h
  split at h
  · split at h <;> exact absurd h (by simp)
  · next hne =>
    obtain ⟨rfl, rfl⟩ := FVal.fin.inj h
    refine ⟨rfl, ?_, rfl⟩
    rw [Fmt.inf, ← Nat.div_lt_iff_lt_mul (Nat.two_pow_pos _)]
    unfold Fmt.emax at *
    omega

end Codes

/-! ### Magnitudes rise with their codes -/

/-- A code as a significand over a shift; the significand is normal where the shift is not 0. -/
theorem Fmt.mag_code (f : Fmt) {sh k : Nat} (hk : k ≤ 2 * 2 ^ f.frac) (hn : sh = 0 ∨ 2 ^ f.frac ≤ k) :
    f.mag (sh * 2 ^ f.frac + k) = k * 2 ^ sh := by
  have hpos := Nat.two_pow_pos f.frac
  unfold Fmt.mag
  generalize 2 ^ f.frac = F at *
  rcases Nat.lt_or_ge k F with hlt | hge
  · obtain rfl : sh = 0 := hn.resolve_right (by omega)
    simp [Nat.mod_eq_of_lt hlt, Nat.div_eq_of_lt hlt]
  · obtain ⟨m, rfl⟩ := Nat.exists_eq_add_of_le hge
    rcases Nat.lt_or_ge m F with hm | hm
    · have hsum : sh * F + (F + m) = F * (sh + 1) + m := by ring
      rw [hsum, Nat.mul_add_div hpos, Nat.mul_add_mod, Nat.div_eq_of_lt hm, Nat.mod_eq_of_lt hm]
      simp
    · obtain rfl : m = F := by omega
      have hsum : sh * m + (m + m) = m * (sh + 2) := by ring
      rw [hsum, Nat.mul_div_cancel_left _ hpos, Nat.mul_mod_right]
      simp only [Nat.add_eq_zero_iff, OfNat.ofNat_ne_zero, and_false, if_false, Nat.add_zero]
      rw [show sh + 2 - 1 = sh + 1 by omega, pow_succ]
      ring

theorem Fmt.exists_code (f : Fmt) (b : Nat) : ∃ sh k, b = sh * 2 ^ f.frac + k ∧ k < 2 * 2 ^ f.frac ∧ (sh = 0 ∨ 2 ^ f.frac ≤ k) := by
  have hpos := Nat.two_pow_pos f.frac
  generalize 2 ^ f.frac = F at *
  rcases Nat.lt_or_ge b F with hlt | hge
  · exact ⟨0, b, by omega, by omega, .inl rfl⟩
  · refine ⟨b / F - 1, F + b % F, ?_, ?_, .inr (Nat.le_add_right _ _)⟩
    · have h1 : 1 ≤ b / F := (Nat.one_le_div_iff hpos).mpr hge
      have h2 : (b / F - 1) * F + F = b / F * F := by rw [← Nat.succ_mul, Nat.succ_eq_add_one, Nat.sub_add_cancel h1]
      have h3 := Nat.div_add_mod' b F
      omega
    · have := Nat.mod_lt b hpos
      omega

theorem Fmt.mag_strictMono (f : Fmt) : StrictMono f.mag := by
  refine strictMono_nat_of_lt_succ fun b => ?_
  obtain ⟨sh, k, rfl, hk, hn⟩ := f.exists_code b
  rw [Nat.add_assoc, Fmt.mag_code f hk.le hn, Fmt.mag_code f (by omega) (hn.imp_right fun h => h.trans (Nat.le_succ k))]
  exact Nat.mul_lt_mul_of_pos_right (Nat.lt_succ_self k) (Nat.two_pow_pos sh)

/-! ### Rounding between a code and the next (04 R87) -/

/-- The value N ÷ q, in units of the least subnormal, lies from a code to the next. -/
def Fmt.Between (f : Fmt) (N q b : Nat) : Prop := f.mag b * q ≤ N ∧ N < f.mag (b + 1) * q
/-- Of the two, it rounds to the next. -/
def Fmt.GoesUp (f : Fmt) (rm : Nat) (neg : Bool) (N q b : Nat) : Prop :=
  match rm with
  | 0 => (f.mag b + f.mag (b + 1)) * q < 2 * N ∨ (2 * N = (f.mag b + f.mag (b + 1)) * q ∧ b % 2 = 1)
  | 1 => False
  | 2 => f.mag b * q ≠ N ∧ neg = false
  | _ => f.mag b * q ≠ N ∧ neg = true
/-- The code that the value rounds to. -/
def Fmt.RoundsToCode (f : Fmt) (rm : Nat) (neg : Bool) (N q c : Nat) : Prop :=
  ∃ b, f.Between N q b ∧ ((f.GoesUp rm neg N q b ∧ c = b + 1) ∨ (¬ f.GoesUp rm neg N q b ∧ c = b))

section Ratio

variable {N q num d : Nat} (h : N * d = num * q) (hd : 0 < d) (hq : 0 < q) (m : Nat)
include h hd hq

/-! Two forms of one quotient compare alike. -/

theorem ratio_le : m * d ≤ num ↔ m * q ≤ N := by
  rw [← Nat.mul_le_mul_right_iff hq, ← h, Nat.mul_right_comm, Nat.mul_le_mul_right_iff hd]
theorem ratio_ge : num ≤ m * d ↔ N ≤ m * q := by
  rw [← Nat.mul_le_mul_right_iff hq, ← h, Nat.mul_right_comm, Nat.mul_le_mul_right_iff hd]
theorem ratio_lt : num < m * d ↔ N < m * q := by
  rw [← not_le, ← not_le, ratio_le h hd hq]
theorem ratio_eq : m * d = num ↔ m * q = N := by
  rw [le_antisymm_iff, le_antisymm_iff, ratio_le h hd hq, ratio_ge h hd hq]

theorem Fmt.goesUp_ratio (f : Fmt) (rm : Nat) (neg : Bool) (b : Nat) : f.GoesUp rm neg num d b ↔ f.GoesUp rm neg N q b := by
  have h2 : 2 * N * d = 2 * num * q := by rw [Nat.mul_assoc, h, Nat.mul_assoc]
  rcases rm with _ | _ | _ | rm
  · simp only [Fmt.GoesUp, ← not_le, ratio_ge h2 hd hq, eq_comm (a := 2 * num), eq_comm (a := 2 * N), ratio_eq h2 hd hq]
  · rfl
  · simp only [Fmt.GoesUp, ne_eq, ratio_eq h hd hq]
  · simp only [Fmt.GoesUp, ne_eq, ratio_eq h hd hq]
theorem Fmt.roundsToCode_ratio {f : Fmt} {rm : Nat} {neg : Bool} {c : Nat} (hc : f.RoundsToCode rm neg num d c) :
    f.RoundsToCode rm neg N q c := by
  obtain ⟨b, ⟨hlo, hhi⟩, hup⟩ := hc
  rw [Fmt.goesUp_ratio h hd hq] at hup
  exact ⟨b, ⟨(ratio_le h hd hq _).mp hlo, (ratio_lt h hd hq _).mp hhi⟩, hup⟩

end Ratio

/-- The significand of a quotient over the shift that its leading bit gives. -/
theorem shifted_quotient (v fr : Nat) : v / 2 ^ (v.log2 - fr) < 2 * 2 ^ fr ∧ (v.log2 - fr = 0 ∨ 2 ^ fr ≤ v / 2 ^ (v.log2 - fr)) := by
  have hlt := Nat.lt_log2_self (n := v)
  rcases Nat.lt_or_ge fr v.log2 with hs | hs
  · have hv : v ≠ 0 := by
      rintro rfl
      simp at hs
    have hle := Nat.log2_self_le hv
    obtain ⟨j, hj⟩ := Nat.exists_eq_add_of_lt hs
    rw [hj] at hlt hle ⊢
    rw [show fr + j + 1 - fr = j + 1 by omega]
    refine ⟨(Nat.div_lt_iff_lt_mul (Nat.two_pow_pos _)).mpr ?_, .inr ((Nat.le_div_iff_mul_le (Nat.two_pow_pos _)).mpr ?_)⟩
    · rwa [← pow_succ', ← pow_add, show fr + 1 + (j + 1) = fr + j + 1 + 1 by omega]
    · rwa [← pow_add, ← Nat.add_assoc]
  · rw [Nat.sub_eq_zero_of_le hs, pow_zero, Nat.div_one, ← pow_succ']
    exact ⟨hlt.trans_le (Nat.pow_le_pow_right Nat.two_pos (by omega)), .inl rfl⟩

/-- A nonzero quotient rounds to a code, and to the infinity or the greatest value where that is beyond the finite ones. -/
theorem Fmt.round_code {f : Fmt} (hf : 1 ≤ f.frac) (rm : Nat) (neg : Bool) {n d : Nat} (hn : n ≠ 0) (hd : 0 < d) :
    ∃ c, f.RoundsToCode rm neg (n * 2 ^ f.unit) d c ∧
      f.round rm neg n d = if f.inf ≤ c then f.overflow rm neg else f.signBit neg + c := by
  unfold Fmt.round
  rw [if_neg hn]
  dsimp only
  generalize n * 2 ^ f.unit = num
  obtain ⟨hk, hnorm⟩ := shifted_quotient (num / d) f.frac
  rw [Nat.div_div_eq_div_mul] at hk hnorm
  generalize (num / d).log2 - f.frac = sh at *
  have hdiv := Nat.div_add_mod num (d * 2 ^ sh)
  have hmod := Nat.mod_lt num (Nat.mul_pos hd (Nat.two_pow_pos sh))
  unfold roundQuot
  dsimp only
  generalize num / (d * 2 ^ sh) = k at *
  generalize num % (d * 2 ^ sh) = r at *
  have hlo : f.mag (sh * 2 ^ f.frac + k) * d = d * 2 ^ sh * k := by
    rw [Fmt.mag_code f hk.le hnorm]
    ring
  have hhi : f.mag (sh * 2 ^ f.frac + k + 1) * d = d * 2 ^ sh * k + d * 2 ^ sh := by
    rw [Nat.add_assoc, Fmt.mag_code f (by omega) (hnorm.imp_right fun h => h.trans (Nat.le_add_right k 1))]
    ring
  have hpar : (sh * 2 ^ f.frac + k) % 2 = k % 2 := by
    obtain ⟨e, he⟩ := Nat.exists_eq_add_of_le hf
    rw [he, pow_add, pow_one, Nat.mul_left_comm, Nat.mul_add_mod]
  have hup : roundsUp rm neg k r (d * 2 ^ sh) = true ↔ f.GoesUp rm neg num d (sh * 2 ^ f.frac + k) := by
    have hne : r ≠ 0 ↔ d * 2 ^ sh * k ≠ num := by omega
    rcases rm with _ | _ | _ | rm
    · simp only [roundsUp, Fmt.GoesUp, hpar, Nat.add_mul, hlo, hhi, Bool.or_eq_true, Bool.and_eq_true, decide_eq_true_eq, beq_iff_eq]
      omega
    · simp [roundsUp, Fmt.GoesUp]
    · simp only [roundsUp, Fmt.GoesUp, hlo, Bool.and_eq_true, bne_iff_ne, Bool.not_eq_true', hne]
    · simp only [roundsUp, Fmt.GoesUp, hlo, Bool.and_eq_true, bne_iff_ne, hne]
  refine ⟨_, ⟨sh * 2 ^ f.frac + k, ⟨?_, ?_⟩, ?_⟩, rfl⟩
  · omega
  · omega
  · rw [← hup]
    split
    · next h => exact .inl ⟨h, rfl⟩
    · next h => exact .inr ⟨h, rfl⟩

end Sys2Proof.Machine
end

section
namespace Sys2Proof.Machine

/-! ### The rounded value against every finite one (04 R87) -/

/-- What rounding asks of a format, and the four formats have: a fraction, a bias, and a top exponent well above the bias, so that
1 and every integer of the significand's bits are values of the format. -/
structure Fmt.Sound (f : Fmt) : Prop where
  frac_pos : 1 ≤ f.frac
  bias_pos : 1 ≤ f.bias
  bias_lt : f.bias + f.frac + 2 ≤ f.emax

theorem Fmt.sound_of_mem {f : Fmt} (h : f ∈ [fp64, fp32, fp16, bf16]) : f.Sound := by
  have key : ∀ f ∈ [fp64, fp32, fp16, bf16], 1 ≤ f.frac ∧ 1 ≤ f.bias ∧ f.bias + f.frac + 2 ≤ f.emax := by decide
  obtain ⟨h1, h2, h3⟩ := key f h
  exact ⟨h1, h2, h3⟩

section Sound

variable {f : Fmt} (hf : f.Sound)
include hf

theorem Fmt.Sound.emax_eq : ∃ e, f.emax = e + 2 := ⟨f.emax - 2, by have := hf.bias_lt; omega⟩
theorem Fmt.Sound.inf_pos : 0 < f.inf := by
  obtain ⟨e, he⟩ := hf.emax_eq
  rw [Fmt.inf, he]
  exact Nat.mul_pos (Nat.succ_pos _) (Nat.two_pow_pos _)
theorem Fmt.Sound.inf_even : f.inf % 2 = 0 := by
  obtain ⟨e, he⟩ := Nat.exists_eq_add_of_le hf.frac_pos
  rw [Fmt.inf, he, pow_add, pow_one, Nat.mul_left_comm, Nat.mul_mod_right]
theorem Fmt.Sound.signBit_even (neg : Bool) : f.signBit neg % 2 = 0 := by
  obtain ⟨e, he⟩ := Nat.exists_eq_add_of_le hf.frac_pos
  rw [Fmt.signBit_eq, he, Nat.add_assoc, pow_add, pow_one, Nat.mul_assoc, Nat.mul_mod_right]

/-- Infinity's code goes on from the greatest finite one. -/
theorem Fmt.Sound.mag_inf : f.mag f.inf = f.top + f.topUlp := by
  obtain ⟨e, he⟩ := hf.emax_eq
  have hcode : f.inf = e * 2 ^ f.frac + 2 * 2 ^ f.frac := by
    rw [Fmt.inf, he]
    ring
  rw [hcode, Fmt.mag_code f le_rfl (.inr (by omega)), Fmt.top, Fmt.topUlp, he, Nat.add_sub_cancel, ← pow_succ']
  rw [← Nat.succ_mul, Nat.succ_eq_add_one, Nat.sub_add_cancel (Nat.two_pow_pos _)]
theorem Fmt.Sound.mag_greatest : f.mag (f.inf - 1) = f.top := by
  obtain ⟨e, he⟩ := hf.emax_eq
  have hpos := Nat.two_pow_pos f.frac
  have hcode : f.inf - 1 = e * 2 ^ f.frac + (2 * 2 ^ f.frac - 1) := by
    rw [Fmt.inf, he, Nat.add_mul]
    omega
  rw [hcode, Fmt.mag_code f (Nat.sub_le _ _) (.inr (by omega)), Fmt.top, he, Nat.add_sub_cancel, ← pow_succ']

theorem Fmt.Sound.mag_le_top {b : Nat} (hb : b < f.inf) : f.mag b ≤ f.top := by
  rw [← hf.mag_greatest]
  exact f.mag_strictMono.monotone (Nat.le_sub_one_of_lt hb)

end Sound

section Nearest

variable {f : Fmt} {N q b b' : Nat} {w : Int} (hq : 0 < q) (hb : f.Between N q b) (hw : w.natAbs = f.mag b')
include hb hw

/-- No value that does not pass N ÷ q passes the code below. -/
theorem Fmt.Between.greatest (h : w * q ≤ N) : w ≤ f.mag b := by
  rcases Nat.lt_or_ge b b' with hlt | hge
  · have hmono := Nat.mul_le_mul_right q (f.mag_strictMono.monotone hlt)
    have hpass : N < f.mag b' * q := hb.2.trans_le hmono
    rw [← hw] at hpass
    rcases Int.natAbs_eq w with hs | hs
    · rw [hs] at h
      exact absurd h (not_le.mpr (by exact_mod_cast hpass))
    · omega
  · have := f.mag_strictMono.monotone hge
    omega

/-- No value that N ÷ q does not pass is below the next code, unless N ÷ q is a code's value. -/
theorem Fmt.Between.least (hne : f.mag b * q ≠ N) (h : N ≤ w * q) : f.mag (b + 1) ≤ w := by
  have hN : 0 < w := by
    by_contra hneg
    have : w * q ≤ 0 := mul_nonpos_of_nonpos_of_nonneg (not_lt.mp hneg) (Int.natCast_nonneg q)
    have := hb.1
    omega
  have hw' : w = f.mag b' := by omega
  rw [hw'] at h ⊢
  rcases Nat.lt_or_ge b b' with hlt | hge
  · exact_mod_cast f.mag_strictMono.monotone hlt
  · have hmono := Nat.mul_le_mul_right q (f.mag_strictMono.monotone hge)
    have h : N ≤ f.mag b' * q := by exact_mod_cast h
    have := hb.1
    omega

include hq in
/-- The nearest of the two codes is the nearest of all. -/
theorem Fmt.Between.nearest {c : Nat} {neg : Bool}
    (hc : (f.GoesUp 0 neg N q b ∧ c = b + 1) ∨ (¬ f.GoesUp 0 neg N q b ∧ c = b)) :
    ((N : Int) - f.mag c * q).natAbs ≤ (N - w * q).natAbs ∧
      (((N : Int) - f.mag c * q).natAbs = (N - w * q).natAbs → w = f.mag c ∨ c % 2 = 0) := by
  obtain ⟨hlo, hhi⟩ := hb
  have hlt : ∀ {x y : Nat}, x < y → f.mag x * q < f.mag y * q := fun h =>
    Nat.mul_lt_mul_of_pos_right (f.mag_strictMono h) hq
  have hprod : ∀ x, ((f.mag x : Int) * q) = ((f.mag x * q : Nat) : Int) := fun x => (Nat.cast_mul _ _).symm
  have hsum : (f.mag b + f.mag (b + 1)) * q = f.mag b * q + f.mag (b + 1) * q := Nat.add_mul _ _ _
  simp only [Fmt.GoesUp, hsum] at hc
  rw [hprod]
  rcases lt_or_ge w 0 with hs | hs
  · have hneg : w * q < 0 := mul_neg_of_neg_of_pos hs (by exact_mod_cast hq)
    rcases hc with ⟨hup, rfl⟩ | ⟨hup, rfl⟩
    · omega
    · omega
  · have hw' : w = f.mag b' := by omega
    rw [hw', hprod, Nat.cast_inj]
    rcases lt_trichotomy b' b with h | rfl | h
    · have := hlt h
      rcases hc with ⟨hup, rfl⟩ | ⟨hup, rfl⟩ <;> omega
    · rcases hc with ⟨hup, rfl⟩ | ⟨hup, rfl⟩ <;> omega
    · rcases Nat.eq_or_lt_of_le (show b + 1 ≤ b' from h) with rfl | h
      · rcases hc with ⟨hup, rfl⟩ | ⟨hup, rfl⟩ <;> omega
      · have := hlt h
        rcases hc with ⟨hup, rfl⟩ | ⟨hup, rfl⟩ <;> omega

end Nearest

/-! ### Each mode's choice (04 R87) -/

/-- Rounding toward zero: the mode, or the sign under rounding up or down. -/
def RoundsToward (rm : Nat) (neg : Bool) : Prop := rm = 1 ∨ (rm = 2 ∧ neg = true) ∨ (rm = 3 ∧ neg = false)
/-- Rounding away from zero. -/
def RoundsAway (rm : Nat) (neg : Bool) : Prop := (rm = 2 ∧ neg = false) ∨ (rm = 3 ∧ neg = true)

section Modes

variable {f : Fmt} {rm N q c b' : Nat} {neg : Bool} {w : Int} (hq : 0 < q) (hc : f.RoundsToCode rm neg N q c) (hw : w.natAbs = f.mag b')

theorem Fmt.goesUp_away {b : Nat} (h : RoundsAway rm neg) : f.GoesUp rm neg N q b ↔ f.mag b * q ≠ N := by
  rcases h with ⟨rfl, rfl⟩ | ⟨rfl, rfl⟩ <;> simp [Fmt.GoesUp]
theorem Fmt.not_goesUp_toward {b : Nat} (h : RoundsToward rm neg) : ¬ f.GoesUp rm neg N q b := by
  rcases h with rfl | ⟨rfl, rfl⟩ | ⟨rfl, rfl⟩ <;> simp [Fmt.GoesUp]

include hc

theorem Fmt.RoundsToCode.toward (h : RoundsToward rm neg) : f.mag c * q ≤ N := by
  obtain ⟨b, hb, ⟨hup, -⟩ | ⟨-, rfl⟩⟩ := hc
  · exact absurd hup (Fmt.not_goesUp_toward h)
  · exact hb.1
theorem Fmt.RoundsToCode.away (h : RoundsAway rm neg) : N ≤ f.mag c * q := by
  obtain ⟨b, hb, hup⟩ := hc
  rw [Fmt.goesUp_away h] at hup
  rcases hup with ⟨-, rfl⟩ | ⟨he, rfl⟩
  · exact hb.2.le
  · exact (not_not.mp he).ge

include hw

theorem Fmt.RoundsToCode.toward_greatest (h : RoundsToward rm neg) (hp : w * q ≤ N) : w ≤ f.mag c := by
  obtain ⟨b, hb, ⟨hup, -⟩ | ⟨-, rfl⟩⟩ := hc
  · exact absurd hup (Fmt.not_goesUp_toward h)
  · exact hb.greatest hw hp
include hq in
theorem Fmt.RoundsToCode.away_least (h : RoundsAway rm neg) (hp : N ≤ w * q) : f.mag c ≤ w := by
  obtain ⟨b, hb, hup⟩ := hc
  rw [Fmt.goesUp_away h] at hup
  rcases hup with ⟨he, rfl⟩ | ⟨he, rfl⟩
  · exact hb.least hw he hp
  · rw [← not_not.mp he, Nat.cast_mul] at hp
    exact le_of_mul_le_mul_right hp (by exact_mod_cast hq)

end Modes

section Top

variable {f : Fmt} (hf : f.Sound) {rm N q c : Nat} {neg : Bool} (hq : 0 < q)
include hf

theorem Fmt.Sound.below_top (hc : f.RoundsToCode 0 neg N q c) (h : c < f.inf) : 2 * N < (2 * f.top + f.topUlp) * q := by
  obtain ⟨b, hb, hup⟩ := hc
  have hinf := hf.mag_inf
  have hgr := hf.mag_greatest
  have hevn := hf.inf_even
  rcases Nat.lt_or_ge (b + 1) f.inf with hlt | hge
  · have hle := Nat.mul_le_mul_right q (hf.mag_le_top hlt)
    have := hb.2
    calc 2 * N < 2 * (f.top * q) := by omega
      _ ≤ (2 * f.top + f.topUlp) * q := by
        rw [← Nat.mul_assoc]
        exact Nat.mul_le_mul_right q (Nat.le_add_right _ _)
  · obtain ⟨hnot, rfl⟩ := hup.resolve_left fun x => by omega
    have hnext : c + 1 = f.inf := by omega
    have hsum : f.mag c + f.mag (c + 1) = 2 * f.top + f.topUlp := by
      rw [hnext, hinf, show c = f.inf - 1 by omega, hgr]
      omega
    simp only [Fmt.GoesUp, hsum] at hnot
    omega

include hq
theorem Fmt.Sound.above_top (hc : f.RoundsToCode rm neg N q c) (h : f.inf ≤ c) :
    f.top * q < N ∧ (rm = 0 → (2 * f.top + f.topUlp) * q ≤ 2 * N) := by
  obtain ⟨b, ⟨hlo, hhi⟩, hup⟩ := hc
  have hinf := hf.mag_inf
  have hgr := hf.mag_greatest
  have hpos : 0 < f.topUlp * q := Nat.mul_pos (Nat.two_pow_pos _) hq
  have hexp : (2 * f.top + f.topUlp) * q = 2 * (f.top * q) + f.topUlp * q := by ring
  rw [hexp]
  rcases Nat.lt_or_ge b f.inf with hlt | hge
  · obtain ⟨hgo, rfl⟩ := hup.resolve_right fun x => by omega
    have hb : b = f.inf - 1 := by omega
    have hnext : b + 1 = f.inf := by omega
    have hmag : f.mag b = f.top := by rw [hb, hgr]
    have hsum : (f.top + f.mag (b + 1)) * q = 2 * (f.top * q) + f.topUlp * q := by
      rw [hnext, hinf]
      ring
    rw [hmag] at hlo
    rcases rm with _ | _ | _ | rm <;> simp only [Fmt.GoesUp, hmag, hsum] at hgo <;> omega
  · have hle := Nat.mul_le_mul_right q (f.mag_strictMono.monotone hge)
    rw [hinf, Nat.add_mul] at hle
    omega

end Top

/-! ### The bits that R87 asks for -/

theorem roundsToward_or_away {rm : Nat} (hrm : rm < 4) (h0 : rm ≠ 0) (neg : Bool) : RoundsToward rm neg ∨ RoundsAway rm neg := by
  unfold RoundsToward RoundsAway
  cases neg <;> simp <;> omega

section Result

variable {f : Fmt} (hf : f.Sound) {rm N q c : Nat} {neg : Bool} (hq : 0 < q) (hN : N ≠ 0)

theorem signedUnits_neg_iff (hN : N ≠ 0) : decide (signedUnits neg N < 0) = neg := by
  cases neg
  · simp [signedUnits]
  · simp only [signedUnits, if_true, decide_eq_true_eq]
    omega

include hf hq hN

theorem Fmt.Sound.isRounding_finite (hc : f.RoundsToCode rm neg N q c) (h : c < f.inf) :
    f.IsRounding rm (signedUnits neg N) q (f.signBit neg + c) := by
  refine ⟨Fmt.signBit_add_lt h.le neg, ?_⟩
  rw [Fmt.decode_of_lt neg h]
  refine ⟨(signedUnits_neg_iff hN).symm, fun h0 => ?_, fun r' s' k' hr' => ?_⟩
  · subst h0
    rw [signedUnits_natAbs]
    exact hf.below_top hc h
  obtain ⟨-, -, rfl⟩ := Fmt.code_of_fin hr'
  have heven : (f.signBit neg + c) % 2 = c % 2 := by
    have := hf.signBit_even neg
    omega
  rw [heven]
  have hw := signedUnits_natAbs s' (f.mag (f.code r'))
  generalize signedUnits s' (f.mag (f.code r')) = v' at hw
  refine ⟨?_, ?_, ?_, ?_⟩
  · rintro rfl
    obtain ⟨b, hb, hup⟩ := hc
    cases neg
    · exact hb.nearest hq hw hup
    · obtain ⟨hle, heq⟩ := hb.nearest hq ((Int.natAbs_neg v').trans hw) hup
      simp only [signedUnits, if_true, neg_mul] at hle heq ⊢
      omega
  · rintro rfl
    rw [signedUnits_natAbs]
    have ht : RoundsToward 1 neg := .inl rfl
    exact ⟨hc.toward ht, fun hp => by exact_mod_cast hc.toward_greatest (Int.natAbs_natCast _) ht (by exact_mod_cast hp)⟩
  · rintro rfl
    cases neg
    · have ha : RoundsAway 2 false := .inl ⟨rfl, rfl⟩
      have hle : (N : Int) ≤ f.mag c * q := by exact_mod_cast hc.away ha
      exact ⟨hle, hc.away_least hq hw ha⟩
    · have ht : RoundsToward 2 true := .inr (.inl ⟨rfl, rfl⟩)
      have hle : (f.mag c : Int) * q ≤ N := by exact_mod_cast hc.toward ht
      have hgr := hc.toward_greatest (w := -v') ((Int.natAbs_neg v').trans hw) ht
      simp only [signedUnits, if_true, neg_mul] at hgr ⊢
      omega
  · rintro rfl
    cases neg
    · have ht : RoundsToward 3 false := .inr (.inr ⟨rfl, rfl⟩)
      have hle : (f.mag c : Int) * q ≤ N := by exact_mod_cast hc.toward ht
      exact ⟨hle, hc.toward_greatest hw ht⟩
    · have ha : RoundsAway 3 true := .inr ⟨rfl, rfl⟩
      have hle : (N : Int) ≤ f.mag c * q := by exact_mod_cast hc.away ha
      have hgr := hc.away_least (w := -v') hq ((Int.natAbs_neg v').trans hw) ha
      simp only [signedUnits, if_true, neg_mul] at hgr ⊢
      omega

theorem Fmt.Sound.isRounding_overflow (hrm : rm < 4) (hc : f.RoundsToCode rm neg N q c) (h : f.inf ≤ c) :
    f.IsRounding rm (signedUnits neg N) q (f.overflow rm neg) := by
  obtain ⟨habove, hhalf⟩ := hf.above_top hq hc h
  have habove : ((f.top * q : Nat) : Int) < N := by exact_mod_cast habove
  by_cases ht : RoundsToward rm neg
  · have hgr : f.overflow rm neg = f.signBit neg + (f.inf - 1) := by
      rcases ht with rfl | ⟨rfl, rfl⟩ | ⟨rfl, rfl⟩ <;> rfl
    have hlt : f.inf - 1 < f.inf := Nat.sub_one_lt hf.inf_pos.ne'
    rw [hgr]
    refine ⟨Fmt.signBit_add_lt hlt.le neg, ?_⟩
    rw [Fmt.decode_of_lt neg hlt, hf.mag_greatest]
    refine ⟨(signedUnits_neg_iff hN).symm, fun h0 => ?_, fun r' s' k' hr' => ?_⟩
    · unfold RoundsToward at ht
      omega
    obtain ⟨-, hlt', rfl⟩ := Fmt.code_of_fin hr'
    have hle := hf.mag_le_top hlt'
    have hw := signedUnits_natAbs s' (f.mag (f.code r'))
    generalize signedUnits s' (f.mag (f.code r')) = v' at hw
    rw [Nat.cast_mul] at habove
    rcases ht with rfl | ⟨rfl, rfl⟩ | ⟨rfl, rfl⟩
    · rw [signedUnits_natAbs]
      exact ⟨(absurd · (by decide)), fun _ => ⟨by exact_mod_cast habove.le, fun _ => hle⟩, (absurd · (by decide)), (absurd · (by decide))⟩
    · simp only [signedUnits, if_true, neg_mul]
      exact ⟨(absurd · (by decide)), (absurd · (by decide)), fun _ => ⟨by omega, fun _ => by omega⟩, (absurd · (by decide))⟩
    · simp only [signedUnits, Bool.false_eq_true, if_false]
      exact ⟨(absurd · (by decide)), (absurd · (by decide)), (absurd · (by decide)), fun _ => ⟨by omega, fun _ => by omega⟩⟩
  · have hinf : f.overflow rm neg = f.signBit neg + f.inf := by
      by_cases h0 : rm = 0
      · subst h0
        rfl
      · rcases (roundsToward_or_away hrm h0 neg).resolve_left ht with ⟨rfl, rfl⟩ | ⟨rfl, rfl⟩ <;> rfl
    rw [hinf]
    refine ⟨Fmt.signBit_add_lt le_rfl neg, ?_⟩
    rw [Fmt.decode_inf]
    refine ⟨(signedUnits_neg_iff hN).symm, ?_⟩
    rw [signedUnits_natAbs]
    by_cases h0 : rm = 0
    · exact .inl ⟨h0, hhalf h0⟩
    · rcases (roundsToward_or_away hrm h0 neg).resolve_left ht with ⟨rfl, rfl⟩ | ⟨rfl, rfl⟩
      · exact .inr (.inl ⟨rfl, habove⟩)
      · exact .inr (.inr ⟨rfl, neg_lt_neg habove⟩)

/-- A nonzero quotient, rounded. -/
theorem Fmt.Sound.round_isRounding {n d : Nat} (hrm : rm < 4) (hd : 0 < d) (h : N * d = n * 2 ^ f.unit * q) :
    f.IsRounding rm (signedUnits neg N) q (f.round rm neg n d) := by
  have hn : n ≠ 0 := by
    rintro rfl
    rw [Nat.zero_mul, Nat.zero_mul] at h
    exact (Nat.mul_pos (Nat.pos_of_ne_zero hN) hd).ne' h
  obtain ⟨c, hc, hr⟩ := Fmt.round_code hf.frac_pos rm neg hn hd
  have hc := Fmt.roundsToCode_ratio h hd hq hc
  rw [hr]
  split
  · next hle => exact hf.isRounding_overflow hq hN hrm hc hle
  · next hlt => exact hf.isRounding_finite hq hN hc (not_le.mp hlt)

end Result

section Rounds

variable {f : Fmt} (hf : f.Sound) {rm q : Nat} (hq : 0 < q) (hrm : rm < 4) {d : Nat} (hd : 0 < d)
include hf hq hrm hd

/-- A quotient with its sign, rounded; a zero keeps the sign. -/
theorem Fmt.Sound.round_rounds {neg : Bool} {n N : Nat} (h : N * d = n * 2 ^ f.unit * q) :
    f.Rounds rm neg (signedUnits neg N) q (f.round rm neg n d) := by
  refine ⟨fun hz => ?_, fun hz => hf.round_isRounding hq (fun h0 => hz ?_) hrm hd h⟩
  · have hN : N = 0 := by rw [← signedUnits_natAbs neg N, hz, Int.natAbs_zero]
    rw [hN, Nat.zero_mul, eq_comm, Nat.mul_eq_zero, Nat.mul_eq_zero] at h
    have hn : n = 0 := (h.resolve_right hq.ne').resolve_right (Nat.two_pow_pos _).ne'
    rw [Fmt.round, if_pos hn]
  · rw [h0]
    cases neg <;> rfl

/-- A signed quotient, rounded; a zero takes the sign given. -/
theorem Fmt.Sound.roundInt_rounds {zeroNeg : Bool} {z y : Int} (h : y * d = z * (2 ^ f.unit : Nat) * q) :
    f.Rounds rm zeroNeg y q (f.roundInt rm zeroNeg z d) := by
  have habs : y.natAbs * d = z.natAbs * 2 ^ f.unit * q := by
    have := congrArg Int.natAbs h
    simpa only [Int.natAbs_mul, Int.natAbs_natCast] using this
  have hzero : y = 0 ↔ z = 0 := by
    constructor
    · rintro rfl
      rw [Int.natAbs_zero, Nat.zero_mul, eq_comm, Nat.mul_eq_zero, Nat.mul_eq_zero] at habs
      exact Int.natAbs_eq_zero.mp ((habs.resolve_right hq.ne').resolve_right (Nat.two_pow_pos _).ne')
    · rintro rfl
      rw [Int.natAbs_zero, Nat.zero_mul, Nat.zero_mul, Nat.mul_eq_zero] at habs
      exact Int.natAbs_eq_zero.mp (habs.resolve_right hd.ne')
  refine ⟨fun hy => ?_, fun hy => ?_⟩
  · rw [Fmt.roundInt, if_pos (hzero.mp hy)]
  · have hz : z ≠ 0 := fun hz => hy (hzero.mpr hz)
    have hsign : y < 0 ↔ z < 0 := by
      have hs := congrArg Int.sign h
      rw [Int.sign_mul, Int.sign_mul, Int.sign_mul, Int.sign_natCast_of_ne_zero hd.ne', Int.sign_natCast_of_ne_zero hq.ne',
        Int.sign_natCast_of_ne_zero (Nat.two_pow_pos _).ne', mul_one, mul_one, mul_one] at hs
      rw [← Int.sign_eq_neg_one_iff_neg, hs, Int.sign_eq_neg_one_iff_neg]
    have hy' : y = signedUnits (decide (z < 0)) y.natAbs := by
      simp only [signedUnits, decide_eq_true_eq, ← hsign]
      omega
    rw [Fmt.roundInt, if_neg hz, hy']
    exact hf.round_isRounding hq (Int.natAbs_ne_zero.mpr hy) hrm hd habs

end Rounds

end Sys2Proof.Machine
end

section
namespace Sys2Proof.Machine

/-! ### Sums, products and quotients of finite values (04 R87, R91, R94) -/

section Arithmetic

variable {f : Fmt} {rm a b d : Nat} {x y z : Bool} {k l m : Nat}

theorem signedUnits_mul (x y : Bool) (k l : Nat) : signedUnits x k * signedUnits y l = signedUnits (x != y) (k * l) := by
  cases x <;> cases y <;> simp [signedUnits]
theorem signedUnits_not (x : Bool) (k : Nat) : signedUnits (!x) k = -signedUnits x k := by
  cases x <;> simp [signedUnits]
theorem zeroSumNeg_eq (rm : Nat) (x y : Bool) : zeroSumNeg rm x y = if x = y then x else decide (rm = 3) := by
  cases x <;> cases y <;> rfl

theorem Fmt.decode_neg (h : f.decode b = .fin y l) : f.decode (f.neg b) = .fin (!y) l := by
  have hcode : f.code (f.neg b) = f.code b := by
    rw [Fmt.code, Fmt.neg, Nat.xor_mod_two_pow, Nat.mod_self, Nat.xor_zero, Fmt.code]
  have hsign : f.sign (f.neg b) = !f.sign b := by
    rw [Fmt.sign, Fmt.sign, bitOf_testBit, bitOf_testBit, Fmt.neg, Nat.testBit_xor, Nat.testBit_two_pow_self, Bool.xor_true]
  rw [Fmt.decode_eq] at h ⊢
  rw [hcode, hsign]
  split at h
  · split at h <;> exact absurd h (by simp)
  · next hne =>
    obtain ⟨rfl, rfl⟩ := FVal.fin.inj h
    rw [if_neg hne]

variable (hf : f.Sound) (hrm : rm < 4) (ha : f.decode a = .fin x k) (hb : f.decode b = .fin y l) (hd : f.decode d = .fin z m)
include hf

section Modes
include hrm ha hb

theorem Fmt.Sound.add_rounds : f.Rounds rm (if x = y then x else decide (rm = 3)) (signedUnits x k + signedUnits y l) 1 (f.add rm a b) := by
  simp only [Fmt.add, ha, hb, zeroSumNeg_eq]
  exact hf.roundInt_rounds Nat.one_pos hrm (Nat.two_pow_pos _) (by simp)

theorem Fmt.Sound.sub_rounds : f.Rounds rm (if x = !y then x else decide (rm = 3)) (signedUnits x k - signedUnits y l) 1 (f.sub rm a b) := by
  rw [sub_eq_add_neg, ← signedUnits_not]
  exact hf.add_rounds hrm ha (Fmt.decode_neg hb)

theorem Fmt.Sound.mul_rounds : f.Rounds rm (x != y) (signedUnits x k * signedUnits y l) (2 ^ f.unit) (f.mul rm a b) := by
  simp only [Fmt.mul, ha, hb, signedUnits_mul]
  exact hf.round_rounds (Nat.two_pow_pos _) hrm (Nat.two_pow_pos _) (by rw [Nat.mul_assoc _ (2 ^ f.unit), ← pow_add, Nat.two_mul])

include hd in
theorem Fmt.Sound.fma_rounds : f.Rounds rm (if (x != y) = z then (x != y) else decide (rm = 3))
    (signedUnits x k * signedUnits y l + signedUnits z m * (2 ^ f.unit : Nat)) (2 ^ f.unit) (f.fma rm a b d) := by
  have hz : signedUnits z (m * 2 ^ f.unit) = signedUnits z m * (2 ^ f.unit : Nat) := by
    cases z <;> simp [signedUnits]
  simp only [Fmt.fma, ha, hb, hd, signedUnits_mul, zeroSumNeg_eq, hz]
  refine hf.roundInt_rounds (Nat.two_pow_pos _) hrm (Nat.two_pow_pos _) ?_
  rw [mul_assoc, ← Nat.cast_mul, ← pow_add, Nat.two_mul]

end Modes

include ha hb in
theorem Fmt.Sound.div_rounds (hl : l ≠ 0) : f.Rounds 0 (x != y) (signedUnits (x != y) (k * 2 ^ f.unit)) l (f.div a b) := by
  simp only [Fmt.div, ha, hb, if_neg hl]
  exact hf.round_rounds (Nat.pos_of_ne_zero hl) (by decide) (Nat.pos_of_ne_zero hl) rfl

end Arithmetic

/-! ### The square root (04 R94) -/

theorem isqrtFrom_spec (x n r : Nat) (hlo : r * r ≤ x) (hhi : x < (r + 2 ^ n) * (r + 2 ^ n)) :
    isqrtFrom x n r * isqrtFrom x n r ≤ x ∧ x < (isqrtFrom x n r + 1) * (isqrtFrom x n r + 1) := by
  induction n generalizing r with
  | zero => exact ⟨hlo, hhi⟩
  | succ n ih =>
    rw [isqrtFrom]
    dsimp only
    split
    · next h => exact ih _ h (by rwa [Nat.add_assoc, ← Nat.two_mul, ← pow_succ'])
    · next h => exact ih _ hlo (not_le.mp h)

theorem isqrt_eq_sqrt (x : Nat) : isqrt x = Nat.sqrt x := by
  have hx : x < 2 ^ (x.log2 / 2 + 1) * 2 ^ (x.log2 / 2 + 1) := by
    rw [← pow_add]
    exact Nat.lt_log2_self.trans_le (Nat.pow_le_pow_right Nat.two_pos (by omega))
  obtain ⟨hlo, hhi⟩ := isqrtFrom_spec x (x.log2 / 2 + 1) 0 (Nat.zero_le _) (by simpa using hx)
  exact Nat.eq_sqrt.mpr ⟨hlo, hhi⟩

/-- The root that is rounded: twice the integer root of y × 2^128, and a sticky bit. -/
def stickyRoot (Y : Nat) : Nat := 2 * isqrt Y + if isqrt Y * isqrt Y = Y then 0 else 1

section StickyRoot

variable (y j : Nat)

/-- It stands to half a representable value as the exact root does. -/
theorem half_le_stickyRoot : j * 2 ^ 64 ≤ stickyRoot (y * 2 ^ 128) ↔ j ^ 2 ≤ 4 * y := by
  have hsq : j * 2 ^ 63 * (j * 2 ^ 63) ≤ y * 2 ^ 128 ↔ j ^ 2 ≤ 4 * y := by
    rw [show j * 2 ^ 63 * (j * 2 ^ 63) = j ^ 2 * 2 ^ 126 by ring, show y * 2 ^ 128 = 4 * y * 2 ^ 126 by ring]
    exact Nat.mul_le_mul_right_iff (by decide)
  rw [← hsq, ← Nat.le_sqrt, ← isqrt_eq_sqrt, stickyRoot]
  split <;> omega
theorem stickyRoot_le_half : stickyRoot (y * 2 ^ 128) ≤ j * 2 ^ 64 ↔ 4 * y ≤ j ^ 2 := by
  have hsq : y * 2 ^ 128 ≤ j * 2 ^ 63 * (j * 2 ^ 63) ↔ 4 * y ≤ j ^ 2 := by
    rw [show j * 2 ^ 63 * (j * 2 ^ 63) = j ^ 2 * 2 ^ 126 by ring, show y * 2 ^ 128 = 4 * y * 2 ^ 126 by ring]
    exact Nat.mul_le_mul_right_iff (by decide)
  have hlt := Nat.sqrt_lt (m := y * 2 ^ 128) (n := j * 2 ^ 63)
  have heq : y * 2 ^ 128 = j * 2 ^ 63 * (j * 2 ^ 63) → Nat.sqrt (y * 2 ^ 128) = j * 2 ^ 63 := fun h => by rw [h, Nat.sqrt_eq]
  rw [← hsq, stickyRoot, isqrt_eq_sqrt]
  split
  · next h =>
    have hex : Nat.sqrt (y * 2 ^ 128) = j * 2 ^ 63 → y * 2 ^ 128 = j * 2 ^ 63 * (j * 2 ^ 63) := fun hs => by rw [← h, hs]
    omega
  · next h =>
    have hne : y * 2 ^ 128 ≠ j * 2 ^ 63 * (j * 2 ^ 63) := fun he => h (by rw [heq he, he])
    omega

end StickyRoot

section Sqrt

variable {f : Fmt} (hf : f.Sound) {rm a k : Nat} (hrm : rm < 4) (ha : f.decode a = .fin false k)
include hf

theorem Fmt.Sound.unit_le_top : 2 ^ f.unit ≤ f.top := by
  have h := hf.bias_lt
  have hfr : 2 ^ f.frac ≤ 2 ^ (f.frac + 1) - 1 := by
    have := Nat.two_pow_pos f.frac
    rw [pow_succ]
    omega
  calc 2 ^ f.unit ≤ 2 ^ (f.frac + (f.emax - 2)) := Nat.pow_le_pow_right Nat.two_pos (by unfold Fmt.unit; omega)
    _ = 2 ^ f.frac * 2 ^ (f.emax - 2) := pow_add _ _ _
    _ ≤ f.top := Nat.mul_le_mul_right _ hfr

omit hf in
theorem Fmt.lt_of_sign_false {r : Nat} (hr : r < 2 ^ (f.frac + f.ebits + 1)) (hs : f.sign r = false) : r < 2 ^ (f.frac + f.ebits) := by
  have hdiv : r / 2 ^ (f.frac + f.ebits) < 2 := by rwa [Nat.div_lt_iff_lt_mul (Nat.two_pow_pos _), ← pow_succ']
  rw [Fmt.sign, bitOf, Nat.shiftRight_eq_div_pow, beq_eq_false_iff_ne] at hs
  refine (Nat.div_eq_zero_iff_lt (Nat.two_pow_pos _)).mp ?_
  generalize r / 2 ^ (f.frac + f.ebits) = t at *
  omega

omit hf in
/-- A number that stands to half a representable value, at a scale, as the root does, rounds as the root. -/
theorem Fmt.isRoot_of_halves {y r N P : Nat} (hP : 0 < P) (hlo : ∀ j, j * P ≤ N ↔ j ^ 2 ≤ 4 * y)
    (hhi : ∀ j, N ≤ j * P ↔ 4 * y ≤ j ^ 2) (hy : y ≤ f.top * f.top) (h : f.IsRounding rm N (2 * P) r) : f.IsRoot rm y r := by
  have hsq : ∀ j, (2 * j) ^ 2 ≤ 4 * y ↔ j ^ 2 ≤ y := fun j => by
    rw [mul_pow]
    omega
  have hsq' : ∀ j, 4 * y ≤ (2 * j) ^ 2 ↔ y ≤ j ^ 2 := fun j => by
    rw [mul_pow]
    omega
  have hlo2 : ∀ j, 2 * (j * P) ≤ N ↔ j ^ 2 ≤ y := fun j => by rw [← Nat.mul_assoc, hlo, hsq]
  have hhi2 : ∀ j, N ≤ 2 * (j * P) ↔ y ≤ j ^ 2 := fun j => by rw [← Nat.mul_assoc, hhi, hsq']
  have htop : N ≤ 2 * (f.top * P) := (hhi2 _).mpr (by rwa [sq])
  have hulp : 0 < f.topUlp * P := Nat.mul_pos (Nat.two_pow_pos _) hP
  obtain ⟨hr, h⟩ := h
  rcases hd : f.decode r with _ | s | ⟨s, k⟩ <;> rw [hd] at h
  · exact h.elim
  · obtain ⟨-, h⟩ := h
    have hexp : (2 * f.top + f.topUlp) * (2 * P) = 4 * (f.top * P) + 2 * (f.topUlp * P) := by ring
    rw [hexp, Nat.mul_left_comm f.top] at h
    omega
  · obtain ⟨rfl, -, h⟩ := h
    have hsign : decide ((N : Int) < 0) = false := by simp
    rw [hsign] at hd h
    refine ⟨k, hd, Fmt.lt_of_sign_false hr (Fmt.code_of_fin hd).1, fun r' s' k' hr' => ?_⟩
    obtain ⟨-, hlt, rfl⟩ := Fmt.code_of_fin hr'
    obtain ⟨h0, h1, h2, h3⟩ := h _ _ _ (Fmt.decode_of_lt false hlt)
    generalize f.mag (f.code r') = k' at *
    simp only [signedUnits, Bool.false_eq_true, if_false, Int.natAbs_natCast, Nat.mul_left_comm _ 2, ← Nat.cast_mul] at h0 h1 h2 h3
    refine ⟨fun hm => ?_, fun hm => ?_, fun hm => ?_⟩
    · obtain ⟨hle, -⟩ := h0 hm
      rw [← hhi, ← hlo, Nat.add_mul]
      refine ⟨fun hlt => ?_, fun hlt => ?_⟩
      · have := Nat.mul_lt_mul_of_pos_right hlt hP
        omega
      · have := Nat.mul_lt_mul_of_pos_right hlt hP
        omega
    · rw [← hlo2, ← hlo2]
      omega
    · rw [← hhi2, ← hhi2]
      omega

include ha hrm in
theorem Fmt.Sound.sqrt_isRoot (hk : 0 < k) : f.IsRoot rm (k * 2 ^ f.unit) (f.sqrt rm a) := by
  obtain ⟨-, hlt, hmag⟩ := Fmt.code_of_fin ha
  have hpos : 1 ≤ k * 2 ^ f.unit := Nat.mul_pos hk (Nat.two_pow_pos _)
  have hsticky : stickyRoot (k * 2 ^ f.unit * 2 ^ 128) ≠ 0 := by
    have := (half_le_stickyRoot (k * 2 ^ f.unit) 1).mpr (by omega)
    omega
  have hsqrt : f.sqrt rm a = f.round rm false (stickyRoot (k * 2 ^ f.unit * 2 ^ 128)) (2 ^ (f.unit + 65)) := by
    simp only [Fmt.sqrt, ha, hk.ne', if_false, Bool.false_eq_true, stickyRoot, pow_add _ f.unit 128, Nat.mul_assoc]
  rw [hsqrt]
  refine Fmt.isRoot_of_halves (Nat.two_pow_pos 64) (half_le_stickyRoot _) (stickyRoot_le_half _)
    (Nat.mul_le_mul (hmag ▸ hf.mag_le_top hlt) hf.unit_le_top) ?_
  refine hf.round_isRounding (neg := false) (Nat.mul_pos Nat.two_pos (Nat.two_pow_pos 64)) hsticky hrm (Nat.two_pow_pos _) ?_
  rw [← pow_succ', pow_add, ← Nat.mul_assoc]

end Sqrt

/-- The sums, products, quotients and roots of finite values. -/
theorem Fmt.Sound.arithmeticRounds {f : Fmt} (hf : f.Sound) : f.ArithmeticRounds := by
  intro rm a b d x y z k l m hrm ha hb hd
  refine ⟨hf.add_rounds hrm ha hb, hf.sub_rounds hrm ha hb, hf.mul_rounds hrm ha hb, hf.fma_rounds hrm ha hb hd,
    hf.div_rounds ha hb, fun hk hx => ?_, fun hk hx => ?_, fun hk => ?_⟩
  · subst hx
    simp only [Fmt.sqrt, ha, hk.ne', if_false, if_true]
  · subst hx
    exact hf.sqrt_isRoot hrm ha hk
  · simp only [Fmt.sqrt, ha, if_pos hk]

/-! ### Special operands (04 R92, R94) -/

section Specials

variable {f : Fmt} {rm a b d : Nat} {x y z : Bool} {k l m : Nat}

theorem Fmt.nan_operand (h : f.decode a = .nan ∨ f.decode b = .nan) : f.add rm a b = f.nan ∧ f.mul rm a b = f.nan ∧
    f.fma rm a b d = f.nan ∧ f.div a b = f.nan := by
  unfold Fmt.add Fmt.mul Fmt.fma Fmt.div
  rcases h with h | h <;> rw [h]
  · exact ⟨rfl, rfl, rfl, rfl⟩
  · cases f.decode a <;> exact ⟨rfl, rfl, rfl, rfl⟩
theorem Fmt.fma_nan_addend (h : f.decode d = .nan) : f.fma rm a b d = f.nan := by
  unfold Fmt.fma
  rw [h]
  rcases f.decode a with _ | x | ⟨x, k⟩ <;> rcases f.decode b with _ | y | ⟨y, l⟩ <;> simp only [ite_self]

section Infinite

variable (ha : f.decode a = .inf x)
include ha

theorem Fmt.inf_inf (hb : f.decode b = .inf y) : f.add rm a b = (if x = y then f.signBit x + f.inf else f.nan) ∧
    f.mul rm a b = f.signBit (x != y) + f.inf ∧ f.div a b = f.nan := by
  simp only [Fmt.add, Fmt.mul, Fmt.div, ha, hb, beq_iff_eq, and_self]
theorem Fmt.inf_fin (hb : f.decode b = .fin y l) : f.add rm a b = f.signBit x + f.inf ∧ f.add rm b a = f.signBit x + f.inf ∧
    f.mul rm a b = (if l = 0 then f.nan else f.signBit (x != y) + f.inf) ∧ f.mul rm b a = f.mul rm a b ∧
    f.div a b = f.signBit (x != y) + f.inf ∧ f.div b a = f.signBit (x != y) := by
  simp only [Fmt.add, Fmt.mul, Fmt.div, ha, hb, true_and]
  exact congrArg f.signBit bne_comm
theorem Fmt.fma_inf_zero (hb : f.decode b = .fin y 0) : f.fma rm a b d = f.nan ∧ f.fma rm b a d = f.nan := by
  simp only [Fmt.fma, ha, hb, if_true, and_self]
theorem Fmt.fma_inf_fin (hb : f.decode b = .fin y l) (hl : l ≠ 0) (hd : f.decode d = .fin z m) :
    f.fma rm a b d = f.signBit (x != y) + f.inf := by
  simp only [Fmt.fma, ha, hb, hd, if_neg hl]
theorem Fmt.fma_inf_inf (hb : f.decode b = .fin y l) (hl : l ≠ 0) (hd : f.decode d = .inf z) :
    f.fma rm a b d = if z = (x != y) then f.signBit z + f.inf else f.nan := by
  simp only [Fmt.fma, ha, hb, hd, if_neg hl, beq_iff_eq]
  split
  · next h => rw [h]
  · rfl

end Infinite

theorem Fmt.fma_fin_inf (ha : f.decode a = .fin x k) (hb : f.decode b = .fin y l) (hd : f.decode d = .inf z) :
    f.fma rm a b d = f.signBit z + f.inf := by
  simp only [Fmt.fma, ha, hb, hd]
theorem Fmt.div_fin_zero (ha : f.decode a = .fin x k) (hb : f.decode b = .fin y 0) :
    f.div a b = if k = 0 then f.nan else f.signBit (x != y) + f.inf := by
  simp only [Fmt.div, ha, hb, if_true]

end Specials

theorem Fmt.specialsRight (f : Fmt) : f.SpecialsRight := by
  intro rm a b d x y z k l m
  refine ⟨?_, Fmt.fma_nan_addend, fun ha => ⟨Fmt.inf_inf ha, fun hb => ?_, by simp only [Fmt.sqrt, ha]⟩, fun ha hb =>
    ⟨Fmt.fma_fin_inf ha hb, ?_⟩⟩
  · intro r hr h
    obtain ⟨hadd, hmul, hfma, hdiv⟩ := Fmt.nan_operand (rm := rm) (d := d) h
    simp only [List.mem_cons, List.not_mem_nil, or_false] at hr
    rcases hr with rfl | rfl | rfl | rfl <;> assumption
  · obtain ⟨hadd, hadd', hmul, hmul', hdiv, hdiv'⟩ := Fmt.inf_fin (rm := rm) ha hb
    refine ⟨hadd, hadd', hmul, hmul', hdiv, hdiv', ?_, Fmt.fma_inf_fin ha hb, Fmt.fma_inf_inf ha hb⟩
    rintro rfl
    exact Fmt.fma_inf_zero ha hb
  · rintro rfl
    exact Fmt.div_fin_zero ha hb

/-! ### Conversions (04 R87, R95; 06 R131) -/

theorem roundsUp_zero (rm : Nat) (neg : Bool) (k : Nat) {q : Nat} (hq : 0 < q) : roundsUp rm neg k 0 q = false := by
  rcases rm with _ | _ | _ | rm <;> simp [roundsUp, hq.ne]
theorem roundQuot_mul (rm : Nat) (neg : Bool) (k : Nat) {q : Nat} (hq : 0 < q) : roundQuot rm neg (k * q) q = k := by
  simp only [roundQuot, Nat.mul_div_cancel _ hq, Nat.mul_mod_left, roundsUp_zero rm neg k hq, Bool.false_eq_true, if_false]

theorem signedUnits_mul_natCast (x : Bool) (k q : Nat) : signedUnits x k * q = signedUnits x (k * q) := by
  cases x <;> simp [signedUnits]

/-- The integer below or above a quotient, as the mode has it. -/
theorem roundsToInt_above_or_below (rm : Nat) {q r : Nat} (hr : r < q) (x : Bool) (K : Nat) : RoundsToInt rm (signedUnits x (K * q + r)) q
    (signedUnits x (if roundsUp rm x K r q then K + 1 else K)) := by
  have hK : (K + 1) * q = K * q + q := Nat.succ_mul _ _
  rw [RoundsToInt, signedUnits_mul_natCast, signedUnits_natAbs, signedUnits_natAbs, signedUnits_mul, bne_self_eq_false]
  refine ⟨?_, ?_, ?_, ?_⟩
  · rintro rfl
    simp only [roundsUp, Bool.or_eq_true, Bool.and_eq_true, decide_eq_true_eq, beq_iff_eq]
    cases x <;> simp only [signedUnits, Bool.false_eq_true, if_false, if_true] <;> split <;> omega
  · rintro rfl
    simp only [roundsUp, signedUnits, Bool.false_eq_true, if_false]
    omega
  · rintro rfl
    cases x <;> simp only [roundsUp, signedUnits, Bool.false_eq_true, Bool.and_eq_true, bne_iff_ne, Bool.not_true, Bool.not_false,
      if_false, if_true, and_false, and_true]
    · split <;> omega
    · omega
  · rintro rfl
    cases x <;> simp only [roundsUp, signedUnits, Bool.false_eq_true, Bool.and_eq_true, bne_iff_ne, if_false, if_true, and_false, and_true]
    · omega
    · split <;> omega

theorem roundsToInt_roundQuot (rm : Nat) {q : Nat} (hq : 0 < q) (x : Bool) (k : Nat) :
    RoundsToInt rm (signedUnits x k) q (signedUnits x (roundQuot rm x k q)) := by
  have h := roundsToInt_above_or_below rm (Nat.mod_lt k hq) x (k / q)
  rwa [Nat.div_add_mod'] at h

/-- A value of the significand's bits at any shift has a code. -/
theorem Fmt.exists_mag (f : Fmt) {m : Nat} (hm : m ≤ 2 * 2 ^ f.frac) (s : Nat) : ∃ b, f.mag b = m * 2 ^ s := by
  induction s generalizing m with
  | zero => exact ⟨0 * 2 ^ f.frac + m, Fmt.mag_code f hm (.inl rfl)⟩
  | succ s ih =>
    rcases Nat.lt_or_ge m (2 ^ f.frac) with h | h
    · obtain ⟨b, hb⟩ := ih (m := 2 * m) (by omega)
      exact ⟨b, by rw [hb, pow_succ]; ring⟩
    · exact ⟨_, Fmt.mag_code f hm (.inr h)⟩

section Conversions

variable {f h : Fmt} (hf : f.Sound) (hh : h.Sound) {rm a k w : Nat} {x : Bool}

/-- A value of the format rounds to itself. -/
theorem Fmt.RoundsToCode.exact {neg : Bool} {b c : Nat} (h : f.RoundsToCode rm neg (f.mag b) 1 c) : c = b := by
  obtain ⟨b0, ⟨hlo, hhi⟩, hup⟩ := h
  rw [Nat.mul_one] at hlo hhi
  obtain rfl : b0 = b := by
    have h1 := f.mag_strictMono.le_iff_le.mp hlo
    have h2 := f.mag_strictMono.lt_iff_lt.mp hhi
    omega
  refine (hup.resolve_left fun h => ?_).2
  obtain ⟨hup, -⟩ := h
  have := f.mag_strictMono (Nat.lt_succ_self b0)
  rcases rm with _ | _ | _ | rm <;> simp only [Fmt.GoesUp, Nat.mul_one, ne_eq, not_true_eq_false, false_and] at hup
  omega

include hf

theorem Fmt.Sound.decode_round_exact {neg : Bool} {n b : Nat} (hb : f.mag b = n * 2 ^ f.unit) (hlt : b < f.inf) :
    f.decode (f.round rm neg n 1) = .fin neg (n * 2 ^ f.unit) := by
  by_cases hn : n = 0
  · have h0 := Fmt.decode_of_lt neg hf.inf_pos
    rw [Nat.add_zero] at h0
    rw [Fmt.round, if_pos hn, h0, hn, Nat.zero_mul, Fmt.mag, Nat.zero_div, Nat.zero_mod, if_pos rfl]
  · obtain ⟨c, hc, hr⟩ := Fmt.round_code hf.frac_pos rm neg hn Nat.one_pos
    rw [← hb] at hc ⊢
    rw [hr, hc.exact, if_neg (not_le.mpr hlt), Fmt.decode_of_lt neg hlt]

/-- The integers that a finite value rounds to are values of the format. -/
theorem Fmt.Sound.exists_code_integral (ha : f.decode a = .fin x k) :
    ∃ b < f.inf, f.mag b = roundQuot rm x k (2 ^ f.unit) * 2 ^ f.unit := by
  obtain ⟨-, hlt, hk⟩ := Fmt.code_of_fin ha
  obtain ⟨sh, m, hcode, hm, hn⟩ := f.exists_code (f.code a)
  have hkm : k = m * 2 ^ sh := by rw [hk, hcode, Fmt.mag_code f hm.le hn]
  have hpos := Nat.two_pow_pos f.unit
  rcases Nat.lt_or_ge sh f.unit with hs | hs
  · have hle : roundQuot rm x k (2 ^ f.unit) ≤ 2 ^ f.frac := by
      have hdiv : k / 2 ^ f.unit < 2 ^ f.frac := by
        rw [Nat.div_lt_iff_lt_mul hpos, hkm]
        calc m * 2 ^ sh < 2 * 2 ^ f.frac * 2 ^ sh := Nat.mul_lt_mul_of_pos_right hm (Nat.two_pow_pos _)
          _ = 2 ^ f.frac * 2 ^ (sh + 1) := by ring
          _ ≤ 2 ^ f.frac * 2 ^ f.unit := Nat.mul_le_mul_left _ (Nat.pow_le_pow_right Nat.two_pos hs)
      unfold roundQuot
      dsimp only
      split <;> omega
    obtain ⟨b, hb⟩ := f.exists_mag (hle.trans (Nat.le_mul_of_pos_left _ Nat.two_pos)) f.unit
    refine ⟨b, ?_, hb⟩
    have hone : f.mag b ≤ f.mag (f.unit * 2 ^ f.frac + 2 ^ f.frac) := by
      rw [hb, Fmt.mag_code f (by omega) (.inr le_rfl)]
      exact Nat.mul_le_mul_right _ hle
    have hbound := hf.bias_lt
    calc b ≤ f.unit * 2 ^ f.frac + 2 ^ f.frac := f.mag_strictMono.le_iff_le.mp hone
      _ = (f.unit + 1) * 2 ^ f.frac := (Nat.succ_mul _ _).symm
      _ < f.emax * 2 ^ f.frac := Nat.mul_lt_mul_of_pos_right (by unfold Fmt.unit; omega) (Nat.two_pow_pos _)
  · obtain ⟨j, rfl⟩ := Nat.exists_eq_add_of_le hs
    have hkj : k = m * 2 ^ j * 2 ^ f.unit := by rw [hkm, pow_add, Nat.mul_assoc, Nat.mul_comm (2 ^ j)]
    refine ⟨f.code a, hlt, ?_⟩
    rw [hkj, roundQuot_mul rm x _ hpos, ← hkj, hk]

theorem Fmt.Sound.decode_rnd (ha : f.decode a = .fin x k) :
    f.decode (f.rnd rm a) = .fin x (roundQuot rm x k (2 ^ f.unit) * 2 ^ f.unit) := by
  obtain ⟨b, hlt, hb⟩ := hf.exists_code_integral (rm := rm) ha
  simp only [Fmt.rnd, ha]
  exact hf.decode_round_exact hb hlt

include hh

theorem Fmt.Sound.conversionsRound : f.ConversionsRound h := by
  intro rm a x k w z hrm hw ha
  refine ⟨?_, ?_, signedUnits x (roundQuot rm x k (2 ^ f.unit)), roundsToInt_roundQuot rm (Nat.two_pow_pos _) x k, ?_, _,
    hf.decode_rnd ha, (signedUnits_mul_natCast _ _ _).symm⟩
  · rw [signedUnits_mul_natCast]
    simp only [Fmt.convert, ha]
    exact hh.round_rounds (Nat.two_pow_pos _) hrm (Nat.two_pow_pos _) rfl
  · exact hh.roundInt_rounds Nat.one_pos hrm Nat.one_pos (by simp)
  · simp only [Fmt.toInt, ha]
    rfl

end Conversions

/-- Settles O9: each operation is one rounding of its exact result, between two codes of the format. -/
theorem roundingIsCorrect : Obligations.RoundingIsCorrect := fun f hf =>
  have hs := Fmt.sound_of_mem hf
  ⟨hs.arithmeticRounds, f.specialsRight, fun _ hh => hs.conversionsRound (Fmt.sound_of_mem hh)⟩

end Sys2Proof.Machine
end

section
namespace Sys2Proof.Machine

/-! ### Canonical NaNs (04 R89)

Every result is the canonical NaN or a sign over a code up to infinity's, and no such code is a NaN. -/

/-- If the bits are a NaN of the format, they are the canonical one. -/
def Fmt.Canonical (f : Fmt) (r : Nat) : Prop := f.decode r = .nan → r = f.nan

section Results

variable {f : Fmt} {rm a b d : Nat}

theorem Fmt.canonical_nan : f.Canonical f.nan := fun _ => rfl
theorem Fmt.canonical_of_le {neg : Bool} {c : Nat} (hc : c ≤ f.inf) : f.Canonical (f.signBit neg + c) := by
  intro h
  rcases Nat.lt_or_eq_of_le hc with hlt | rfl
  · exact absurd ((Fmt.decode_of_lt neg hlt).symm.trans h) (by simp)
  · exact absurd ((Fmt.decode_inf neg).symm.trans h) (by simp)
theorem Fmt.canonical_inf {neg : Bool} : f.Canonical (f.signBit neg + f.inf) := Fmt.canonical_of_le le_rfl
theorem Fmt.canonical_of_le_inf {c : Nat} (hc : c ≤ f.inf) : f.Canonical c := by
  simpa [Fmt.signBit] using Fmt.canonical_of_le (neg := false) hc
theorem Fmt.canonical_zero {neg : Bool} : f.Canonical (f.signBit neg) := Fmt.canonical_of_le (Nat.zero_le _)
theorem Fmt.canonical_ite {c : Prop} [Decidable c] {r r' : Nat} (h : f.Canonical r) (h' : f.Canonical r') :
    f.Canonical (if c then r else r') := by
  split <;> assumption

theorem Fmt.canonical_overflow (neg : Bool) : f.Canonical (f.overflow rm neg) := by
  have hgr : f.greatest ≤ f.inf := Nat.sub_le _ _
  rcases rm with _ | _ | _ | rm
  · exact Fmt.canonical_inf
  · exact Fmt.canonical_of_le hgr
  · cases neg
    · exact Fmt.canonical_inf
    · exact Fmt.canonical_of_le hgr
  · cases neg
    · exact Fmt.canonical_of_le hgr
    · exact Fmt.canonical_inf
theorem Fmt.canonical_round (neg : Bool) (n d : Nat) : f.Canonical (f.round rm neg n d) := by
  refine Fmt.canonical_ite Fmt.canonical_zero ?_
  dsimp only
  split
  · exact Fmt.canonical_overflow neg
  · next h => exact Fmt.canonical_of_le (not_le.mp h).le
theorem Fmt.canonical_roundInt (zeroNeg : Bool) (z : Int) (d : Nat) : f.Canonical (f.roundInt rm zeroNeg z d) :=
  Fmt.canonical_ite Fmt.canonical_zero (Fmt.canonical_round _ _ _)

theorem Fmt.canonical_add (a b : Nat) : f.Canonical (f.add rm a b) := by
  unfold Fmt.add
  rcases f.decode a with _ | x | ⟨x, k⟩ <;> rcases f.decode b with _ | y | ⟨y, l⟩ <;> dsimp only
  case inf.inf => exact Fmt.canonical_ite Fmt.canonical_inf Fmt.canonical_nan
  case inf.fin => exact Fmt.canonical_inf
  case fin.inf => exact Fmt.canonical_inf
  case fin.fin => exact Fmt.canonical_roundInt _ _ _
  all_goals exact Fmt.canonical_nan
theorem Fmt.canonical_mul (a b : Nat) : f.Canonical (f.mul rm a b) := by
  unfold Fmt.mul
  rcases f.decode a with _ | x | ⟨x, k⟩ <;> rcases f.decode b with _ | y | ⟨y, l⟩ <;> dsimp only
  case inf.inf => exact Fmt.canonical_inf
  case inf.fin => exact Fmt.canonical_ite Fmt.canonical_nan Fmt.canonical_inf
  case fin.inf => exact Fmt.canonical_ite Fmt.canonical_nan Fmt.canonical_inf
  case fin.fin => exact Fmt.canonical_round _ _ _
  all_goals exact Fmt.canonical_nan
theorem Fmt.canonical_fma (a b d : Nat) : f.Canonical (f.fma rm a b d) := by
  unfold Fmt.fma
  rcases f.decode d with _ | z | ⟨z, m⟩ <;> rcases f.decode a with _ | x | ⟨x, k⟩ <;> rcases f.decode b with _ | y | ⟨y, l⟩ <;>
    dsimp only
  case inf.inf.inf => exact Fmt.canonical_ite Fmt.canonical_inf Fmt.canonical_nan
  case inf.inf.fin => exact Fmt.canonical_ite Fmt.canonical_nan (Fmt.canonical_ite Fmt.canonical_inf Fmt.canonical_nan)
  case inf.fin.inf => exact Fmt.canonical_ite Fmt.canonical_nan (Fmt.canonical_ite Fmt.canonical_inf Fmt.canonical_nan)
  case inf.fin.fin => exact Fmt.canonical_inf
  case fin.inf.inf => exact Fmt.canonical_inf
  case fin.inf.fin => exact Fmt.canonical_ite Fmt.canonical_nan Fmt.canonical_inf
  case fin.fin.inf => exact Fmt.canonical_ite Fmt.canonical_nan Fmt.canonical_inf
  case fin.fin.fin => exact Fmt.canonical_roundInt _ _ _
  case nan.inf.fin => exact Fmt.canonical_ite Fmt.canonical_nan Fmt.canonical_nan
  case nan.fin.inf => exact Fmt.canonical_ite Fmt.canonical_nan Fmt.canonical_nan
  all_goals exact Fmt.canonical_nan
theorem Fmt.canonical_div (a b : Nat) : f.Canonical (f.div a b) := by
  unfold Fmt.div
  rcases f.decode a with _ | x | ⟨x, k⟩ <;> rcases f.decode b with _ | y | ⟨y, l⟩ <;> dsimp only
  case inf.fin => exact Fmt.canonical_inf
  case fin.inf => exact Fmt.canonical_zero
  case fin.fin => exact Fmt.canonical_ite (Fmt.canonical_ite Fmt.canonical_nan Fmt.canonical_inf) (Fmt.canonical_round _ _ _)
  all_goals exact Fmt.canonical_nan
theorem Fmt.canonical_sqrt (a : Nat) : f.Canonical (f.sqrt rm a) := by
  unfold Fmt.sqrt
  rcases f.decode a with _ | x | ⟨x, k⟩
  · exact Fmt.canonical_nan
  · exact Fmt.canonical_ite Fmt.canonical_nan (Fmt.canonical_of_le_inf le_rfl)
  · exact Fmt.canonical_ite Fmt.canonical_zero (Fmt.canonical_ite Fmt.canonical_nan (Fmt.canonical_round _ _ _))
theorem Fmt.canonical_rnd (a : Nat) : f.Canonical (f.rnd rm a) := by
  unfold Fmt.rnd
  rcases f.decode a with _ | x | ⟨x, k⟩
  · exact Fmt.canonical_nan
  · exact Fmt.canonical_inf
  · exact Fmt.canonical_round _ _ _
theorem Fmt.canonical_convert (h : Fmt) (a : Nat) : f.Canonical (f.convert h rm a) := by
  unfold Fmt.convert
  rcases h.decode a with _ | x | ⟨x, k⟩
  · exact Fmt.canonical_nan
  · exact Fmt.canonical_inf
  · exact Fmt.canonical_round _ _ _
theorem Fmt.canonical_scale (h : Fmt) (a : Nat) (l : Int) : f.Canonical (f.scale h a l) := by
  unfold Fmt.scale
  rcases h.decode a with _ | x | ⟨x, k⟩
  · exact Fmt.canonical_nan
  · exact Fmt.canonical_inf
  · exact Fmt.canonical_ite (Fmt.canonical_round _ _ _) (Fmt.canonical_round _ _ _)
theorem Fmt.canonical_ofInt (z : Int) : f.Canonical (f.ofInt rm z) := Fmt.canonical_roundInt _ _ _

/-- FMIN and FMAX answer an operand that is no NaN, where there is one. -/
theorem Fmt.canonical_minMax (max : Bool) (a b : Nat) : f.Canonical (f.minMax max a b) := by
  have hne : ∀ {r}, f.decode r ≠ .nan → f.Canonical r := fun h hn => absurd hn h
  unfold Fmt.minMax
  split
  · exact Fmt.canonical_nan
  · next hb => exact hne hb
  · next _ _ _ ha => exact hne ha
  · next ha hb _ =>
    split
    · exact Fmt.canonical_ite (hne hb) (hne ha)
    · exact Fmt.canonical_ite (hne ha) (hne hb)
    · exact Fmt.canonical_ite (hne hb) (hne ha)

end Results

/-! ### The special functions (04 R100) -/

theorem cvtFmt_canonical {dst : BitVec 3} {f : Fmt} (h : cvtFmt dst = some f) (rm : Nat) (src : BitVec 3) (v : Nat) :
    f.Canonical (convertValue rm dst src v) := by
  unfold convertValue
  rw [h]
  rcases cvtFmt src with _ | g
  · exact Fmt.canonical_ofInt _
  · exact Fmt.canonical_convert _ _

theorem within_not_nan {r : Word} {x : Approx} {p q : Nat} (h : within r x p q = true) : fp32.decode r.toNat ≠ .nan := by
  intro hn
  rw [within, hn] at h
  exact Bool.false_ne_true h
/-- A free value within a bound is finite; else the result is a rounding. -/
theorem boundedSfu_canonical (n : Nat) (a : Word) (x : Approx) (p q : Nat) : fp32.Canonical (boundedSfu n a x p q) := by
  unfold boundedSfu
  dsimp only
  split
  · next h => exact fun hn => absurd hn (within_not_nan h)
  · exact Fmt.canonical_round _ _ _

section Sfu

variable (a : Word)

theorem sfuExp2_canonical : fp32.Canonical (sfuExp2 a) := by
  unfold sfuExp2
  rcases fp32.decode a.toNat with _ | neg | ⟨neg, k⟩
  · exact Fmt.canonical_nan
  · exact Fmt.canonical_ite (Fmt.canonical_of_le_inf (Nat.zero_le _)) (Fmt.canonical_of_le_inf le_rfl)
  · exact Fmt.canonical_ite (Fmt.canonical_of_le_inf le_rfl) (Fmt.canonical_ite (Fmt.canonical_of_le_inf (Nat.zero_le _))
      (Fmt.canonical_ite (Fmt.canonical_round _ _ _) (boundedSfu_canonical _ _ _ _ _)))
theorem sfuLog2_canonical : fp32.Canonical (sfuLog2 a) := by
  unfold sfuLog2
  rcases fp32.decode a.toNat with _ | neg | ⟨neg, k⟩
  · exact Fmt.canonical_nan
  · exact Fmt.canonical_ite Fmt.canonical_nan (Fmt.canonical_of_le_inf le_rfl)
  · exact Fmt.canonical_ite Fmt.canonical_inf (Fmt.canonical_ite Fmt.canonical_nan (Fmt.canonical_ite (Fmt.canonical_ofInt _)
      (Fmt.canonical_ite (boundedSfu_canonical _ _ _ _ _) (boundedSfu_canonical _ _ _ _ _))))
theorem sfuSin_canonical : fp32.Canonical (sfuSin a) := by
  unfold sfuSin
  rcases fp32.decode a.toNat with _ | neg | ⟨neg, k⟩
  · exact Fmt.canonical_nan
  · exact Fmt.canonical_nan
  · exact Fmt.canonical_ite Fmt.canonical_zero (boundedSfu_canonical _ _ _ _ _)
theorem sfuCos_canonical : fp32.Canonical (sfuCos a) := by
  have hone : ∀ neg, fp32.Canonical (fp32.signBit neg + 0x3F800000) := fun _ => Fmt.canonical_of_le (by decide)
  unfold sfuCos
  rcases fp32.decode a.toNat with _ | neg | ⟨neg, k⟩
  · exact Fmt.canonical_nan
  · exact Fmt.canonical_nan
  · exact Fmt.canonical_ite (hone false) (Fmt.canonical_ite (hone true)
      (Fmt.canonical_ite (Fmt.canonical_of_le_inf (Nat.zero_le _)) (boundedSfu_canonical _ _ _ _ _)))
theorem sfuRcp_canonical : fp32.Canonical (sfuRcp a) := by
  unfold sfuRcp
  rcases fp32.decode a.toNat with _ | neg | ⟨neg, k⟩
  · exact Fmt.canonical_nan
  · exact Fmt.canonical_zero
  · exact Fmt.canonical_ite Fmt.canonical_inf (Fmt.canonical_ite Fmt.canonical_inf (boundedSfu_canonical _ _ _ _ _))
theorem sfuRsq_canonical : fp32.Canonical (sfuRsq a) := by
  unfold sfuRsq
  rcases fp32.decode a.toNat with _ | neg | ⟨neg, k⟩
  · exact Fmt.canonical_nan
  · exact Fmt.canonical_ite Fmt.canonical_nan (Fmt.canonical_of_le_inf (Nat.zero_le _))
  · exact Fmt.canonical_ite Fmt.canonical_inf (Fmt.canonical_ite Fmt.canonical_nan (boundedSfu_canonical _ _ _ _ _))

end Sfu

/-- Settles O8: no operation answers a NaN but the canonical one, whatever the format's parameters. -/
theorem canonicalNans : Obligations.CanonicalNans := by
  refine ⟨fun f _ h _ rm a b d max l r hr => ?_, fun rm v dst src f hf => cvtFmt_canonical hf rm src v, fun a r hr => ?_⟩
  · simp only [List.mem_cons, List.not_mem_nil, or_false] at hr
    rcases hr with rfl | rfl | rfl | rfl | rfl | rfl | rfl | rfl | rfl | rfl
    · exact Fmt.canonical_add _ _
    · exact Fmt.canonical_add _ _
    · exact Fmt.canonical_mul _ _
    · exact Fmt.canonical_fma _ _ _
    · exact Fmt.canonical_div _ _
    · exact Fmt.canonical_sqrt _
    · exact Fmt.canonical_rnd _
    · exact Fmt.canonical_minMax _ _ _
    · exact Fmt.canonical_convert _ _
    · exact Fmt.canonical_scale _ _ _
  · simp only [List.mem_cons, List.not_mem_nil, or_false] at hr
    rcases hr with rfl | rfl | rfl | rfl | rfl | rfl
    · exact sfuExp2_canonical a
    · exact sfuLog2_canonical a
    · exact sfuSin_canonical a
    · exact sfuCos_canonical a
    · exact sfuRcp_canonical a
    · exact sfuRsq_canonical a

end Sys2Proof.Machine
end

section
namespace Sys2Proof.Machine

/-! ### Memory as it reads at its home (21 R325; 25 R375)

A line reads under the key pair of its region's owner; one that was written under another pair is stale. A write puts the
lines it touches under their owner's pair, as they read, before its bytes: so it changes how no other byte reads. -/

/-- Two states whose memory reads alike: its bytes, the control space and the keys. -/
def SameHome (s t : State) : Prop := t.mem = s.mem ∧ t.ctl = s.ctl ∧ t.homes.keys = s.homes.keys ∧
  t.homes.lineKeys = s.homes.lineKeys ∧ t.homes.regionKeys = s.homes.regionKeys

theorem SameHome.refl (s : State) : SameHome s s := ⟨rfl, rfl, rfl, rfl, rfl⟩
theorem SameHome.trans {s t u : State} (h : SameHome s t) (k : SameHome t u) : SameHome s u := by
  obtain ⟨h1, h2, h3, h4, h5⟩ := h
  obtain ⟨k1, k2, k3, k4, k5⟩ := k
  exact ⟨k1.trans h1, k2.trans h2, k3.trans h3, k4.trans h4, k5.trans h5⟩

/-- A byte as it reads at its home. -/
def State.homeByte (s : State) (a : Nat) : Nat :=
  if s.stale (a / 64) then lineGet (s.homeLine (a / 64)) (a % 64) 1 else (byteAt s.mem a).toNat

section Reads

variable {s t : State}

theorem State.memBytes_zero (s : State) (a : Nat) : s.memBytes a 0 = 0 := by
  unfold State.memBytes
  split <;> rfl
theorem State.stale_unkeyed (h : s.keyed = false) (line : Nat) : s.stale line = false := by
  rw [State.stale, h, Bool.false_and]
theorem State.memBytes_succ (s : State) (a n : Nat) : s.memBytes a (n + 1) = s.homeByte a + 256 * s.memBytes (a + 1) n := by
  unfold State.memBytes
  by_cases hk : s.keyed = true
  · rw [if_pos hk, if_pos hk]
    rfl
  · have hst := State.stale_unkeyed (Bool.not_eq_true _ ▸ hk) (a / 64)
    rw [if_neg hk, if_neg hk, State.homeByte, hst]
    rfl
theorem State.memBytes_one (s : State) (a : Nat) : s.memBytes a 1 = s.homeByte a := by
  rw [State.memBytes_succ, State.memBytes_zero, Nat.mul_zero, Nat.add_zero]

/-- Bytes that read alike one by one. -/
theorem State.memBytes_congr (a n : Nat) (h : ∀ x, a ≤ x → x < a + n → t.homeByte x = s.homeByte x) :
    t.memBytes a n = s.memBytes a n := by
  induction n generalizing a with
  | zero => rw [State.memBytes_zero, State.memBytes_zero]
  | succ n ih =>
    rw [State.memBytes_succ, State.memBytes_succ, h a (by omega) (by omega), ih (a + 1) fun x h1 h2 => h x (by omega) (by omega)]

/-- Bytes whose lines stand under their owner's pair read as they stand. -/
theorem State.memBytes_fresh (a n : Nat) (h : ∀ x, a ≤ x → x < a + n → s.stale (x / 64) = false) :
    s.memBytes a n = readBytes s.mem a n := by
  induction n generalizing a with
  | zero => rw [State.memBytes_zero]; rfl
  | succ n ih =>
    rw [State.memBytes_succ, State.homeByte, h a (by omega) (by omega), ih (a + 1) fun x h1 h2 => h x (by omega) (by omega)]
    rfl

theorem State.homeByte_lt (s : State) (a : Nat) : s.homeByte a < 256 := by
  unfold State.homeByte
  split
  · exact Nat.mod_lt _ (by decide)
  · exact (byteAt s.mem a).isLt
theorem State.memBytes_lt (s : State) (a n : Nat) : s.memBytes a n < 256 ^ n := by
  induction n generalizing a with
  | zero => rw [State.memBytes_zero]; exact Nat.one_pos
  | succ n ih =>
    have h1 := s.homeByte_lt a
    have h2 := ih (a + 1)
    rw [State.memBytes_succ, Nat.pow_succ]
    omega

variable (h : SameHome s t)
include h

theorem SameHome.forward (pa : Nat) : t.forward pa = s.forward pa := State.forward_congr s t h.2.1 pa
theorem SameHome.keyed : t.keyed = s.keyed := by
  obtain ⟨-, -, hk, -, -⟩ := h
  rw [State.keyed, hk, State.keyed]
theorem SameHome.keyOwner (r : Nat) : t.keyOwner r = s.keyOwner r := by
  obtain ⟨-, hc, -, -, -⟩ := h
  unfold State.keyOwner State.memHolds State.partOn State.ctlF State.ctl64
  rw [hc]
theorem SameHome.keyNo (p : Nat) : t.keyNo p = s.keyNo p := by
  obtain ⟨-, -, hk, -, -⟩ := h
  rw [State.keyNo, hk, State.keyNo]
theorem SameHome.lineKey (line : Nat) : t.lineKey line = s.lineKey line := by
  obtain ⟨-, -, -, hl, hr⟩ := h
  rw [State.lineKey, hl, hr, State.lineKey]
theorem SameHome.stale (line : Nat) : t.stale line = s.stale line := by
  rw [State.stale, h.keyed, h.lineKey, h.keyOwner, h.keyNo, State.stale]
theorem SameHome.homeLine (line : Nat) : t.homeLine line = s.homeLine line := by
  rw [State.homeLine, h.1, h.stale, h.lineKey, h.keyOwner, h.keyNo, State.homeLine]
theorem SameHome.homeByte (a : Nat) : t.homeByte a = s.homeByte a := by
  rw [State.homeByte, h.1, h.stale, h.homeLine, State.homeByte]
theorem SameHome.memBytes (a n : Nat) : t.memBytes a n = s.memBytes a n :=
  State.memBytes_congr a n fun x _ _ => h.homeByte x
theorem SameHome.homeRead (pa n : Nat) : t.homeRead pa n = s.homeRead pa n := by
  rw [State.homeRead, h.forward, h.memBytes, State.homeRead]

end Reads

/-! ### A line, as its bytes read -/

theorem readBytes_digit (m : Memory) (a : Nat) {n i : Nat} (hi : i < n) :
    readBytes m a n / 256 ^ i % 256 = (byteAt m (a + i)).toNat := by
  induction n generalizing a i with
  | zero => omega
  | succ n ih =>
    have hb := (byteAt m a).isLt
    rw [readBytes]
    rcases i with _ | i
    · simp only [pow_zero, Nat.div_one, Nat.add_zero]
      omega
    · rw [Nat.pow_succ', ← Nat.div_div_eq_div_mul, Nat.add_mul_div_left _ _ (by decide), Nat.div_eq_of_lt hb, Nat.zero_add,
        ih (a + 1) (by omega), Nat.add_assoc, Nat.add_comm 1]

theorem lineGet_byte (d : Line) (i : Nat) : lineGet d i 1 = d.toNat / 256 ^ i % 256 := by
  rw [lineGet, bitsOf, Nat.shiftRight_eq_div_pow, Nat.pow_mul]
  norm_num

theorem toNat_ofNat_bytes {k x : Nat} (h : x < 256 ^ k) : (BitVec.ofNat (8 * k) x).toNat = x := by
  rw [BitVec.toNat_ofNat, Nat.pow_mul]
  exact Nat.mod_eq_of_lt h
theorem toNat_lt_bytes {k : Nat} (d : BitVec (8 * k)) : d.toNat < 256 ^ k := by
  have h := d.isLt
  rwa [Nat.pow_mul] at h

/-- A line that stands under its owner's pair reads as it stands. -/
theorem State.homeLine_fresh {s : State} {line : Nat} (h : s.stale line = false) :
    (s.homeLine line).toNat = readBytes s.mem (64 * line) 64 := by
  rw [State.homeLine, h, if_neg Bool.false_ne_true]
  exact toNat_ofNat_bytes (k := 64) (readBytes_lt s.mem (64 * line) 64)

theorem State.homeByte_of_line (s : State) (line : Nat) {i : Nat} (hi : i < 64) :
    s.homeByte (64 * line + i) = (s.homeLine line).toNat / 256 ^ i % 256 := by
  have hdiv : (64 * line + i) / 64 = line := by omega
  have hmod : (64 * line + i) % 64 = i := by omega
  rw [State.homeByte, hdiv, hmod, lineGet_byte]
  split
  · rfl
  · next h => rw [State.homeLine_fresh (Bool.eq_false_iff.mpr h), readBytes_digit _ _ hi]

theorem State.memBytes_of_line (s : State) (line : Nat) {i n : Nat} (hi : i + n ≤ 64) :
    s.memBytes (64 * line + i) n = (s.homeLine line).toNat / 256 ^ i % 256 ^ n := by
  induction n generalizing i with
  | zero => rw [State.memBytes_zero, pow_zero, Nat.mod_one]
  | succ n ih =>
    rw [State.memBytes_succ, State.homeByte_of_line s line (by omega), Nat.add_assoc, ih (by omega), Nat.pow_succ' (n := n), Nat.mod_mul,
      Nat.div_div_eq_div_mul, ← Nat.pow_succ]

/-- A whole line. -/
theorem State.memBytes_line (s : State) (line : Nat) : s.memBytes (64 * line) 64 = (s.homeLine line).toNat := by
  have h := s.memBytes_of_line line (i := 0) (n := 64) (by decide)
  have hlt := toNat_lt_bytes (k := 64) (s.homeLine line)
  rwa [pow_zero, Nat.div_one, Nat.mod_eq_of_lt hlt] at h

/-! ### Putting a line under its owner's pair -/

section Rekey

variable {s : State} {line : Nat}

theorem State.rekey_fresh (h : s.stale line = false) : s.rekey line = s := if_neg (Bool.eq_false_iff.mp h)

theorem State.rekey_frame (s : State) (line : Nat) : ∃ mem keys, s.rekey line = { s with mem, homes := { s.homes with lineKeys := keys } } ∧
    (∀ a, a < 64 * line ∨ 64 * line + 64 ≤ a → byteAt mem a = byteAt s.mem a) ∧
    ∀ l, l ≠ line → tblGet 0 keys l = tblGet 0 s.homes.lineKeys l := by
  by_cases h : s.stale line = true
  · exact ⟨_, _, if_pos h, fun a ha => byteAt_writeBytes_outside _ _ _ _ _ ha, fun l hl => tblGet_put_other _ _ _ _ _ hl⟩
  · exact ⟨_, _, if_neg h, fun _ _ => rfl, fun _ _ => rfl⟩

/-- After it the line stands under its owner's pair. -/
theorem State.rekey_stale_self (s : State) (line : Nat) : (s.rekey line).stale line = false := by
  by_cases h : s.stale line = true
  · have hkey : (s.rekey line).lineKey line = s.keyNo (s.keyOwner (line / 32768)) := by
      rw [State.rekey, if_pos h, State.lineKey]
      simp only [tblGet_put_same]
    have hown : (s.rekey line).keyNo ((s.rekey line).keyOwner (line / 32768)) = s.keyNo (s.keyOwner (line / 32768)) := by
      rw [State.rekey, if_pos h]
      rfl
    rw [State.stale, hkey, hown, bne_self_eq_false, Bool.and_false]
  · rw [State.rekey_fresh (Bool.eq_false_iff.mpr h), Bool.eq_false_iff.mpr h]

/-- Other lines stand as they did. -/
theorem State.rekey_stale_other {l : Nat} (hl : l ≠ line) : (s.rekey line).stale l = s.stale l := by
  obtain ⟨mem, keys, he, -, hkeys⟩ := State.rekey_frame s line
  rw [he, State.stale, State.stale, State.lineKey, hkeys l hl]
  rfl

theorem State.rekey_homeLine_other {l : Nat} (hl : l ≠ line) : (s.rekey line).homeLine l = s.homeLine l := by
  have hst := State.rekey_stale_other (s := s) hl
  obtain ⟨mem, keys, he, hmem, hkeys⟩ := State.rekey_frame s line
  have hrd : readBytes mem (64 * l) 64 = readBytes s.mem (64 * l) 64 := readBytes_congr _ _ _ _ fun x h1 h2 => hmem x (by omega)
  rw [State.homeLine, hst, State.lineKey, he, hrd, hkeys l hl]
  rfl

/-- No byte reads otherwise. -/
theorem State.rekey_homeByte (s : State) (line a : Nat) : (s.rekey line).homeByte a = s.homeByte a := by
  by_cases hl : a / 64 = line
  · subst hl
    by_cases h : s.stale (a / 64) = true
    · have hm : (s.rekey (a / 64)).mem = writeBytes s.mem (64 * (a / 64)) 64 (s.homeLine (a / 64)).toNat := by
        rw [State.rekey, if_pos h]
      have ha : 64 * (a / 64) + a % 64 = a := Nat.div_add_mod a 64
      have hb := byteAt_writeBytes_inside s.mem (64 * (a / 64)) 64 (s.homeLine (a / 64)).toNat (a % 64) (Nat.mod_lt _ (by decide))
      rw [ha] at hb
      rw [State.homeByte, State.rekey_stale_self, State.homeByte, h, hm, hb, if_neg Bool.false_ne_true, if_pos rfl, BitVec.toNat_ofNat, lineGet_byte]
    · rw [State.rekey_fresh (Bool.eq_false_iff.mpr h)]
  · have hst := State.rekey_stale_other (s := s) hl
    obtain ⟨mem, keys, he, hmem, -⟩ := State.rekey_frame s line
    have hb : byteAt (s.rekey line).mem a = byteAt s.mem a := by
      rw [he]
      exact hmem a (by omega)
    rw [State.homeByte, hst, State.rekey_homeLine_other hl, hb, State.homeByte]

end Rekey

/-! ### A write at the home -/

section Poke

variable (s : State) (pa n v : Nat)

/-- The memory as a write finds it, once the lines it touches stand under their owner's pair. -/
def State.pokeFrom : State := (s.rekey (lineOf (s.forward pa))).rekey (lineOf (s.forward pa + n - 1))

theorem State.pokeFrom_homeByte (a : Nat) : (s.pokeFrom pa n).homeByte a = s.homeByte a :=
  (State.rekey_homeByte _ _ a).trans (State.rekey_homeByte s _ a)

theorem State.pokeFrom_frame : ∃ mem keys, s.pokeFrom pa n = { s with mem, homes := { s.homes with lineKeys := keys } } := by
  obtain ⟨m1, k1, h1, -⟩ := State.rekey_frame s (lineOf (s.forward pa))
  obtain ⟨m2, k2, h2, -⟩ := State.rekey_frame (s.rekey (lineOf (s.forward pa))) (lineOf (s.forward pa + n - 1))
  exact ⟨m2, k2, by rw [State.pokeFrom, h2, h1]⟩

theorem State.pokeFrom_stale (hn : n ≤ 64) (a : Nat) (h1 : s.forward pa ≤ a) (h2 : a < s.forward pa + n) :
    (s.pokeFrom pa n).stale (a / 64) = false := by
  by_cases hl : a / 64 = lineOf (s.forward pa + n - 1)
  · rw [hl]
    exact State.rekey_stale_self _ _
  · have hf : a / 64 = lineOf (s.forward pa) := by
      unfold lineOf at hl ⊢
      omega
    rw [State.pokeFrom, State.rekey_stale_other hl, hf]
    exact State.rekey_stale_self _ _

theorem State.poke_eq : s.poke pa n v =
    { (s.pokeFrom pa n).setHdir (lineOf (s.forward pa)) { (s.pokeFrom pa n).hdir (lineOf (s.forward pa)) with shared := 0#2 } with
      mem := writeBytes (s.pokeFrom pa n).mem (s.forward pa) n v } := rfl

/-- What a write at the home changes besides the bytes: keys of lines, and host copies. -/
theorem State.poke_frame : ∃ mem keys hostDir, s.poke pa n v = { s with mem, homes := { s.homes with lineKeys := keys, hostDir } } := by
  obtain ⟨mem, keys, h⟩ := State.pokeFrom_frame s pa n
  exact ⟨_, _, _, by rw [State.poke_eq, h]; rfl⟩

theorem State.poke_forward (b : Nat) : (s.poke pa n v).forward b = s.forward b := by
  obtain ⟨mem, keys, dir, h⟩ := State.poke_frame s pa n v
  rw [h]
  rfl

theorem State.poke_stale (line : Nat) : (s.poke pa n v).stale line = (s.pokeFrom pa n).stale line := by
  rw [State.poke_eq]
  generalize s.pokeFrom pa n = u
  rfl

/-- The bytes written read back, at their home. -/
theorem State.poke_memBytes (hn : n ≤ 64) : (s.poke pa n v).memBytes (s.forward pa) n = v % 256 ^ n := by
  rw [State.memBytes_fresh _ _ fun x h1 h2 => (s.poke_stale pa n v _).trans (s.pokeFrom_stale pa n hn x h1 h2)]
  exact readBytes_writeBytes_same _ _ _ _

theorem State.poke_homeRead (hn : n ≤ 64) : (s.poke pa n v).homeRead pa n = v % 256 ^ n := by
  rw [State.homeRead, State.poke_forward, State.poke_memBytes s pa n v hn]

/-- A line that stays under another pair than its owner's is none of those written. -/
theorem State.poke_homeLine_stale (hn : n ≤ 64) {line : Nat} (hs : (s.pokeFrom pa n).stale line = true) :
    (s.poke pa n v).homeLine line = (s.pokeFrom pa n).homeLine line := by
  have hout (x : Nat) (hx : x / 64 = line) : x < s.forward pa ∨ s.forward pa + n ≤ x := by
    by_contra hc
    have hin := s.pokeFrom_stale pa n hn x (by omega) (by omega)
    rw [hx, hs] at hin
    exact Bool.noConfusion hin
  have hrd : readBytes (s.poke pa n v).mem (64 * line) 64 = readBytes (s.pokeFrom pa n).mem (64 * line) 64 :=
    readBytes_congr _ _ _ _ fun x h1 h2 => byteAt_writeBytes_outside _ _ _ _ _ (hout x (by omega))
  rw [State.homeLine, State.poke_stale, hrd, State.homeLine, State.poke_eq]
  generalize s.pokeFrom pa n = u
  rfl

/-- Every other byte reads as before. -/
theorem State.poke_memBytes_outside (hn : n ≤ 64) (a : Nat) (h : a < s.forward pa ∨ s.forward pa + n ≤ a) :
    (s.poke pa n v).memBytes a 1 = s.memBytes a 1 := by
  have hb : byteAt (s.poke pa n v).mem a = byteAt (s.pokeFrom pa n).mem a := byteAt_writeBytes_outside _ _ _ _ _ h
  rw [State.memBytes_one, State.memBytes_one, ← s.pokeFrom_homeByte pa n a, State.homeByte, State.poke_stale, State.homeByte, hb]
  split
  · next hs => rw [s.poke_homeLine_stale pa n v hn hs]
  · rfl

/-- Without keys no other byte changes at all. -/
theorem State.poke_byteAt_outside (hk : s.keyed = false) (a : Nat) (h : a < s.forward pa ∨ s.forward pa + n ≤ a) :
    byteAt (s.poke pa n v).mem a = byteAt s.mem a := by
  rw [State.poke_mem _ _ _ _ hk]
  exact byteAt_writeBytes_outside _ _ _ _ _ h

end Poke

end Sys2Proof.Machine
end

section
namespace Sys2Proof.Machine

/-! ### What a write at its home keeps

`Kept`: memory and registers. `Quiet`: also the outstanding writes, the casts, and the messages under way. -/

/-- Memory reads alike at its home, and so do the registers. -/
structure Kept (s t : State) : Prop where
  home : SameHome s t
  regs : SameRegs s t

/-- So do the outstanding writes and the casts; messages are only added. -/
structure Quiet (s t : State) : Prop extends Kept s t where
  stores : ∀ c, (t.core c).stores = (s.core c).stores
  castDir : t.homes.castDir = s.homes.castDir
  stcs : t.homes.stcs = s.homes.stcs
  msgs : s.homes.msgs ⊆ t.homes.msgs

theorem Kept.trans {s t u : State} (h : Kept s t) (k : Kept t u) : Kept s u := ⟨h.home.trans k.home, h.regs.trans k.regs⟩
theorem Quiet.refl (s : State) : Quiet s s := ⟨⟨.refl s, fun _ _ => rfl⟩, fun _ => rfl, rfl, rfl, fun _ => id⟩
theorem Quiet.trans {s t u : State} (h : Quiet s t) (k : Quiet t u) : Quiet s u :=
  ⟨h.toKept.trans k.toKept, fun c => (k.stores c).trans (h.stores c), k.castDir.trans h.castDir, k.stcs.trans h.stcs,
    fun _ hm => k.msgs (h.msgs hm)⟩
theorem Quiet.foldl {α : Type} {f : State → α → State} (hf : ∀ t x, Quiet t (f t x)) (l : List α) (s : State) : Quiet s (l.foldl f s) := by
  induction l generalizing s with
  | nil => exact .refl s
  | cons x l ih => exact (hf s x).trans (ih _)

theorem OnlyRequests.quiet {s t : State} (h : OnlyRequests s t) : Quiet s t := by
  obtain ⟨_, _, _, _, _, rfl⟩ := h
  exact ⟨⟨⟨rfl, rfl, rfl, rfl, rfl⟩, fun _ _ => rfl⟩, fun _ => rfl, rfl, rfl, fun _ => id⟩

section Steps

variable (s : State) (c : Nat)

theorem State.modCore_kept (f : Core → Core) (h : (f (s.core c)).ctxs = (s.core c).ctxs) : Kept s (s.modCore c f) :=
  ⟨⟨rfl, rfl, rfl, rfl, rfl⟩, State.modCore_regs s c f h⟩
theorem State.modCore_quiet (f : Core → Core) (h : (f (s.core c)).ctxs = (s.core c).ctxs) (hs : (f (s.core c)).stores = (s.core c).stores) :
    Quiet s (s.modCore c f) := by
  refine ⟨State.modCore_kept s c f h, fun d => ?_, rfl, rfl, fun _ => id⟩
  rw [State.core_modCore]
  split
  · next hd => rw [hd, hs]
  · rfl
theorem State.dropStore_kept (id : Nat) : Kept s (s.dropStore c id) := State.modCore_kept s c _ rfl
theorem State.storeReturns_kept (id value err : Nat) : Kept s (s.storeReturns c id value err) := State.modCore_kept s c _ rfl
theorem State.updates_quiet (line id : Nat) (f : Line → Line) : Quiet s (s.modCore c fun co => co.updates line id f) :=
  State.modCore_quiet s c _ rfl rfl
theorem State.loseDemand_quiet (lines : List Nat) : Quiet s (s.loseDemand c lines) := State.modCore_quiet s c _ rfl rfl
theorem State.send_quiet (line : Nat) (k : MsgKind) : Quiet s (s.send c line k) :=
  ⟨⟨⟨rfl, rfl, rfl, rfl, rfl⟩, fun _ _ => rfl⟩, fun _ => rfl, rfl, rfl, fun _ h => List.mem_append_left _ h⟩
theorem State.served_quiet (r : Nat) (a : Agent) : Quiet s (s.served r a) := by
  unfold State.served
  split
  · exact ⟨⟨⟨rfl, rfl, rfl, rfl, rfl⟩, fun _ _ => rfl⟩, fun _ => rfl, rfl, rfl, fun _ => id⟩
  · exact .refl s
theorem State.discardCopies_quiet (lines : List Nat) : Quiet s (s.discardCopies c lines) := by
  refine (State.modCore_quiet s c _ rfl rfl).trans (Quiet.foldl (fun t x => ?_) _ _)
  split
  · exact t.send_quiet c _ _
  · exact .refl t
theorem State.dropAlias_quiet (pa : Nat) : Quiet s (s.dropAlias c pa) := by
  unfold State.dropAlias
  split
  · exact .refl s
  · exact (s.discardCopies_quiet c _).trans (State.modCore_quiet _ c _ rfl rfl)

/-- What follows the performing of a write: copies under another address go, and its wait at the region is over. -/
def State.settled (x : Store) : State := (s.dropAlias c x.pa).served (regionOf (s.forward x.pa)) (.access c x.id)
theorem State.settled_quiet (x : Store) : Quiet s (s.settled c x) := (s.dropAlias_quiet c _).trans (State.served_quiet _ _ _)

/-- A write that has performed has its value to return. -/
theorem State.storeReturns_findStore {id : Nat} {x : Store} (h : (s.core c).findStore id = some x) (value err : Nat) :
    ((s.storeReturns c id value err).core c).findStore id = some { x with done := true, acks := none, value, err } := by
  have hx : x.id = id := by simpa using List.find?_some h
  have hid : ((fun t : Store => t.id == id) ∘ fun t => if t.id == id then { t with done := true, acks := none, value, err } else t) =
      fun t => t.id == id := by
    funext t
    simp only [Function.comp_apply]
    split <;> rfl
  rw [Core.findStore] at h
  rw [State.storeReturns, State.modCore_core, Core.findStore, mapIf, List.find?_map, hid, h, Option.map_some, hx, beq_self_eq_true, if_pos rfl]

end Steps

/-! ### Bytes written at their home -/

/-- Nothing but n bytes at q reads otherwise, nor, without keys, stands otherwise. -/
def Apart (s t : State) (q n : Nat) : Prop := (∀ a, a < q ∨ q + n ≤ a → t.memBytes a 1 = s.memBytes a 1) ∧
  (s.keyed = false → ∀ a, a < q ∨ q + n ≤ a → byteAt t.mem a = byteAt s.mem a)

/-- The n bytes at an address read v where it is forwarded to, no other byte changes and no register does. -/
structure Wrote (s t : State) (pa n v : Nat) : Prop where
  reads : t.homeRead pa n = v
  apart : Apart s t (s.forward pa) n
  regs : SameRegs s t

section Wrote

variable {s t u : State} {pa n v : Nat}

theorem Kept.wrote (h : Kept s t) (pa n : Nat) : Wrote s t pa n (s.homeRead pa n) :=
  ⟨h.home.homeRead pa n, ⟨fun a _ => h.home.memBytes a 1, fun _ a _ => by rw [h.home.1]⟩, h.regs⟩
theorem Wrote.then_kept (w : Wrote s t pa n v) (h : Kept t u) : Wrote s u pa n v :=
  ⟨(h.home.homeRead pa n).trans w.reads, ⟨fun a ha => (h.home.memBytes a 1).trans (w.apart.1 a ha), fun hk a ha => by
    rw [h.home.1, w.apart.2 hk a ha]⟩, w.regs.trans h.regs⟩
theorem Wrote.after_kept (h : Kept s t) (w : Wrote t u pa n v) : Wrote s u pa n v := by
  obtain ⟨hr, ha, hg⟩ := w
  rw [h.home.forward] at ha
  exact ⟨hr, ⟨fun a hx => (ha.1 a hx).trans (h.home.memBytes a 1), fun hk a hx => by
    rw [ha.2 (h.home.keyed.trans hk) a hx, h.home.1]⟩, h.regs.trans hg⟩

theorem State.poke_core (s : State) (pa n v c : Nat) : (s.poke pa n v).core c = s.core c := by
  obtain ⟨mem, keys, dir, h⟩ := State.poke_frame s pa n v
  rw [h]
  rfl
theorem State.poke_homes (s : State) (pa n v : Nat) : (s.poke pa n v).homes.castDir = s.homes.castDir ∧
    (s.poke pa n v).homes.stcs = s.homes.stcs ∧ (s.poke pa n v).homes.msgs = s.homes.msgs := by
  obtain ⟨mem, keys, dir, h⟩ := State.poke_frame s pa n v
  rw [h]
  exact ⟨rfl, rfl, rfl⟩
theorem State.poke_wrote (s : State) (pa v : Nat) (hn : n ≤ 64) : Wrote s (s.poke pa n v) pa n (v % 256 ^ n) := by
  refine ⟨s.poke_homeRead pa n v hn, ⟨s.poke_memBytes_outside pa n v hn, s.poke_byteAt_outside pa n v⟩, ?_⟩
  obtain ⟨mem, keys, dir, h⟩ := State.poke_frame s pa n v
  rw [h]
  exact fun _ _ => rfl

end Wrote

/-! ### Kinds of write -/

section Perform

variable (s : State) (c : Nat) (x : Store)

/-- A plain write performs. -/
theorem State.perform_plain {len data : Nat} (hk : x.kind = .plain len data) (hlen : len ≤ 64) :
    Wrote s (s.perform c x) x.pa len (data % 256 ^ len) ∧ ∀ y ∈ ((s.perform c x).core c).stores, y.id ≠ x.id := by
  have heq : s.perform c x = ((if x.release then (s.poke x.pa len data).modCore c fun co =>
      co.updates (lineOf x.pa) x.id fun d => lineSet d (x.pa % 64) len data else s.poke x.pa len data).dropStore c x.id).settled c x := by
    unfold State.perform
    rw [hk]
    rfl
  rw [heq]
  have hupd : Kept (s.poke x.pa len data) (if x.release then (s.poke x.pa len data).modCore c fun co =>
      co.updates (lineOf x.pa) x.id fun d => lineSet d (x.pa % 64) len data else s.poke x.pa len data) := by
    split
    · exact (State.updates_quiet _ _ _ _ _).toKept
    · exact (Quiet.refl _).toKept
  generalize (if x.release then (s.poke x.pa len data).modCore c fun co =>
      co.updates (lineOf x.pa) x.id fun d => lineSet d (x.pa % 64) len data else s.poke x.pa len data) = u at hupd
  have hq := (u.dropStore c x.id).settled_quiet c x
  refine ⟨(((s.poke_wrote x.pa data hlen).then_kept hupd).then_kept (u.dropStore_kept c x.id)).then_kept hq.toKept, ?_⟩
  rw [hq.stores c]
  exact u.dropStore_gone c x.id

/-- A write whose value returns: the operation put v at its location, and the core's copy takes it, or it only read there. -/
def State.operated (writes : Bool) (pa n v value : Nat) (f : Line → Line) : State :=
  ((if writes then (s.poke pa n v).modCore c fun co => co.updates (lineOf x.pa) x.id f
    else s.loseDemand c [lineOf x.pa]).storeReturns c x.id value 0).settled c x

variable {s c x}

theorem State.operated_wrote (pa v value : Nat) (f : Line → Line) {n : Nat} (hn : n ≤ 64) :
    Wrote s (s.operated c x true pa n v value f) pa n (v % 256 ^ n) :=
  (((s.poke_wrote pa v hn).then_kept (State.updates_quiet _ c _ _ f).toKept).then_kept (State.storeReturns_kept _ c _ _ _)).then_kept
    (State.settled_quiet _ c x).toKept
theorem State.operated_kept (pa n v value : Nat) (f : Line → Line) : Kept s (s.operated c x false pa n v value f) :=
  ((s.loseDemand_quiet c _).toKept.trans (State.storeReturns_kept _ c _ _ _)).trans (State.settled_quiet _ c x).toKept
theorem State.operated_findStore (h : (s.core c).findStore x.id = some x) (writes : Bool) (pa n v value : Nat) (f : Line → Line) :
    ((s.operated c x writes pa n v value f).core c).findStore x.id = some { x with done := true, acks := none, value, err := 0 } := by
  have hbefore : ((if writes then (s.poke pa n v).modCore c fun co => co.updates (lineOf x.pa) x.id f
      else s.loseDemand c [lineOf x.pa]).core c).findStore x.id = some x := by
    split
    · rw [Core.findStore, (State.updates_quiet _ c _ _ f).stores c, State.poke_core]
      exact h
    · rw [Core.findStore, (s.loseDemand_quiet c _).stores c]
      exact h
  rw [Core.findStore, State.operated, (State.settled_quiet _ c x).stores c]
  exact State.storeReturns_findStore _ c hbefore value 0

/-! ### Atomics (07 R165 to R167) -/

theorem atomApply_lt {w old x cmp : Nat} (op : AtomOp) (ho : old < 2 ^ w) (hx : x < 2 ^ w) : atomApply op w old x cmp < 2 ^ w := by
  cases op with
  | add => exact Nat.mod_lt _ (Nat.two_pow_pos w)
  | min | max | cas =>
    simp only [atomApply]
    split
    · exact hx
    · exact ho
  | and => exact Nat.and_lt_two_pow _ hx
  | or => exact Nat.or_lt_two_pow ho hx
  | xor => exact Nat.xor_lt_two_pow ho hx
  | xchg => exact hx

theorem State.writesLine_atom {op : AtomOp} {w64 : Bool} {a cmp : DWord} (hk : x.kind = .atom op w64 a cmp)
    (h : s.writesLine x = false) : op = .cas ∧
      s.homeRead x.pa (if w64 then 8 else 4) ≠ cmp.toNat % 2 ^ (8 * if w64 then 8 else 4) := by
  rw [State.writesLine, hk] at h
  cases op with
  | cas => exact ⟨rfl, beq_eq_false_iff_ne.mp h⟩
  | _ => exact Bool.noConfusion h

/-- What an atomic leaves at its location. -/
def State.atomResult (s : State) (pa : Nat) (op : AtomOp) (n : Nat) (a cmp : DWord) : Nat :=
  atomApply op (8 * n) (s.homeRead pa n) (a.toNat % 2 ^ (8 * n)) (cmp.toNat % 2 ^ (8 * n))

theorem State.homeRead_lt (s : State) (pa n : Nat) : s.homeRead pa n < 2 ^ (8 * n) := by
  rw [Nat.pow_mul]
  exact s.memBytes_lt _ _
theorem State.atomResult_lt (s : State) (pa : Nat) (op : AtomOp) (n : Nat) (a cmp : DWord) : s.atomResult pa op n a cmp < 2 ^ (8 * n) :=
  atomApply_lt op (s.homeRead_lt pa n) (Nat.mod_lt _ (Nat.two_pow_pos _))

/-- An atomic performs. -/
theorem State.perform_atom {op : AtomOp} {w64 : Bool} {a cmp : DWord} (hk : x.kind = .atom op w64 a cmp)
    (h : (s.core c).findStore x.id = some x) :
    Wrote s (s.perform c x) x.pa (if w64 then 8 else 4) (s.atomResult x.pa op (if w64 then 8 else 4) a cmp) ∧
      ((s.perform c x).core c).findStore x.id =
        some { x with done := true, acks := none, value := s.homeRead x.pa (if w64 then 8 else 4), err := 0 } := by
  have heq : s.perform c x = s.operated c x (s.writesLine x) x.pa (if w64 then 8 else 4) (s.atomResult x.pa op (if w64 then 8 else 4) a cmp)
      (s.homeRead x.pa (if w64 then 8 else 4))
      fun d => lineSet d (x.pa % 64) (if w64 then 8 else 4) (s.atomResult x.pa op (if w64 then 8 else 4) a cmp) := by
    unfold State.perform
    rw [hk]
    rfl
  have hne (hw : s.writesLine x = false) := State.writesLine_atom hk hw
  have hn : (if w64 then 8 else 4) ≤ 64 := by split <;> decide
  rw [heq]
  generalize (if w64 then 8 else 4) = n at hne hn ⊢
  refine ⟨?_, State.operated_findStore h _ _ _ _ _ _⟩
  cases hw : s.writesLine x with
  | true =>
    have hv := s.atomResult_lt x.pa op n a cmp
    have hwrote := State.operated_wrote (s := s) (c := c) (x := x) x.pa (s.atomResult x.pa op n a cmp) (s.homeRead x.pa n)
      (fun d => lineSet d (x.pa % 64) n (s.atomResult x.pa op n a cmp)) hn
    rw [Nat.pow_mul] at hv
    rwa [Nat.mod_eq_of_lt hv] at hwrote
  | false =>
    obtain ⟨rfl, hcmp⟩ := hne hw
    have hold : s.atomResult x.pa .cas n a cmp = s.homeRead x.pa n := if_neg hcmp
    rw [hold]
    exact (State.operated_kept _ _ _ _ _).wrote _ _

end Perform

end Sys2Proof.Machine
end

section
namespace Sys2Proof.Machine

/-! ### Operations on an exact accumulator (04 R83 to R85; 07 R169) -/

/-! The bits of a line after an addition. -/

theorem xalLine_int (flags : Nat) (z : Int) (hf : flags < 16) : toSigned 448 (xalLine flags z).toNat = z.bmod (2 ^ 448) := by
  have hlow : BitVec.ofNat 448 (xalLine flags z).toNat = BitVec.ofInt 448 z := by
    apply BitVec.eq_of_toNat_eq
    rw [BitVec.toNat_ofNat, xalLine_toNat hf, Nat.mul_add_mod, Nat.mod_eq_of_lt (BitVec.ofInt 448 z).isLt]
  rw [toSigned, hlow, BitVec.toInt_ofInt]
theorem xalLine_testBit (flags : Nat) (z : Int) (hf : flags < 16) (n : Nat) : (xalLine flags z).toNat.testBit (448 + n) = flags.testBit n := by
  rw [xalLine_toNat hf, Nat.testBit_two_pow_mul_add _ (BitVec.ofInt 448 z).isLt, if_neg (Nat.le_add_right 448 n).not_gt, Nat.add_sub_cancel_left]
theorem xalFlagsOf_testBit (line : Line) {n : Nat} (hn : n < 4) : (xalFlagsOf line).testBit n = line.toNat.testBit (448 + n) := by
  have h : xalFlagsOf line = line.toNat / 2 ^ 448 % 2 ^ 4 := rfl
  rw [h, Nat.testBit_mod_two_pow, Nat.testBit_div_two_pow, decide_eq_true hn, Bool.true_and, Nat.add_comm]
theorem xalFlag_testBit (x : Nat) : (xalFlag x).testBit 0 = (fp32.decode x == .nan) ∧ (xalFlag x).testBit 1 = (fp32.decode x == .inf false) ∧
    (xalFlag x).testBit 2 = (fp32.decode x == .inf true) ∧ (xalFlag x).testBit 3 = false := by
  unfold xalFlag
  cases fp32.decode x with
  | nan => decide
  | inf neg => cases neg <;> decide
  | fin neg k => exact ⟨Nat.zero_testBit 0, Nat.zero_testBit 1, Nat.zero_testBit 2, Nat.zero_testBit 3⟩
theorem xalOverflow_testBit (z : Int) : (xalOverflow z).testBit 0 = false ∧ (xalOverflow z).testBit 1 = false ∧
    (xalOverflow z).testBit 2 = false ∧
    (xalOverflow z).testBit 3 = decide (z < -((2 ^ 447 : Nat) : Int) ∨ ((2 ^ 447 : Nat) : Int) ≤ z) := by
  have hcast : ((2 ^ 447 : Nat) : Int) = 2 ^ 447 := Nat.cast_pow 2 447
  rw [xalOverflow, hcast]
  split
  · next h => exact ⟨rfl, rfl, rfl, (decide_eq_true h).symm⟩
  · next h => exact ⟨rfl, rfl, rfl, (decide_eq_false h).symm⟩

theorem xalFlags_lt (line : Line) (x : Nat) (z : Int) : xalFlagsOf line ||| xalFlag x ||| xalOverflow z < 16 :=
  Nat.or_lt_two_pow (n := 4) (Nat.or_lt_two_pow (n := 4) (xalFlagsOf_lt line) (xalFlag_lt x)) (xalOverflow_lt z)

/-- The flags an addition leaves are the line's own, its operand's and the overflow's. -/
theorem xalAdd_testBit (line : Line) (x : Nat) {n : Nat} (hn : n < 4) : (xalAdd line x).toNat.testBit (448 + n) =
    (line.toNat.testBit (448 + n) || ((xalFlag x).testBit n || (xalOverflow (xalIntOf line + xalUnits x)).testBit n)) := by
  have hf := xalFlags_lt line x (xalIntOf line + xalUnits x)
  rw [xalAdd_eq, xalLine_testBit _ _ hf, Nat.testBit_or, Nat.testBit_or, xalFlagsOf_testBit line hn, Bool.or_assoc]
theorem xalAdd_int (line : Line) (x : Nat) : (xalAdd line x).toNat < 2 ^ 452 ∧
    toSigned 448 (xalAdd line x).toNat = (toSigned 448 line.toNat + xalUnits x).bmod (2 ^ 448) := by
  have hf := xalFlags_lt line x (xalIntOf line + xalUnits x)
  rw [xalAdd_eq]
  refine ⟨?_, xalLine_int _ _ hf⟩
  rw [xalLine_toNat hf]
  exact flags_below hf (BitVec.isLt _)

/-- What the addition of an FP32 value to a line of value old leaves. -/
def XalAdded (old x now : Nat) : Prop :=
  let sum : Int := toSigned 448 old + xalUnits x
  now < 2 ^ 452 ∧ toSigned 448 now = sum.bmod (2 ^ 448) ∧
    now.testBit 448 = (old.testBit 448 || fp32.decode x == .nan) ∧ now.testBit 449 = (old.testBit 449 || fp32.decode x == .inf false) ∧
    now.testBit 450 = (old.testBit 450 || fp32.decode x == .inf true) ∧
    now.testBit 451 = (old.testBit 451 || decide (sum < -((2 ^ 447 : Nat) : Int) ∨ ((2 ^ 447 : Nat) : Int) ≤ sum))

theorem xalAdd_added (line : Line) (x : Nat) : XalAdded line.toNat x (xalAdd line x).toNat := by
  obtain ⟨hlt, hint⟩ := xalAdd_int line x
  obtain ⟨f0, f1, f2, f3⟩ := xalFlag_testBit x
  obtain ⟨o0, o1, o2, o3⟩ := xalOverflow_testBit (xalIntOf line + xalUnits x)
  have h0 := xalAdd_testBit line x (n := 0) (by decide)
  have h1 := xalAdd_testBit line x (n := 1) (by decide)
  have h2 := xalAdd_testBit line x (n := 2) (by decide)
  have h3 := xalAdd_testBit line x (n := 3) (by decide)
  rw [f0, o0, Bool.or_false] at h0
  rw [f1, o1, Bool.or_false] at h1
  rw [f2, o2, Bool.or_false] at h2
  rw [f3, o3, Bool.false_or] at h3
  exact ⟨hlt, hint, h0, h1, h2, h3⟩

/-- What a reading of a line with value old in a format gives: its flags' special value, or its integer rounded once. -/
def XalReads (f : Fmt) (units old v : Nat) : Prop :=
  if old.testBit 448 || old.testBit 451 || (old.testBit 449 && old.testBit 450) then v = f.nan
  else if old.testBit 449 then v = f.inf
  else if old.testBit 450 then v = f.signBit true + f.inf
  else f.Rounds 0 false (toSigned 448 old * (units : Nat)) 1 v

theorem xalRound_reads {f : Fmt} (hf : f.Sound) {k units : Nat} (hu : units = 2 ^ k) (hk : k + 149 = f.unit) (line : Line) :
    XalReads f units line.toNat (xalRound line f) := by
  have hround : f.Rounds 0 false (toSigned 448 line.toNat * (units : Nat)) 1 (f.roundInt 0 false (toSigned 448 line.toNat) (2 ^ 149)) := by
    refine hf.roundInt_rounds Nat.one_pos (by decide) (Nat.two_pow_pos _) ?_
    rw [hu, ← hk, pow_add, mul_assoc, Nat.cast_mul, Nat.cast_one, mul_one]
  unfold XalReads xalRound
  simp only [bitOf_testBit]
  split
  · rfl
  · split
    · rfl
    · split
      · rfl
      · exact hround

/-- The operations that do not add: what they leave and what they return. -/
theorem xalApply_reads {op : XalOp} (hop : op ≠ .add) (line : Line) (v : Word) :
    (xalApply op line v).1.toNat = (if op = .clr then 0 else line.toNat) ∧
    (if op = .rd64 then XalReads fp64 (2 ^ 925) line.toNat (xalApply op line v).2 else XalReads fp32 1 line.toNat (xalApply op line v).2) := by
  have h32 : XalReads fp32 1 line.toNat (xalRound line fp32) := xalRound_reads (Fmt.sound_of_mem (by decide)) (Nat.pow_zero 2).symm rfl line
  cases op with
  | add => exact absurd rfl hop
  | rd32 => exact ⟨rfl, h32⟩
  | rd64 => exact ⟨rfl, xalRound_reads (Fmt.sound_of_mem (by decide)) rfl rfl line⟩
  | clr => exact ⟨BitVec.toNat_zero, h32⟩

section Performs

variable {s : State} {c : Nat} {x : Store}

theorem line_aligned {pa : Nat} (h : pa % 64 = 0) : 64 * lineOf pa = pa := by
  unfold lineOf
  omega
theorem State.lineAt_toNat {pa : Nat} (hq : s.forward pa % 64 = 0) : (s.lineAt pa).toNat = s.homeRead pa 64 := by
  rw [State.lineAt, ← State.memBytes_line, line_aligned hq, State.homeRead]
theorem line_mod (d : Line) : d.toNat % 256 ^ 64 = d.toNat := Nat.mod_eq_of_lt (toNat_lt_bytes (k := 64) d)

/-- A reading of an accumulator does not write its line, and leaves it. -/
theorem State.writesLine_xal {op : XalOp} {v : Word} (hk : x.kind = .xal op v) (h : s.writesLine x = false) (line : Line) :
    (xalApply op line v).1 = line := by
  rw [State.writesLine, hk] at h
  cases op with
  | add | clr => exact Bool.noConfusion h
  | rd32 | rd64 => rfl

/-- An operation on an accumulator performs. -/
theorem State.perform_xal {op : XalOp} {v : Word} (hk : x.kind = .xal op v) (h : (s.core c).findStore x.id = some x)
    (hpa : x.pa % 64 = 0) (hq : s.forward x.pa % 64 = 0) :
    Wrote s (s.perform c x) x.pa 64 (xalApply op (s.lineAt x.pa) v).1.toNat ∧ ((s.perform c x).core c).findStore x.id =
      some { x with done := true, acks := none, value := (xalApply op (s.lineAt x.pa) v).2, err := 0 } := by
  have heq : s.perform c x = s.operated c x (s.writesLine x) (64 * lineOf x.pa) 64 (xalApply op (s.lineAt x.pa) v).1.toNat
      (xalApply op (s.lineAt x.pa) v).2 fun _ => (xalApply op (s.lineAt x.pa) v).1 := by
    unfold State.perform
    rw [hk]
    rfl
  rw [heq, line_aligned hpa]
  refine ⟨?_, State.operated_findStore h _ _ _ _ _ _⟩
  cases hw : s.writesLine x with
  | true =>
    have hwrote := State.operated_wrote (s := s) (c := c) (x := x) x.pa (xalApply op (s.lineAt x.pa) v).1.toNat
      (xalApply op (s.lineAt x.pa) v).2 (fun _ => (xalApply op (s.lineAt x.pa) v).1) (le_refl 64)
    rwa [line_mod] at hwrote
  | false =>
    rw [State.writesLine_xal hk hw, State.lineAt_toNat hq]
    exact (State.operated_kept _ _ _ _ _).wrote _ _

end Performs

/-! ### Cast lines (07 R161; 21 R331, R334) -/

/-- A cast's entry of the directory, and its record. -/
def State.castEntryOf (s : State) (x : Store) (cores : List Nat) : CastEntry :=
  { line := lineOf (s.forward x.pa), cluster := clusterOf (cores.getD 0 0), pending := cores, stc := x.id }
def State.stcOf (s : State) (x : Store) (cores : List Nat) : Stc :=
  { id := x.id, who := x.who, part := x.part, line := lineOf (s.forward x.pa), unsent := cores, waiting := cores }
/-- The entries taken of the slice that a line stands at. -/
def State.castsUsed (s : State) (q : Nat) : Nat := (s.homes.castDir.filter fun e => s.sliceOf (64 * e.line) == s.sliceOf q).length

/-- The state once the entry is taken and the cast recorded. -/
def State.castTaken (s : State) (x : Store) (cores : List Nat) : State :=
  { s with homes := { s.homes with castDir := s.homes.castDir ++ [s.castEntryOf x cores], stcs := s.homes.stcs ++ [s.stcOf x cores] } }
/-- The state once every target counts as refused. -/
def State.castRefused (s : State) (x : Store) (cores : List Nat) : State :=
  { s with homes := { s.homes with
    stcs := s.homes.stcs ++ [{ s.stcOf x cores with unsent := [], waiting := [], refused := cores.length }] } }

section Casts

variable {s t : State} {x : Store} {c : Nat} {rest cores : List Nat}

theorem State.castAnswered_quiet (s : State) (id : Nat) : Quiet s (s.castAnswered id) := by
  unfold State.castAnswered
  split
  · exact .refl s
  · split
    · exact State.send_quiet s _ _ _
    · exact .refl s

/-- The casts of an STC leave: the state their messages leave from, and the messages one by one. -/
def State.lessUnsent (s : State) (id n : Nat) : State :=
  { s with homes := { s.homes with
    stcs := mapIf (fun y => y.id == id) (fun y => { y with unsent := y.unsent.drop n }) s.homes.stcs } }
def State.sendCast (y : Stc) (s : State) (c : Nat) : State := s.send c y.line (.cast y.id y.part (s.homeLine y.line))

theorem State.sendCasts_found {id : Nat} {y : Stc} (hy : (s.homes.stcs.find? fun y => y.id == id) = some y) (n : Nat) :
    s.sendCasts id n = (y.unsent.take n).foldl (State.sendCast y) (s.lessUnsent id n) := by
  have hid : y.id = id := by simpa using List.find?_some hy
  rw [State.sendCasts, hy]
  subst hid
  rfl
theorem State.sendCasts_quiet {y : Stc} (l : List Nat) (s : State) : Quiet s (l.foldl (State.sendCast y) s) :=
  Quiet.foldl (fun u d => u.send_quiet d _ _) l s

/-- The first of them goes to the first target left, with the line as it reads. -/
theorem State.sendCasts_first {id : Nat} {y : Stc} (hy : (s.homes.stcs.find? fun y => y.id == id) = some y) (hc : y.unsent = c :: rest) (n : Nat) :
    ∃ m ∈ (s.sendCasts id (1 + n)).homes.msgs, m.core = c ∧ m.line = y.line ∧ m.kind = .cast y.id y.part (s.homeLine y.line) := by
  have htake : y.unsent.take (1 + n) = c :: rest.take n := by rw [hc, Nat.add_comm, List.take_succ_cons]
  rw [State.sendCasts_found hy, htake, List.foldl_cons]
  exact ⟨_, (State.sendCasts_quiet _ _).msgs (List.mem_append_right _ (List.mem_singleton_self _)), rfl, rfl, rfl⟩

variable (hentry : s.castEntry (lineOf (s.forward x.pa)) = none) (hcores : cores = c :: rest)
include hentry hcores

theorem State.castSend_taken (hu : s.castsUsed (64 * lineOf (s.forward x.pa)) < 8192) :
    s.castSend x cores = (s.castTaken x cores).sendCasts x.id (s.castBurst cores.length) := by
  have hroom : ¬ 8192 ≤ s.castsUsed (64 * lineOf (s.forward x.pa)) := not_le.mpr hu
  unfold State.castsUsed at hroom
  simp only [State.castSend, hentry, hroom, hcores]
  rfl
theorem State.castSend_refused (hu : 8192 ≤ s.castsUsed (64 * lineOf (s.forward x.pa))) :
    s.castSend x cores = (s.castRefused x cores).castAnswered x.id := by
  unfold State.castsUsed at hu
  simp only [State.castSend, hentry, hu, hcores]
  rfl

end Casts

section Casts

variable {s : State} {x : Store}

theorem State.castTaken_find (hnew : ∀ y ∈ s.homes.stcs, y.id ≠ x.id) (cores : List Nat) :
    ((s.castTaken x cores).homes.stcs.find? fun y => y.id == x.id) = some (s.stcOf x cores) := by
  have hnone : (s.homes.stcs.find? fun y => y.id == x.id) = none := by
    rw [List.find?_eq_none]
    exact fun y hy => by simpa using hnew y hy
  rw [State.castTaken, List.find?_append, hnone, Option.none_or, List.find?_singleton, State.stcOf, beq_self_eq_true, if_pos rfl]

variable (hnew : ∀ y ∈ s.homes.stcs, y.id ≠ x.id) (hentry : s.castEntry (lineOf (s.forward x.pa)) = none)
include hnew hentry

/-- Casts change no byte, no register and no outstanding write. -/
theorem State.castSend_kept (cores : List Nat) :
    Kept s (s.castSend x cores) ∧ ∀ d, ((s.castSend x cores).core d).stores = (s.core d).stores := by
  cases cores with
  | nil => exact ⟨(Quiet.refl s).toKept, fun _ => rfl⟩
  | cons c rest =>
    rcases lt_or_ge (s.castsUsed (64 * lineOf (s.forward x.pa))) 8192 with hu | hu
    · rw [State.castSend_taken hentry rfl hu, State.sendCasts_found (State.castTaken_find hnew _)]
      generalize hl : List.take _ _ = l
      have hq := State.sendCasts_quiet (y := s.stcOf x (c :: rest)) l
        ((s.castTaken x (c :: rest)).lessUnsent x.id (s.castBurst (c :: rest).length))
      exact ⟨⟨hq.home, hq.regs⟩, hq.stores⟩
    · rw [State.castSend_refused hentry rfl hu]
      have hq := State.castAnswered_quiet (s.castRefused x (c :: rest)) x.id
      exact ⟨⟨hq.home, hq.regs⟩, hq.stores⟩

/-- A cast that finds an entry takes it, and its first target is sent the line. -/
theorem State.castSend_sends (c : Nat) (rest : List Nat) (hu : s.castsUsed (64 * lineOf (s.forward x.pa)) < 8192) :
    s.castEntryOf x (c :: rest) ∈ (s.castSend x (c :: rest)).homes.castDir ∧
      ∃ m ∈ (s.castSend x (c :: rest)).homes.msgs, m.core = c ∧ m.line = lineOf (s.forward x.pa) ∧
        m.kind = .cast x.id x.part (s.homeLine (lineOf (s.forward x.pa))) := by
  rw [State.castSend_taken hentry rfl hu]
  refine ⟨?_, State.sendCasts_first (State.castTaken_find hnew _) rfl _⟩
  rw [State.sendCasts_found (State.castTaken_find hnew _), (State.sendCasts_quiet _ _).castDir]
  exact List.mem_append_right _ (List.mem_singleton_self _)

omit hnew in
/-- One that finds none counts every target as refused. -/
theorem State.castSend_refuses (c : Nat) (rest : List Nat) (hu : 8192 ≤ s.castsUsed (64 * lineOf (s.forward x.pa))) :
    (s.castSend x (c :: rest)).homes.castDir = s.homes.castDir ∧ ∃ y ∈ (s.castSend x (c :: rest)).homes.stcs,
      y.id = x.id ∧ y.refused = (c :: rest).length ∧ y.waiting = [] := by
  have hq := State.castAnswered_quiet (s.castRefused x (c :: rest)) x.id
  rw [State.castSend_refused hentry rfl hu, hq.castDir, hq.stcs]
  exact ⟨rfl, _, List.mem_append_right _ (List.mem_singleton_self _), rfl, rfl, rfl⟩

end Casts

/-! A cast performs: its line is written, and its casts leave. -/

/-- What the writing of a cast's line leaves to its casts. -/
def State.castWritten (s : State) (c : Nat) (x : Store) (data : Line) : State := (s.poke x.pa 64 data.toNat).dropStore c x.id

section Casts

variable {s : State} {c : Nat} {x : Store} (data : Line)

theorem State.castWritten_forward (pa : Nat) : (s.castWritten c x data).forward pa = s.forward pa := by
  rw [State.castWritten, ((s.poke x.pa 64 data.toNat).dropStore_kept c x.id).home.forward, State.poke_forward]
theorem State.castWritten_homes : (s.castWritten c x data).homes.castDir = s.homes.castDir ∧
    (s.castWritten c x data).homes.stcs = s.homes.stcs := ⟨(s.poke_homes x.pa 64 data.toNat).1, (s.poke_homes x.pa 64 data.toNat).2.1⟩
theorem State.castWritten_castsUsed (q : Nat) : (s.castWritten c x data).castsUsed q = s.castsUsed q := by
  obtain ⟨mem, keys, dir, h⟩ := State.poke_frame s x.pa 64 data.toNat
  rw [State.castWritten, h]
  rfl
theorem State.castWritten_wrote : Wrote s (s.castWritten c x data) x.pa 64 data.toNat := by
  have h := (s.poke_wrote x.pa data.toNat (le_refl 64)).then_kept (State.dropStore_kept _ c x.id)
  rwa [line_mod] at h
theorem State.castWritten_homeLine (hq : s.forward x.pa % 64 = 0) :
    (s.castWritten c x data).homeLine (lineOf (s.forward x.pa)) = data := by
  have hr := (State.castWritten_wrote (s := s) (c := c) (x := x) data).reads
  rw [State.homeRead, State.castWritten_forward, ← line_aligned hq, State.memBytes_line] at hr
  exact BitVec.eq_of_toNat_eq hr

variable {cores : List Nat} (hk : x.kind = .cast data cores) (hpa : x.pa % 64 = 0)
include hk hpa

theorem State.perform_cast_eq : s.perform c x = ((s.castWritten c x data).castSend x cores).settled c x := by
  have heq : s.perform c x = (((s.poke (64 * lineOf x.pa) 64 data.toNat).dropStore c x.id).castSend x cores).settled c x := by
    unfold State.perform
    rw [hk]
    rfl
  rw [heq, line_aligned hpa]
  rfl

variable (hnew : ∀ y ∈ s.homes.stcs, y.id ≠ x.id) (hentry : s.castEntry (lineOf (s.forward x.pa)) = none)

omit hk hpa in
include hentry in
theorem State.castWritten_entry :
    (s.castWritten c x data).castEntry (lineOf ((s.castWritten c x data).forward x.pa)) = none := by
  rw [State.castWritten_forward, State.castEntry, (State.castWritten_homes data).1]
  exact hentry
omit hk hpa in
include hnew in
theorem State.castWritten_new : ∀ y ∈ (s.castWritten c x data).homes.stcs, y.id ≠ x.id := by
  rw [(State.castWritten_homes data).2]
  exact hnew

include hnew hentry

/-- The line is written and the write leaves the core's list. -/
theorem State.perform_cast : Wrote s (s.perform c x) x.pa 64 data.toNat ∧ ∀ y ∈ ((s.perform c x).core c).stores, y.id ≠ x.id := by
  obtain ⟨hkept, hstores⟩ := State.castSend_kept (State.castWritten_new (c := c) data hnew) (State.castWritten_entry data hentry) cores
  have hq := ((s.castWritten c x data).castSend x cores).settled_quiet c x
  rw [State.perform_cast_eq data hk hpa]
  refine ⟨((State.castWritten_wrote data).then_kept hkept).then_kept hq.toKept, ?_⟩
  rw [hq.stores, hstores]
  exact State.dropStore_gone _ c x.id

/-- Its targets: the entry it takes and its first message, or its refusals. -/
theorem State.perform_cast_targets (hq : s.forward x.pa % 64 = 0) {d : Nat} {rest : List Nat} (hc : cores = d :: rest) :
    (s.castsUsed (s.forward x.pa) < 8192 →
      (∃ e ∈ (s.perform c x).homes.castDir, e.line = lineOf (s.forward x.pa) ∧ e.pending = cores ∧ e.holders = [] ∧ e.stc = x.id) ∧
      ∃ m ∈ (s.perform c x).homes.msgs, m.core = d ∧ m.line = lineOf (s.forward x.pa) ∧
        ∃ part sent, m.kind = .cast x.id part sent ∧ sent = data) ∧
    (8192 ≤ s.castsUsed (s.forward x.pa) → (s.perform c x).homes.castDir = s.homes.castDir ∧
      ∃ y ∈ (s.perform c x).homes.stcs, y.id = x.id ∧ y.refused = cores.length ∧ y.waiting = []) := by
  have hw := State.castWritten_new (c := c) data hnew
  have he := State.castWritten_entry (c := c) data hentry
  have hf := State.castWritten_forward (s := s) (c := c) (x := x) data x.pa
  have hused : (s.castWritten c x data).castsUsed (64 * lineOf ((s.castWritten c x data).forward x.pa)) = s.castsUsed (s.forward x.pa) := by
    rw [State.castWritten_castsUsed, hf, line_aligned hq]
  have hs := ((s.castWritten c x data).castSend x cores).settled_quiet c x
  rw [State.perform_cast_eq data hk hpa, hs.castDir, hs.stcs, hc]
  rw [hc] at hs
  constructor
  · intro hu
    obtain ⟨hdir, m, hm, hcore, hline, hkind⟩ := State.castSend_sends hw he d rest (hused.trans_lt hu)
    rw [hf] at hline hkind
    rw [State.castWritten_homeLine data hq] at hkind
    exact ⟨⟨_, hdir, congrArg lineOf hf, rfl, rfl, rfl⟩, m, hs.msgs hm, hcore, hline, _, _, hkind, rfl⟩
  · intro hu
    obtain ⟨hdir, hrefused⟩ := State.castSend_refuses he d rest (hused.symm ▸ hu)
    exact ⟨hdir.trans (State.castWritten_homes data).1, hrefused⟩

end Casts

end Sys2Proof.Machine
end

section
namespace Sys2Proof.Machine

/-! ### The steps at the home (21 R325, R334) -/

section Steps

variable {s s2 : State} {c id : Nat}

theorem Core.findStore_id {co : Core} {x : Store} (h : co.findStore id = some x) : x.id = id := by simpa using List.find?_some h
theorem Core.findLoad_id {co : Core} {l : Load} (h : co.findLoad id = some l) : l.id = id := by simpa using List.find?_some h

/-- A read that its home has answered. -/
theorem State.capture_findLoad {l : Load} (h : (s.core c).findLoad id = some l) (data : Line) (err : Nat) :
    ((s.capture c id data err).core c).findLoad id = some { l with data := some data, err } := by
  have hid : ((fun k : Load => k.id == id) ∘ fun k => if k.id == id then { k with data := some data, err } else k) = fun k => k.id == id := by
    funext k
    simp only [Function.comp_apply]
    split <;> rfl
  have hl := Core.findLoad_id h
  rw [Core.findLoad] at h
  rw [State.capture, State.modCore_core, Core.findLoad, mapIf, List.find?_map, hid, h, Option.map_some, hl, beq_self_eq_true, if_pos rfl]
theorem State.served_core (s : State) (r : Nat) (a : Agent) (c : Nat) : (s.served r a).core c = s.core c := by
  unfold State.served
  split <;> rfl

/-- Paying for a read changes nothing that it reads. -/
theorem OnlyRequests.readLine (h : OnlyRequests s s2) (l : Load) : s2.readLine c l = s.readLine c l := by
  obtain ⟨_, _, _, _, _, rfl⟩ := h
  rfl
theorem OnlyRequests.poisonAt (h : OnlyRequests s s2) (pa : Nat) : s2.poisonAt pa = s.poisonAt pa := by
  obtain ⟨_, _, _, _, _, rfl⟩ := h
  rfl
theorem OnlyRequests.core (h : OnlyRequests s s2) (c : Nat) : s2.core c = s.core c := by rw [State.core, h.cores, State.core]
theorem OnlyRequests.castsUsed (h : OnlyRequests s s2) (q : Nat) : s2.castsUsed q = s.castsUsed q := by
  obtain ⟨_, _, _, _, _, rfl⟩ := h
  rfl
theorem OnlyRequests.castEntry (h : OnlyRequests s s2) (line : Nat) : s2.castEntry line = s.castEntry line := by
  rw [State.castEntry, h.quiet.castDir, State.castEntry]
theorem OnlyRequests.migLocked (h : OnlyRequests s s2) (pa : Nat) : s2.migLocked pa = s.migLocked pa := by
  obtain ⟨_, _, _, _, _, rfl⟩ := h
  rfl
theorem OnlyRequests.of_regulate {a : Agent} {n pa : Nat} (h : s.regulate a n pa = (true, s2)) : OnlyRequests s s2 := by
  have hr := OnlyRequests.regulate s a n pa
  rwa [h] at hr

/-- A read whose turn it is and which its region and its regulator let through is answered with its line. -/
theorem State.homeReadOf_answers {l : Load} (hctl : inCtl l.pa = false) (hallow : s.readAllowed c l = (true, s)) (hpoison : s.poisonAt l.pa = 0)
    (hpay : s.regulate (.access c l.id) (regulatorOf l.who l.part) l.pa = (true, s2)) :
    s.homeReadOf c l = s2.answered c l (s.readLine c l) 0 := by
  have hreq := OnlyRequests.of_regulate hpay
  simp only [State.homeReadOf, hctl, hallow, hpay, hreq.poisonAt, hpoison, hreq.readLine]
  rfl

/-- The step of such a read. -/
theorem State.exec_homeRead {l : Load} (hfind : (s.core c).findLoad l.id = some l) (hdata : l.data = none) (hturn : s.readTurn c l = true)
    (hctl : inCtl l.pa = false) (hallow : s.readAllowed c l = (true, s)) (hpoison : s.poisonAt l.pa = 0)
    (hpay : s.regulate (.access c l.id) (regulatorOf l.who l.part) l.pa = (true, s2)) :
    exec (.homeRead c l.id) s = .next (s2.answered c l (s.readLine c l) 0) := by
  have hstep : exec (.homeRead c l.id) s = execHomeRead c l.id s := rfl
  rw [hstep, execHomeRead, hfind]
  simp [hdata, hturn, State.homeReadOf_answers hctl hallow hpoison hpay]

section Writes

variable {x : Store} (hctl : inCtl x.pa = false) (hregion : s.region (regionOf (s.forward x.pa)) = .acc)
  (hscrub : s.scrubbing (s.forward x.pa) = false) (hmig : s.migLocked x.pa = false) (hpoison : s.poisonAt x.pa = 0)
  (hbusy : s.lineBusy (s.homeOf x.pa) x.id = false)
  (hpay : s.regulate (.access c x.id) (regulatorOf x.who x.part) x.pa = (true, s2))
  (hentry : s.castEntry (lineOf (s.forward x.pa)) = none)

include hctl hregion hscrub in
theorem State.writeAllowed_acc : s.writeAllowed c x = (true, s) := by
  simp [State.writeAllowed, State.devReady, hctl, hregion, hscrub]

include hmig hpoison in
/-- A write of a line that is neither locked nor poisoned performs. -/
theorem State.finishWrite_performs : s.finishWrite c x = s.perform c x := by
  simp [State.finishWrite, hmig, hpoison]

include hctl hregion hscrub hmig hpoison hbusy hpay hentry

/-- A write that finds its line free, at a region of the device, performs once its request is paid for. -/
theorem State.homeWriteOf_performs : s.homeWriteOf c x = s2.perform c x := by
  have hreq := OnlyRequests.of_regulate hpay
  have htargets : s2.castTargets c x.pa = [] := by
    rw [State.castTargets, hreq.quiet.home.forward, hreq.castEntry, hentry]
  have hfinish := State.finishWrite_performs (c := c) ((hreq.migLocked x.pa).trans hmig) ((hreq.poisonAt x.pa).trans hpoison)
  unfold State.homeWriteOf
  simp only [hctl, State.writeAllowed_acc hctl hregion hscrub, hbusy, hpoison, hpay, htargets, ite_self, hfinish]
  simp

/-- The step of such a write. -/
theorem State.exec_homeWrite (hfind : (s.core c).findStore id = some x) (hdone : x.done = false) (hacks : x.acks = none)
    (hheld : (c, id) ∉ s.homes.held) (hturn : s.writeTurn c x = true) (hdue : s.releaseDue c x = true) :
    exec (.homeWrite c id) s = .next (s2.perform c x) := by
  have hstep : exec (.homeWrite c id) s = execHomeWrite c id s := rfl
  rw [hstep, execHomeWrite, hfind]
  simp [hheld, hdone, hturn, hdue, hacks, State.homeWriteOf_performs hctl hregion hscrub hmig hpoison hbusy hpay hentry]

end Writes

end Steps

/-- Settles O37: the step pays for the request and performs the write; what performs is read off for each kind. -/
theorem homesPerform : Obligations.HomesPerform := by
  intro s s2 c id
  constructor
  · intro l hfind hdata hturn hctl hallow hpoison hpay
    obtain rfl := Core.findLoad_id hfind
    have hreq := OnlyRequests.of_regulate hpay
    refine ⟨_, State.exec_homeRead hfind hdata hturn hctl hallow hpoison hpay, ?_, ?_⟩
    · rw [State.answered, State.served_core]
      exact State.capture_findLoad (by rw [hreq.core, hfind]) _ _
    · rw [State.answered, State.served_mem]
      exact hreq.mem
  · intro x hfind hdone hacks hheld hturn hdue hctl hregion hscrub hmig hpoison hbusy hpay hentry
    have hexec := State.exec_homeWrite hctl hregion hscrub hmig hpoison hbusy hpay hentry hfind hdone hacks hheld hturn hdue
    obtain rfl := Core.findStore_id hfind
    have hreq := OnlyRequests.of_regulate hpay
    have hhome := hreq.quiet.home
    have hfind2 : (s2.core c).findStore x.id = some x := by rw [hreq.core, hfind]
    have hentry2 : s2.castEntry (lineOf (s2.forward x.pa)) = none := by rw [hhome.forward, hreq.castEntry, hentry]
    have hafter {n v : Nat} (w : Wrote s2 (s2.perform c x) x.pa n v) : Wrote s (s2.perform c x) x.pa n v := .after_kept hreq.quiet.toKept w
    refine ⟨?_, ?_, ?_⟩
    · intro len data hk hlen
      obtain ⟨hw, hgone⟩ := State.perform_plain s2 c x hk (hlen.trans (by decide))
      exact ⟨_, hexec, (hafter hw).reads, (hafter hw).apart, hgone, (hafter hw).regs⟩
    · intro op w64 a cmp hk
      obtain ⟨hw, hret⟩ := State.perform_atom hk hfind2
      rw [State.atomResult, hhome.homeRead] at hw
      rw [hhome.homeRead] at hret
      exact ⟨_, hexec, (hafter hw).reads, (hafter hw).apart, hret, (hafter hw).regs⟩
    · intro hpa hq
      have hq2 : s2.forward x.pa % 64 = 0 := by rw [hhome.forward]; exact hq
      have hline : (s2.lineAt x.pa).toNat = s.homeRead x.pa 64 := (State.lineAt_toNat hq2).trans (hhome.homeRead x.pa 64)
      refine ⟨?_, ?_, ?_⟩
      · intro v hk
        obtain ⟨hw, hret⟩ := State.perform_xal hk hfind2 hpa hq2
        have hadd := xalAdd_added (s2.lineAt x.pa) v.toNat
        have hnow : (s2.perform c x).homeRead x.pa 64 = (xalAdd (s2.lineAt x.pa) v.toNat).toNat := hw.reads
        rw [hline, ← hnow] at hadd
        exact ⟨_, hexec, (hafter hw).apart, ⟨hret, (hafter hw).regs⟩, hadd⟩
      · intro op v hk hop
        obtain ⟨hw, hret⟩ := State.perform_xal hk hfind2 hpa hq2
        obtain ⟨hleft, hread⟩ := xalApply_reads hop (s2.lineAt x.pa) v
        rw [hline] at hleft hread
        exact ⟨_, _, hexec, (hafter hw).apart, ⟨hret, (hafter hw).regs⟩, hw.reads.trans hleft, hread⟩
      · intro data cores hk hnew
        have hnew2 : ∀ y ∈ s2.homes.stcs, y.id ≠ x.id := by rw [hreq.quiet.stcs]; exact hnew
        obtain ⟨hw, hgone⟩ := State.perform_cast data (c := c) hk hpa hnew2 hentry2
        refine ⟨_, hexec, (hafter hw).reads, (hafter hw).apart, hgone, (hafter hw).regs, ?_⟩
        intro used d rest hc
        have ht := State.perform_cast_targets data (c := c) hk hpa hnew2 hentry2 hq2 hc
        rw [hhome.forward, hreq.castsUsed, hreq.quiet.castDir] at ht
        exact ht

end Sys2Proof.Machine
end

section
namespace Sys2Proof.Machine

/-! ### Words that write a function of their executor's own registers (05 R108) -/

theorem State.reg_of_regN {s t : State} {w : Who} (h : ∀ n, t.regN w n = s.regN w n) : t.reg w = s.reg w :=
  funext fun r => h r.toNat

theorem ownValue_regs (f : Who → (Reg → Nat) → Nat) : OwnValue fun s w => f w (s.reg w) :=
  fun _ _ w _ h => congrArg (f w) (State.reg_of_regN h)

theorem writeReg_regs_gives {x : Instr} {d : Reg} (f : Who → (Reg → Nat) → Nat)
    (hx : ∀ s, exec x s = writeReg x.guard d (fun s w => f w (s.reg w)) s) : Gives x d fun s w => f w (s.reg w) :=
  writeReg_gives x d _ _ hx (ownValue_regs f) fun _ _ => rfl

/-- A written value matters at its executor's width alone. -/
theorem Gives.congr {x : Instr} {d : Reg} {f v : State → Who → Nat} (h : Gives x d f)
    (he : ∀ s w, f s w % 2 ^ w.width = v s w % 2 ^ w.width) : Gives x d v := by
  intro s i hi
  obtain ⟨t, ht, hwrites, hframe⟩ := h s i hi
  exact ⟨t, ht, fun w hw => (hwrites w hw).trans (he s w), hframe⟩

/-- Settles O1: each word writes a function of its executor's own registers, reduced to the width or as 64 bits. -/
theorem integerSumsAndProducts : Obligations.IntegerSumsAndProducts := by
  refine ⟨fun g d a b i6 i12 h12 h20 => ⟨?_, ?_, ?_, ?_, ?_, ?_, ?_, ?_⟩, fun g d a k => ⟨?_, ?_⟩⟩
  · exact writeReg_regs_gives (fun _ r => r a + r b) fun _ => rfl
  · exact (writeReg_regs_gives (fun w r => r a + (2 ^ w.width - r b)) fun _ => rfl).congr fun s w => wrap_sub _ _ _ (s.reg_lt w b)
  · exact writeReg_regs_gives (fun _ r => r a * r b) fun _ => rfl
  · exact writeReg_regs_gives (fun _ r => r d + r a * r b) fun _ => rfl
  · exact (writeReg_regs_gives (fun w r => r a + wrapTo w.width (immSigned i6)) fun _ => rfl).congr fun _ _ => wrap_add _ _ _
  · exact writeReg_regs_gives (fun w _ => wrapTo w.width (immSigned i12)) fun _ => rfl
  · exact writeReg_regs_gives (fun _ r => r d * 2 ^ 12 + h12.toNat) fun _ => rfl
  · exact writeReg_regs_gives (fun _ r => r d * 2 ^ 20 + h20.toNat) fun _ => rfl
  · refine setReg64_gives _ d _ _ (fun _ => rfl) (fun s t w _ h => ?_) fun _ _ => rfl
    simp only [State.reg64_of_regN h, State.reg_of_regN h]
  · refine setReg64_gives _ d _ _ (fun _ => rfl) (fun s t w _ h => ?_) fun _ _ => rfl
    simp only [State.reg64_of_regN h]

/-- Settles O3: each word writes a function of its executor's own registers, equal at the width to the product or quotient by the
power of two. -/
theorem shiftsAndHighProducts : Obligations.ShiftsAndHighProducts := by
  intro g d a i
  refine ⟨?_, ?_, ?_, ?_, ?_, ?_, ?_, ?_⟩
  · exact (writeReg_regs_gives (fun w r => shiftLeft w.width (r d) (r a)) fun _ => rfl).congr fun _ _ => shl_mod _ _ _
  · exact (writeReg_regs_gives (fun w r => shiftRight w.width (r d) (r a)) fun _ => rfl).congr fun s w => shr_mod _ _ _ (s.reg_lt w d)
  · exact (writeReg_regs_gives (fun w r => shiftArith w.width (r d) (r a)) fun _ => rfl).congr fun _ _ => sra_eq _ _ _
  · exact (writeReg_regs_gives (fun w r => shiftLeft w.width (r a) (immUnsigned i)) fun _ => rfl).congr fun _ _ => shl_mod _ _ _
  · exact (writeReg_regs_gives (fun w r => shiftRight w.width (r a) (immUnsigned i)) fun _ => rfl).congr fun s w =>
      shr_mod _ _ _ (s.reg_lt w a)
  · exact (writeReg_regs_gives (fun w r => shiftArith w.width (r a) (immUnsigned i)) fun _ => rfl).congr fun _ _ => sra_eq _ _ _
  · exact writeReg_regs_gives
      (fun w r => wrapTo w.width (signedAt w.width (r d) * signedAt w.width (r a) / (2 ^ w.width : Nat))) fun _ => rfl
  · exact writeReg_regs_gives (fun w r => r d * r a / 2 ^ w.width) fun _ => rfl

end Sys2Proof.Machine
end

section
namespace Sys2Proof.Machine

/-! ### Extremes, counts and fields as numbers (05 R109, R113) -/

theorem bitsOf_eq (x lo len : Nat) : bitsOf x lo len = x / 2 ^ lo % 2 ^ len := by
  rw [bitsOf, Nat.shiftRight_eq_div_pow]

section Pick
variable (s : State) (w : Who) (d a : Reg)

theorem pick_le : pick (fun x y => x ≤ y) s w d a =
    wrapTo w.width (min (signedAt w.width (s.reg w d)) (signedAt w.width (s.reg w a))) := by
  rw [pick, min_def]
  simp only [decide_eq_true_eq]
  split
  · exact (wrap_signed _ _ (s.reg_lt w d)).symm
  · exact (wrap_signed _ _ (s.reg_lt w a)).symm

theorem pick_ge : pick (fun x y => y ≤ x) s w d a =
    wrapTo w.width (max (signedAt w.width (s.reg w d)) (signedAt w.width (s.reg w a))) := by
  rw [pick, max_comm, max_def]
  simp only [decide_eq_true_eq]
  split
  · exact (wrap_signed _ _ (s.reg_lt w d)).symm
  · exact (wrap_signed _ _ (s.reg_lt w a)).symm

end Pick

theorem popCount_eq (x n : Nat) : popCount x n = ((List.range n).filter fun k => x.testBit k).length := by
  induction n with
  | zero => rfl
  | succ n ih =>
    rw [popCount, ih, bitOf_testBit, List.range_succ, List.filter_append, List.length_append]
    cases h : x.testBit n <;> simp [h, Nat.add_comm]

/-- The zero bits of a number of n bits above its highest one bit. -/
theorem leadingZeros_eq {x n : Nat} (h : x < 2 ^ n) : leadingZeros x n = if x = 0 then n else n - 1 - x.log2 := by
  induction n with
  | zero =>
    obtain rfl : x = 0 := by omega
    rfl
  | succ n ih =>
    rw [leadingZeros, bitOf_testBit]
    rcases lt_or_ge x (2 ^ n) with hlt | hge
    · rw [Nat.testBit_lt_two_pow hlt, if_neg Bool.false_ne_true, ih hlt]
      split
      · exact Nat.add_comm 1 n
      · next h0 =>
        have hlog : x.log2 < n := (Nat.log2_lt h0).mpr hlt
        omega
    · have h0 : x ≠ 0 := (Nat.two_pow_pos n).trans_le hge |>.ne'
      have hlog : x.log2 = n := (Nat.log2_eq_iff h0).mpr ⟨hge, h⟩
      have hbit : x.testBit n = true := by rw [← hlog]; exact Nat.testBit_log2 h0
      rw [if_pos hbit, if_neg h0, hlog]
      omega

/-- A field of n bits, read as signed. -/
theorem signedAt_of_lt {n f : Nat} (h : f < 2 ^ n) : signedAt n f = if 2 ^ n ≤ 2 * f then (f : Int) - (2 ^ n : Nat) else f := by
  rw [signedAt, BitVec.toInt_eq_toNat_cond, BitVec.toNat_ofNat, Nat.mod_eq_of_lt h]
  split <;> split <;> omega

/-- BFE of a thread's operands. -/
theorem bitExtract_eq {ctl a : Nat} (ha : a < 2 ^ 32) :
    let len := min (ctl / 2 ^ 8 % 2 ^ 8) 32
    let x : Int := if ctl.testBit 16 then signedAt 32 a else a
    let f := x / (2 ^ (ctl % 2 ^ 8) : Nat) % (2 ^ len : Nat)
    bitExtract ctl a =
      wrapTo 32 (if ctl.testBit 16 && decide (0 < len) && decide ((2 ^ len : Nat) ≤ 2 * f) then f - (2 ^ len : Nat) else f) := by
  intro len x f
  have hpos : bitsOf ctl 0 8 = ctl % 2 ^ 8 := by rw [bitsOf_eq, Nat.pow_zero, Nat.div_one]
  have hfield : wrapTo len (x / (2 ^ (ctl % 2 ^ 8) : Nat)) = f.toNat := rfl
  have hmodulus : (0 : Int) < (2 ^ len : Nat) := by positivity
  have hf : ((f.toNat : Nat) : Int) = f := Int.toNat_of_nonneg (Int.emod_nonneg _ hmodulus.ne')
  have hlt : f.toNat < 2 ^ len := by
    have := Int.emod_lt_of_pos (x / (2 ^ (ctl % 2 ^ 8) : Nat)) hmodulus
    omega
  have hlen : 2 ^ len ≤ 2 ^ 32 := Nat.pow_le_pow_right (by norm_num) (min_le_right _ _)
  have hplain : f.toNat = wrapTo 32 f := by
    rw [← wrap_congr 32 f.toNat f (by rw [hf]), Nat.mod_eq_of_lt (hlt.trans_le hlen)]
  rw [bitExtract]
  simp only [hpos, bitsOf_eq, bitOf_testBit, Nat.mod_eq_of_lt ha]
  change (if ctl.testBit 16 = true ∧ 0 < len then wrapTo 32 (signedAt len (wrapTo len (x / (2 ^ (ctl % 2 ^ 8) : Nat))))
    else wrapTo len (x / (2 ^ (ctl % 2 ^ 8) : Nat))) = _
  rw [hfield, signedAt_of_lt hlt, hf]
  have hneg : 2 ^ len ≤ 2 * f.toNat ↔ ((2 ^ len : Nat) : Int) ≤ 2 * f := by omega
  by_cases hs : ctl.testBit 16 = true ∧ 0 < len
  · simp only [hs, hneg, and_self, if_true, decide_true, Bool.true_and, decide_eq_true_eq]
  · have hunsigned : (ctl.testBit 16 && decide (0 < len)) = false := by simpa using hs
    rw [if_neg hs, hunsigned, Bool.false_and, if_neg Bool.false_ne_true, hplain]

/-- BFI of any operands, bit by bit. -/
theorem testBit_bitInsert (ctl d a n : Nat) :
    (bitInsert ctl d a).testBit n = (decide (n < 32) &&
      if ctl % 2 ^ 8 ≤ n ∧ n < ctl % 2 ^ 8 + min (ctl / 2 ^ 8 % 2 ^ 8) 32 then a.testBit (n - ctl % 2 ^ 8) else d.testBit n) := by
  simp only [bitInsert, testBit_bitsFrom, bitOf_testBit, bitsOf_eq, Nat.pow_zero, Nat.div_one]

/-- Settles O2: the bitwise forms are as they are written; the others write numbers whose bits, or values, the lemmas above tell. -/
theorem logicChoiceAndFields : Obligations.LogicChoiceAndFields := by
  refine ⟨fun g d a i6 p => ⟨?_, ?_, ?_, ?_, ?_, ?_, ?_, ?_, ?_, ?_⟩, fun g d a => ⟨?_, ?_, ?_⟩, fun g d a blk => ⟨?_, ?_, ?_⟩⟩
  · exact writeReg_regs_gives (fun _ r => r d &&& r a) fun _ => rfl
  · exact writeReg_regs_gives (fun _ r => r d ||| r a) fun _ => rfl
  · exact writeReg_regs_gives (fun _ r => r d ^^^ r a) fun _ => rfl
  · exact writeReg_regs_gives (fun w r => r a &&& wrapTo w.width (immSigned i6)) fun _ => rfl
  · exact (writeReg_regs_gives (fun w r => if decide (signedAt w.width (r d) ≤ signedAt w.width (r a)) then r d else r a)
      fun _ => rfl).congr fun s w => congrArg (· % 2 ^ w.width) (pick_le s w d a)
  · exact (writeReg_regs_gives (fun w r => if decide (signedAt w.width (r a) ≤ signedAt w.width (r d)) then r d else r a)
      fun _ => rfl).congr fun s w => congrArg (· % 2 ^ w.width) (pick_ge s w d a)
  · exact writeReg_regs_gives (fun _ r => min (r d) (r a)) fun _ => rfl
  · exact writeReg_regs_gives (fun _ r => max (r d) (r a)) fun _ => rfl
  · exact writeReg_regs_gives (fun w r => (signedAt w.width (r a)).natAbs) fun _ => rfl
  · refine writeReg_gives _ d _ _ (fun _ => rfl) (fun s t w ho h => ?_) fun _ _ => rfl
    simp only [ho.pred, State.reg_of_regN h]
  · exact (writeReg_regs_gives (fun w r => popCount (r a) w.width) fun _ => rfl).congr fun _ w =>
      congrArg (· % 2 ^ w.width) (popCount_eq _ _)
  · exact (writeReg_regs_gives (fun w r => leadingZeros (r a) w.width) fun _ => rfl).congr fun s w =>
      congrArg (· % 2 ^ w.width) (leadingZeros_eq (s.reg_lt w a))
  · refine ⟨_, writeReg_regs_gives (fun w r => bitsFrom (fun k => bitOf (r a) (w.width - 1 - k)) w.width) fun _ => rfl,
      fun s w n => ?_⟩
    rw [testBit_bitsFrom, bitOf_testBit]
  · refine ⟨_, writeReg_regs_gives (fun _ r => bitExtract (r d) (r a)) fun _ => rfl, fun s w hw => bitExtract_eq ?_⟩
    have hlt := s.reg_lt w a
    rwa [Who.width, if_pos hw] at hlt
  · exact ⟨_, writeReg_regs_gives (fun _ r => bitInsert (r (d + 1#7)) (r d) (r a)) fun _ => rfl,
      fun _ _ n _ => testBit_bitInsert _ _ _ n⟩
  · refine ⟨fun s w => s.predBlock w blk, writeReg_gives _ d _ _ (fun _ => rfl) (fun s t w ho _ => ?_) fun _ _ => rfl,
      fun s w n => testBit_bitsFrom _ _ n⟩
    simp only [State.predBlock, ho.pred]

end Sys2Proof.Machine
end

section
namespace Sys2Proof.Machine

/-! ### What a precise trap leaves of predicates and windows (24 R353) -/

theorem State.pred_modCtx {s : State} {f : Ctx → Ctx} {c k : Nat} (hq : (f (s.ctx c k)).q = (s.ctx c k).q)
    (hp : ∀ m, ((f (s.ctx c k)).thread m).p = ((s.ctx c k).thread m).p) (v : Who) (n : Nat) : (s.modCtx c k f).pred v n = s.pred v n := by
  obtain ⟨d, j, _ | m⟩ := v
  · simp only [State.pred, State.ctx_modCtx]
    split
    · next h => rw [hq, h.1, h.2]
    · rfl
  · simp only [State.pred, State.thread, State.ctx_modCtx]
    split
    · next h => rw [hp, h.1, h.2]
    · rfl

theorem State.pred_modStrand (s : State) (w : Who) (f : Strand → Strand) (v : Who) (n : Nat) :
    (s.modStrand w f).pred v n = s.pred v n := by
  obtain ⟨c, k, _ | t⟩ := w
  · exact State.pred_modCtx rfl (fun _ => rfl) v n
  · refine State.pred_modCtx rfl (fun m => ?_) v n
    rw [Ctx.thread_setThread]
    split
    · next h => subst h; rfl
    · rfl

/-- A context that settles changes the latches of its threads alone. -/
theorem Ctx.threads_settle (x : Ctx) (n : Nat) : tblGet none x.settle.threads n =
    (tblGet none x.threads n).map fun t => { t with latch := t.settled, latchPend := [] } := by
  unfold Ctx.settle
  simp only
  induction x.threads with
  | nil => rfl
  | cons e l ih =>
    simp only [List.map_cons, tblGet]
    split
    · rfl
    · exact ih

theorem Ctx.thread_settle_p (x : Ctx) (n : Nat) : (x.settle.thread n).p = (x.thread n).p := by
  rw [Ctx.thread, Ctx.threads_settle, Ctx.thread]
  cases tblGet none x.threads n <;> rfl

theorem State.window_modCtx (s : State) (c k : Nat) (f : Ctx → Ctx) (d slot : Nat) :
    ((s.modCtx c k f).core d).window slot = (s.core d).window slot := by
  rw [State.modCtx, State.core_setCtx]
  split <;> rfl

theorem State.window_modStrand (s : State) (w : Who) (f : Strand → Strand) (d slot : Nat) :
    ((s.modStrand w f).core d).window slot = (s.core d).window slot := by
  obtain ⟨c, k, _ | t⟩ := w <;> exact State.window_modCtx s c k _ d slot

/-- A precise trap that is not a page fault puts its executor at the bundle and stops the context. -/
theorem trapNow_eq (i : Issue) (w : Who) {cause : Nat} (va : DWord) (s : State) (h : cause ≠ 8 ∧ cause ≠ 9) :
    ∃ tr now cur, trapNow i w cause va s = { (s.setPc w i.pc).modCtx w.core w.ctx fun x => x.addTrap tr now with cur } := by
  let tr : Trap := { (s.setPc w i.pc).trapOf w (slotCode i.slot) cause 0 va 0#64 with write := false }
  refine ⟨tr, (s.setPc w i.pc).ps, (s.setPc w i.pc).cur.map fun j => { j with traps := j.traps ++ [tr] }, ?_⟩
  have hlist : (s.setPc w i.pc).listTrap w.core w.ctx tr = (s.setPc w i.pc).modCtx w.core w.ctx fun x => x.addTrap tr (s.setPc w i.pc).ps :=
    if_neg (not_or.mpr h)
  exact congrArg (fun u : State => { u with cur := u.cur.map fun (j : Issue) => { j with traps := j.traps ++ [tr] } }) hlist

theorem trapNow_pred (i : Issue) (w : Who) {cause : Nat} (va : DWord) (s : State) (h : cause ≠ 8 ∧ cause ≠ 9) (v : Who) (n : Nat) :
    (trapNow i w cause va s).pred v n = s.pred v n := by
  obtain ⟨tr, now, cur, e⟩ := trapNow_eq i w va s h
  rw [e]
  exact (State.pred_modCtx (f := fun x => x.addTrap tr now) rfl (Ctx.thread_settle_p _) v n).trans (State.pred_modStrand s w _ v n)

theorem trapNow_window (i : Issue) (w : Who) {cause : Nat} (va : DWord) (s : State) (h : cause ≠ 8 ∧ cause ≠ 9) (c slot : Nat) :
    ((trapNow i w cause va s).core c).window slot = (s.core c).window slot := by
  obtain ⟨tr, now, cur, e⟩ := trapNow_eq i w va s h
  rw [e]
  exact (State.window_modCtx (s.setPc w i.pc) w.core w.ctx (fun x => x.addTrap tr now) c slot).trans (State.window_modStrand s w _ c slot)

/-- The word of one executor whose guard is true, where its meaning for that executor is known. -/
theorem Runs.exec_eq {s t : State} {i : Issue} {w : Who} {x : Instr} {f : Issue → Who → State → State} (hr : Runs s i x w)
    (hx : exec x s = eachExec x.guard f s) (hf : f i w s = t) : exec x s = .next t :=
  (exec_one hr f hx).trans (congrArg Host.Outcome.next hf)

/-- A word that takes a precise trap for its one executor, and does nothing else, traps it. -/
theorem Runs.traps {s : State} {i : Issue} {w : Who} {x : Instr} {cause : Nat} {va : DWord} {f : Issue → Who → State → State}
    (hr : Runs s i x w) (ha : Alive s w) (hx : exec x s = eachExec x.guard f s) (hf : f i w s = trapNow i w cause va s)
    (h : cause ≠ 8 ∧ cause ≠ 9) : Traps s i w x cause va := by
  obtain ⟨⟨tr, htr, hcause, hva, -, htid, hpc, hexk, -⟩, hstays, hmem, hregs, -⟩ := trapAs_spec i w cause 0 va 0#64 false s h ha
  exact ⟨_, hr.exec_eq hx hf, hstays, hmem, hregs,
    trapNow_pred i w va s h, trapNow_window i w va s h, tr, htr, hcause, hva, htid, hpc, hexk⟩

/-! ### Accesses that are misaligned or out of the window (07 R152, R154) -/

section Words
variable {s : State} {i : Issue} {w : Who} {x : Instr} {off : Off} {a : Reg} {n : Nat}

theorem not_targetAligned {t : DWord} (h : t.toNat % 4 ≠ 0) : ¬ targetAligned t = true := by simpa [targetAligned] using h

theorem State.goTo_misaligned {t : DWord} (h : t.toNat % 4 ≠ 0) : s.goTo i w t = trapMisaligned i w t s :=
  if_neg (not_targetAligned h)

/-- The executor is one that may access memory now. -/
def MayAccess (s : State) (i : Issue) (w : Who) (x : Instr) : Prop := Runs s i x w ∧ Alive s w ∧ s.acquiring w = false

/-- The word accesses n bytes of global memory at an offset from a register, whatever it does once it reaches them. -/
def AccessesGlobal (x : Instr) (a : Reg) (off : Off) (n : Nat) : Prop :=
  ∃ acc, ∃ f : Issue → Who → State → Reached → State → State,
    ∀ s, exec x s = eachExec x.guard (fun i w st => access i w acc n (st.globalAddr w a off n) (f i w st) st) s

theorem AccessesGlobal.traps_misaligned (hx : AccessesGlobal x a off n) (hm : MayAccess s i w x)
    (h : (s.globalAddr w a off n).toNat % n ≠ 0) : Traps s i w x 3 (s.globalAddr w a off n) := by
  obtain ⟨acc, f, hexec⟩ := hx
  obtain ⟨hr, ha, hq⟩ := hm
  exact hr.traps ha (hexec s) (access_misaligned hq h _) (by decide)

theorem smemAccess_misaligned {align size : Nat} {o : Int} (hq : s.acquiring w = false) (h : o % (align : Nat) ≠ 0)
    (f : Nat → State → State) : smemAccess i w align size o f s = trapMisaligned i w (BitVec.ofInt 64 o) s := by
  rw [smemAccess, if_neg (by simp [hq]), if_pos h]

theorem smemAccess_outside {align size : Nat} {o : Int} (hq : s.acquiring w = false) (h : o % (align : Nat) = 0)
    (hb : o < 0 ∨ (s.smemSize w.core w.ctx : Int) < o + (size : Nat)) (f : Nat → State → State) :
    smemAccess i w align size o f s = trapRange i w (BitVec.ofInt 64 o) s := by
  rw [smemAccess, if_neg (by simp [hq]), if_neg (not_not.mpr h), if_pos hb]

/-- The word accesses n bytes of the scratchpad at an offset from a register, whatever it does once it reaches them. -/
def AccessesScratchpad (x : Instr) (a : Reg) (off : Off) (n : Nat) : Prop :=
  ∃ f : Issue → Who → State → Nat → State → State,
    ∀ s, exec x s = eachExec x.guard (fun i w st => smemAccess i w n n (st.smemAddr w a off n) (f i w st) st) s

theorem AccessesScratchpad.traps_misaligned (hx : AccessesScratchpad x a off n) (hm : MayAccess s i w x)
    (h : s.smemAddr w a off n % (n : Nat) ≠ 0) : Traps s i w x 3 (BitVec.ofInt 64 (s.smemAddr w a off n)) := by
  obtain ⟨f, hexec⟩ := hx
  obtain ⟨hr, ha, hq⟩ := hm
  exact hr.traps ha (hexec s) (smemAccess_misaligned hq h _) (by decide)

theorem AccessesScratchpad.traps_outside (hx : AccessesScratchpad x a off n) (hm : MayAccess s i w x)
    (h : s.smemAddr w a off n % (n : Nat) = 0)
    (hb : s.smemAddr w a off n < 0 ∨ (s.smemSize w.core w.ctx : Int) < s.smemAddr w a off n + (n : Nat)) :
    Traps s i w x 4 (BitVec.ofInt 64 (s.smemAddr w a off n)) := by
  obtain ⟨f, hexec⟩ := hx
  obtain ⟨hr, ha, hq⟩ := hm
  exact hr.traps ha (hexec s) (smemAccess_outside hq h hb _) (by decide)

end Words

/-- STC looks at its source, then at its core set, then at its line (07 R161, R162). -/
theorem stc_traps {g : Guard} {d a : Reg} {s : State} {i : Issue} {w : Who} (hm : MayAccess s i w (.stc g d a)) :
    let o := (s.regs2 w d).1.toNat % 2 ^ 22
    let window : Int := s.smemSize w.core w.ctx
    (o % 64 ≠ 0 → Traps s i w (.stc g d a) 3 (BitVec.ofNat 64 o)) ∧
    (o % 64 = 0 → window < o + 64 → Traps s i w (.stc g d a) 4 (BitVec.ofNat 64 o)) ∧
    (o % 64 = 0 → (o : Int) + 64 ≤ window → decodeCoreSet (s.regs2 w d).2.toNat = none → Traps s i w (.stc g d a) 5 0#64) ∧
    (o % 64 = 0 → (o : Int) + 64 ≤ window → decodeCoreSet (s.regs2 w d).2.toNat ≠ none → (s.reg64 w a).toNat % 64 ≠ 0 →
      Traps s i w (.stc g d a) 3 (s.reg64 w a)) := by
  intro o window
  obtain ⟨hr, ha, hq⟩ := hm
  have hva : BitVec.ofInt 64 (o : Int) = BitVec.ofNat 64 o := BitVec.ofInt_natCast 64 o
  have hreach {f : Nat → State → State} (h : o % 64 = 0) (hb : (o : Int) + 64 ≤ window) :
      smemAccess i w 64 64 (o : Int) f s = f o s :=
    smemAccess_reaches hq rfl h (by omega) f
  refine ⟨fun h => ?_, fun h hb => ?_, fun h hb hset => ?_, fun h hb hset hline => ?_⟩
  · rw [← hva]
    exact hr.traps ha rfl (smemAccess_misaligned hq (by omega) _) (by decide)
  · rw [← hva]
    exact hr.traps ha rfl (smemAccess_outside hq (by omega) (.inr hb) _) (by decide)
  · refine hr.traps ha rfl ((hreach h hb).trans ?_) (by decide)
    simp only [hset]
    rfl
  · refine hr.traps ha rfl ((hreach h hb).trans ?_) (by decide)
    obtain ⟨cores, hcores⟩ := Option.ne_none_iff_exists'.mp hset
    simp only [hcores]
    exact access_misaligned hq hline _

/-- Settles O14: a transfer is `goTo`; each access is `access` or `smemAccess` of its size, whatever it does at its place. -/
theorem misalignmentTraps : Obligations.MisalignmentTraps := by
  refine ⟨fun g a s i w => ⟨?_, ?_, ?_⟩, fun g d a sz ord scp wd off s i w => ?_⟩
  · exact fun hr ha h => hr.traps ha rfl (State.goTo_misaligned h) (by decide)
  · exact fun hr ha h => hr.traps ha rfl (if_neg (not_targetAligned h)) (by decide)
  · exact fun hr ha h => hr.traps ha rfl (State.goTo_misaligned h) (by decide)
  · intro may m globals locals window
    have hglobals : ∀ x ∈ globals, AccessesGlobal x.1 a off x.2 := by
      simp only [globals, List.forall_mem_append, List.forall_mem_map, List.forall_mem_cons]
      exact ⟨⟨⟨⟨_, _, fun _ => rfl⟩, ⟨_, _, fun _ => rfl⟩, ⟨_, _, fun _ => rfl⟩, ⟨_, _, fun _ => rfl⟩, List.forall_mem_nil _⟩,
        ⟨_, _, fun _ => rfl⟩, ⟨_, _, fun _ => rfl⟩, ⟨_, _, fun _ => rfl⟩, ⟨_, _, fun _ => rfl⟩, ⟨_, _, fun _ => rfl⟩,
        ⟨_, _, fun _ => rfl⟩, ⟨_, _, fun _ => rfl⟩, ⟨_, _, fun _ => rfl⟩, List.forall_mem_nil _⟩,
        ⟨_, _, fun _ => rfl⟩, ⟨_, _, fun _ => rfl⟩, ⟨_, _, fun _ => rfl⟩, ⟨_, _, fun _ => rfl⟩, List.forall_mem_nil _⟩
    have hlocals : ∀ x ∈ locals, AccessesScratchpad x.1 a off x.2 := by
      simp only [locals, List.forall_mem_append, List.forall_mem_map, List.forall_mem_cons]
      exact ⟨⟨⟨_, fun _ => rfl⟩, ⟨_, fun _ => rfl⟩, List.forall_mem_nil _⟩, ⟨_, fun _ => rfl⟩, ⟨_, fun _ => rfl⟩, ⟨_, fun _ => rfl⟩,
        ⟨_, fun _ => rfl⟩, ⟨_, fun _ => rfl⟩, ⟨_, fun _ => rfl⟩, ⟨_, fun _ => rfl⟩, ⟨_, fun _ => rfl⟩, List.forall_mem_nil _⟩
    exact ⟨fun x hx => (hglobals x hx).traps_misaligned,
      fun x hx hm => ⟨(hlocals x hx).traps_misaligned hm, (hlocals x hx).traps_outside hm⟩, stc_traps⟩

end Sys2Proof.Machine
end

section
namespace Sys2Proof.Machine

/-! ### EXIT, NOP and PREF (05 R122, R123; 07 R163) -/

/-- An executor that ends leaves each context as it was, but for the accesses under its name. -/
theorem State.ctx_endExecutor (s : State) (w : Who) (c k : Nat) : (s.endExecutor w).ctx c k = s.ctx c k := by
  simp only [State.ctx, State.core, State.endExecutor, State.modCore, State.setCore, tblGet_put]
  split
  · next h => rw [h]
  · rfl

theorem exec_exit {g : Guard} {s : State} {i : Issue} {w : Who} {n : Nat} (hr : Runs s i (.exit g) w) (hn : w.tid = some n) :
    exec (.exit g) s = .next ((s.endExecutor w).modCtx w.core w.ctx fun x => { x with threads := tblPut none x.threads n none }) := by
  rw [exec_one hr _ rfl]
  simp only [hn]

/-- A word that does nothing while a bundle is being issued. -/
theorem onIssue_id {s : State} {i : Issue} (h : s.cur = some i) : (onIssue s fun _ st => st) = .next s := by rw [onIssue, h]

/-- Settles O15: EXIT drops its thread from its context's table; NOP and PREF are the word that does nothing. -/
theorem exitNopPref : Obligations.ExitNopPref := by
  intro g a h off s i
  refine ⟨fun w n hr hn => ⟨_, exec_exit hr hn, fun m => ?_, rfl, fun c k hne => ?_⟩, fun hcur => ⟨onIssue_id hcur, onIssue_id hcur⟩⟩
  · rw [State.modCtx_ctx, State.ctx_endExecutor]
    exact tblGet_put none _ n m none
  · rw [State.ctx_modCtx, if_neg fun e => hne (Prod.ext e.1 e.2), State.ctx_endExecutor]

/-! ### Loops (05 R123 to R127) -/

section LoopWords
variable {g : Guard} {s : State} {i : Issue} {w : Who}

/-- A loop is opened where none of its level is open: a count of zero skips it. -/
theorem exec_loopLc0 {a : Reg} {o : Imm 12} (hr : Runs s i (.loopLc0 g a o) w) (h0 : (s.loop0 w).isOpen = false)
    (h1 : (s.loop1 w).isOpen = false) : exec (.loopLc0 g a o) s = .next (
      if s.tripCount w a = 0#32 then s.setPc w (branchTarget i.pc (immSigned o))
      else s.setLoop0 w { openLoop i (s.tripCount w a) (immSigned o) with stages := (s.loop0 w).stages }) :=
  hr.exec_eq rfl (if_neg (by simp [h0, h1]))

theorem exec_loopLc1 {a : Reg} {o : Imm 12} (hr : Runs s i (.loopLc1 g a o) w) (h1 : (s.loop1 w).isOpen = false) :
    exec (.loopLc1 g a o) s = .next (
      if s.tripCount w a = 0#32 then s.setPc w (branchTarget i.pc (immSigned o))
      else s.setLoop1 w (openLoop i (s.tripCount w a) (immSigned o))) :=
  hr.exec_eq rfl (if_neg (by simp [h1]))

theorem exec_loopp {a : Reg} {st : BitVec 2} {o : BitVec 10} (hr : Runs s i (.loopp g a st o) w) (h0 : (s.loop0 w).isOpen = false)
    (h1 : (s.loop1 w).isOpen = false) : exec (.loopp g a st o) s = .next (
      if s.tripCount w a = 0#32 then s.setPc w (branchTarget i.pc o.toInt)
      else (s.setLoop0 w { openLoop i (s.tripCount w a - 1#32) o.toInt with pipelined := true, stages := st.toNat + 1 }).modCtx
        w.core w.ctx fun x => { x with q := firstStage x.q (st.toNat + 1) }) :=
  hr.exec_eq rfl (if_neg (by simp [h0, h1]))

/-- ENDL counts the innermost open loop down and closes it at zero. -/
theorem exec_endl_lc1 (hr : Runs s i (.endl g) w) (h1 : (s.loop1 w).isOpen = true) : exec (.endl g) s = .next (
    let n := (s.loop1 w).count - 1#32
    if n = 0#32 then s.setLoop1 w { s.loop1 w with count := n, isOpen := false }
    else (s.setLoop1 w { s.loop1 w with count := n }).setPc w (s.loop1 w).start) :=
  hr.exec_eq rfl (if_pos h1)

theorem exec_endl_lc0 (hr : Runs s i (.endl g) w) (h1 : (s.loop1 w).isOpen = false) (h0 : (s.loop0 w).isOpen = true)
    (hp : (s.loop0 w).pipelined = false) : exec (.endl g) s = .next (
      let n := (s.loop0 w).count - 1#32
      if n = 0#32 then s.setLoop0 w { s.loop0 w with count := n, isOpen := false }
      else (s.setLoop0 w { s.loop0 w with count := n }).setPc w (s.loop0 w).start) :=
  hr.exec_eq rfl ((if_neg (by simp [h1])).trans ((if_neg (by simp [h0])).trans (if_neg (by simp [hp]))))

theorem exec_endl_pipelined (hr : Runs s i (.endl g) w) (h1 : (s.loop1 w).isOpen = false) (h0 : (s.loop0 w).isOpen = true)
    (hp : (s.loop0 w).pipelined = true) : exec (.endl g) s = .next (s.modCtx w.core w.ctx pipelinedEndl) :=
  hr.exec_eq rfl ((if_neg (by simp [h1])).trans ((if_neg (by simp [h0])).trans (if_pos hp)))

theorem exec_brk_lc1 (hr : Runs s i (.brk g) w) (h1 : (s.loop1 w).isOpen = true) :
    exec (.brk g) s = .next ((s.setLoop1 w { s.loop1 w with isOpen := false }).setPc w (s.loop1 w).exitPc) :=
  hr.exec_eq rfl (if_pos h1)

theorem exec_brk_lc0 (hr : Runs s i (.brk g) w) (h1 : (s.loop1 w).isOpen = false) (h0 : (s.loop0 w).isOpen = true) :
    exec (.brk g) s = .next ((s.setLoop0 w { s.loop0 w with isOpen := false }).setPc w (s.loop0 w).exitPc) :=
  hr.exec_eq rfl ((if_neg (by simp [h1])).trans (if_pos h0))

end LoopWords

/-- Settles O16: each word by its equation, at a count of zero or another. -/
theorem loops : Obligations.Loops := by
  refine ⟨fun g a o st o10 s i w => ⟨fun hr h0 h1 => ⟨fun hz => ?_, fun hz => ?_⟩, fun hr h1 => ⟨fun hz => ?_, fun hz => ?_⟩,
    fun hr h0 h1 => ⟨fun hz => ?_, fun hz => ?_⟩⟩, fun g s i w => ⟨fun hr => ⟨fun h1 hz => ?_, fun h1 hz => ?_,
    fun h1 h0 hp => ⟨fun hz => ?_, fun hz => ?_⟩⟩, fun hr => ⟨exec_brk_lc1 hr, exec_brk_lc0 hr⟩⟩⟩
  · exact (exec_loopLc0 hr h0 h1).trans (congrArg Host.Outcome.next (if_pos hz))
  · exact (exec_loopLc0 hr h0 h1).trans (congrArg Host.Outcome.next (if_neg hz))
  · exact (exec_loopLc1 hr h1).trans (congrArg Host.Outcome.next (if_pos hz))
  · exact (exec_loopLc1 hr h1).trans (congrArg Host.Outcome.next (if_neg hz))
  · exact (exec_loopp hr h0 h1).trans (congrArg Host.Outcome.next (if_pos hz))
  · exact (exec_loopp hr h0 h1).trans (congrArg Host.Outcome.next (if_neg hz))
  · exact (exec_endl_lc1 hr h1).trans (congrArg Host.Outcome.next (if_neg hz))
  · exact (exec_endl_lc1 hr h1).trans (congrArg Host.Outcome.next (if_pos hz))
  · exact (exec_endl_lc0 hr h1 h0 hp).trans (congrArg Host.Outcome.next (if_neg hz))
  · exact (exec_endl_lc0 hr h1 h0 hp).trans (congrArg Host.Outcome.next (if_pos hz))

/-! ### The stages of a pipelined loop (05 R126, R127) -/

/-- Stages 1 to n - 1 rotated: each takes over from the stage below. -/
theorem getLsbD_rotateStages {q : BitVec 16} {n : Nat} (hn : n ≤ 4) (j : Nat) :
    (rotateStages q n).getLsbD j = if 13 ≤ j ∧ j < 12 + n then q.getLsbD (j - 1) else q.getLsbD j := by
  have h : ∀ m ≤ 3, ((List.range m).foldl (fun r k => putBit r (13 + k) (q.getLsbD (12 + k))) q).getLsbD j =
      if 13 ≤ j ∧ j < 13 + m then q.getLsbD (j - 1) else q.getLsbD j := by
    intro m hm
    induction m with
    | zero => exact (if_neg (by omega)).symm
    | succ m ih =>
      rw [List.range_succ, List.foldl_append, List.foldl_cons, List.foldl_nil, getLsbD_putBit, ih (by omega)]
      rcases eq_or_ne j (13 + m) with rfl | hj
      · rw [if_pos (by omega), if_pos (by omega), show 13 + m - 1 = 12 + m by omega]
      · rw [if_neg (by omega)]
        exact if_congr (by omega) rfl rfl
  rw [rotateStages, h (n - 1) (by omega)]
  exact if_congr (by omega) rfl rfl

/-! An ENDL of a pipelined loop: whether the loop drains, whether an iteration enters, the count and the stage predicates that it
leaves, and whether a stage is live then. -/

def Ctx.drains (x : Ctx) : Bool := x.lc0.draining || x.marked
def Ctx.iterationEnters (x : Ctx) : Bool := !x.drains && x.lc0.count != 0#32
def Ctx.countLeft (x : Ctx) : BitVec 32 := if x.iterationEnters then x.lc0.count - 1#32 else x.lc0.count
def Ctx.stagesTurned (x : Ctx) : BitVec 16 := putBit (rotateStages x.q x.lc0.stages) 12 x.iterationEnters
def Ctx.stageLive (x : Ctx) : Bool := (List.range x.lc0.stages).any fun k => x.stagesTurned.getLsbD (12 + k)

section Endl
variable {x : Ctx}

theorem Ctx.stageLive_iff : x.stageLive = true ↔ ∃ k < x.lc0.stages, x.stagesTurned.getLsbD (12 + k) = true := by
  simp only [Ctx.stageLive, List.any_eq_true, List.mem_range]

/-- A stage is live: the loop goes on at the body's start. -/
theorem pipelinedEndl_live (h : x.stageLive = true) : pipelinedEndl x = { x with
    q := x.stagesTurned, lc0 := { x.lc0 with count := x.countLeft, draining := x.drains }, str := { x.str with pc := x.lc0.start } } :=
  if_pos h

/-- A drained loop with iterations left stands at the body's start to be refilled. -/
theorem pipelinedEndl_refill (h : ¬ x.stageLive = true) (hd : (x.drains && x.countLeft != 0#32) = true) : pipelinedEndl x = { x with
    q := x.stagesTurned, lc0 := { x.lc0 with count := x.countLeft, draining := false, refill := true }
    str := { x.str with pc := x.lc0.start } } :=
  (if_neg h).trans (if_pos hd)

/-- A loop with no live stage and no iteration to be refilled with closes. -/
theorem pipelinedEndl_closes (h : ¬ x.stageLive = true) (hd : ¬ (x.drains && x.countLeft != 0#32) = true) : pipelinedEndl x = { x with
    q := x.stagesTurned, lc0 := { x.lc0 with count := x.countLeft, draining := false, isOpen := false } } :=
  (if_neg h).trans (if_neg hd)

/-- However the ENDL ends, the stages turn, the count is what it leaves, and registers and threads stay. -/
theorem pipelinedEndl_always : (pipelinedEndl x).q = x.stagesTurned ∧ (pipelinedEndl x).lc0.count = x.countLeft ∧
    (pipelinedEndl x).s = x.s ∧ (pipelinedEndl x).threads = x.threads := by
  by_cases h : x.stageLive = true
  · rw [pipelinedEndl_live h]
    exact ⟨rfl, rfl, rfl, rfl⟩
  by_cases hd : (x.drains && x.countLeft != 0#32) = true
  · rw [pipelinedEndl_refill h hd]
    exact ⟨rfl, rfl, rfl, rfl⟩
  · rw [pipelinedEndl_closes h hd]
    exact ⟨rfl, rfl, rfl, rfl⟩

theorem Ctx.getLsbD_stagesTurned (hn : x.lc0.stages ≤ 4) : x.stagesTurned.getLsbD 12 = x.iterationEnters ∧
    (∀ k, 1 ≤ k → k < x.lc0.stages → x.stagesTurned.getLsbD (12 + k) = x.q.getLsbD (11 + k)) ∧
    ∀ k < 12, x.stagesTurned.getLsbD k = x.q.getLsbD k := by
  simp only [Ctx.stagesTurned, getLsbD_putBit, getLsbD_rotateStages hn]
  refine ⟨if_pos ⟨trivial, by omega⟩, fun k h1 hk => ?_, fun k hk => ?_⟩
  · rw [if_neg (by omega), if_pos (by omega), show 12 + k - 1 = 11 + k by omega]
  · rw [if_neg (by omega), if_neg (by omega)]

/-- While nothing drains the loop, it stays open, at the body's start, as long as a stage is live. -/
theorem pipelinedEndl_running (hd : x.drains = false) (h0 : x.lc0.isOpen = true) :
    ((pipelinedEndl x).lc0.isOpen = true ↔ x.stageLive = true) ∧
    ((pipelinedEndl x).lc0.isOpen = true → (pipelinedEndl x).str.pc = x.lc0.start) := by
  by_cases h : x.stageLive = true
  · rw [pipelinedEndl_live h]
    exact ⟨⟨fun _ => h, fun _ => h0⟩, fun _ => rfl⟩
  · rw [pipelinedEndl_closes h (by simp [hd])]
    exact ⟨⟨fun e => absurd e Bool.false_ne_true, fun e => absurd e h⟩, fun e => absurd e Bool.false_ne_true⟩

end Endl

/-- Settles O17: the word is `pipelinedEndl` of the context, whose three ends are told by the stages that are live after the turn. -/
theorem pipelinedLoopTurns : Obligations.PipelinedLoopTurns := by
  constructor
  · intro g s i w x hr h1 h0 hp hdraining hmarked _ hn
    have hdrains : x.drains = false := by rw [Ctx.drains, hdraining, hmarked]; rfl
    have henters : x.iterationEnters = (x.lc0.count != 0#32) := by rw [Ctx.iterationEnters, hdrains]; rfl
    obtain ⟨hq, hcount, hs, hthreads⟩ := pipelinedEndl_always (x := x)
    obtain ⟨hfirst, hturn, hrest⟩ := Ctx.getLsbD_stagesTurned hn
    obtain ⟨hopen, hpc⟩ := pipelinedEndl_running hdrains h0
    refine ⟨_, exec_endl_pipelined hr h1 h0 hp, ?_⟩
    simp only [State.modCtx_ctx]
    refine ⟨?_, ?_, ?_, ?_, ?_, hpc, hs, hthreads, rfl⟩
    · rw [hq, hfirst, henters]
    · rwa [hq]
    · rwa [hq]
    · rw [hcount, Ctx.countLeft, henters]
      rcases eq_or_ne x.lc0.count 0#32 with hz | hz <;> simp [hz]
    · rw [hq, hopen, Ctx.stageLive_iff]
  · intro g s i w x hr h1 h0 hp hrequest _ hn
    have hdrains : x.drains = true := by rwa [Ctx.drains, Bool.or_eq_true]
    have henters : x.iterationEnters = false := by rw [Ctx.iterationEnters, hdrains]; rfl
    have hleft : x.countLeft = x.lc0.count := by rw [Ctx.countLeft, henters]; rfl
    obtain ⟨hq, hcount, hs, hthreads⟩ := pipelinedEndl_always (x := x)
    obtain ⟨hfirst, hturn, hrest⟩ := Ctx.getLsbD_stagesTurned hn
    refine ⟨_, exec_endl_pipelined hr h1 h0 hp, ?_⟩
    simp only [State.modCtx_ctx]
    rw [hq, ← Ctx.stageLive_iff]
    refine ⟨by rw [hfirst, henters], by rw [hcount, hleft], hturn, hrest, fun hlive => ?_, fun hlive hleft0 => ?_, fun hlive hleft0 => ?_,
      hs, hthreads, rfl⟩
    · rw [pipelinedEndl_live hlive, hdrains, hleft]
      exact ⟨rfl, rfl⟩
    · rw [pipelinedEndl_refill hlive (by simpa [hdrains, hleft] using hleft0), hleft]
      exact ⟨rfl, rfl⟩
    · rw [pipelinedEndl_closes hlive (by simp [hleft, hleft0]), hleft]
      exact ⟨rfl, rfl⟩

end Sys2Proof.Machine
end

section
namespace Sys2Proof.Machine

/-! ### Items (05 R128, R129; 09 R224) -/

section ItemWords
variable {g : Guard} {a : Reg} {s : State} {i : Issue} {w : Who}

theorem exec_iqpush (hr : Runs s i (.iqpush g a) w) (h1 : (s.ctx w.core w.ctx).closing = false) (h2 : (s.ctx w.core w.ctx).closed = false)
    (hroom : (s.ctx w.core w.ctx).queue.length < 256) : exec (.iqpush g a) s = .next (s.modCtx w.core w.ctx fun y =>
      { y with queue := y.queue ++ [s.reg64 w a], fresh := y.fresh + 1 }) :=
  hr.exec_eq rfl ((if_neg (by simp [h1, h2])).trans (if_neg (by omega)))

theorem exec_wavew (hr : Runs s i (.wavew g) w) (h : (s.ctx w.core w.ctx).threads = []) : exec (.wavew g) s = .next s :=
  hr.exec_eq rfl (if_pos (by simp [h]))

theorem exec_item_pops {o : Imm 12} (hr : Runs s i (.item g a o) w) {v : DWord} {rest : List DWord}
    (hq : (s.ctx w.core w.ctx).queue = v :: rest) (hfresh : (s.ctx w.core w.ctx).fresh < (s.ctx w.core w.ctx).queue.length) :
    exec (.item g a o) s = .next ((s.setReg64 w a v).modCtx w.core w.ctx fun y => { y with queue := rest }) := by
  refine hr.exec_eq rfl ?_
  simp only [hq]
  exact if_pos (Nat.sub_pos_of_lt hfresh)

theorem exec_item_leaves {o : Imm 12} (hr : Runs s i (.item g a o) w) (hq : (s.ctx w.core w.ctx).queue = [])
    (hclosed : (s.ctx w.core w.ctx).closed = true) : exec (.item g a o) s = .next (s.setPc w (branchTarget i.pc (immSigned o))) := by
  refine hr.exec_eq rfl ?_
  simp only [hq]
  exact if_pos hclosed

end ItemWords

/-! ### Waves (09 R225, R226) -/

/-- Threads put one after another from thread b on. -/
theorem Ctx.threads_setThreads (x : Ctx) (b n k : Nat) (f : Nat → Thread) (hk : k < n) :
    tblGet none ((List.range n).foldl (fun y j => y.setThread (b + j) (f j)) x).threads (b + k) = some (f k) := by
  induction n with
  | zero => omega
  | succ n ih =>
    rw [List.range_succ, List.foldl_append, List.foldl_cons, List.foldl_nil, Ctx.threads_setThread]
    rcases eq_or_ne k n with rfl | hne
    · exact if_pos rfl
    · rw [if_neg (by omega), ih (by omega)]

/-- Each thread of a wave is started as `waveThread` has it, not before its cycle. -/
theorem Ctx.threads_startWave (x : Ctx) (warp n : Nat) (entry b : DWord) (fresh hold : Nat) {k : Nat} (hk : k < n) :
    tblGet none (x.startWave warp n entry b fresh hold).threads (32 * warp + k) =
      some { waveThread entry b k fresh with str := { (waveThread entry b k fresh).str with hold } } :=
  Ctx.threads_setThreads _ (32 * warp) n k
    (fun j => { waveThread entry b j fresh with str := { (waveThread entry b j fresh).str with hold } }) hk

/-- The registers of a started thread: its argument, its number, and zeros. -/
theorem waveThread_regs (entry b : DWord) (k fresh : Nat) : tblGet 0#32 (waveThread entry b k fresh).g 0 = b.extractLsb' 0 32 ∧
    tblGet 0#32 (waveThread entry b k fresh).g 1 = b.extractLsb' 32 32 ∧
    tblGet 0#32 (waveThread entry b k fresh).g 2 = BitVec.ofNat 32 k ∧
    ∀ r, 3 ≤ r → tblGet 0#32 (waveThread entry b k fresh).g r = 0#32 := by
  simp only [waveThread, tblGet_put]
  refine ⟨rfl, rfl, rfl, fun r hr => ?_⟩
  rw [if_neg (by omega), if_neg (by omega), if_neg (by omega)]
  rfl

/-- A sound WAVE whose release is ready and whose warps are idle starts its threads. -/
theorem exec_wave {g : Guard} {d a b : Reg} {s : State} {i : Issue} {w : Who} {l : Launch} (hr : Runs s i (.wave g d a b) w)
    (hl : s.launchOf w.core w.ctx = some l) (hd : s.reg w d < 2 ^ 21) (hn : 0 < bitsOf (s.reg w d) 0 16)
    (hthr : 32 * bitsOf (s.reg w d) 16 5 + bitsOf (s.reg w d) 0 16 ≤ l.thr) (ha : (s.reg64 w a).toNat % 4 = 0)
    (hrel : s.releaseReady w false = true) (hidle : s.warpsIdle w.core (s.slotOf w.core w.ctx) (bitsOf (s.reg w d) 16 5)
      ((bitsOf (s.reg w d) 0 16 + 31) / 32) = true) :
    exec (.wave g d a b) s = .next ((s.released w).modCtx w.core w.ctx fun x => x.startWave (bitsOf (s.reg w d) 16 5)
      (bitsOf (s.reg w d) 0 16) (s.reg64 w a) (s.reg64 w b) s.fresh ((s.core w.core).cyc.toNat + 4)) := by
  have hsound : ¬ (s.reg w d / 2 ^ 21 ≠ 0 ∨ bitsOf (s.reg w d) 0 16 = 0 ∨
      ((s.launchOf w.core w.ctx).map Launch.thr).getD 0 < 32 * bitsOf (s.reg w d) 16 5 + bitsOf (s.reg w d) 0 16) := by
    rw [hl, Option.map_some, Option.getD_some, Nat.div_eq_of_lt hd]
    omega
  refine hr.exec_eq rfl ((if_neg hsound).trans ((if_neg ?_).trans (if_neg ?_)))
  · simp [targetAligned_of_mod ha]
  · simp [hrel, hidle]

/-- Settles O30: each word by its equation; the table of a context after a wave is read at each started thread. -/
theorem itemsAndWaves : Obligations.ItemsAndWaves := by
  refine ⟨fun g d a b s i w => ⟨exec_iqpush, fun hr => hr.exec_eq rfl rfl, exec_wavew, fun l hr hl => ?_⟩,
    fun g a o s i w hr => ⟨fun v rest => exec_item_pops hr, exec_item_leaves hr⟩⟩
  intro n warp hd hn hthr ha hrel hidle
  have hnum : bitsOf (s.reg w d) 0 16 = n := by rw [bitsOf_eq, Nat.pow_zero, Nat.div_one]
  have hwarp : bitsOf (s.reg w d) 16 5 = warp := bitsOf_eq _ _ _
  rw [← hnum, ← hwarp] at hthr hidle
  rw [← hnum] at hn
  refine ⟨_, exec_wave hr hl hd hn hthr ha hrel hidle, State.released_mem s w, fun k hk => ?_⟩
  rw [State.modCtx_ctx, hnum, hwarp]
  have hstarted := Ctx.threads_startWave ((s.released w).ctx w.core w.ctx) warp n (s.reg64 w a) (s.reg64 w b) s.fresh
    ((s.core w.core).cyc.toNat + 4) hk
  obtain ⟨h0, h1, h2, hzero⟩ := waveThread_regs (s.reg64 w a) (s.reg64 w b) k s.fresh
  exact ⟨_, hstarted, rfl, h0, h1, h2, hzero, rfl⟩

end Sys2Proof.Machine
end

section
namespace Sys2Proof.Machine

/-! ### The class of a binary32 value (06 R131) -/

/-- The class told by the sign, the exponent, the fraction and its quiet bit. -/
def fp32ClassOfFields (neg e m : Nat) (quiet : Bool) : Nat :=
  if e = 255 then if m = 0 then if neg = 1 then 0 else 7 else if quiet then 9 else 8
  else if e = 0 then if m = 0 then if neg = 1 then 3 else 4 else if neg = 1 then 2 else 5
  else if neg = 1 then 1 else 6

theorem fp32_classBit (x : Nat) : fp32.classBit x =
    fp32ClassOfFields (x / 2 ^ 31 % 2) (x / 2 ^ 23 % 2 ^ 8) (x % 2 ^ 23) (x.testBit 22) := by
  have hquiet : bitOf (x % 2 ^ 23) 22 = x.testBit 22 := by rw [bitOf_testBit, Nat.testBit_mod_two_pow]; rfl
  have hneg : bitOf x 31 = true ↔ x / 2 ^ 31 % 2 = 1 := by rw [bitOf, Nat.shiftRight_eq_div_pow, beq_iff_eq]
  simp only [Fmt.classBit, fp32, Fmt.emax, fp32ClassOfFields, bitsOf_eq, Nat.pow_zero, Nat.div_one, Nat.add_one_sub_one, hneg, hquiet]
  rfl

/-- The class told by the ranges of bit patterns. -/
def fp32ClassOf (x : Nat) : Nat :=
  if x = 0xFF800000 then 0 else if x = 0x7F800000 then 7
  else if 0x7F800000 < x % 2 ^ 31 then (if x.testBit 22 then 9 else 8)
  else if x = 0x80000000 then 3 else if x = 0 then 4
  else if x < 0x00800000 then 5 else if x < 0x80000000 then 6 else if x < 0x80800000 then 2 else 1

theorem fp32ClassOf_eq {x neg e m : Nat} (hx : x = 2 ^ 31 * neg + 2 ^ 23 * e + m) (hneg : neg < 2) (he : e < 2 ^ 8) (hm : m < 2 ^ 23) :
    fp32ClassOf x = fp32ClassOfFields neg e m (x.testBit 22) := by
  have hmagnitude : x % 2 ^ 31 = 2 ^ 23 * e + m := by omega
  have hinf : (x = 0xFF800000 ↔ neg = 1 ∧ e = 255 ∧ m = 0) ∧ (x = 0x7F800000 ↔ neg = 0 ∧ e = 255 ∧ m = 0) := by omega
  have hnan : 0x7F800000 < 2 ^ 23 * e + m ↔ e = 255 ∧ m ≠ 0 := by omega
  have hzero : (x = 0x80000000 ↔ neg = 1 ∧ e = 0 ∧ m = 0) ∧ (x = 0 ↔ neg = 0 ∧ e = 0 ∧ m = 0) := by omega
  have hsub : (x < 0x00800000 ↔ neg = 0 ∧ e = 0) ∧ (x < 0x80800000 ↔ neg = 0 ∨ e = 0) := by omega
  have hpos : x < 0x80000000 ↔ neg = 0 := by omega
  simp only [fp32ClassOf, fp32ClassOfFields, hmagnitude, hinf, hnan, hzero, hsub, hpos]
  by_cases hones : e = 255
  · by_cases hfrac : m = 0 <;> interval_cases neg <;> simp [hones, hfrac]
  · by_cases hzeros : e = 0
    · by_cases hfrac : m = 0 <;> interval_cases neg <;> simp [hzeros, hfrac]
    · interval_cases neg <;> simp [hones, hzeros]

/-- The two agree: sign, exponent and fraction are the digits of the pattern. -/
theorem fp32_classBit_eq (x : Nat) : fp32.classBit x = fp32ClassOf (x % 2 ^ 32) := by
  have hquiet : (x % 2 ^ 32).testBit 22 = x.testBit 22 := by rw [Nat.testBit_mod_two_pow]; rfl
  have hdigits : x % 2 ^ 32 = 2 ^ 31 * (x / 2 ^ 31 % 2) + 2 ^ 23 * (x / 2 ^ 23 % 2 ^ 8) + x % 2 ^ 23 := by omega
  rw [fp32_classBit, fp32ClassOf_eq hdigits (Nat.mod_lt _ (by norm_num)) (Nat.mod_lt _ (by norm_num)) (Nat.mod_lt _ (by norm_num)), hquiet]

/-- Settles O5: each form writes a function of its executor's own registers; subtraction is addition of the negated operand, and the
class is that of the pattern's 32 bits. -/
theorem fp32Results : Obligations.Fp32Results := by
  intro g d a b rm
  refine ⟨?_, ?_, ?_, ?_, ?_, ?_, ?_, ?_, ?_, ?_, ?_, ?_, ?_, ?_⟩
  · exact writeReg_regs_gives (fun _ r => fp32.add 0 (r a) (r b)) fun _ => rfl
  · exact writeReg_regs_gives (fun _ r => fp32.sub 0 (r a) (r b)) fun _ => rfl
  · exact writeReg_regs_gives (fun _ r => fp32.mul 0 (r a) (r b)) fun _ => rfl
  · exact writeReg_regs_gives (fun _ r => fp32.fma 0 (r a) (r b) (r d)) fun _ => rfl
  · exact writeReg_regs_gives (fun _ r => fp32.fma 0 (r a) (r b) (fp32.neg (r d))) fun _ => rfl
  · exact writeReg_regs_gives (fun _ r => fp32.minMax false (r d) (r a)) fun _ => rfl
  · exact writeReg_regs_gives (fun _ r => fp32.minMax true (r d) (r a)) fun _ => rfl
  · exact writeReg_regs_gives (fun _ r => fp32.add rm.toNat (r d) (r a)) fun _ => rfl
  · exact writeReg_regs_gives (fun _ r => fp32.sub rm.toNat (r d) (r a)) fun _ => rfl
  · exact writeReg_regs_gives (fun _ r => fp32.mul rm.toNat (r d) (r a)) fun _ => rfl
  · exact writeReg_regs_gives (fun _ r => fp32.rnd rm.toNat (r a)) fun _ => rfl
  · exact writeReg_regs_gives (fun _ r => fp32.div (r a) (r b)) fun _ => rfl
  · exact writeReg_regs_gives (fun _ r => fp32.sqrt rm.toNat (r a)) fun _ => rfl
  · intro cls
    exact (writeReg_regs_gives (fun _ r => 2 ^ fp32.classBit (r a)) fun _ => rfl).congr fun s w => by
      rw [fp32_classBit_eq]
      rfl

end Sys2Proof.Machine
end

section
namespace Sys2Proof.Machine

/-! ### A bundle whose warps have joined (06 R144) -/

/-- An effect on the active lanes of a warp: the state before the bundle, the executor of a lane, the warp, the active lanes. -/
abbrev LaneEffect := State → (Nat → Who) → Nat → List Nat → State → State

/-- A value for one of the active lanes: the state before the bundle, the executor of a lane, the active lanes, the lane. -/
abbrev LaneValue := State → (Nat → Who) → List Nat → Nat → Nat

theorem mem_lanes {l : Nat} : l ∈ lanes ↔ l < 32 := List.mem_range

/-- The lanes that pass a test that one lane passes. -/
theorem filter_lanes_eq_singleton {p : Nat → Bool} {k : Nat} (hk : k < 32) (hp : ∀ l < 32, p l = true ↔ l = k) :
    lanes.filter p = [k] := by
  have hbeq : lanes.filter p = lanes.filter (· == k) :=
    List.filter_congr fun l hl => Bool.eq_iff_iff.mpr ((hp l (mem_lanes.mp hl)).trans beq_iff_eq.symm)
  have hcount : lanes.count k = 1 := List.count_eq_one_of_mem List.nodup_range (mem_lanes.mpr hk)
  rw [hbeq, List.filter_beq, hcount, List.replicate_one]

theorem Issue.mem_warps {i : Issue} {warp : Nat} : warp ∈ i.warps ↔ warp < 32 ∧ ∃ t ∈ i.tids, t / 32 = warp := by
  simp only [Issue.warps, List.mem_filter, mem_lanes, List.any_eq_true, beq_iff_eq]

/-- A group within one warp. -/
theorem Issue.warps_eq_singleton {i : Issue} {warp : Nat} (h : ∀ n ∈ i.tids, n / 32 = warp) (hne : i.tids ≠ []) (hw : warp < 32) :
    i.warps = [warp] := by
  obtain ⟨n, hn⟩ := List.exists_mem_of_ne_nil _ hne
  refine filter_lanes_eq_singleton hw fun l _ => ?_
  rw [List.any_eq_true]
  exact ⟨fun ⟨t, ht, e⟩ => (beq_iff_eq.mp e).symm.trans (h t ht), fun e => ⟨n, hn, beq_iff_eq.mpr ((h n hn).trans e.symm)⟩⟩

section Joined
variable {s : State} {i : Issue} {j : BitVec 3} {g : Guard} {warp l : Nat}

/-- The lanes of a warp that are in the group. -/
def Issue.lanesIn (i : Issue) (warp : Nat) : List Nat := lanes.filter fun l => i.tids.contains (32 * warp + l)

theorem Issue.mem_lanesIn : l ∈ i.lanesIn warp ↔ l < 32 ∧ 32 * warp + l ∈ i.tids := by
  simp only [Issue.lanesIn, List.mem_filter, mem_lanes, List.contains_iff_mem]

theorem mem_activeLanes : l ∈ activeLanes s i g warp ↔ l < 32 ∧ 32 * warp + l ∈ i.tids ∧ s.guardOk (i.lane warp l) g = true := by
  simp only [activeLanes, List.mem_filter, mem_lanes, Bool.and_eq_true, List.contains_iff_mem]

/-- A lane of the group is named by the mask. -/
theorem Joined.named (hj : Joined s i j) (hl : l < 32) (ht : 32 * warp + l ∈ i.tids) :
    (s.mask { core := i.core, ctx := i.ctx } warp j.toNat).getLsbD l = true := by
  have hname := (hj.2 _ ht).2.1
  rwa [show (32 * warp + l) / 32 = warp by omega, show (32 * warp + l) % 32 = l by omega] at hname

/-- A live lane that the mask of a warp of the group names is in the group. -/
theorem Joined.arrived (hj : Joined s i j) (hw : warp ∈ i.warps) (hl : l < 32)
    (hm : (s.mask { core := i.core, ctx := i.ctx } warp j.toNat).getLsbD l = true)
    (hlive : 32 * warp + l ∈ (s.ctx i.core i.ctx).liveTids) : 32 * warp + l ∈ i.tids := by
  obtain ⟨-, t, ht, rfl⟩ := Issue.mem_warps.mp hw
  exact (hj.2 t ht).2.2 l hl hm hlive

/-- What a cross-lane word does in one warp of the group. -/
def crossWarp (g : Guard) (j : BitVec 3) (eff : LaneEffect) (i : Issue) (s0 : State)
    (warp : Nat) (st : State) : State :=
  let m := s0.mask { core := i.core, ctx := i.ctx } warp j.toNat
  let mine := i.lanesIn warp
  let st := (mine.filter fun l => !m.getLsbD l).foldl (fun st l => trapOperand i (i.lane warp l) st) st
  if lanes.any fun l => m.getLsbD l && (s0.ctx i.core i.ctx).liveTids.contains (32 * warp + l) && !mine.contains l then
    (mine.filter fun l => m.getLsbD l).foldl (fun st l => markWait (i.lane warp l) st) st
  else eff s0 (i.lane warp) warp ((mine.filter fun l => m.getLsbD l).filter fun l => s0.guardOk (i.lane warp l) g) st

theorem crossLane_eq (hcur : s.cur = some i) (g : Guard) (j : BitVec 3) (eff : LaneEffect) :
    crossLane g j eff s = .next (i.warps.foldl (fun st warp => crossWarp g j eff i s warp st) s) := by
  rw [crossLane, onIssue, hcur]
  rfl

/-- In a warp that has joined no lane traps, none is missing, and the effect is given the active lanes. -/
theorem crossWarp_joined (hj : Joined s i j) (hw : warp ∈ i.warps) (g : Guard)
    (eff : LaneEffect) (st : State) :
    crossWarp g j eff i s warp st = eff s (i.lane warp) warp (activeLanes s i g warp) st := by
  have hnamed : ∀ l ∈ i.lanesIn warp, (s.mask { core := i.core, ctx := i.ctx } warp j.toNat).getLsbD l = true := fun l hl =>
    hj.named (Issue.mem_lanesIn.mp hl).1 (Issue.mem_lanesIn.mp hl).2
  have hunnamed : (i.lanesIn warp).filter (fun l => !(s.mask { core := i.core, ctx := i.ctx } warp j.toNat).getLsbD l) = [] :=
    List.filter_eq_nil_iff.mpr fun l hl => by rw [hnamed l hl]; exact Bool.false_ne_true
  have hmissing : (lanes.any fun l => (s.mask { core := i.core, ctx := i.ctx } warp j.toNat).getLsbD l &&
      (s.ctx i.core i.ctx).liveTids.contains (32 * warp + l) && !(i.lanesIn warp).contains l) = false := by
    simp only [List.any_eq_false, Bool.and_eq_true, List.contains_iff_mem, Bool.not_eq_true', not_and, Bool.not_eq_false]
    exact fun l hl hm => Issue.mem_lanesIn.mpr ⟨mem_lanes.mp hl, hj.arrived hw (mem_lanes.mp hl) hm.1 hm.2⟩
  have hactive : (i.lanesIn warp).filter (fun l => s.guardOk (i.lane warp l) g) = activeLanes s i g warp := by
    rw [Issue.lanesIn, List.filter_filter, activeLanes]
    exact List.filter_congr fun _ _ => Bool.and_comm _ _
  simp only [crossWarp, hunnamed, hmissing, List.filter_eq_self.mpr hnamed, hactive, List.foldl_nil, Bool.false_eq_true, if_false]

/-- A word whose warps have joined is its effect on the active lanes of each. -/
theorem crossLane_joined (hcur : s.cur = some i) (hj : Joined s i j) (g : Guard)
    (eff : LaneEffect) : crossLane g j eff s =
      .next (i.warps.foldl (fun st warp => eff s (i.lane warp) warp (activeLanes s i g warp) st) s) :=
  (crossLane_eq hcur g j eff).trans
    (congrArg Host.Outcome.next (List.foldl_ext _ _ _ fun st _ hw => crossWarp_joined hj hw g eff st))

/-- The same for a group within one warp. -/
theorem crossLane_one_warp (hcur : s.cur = some i) (hj : Joined s i j) (hw : ∀ n ∈ i.tids, n / 32 = warp) (hne : i.tids ≠ [])
    (g : Guard) (eff : LaneEffect) :
    crossLane g j eff s = .next (eff s (i.lane warp) warp (activeLanes s i g warp) s) := by
  obtain ⟨n, hn⟩ := List.exists_mem_of_ne_nil _ hne
  have hlt : warp < 32 := by
    have hrange := (hj.2 n hn).1
    have hwarp := hw n hn
    omega
  rw [crossLane_joined hcur hj, Issue.warps_eq_singleton hw hne hlt, List.foldl_cons, List.foldl_nil]

end Joined

/-- Settles O11: each word is its effect on the active lanes of the one warp. -/
theorem laneStates : Obligations.LaneStates := by
  intro g d p a j s i warp hi hj hw hne act who
  have hone (eff : LaneEffect) : crossLane g j eff s = .next (eff s who warp act s) :=
    crossLane_one_warp hi.1 hj hw hne g eff
  have hvote (val : State → (Nat → Who) → List Nat → Bool) : crossPred g d j val s =
      .next (act.foldl (fun st l => st.setPred (who l) d.toNat (val s who act)) s) := hone _
  refine ⟨?_, ?_, ?_, fun l rest hact => ?_, fun l rest hact => ?_, fun hact => ⟨?_, ?_⟩, ?_⟩
  · show execVoteAny g d p j s = _
    exact hvote _
  · show execVoteAll g d p j s = _
    exact hvote _
  · show execQmax g a j s = _
    exact hone _
  · show execJset g a j s = _
    refine (hone _).trans ?_
    rw [hact]
    rfl
  · show execJsetGrp g j s = _
    refine (hone _).trans ?_
    rw [hact]
  · show execJset g a j s = _
    refine (hone _).trans ?_
    rw [hact]
  · show execJsetGrp g j s = _
    refine (hone _).trans ?_
    rw [hact]
  · show execJoin g j s = _
    exact hone fun _ _ _ _ st => st

/-! ### Registers of the active lanes (06 R146 to R149) -/

section ActiveLanes
variable {s : State} {i : Issue} {j : BitVec 3} {g : Guard}

/-- The executors of the active lanes of a group, warp by warp. -/
def Issue.actors (i : Issue) (s : State) (g : Guard) : List Who :=
  i.warps.flatMap fun warp => (activeLanes s i g warp).map (i.lane warp)

theorem Issue.lane_div_mod (i : Issue) (n : Nat) : i.lane (n / 32) (n % 32) = { core := i.core, ctx := i.ctx, tid := some n } := by
  rw [Issue.lane, Nat.div_add_mod]

theorem Issue.lane_key (i : Issue) (warp l : Nat) : (i.lane warp l).key = 32 * warp + l := rfl

theorem Issue.mem_actors {w : Who} (hj : Joined s i j) : w ∈ i.actors s g ↔ w ∈ i.whos ∧ s.guardOk w g = true := by
  simp only [Issue.actors, List.mem_flatMap, List.mem_map, Issue.mem_warps, mem_activeLanes, Issue.whos, hj.1, Bool.false_eq_true, if_false]
  constructor
  · rintro ⟨warp, -, l, ⟨-, ht, hg⟩, rfl⟩
    exact ⟨⟨_, ht, rfl⟩, hg⟩
  · rintro ⟨⟨n, hn, rfl⟩, hg⟩
    have hrange := (hj.2 n hn).1
    rw [← i.lane_div_mod] at hg
    refine ⟨n / 32, ⟨by omega, n, hn, rfl⟩, n % 32, ⟨Nat.mod_lt _ (by norm_num), ?_, hg⟩, i.lane_div_mod n⟩
    rwa [Nat.div_add_mod]

theorem Issue.actors_nodup (i : Issue) (s : State) (g : Guard) : (i.actors s g).Nodup := by
  refine List.nodup_flatMap.mpr ⟨fun warp _ => ?_, ?_⟩
  · refine (List.nodup_range.filter _).map fun l l' h => ?_
    have hkey := congrArg Who.key h
    rwa [Issue.lane_key, Issue.lane_key, Nat.add_left_cancel_iff] at hkey
  · refine (List.nodup_range.filter _).imp fun {warp warp'} hne => ?_
    rintro w hw hw'
    obtain ⟨l, hl, rfl⟩ := List.mem_map.mp hw
    obtain ⟨l', hl', h⟩ := List.mem_map.mp hw'
    have hkey := congrArg Who.key h
    rw [Issue.lane_key, Issue.lane_key] at hkey
    have hlt := (mem_activeLanes.mp hl).1
    have hlt' := (mem_activeLanes.mp hl').1
    omega

/-- A value told by lane and active lanes, for an executor of the issue. -/
def Issue.laneValue (i : Issue) (s : State) (g : Guard) (v : LaneValue) (w : Who) : Nat :=
  v s (i.lane (w.key / 32)) (activeLanes s i g (w.key / 32)) (w.key % 32)

/-- What a cross-lane word writes, as one write for each executor that acts. -/
theorem crossReg_joined {d : Reg} (hcur : s.cur = some i) (hj : Joined s i j) (g : Guard)
    (v : LaneValue) : crossReg g d j v s =
      .next ((i.actors s g).foldl (fun st w => st.setReg w d (i.laneValue s g v w)) s) := by
  rw [crossReg, crossLane_joined hcur hj, Issue.actors, List.foldl_flatMap]
  refine congrArg Host.Outcome.next (List.foldl_ext _ _ _ fun st warp _ => ?_)
  rw [List.foldl_map]
  refine List.foldl_ext _ _ _ fun st l hl => ?_
  have hlt := (mem_activeLanes.mp hl).1
  rw [Issue.laneValue, Issue.lane_key, show (32 * warp + l) / 32 = warp by omega, show (32 * warp + l) % 32 = l by omega]

end ActiveLanes

/-- A word that writes a register of each active lane. -/
theorem crossReg_gives {x : Instr} {j : BitVec 3} {d : Reg} (v : LaneValue)
    (hx : ∀ s, exec x s = crossReg x.guard d j v s) : GivesLanes x j d v := by
  intro s i hi hj
  have hmem (w : Who) : w ∈ i.actors s x.guard ↔ Acts s i x w := Issue.mem_actors hj
  obtain ⟨honly, hstay, hwrite⟩ := fold_each (fun t w n => t.regN w n) OnlyRegs OnlyRegs.refl (fun _ _ _ => OnlyRegs.trans)
    (fun _ => true) (fun w st => st.setReg w d (i.laneValue s x.guard v w)) (Alive s) s
    (fun t w ht hw => OnlyRegs.setReg t w d _ (ht.alive w hw))
    (fun t w u _ _ hu => by funext n; rw [State.regN_setReg, if_neg fun h => hu h.1])
    (i.actors s x.guard) (i.actors_nodup s x.guard) (fun w hw => Issue.whos_alive hi w ((hmem w).mp hw).1) s (OnlyRegs.refl s)
  refine ⟨_, (hx s).trans (crossReg_joined hi.1 hj x.guard v), fun n hn => ?_, fun w r hw => ?_, honly⟩
  · obtain ⟨t, -, -, hread⟩ := hwrite _ ((hmem _).mpr hn) rfl
    have hvalue : i.laneValue s x.guard v (i.lane (n / 32) (n % 32)) =
        v s (i.lane (n / 32)) (activeLanes s i x.guard (n / 32)) (n % 32) := by
      rw [Issue.laneValue, Issue.lane_key, Nat.div_add_mod]
    rw [← hvalue]
    exact (congrFun hread d.toNat).trans (State.reg_setReg_same t (i.lane (n / 32) (n % 32)) d _)
  · by_cases ha : Acts s i x w
    · obtain ⟨t, -, hbefore, hread⟩ := hwrite w ((hmem w).mpr ha) rfl
      have hr : r ≠ d := fun h => hw ⟨ha, h⟩
      refine (congrFun hread r.toNat).trans (Eq.trans ?_ (congrFun hbefore r.toNat))
      exact (State.reg_setReg t w w d r _).trans (if_neg fun h => hr h.2)
    · exact congrFun (hstay w fun h => ha ((hmem w).mp h.1)) r.toNat

/-- The same value, told otherwise. -/
theorem GivesLanes.congr {x : Instr} {j : BitVec 3} {d : Reg} {f v : LaneValue}
    (h : GivesLanes x j d f) (he : ∀ s who act l, f s who act l = v s who act l) : GivesLanes x j d v := by
  obtain rfl : f = v := funext fun s => funext fun who => funext fun act => funext (he s who act)
  exact h

section Values
variable {s : State} {who : Nat → Who} {act : List Nat} {a : Reg} {l : Nat}

/-- The source of a shuffle is a lane number that counts up from 0 and is active. -/
theorem shflPick_natCast (n : Nat) : shflPick a n s who act l = if n ∈ act then s.reg (who n) a else s.reg (who l) a := by
  simp [shflPick]

theorem shflPick_sub (n : Nat) : shflPick a ((l : Int) - n) s who act l =
    if n ≤ l ∧ l - n ∈ act then s.reg (who (l - n)) a else s.reg (who l) a := by
  by_cases h : n ≤ l
  · rw [← Nat.cast_sub h, shflPick_natCast]
    simp [h]
  · rw [shflPick, if_neg fun hsrc => h (by omega), if_neg fun hsrc => h hsrc.1]

theorem laneSum_eq (p : Nat → Bool) : laneSum a s who act p = ((act.filter p).map fun n => s.reg (who n) a).sum :=
  List.sum_eq_foldl_nat.symm

/-- The extreme over some active lanes is the register of one of them, and no register is beyond it. -/
theorem laneBest_spec {better : Int → Int → Int} {le : Int → Int → Prop}
    (hbest : ∀ x t, t.foldl better x ∈ x :: t ∧ ∀ y ∈ x :: t, le (t.foldl better x) y) (hl : l ∈ act)
    (hlt : ∀ n ∈ act, s.reg (who n) a < 2 ^ 32) : (∃ n ∈ act, laneBest better a s who act = s.reg (who n) a) ∧
      ∀ n ∈ act, le (signedAt 32 (laneBest better a s who act)) (signedAt 32 (s.reg (who n) a)) := by
  let value (n : Nat) : Int := signedAt 32 (s.reg (who n) a)
  obtain ⟨x, t, hmap⟩ := List.exists_cons_of_ne_nil (List.ne_nil_of_mem (List.mem_map_of_mem (f := value) hl))
  obtain ⟨hone, hleast⟩ := hbest x t
  rw [← hmap] at hone hleast
  obtain ⟨n, hn, hvalue⟩ := List.mem_map.mp hone
  have hreg : laneBest better a s who act = s.reg (who n) a := by
    rw [laneBest, show (act.map fun l => signedAt 32 (s.reg (who l) a)) = x :: t from hmap]
    exact (congrArg (wrapTo 32) hvalue.symm).trans (wrap_signed 32 _ (hlt n hn))
  refine ⟨⟨n, hn, hreg⟩, fun k hk => ?_⟩
  rw [hreg]
  exact hvalue.symm.subst (motive := fun z => le z (value k)) (hleast _ (List.mem_map_of_mem (f := value) hk))

theorem foldl_min_spec (x : Int) (t : List Int) : t.foldl min x ∈ x :: t ∧ ∀ y ∈ x :: t, t.foldl min x ≤ y :=
  List.min?_eq_some_iff.mp List.min?_cons'

theorem foldl_max_spec (x : Int) (t : List Int) : t.foldl max x ∈ x :: t ∧ ∀ y ∈ x :: t, y ≤ t.foldl max x :=
  List.max?_eq_some_iff.mp List.max?_cons'

end Values

/-- Settles O10: each word writes its value to the active lanes; shuffles by the lane they read, sums and extremes by the lemmas
above. -/
theorem laneResults : Obligations.LaneResults := by
  refine ⟨fun g d a j p => ⟨?_, ?_, ?_, ?_, ?_, ?_, ?_, ?_, ?_, ?_⟩, fun g d a j =>
    ⟨⟨fun s who act _ => laneBest min a s who act, ?_, ?_⟩, ⟨fun s who act _ => laneBest max a s who act, ?_, ?_⟩⟩⟩
  · exact (crossReg_gives (fun s who act l => shflPick a (s.reg (who l) d) s who act l) fun _ => rfl).congr fun _ _ _ _ =>
      shflPick_natCast _
  · exact (crossReg_gives (fun s who act l => shflPick a ((l : Int) - s.reg (who l) d) s who act l) fun _ => rfl).congr fun _ _ _ _ =>
      shflPick_sub _
  · exact (crossReg_gives (fun s who act l => shflPick a ((l : Int) + s.reg (who l) d) s who act l) fun _ => rfl).congr fun _ _ _ _ =>
      shflPick_natCast _
  · exact (crossReg_gives (fun s who act l => shflPick a (l ^^^ s.reg (who l) d : Nat) s who act l) fun _ => rfl).congr fun _ _ _ _ =>
      shflPick_natCast _
  · exact crossReg_gives _ fun _ => rfl
  · exact crossReg_gives _ fun _ => rfl
  · exact (crossReg_gives (fun s who act l => laneSum a s who act fun n => n ≤ l) fun _ => rfl).congr fun _ _ _ _ => laneSum_eq _
  · exact (crossReg_gives (fun s who act l => laneSum a s who act fun n => n < l) fun _ => rfl).congr fun _ _ _ _ => laneSum_eq _
  · refine (crossReg_gives (fun s who act _ => laneSum a s who act fun _ => true) fun _ => rfl).congr fun _ _ act _ => ?_
    rw [laneSum_eq, List.filter_true]
  · exact crossReg_gives _ fun _ => rfl
  · exact crossReg_gives _ fun _ => rfl
  · exact fun s who act l hl hlt => laneBest_spec foldl_min_spec hl hlt
  · exact crossReg_gives _ fun _ => rfl
  · exact fun s who act l hl hlt => laneBest_spec (le := fun x y => y ≤ x) foldl_max_spec hl hlt

end Sys2Proof.Machine
end

section
namespace Sys2Proof.Machine

/-! ### Own-lane and needle traps (06 R144, 08 R198) -/

/-- A word whose meaning is a precise trap, not a page fault, traps. -/
theorem traps_of_trapNow {s : State} {i : Issue} {w : Who} {x : Instr} {cause : Nat} {va : DWord} (ha : Alive s w)
    (hx : exec x s = .next (trapNow i w cause va s)) (h : cause ≠ 8 ∧ cause ≠ 9) : Traps s i w x cause va := by
  obtain ⟨⟨tr, htr, hcause, hva, -, htid, hpc, hexk, -⟩, hstays, hmem, hregs, -⟩ := trapAs_spec i w cause 0 va 0#64 false s h ha
  exact ⟨_, hx, hstays, hmem, hregs, trapNow_pred i w va s h, trapNow_window i w va s h, tr, htr, hcause, hva, htid, hpc, hexk⟩

/-- A cross-lane meaning on mask j, whose effect with no active lane is none. -/
def JoinsOn (f : State → Res) (j : BitVec 3) : Prop :=
  ∃ g eff, (∀ s, f s = crossLane g j eff s) ∧ ∀ s0 who warp st, eff s0 who warp [] st = st

theorem joinsOn_crossReg (g : Guard) (d : Reg) (j : BitVec 3) (val : LaneValue) :
    JoinsOn (crossReg g d j val) j := ⟨g, _, fun _ => rfl, fun _ _ _ _ => rfl⟩

theorem joinsOn_crossPred (g : Guard) (d : F6) (j : BitVec 3) (val : State → (Nat → Who) → List Nat → Bool) :
    JoinsOn (crossPred g d j val) j := ⟨g, _, fun _ => rfl, fun _ _ _ _ => rfl⟩

/-- A thread alone that its mask does not name takes the trap, and that is all. -/
theorem JoinsOn.unnamed {f : State → Res} {s : State} {i : Issue} {j : BitVec 3} {n : Nat} (hf : JoinsOn f j) (hcur : s.cur = some i)
    (htids : i.tids = [n]) (hn : n < 1024) (hm : (s.mask { core := i.core, ctx := i.ctx } (n / 32) j.toNat).getLsbD (n % 32) = false) :
    f s = .next (trapOperand i { core := i.core, ctx := i.ctx, tid := some n } s) := by
  obtain ⟨g, eff, hmeaning, hnone⟩ := hf
  have hwarps : i.warps = [n / 32] := Issue.warps_eq_singleton (by simp [htids]) (by simp [htids]) (by omega)
  have hmine : i.lanesIn (n / 32) = [n % 32] :=
    filter_lanes_eq_singleton (Nat.mod_lt _ (by norm_num)) fun l hl => by
      rw [htids, List.contains_iff_mem, List.mem_singleton]
      omega
  rw [hmeaning, crossLane_eq hcur, hwarps, ← i.lane_div_mod]
  simp [crossWarp, hmine, hm, hnone]

/-- A matrix command that its executor may not give traps, and the engine accepts nothing. -/
theorem withNeedle_refused {s : State} {i : Issue} {w : Who} {x : Instr} (f : Issue → Who → State → State) (hr : Runs s i x w)
    (ha : Alive s w) (hn : s.holdsNeedle w = false) (hx : exec x s = eachExec x.guard (fun i w st => withNeedle i w (f i w) st) s) :
    ∃ t, exec x s = .next t ∧ (t.core w.core).ops = (s.core w.core).ops ∧ (t.core w.core).mx = (s.core w.core).mx ∧
      (t.strand w).pc = i.pc ∧ ∃ tr, (t.ctx w.core w.ctx).traps = (s.ctx w.core w.ctx).traps ++ [tr] ∧ tr.cause = 6 := by
  have htrap : withNeedle i w (f i w) s = trapNeedle i w s := if_neg (by rw [hn]; exact Bool.false_ne_true)
  obtain ⟨⟨tr, htr, hcause, -⟩, hpc, -, -, hengine⟩ := trapAs_spec i w 6 0 0#64 0#64 false s (by decide) ha
  exact ⟨_, hr.exec_eq hx htrap, (hengine w.core).1, (hengine w.core).2, hpc, tr, htr, hcause⟩

/-- Settles O12: every cross-lane word joins on its mask, where the own-lane check comes before the guard (log 24), and every
matrix command asks for the needle first. -/
theorem laneAndNeedleTraps : Obligations.LaneAndNeedleTraps := by
  refine ⟨fun g d a pd pa j s i n hi hlead htids hn hm x hx => ?_, fun g a s i w => ?_⟩
  · have halive : Alive s { core := i.core, ctx := i.ctx, tid := some n } :=
      Issue.whos_alive hi _ (by simp [Issue.whos, hlead, htids])
    have htraps : Traps s i { core := i.core, ctx := i.ctx, tid := some n } x 5 0#64 := by
      have hword (f : State → Res) (hf : JoinsOn f j) (hmeaning : exec x s = f s) :
          Traps s i { core := i.core, ctx := i.ctx, tid := some n } x 5 0#64 :=
        traps_of_trapNow halive (hmeaning.trans (hf.unnamed hi.1 htids hn hm)) (by decide)
      simp only [List.mem_cons, List.not_mem_nil, or_false] at hx
      rcases hx with rfl | rfl | rfl | rfl | rfl | rfl | rfl | rfl | rfl | rfl | rfl | rfl | rfl | rfl | rfl | rfl | rfl | rfl
      · exact hword (execShflIdx g d a j) (joinsOn_crossReg g d j _) rfl
      · exact hword (execShflUp g d a j) (joinsOn_crossReg g d j _) rfl
      · exact hword (execShflDown g d a j) (joinsOn_crossReg g d j _) rfl
      · exact hword (execShflXor g d a j) (joinsOn_crossReg g d j _) rfl
      · exact hword (execMatchLanes g d a j) (joinsOn_crossReg g d j _) rfl
      · exact hword (execScanAdd g d a j) (joinsOn_crossReg g d j _) rfl
      · exact hword (execScanAddEx g d a j) (joinsOn_crossReg g d j _) rfl
      · exact hword (execRedAdd g d a j) (joinsOn_crossReg g d j _) rfl
      · exact hword (execRedMin g d a j) (joinsOn_crossReg g d j _) rfl
      · exact hword (execRedMax g d a j) (joinsOn_crossReg g d j _) rfl
      · exact hword (execFredAdd g d a j) (joinsOn_crossReg g d j _) rfl
      · exact hword (execJset g a j) ⟨g, _, fun _ => rfl, fun _ _ _ _ => rfl⟩ rfl
      · exact hword (execJsetGrp g j) ⟨g, _, fun _ => rfl, fun _ _ _ _ => rfl⟩ rfl
      · exact hword (execJoin g j) ⟨g, _, fun _ => rfl, fun _ _ _ _ => rfl⟩ rfl
      · exact hword (execQmax g a j) ⟨g, _, fun _ => rfl, fun _ _ _ _ => rfl⟩ rfl
      · exact hword (execVoteAny g pd pa j) (joinsOn_crossPred g pd j _) rfl
      · exact hword (execVoteAll g pd pa j) (joinsOn_crossPred g pd j _) rfl
      · exact hword (execVoteBallot g d pa j) (joinsOn_crossReg g d j _) rfl
    obtain ⟨t, hexec, hpc, hmem, hregs, -, -, tr, htr, hcause, -, htid, htrpc, -⟩ := htraps
    exact ⟨t, hexec, hregs, hmem, hpc, tr, htr, hcause, htid, htrpc⟩
  · simp only [List.forall_mem_cons, List.not_mem_nil, false_imp_iff, implies_true, and_true]
    refine ⟨?_, ?_, ?_, ?_, ?_, ?_⟩ <;> exact fun hr ha hn => withNeedle_refused _ hr ha hn rfl

end Sys2Proof.Machine
end

section
namespace Sys2Proof.Machine

/-! ### Loads and stores issue (07 R152 to R162) -/

section Plain
variable {s s1 : State} {i : Issue} {w : Who} {x : Instr} {a : Reg} {off : Off} {n pa : Nat} {cached : Bool}

theorem ctlWidthOk_of_eight (h : inCtl pa = true → n = 8) : ctlWidthOk pa n = true := by
  unfold ctlWidthOk
  cases hc : inCtl pa with
  | false => rfl
  | true => rw [h hc]; rfl

/-- A plain access of n bytes that may issue, is aligned and translates does at its place what the word does there. -/
theorem exec_plain {acc : Access} (f : Who → DWord → Reached → State → State)
    (hx : exec x s = eachExec x.guard (fun i w st => access i w acc n (st.globalAddr w a off n) (fun r u =>
      if ctlWidthOk r.pa n then f w (st.globalAddr w a off n) r u else trapOperand i w u) st) s)
    (hr : Runs s i x w) (hq : s.acquiring w = false) (ha : (s.globalAddr w a off n).toNat % n = 0)
    (ht : s.xlat w i.pc acc (s.globalAddr w a off n) = (.ok pa cached, s1)) (hc : inCtl pa = true → n = 8) :
    exec x s = .next (f w (s.globalAddr w a off n) { pa, cached } s1) :=
  hr.exec_eq hx ((access_reaches hq ha ht _).trans (if_pos (ctlWidthOk_of_eight hc)))

variable {va : DWord} {dst : Dest} {viaL1 acquire wide : Bool}

/-- A load that may read the L1 and finds its line there returns at once. -/
theorem loadAt_hit {l : L1Line} (h : (viaL1 && cached && s.canHit w (lineOf pa) && !s.scrubbing pa) = true)
    (hl : l1Find (s.core w.core).l1 (lineOf pa) = some l) :
    loadAt w va n dst viaL1 acquire wide { pa, cached } s =
      (s.setDest w dst (lineGet l.data (pa % 64) n)).modCore w.core fun co => { co with l1 := l1Touch co.l1 (lineOf pa) } := by
  simp only [loadAt, h, if_true, hl]

/-- Any other joins the outstanding loads. -/
theorem loadAt_miss (h : (viaL1 && cached && s.canHit w (lineOf pa) && !s.scrubbing pa) = false ∨
      l1Find (s.core w.core).l1 (lineOf pa) = none) :
    loadAt w va n dst viaL1 acquire wide { pa, cached } s = s.addLoad {
      id := 0, who := w, part := s.partOf w.core w.ctx, pa, va, size := n, dst, acquire, wide, fill := viaL1 && cached } := by
  rcases h with h | h
  · simp only [loadAt, h, Bool.false_eq_true, if_false]
  · simp only [loadAt, h, ite_self]

end Plain

/-- Settles O18: each word is a plain access whose place is `loadAt`. -/
theorem loadsIssue : Obligations.LoadsIssue := by
  intro g d a sz wd scp off s s1 i w pa cached
  have hscope : (scp == 0#2) = !scopeWide scp := (Bool.not_not _).symm
  simp only [hscope]
  refine ⟨fun hr hq ha ht hc => ?_, fun hr hq ha ht hc => ?_⟩
  · have hload := exec_plain (fun w va => loadAt w va _ (dataDest w d _) true false false) rfl hr hq ha ht hc
    exact ⟨fun l h hl => hload.trans (congrArg _ (loadAt_hit h hl)), fun h => hload.trans (congrArg _ (loadAt_miss h))⟩
  · have hload := exec_plain (fun w va => loadAt w va _ (dataDest w d _) (!scopeWide scp) true (scopeWide scp)) rfl hr hq ha ht hc
    exact ⟨fun l h hl => hload.trans (congrArg _ (loadAt_hit h hl)), fun h => hload.trans (congrArg _ (loadAt_miss h))⟩

/-- A cast store looks at its source and its core set, then reaches its line. -/
theorem exec_stc {g : Guard} {d a : Reg} {s s1 : State} {i : Issue} {w : Who} {pa : Nat} {set : List Nat}
    (hr : Runs s i (.stc g d a) w) (hq : s.acquiring w = false) (ha : (s.reg64 w a).toNat % 64 = 0)
    (ho : (s.regs2 w d).1.toNat % 2 ^ 22 % 64 = 0)
    (hw : (s.regs2 w d).1.toNat % 2 ^ 22 + 64 ≤ s.smemSize w.core w.ctx)
    (hset : decodeCoreSet (s.regs2 w d).2.toNat = some set) (ht : s.xlat w i.pc .write (s.reg64 w a) = (.ok pa true, s1)) :
    exec (.stc g d a) s = .next (s1.addStore {
      id := 0, who := w, part := s1.partOf w.core w.ctx, pa, va := s.reg64 w a
      kind := .cast (BitVec.ofNat 512 (readBytes i.seen ((s.regs2 w d).1.toNat % 2 ^ 22) 64)) (set.filter (· != w.core)) }) := by
  refine hr.exec_eq rfl ((smemAccess_reaches hq rfl ho hw _).trans ?_)
  simp only [hset]
  exact access_reaches hq ha ht _

/-- Settles O19: a plain store's place is `storeAt`; a store that joins the outstanding ones moves no byte. -/
theorem storesIssue : Obligations.StoresIssue := by
  intro g d a sz wd scp off s s1 i w pa cached
  refine ⟨fun hr hq ha ht hc => ⟨?_, fun b => by rw [State.addStore_mem]⟩,
    fun hr hq ha ht hc => ⟨?_, fun b => by rw [State.addStore_mem]⟩,
    fun set hr hq ha ho hw hset ht => exec_stc hr hq ha ho hw hset ht⟩
  · exact exec_plain (fun w va r st => storeAt w va _ (st.dataIn w d _) (releasesAt r.pa) (releasesAt r.pa) r st) rfl hr hq ha ht hc
  · exact exec_plain (fun w va r st => storeAt w va _ (st.dataIn w d _) true (scopeWide scp) r st) rfl hr hq ha ht hc

end Sys2Proof.Machine
end

section
namespace Sys2Proof.Machine

/-! ### The scratchpad window (07 R152, R155; 19 R309) -/

section Window
variable (s : State) (c slot o n v : Nat)

/-- The window of a launch that is reserved on the core is what has been written to it. -/
theorem Core.window_setWindow (co : Core) (m : Memory) (h : (co.resv.any fun r => r.slot == slot) = true) :
    (co.setWindow slot m).window slot = m := by
  obtain ⟨r, hr⟩ := Option.isSome_iff_exists.mp (List.find?_isSome.mpr (List.any_eq_true.mp h))
  have hslot : (fun r : Resv => r.slot == slot) ∘ (fun r => if r.slot == slot then { r with smem := m } else r) =
      fun r => r.slot == slot := by
    funext r
    simp only [Function.comp_apply]
    split <;> rfl
  have hfound : (r.slot == slot) = true := List.find?_some (p := fun r : Resv => r.slot == slot) hr
  simp only [Core.window, Core.setWindow, mapIf, List.find?_map, hslot, hr, Option.map_some, hfound, if_true]

theorem State.window_smemWrite (h : ((s.core c).resv.any fun r => r.slot == slot) = true) :
    ((s.smemWrite c slot o n v).core c).window slot = writeBytes ((s.core c).window slot) o n v := by
  rw [State.smemWrite, State.modCore_core, Core.window_setWindow _ _ _ h]

theorem State.smemRead_smemWrite_same (h : ((s.core c).resv.any fun r => r.slot == slot) = true) :
    (s.smemWrite c slot o n v).smemRead c slot o n = v % 256 ^ n := by
  rw [State.smemRead, State.window_smemWrite _ _ _ _ _ _ h, readBytes_writeBytes_same]

theorem State.smemWrite_regs : SameRegs s (s.smemWrite c slot o n v) := State.modCore_regs s c _ rfl

theorem State.pred_modCore {f : Core → Core} (h : (f (s.core c)).ctxs = (s.core c).ctxs) (w : Who) (p : Nat) :
    (s.modCore c f).pred w p = s.pred w p := by
  obtain ⟨d, k, _ | m⟩ := w
  · simp only [State.pred, State.ctx_modCore s c d k f h]
  · simp only [State.pred, State.thread, State.ctx_modCore s c d k f h]

end Window

/-! ### Words of the scratchpad (07 R152, R158, R168) -/

section Scratchpad
variable {s : State} {i : Issue} {w : Who} {x : Instr} {d a : Reg} {off : Off} {n o : Nat} {wd : BitVec 1}

theorem State.dataIn_lt (s : State) (w : Who) (d : Reg) (n : Nat) : s.dataIn w d n < 2 ^ (8 * n) := Nat.mod_lt _ (Nat.two_pow_pos _)

/-- Data of up to eight bytes is its own 64-bit operand. -/
theorem toNat_ofNat_data {v : Nat} (hv : v < 2 ^ (8 * n)) (hn : n ≤ 8) : (BitVec.ofNat 64 v).toNat = v := by
  rw [BitVec.toNat_ofNat]
  exact Nat.mod_eq_of_lt (hv.trans_le (Nat.pow_le_pow_right Nat.two_pos (by omega)))

theorem wBytes_le (wd : BitVec 1) : wBytes wd ≤ 8 := by
  unfold wBytes
  split <;> decide

/-- The executor's n bytes at the offset lie in its window, aligned, and no acquire of it is outstanding. -/
def State.FitsWindow (s : State) (w : Who) (a : Reg) (off : Off) (n o : Nat) : Prop :=
  s.smemAddr w a off n = o ∧ o % n = 0 ∧ o + n ≤ s.smemSize w.core w.ctx ∧ s.acquiring w = false

/-- An access of the scratchpad that fits does at its offset what the word does there. -/
theorem exec_scratchpad (f : Who → Nat → State → State)
    (hx : exec x s = eachExec x.guard (fun i w st => smemAccess i w n n (st.smemAddr w a off n) (f w) st) s)
    (hr : Runs s i x w) (h : s.FitsWindow w a off n o) : exec x s = .next (f w o s) := by
  obtain ⟨ho, ha, hw, hq⟩ := h
  exact hr.exec_eq hx (smemAccess_reaches hq ho ha hw _)

/-- What an atomic writes to the scratchpad, its old value and its operands being data of its width. -/
def State.scratchResult (s : State) (w : Who) (op : AtomOp) (d : Reg) (n o : Nat) : Nat :=
  atomApply op (8 * n) (s.smemRead w.core (s.slotOf w.core w.ctx) o n)
    (if op = .cas then s.dataNext w d n else s.dataIn w d n) (s.dataIn w d n)

theorem exec_smemAtom (op : AtomOp) (hx : exec x s = smemAtom op x.guard d a wd off s) (hr : Runs s i x w)
    (h : s.FitsWindow w a off (wBytes wd) o) :
    exec x s = .next ((s.smemWrite w.core (s.slotOf w.core w.ctx) o (wBytes wd) (s.scratchResult w op d (wBytes wd) o)).setDest w
      (dataDest w d (wBytes wd)) (s.smemRead w.core (s.slotOf w.core w.ctx) o (wBytes wd))) := by
  have hin := toNat_ofNat_data (s.dataIn_lt w d (wBytes wd)) (wBytes_le wd)
  have hnext : (BitVec.ofNat 64 (s.dataNext w d (wBytes wd))).toNat = s.dataNext w d (wBytes wd) :=
    toNat_ofNat_data (Nat.mod_lt _ (Nat.two_pow_pos _)) (wBytes_le wd)
  have hvalue : atomApply op (8 * wBytes wd) (s.smemRead w.core (s.slotOf w.core w.ctx) o (wBytes wd))
      (s.atomOperands w op d (wBytes wd)).1.toNat (s.atomOperands w op d (wBytes wd)).2.toNat =
      s.scratchResult w op d (wBytes wd) o := by
    cases op with
    | cas => simp only [State.atomOperands, State.scratchResult, hin, hnext, if_true]
    | _ => simp only [State.atomOperands, State.scratchResult, hin, reduceCtorEq, if_false, atomApply]
  rw [← hvalue]
  exact exec_scratchpad (fun w o st => (st.smemWrite w.core (st.slotOf w.core w.ctx) o (wBytes wd)
    (atomApply op (8 * wBytes wd) (st.smemRead w.core (st.slotOf w.core w.ctx) o (wBytes wd)) (st.atomOperands w op d (wBytes wd)).1.toNat
      (st.atomOperands w op d (wBytes wd)).2.toNat)).setDest w (dataDest w d (wBytes wd))
    (st.smemRead w.core (st.slotOf w.core w.ctx) o (wBytes wd))) hx hr h

/-- A scratchpad store that fits writes its data to the window. -/
theorem exec_sts {g : Guard} {sz : BitVec 3} (hr : Runs s i (.sts g d a sz off) w) (h : s.FitsWindow w a off (2 ^ sz.toNat) o) :
    exec (.sts g d a sz off) s =
      .next (s.smemWrite w.core (s.slotOf w.core w.ctx) o (2 ^ sz.toNat) (s.dataIn w d (2 ^ sz.toNat))) :=
  exec_scratchpad (fun w o st => st.smemWrite w.core (st.slotOf w.core w.ctx) o _ (st.dataIn w d _)) rfl hr h

end Scratchpad

/-- Settles O20: each word does its work at the offset it reaches; what a store leaves is read off the window it writes. -/
theorem scratchpadAccesses : Obligations.ScratchpadAccesses := by
  refine ⟨fun g d a sz wd off s i w o => ?_, fun g d a sz off s t i w o => ?_⟩
  · dsimp only
    exact ⟨exec_scratchpad (fun w o st => st.setDest w (dataDest w d _) (st.smemRead w.core (st.slotOf w.core w.ctx) o _)) rfl,
      exec_sts, exec_smemAtom .add rfl, exec_smemAtom .min rfl, exec_smemAtom .max rfl,
      exec_smemAtom .and rfl, exec_smemAtom .or rfl, exec_smemAtom .xor rfl, exec_smemAtom .xchg rfl, exec_smemAtom .cas rfl⟩
  · intro n slot hr ho hresv ha hw hq hexec
    obtain rfl := Host.Outcome.next.inj ((exec_sts hr ⟨ho, ha, hw, hq⟩).symm.trans hexec)
    refine ⟨?_, fun b hb => ?_, fun b => by rw [State.smemWrite_mem], State.smemWrite_regs s _ _ _ _ _, State.pred_modCore s _ rfl⟩
    · have hdata := s.dataIn_lt w d n
      rw [Nat.pow_mul] at hdata
      rw [State.smemRead_smemWrite_same _ _ _ _ _ _ hresv, Nat.mod_eq_of_lt hdata]
    · rw [State.window_smemWrite _ _ _ _ _ _ hresv, byteAt_writeBytes_outside _ _ _ _ _ hb]

/-! ### Invalidation and pins (07 R163, R164) -/

section Hints
variable {s s1 : State} {i : Issue} {w : Who} {x : Instr} {a : Reg} {off : Off} {pa : Nat} {cached : Bool}

/-- A hint on the line of an address that translates does its work there. -/
theorem exec_hint (f : Issue → Who → Reached → State → State)
    (hx : exec x s = eachExec x.guard (fun i w st => access i w .read 1 (st.globalAddr w a off 1) (f i w) st) s)
    (hr : Runs s i x w) (hq : s.acquiring w = false) (ht : s.xlat w i.pc .read (s.globalAddr w a off 1) = (.ok pa cached, s1)) :
    exec x s = .next (f i w { pa, cached } s1) :=
  hr.exec_eq hx (access_reaches hq (Nat.mod_one _) ht _)

/-- The pinned lines that stay when a line is pinned. -/
def State.keptPins (s : State) (line : Nat) : List Nat :=
  match s.homes.pins.filter fun l => s.setKey l == s.setKey line with
  | old :: rest => if 12 ≤ (old :: rest).length then s.homes.pins.filter (· != old) else s.homes.pins
  | [] => s.homes.pins

theorem State.pinLine_pins (s : State) (line : Nat) :
    (s.pinLine line).homes.pins = if line ∈ s.homes.pins then s.homes.pins else s.keptPins line ++ [line] := by
  unfold State.pinLine State.keptPins
  simp only [List.contains_iff_mem]
  split
  · rfl
  · dsimp only
    split <;> simp only [*]

theorem State.pinLine_frame (s : State) (line : Nat) : (s.pinLine line).mem = s.mem ∧ (s.pinLine line).cores = s.cores := by
  unfold State.pinLine
  dsimp only
  split <;> exact ⟨rfl, rfl⟩

/-- All of them stay but one of the line's set, and that only where twelve of the set are pinned. -/
theorem State.keptPins_spec (s : State) (line : Nat) :
    (∀ l ∈ s.keptPins line, l ∈ s.homes.pins) ∧ (∀ l ∈ s.homes.pins, s.setKey l ≠ s.setKey line → l ∈ s.keptPins line) ∧
      ((s.homes.pins.filter fun l => s.setKey l == s.setKey line).length < 12 → s.keptPins line = s.homes.pins) := by
  unfold State.keptPins
  split
  · next old rest hset =>
    have hold : s.setKey old = s.setKey line := by
      have hmem : old ∈ s.homes.pins.filter fun l => s.setKey l == s.setKey line := hset ▸ List.mem_cons_self
      simpa using (List.mem_filter.mp hmem).2
    rw [hset]
    split
    · next hfull =>
      refine ⟨fun l hl => (List.mem_filter.mp hl).1, fun l hl hne => List.mem_filter.mpr ⟨hl, ?_⟩, fun h => absurd hfull h.not_ge⟩
      exact bne_iff_ne.mpr fun e => hne (e ▸ hold)
    · exact ⟨fun _ h => h, fun _ h _ => h, fun _ => rfl⟩
  · exact ⟨fun _ h => h, fun _ h _ => h, fun _ => rfl⟩

/-- A pin joins the pinned lines, and only a line of its set may leave for it, where twelve of them are pinned. -/
theorem State.pinLine_spec (s : State) (line : Nat) :
    let pins := (s.pinLine line).homes.pins
    line ∈ pins ∧ (∀ l ∈ pins, l = line ∨ l ∈ s.homes.pins) ∧ (∀ l ∈ s.homes.pins, s.setKey l ≠ s.setKey line → l ∈ pins) ∧
      ((s.homes.pins.filter fun l => s.setKey l == s.setKey line).length < 12 → ∀ l ∈ s.homes.pins, l ∈ pins) := by
  intro pins
  obtain ⟨hsub, hother, hroom⟩ := s.keptPins_spec line
  have hpins : pins = if line ∈ s.homes.pins then s.homes.pins else s.keptPins line ++ [line] := s.pinLine_pins line
  rw [hpins]
  split
  · next h => exact ⟨h, fun _ hl => .inr hl, fun _ hl _ => hl, fun _ _ hl => hl⟩
  · simp only [List.mem_append, List.mem_singleton, or_true, true_and]
    exact ⟨fun l hl => hl.symm.imp_right (hsub l), fun l hl hne => .inl (hother l hl hne), fun h l hl => .inl (hroom h ▸ hl)⟩

/-- An invalidation of a line at a core. -/
def State.invalidate (s : State) (c line : Nat) : State :=
  s.modCore c fun co => { co.dropFills line with l1 := co.l1.filter fun x => x.pushed || x.line != line }

/-- An invalidation takes the demand copy of its line and the fills of it that are under way, and no other copy. -/
theorem State.invalidate_spec (s : State) (c line : Nat) :
    let t := s.invalidate c line
    (∀ x ∈ (t.core c).l1, x.line = line → x.pushed = true) ∧
      (∀ x ∈ (s.core c).l1, x.line ≠ line ∨ x.pushed = true → x ∈ (t.core c).l1) ∧
      ∀ l ∈ (t.core c).loads, lineOf l.pa = line → l.fill = false := by
  simp only [State.invalidate, State.modCore_core, List.mem_filter, Bool.or_eq_true, bne_iff_ne, Core.dropFills, mapIf, List.mem_map]
  refine ⟨fun x hx hline => hx.2.resolve_right (not_not.mpr hline), fun x hx h => ⟨hx, h.symm⟩, ?_⟩
  rintro l ⟨k, -, rfl⟩ hline
  split at hline
  · next h => rw [if_pos h]
  · next h => exact absurd (beq_iff_eq.mpr hline) h

theorem exec_cinv {g : Guard} {scp : BitVec 2} (hr : Runs s i (.cinv g a scp off) w) (hq : s.acquiring w = false)
    (ht : s.xlat w i.pc .read (s.globalAddr w a off 1) = (.ok pa cached, s1)) :
    exec (.cinv g a scp off) s = .next (if scopeWide scp then s1.invalidate w.core (lineOf pa) else s1) :=
  exec_hint (fun _ w r u => if scopeWide scp then u.invalidate w.core (lineOf r.pa) else u) rfl hr hq ht

theorem exec_cpin {g : Guard} (hr : Runs s i (.cpin g a off) w) (hq : s.acquiring w = false)
    (ht : s.xlat w i.pc .read (s.globalAddr w a off 1) = (.ok pa true, s1)) :
    exec (.cpin g a off) s = .next (s1.pinLine (lineOf pa)) :=
  exec_hint (fun i w r u => if r.cached then u.pinLine (lineOf r.pa) else trapOperand i w u) rfl hr hq ht

theorem exec_cunpin {g : Guard} (hr : Runs s i (.cunpin g a off) w) (hq : s.acquiring w = false)
    (ht : s.xlat w i.pc .read (s.globalAddr w a off 1) = (.ok pa cached, s1)) :
    exec (.cunpin g a off) s = .next { s1 with homes := { s1.homes with pins := s1.homes.pins.filter (· != lineOf pa) } } :=
  exec_hint (fun _ _ r u => { u with homes := { u.homes with pins := u.homes.pins.filter (· != lineOf r.pa) } }) rfl hr hq ht

end Hints

/-- Settles O21: each word is a hint at its line; what an invalidation, a pin and an unpin leave is told list by list. -/
theorem cacheHints : Obligations.CacheHints := by
  intro g a scp off s s1 i w pa cached va hq ht
  refine ⟨fun hr => ⟨fun h => ?_, fun h => ?_⟩, fun hr hcached => ?_, fun hr => ?_⟩
  · subst h
    exact exec_cinv hr hq ht
  · have hcinv := (exec_cinv hr hq ht).trans (congrArg _ (if_pos (bne_iff_ne.mpr h)))
    exact ⟨_, hcinv, rfl, s1.invalidate_spec w.core (lineOf pa)⟩
  · subst hcached
    obtain ⟨hmem, hsub, hother, hroom⟩ := s1.pinLine_spec (lineOf pa)
    obtain ⟨hbytes, hcores⟩ := s1.pinLine_frame (lineOf pa)
    exact ⟨_, exec_cpin hr hq ht, hmem, hsub, hother, hroom, hbytes, hcores⟩
  · refine ⟨_, exec_cunpin hr hq ht, ?_, fun l hl => ?_, rfl, rfl⟩
    · simp
    · simp [hl]

end Sys2Proof.Machine
end

section
namespace Sys2Proof.Machine

/-! ### One executor's strand written twice -/

section Twice
variable {α : Type} (s : State) (c k : Nat)

theorem tblDel_ins (t : Tbl α) (n : Nat) (v : α) : tblDel (tblIns n v t) n = tblDel t n := by
  induction t with
  | nil => simp [tblIns, tblDel]
  | cons e t ih =>
    unfold tblIns
    split
    · simp [tblDel]
    · simp only [tblDel, List.filter_cons] at ih ⊢
      rw [ih]

theorem tblPut_put [DecidableEq α] (d : α) (t : Tbl α) (n : Nat) (u v : α) : tblPut d (tblPut d t n u) n v = tblPut d t n v := by
  have hdel : tblDel (tblPut d t n u) n = tblDel t n := by
    unfold tblPut
    split
    · simp [tblDel]
    · rw [tblDel_ins]
      simp [tblDel]
  rw [tblPut, hdel]
  rfl

theorem State.modCtx_modCtx (f g : Ctx → Ctx) : (s.modCtx c k f).modCtx c k g = s.modCtx c k fun x => g (f x) := by
  have hcore (co : Core) (x y : Ctx) :
      ({ co with ctxs := tblPut {} (tblPut {} co.ctxs k x) k y } : Core) = { co with ctxs := tblPut {} co.ctxs k y } := by
    rw [tblPut_put]
  simp only [State.modCtx, State.setCtx_ctx]
  simp only [State.setCtx, State.modCore, State.setCore_core, hcore]
  simp only [State.setCore, tblPut_put]

theorem Ctx.setThread_setThread (x : Ctx) (n : Nat) (t u : Thread) : (x.setThread n t).setThread n u = x.setThread n u := by
  simp only [Ctx.setThread, tblPut_put]

/-- What a strand reads after an executor's strand is changed. -/
theorem State.strand_modStrand_eq (w v : Who) (f : Strand → Strand) :
    (s.modStrand w f).strand v = if v = w then f (s.strand w) else s.strand v := by
  obtain ⟨c, k, _ | n⟩ := w <;> obtain ⟨d, j, _ | m⟩ := v
  · simp only [State.modStrand, State.setStrand, State.strand, State.ctx_modCtx, Who.eq_iff, and_true]
    split <;> rfl
  · simp only [State.modStrand, State.setStrand, State.strand, State.thread, State.ctx_modCtx, Who.eq_iff, reduceCtorEq, and_false, if_false]
    split
    · next h => rw [h.1, h.2]; rfl
    · rfl
  · simp only [State.modStrand, State.setStrand, State.setThread, State.strand, State.ctx_modCtx, Who.eq_iff, reduceCtorEq, and_false, if_false]
    split
    · next h => rw [h.1, h.2]; rfl
    · rfl
  · simp only [State.modStrand, State.setStrand, State.strand, State.thread_setThread, Who.eq_iff, Option.some.injEq]
    split <;> rfl

theorem State.modStrand_modStrand (w : Who) (f g : Strand → Strand) :
    (s.modStrand w f).modStrand w g = s.modStrand w fun x => g (f x) := by
  have hstrand : (s.modStrand w f).strand w = f (s.strand w) := by rw [State.strand_modStrand_eq, if_pos rfl]
  show (s.modStrand w f).setStrand w (g ((s.modStrand w f).strand w)) = s.setStrand w (g (f (s.strand w)))
  rw [hstrand]
  obtain ⟨c, k, _ | n⟩ := w
  · exact State.modCtx_modCtx s c k (fun x => { x with str := _ }) (fun x => { x with str := _ })
  · simp only [State.modStrand, State.setStrand, State.thread_setThread, and_self, if_true]
    simp only [State.setThread, State.modCtx_modCtx, Ctx.setThread_setThread]

end Twice

/-! ### Executors that stand at their bundle (07 R171 to R176)

An executor that cannot go on is marked in the issue; beyond that, only the mark of what its strand waits for may change. -/

/-- The word leaves its executor at the bundle with a mark, and changes no register and no byte. -/
def Stands (s : State) (i : Issue) (w : Who) (x : Instr) (m : Wait) : Prop :=
  ∃ t, exec x s = .next t ∧ (t.strand w).wait = m ∧ t.mem = s.mem ∧ (∀ v r, t.reg v r = s.reg v r) ∧
    t.cur = some { i with waits := i.waits ++ [w.key] }

section Stands
variable {s : State} {i : Issue} {w : Who} {x : Instr} {f : Issue → Who → State → State}

theorem Runs.stands (hr : Runs s i x w) (hx : exec x s = eachExec x.guard f s) (hf : f i w s = markWait w s) :
    Stands s i w x (s.strand w).wait := by
  refine ⟨_, hr.exec_eq hx hf, rfl, rfl, fun _ _ => rfl, ?_⟩
  rw [markWait_spec w s i hr.1.1]

theorem Runs.standsAs {m : Wait} (hr : Runs s i x w) (hx : exec x s = eachExec x.guard f s) (hf : f i w s = waitAs w m s) :
    Stands s i w x m := by
  refine ⟨_, hr.exec_eq hx hf, ?_, State.modStrand_mem s w _, State.reg_modStrand s w _, ?_⟩
  · show ((s.modStrand w _).strand w).wait = m
    rw [State.strand_modStrand_eq, if_pos rfl]
  · rw [waitAs, markWait_spec w _ i ((State.modStrand_cur s w _).trans hr.1.1)]

/-- Whatever it waits for, it waits. -/
theorem Stands.waits {m : Wait} (h : Stands s i w x m) : ∃ t, exec x s = .next t ∧ t.mem = s.mem ∧ (∀ v r, t.reg v r = s.reg v r) ∧
    t.cur = some { i with waits := i.waits ++ [w.key] } := by
  obtain ⟨t, hexec, -, hframe⟩ := h
  exact ⟨t, hexec, hframe⟩

end Stands

/-! ### Fences, drains and counter waits (07 R171 to R173) -/

section Fences
variable {s : State} {i : Issue} {w : Who} {x : Instr}

/-- A fence goes on where its condition holds and waits where it does not. -/
theorem fence_spec (hr : Runs s i x w) {k : Who → State → Bool} {e : Who → State → State}
    (hx : exec x s = eachExec x.guard (fun _ w st => fenceUnless (k w st) w (e w) st) s) :
    (k w s = true → exec x s = .next (e w s)) ∧ (k w s = false → Stands s i w x .fence) :=
  ⟨fun h => hr.exec_eq hx (if_pos h), fun h => hr.standsAs hx (if_neg (by rw [h]; exact Bool.false_ne_true))⟩

/-- So does a wait that nothing needs to know of. -/
theorem waitUnless_spec (hr : Runs s i x w) {k : Who → State → Bool}
    (hx : exec x s = eachExec x.guard (fun _ w st => waitUnless (k w st) w id st) s) :
    (k w s = true → exec x s = .next s) ∧ (k w s = false → Stands s i w x (s.strand w).wait) :=
  ⟨fun h => hr.exec_eq hx (if_pos h), fun h => hr.stands hx (if_neg (by rw [h]; exact Bool.false_ne_true))⟩

/-- At core scope an acquire drops nothing. -/
theorem State.acquireAt_scope (s : State) (w : Who) (scp : BitVec 2) :
    s.acquireAt w (scopeWide scp) = if scp = 0#2 then s else s.dropDemand w.core := by
  unfold State.acquireAt scopeWide
  by_cases h : scp = 0#2
  · simp [h]
  · simp [h]

end Fences

/-- Settles O23: each fence is `fenceUnless` its condition, each other word `waitUnless` its condition. -/
theorem fencesAndDrains : Obligations.FencesAndDrains := by
  intro g scp k n s i w wide acquired released waits
  have hacq (u : State) : u.acquireAt w (scopeWide scp) = acquired u := u.acquireAt_scope w scp
  refine ⟨fun hr => ?_, fun hr => ?_, fun hr => ?_, fun hr => ?_, fun hr => ?_⟩
  · obtain ⟨hgo, hwait⟩ := fence_spec hr (k := fun w st => st.loadsDone w && st.atomsDone w)
      (e := fun w st => st.acquireAt w (scopeWide scp)) rfl
    exact ⟨fun h => (hgo h).trans (congrArg _ (hacq s)), fun _ h => (hwait h).waits⟩
  · obtain ⟨hgo, hwait⟩ := fence_spec hr (k := fun w st => st.releaseReady w (scopeWide scp)) (e := fun w st => st.released w) rfl
    exact ⟨hgo, fun _ h => (hwait h).waits⟩
  · obtain ⟨hgo, hwait⟩ := fence_spec hr (k := fun w st => st.releaseReady w (scopeWide scp) && st.atomsDone w)
      (e := fun w st => (st.released w).acquireAt w (scopeWide scp)) rfl
    exact ⟨fun h => (hgo h).trans (congrArg _ (hacq released)), fun _ h => (hwait h).waits⟩
  · obtain ⟨hgo, hwait⟩ := waitUnless_spec hr (k := fun w st => st.loadsDone w && st.ownStoresDone w && st.castsDone w) rfl
    exact ⟨hgo, fun h => (hwait h).waits⟩
  · obtain ⟨hgo, hwait⟩ := waitUnless_spec hr (k := fun w st => st.opCount w k.toNat ≤ n.toNat) rfl
    exact ⟨fun h => hgo (decide_eq_true h), fun h => (hwait (decide_eq_false (not_le.mpr h))).waits⟩

end Sys2Proof.Machine
end

section
namespace Sys2Proof.Machine

/-! ### BAR (07 R174) -/

section Bar
variable {g : Guard} {s : State} {i : Issue} {w : Who}

/-- A thread whose barrier has completed takes what it had under way as released, and goes on. -/
theorem exec_bar_go (hr : Runs s i (.bar g) w) (h : (s.strand w).wait = .barGo) :
    exec (.bar g) s = .next (s.modStrand w fun x => { x with rel := s.fresh, wait := .none }) :=
  hr.exec_eq rfl ((if_pos h).trans (State.modStrand_modStrand s w _ _))

theorem bar_arrives (hr : Runs s i (.bar g) w) (h : (s.strand w).wait ≠ .barGo) (hrel : s.releaseReady w false = true) :
    Stands s i w (.bar g) .barArrived :=
  hr.standsAs rfl ((if_neg h).trans (if_pos hrel))

theorem bar_waits (hr : Runs s i (.bar g) w) (h : (s.strand w).wait ≠ .barGo) (hrel : s.releaseReady w false = false) :
    Stands s i w (.bar g) (s.strand w).wait :=
  hr.stands rfl ((if_neg h).trans (if_neg (by rw [hrel]; exact Bool.false_ne_true)))

end Bar

/-! The completion of the barriers of a core, launch by launch. -/

section Complete
variable {s : State} {c slot : Nat} {r : Resv} {w : Who}

/-- Every live thread of the launch on the core stands at its barrier, those of spilled contexts too. -/
def State.AllArrived (s : State) (c slot : Nat) : Prop :=
  s.launchThreads c slot ≠ [] ∧ (∀ x ∈ s.launchThreads c slot, x.2.wait = .barArrived) ∧
    ∀ x ∈ s.sched.spilled, x.core = c → x.task.slot = slot → x.saved.barred = true

/-- They may go on. -/
def State.letGo (s : State) (l : List (Who × Strand)) : State := l.foldl (fun s x => s.modStrand x.1 fun y => { y with wait := .barGo }) s
def State.letSpilledGo (s : State) (c slot : Nat) : State :=
  { s with sched := { s.sched with
    spilled := mapIf (fun x => x.of c slot) (fun x => { x with saved := x.saved.unbar }) s.sched.spilled } }

/-- The test of the model for it. -/
def State.barReady (s : State) (c slot : Nat) : Bool :=
  !(s.launchThreads c slot).isEmpty && ((s.launchThreads c slot).all fun x => x.2.wait == .barArrived) &&
    s.sched.spilled.all fun x => !x.of c slot || x.saved.barred

theorem Spilled.barred_iff (x : Spilled) (c slot : Nat) :
    (!x.of c slot || x.saved.barred) = true ↔ (x.core = c → x.task.slot = slot → x.saved.barred = true) := by
  rw [Spilled.of, Bool.or_eq_true, Bool.not_eq_true', ← Bool.not_eq_true, Bool.and_eq_true, beq_iff_eq, beq_iff_eq, ← imp_iff_not_or, and_imp]

theorem State.barReady_iff (s : State) (c slot : Nat) : s.barReady c slot = true ↔ s.AllArrived c slot := by
  simp only [State.barReady, State.AllArrived, Bool.and_eq_true, Bool.not_eq_true', List.isEmpty_eq_false_iff, List.all_eq_true,
    beq_iff_eq, Spilled.barred_iff, ne_eq, and_assoc]

/-- The barrier of one launch completes, if it may. -/
def completeBar (c : Nat) (s : State) (r : Resv) : State :=
  if s.barReady c r.slot then (s.letGo (s.launchThreads c r.slot)).letSpilledGo c r.slot else s

theorem completeBars_eq (c : Nat) (s : State) : completeBars c s = (s.core c).resv.foldl (completeBar c) s := rfl

theorem completeBar_arrived (h : s.AllArrived c r.slot) :
    completeBar c s r = (s.letGo (s.launchThreads c r.slot)).letSpilledGo c r.slot := if_pos ((s.barReady_iff c r.slot).mpr h)
theorem completeBar_not_arrived (h : ¬ s.AllArrived c r.slot) : completeBar c s r = s := if_neg ((s.barReady_iff c r.slot).not.mpr h)

/-- Who may go on may still do so when others may. -/
theorem State.letGo_keeps (l : List (Who × Strand)) (h : (s.strand w).wait = .barGo) : ((s.letGo l).strand w).wait = .barGo := by
  refine foldl_keeps (fun t : State => (t.strand w).wait = .barGo) _ l s h fun t x ht => ?_
  rw [State.strand_modStrand_eq]
  split
  · rfl
  · exact ht

theorem State.letGo_goes {l : List (Who × Strand)} {x : Who × Strand} (hx : x ∈ l) : ((s.letGo l).strand x.1).wait = .barGo := by
  induction l generalizing s with
  | nil => exact absurd hx List.not_mem_nil
  | cons y l ih =>
    rcases List.mem_cons.mp hx with rfl | hx
    · refine State.letGo_keeps l ?_
      rw [State.strand_modStrand_eq, if_pos rfl]
    · exact ih hx

theorem completeBar_keeps (h : (s.strand w).wait = .barGo) : ((completeBar c s r).strand w).wait = .barGo := by
  by_cases ha : s.AllArrived c r.slot
  · rw [completeBar_arrived ha]
    exact State.letGo_keeps _ h
  · rwa [completeBar_not_arrived ha]

/-- Launches whose threads have not all arrived change nothing. -/
theorem foldl_completeBar_of_none (l : List Resv) (h : ∀ r ∈ l, ¬ s.AllArrived c r.slot) : l.foldl (completeBar c) s = s := by
  induction l with
  | nil => rfl
  | cons r l ih =>
    rw [List.foldl_cons, completeBar_not_arrived (h r List.mem_cons_self)]
    exact ih fun q hq => h q (List.mem_cons_of_mem r hq)

/-- The first launch of the core all of whose threads have arrived goes on. -/
theorem completeBars_goes {pre post : List Resv} (hresv : (s.core c).resv = pre ++ r :: post)
    (hpre : ∀ q ∈ pre, ¬ s.AllArrived c q.slot) (h : s.AllArrived c r.slot) {x : Who × Strand}
    (hx : x ∈ s.launchThreads c r.slot) : ((completeBars c s).strand x.1).wait = .barGo := by
  rw [completeBars_eq, hresv, List.foldl_append, foldl_completeBar_of_none pre hpre, List.foldl_cons, completeBar_arrived h]
  exact foldl_keeps (fun t : State => (t.strand x.1).wait = .barGo) _ post _ (State.letGo_goes hx) fun t q => completeBar_keeps

end Complete

/-! ### Grid barriers (07 R175, R176) -/

section Gens
variable {gens : List Gen} {slot core e fresh : Nat} {desc : BitVec 32} {m : Gen}

/-- A generation that an arrival at the core counts in. -/
def Gen.isOpen (slot : Nat) (desc : BitVec 32) (core e : Nat) (m : Gen) : Bool :=
  m.slot == slot && m.desc == desc && m.done.isNone && decide (tblGet 0 m.arrived core < e)
/-- One more arrival at the core. -/
def Gen.arrive (core : Nat) (m : Gen) : Gen := { m with arrived := tblPut 0 m.arrived core (tblGet 0 m.arrived core + 1) }
/-- A generation with one arrival. -/
def Gen.first (fresh slot : Nat) (desc : BitVec 32) (core : Nat) : Gen := { id := fresh, slot, desc, arrived := tblPut 0 [] core 1 }

theorem arriveGen_open (h : gens.find? (Gen.isOpen slot desc core e) = some m) :
    arriveGen gens slot desc core e fresh = (mapIf (fun n => n.id == m.id) (Gen.arrive core) gens, m.id) := by
  have hfind : (gens.find? fun n => n.slot == slot && n.desc == desc && n.done.isNone && decide (tblGet 0 n.arrived core < e)) = some m := h
  simp only [arriveGen, hfind]
  rfl
theorem arriveGen_new (h : gens.find? (Gen.isOpen slot desc core e) = none) :
    arriveGen gens slot desc core e fresh = (gens ++ [Gen.first fresh slot desc core], fresh) := by
  have hfind : (gens.find? fun n => n.slot == slot && n.desc == desc && n.done.isNone && decide (tblGet 0 n.arrived core < e)) = none := h
  simp only [arriveGen, hfind]
  rfl

/-- An arrival counts toward the oldest generation that takes it, else toward a new one; generations of other numbers stay. -/
theorem arriveGen_spec (gens : List Gen) (slot : Nat) (desc : BitVec 32) (core e fresh : Nat) :
    let r := arriveGen gens slot desc core e fresh
    let oldest := gens.find? (Gen.isOpen slot desc core e)
    ∃ n ∈ r.1, n.id = r.2 ∧ n.slot = slot ∧ n.desc = desc ∧ n.done = none ∧ (∀ m ∈ gens, m.id ≠ r.2 → m ∈ r.1) ∧
      (∀ m, oldest = some m → n = m.arrive core ∧ (gens = [m] → r.1 = [n])) ∧
      (oldest = none → n = Gen.first fresh slot desc core) := by
  intro r oldest
  cases h : gens.find? (Gen.isOpen slot desc core e) with
  | none =>
    have hr : r = (gens ++ [Gen.first fresh slot desc core], fresh) := arriveGen_new h
    rw [hr]
    exact ⟨Gen.first fresh slot desc core, by simp, rfl, rfl, rfl, rfl, fun m hm _ => List.mem_append_left _ hm,
      fun m hm => absurd (h.symm.trans hm) (by simp), fun _ => rfl⟩
  | some m =>
    have hr : r = (mapIf (fun n => n.id == m.id) (Gen.arrive core) gens, m.id) := arriveGen_open h
    obtain ⟨⟨⟨hslot, hdesc⟩, hdone⟩, -⟩ : ((m.slot = slot ∧ m.desc = desc) ∧ m.done = none) ∧ tblGet 0 m.arrived core < e := by
      simpa [Gen.isOpen] using List.find?_some h
    rw [hr]
    refine ⟨m.arrive core, ?_, rfl, hslot, hdesc, hdone, fun k hk hne => ?_, fun k hk => ?_, fun hk => absurd (h.symm.trans hk) (by simp)⟩
    · exact List.mem_map.mpr ⟨m, List.mem_of_find?_eq_some h, if_pos (beq_self_eq_true _)⟩
    · exact List.mem_map.mpr ⟨k, hk, if_neg (by simpa using hne)⟩
    · obtain rfl : m = k := Option.some.inj (h.symm.trans hk)
      refine ⟨rfl, fun hg => ?_⟩
      rw [hg]
      simp [mapIf]

theorem Gen.arrived_arrive (core : Nat) (m : Gen) (c : Nat) :
    tblGet 0 (m.arrive core).arrived c = if c = core then tblGet 0 m.arrived core + 1 else tblGet 0 m.arrived c := by
  rw [Gen.arrive, tblGet_put]
theorem Gen.arrived_first (fresh slot : Nat) (desc : BitVec 32) (core c : Nat) :
    tblGet 0 (Gen.first fresh slot desc core).arrived c = if c = core then 1 else 0 := by
  rw [Gen.first, tblGet_put]
  rfl

end Gens

/-! The arrival joins the strand's generations, and its generation completes if every core of the subgroup has arrived. -/

section Arrive
variable {s u : State} {gens : List Gen} {cores : List Nat} {id e : Nat} {n : Gen}

/-- The state once an arrival has been counted: the generations, and that of the arrival among the strand's. -/
def State.joinGen (s : State) (w : Who) (desc : BitVec 32) (r : List Gen × Nat) : State :=
  { s with fresh := s.fresh + 1, sched := { s.sched with gens := r.1 } }.modStrand w fun x => { x with gens := x.gens ++ [(desc, r.2)] }

theorem State.joinGen_spec (s : State) (w : Who) (desc : BitVec 32) (r : List Gen × Nat) :
    let u := s.joinGen w desc r
    u.sched.gens = r.1 ∧ (u.strand w).gens = (s.strand w).gens ++ [(desc, r.2)] ∧ u.mem = s.mem ∧ u.cur = s.cur ∧
      ∀ v q, u.reg v q = s.reg v q := by
  refine ⟨?_, ?_, State.modStrand_mem _ w _, State.modStrand_cur _ w _, State.reg_modStrand _ w _⟩
  · obtain ⟨c, k, _ | n⟩ := w <;> rfl
  · rw [State.joinGen, State.strand_modStrand_eq, if_pos rfl]
    rfl

/-- The generation of the arrival completes where every core has arrived. -/
def State.tryComplete (s : State) (r : List Gen × Nat) (cores : List Nat) (e : Nat) : State :=
  match r.1.find? fun n => n.id == r.2 with
  | some n => if genComplete n cores e then s.completeGen r.2 cores else s
  | none => s

/-- A generation that has completed, the cores that hold a waiter to be admitted. -/
def State.completed (s : State) (id : Nat) (cores : List Nat) (n : Gen) : Gen :=
  { n with
    done := some (if s.sched.zAt = s.time + 1 then 1000 * (s.time + 1) else s.ps), origin := cores.headD 0
    waking := cores.filter fun c => s.gbarWaits c id }

/-- Two records of one generation that count the same arrivals. -/
def Gen.SameArrivals (n m : Gen) : Prop := n.id = m.id ∧ n.slot = m.slot ∧ n.desc = m.desc ∧ n.arrived = m.arrived

/-- What completion changes of the state. -/
theorem State.tryComplete_frame (s : State) (r : List Gen × Nat) (cores : List Nat) (e : Nat) :
    ∃ sched, s.tryComplete r cores e = { s with sched } := by
  unfold State.tryComplete
  split
  · split <;> exact ⟨_, rfl⟩
  · exact ⟨_, rfl⟩

theorem State.tryComplete_gens {r : List Gen × Nat} (hs : s.sched.gens = r.1) (hn : n ∈ r.1) (hid : n.id = r.2) :
    let t := s.tryComplete r cores e
    ∃ m ∈ t.sched.gens, m.SameArrivals n ∧ (∀ k ∈ r.1, k.id ≠ r.2 → k ∈ t.sched.gens) ∧
      (r.1 = [n] → n.done = none →
        (m.done.isSome = true ↔ ∀ c ∈ cores, e ≤ tblGet 0 n.arrived c) ∧ (m.done.isSome = true → ∀ c ∈ m.waking, c ∈ cores)) := by
  intro t
  obtain ⟨k, hk⟩ : ∃ k, r.1.find? (fun m => m.id == r.2) = some k :=
    Option.isSome_iff_exists.mp (List.find?_isSome.mpr ⟨n, hn, beq_iff_eq.mpr hid⟩)
  have hsingle (h : r.1 = [n]) : k = n := by
    have hmem := List.mem_of_find?_eq_some hk
    rw [h] at hmem
    exact List.mem_singleton.mp hmem
  have ht : t = if genComplete k cores e then s.completeGen r.2 cores else s := by
    simp only [t, State.tryComplete, hk]
  have hall : genComplete k cores e = true ↔ ∀ c ∈ cores, e ≤ tblGet 0 k.arrived c := by
    simp [genComplete]
  rw [ht]
  split
  · next hc =>
    have hgens : (s.completeGen r.2 cores).sched.gens = mapIf (fun m => m.id == r.2) (s.completed r.2 cores) r.1 := by
      rw [← hs]
      rfl
    rw [hgens]
    refine ⟨s.completed r.2 cores n, List.mem_map.mpr ⟨n, hn, if_pos (beq_iff_eq.mpr hid)⟩, ⟨rfl, rfl, rfl, rfl⟩,
      fun m hm hne => List.mem_map.mpr ⟨m, hm, if_neg (by simpa using hne)⟩, fun h _ => ⟨?_, fun _ c hcore => (List.mem_filter.mp hcore).1⟩⟩
    exact iff_of_true rfl (hsingle h ▸ hall.mp hc)
  · next hc =>
    rw [hs]
    refine ⟨n, hn, ⟨rfl, rfl, rfl, rfl⟩, fun m hm _ => hm, fun h hdone => ?_⟩
    have hno : ¬ n.done.isSome = true := by
      rw [hdone]
      exact Bool.false_ne_true
    exact ⟨iff_of_false hno fun ha => hc (hall.mpr (hsingle h ▸ ha)), fun hd => absurd hd hno⟩

end Arrive

theorem State.strand_dropDemand (s : State) (c : Nat) (w : Who) : (s.dropDemand c).strand w = s.strand w := by
  obtain ⟨d, k, _ | n⟩ := w
  · exact congrArg Ctx.str (State.ctx_modCore s c d k _ rfl)
  · exact congrArg (fun x : Ctx => (x.thread n).str) (State.ctx_modCore s c d k _ rfl)

section GridWords
variable {g : Guard} {a : Reg} {s : State} {i : Issue} {w : Who} {l : Launch} {cores : List Nat}

/-- What an executor's register names at a grid barrier: of a lead's, bits [31:0] (log 74). -/
def State.groupDesc (s : State) (w : Who) (a : Reg) : BitVec 32 := BitVec.ofNat 32 (s.reg w a)

theorem withGroup_legal (hl : s.launchOf w.core w.ctx = some l)
    (hcores : subgroup l w.core w.tid.isNone (s.groupDesc w a).toNat = some cores)
    (f : Launch → List Nat → BitVec 32 → State → State) : withGroup i w a f s = f l cores (s.groupDesc w a) s := by
  have hcores' : subgroup l w.core w.tid.isNone (BitVec.ofNat 32 (s.reg w a)).toNat = some cores := hcores
  simp only [withGroup, hl, hcores']
  rfl

theorem exec_gbara (hr : Runs s i (.gbara g a) w) (hl : s.launchOf w.core w.ctx = some l)
    (hcores : subgroup l w.core w.tid.isNone (s.groupDesc w a).toNat = some cores) (hrel : s.releaseReady w true = true)
    (hroom : s.groupDesc w a ∈ trackedDescs s.sched.gens (s.slotOf w.core w.ctx) w.core ∨
      (trackedDescs s.sched.gens (s.slotOf w.core w.ctx) w.core).length < 8) :
    let e := arrivalsPerCore l (s.groupDesc w a).toNat
    let r := arriveGen s.sched.gens (s.slotOf w.core w.ctx) (s.groupDesc w a) w.core e s.fresh
    exec (.gbara g a) s = .next ((s.joinGen w (s.groupDesc w a) r).tryComplete r cores e) := by
  intro e r
  refine hr.exec_eq rfl ((withGroup_legal hl hcores _).trans ?_)
  have hfull : (!(trackedDescs s.sched.gens (s.slotOf w.core w.ctx) w.core).contains (s.groupDesc w a) &&
      decide (8 ≤ (trackedDescs s.sched.gens (s.slotOf w.core w.ctx) w.core).length)) = false := by
    rcases hroom with h | h
    · simp [h]
    · simp [h]
  simp only [hrel, hfull, Bool.not_true, Bool.false_eq_true, if_false]
  rfl

theorem mem_ownGens {l : List (BitVec 32 × Nat)} {desc : BitVec 32} {id : Nat} (h : (desc, id) ∈ l) :
    (desc, id) ∈ l.filter fun x => x.1 == desc := List.mem_filter.mpr ⟨h, beq_self_eq_true desc⟩

/-- A wait at a grid barrier goes on as an acquire where every generation of its descriptor has passed; it waits where one has not. -/
theorem exec_gbarw_passed {id : Nat} (hr : Runs s i (.gbarw g a) w) (hl : s.launchOf w.core w.ctx = some l)
    (hcores : subgroup l w.core w.tid.isNone (s.groupDesc w a).toNat = some cores) (hid : (s.groupDesc w a, id) ∈ (s.strand w).gens)
    (h : ∀ id, (s.groupDesc w a, id) ∈ (s.strand w).gens → s.genPassed w.core id = true) :
    exec (.gbarw g a) s = .next ((s.modStrand w fun x => { x with
      wait := .none, gens := x.gens.filter fun y => y.1 != s.groupDesc w a }).dropDemand w.core) := by
  refine hr.exec_eq rfl ((withGroup_legal hl hcores _).trans ?_)
  have hmine := List.isEmpty_eq_false_iff.mpr (List.ne_nil_of_mem (mem_ownGens hid))
  have hall : (((s.strand w).gens.filter fun x => x.1 == s.groupDesc w a).all fun x => s.genPassed w.core x.2) = true := by
    refine List.all_eq_true.mpr fun x hx => h x.2 ?_
    obtain ⟨hmem, hdesc⟩ := List.mem_filter.mp hx
    rw [← beq_iff_eq.mp hdesc]
    exact hmem
  simp only [hmine, hall, Bool.false_eq_true, if_false, if_true]
  rfl

theorem gbarw_waits {id : Nat} (hr : Runs s i (.gbarw g a) w) (hl : s.launchOf w.core w.ctx = some l)
    (hcores : subgroup l w.core w.tid.isNone (s.groupDesc w a).toNat = some cores) (hid : (s.groupDesc w a, id) ∈ (s.strand w).gens)
    (h : s.genPassed w.core id = false) : Stands s i w (.gbarw g a) (.gbar (s.groupDesc w a)) := by
  refine hr.standsAs rfl ((withGroup_legal hl hcores _).trans ?_)
  have hmine := List.isEmpty_eq_false_iff.mpr (List.ne_nil_of_mem (mem_ownGens hid))
  have hall : (((s.strand w).gens.filter fun x => x.1 == s.groupDesc w a).all fun x => s.genPassed w.core x.2) = false :=
    List.all_eq_false.mpr ⟨_, mem_ownGens hid, by rw [h]; exact Bool.false_ne_true⟩
  simp only [hmine, hall, Bool.false_eq_true, if_false]

end GridWords

/-- Settles O24: BAR by its three branches, the completion launch by launch; an arrival is `arriveGen`, then `tryComplete`. -/
theorem barriers : Obligations.Barriers := by
  intro g a s i w desc slot waits
  refine ⟨fun hr => ⟨exec_bar_go hr, fun _ => bar_arrives hr, fun _ => bar_waits hr⟩,
    ⟨fun pre r post hresv hpre h x hx => completeBars_goes hresv hpre h hx, foldl_completeBar_of_none _⟩,
    fun l cores hr _ hl hcores hrel hroom => ?_,
    fun l cores hr _ hl hcores hsome => ⟨fun h => ?_, fun id hid h => gbarw_waits hr hl hcores hid h⟩⟩
  · intro e oldest
    obtain ⟨n, hn, hid, hslot, hdesc, hdone, hstay, hopen, hnew⟩ := arriveGen_spec s.sched.gens slot desc w.core e s.fresh
    generalize hR : arriveGen s.sched.gens slot desc w.core e s.fresh = r at hn hid hstay hopen
    obtain ⟨hgens, hstrand, hmem, hcur, hregs⟩ := s.joinGen_spec w desc r
    obtain ⟨m, hm, ⟨hmid, hmslot, hmdesc, harrived⟩, hkept, hcomplete⟩ :=
      State.tryComplete_gens (cores := cores) (e := e) hgens hn hid
    obtain ⟨sched, hframe⟩ := (s.joinGen w desc r).tryComplete_frame r cores e
    have hexec : exec (.gbara g a) s = .next ((s.joinGen w desc r).tryComplete r cores e) := hR ▸ exec_gbara hr hl hcores hrel hroom
    have hmr : m.id = r.2 := hmid.trans hid
    refine ⟨_, m, hexec, hm, hmslot.trans hslot, hmdesc.trans hdesc, ?_, fun k hk => ?_, fun hnone => ?_,
      fun k hk hne => hkept k (hstay k hk (hmr ▸ hne)) (hmr ▸ hne), fun k hsingle hk => ?_, ?_⟩
    · rw [hframe, hmr]
      exact hstrand
    · obtain ⟨rfl, -⟩ := hopen k hk
      rw [hmid, harrived]
      exact ⟨rfl, (Gen.arrived_arrive ..).trans (if_pos rfl), fun c hc => (Gen.arrived_arrive ..).trans (if_neg hc)⟩
    · obtain rfl := hnew hnone
      rw [hmid, harrived]
      exact ⟨rfl, (Gen.arrived_first ..).trans (if_pos rfl), fun c hc => (Gen.arrived_first ..).trans (if_neg hc)⟩
    · rw [harrived]
      exact hcomplete ((hopen k hk).2 hsingle) hdone
    · rw [hframe]
      exact ⟨hmem, hcur, hregs⟩
  · obtain ⟨id, hid⟩ := hsome
    refine ⟨_, exec_gbarw_passed hr hl hcores hid h, ?_, fun x => ?_, fun x hx => ?_, State.modStrand_mem s w _, State.modStrand_cur s w _⟩
    · rw [State.strand_dropDemand, State.strand_modStrand_eq, if_pos rfl]
    · rw [State.strand_dropDemand, State.strand_modStrand_eq, if_pos rfl]
      simp [desc, State.groupDesc]
    · rw [State.dropDemand, State.modCore_core] at hx
      exact (List.mem_filter.mp hx).2

end Sys2Proof.Machine
end

section
namespace Sys2Proof.Machine

/-! ### One arrival at a sound word (07 R178) -/

/-- An arrival word of sound fields: phase, arrivals and bytes owed, and the half that it reloads. -/
def arrivalWord (phase : Bool) (arrivals bytes reload : Nat) : Nat :=
  (if phase then 2 ^ 63 else 0) + arrivals * 2 ^ 32 + bytes + reload * 2 ^ 64

section Word
variable {phase : Bool} {arrivals bytes reload v n : Nat}

theorem arrivalWord_lt (ha : arrivals < 2 ^ 16) (hb : bytes < 2 ^ 32) (hr : reload < 2 ^ 64) :
    arrivalWord phase arrivals bytes reload < 2 ^ 128 := by
  unfold arrivalWord
  split <;> omega

theorem arrivalWord_fields (ha : arrivals < 2 ^ 16) (hb : bytes < 2 ^ 32) (hr : reload < 2 ^ 64) :
    let u := arrivalWord phase arrivals bytes reload
    bitsOf u 64 64 = reload ∧ bitsOf u 32 16 = arrivals ∧ bitsOf u 0 32 = bytes ∧ u.testBit 62 = false ∧ u.testBit 63 = phase := by
  simp only [bitsOf_eq, Nat.testBit_eq_decide_div_mod_eq, arrivalWord]
  cases phase
  · simp only [Bool.false_eq_true, if_false, decide_eq_false_iff_not]
    omega
  · simp only [if_true, decide_eq_true_eq, decide_eq_false_iff_not]
    omega

theorem awSound_iff : awSound v = true ↔ bitsOf v 48 14 = 0 ∧ bitsOf v 112 16 = 0 ∧ v.testBit 62 = false := by
  simp [awSound, bitOf_testBit, and_assoc]

/-- The arrivals that a sound word is owed are counted off; the last of them, with no bytes owed, turns the phase and reloads. -/
theorem awArrive_sound (hv : v < 2 ^ 128) (hs : awSound v = true) (hn : n ≤ bitsOf v 32 16) :
    awArrive v n 0 = if n = bitsOf v 32 16 ∧ bitsOf v 0 32 = 0
      then arrivalWord (!v.testBit 63) (bitsOf v 96 16) (bitsOf v 64 32) (v / 2 ^ 64)
      else arrivalWord (v.testBit 63) (bitsOf v 32 16 - n) (bitsOf v 0 32) (v / 2 ^ 64) := by
  obtain ⟨hzero, -, hovr⟩ := awSound_iff.mp hs
  have hreload : v / 2 ^ 64 % 2 ^ 64 = v / 2 ^ 64 := Nat.mod_eq_of_lt (by omega)
  have hexcess : (decide (bitsOf v 32 16 < n) || decide (bitsOf v 0 32 < 0)) = false := by simp [hn]
  have hflip : (bitsOf v 32 16 - n == 0 && bitsOf v 0 32 == 0) = decide (n = bitsOf v 32 16 ∧ bitsOf v 0 32 = 0) := by
    rw [Bool.eq_iff_iff, Bool.and_eq_true, beq_iff_eq, beq_iff_eq, decide_eq_true_eq]
    omega
  simp only [awArrive, Nat.min_eq_left hn, Nat.zero_min, Nat.sub_zero, hexcess, hflip, bitOf_testBit, hovr, hzero, hreload]
  by_cases hlast : n = bitsOf v 32 16 ∧ bitsOf v 0 32 = 0
  · rw [if_pos hlast, decide_eq_true hlast]
    simp [arrivalWord]
  · rw [if_neg hlast, decide_eq_false hlast]
    simp [arrivalWord]

end Word

/-- Settles O26: the word after an arrival is put together from its fields, which read back. -/
theorem arrivalCounts : Obligations.ArrivalCounts := by
  intro v n hv hs hpos hn u
  have hfield (lo len : Nat) : bitsOf v lo len < 2 ^ len := by
    rw [bitsOf_eq]
    exact Nat.mod_lt _ (Nat.two_pow_pos _)
  have hreload : v / 2 ^ 64 < 2 ^ 64 := by omega
  have hhigh : bitsOf v 64 64 = v / 2 ^ 64 := by
    rw [bitsOf_eq]
    exact Nat.mod_eq_of_lt hreload
  have hu : u = _ := awArrive_sound hv hs hn
  by_cases hlast : n = bitsOf v 32 16 ∧ bitsOf v 0 32 = 0
  · rw [if_pos hlast] at hu
    obtain ⟨hrel, harr, hbyt, hovr, hphase⟩ := arrivalWord_fields (phase := !v.testBit 63) (hfield 96 16) (hfield 64 32) hreload
    rw [hu]
    exact ⟨hrel.trans hhigh.symm, arrivalWord_lt (hfield 96 16) (hfield 64 32) hreload, hovr,
      fun h => absurd hlast (by omega), fun _ => ⟨harr, hbyt, hphase⟩⟩
  · rw [if_neg hlast] at hu
    have harrivals : bitsOf v 32 16 - n < 2 ^ 16 := (Nat.sub_le _ _).trans_lt (hfield 32 16)
    obtain ⟨hrel, harr, hbyt, hovr, hphase⟩ := arrivalWord_fields (phase := v.testBit 63) harrivals (hfield 0 32) hreload
    rw [hu]
    exact ⟨hrel.trans hhigh.symm, arrivalWord_lt harrivals (hfield 0 32) hreload, hovr, fun _ => ⟨harr, hbyt, hphase⟩,
      fun h => absurd h hlast⟩

/-! ### Words that use an arrival word (07 R178 to R181) -/

section Words
variable {g : Guard} {d a r : Reg} {h : BitVec 1} {k : F6} {s : State} {i : Issue} {w : Who} {x : Instr} {o : Nat}

/-- The register names an arrival word in the window, and no acquire of the executor is outstanding. -/
def State.NamesWord (s : State) (w : Who) (r : Reg) (o : Nat) : Prop :=
  s.reg w r % 2 ^ 22 = o ∧ o % 16 = 0 ∧ o + 16 ≤ s.smemSize w.core w.ctx ∧ s.acquiring w = false

/-- The word that stands there. -/
def State.wordAt (s : State) (w : Who) (o : Nat) : Nat := s.smemRead w.core (s.slotOf w.core w.ctx) o 16

theorem awAccess_reaches (h : s.NamesWord w r o) (f : Nat → State → State) : awAccess i w r f s = f o s := by
  obtain ⟨ho, ha, hw, hq⟩ := h
  exact smemAccess_reaches hq ((smemAddr_none s w r 16).trans (congrArg _ ho)) ha hw f

/-- The misuse of a word is cause 7 with its offset. -/
theorem Runs.misuses {f : Issue → Who → State → State} (hr : Runs s i x w) (ha : Alive s w) (hx : exec x s = eachExec x.guard f s)
    (hf : f i w s = trapArrival i w (BitVec.ofNat 64 o) s) : Traps s i w x 7 (BitVec.ofNat 64 o) :=
  hr.traps ha hx hf (by decide)

theorem awinit_spec (hr : Runs s i (.awinit g d a) w) (hd : s.NamesWord w d o) :
    let arr := (s.regs2 w a).2.toNat
    let byt := (s.regs2 w a).1.toNat
    let half := arr * 2 ^ 32 + byt
    (arr < 65536 → (arr ≠ 0 ∨ byt ≠ 0) →
      exec (.awinit g d a) s = .next (s.smemWrite w.core (s.slotOf w.core w.ctx) o 16 (half + half * 2 ^ 64))) ∧
    (Alive s w → (65536 ≤ arr ∨ (arr = 0 ∧ byt = 0)) → Traps s i w (.awinit g d a) 7 (BitVec.ofNat 64 o)) := by
  intro arr byt half
  have hbyt : (s.regs2 w a).1 = 0#32 ↔ byt = 0 := BitVec.toNat_inj.symm
  refine ⟨fun harr hsome => hr.exec_eq rfl ((awAccess_reaches hd _).trans (if_neg ?_)),
    fun ha hbad => hr.misuses ha rfl ((awAccess_reaches hd _).trans (if_pos ?_))⟩
  · rw [hbyt]
    omega
  · rwa [hbyt]

theorem awadd_spec (hr : Runs s i (.awadd g d a) w) (hd : s.NamesWord w d o) (hrel : s.releaseReady w false = true) :
    let bad := s.reg w a = 0 ∨ 65536 ≤ s.reg w a ∨ bitsOf (s.wordAt w o) 32 16 < s.reg w a ∨ awSound (s.wordAt w o) = false
    (¬ bad → exec (.awadd g d a) s =
      .next ((s.released w).smemWrite w.core (s.slotOf w.core w.ctx) o 16 (awArrive (s.wordAt w o) (s.reg w a) 0))) ∧
    (Alive s w → bad → Traps s i w (.awadd g d a) 7 (BitVec.ofNat 64 o)) := by
  intro bad
  have hready : ¬ (!s.releaseReady w false) = true := by simp [hrel]
  have hbad : (s.reg w a = 0 ∨ 65536 ≤ s.reg w a ∨ bitsOf (s.wordAt w o) 32 16 < s.reg w a ∨ (!awSound (s.wordAt w o)) = true) ↔ bad := by
    simp only [bad, Bool.not_eq_true']
  refine ⟨fun hgood => hr.exec_eq rfl ((if_neg hready).trans ((awAccess_reaches hd _).trans (if_neg (hbad.not.mpr hgood)))),
    fun ha h => hr.misuses ha rfl ((if_neg hready).trans ((awAccess_reaches hd _).trans (if_pos (hbad.mpr h))))⟩

/-- A word that looks at an arrival word goes on where it is sound, and is misused where it is not. -/
theorem exec_looks (f : Who → Nat → State → State)
    (hx : exec x s = eachExec x.guard (fun i w st => awAccess i w r (fun o u =>
      if !awSound (u.wordAt w o) then trapArrival i w (BitVec.ofNat 64 o) u else f w o u) st) s)
    (hr : Runs s i x w) (hd : s.NamesWord w r o) :
    (awSound (s.wordAt w o) = true → exec x s = .next (f w o s)) ∧
    (Alive s w → awSound (s.wordAt w o) = false → Traps s i w x 7 (BitVec.ofNat 64 o)) :=
  ⟨fun hs => hr.exec_eq hx ((awAccess_reaches hd _).trans (if_neg (by simp [hs]))),
    fun ha hs => hr.misuses ha hx ((awAccess_reaches hd _).trans (if_pos (by simp [hs])))⟩

theorem awwait_spec (hr : Runs s i (.awwait g d h) w) (hd : s.NamesWord w d o) :
    (awSound (s.wordAt w o) = true →
      exec (.awwait g d h) s = .next (waitUnless (awPhase (s.wordAt w o) == (h == 1#1)) w id s)) ∧
    (Alive s w → awSound (s.wordAt w o) = false → Traps s i w (.awwait g d h) 7 (BitVec.ofNat 64 o)) :=
  exec_looks (fun w o u => waitUnless (awPhase (u.wordAt w o) == (h == 1#1)) w id u) rfl hr hd

theorem awtest_spec (hr : Runs s i (.awtest g k a) w) (hd : s.NamesWord w a o) :
    (awSound (s.wordAt w o) = true → exec (.awtest g k a) s = .next (s.setPred w k.toNat (awPhase (s.wordAt w o)))) ∧
    (Alive s w → awSound (s.wordAt w o) = false → Traps s i w (.awtest g k a) 7 (BitVec.ofNat 64 o)) :=
  exec_looks (fun w o u => u.setPred w k.toNat (awPhase (u.wordAt w o))) rfl hr hd

end Words

/-- Settles O25: each word by what it does at the arrival word that its register names. -/
theorem arrivalWords : Obligations.ArrivalWords := by
  intro g d a h k s i w o slot at_ v arr byt half
  have hphase : awPhase v = v.testBit 63 := bitOf_testBit v 63
  refine ⟨fun hr hd => (awinit_spec hr hd).1, fun hr hd hrel hs hpos hle => ?_, fun hr hd hs heq => ?_, fun hr hd hs hne => ?_,
    fun hr hd hs => ?_, fun hr ha hd => (awinit_spec hr hd).2 ha, fun hrel hr ha hd => (awadd_spec hr hd hrel).2 ha,
    fun hr ha hd => (awwait_spec hr hd).2 ha, fun hr ha hd => (awtest_spec hr hd).2 ha⟩
  · have hlt : bitsOf v 32 16 < 65536 := by
      rw [bitsOf_eq]
      exact Nat.mod_lt _ (by decide)
    refine (awadd_spec hr hd hrel).1 ?_
    rintro (hzero | hbig | hmore | hunsound)
    · exact absurd hzero hpos.ne'
    · exact absurd (hbig.trans hle) hlt.not_ge
    · exact absurd hle hmore.not_ge
    · exact absurd (hs.symm.trans hunsound) (by decide)
  · exact ((awwait_spec hr hd).1 hs).trans (congrArg _ (if_pos (beq_iff_eq.mpr (hphase.trans heq))))
  · have hphase' : ¬ (awPhase v == (h == 1#1)) = true := fun e => hne (hphase.symm.trans (beq_iff_eq.mp e))
    exact ((awwait_spec hr hd).1 hs).trans (congrArg _ ((if_neg hphase').trans (markWait_spec w s i hr.1.1)))
  · rw [← hphase]
    exact (awtest_spec hr hd).1 hs

end Sys2Proof.Machine
end

section
namespace Sys2Proof.Machine

/-! ### Commands that an engine takes (08 R182 to R184) -/

section Commands
variable {s : State} {i : Issue} {w : Who} {a : Reg} {align size o : Nat}

/-- The register names a block of the window whose bytes the command reads, and no acquire of the executor is outstanding. -/
def State.NamesBlock (s : State) (w : Who) (a : Reg) (align size o : Nat) : Prop :=
  s.reg w a % 2 ^ 22 = o ∧ o % align = 0 ∧ o + size ≤ s.smemSize w.core w.ctx ∧ s.acquiring w = false

/-- The engine must see nothing more of the executor's, and the counter of the operation's class has room. -/
def State.HasRoom (s : State) (w : Who) (k : OpKind) : Prop :=
  s.engineSees w = true ∧ ∀ c, opClass k = some c → s.opCount w c < 63

/-- A command whose descriptor passes its checks goes on with it. -/
theorem command_reaches (h : s.NamesBlock w a align size o) (check : Nat → State → EngCheck) (go : Nat → State → State)
    (hc : (check (readBytes i.seen o size) s).passes (s.smemSize w.core w.ctx)) :
    withDesc i w a align size (fun d st => checked i w (check d st) (go d) st) s = go (readBytes i.seen o size) s := by
  obtain ⟨ho, halign, hwindow, hacq⟩ := h
  exact (withDesc_reaches hacq ho halign hwindow _).trans (checked_passes hc _)

theorem OnlyBoundaries.wakeLender (s : State) (c : Nat) : OnlyBoundaries s (s.wakeLender c) := by
  unfold State.wakeLender
  dsimp only
  split
  · exact OnlyBoundaries.trans ⟨s.ctl, _, s.sched.ages, s.sched.agedAt, rfl⟩ (.regrant _)
  · exact .refl s

/-- The waking of a lender tells nothing of who issues: the operation bears what stood before it. -/
theorem State.joinOps_eq (s : State) (w : Who) (op : Op) : s.joinOps w op =
    ({ s.wakeLender w.core with fresh := (s.wakeLender w.core).fresh + 1 }.modCore w.core fun co => { co with
      ops := co.ops ++ [{ op with
        id := (s.wakeLender w.core).fresh, who := w, slot := s.slotOf w.core w.ctx, win := s.slotOf w.core w.ctx
        part := s.partOf w.core w.ctx, user := !s.privileged w
        mxe := ((s.launchOf w.core w.ctx).map Launch.mxe).getD false, pair := co.mx.pair, epoch := co.mx.epoch
        books := w.ctx }] }).startMatrix w.core := by
  obtain ⟨ctl, power, ages, agedAt, hwake⟩ := OnlyBoundaries.wakeLender s w.core
  unfold State.joinOps
  rw [hwake]
  rfl

theorem State.startMatrix_length (s : State) (c d : Nat) : ((s.startMatrix c).core d).ops.length = (s.core d).ops.length := by
  simp only [State.startMatrix, State.turnMx, State.modMx, State.core_modCore]
  split
  · next h => simp only [h, if_true, mapIf, List.length_map]
  · rfl

theorem State.startMatrix_ctx (s : State) (c d k : Nat) : (s.startMatrix c).ctx d k = s.ctx d k :=
  (State.ctx_modCore _ c d k _ rfl).trans (State.ctx_modCore s c d k _ rfl)

theorem State.wakeLender_cores (s : State) (c : Nat) : (s.wakeLender c).cores = s.cores := by
  obtain ⟨_, _, _, _, hwake⟩ := OnlyBoundaries.wakeLender s c
  rw [hwake]

theorem State.joinOps_length (s : State) (w : Who) (op : Op) :
    ((s.joinOps w op).core w.core).ops.length = (s.core w.core).ops.length + 1 := by
  simp only [State.joinOps, State.startMatrix_length, State.modCore_core, List.length_append, List.length_singleton]
  exact congrArg (fun cores => (tblGet {} cores w.core : Core).ops.length + 1) (s.wakeLender_cores w.core)

theorem State.joinOps_ctx (s : State) (w : Who) (op : Op) (d k : Nat) : (s.joinOps w op).ctx d k = s.ctx d k := by
  refine (State.startMatrix_ctx _ _ d k).trans ((State.ctx_modCore _ _ d k _ rfl).trans ?_)
  exact congrArg (fun cores => tblGet {} (tblGet {} cores d : Core).ctxs k) (s.wakeLender_cores w.core)

/-- What follows an acceptance follows where the operation has joined. -/
theorem accept_then {full : Bool} {op : Op} (hroom : s.HasRoom w op.kind) (hfull : full = false) (f : State → State) :
    (let r := accept w full op s
     if (r.core w.core).ops.length = (s.core w.core).ops.length then r else f r) = f (s.joinOps w op) := by
  dsimp only
  rw [accept_joins hroom.2 hroom.1 hfull, if_neg (by rw [State.joinOps_length]; omega)]

/-- A copy or a gather that joins clears its status block. -/
theorem acceptWithStatus_joins {full : Bool} {op : Op} (stat : Nat) (hroom : s.HasRoom w op.kind) (hfull : full = false) :
    acceptWithStatus w full stat op s = (s.joinOps w op).smemWrite w.core (s.slotOf w.core w.ctx) stat 16 0 := by
  refine (accept_then hroom hfull fun r => r.smemWrite w.core (r.slotOf w.core w.ctx) stat 16 0).trans ?_
  have hslot : (s.joinOps w op).slotOf w.core w.ctx = s.slotOf w.core w.ctx := by rw [State.slotOf, State.joinOps_ctx]; rfl
  rw [hslot]

/-- A command that its engine has room for joins the core's operations. -/
theorem exec_takes {x : Instr} (hr : Runs s i x w) (h : s.NamesBlock w a align size o)
    (check : Who → Nat → State → EngCheck) (full : Who → State → Bool) (op : Who → Nat → State → Op)
    (hx : exec x s = eachExec x.guard (fun i w st => withDesc i w a align size (fun d st =>
      checked i w (check w d st) (fun st => accept w (full w st) (op w d st) st) st) st) s)
    (hc : (check w (readBytes i.seen o size) s).passes (s.smemSize w.core w.ctx)) (hfull : full w s = false)
    (hroom : s.HasRoom w (op w (readBytes i.seen o size) s).kind) :
    exec x s = .next (s.joinOps w (op w (readBytes i.seen o size) s)) :=
  hr.exec_eq hx ((command_reaches h (check w) (fun d st => accept w (full w st) (op w d st) st) hc).trans
    (accept_joins hroom.2 hroom.1 hfull))

/-- A draw of a context whose queue is neither closing nor closed goes by its descriptor's checks alone. -/
theorem exec_draws {x : Instr} {ez : Bool} (hr : Runs s i x w) (h : s.NamesBlock w a 64 64 o) (hx : exec x s = issueDraw ez x.guard a s)
    (hclosing : (s.ctx w.core w.ctx).closing = false) (hclosed : (s.ctx w.core w.ctx).closed = false)
    (hc : (drawCheck (readBytes i.seen o 64)).passes (s.smemSize w.core w.ctx))
    (hfull : decide (8 ≤ s.drawsHeld (coreDie w.core)) = false) (hroom : s.HasRoom w (.draw ez)) :
    exec x s = .next (s.joinOps w (s.newDraw w ez (readBytes i.seen o 64))) := by
  obtain ⟨hranges, haligned, hlegal⟩ := hc
  refine exec_takes hr h (fun w d st => { drawCheck d with
      illegal := (drawCheck d).illegal || (st.ctx w.core w.ctx).closing || (st.ctx w.core w.ctx).closed })
    (fun w st => 8 ≤ st.drawsHeld (coreDie w.core)) (fun w d st => st.newDraw w ez d) hx ⟨hranges, haligned, ?_⟩ hfull hroom
  dsimp only
  rw [hlegal, hclosing, hclosed]
  rfl

/-- A command of the queue of rays, overlaps and refits. -/
theorem exec_queries {x : Instr} {k : OpKind} (hr : Runs s i x w) (h : s.NamesBlock w a align size o) (check : Nat → EngCheck)
    (hx : exec x s = eachExec x.guard (fun i w st => withDesc i w a align size (fun d st =>
      checked i w (check d) (fun st => accept w (128 ≤ st.heldOps w.core isRayQueue) (newOp w k d) st) st) st) s)
    (hc : (check (readBytes i.seen o size)).passes (s.smemSize w.core w.ctx))
    (hfull : decide (128 ≤ s.heldOps w.core isRayQueue) = false) (hroom : s.HasRoom w k) :
    exec x s = .next (s.joinOps w (newOp w k (readBytes i.seen o size))) :=
  exec_takes hr h (fun _ d _ => check d) (fun w st => 128 ≤ st.heldOps w.core isRayQueue) (fun w d _ => newOp w k d) hx hc hfull hroom

end Commands

/-- Settles O27: each command goes through its descriptor's checks to its acceptance, and a copy or gather on to its status block. -/
theorem engineCommandsAccepted : Obligations.EngineCommandsAccepted := by
  intro g a e n s i w o slot desc at_ room u joins takes
  have hjoins (op : Op) : s.joinOps w op = joins op := s.joinOps_eq w op
  refine ⟨fun tag hr hat hc hheld hroom => ?_, fun hr hat hc hheld hroom => ?_, fun hr hat hc hheld hroom => ?_,
    fun hr hat hc hheld hroom => ?_, fun hr hat hc hheld hroom => ?_, fun hr hat hc hheld hroom => ?_,
    fun hclosing hclosed => ⟨fun hr hat hc hheld hroom => ?_, fun hr hat hc hheld hroom => ?_⟩, fun hr hat hroom hheld => ?_⟩
  · have hstat := acceptWithStatus_joins (op := newOp w (.copy tag) (desc 64)) (copyStat (desc 64)) hroom
      (decide_eq_false (not_le.mpr hheld))
    rw [← hjoins, ← hstat]
    cases tag <;> exact hr.exec_eq rfl (command_reaches hat (fun d st => st.copyCheck w _ d)
      (fun d st => acceptWithStatus w (64 ≤ st.heldOps w.core isCopy) (copyStat d) (newOp w (.copy _) d) st) hc)
  · have hstat := acceptWithStatus_joins (op := newOp w (.gather (gathSize e)) (desc 32)) (gathStat (desc 32)) hroom
      (decide_eq_false (not_le.mpr hheld))
    rw [← hjoins, ← hstat]
    exact hr.exec_eq rfl (command_reaches hat (fun d _ => gathCheck (gathSize e) d)
      (fun d st => acceptWithStatus w (32 ≤ st.heldOps w.core isGather) (gathStat d) (newOp w (.gather (gathSize e)) d) st) hc)
  · exact (exec_queries hr hat rayCheck rfl hc hheld hroom).trans (congrArg _ (hjoins _))
  · exact (exec_queries hr hat rayCheck rfl hc hheld hroom).trans (congrArg _ (hjoins _))
  · exact (exec_queries hr hat ovlpCheck rfl hc hheld hroom).trans (congrArg _ (hjoins _))
  · exact (exec_queries hr hat refitCheck rfl hc hheld hroom).trans (congrArg _ (hjoins _))
  · exact (exec_draws hr hat rfl hclosing hclosed hc hheld hroom).trans (congrArg _ (hjoins _))
  · exact (exec_draws hr hat rfl hclosing hclosed hc hheld hroom).trans (congrArg _ (hjoins _))
  · obtain ⟨ho, halign, hwindow, hacq⟩ := hat
    rw [← hjoins]
    refine hr.exec_eq rfl ((smemAccess_reaches hacq ((smemAddr_none s w a 1).trans (congrArg _ ho)) halign hwindow _).trans
      (accept_joins hroom.2 hroom.1 ?_))
    split at hheld
    · next hmxe => exact (if_pos hmxe).trans (decide_eq_false (not_le.mpr hheld))
    · next hmxe => exact (if_neg hmxe).trans (decide_eq_false (not_le.mpr hheld))

/-! ### Matrix commands of the holder of the needle (08 R195 to R205) -/

theorem withNeedle_holds {s : State} {w : Who} (h : s.holdsNeedle w = true) (i : Issue) (f : State → State) : withNeedle i w f s = f s :=
  if_pos h

/-- The commit of a bundle with an MXCFG, and without a yield, changes the pair alone. -/
theorem State.finishIssue_mxcfg {s : State} {i : Issue} {p : Nat} (h : s.cur = some i) (hp : i.mxcfg = some p) {b : Bundle}
    (hb : b.yield = false) : s.finishIssue b none =
      ({ s with cur := none } : State).modMx i.core fun m => { m with pair := p, latched := none, fmtAcc := none } := by
  simp only [State.finishIssue, h, hp, hb, Bool.false_and, Bool.false_eq_true, if_false]

/-- A command of the matrix queue, which counts in class 2, has room there. -/
theorem State.HasRoom.matrix {s : State} {w : Who} {k : OpKind} (hk : opClass k = some 2) (hsees : s.engineSees w = true)
    (hcount : s.opCount w 2 < 63) : s.HasRoom w k :=
  ⟨hsees, fun c hc => by rwa [← Option.some.inj (hk.symm.trans hc)]⟩

/-- Settles O28: the holder of the needle passes that check, and each command goes on to what it does at issue. -/
theorem matrixCommands : Obligations.MatrixCommands := by
  refine ⟨?_, ?_⟩
  · intro g a s i w o slot mx desc at_ room u joins hneedle
    have hjoins (op : Op) : s.joinOps w op = joins op := s.joinOps_eq w op
    refine ⟨fun hr hpair hnone => ⟨fun hsame => ?_, fun hother => ⟨?_, fun b hb => ?_⟩⟩, fun hr hlow hhigh hsees hheld => ?_,
      fun hr hat hc hroom => ?_, fun hr hat hc hroom => ?_, fun hr hdone => ?_, fun hr => ?_, fun hr => ?_⟩
    · exact hr.exec_eq rfl ((withNeedle_holds hneedle i _).trans ((if_neg hpair.not_ge).trans (if_pos hsame)))
    · refine hr.exec_eq rfl ((withNeedle_holds hneedle i _).trans ((if_neg hpair.not_ge).trans
        ((if_neg hother).trans ((if_neg (by rw [hnone]; decide)).trans ?_))))
      rw [hr.1.1]
      rfl
    · exact State.finishIssue_mxcfg (i := { i with mxcfg := some (s.reg w a % 8) }) rfl rfl hb
    · rw [← hjoins]
      refine hr.exec_eq rfl ((withNeedle_holds hneedle i _).trans ((if_neg (by omega)).trans ?_))
      exact accept_then (op := newOp w .mxshape (s.reg w a)) ⟨hsees, nofun⟩
        (decide_eq_false (not_le.mpr hheld)) fun r => r.modMx w.core fun m => { m with shapeAcc := s.reg w a }
    · obtain ⟨hsees, hcount, hheld⟩ := hroom
      rw [← hjoins]
      refine hr.exec_eq rfl ((withNeedle_holds hneedle i _).trans
        ((command_reaches hat (fun d st => ldwCheck (st.core w.core).mx.pair d) _ hc).trans ?_))
      exact accept_then (op := newOp w .mxldw (desc 16)) (.matrix rfl hsees hcount)
        (decide_eq_false (not_le.mpr hheld)) fun r => r.modMx w.core fun m => { m with fmtAcc := some (ldwFmt (desc 16)) }
    · obtain ⟨hsees, hcount, hheld⟩ := hroom
      rw [← hjoins]
      refine hr.exec_eq rfl ((withNeedle_holds hneedle i _).trans
        ((command_reaches hat (fun d st => mxqCheck (st.core w.core).mx d) _ hc).trans ?_))
      exact accept_joins (State.HasRoom.matrix rfl hsees hcount).2 hsees (decide_eq_false (not_le.mpr hheld))
    · refine hr.exec_eq rfl ((withNeedle_holds hneedle i _).trans (if_pos (List.all_eq_true.mpr fun op hop => ?_)))
      cases hq : op.queued with
      | false => rfl
      | true => rcases hdone op hop hq with h | h <;> simp [h]
    · exact hr.exec_eq rfl (if_pos hneedle)
    · refine hr.exec_eq rfl ((withNeedle_holds hneedle i _).trans ?_)
      rw [hr.1.1]
      rfl
  · intro g d a s i w o
    refine ⟨fun hr ho halign hwindow hacq => ?_, fun hr => hr.exec_eq rfl rfl⟩
    exact hr.exec_eq rfl (smemAccess_reaches hacq ((smemAddr_none s w a 1).trans (congrArg _ ho)) halign hwindow _)

end Sys2Proof.Machine
end

section
namespace Sys2Proof.Machine

/-! ### Operations that are looked up and changed -/

section Ops
variable {s : State} {c id : Nat} {o : Op}

theorem Core.findOp_id {co : Core} (h : co.findOp id = some o) : o.id = id := by
  simpa using List.find?_some h

theorem State.workingOp_find (h : s.workingOp c id = some o) : (s.core c).findOp id = some o := by
  unfold State.workingOp at h
  split at h
  · next p hp =>
    split at h
    · rwa [Option.some.inj h] at hp
    · cases h
  · cases h

theorem State.workingOp_id (h : s.workingOp c id = some o) : o.id = id := Core.findOp_id (State.workingOp_find h)

/-- A change of an operation that leaves its number is what is found there afterwards. -/
theorem State.modOp_findOp {f : Op → Op} (h : (s.core c).findOp id = some o) (hf : ∀ x, x.id = id → (f x).id = id) :
    ((s.modOp c id f).core c).findOp id = some (f o) := by
  have hkeeps : ((fun x : Op => x.id == id) ∘ fun x => if x.id == id then f x else x) = fun x => x.id == id := by
    funext x
    by_cases hx : x.id = id
    · simp [hx, hf x hx]
    · simp [hx]
  simp only [Core.findOp] at h
  rw [State.modOp, State.modCore_core, Core.findOp, mapIf, List.find?_map, hkeeps, h, Option.map_some, Core.findOp_id h, beq_self_eq_true,
    if_pos rfl]

theorem State.smemWrite_ops (s : State) (k slot off n v c : Nat) : ((s.smemWrite k slot off n v).core c).ops = (s.core c).ops := by
  rw [State.smemWrite, State.core_modCore]
  split
  · next h => rw [h]; rfl
  · rfl

theorem State.arrive_ops (s : State) (k slot off n c : Nat) : ((s.arrive k slot off n).core c).ops = (s.core c).ops := by
  unfold State.arrive
  split
  · rfl
  · exact State.smemWrite_ops ..

end Ops

/-! ### Steps that are admitted, and steps that are held (15 R285) -/

/-- What an operation that waits leaves of the cores, where its step set no access of a dispatcher waiting. -/
theorem State.engWaits_cores {s r : State} (h : r.sched.waits = s.sched.waits) : (s.engWaits r).cores = s.cores := by
  have hnone : (r.sched.waits.filter fun w => w.kind == 7 && !(s.sched.waits.any fun v => v.id == w.id)) = [] := by
    rw [h, List.filter_eq_nil_iff]
    intro w hw
    have hany : (s.sched.waits.any fun v => v.id == w.id) = true := List.any_eq_true.mpr ⟨w, hw, beq_self_eq_true _⟩
    simp [hany]
  have hframes : keepFrames s r = s := by simp [keepFrames, hnone]
  simp only [State.engWaits, keepMarks, hframes, List.foldl_nil, State.keepPaid]

theorem OnlyRequests.waits {s t : State} (h : OnlyRequests s t) : t.sched.waits = s.sched.waits := by
  obtain ⟨_, _, _, _, _, rfl⟩ := h
  rfl

/-- A step that takes place has its own bytes and cores. -/
theorem State.engStep_takes {s r t : State} {c id part : Nat} (h : r.settle (.op c id part) = (true, t)) :
    (s.engStep c id r part).mem = r.mem ∧ (s.engStep c id r part).cores = r.cores := by
  have honly := r.settle_only (.op c id part)
  simp only [State.engStep, h] at honly ⊢
  split
  · exact ⟨honly.mem, honly.cores⟩
  · exact ⟨honly.mem, honly.cores⟩

/-- One that is held has those of before. -/
theorem State.engStep_held {s r t : State} {c id part : Nat} (h : r.settle (.op c id part) = (false, t))
    (hwaits : r.sched.waits = s.sched.waits) : (s.engStep c id r part).mem = s.mem ∧ (s.engStep c id r part).cores = s.cores := by
  have honly := r.settle_only (.op c id part)
  simp only [State.engStep, h] at honly ⊢
  exact ⟨State.engWaits_mem s t, State.engWaits_cores (honly.waits.trans hwaits)⟩

/-! ### Pieces of copies (08 R187 to R192) -/

section Pieces
variable {s s1 s2 : State} {c core op len n v pa code : Nat} {o : Op} {va : DWord} {tag : Bool}

/-- An access that reaches its place within one line is one piece of a read that may cross lines. -/
theorem State.engReadLines_ok {k part : Nat} (h : s.engReach c o .read va part = (.ok pa, s1)) (hn : va.toNat % 64 + n ≤ 64) :
    s.engReadLines c o va (k + 1) n part = (.ok (s1.homeRead pa n), s1) := by
  have hm : min n (64 - va.toNat % 64) = n := by omega
  have hread : s.engRead c o va n part = (.ok (s1.homeRead pa n), s1) := by simp only [State.engRead, h]
  simp only [State.engReadLines, State.engReadLines.go, hm, hread, le_refl, if_true]

/-- One that ends the operation at its first piece ends it. -/
theorem State.engReadLines_ends {k part : Nat} {fva : DWord} (h : s.engReach c o .read va part = (.ends code fva, s1)) :
    s.engReadLines c o va (k + 1) n part = (.ends code fva, s1) := by
  simp only [State.engReadLines, State.engReadLines.go, State.engRead, h]

/-- A piece written to global memory: the operation keeps its line, and a pinned destination's is pinned. -/
def State.storePiece (s : State) (c : Nat) (o : Op) (len pa v : Nat) : State :=
  let u := (s.homeWrite pa len v).modOp c o.id fun p => { p with written := p.written.filter (· != lineOf pa) ++ [lineOf pa] }
  if copyDstKind o.desc = 3 then u.pinLine (lineOf pa) else u

theorem State.copyRead_pad (h : copySrcKind o.desc = 1 ∨ copySrcKind o.desc = 2) : s.copyRead c o len =
    (.ok (s.smemRead (locCore c (copySrcKind o.desc) (copySrc o.desc)) (o.locWindow (copySrcKind o.desc))
      (padOff (copySrc o.desc) (copySrcAt o.desc o.off)) len), s) :=
  if_neg (by omega)

theorem State.copyRead_global (h : copySrcKind o.desc = 0)
    (hr : s.engReach c o .read (BitVec.ofNat 64 (copySrcAt o.desc o.off)) = (.ok pa, s1))
    (hline : (BitVec.ofNat 64 (copySrcAt o.desc o.off)).toNat % 64 + len ≤ 64) : s.copyRead c o len = (.ok (s1.homeRead pa len), s1) :=
  (if_pos h).trans (State.engReadLines_ok hr hline)

theorem State.copyRead_ends (h : copySrcKind o.desc = 0)
    (hr : s.engReach c o .read (BitVec.ofNat 64 (copySrcAt o.desc o.off)) = (.ends code va, s1)) :
    s.copyRead c o len = (.ends code va, s1) :=
  (if_pos h).trans (State.engReadLines_ends hr)

theorem State.copyWrite_pad (h : copyDstKind o.desc = 1 ∨ copyDstKind o.desc = 2) : s.copyWrite c o len v =
    (.ok 0, s.smemWrite (locCore c (copyDstKind o.desc) (copyDst o.desc)) (o.locWindow (copyDstKind o.desc))
      (padOff (copyDst o.desc) (copyDstAt o.desc o.off)) len v) :=
  if_pos h

theorem State.copyWrite_global (h : copyDstKind o.desc = 0 ∨ copyDstKind o.desc = 3)
    (hr : s.engReach c o .write (BitVec.ofNat 64 (copyDstAt o.desc o.off)) = (.ok pa, s1)) :
    s.copyWrite c o len v = (.ok pa, s1.storePiece c o len pa v) := by
  have hlocal : ¬ (copyDstKind o.desc = 1 ∨ copyDstKind o.desc = 2) := by omega
  simp only [State.copyWrite, if_neg hlocal, State.engWrite, hr, State.storePiece]

theorem State.copyWrite_ends (h : copyDstKind o.desc = 0 ∨ copyDstKind o.desc = 3)
    (hr : s.engReach c o .write (BitVec.ofNat 64 (copyDstAt o.desc o.off)) = (.ends code va, s1)) :
    s.copyWrite c o len v = (.ends code va, s1) := by
  have hlocal : ¬ (copyDstKind o.desc = 1 ∨ copyDstKind o.desc = 2) := by omega
  simp only [State.copyWrite, if_neg hlocal, State.engWrite, hr]

/-- A piece of the right shape lands where its source is read and its destination written. -/
theorem exec_piece_lands (hw : s.workingOp core op = some o) (hk : o.kind = .copy tag) (hp : pieceOk o.desc o.off len = true)
    (hread : s.copyRead core o len = (.ok v, s1)) (hwrite : s1.copyWrite core o len v = (.ok pa, s2)) :
    exec (.copyPieceLand core op len false) s = .next (s.engStep core op (s2.landed core o len pa)) := by
  show execCopyPieceLand core op len false s = _
  simp only [execCopyPieceLand, hw, hk, hp, hread, hwrite, Bool.not_true, Bool.false_eq_true, if_false]

theorem exec_piece_write_ends (hw : s.workingOp core op = some o) (hk : o.kind = .copy tag) (hp : pieceOk o.desc o.off len = true)
    (hread : s.copyRead core o len = (.ok v, s1)) (hwrite : s1.copyWrite core o len v = (.ends code va, s2)) :
    exec (.copyPieceLand core op len false) s = .next (s.engStep core op (s2.abortStatus core o code va)) := by
  show execCopyPieceLand core op len false s = _
  simp only [execCopyPieceLand, hw, hk, hp, hread, hwrite, Bool.not_true, Bool.false_eq_true, if_false]

/-- An error at the first byte of a piece ends the copy. -/
theorem exec_piece_read_ends (hw : s.workingOp core op = some o) (hk : o.kind = .copy tag) (hp : pieceOk o.desc o.off 1 = true)
    (hread : s.copyRead core o 1 = (.ends code va, s1)) :
    exec (.copyPieceLand core op 1 false) s = .next (s.engStep core op (s1.abortStatus core o code va)) := by
  show execCopyPieceLand core op 1 false s = _
  simp only [execCopyPieceLand, hw, hk, hp, hread, Bool.not_true, Bool.false_eq_true, if_false, if_true]

/-- The control space takes no access of an engine, which is the model's choice (log 37). -/
theorem State.engReach_inCtl {acc : Access} {cached : Bool}
    (h : s.dieTranslate (.op c o.id 0) (coreDie c) o.part o.user acc va = (.ok pa cached, s1)) (hctl : inCtl pa = true) :
    s.engReach c o acc va = (.ends 2 va, s1) := by
  simp only [State.engReach, h, hctl, if_true]

/-- The operation of a copy once a piece of it has landed, and its state but for the copy's end. -/
def Op.afterPiece (o : Op) (len pa : Nat) : Op :=
  { (if copyDstKind o.desc = 3 then o.place (copyDstAt o.desc o.off) len (lineOf pa) else o) with off := o.off + len }
def State.pieceCounted (s : State) (c : Nat) (o : Op) (len pa : Nat) : State :=
  (s.arrive c o.win (copyAW o.desc) len).modOp c o.id fun _ => o.afterPiece len pa

theorem Op.afterPiece_spec (o : Op) (len pa : Nat) : (o.afterPiece len pa).id = o.id ∧ (o.afterPiece len pa).state = o.state ∧
    (o.afterPiece len pa).desc = o.desc ∧ (o.afterPiece len pa).kind = o.kind ∧ (o.afterPiece len pa).who = o.who ∧
    (o.afterPiece len pa).win = o.win ∧ (o.afterPiece len pa).off = o.off + len := by
  unfold Op.afterPiece
  split
  · exact ⟨rfl, rfl, rfl, rfl, rfl, rfl, rfl⟩
  · exact ⟨rfl, rfl, rfl, rfl, rfl, rfl, rfl⟩

theorem State.landed_eq (h : (s.core c).findOp o.id = some o) (len pa : Nat) : s.landed c o len pa =
    if copyTotal o.desc ≤ o.off + len then (s.pieceCounted c o len pa).finishCopy c (o.afterPiece len pa) else s.pieceCounted c o len pa := by
  have hfound : ((s.arrive c o.win (copyAW o.desc) len).core c).findOp o.id = some o := by
    rw [Core.findOp, State.arrive_ops]
    exact h
  by_cases hpin : copyDstKind o.desc = 3
  · simp only [State.landed, hfound, Option.getD_some, State.pieceCounted, Op.afterPiece, Op.place, if_pos hpin]
  · simp only [State.landed, hfound, Option.getD_some, State.pieceCounted, Op.afterPiece, if_neg hpin]

/-- The operation, its tag not recorded. -/
def Op.untagged (o : Op) : Op := { o with tagref := false }

/-- A copy without a tag ends with its status 01. -/
theorem State.finishCopy_untagged (hk : o.kind = .copy false) : s.finishCopy c o =
    ((s.smemWrite o.who.core o.win (copyStat o.desc) 16 (statusBits 1 false 0 o.off 0#64)).completeOp c o.id).dropNamed o.untagged := by
  rcases o
  dsimp only at hk
  subst hk
  rfl

/-- A copy stops at a byte of its source that does not translate; or, where the source is a scratchpad, of its destination. -/
def State.stopCopy (s : State) (core : Nat) (o : Op) (cause sub : Nat) (write : Bool) (va : DWord) : State :=
  if cause = 10 then s.abortStatus core o 3 va
  else if 16 ≤ cause then s.abortStatus core o 4 va else s.suspendOp core o write cause sub va

theorem exec_copySuspend_source {cause sub : Nat} (hw : s.workingOp core op = some o) (hk : o.kind = .copy tag)
    (hsrc : copySrcKind o.desc = 0) (hx : s.dieTranslate (.op core op 0) (coreDie core) o.part o.user .read
      (BitVec.ofNat 64 (copySrcAt o.desc o.off)) = (.fault cause sub, s1)) :
    exec (.copySuspend core op) s =
      .next (s.engStep core op (s1.stopCopy core o cause sub false (BitVec.ofNat 64 (copySrcAt o.desc o.off)))) := by
  show execCopySuspend core op s = _
  have hlocal : ¬ (copySrcKind o.desc = 1 ∨ copySrcKind o.desc = 2) := by omega
  simp only [execCopySuspend, hw, hk, if_neg hlocal, hx, State.stopCopy]

theorem exec_copySuspend_destination {cause sub : Nat} (hw : s.workingOp core op = some o) (hk : o.kind = .copy tag)
    (hsrc : copySrcKind o.desc = 1 ∨ copySrcKind o.desc = 2) (hdst : copyDstKind o.desc = 0 ∨ copyDstKind o.desc = 3)
    (hx : s.dieTranslate (.op core op 0) (coreDie core) o.part o.user .write
      (BitVec.ofNat 64 (copyDstAt o.desc o.off)) = (.fault cause sub, s1)) :
    exec (.copySuspend core op) s =
      .next (s.engStep core op (s1.stopCopy core o cause sub true (BitVec.ofNat 64 (copyDstAt o.desc o.off)))) := by
  show execCopySuspend core op s = _
  have hlocal : ¬ (copyDstKind o.desc = 1 ∨ copyDstKind o.desc = 2) := by omega
  simp only [execCopySuspend, hw, hk, if_pos hsrc, if_neg hlocal, hx, State.stopCopy]

end Pieces

/-! ### Gathers (08 R194) -/

section Gathers
variable {s s1 : State} {core op size : Nat} {o : Op}

theorem exec_gatherFetch (hw : s.workingOp core op = some o) (hk : o.kind = .gather size) (hroom : o.flight.length < 16)
    (hmore : o.nextFetch < gathCount o.desc) : exec (.gatherFetchIssue core op) s = .next (s.modOp core op fun p => { p with
      flight := p.flight ++ [(p.nextFetch, s.smemRead core o.win (gathIdx o.desc + 4 * o.nextFetch) 4, none)]
      nextFetch := p.nextFetch + 1 }) := by
  show execGatherFetchIssue core op s = _
  have hissues : ¬ (16 ≤ o.flight.length ∨ gathCount o.desc ≤ o.nextFetch) := by omega
  simp only [execGatherFetchIssue, hw, hk, if_neg hissues]

/-- The one fetch in flight returns and lands, and it is not the last. -/
theorem exec_gatherReturn {i idx v : Nat} (hw : s.workingOp core op = some o) (hk : o.kind = .gather size)
    (hone : o.flight = [(i, idx, none)]) (hmore : i + 1 < gathCount o.desc) (hsize : 0 < size)
    (hread : s.engRead core o (gathAddr o.desc size idx) size i = (.ok v, s1)) :
    exec (.gatherElementReturn core op i false) s =
      .next (s.engStep core op (((s1.smemWrite core o.win (gathDst o.desc + size * i) size v).arrive core o.win (gathAW o.desc) size).modOp
        core op fun _ => { o with flight := [], off := size * (i + 1) }) i) := by
  show execGatherElementReturn core op i false s = _
  have hfind : (o.flight.find? fun f => f.1 == i && f.2.2.isNone) = some (i, idx, none) := by simp [hone]
  have hback : mapIf (fun f : Nat × Nat × Option Nat => f.1 == i) (fun f => (f.1, f.2.1, some v)) o.flight = [(i, idx, some v)] := by
    simp [hone, mapIf]
  have hnot : ¬ size * gathCount o.desc ≤ size * (i + 1) := not_le.mpr (Nat.mul_lt_mul_of_pos_left hmore hsize)
  simp only [execGatherElementReturn, hw, hk, hfind, hread, hback, State.landElements, if_neg hnot, Bool.false_eq_true, if_false]

end Gathers

/-- Settles O41: a piece by its source and its destination, the state once it has landed, what stops a copy, a gather's fetches,
and what the admission of a step decides. -/
theorem copyAndGatherSteps : Obligations.CopyAndGatherSteps := by
  intro s s1 s2 core op len o hw d src dst srcVa dstVa pad from_ to_ held put store does local_ global_
  have hpad (kind loc : Nat) : pad kind loc = (locCore core kind loc, o.locWindow kind) := by
    by_cases h : kind = 2 <;> simp [pad, locCore, Op.locWindow, h]
  have hfrom : from_ = (locCore core (copySrcKind d) (copySrc d), o.locWindow (copySrcKind d)) := hpad _ _
  have hto : to_ = (locCore core (copyDstKind d) (copyDst d), o.locWindow (copyDstKind d)) := hpad _ _
  have hheld (u : State) (h : local_ (copySrcKind d)) : u.copyRead core o len = (.ok (held u), u) := by
    simp only [held, hfrom]
    exact State.copyRead_pad h
  have hput (u : State) (v : Nat) (h : local_ (copyDstKind d)) : u.copyWrite core o len v = (.ok 0, put u v) := by
    simp only [put, hto]
    exact State.copyWrite_pad h
  refine ⟨fun tag hk hp => ⟨fun hsrc hdst => ?_, fun pa hsrc hline hreach => ⟨fun hdst => ?_, fun qa hdst hreach' => ?_⟩,
      fun pa hsrc hdst hreach => ?_, fun code va hsrc hlen hreach => ?_, fun code va hsrc hdst hreach => ?_⟩,
    fun acc va pa c hx hctl => State.engReach_inCtl hx hctl, fun u pa tag hk hfind => ⟨fun hmore => ?_, fun hend htag => ?_⟩,
    fun tag cause sub hk => ⟨fun hsrc hx => exec_copySuspend_source hw hk hsrc hx,
      fun hsrc hdst hx => exec_copySuspend_destination hw hk hsrc hdst hx⟩,
    fun size hk hroom hmore => exec_gatherFetch hw hk hroom hmore,
    fun size i idx v hk hone hmore hsize hread => exec_gatherReturn hw hk hone hmore hsize hread,
    fun r t part => ⟨fun h => State.engStep_takes h, fun h hwaits => State.engStep_held h hwaits⟩⟩
  · exact exec_piece_lands hw hk hp (hheld s hsrc) (hput s _ hdst)
  · exact exec_piece_lands hw hk hp (State.copyRead_global hsrc hreach hline) (hput s1 _ hdst)
  · exact exec_piece_lands hw hk hp (State.copyRead_global hsrc hreach hline) (State.copyWrite_global hdst hreach')
  · exact exec_piece_lands hw hk hp (hheld s hsrc) (State.copyWrite_global hdst hreach)
  · subst hlen
    exact exec_piece_read_ends hw hk hp (State.copyRead_ends hsrc hreach)
  · exact exec_piece_write_ends hw hk hp (hheld s hsrc) (State.copyWrite_ends hdst hreach)
  · obtain ⟨hpid, hstate, hdesc, -, -, -, hoff⟩ := o.afterPiece_spec len pa
    refine ⟨o.afterPiece len pa, ?_, hoff, hstate, hdesc⟩
    rw [State.landed_eq hfind, if_neg hmore.not_ge]
    refine State.modOp_findOp (f := fun _ => o.afterPiece len pa) (o := o) ?_ fun _ _ => hpid
    rw [Core.findOp, State.arrive_ops]
    exact hfind
  · subst htag
    intro p
    obtain ⟨hpid, -, hdesc, hkind, hwho, hwin, hoff⟩ := o.afterPiece_spec len pa
    rw [State.landed_eq hfind, if_pos hend, State.finishCopy_untagged (hkind.trans hk), hwho, hwin, hdesc, hoff, hpid]
    have hcounted : u.pieceCounted core o len pa = (u.arrive core o.win (copyAW d) len).modOp core o.id fun _ => p := rfl
    rw [hcounted]
    rfl

end Sys2Proof.Machine
end

section
namespace Sys2Proof.Machine

/-! ### Queries, refits and draws at work (08 R207 to R213) -/

section Queries
variable {s s1 s2 s3 : State} {core op : Nat} {o : Op}

/-- The address of a query's root node. -/
def Op.root (o : Op) : DWord := BitVec.ofNat 64 (bitsOf o.desc 256 64)

theorem exec_rayQuery {anyHit : Bool} {h : Option Hit} (hw : s.workingOp core op = some o) (hk : o.kind = .ray anyHit)
    (hroot : canonical o.root = true)
    (hwalk : rayWalk (rayOf o.desc anyHit) core o walkFuel [(none, nodeRefTo o.root.toNat, 1)] 0 none s = (.done h, s1)) :
    exec (.rayQueryComplete core op false) s = .next (s.engStep core op (s1.endQuery core o 32 (rayBits o 0 h))) := by
  show execRayQueryComplete core op false s = _
  unfold Op.root at hroot hwalk
  simp only [execRayQueryComplete, hw, hk, hroot, hwalk, Bool.not_true, Bool.false_eq_true, if_false]

theorem exec_ovlpQuery {f : Found} (hw : s.workingOp core op = some o) (hk : o.kind = .ovlp) (hroot : canonical o.root = true)
    (hwalk : ovlpWalk { lo := vecAt o.desc 0, hi := vecAt o.desc 12 } core o walkFuel [(none, nodeRefTo o.root.toNat, 1)] 0
      { skip := word32 o.desc 24, room := word32 o.desc 28 } s = (.done, f, s1)) :
    exec (.ovlpQueryComplete core op false) s = .next (s.engStep core op (s1.endOvlp core o (if f.more then 1 else 0) f)) := by
  show execOvlpQueryComplete core op false s = _
  unfold Op.root at hroot hwalk
  simp only [execOvlpQueryComplete, hw, hk, hroot, hwalk, Bool.not_true, Bool.false_eq_true, if_false]

/-- The address of the node that a refit comes to next. -/
def Op.refitVa (o : Op) : DWord := BitVec.ofNat 64 (refitBase o.desc + 128 * (refitCount o.desc - 1 - o.off))

/-- A refit that has nodes left after this one goes on to them. -/
theorem exec_refitNode {node n pa : Nat} {boxes : List Box} (hw : s.workingOp core op = some o) (hk : o.kind = .refit)
    (hmore : o.off + 1 < refitCount o.desc) (hnode : s.readNode core o o.refitVa = (.ok node, s1))
    (hrefs : ((List.range 4).map (nodeRef node)).any refBad = false)
    (hboxes : s1.refitBoxes core o ((List.range 4).map (nodeRef node)) = ((.ok n, boxes), s2))
    (hwrite : s2.engWriteLines core o o.refitVa 2 96 (boxBits boxes) = (.ok pa, s3)) :
    exec (.refitNode core op false) s =
      .next (s.engStep core op ((s3.arrive core o.win (refitAW o.desc) 96).modOp core op fun p => { p with off := p.off + 1 })) := by
  show execRefitNode core op false s = _
  have hkind : (o.kind != .refit) = false := by rw [hk]; decide
  unfold Op.refitVa at hnode hwrite
  simp only [execRefitNode, hw, hkind, hnode, hrefs, hboxes, hwrite, Bool.false_eq_true, if_false, if_neg hmore.not_ge]

end Queries

section Draws
variable {s s1 s2 : State} {die core op tile : Nat} {o : Op}

/-- The place of a tile's next candidate quad among the quads of its triangles, and the quad's coordinates. -/
def Op.quadPos (o : Op) (tile : Nat) : Nat := tblGet 0 o.tiles tile
def Op.quadX (o : Op) (tile : Nat) : Nat := 4 * (tile % 2048) + o.quadPos tile % 16 % 4
def Op.quadY (o : Op) (tile : Nat) : Nat := 4 * (tile / 2048) + o.quadPos tile % 16 / 4

/-- The draw goes on past the quad. -/
def State.pastQuad (s t : State) (core op : Nat) (o : Op) (tile : Nat) : State :=
  s.engStep core op (t.modOp core op fun p => { p with tiles := tblPut 0 p.tiles tile (o.quadPos tile + 1) }) tile

/-- A draw whose turn it is on a tile that it has not done comes to the tile's next quad. -/
theorem exec_drawQuad {ez : Bool} (hc : s.drawCore die op = some core) (hw : s.workingOp core op = some o) (hk : o.kind = .draw ez)
    (hdone : o.tileDone tile = false) (hturn : s.drawTurn die core o tile = true) :
    exec (.drawQuadPush die op tile false) s = .next (s.drawQuad core o ez tile) := by
  show execDrawQuadPush die op tile false s = _
  simp only [execDrawQuadPush, hc, hw, hk, hdone, hturn, Bool.not_true, Bool.or_false, Bool.false_eq_true, if_false]

/-- A quad of a triangle is pushed where a pixel of it survives, and passed where none does. -/
theorem State.drawQuad_reaches {ez : Bool} {tri : Tri} {n m k : Nat} (hid : o.id = op) (horphan : o.orphan = false)
    (htri : s.readTri core o tile (o.quadPos tile / 16) = ((.ok n, .tri tri), s1))
    (hbits : s1.quadBits core o ez tri (o.quadX tile) (o.quadY tile) [0, 1, 2, 3] = ((.ok k, m), s2)) :
    (m = 0 → s.drawQuad core o ez tile = s.pastQuad s2 core op o tile) ∧
    (m ≠ 0 → (s.ctx core o.hw).queue.length < 256 → s.drawQuad core o ez tile = s.pastQuad (s2.modCtx core o.hw fun x =>
      { x with queue := x.queue ++ [quadItem (o.quadPos tile / 16) m (o.quadX tile) (o.quadY tile)] }) core op o tile) := by
  subst hid
  unfold Op.quadX Op.quadY Op.quadPos at hbits
  unfold Op.quadPos at htri
  refine ⟨fun hm => ?_, fun hm hroom => ?_⟩
  · simp only [State.drawQuad, htri, hbits, if_pos hm]
    rfl
  · simp only [State.drawQuad, htri, hbits, if_neg hm, horphan, Bool.false_eq_true, if_false, if_neg hroom.not_ge]
    rfl

theorem exec_drawComplete {ez : Bool} {n k : Nat} (hc : s.drawCore die op = some core) (hw : s.workingOp core op = some o)
    (hk : o.kind = .draw ez) (hall : (drawTileList o).all o.tileDone = true)
    (hcount : s.countDiscards core o 0 (drawTris o.desc) = ((.ok n, k), s1)) : exec (.drawComplete die op) s =
      .next (s.engStep core op (((s1.smemWrite core o.win (drawStat o.desc) 8 (drawTris o.desc - k + k * 2 ^ 32)).arrive core
        o.win (drawAW o.desc) 8).completeOp core op) pastTiles) := by
  show execDrawComplete die op s = _
  have hpushed : o.pushedAll = true := by simp [Op.pushedAll, hall]
  simp only [execDrawComplete, hc, hw, hk, hpushed, hcount, isDraw, Bool.not_true, Bool.false_eq_true, if_false]

/-- A tile of the other die's side of the boundary column is none of a split draw's. -/
theorem Op.tileDone_of_otherSide {side : Nat} (h : o.half = some side)
    (hother : ((decide (8 * (tile % 2048) < drawXm o.desc)) == (side == 0)) = false) : o.tileDone tile = true := by
  have hnot : o.hasTile tile = false := by simp only [Op.hasTile, h, hother, Bool.and_false]
  simp [Op.tileDone, hnot]

end Draws

/-- Settles O43: each step does what its walk, its reads or its turn come to. -/
theorem queryAndDrawSteps : Obligations.QueryAndDrawSteps := by
  intro s s1 s2 s3 die core op tile o hw root walk
  refine ⟨fun anyHit h hk hroot hwalk => exec_rayQuery hw hk hroot hwalk, fun f hk hroot hwalk => exec_ovlpQuery hw hk hroot hwalk,
    fun node boxes n pa hk hmore hnode hrefs hboxes hwrite => exec_refitNode hw hk hmore hnode hrefs hboxes hwrite, ?_, ?_⟩
  · intro hc pos qx qy goesOn
    refine ⟨fun ez tri n m k hk hdone hturn horphan htri hbits => ?_, fun ez n k hk hall hcount => exec_drawComplete hc hw hk hall hcount⟩
    obtain ⟨hpast, hpushed⟩ := State.drawQuad_reaches (State.workingOp_id hw) horphan htri hbits
    have hexec := exec_drawQuad hc hw hk hdone hturn
    exact ⟨fun hm => hexec.trans (congrArg _ (hpast hm)), fun hm hroom => hexec.trans (congrArg _ (hpushed hm hroom))⟩
  · rintro t (⟨hhalf, hright⟩ | ⟨hhalf, hleft⟩)
    · exact Op.tileDone_of_otherSide hhalf (by rw [decide_eq_false hright.not_gt]; rfl)
    · exact Op.tileDone_of_otherSide hhalf (by rw [decide_eq_true hleft]; rfl)

end Sys2Proof.Machine
end

section
namespace Sys2Proof.Machine

/-! ### Commands at the head of the matrix queue (08 R200 to R203; 14 R271, R277) -/

section Head
variable {s s1 : State} {core v : Nat} {o : Op} {bad : Bool}

theorem exec_mxshape (hh : s.matrixHead core = some o) (hk : o.kind = .mxshape) : exec (.mxshapeExecute core) s = .next
    (if s.matrixDone o then
      (s.modMx core fun m => { m with shape := o.desc, woken := m.woken || m.shape < o.desc }).completeOp core o.id else s) := by
  show execMxshapeExecute core s = _
  simp only [execMxshapeExecute, hh, hk]
  cases s.matrixDone o <;> rfl

theorem exec_mxldw_waits (hh : s.matrixHead core = some o) (hk : o.kind = .mxldw) (hd : s.matrixDone o = false) :
    exec (.mxldwComplete core bad) s = .next s := by
  show execMxldwComplete core bad s = _
  simp only [execMxldwComplete, hh, hk, hd, Bool.not_false, if_true]

theorem exec_mxldw_latches (hh : s.matrixHead core = some o) (hk : o.kind = .mxldw) (hd : s.matrixDone o = true)
    (hblock : s.ldwBlock core o = (.ok v, s1)) :
    exec (.mxldwComplete core false) s = .next (s.engStep core o.id (s1.latchBlock core o v)) := by
  show execMxldwComplete core false s = _
  simp only [execMxldwComplete, hh, hk, hd, hblock, Bool.not_true, Bool.false_eq_true, if_false]

theorem exec_mxldw_fails (hh : s.matrixHead core = some o) (hk : o.kind = .mxldw) (hd : s.matrixDone o = true) :
    exec (.mxldwComplete core true) s = .next (s.ldwFails core o 0#64) := by
  show execMxldwComplete core true s = _
  simp only [execMxldwComplete, hh, hk, hd, Bool.not_true, Bool.false_eq_true, if_false, if_true]

/-- A tile task at the head that has not started starts when its input is ready. -/
theorem exec_tileStart (hh : s.matrixHead core = some o) (hk : o.kind = .mxq) (hs : o.started = false) (hi : s.inputReady core o = true) :
    exec (.tileTaskStart core) s = .next (((s.modOp core o.id fun p => { p with
      started := true, cb := tblGet 0#256 (s.booksOf core o) (mxqAcb o.desc)
      due := s.ps + (if (s.core core).mx.woken then 625 * 64 else 0)
      unsound := (s.core core).mx.latched.isNone || (s.core core).mx.unsound }).modMx core fun m => { m with woken := false }).streamTile
        core o.id) := by
  show execTileTaskStart core s = _
  have hstarts : (o.kind != .mxq || o.started || !s.inputReady core o) = false := by rw [hk, hs, hi]; decide
  simp only [execTileTaskStart, hh, hstarts, Bool.false_eq_true, if_false]

theorem exec_tileStart_waits (hh : s.matrixHead core = some o) (hi : s.inputReady core o = false) :
    exec (.tileTaskStart core) s = .next s := by
  show execTileTaskStart core s = _
  simp only [execTileTaskStart, hh, hi, Bool.not_false, Bool.or_true, if_true]

/-- A tile task that has ended signals its word and is complete. -/
def State.endTile (s : State) (core : Nat) (o : Op) : State :=
  (s.arrive core o.win (mxqDone o.desc) (256 * mxqM o.desc)).completeOp core o.id

theorem exec_tileComplete (hh : s.matrixHead core = some o) (hst : s.streamTiles core = s) (hk : o.kind = .mxq)
    (hd : s.matrixDone o = true) (hg : groupCount o.desc ≤ o.off) : exec (.tileTaskComplete core bad) s = .next
      (if bad then (s.endTile core o).engineError core o 0#64
       else (if o.unsound then s else s.writeTile core o).endTile core o) := by
  show execTileTaskComplete core bad s = _
  have hends : ¬ (o.kind != .mxq || !s.matrixDone o || decide (o.off < groupCount o.desc)) = true := by
    rw [hk, hd, decide_eq_false hg.not_gt]
    decide
  simp only [execTileTaskComplete, hst, hh, if_neg hends]
  cases bad <;> simp [State.endTile]

theorem exec_tileComplete_waits (hh : s.matrixHead core = some o) (hst : s.streamTiles core = s)
    (h : s.matrixDone o = false ∨ o.off < groupCount o.desc) : exec (.tileTaskComplete core bad) s = .next s := by
  show execTileTaskComplete core bad s = _
  have hwaits : (o.kind != .mxq || !s.matrixDone o || decide (o.off < groupCount o.desc)) = true := by
    rcases h with h | h <;> simp [h]
  simp only [execTileTaskComplete, hst, hh, hwaits, if_true]

theorem exec_cbload {n : Nat} (hw : s.workingOp core v = some o) (hk : o.kind = .cbload n) (ht : s.matrixTurn core o = true) :
    exec (.cbloadComplete core v) s = .next (if s.matrixDone o then
      (s.setBook core o n (BitVec.ofNat 256 (s.smemRead core o.win o.off 32))).completeOp core v else s) := by
  show execCbloadComplete core v s = _
  simp only [execCbloadComplete, hw, hk, ht, Bool.true_and]

/-- A codebook that is written is what stands in its slot. -/
theorem State.booksOf_setBook (s : State) (c : Nat) (o : Op) (n : Nat) (b : BitVec 256) :
    tblGet 0#256 ((s.setBook c o n b).booksOf c o) n = b := by
  unfold State.setBook State.booksOf
  split
  · rw [State.modCtx_ctx, tblGet_put_same]
  · rw [State.modCore_core, tblGet_put_same, tblGet_put_same]

end Head

/-! ### The groups of a tile task (08 R204, R205; 12 R263; 14 R275) -/

section Groups
variable {s : State} {c id : Nat} {o : Op}

/-- A group's word of the bitmap, its energy, and whether it is held to the next microsecond. -/
def State.groupWord (s : State) (c : Nat) (o : Op) : Nat := s.groupMarks c o o.off
def State.groupCost (s : State) (c : Nat) (o : Op) : Nat :=
  if skipped o.desc (s.groupWord c o) then 0 else Config.groupEnergy (1024 * o.desc + o.off)
def State.groupLate (s : State) (c : Nat) (o : Op) : Bool :=
  !o.held && decide (s.arrayShare c < (s.core c).mx.energyIn (o.due / 1000000) + s.groupCost c o)
/-- The words that it gives, none where its weights are unsound. -/
def State.groupWords (s : State) (c : Nat) (o : Op) : List Word :=
  match (s.core c).mx.latched with | some l => if o.unsound then [] else s.groupResult c o l o.off | none => []

/-- What the next group makes of its operation: it is held, or has streamed. -/
def State.groupChange (s : State) (c : Nat) (o p : Op) : Op :=
  if s.groupLate c o then { p with held := true, due := 1000000 * (o.due / 1000000 + 1) }
  else { p with
    off := o.off + 1, held := false, due := p.due + 625 * groupCycles p.pair (s.core c).mx.shape p.desc o.off (s.groupWord c o)
    result := p.result ++ s.groupWords c o }
/-- What it makes of the state: one that streams has spent its energy in its microsecond. -/
def State.groupStep (s : State) (c : Nat) (o : Op) : State :=
  if s.groupLate c o then s.modOp c o.id (s.groupChange c o)
  else (s.modOp c o.id (s.groupChange c o)).modMx c fun m =>
    { m with energy := m.energyIn (o.due / 1000000) + s.groupCost c o, energyAt := o.due / 1000000 }

/-- Two records of one operation that differ in its progress alone. -/
structure Op.SameWork (p q : Op) : Prop where
  id : p.id = q.id
  kind : p.kind = q.kind
  started : p.started = q.started
  state : p.state = q.state
  desc : p.desc = q.desc

/-- The task has streamed its groups, or the next one's time has not come. -/
def Op.Rests (ps : Nat) (o : Op) : Prop := groupCount o.desc ≤ o.off ∨ ps < o.due

theorem State.streamGroups_succ (h : (s.core c).findOp id = some o) (hrest : ¬ o.Rests s.ps) (n : Nat) :
    s.streamGroups c id (n + 1) = (s.groupStep c o).streamGroups c id n := by
  obtain rfl := Core.findOp_id h
  have hgo : ¬ (decide (groupCount o.desc ≤ o.off) || decide (s.ps < o.due)) = true := by
    simpa [Op.Rests] using hrest
  rw [State.streamGroups]
  simp only [h, if_neg hgo]
  by_cases hlate : s.groupLate c o = true
  · have hchange : s.groupChange c o = fun p => { p with held := true, due := 1000000 * (o.due / 1000000 + 1) } := by
      funext p
      exact if_pos hlate
    refine (if_pos hlate).trans ?_
    rw [State.groupStep, if_pos hlate, hchange]
  · have hchange : s.groupChange c o = fun p => { p with
        off := o.off + 1, held := false
        due := p.due + 625 * groupCycles p.pair (s.core c).mx.shape p.desc o.off (s.groupWord c o)
        result := p.result ++ s.groupWords c o } := by
      funext p
      exact if_neg hlate
    refine (if_neg hlate).trans ?_
    rw [State.groupStep, if_neg hlate, hchange]
    rfl

theorem State.streamGroups_rests (h : (s.core c).findOp id = some o) (hrest : o.Rests s.ps) (n : Nat) : s.streamGroups c id n = s := by
  cases n with
  | zero => rfl
  | succ n =>
    have hstays : (decide (groupCount o.desc ≤ o.off) || decide (s.ps < o.due)) = true := by simpa [Op.Rests] using hrest
    simp only [State.streamGroups, h, hstays, if_true]

theorem State.streamGroups_absent (h : (s.core c).findOp id = none) (n : Nat) : s.streamGroups c id n = s := by
  cases n with
  | zero => rfl
  | succ n => simp only [State.streamGroups, h]

/-- What a step of a group leaves of any operation. -/
theorem State.groupChange_work (s : State) (c : Nat) (o p : Op) : (s.groupChange c o p).SameWork p := by
  unfold State.groupChange
  split <;> exact ⟨rfl, rfl, rfl, rfl, rfl⟩

theorem State.groupStep_findOp (h : (s.core c).findOp id = some o) :
    ((s.groupStep c o).core c).findOp id = some (s.groupChange c o o) := by
  obtain rfl := Core.findOp_id h
  have hfound := State.modOp_findOp (f := s.groupChange c o) h fun p hp => (s.groupChange_work c o p).id.trans hp
  unfold State.groupStep
  split
  · exact hfound
  · rw [State.modMx, State.modCore_core]
    exact hfound

/-- With two steps for each group that is left, less one where the next is held already, a task streams until it rests. -/
theorem State.streamGroups_ends (n : Nat) : ∀ (s : State) (o : Op), (s.core c).findOp id = some o →
    2 * (groupCount o.desc - o.off) ≤ n + (if o.held then 1 else 0) →
    ∃ p, ((s.streamGroups c id n).core c).findOp id = some p ∧ p.desc = o.desc ∧ o.off ≤ p.off ∧ p.Rests s.ps := by
  induction n with
  | zero =>
    intro s o h hfuel
    refine ⟨o, h, rfl, le_rfl, .inl ?_⟩
    split at hfuel <;> omega
  | succ n ih =>
    intro s o h hfuel
    by_cases hrest : o.Rests s.ps
    · rw [State.streamGroups_rests h hrest]
      exact ⟨o, h, rfl, le_rfl, hrest⟩
    · rw [State.streamGroups_succ h hrest]
      have hps : (s.groupStep c o).ps = s.ps := by unfold State.groupStep; split <;> rfl
      obtain ⟨hdesc, hoff, hless⟩ : (s.groupChange c o o).desc = o.desc ∧ o.off ≤ (s.groupChange c o o).off ∧
          2 * (groupCount o.desc - (s.groupChange c o o).off) ≤ n + (if (s.groupChange c o o).held then 1 else 0) := by
        by_cases hlate : s.groupLate c o = true
        · have hheld : o.held = false := by
            have := hlate
            simp only [State.groupLate, Bool.and_eq_true, Bool.not_eq_true'] at this
            exact this.1
          simp only [hheld, Bool.false_eq_true, if_false] at hfuel
          simp only [State.groupChange, if_pos hlate, le_refl, true_and, if_true]
          exact hfuel
        · simp only [State.groupChange, if_neg hlate, true_and, Bool.false_eq_true, if_false]
          split at hfuel <;> omega
      obtain ⟨p, hp, hpdesc, hpoff, hprest⟩ := ih (s.groupStep c o) _ (State.groupStep_findOp h) (by rw [hdesc]; exact hless)
      exact ⟨p, hp, hpdesc.trans hdesc, hoff.trans hpoff, hps ▸ hprest⟩

/-- One group whose time has come: held to the next microsecond, or streamed with its energy, its cycles and its words. -/
theorem State.streamGroups_one (h : (s.core c).findOp id = some o) (hmore : o.off < groupCount o.desc) (hdue : o.due ≤ s.ps) :
    ∃ p, ((s.streamGroups c id 1).core c).findOp id = some p ∧
      (s.groupLate c o = true → p.held = true ∧ p.due = 1000000 * (o.due / 1000000 + 1) ∧ p.off = o.off ∧ p.result = o.result ∧
        ((s.streamGroups c id 1).core c).mx = (s.core c).mx) ∧
      (s.groupLate c o = false → p.held = false ∧
        p.due = o.due + 625 * groupCycles o.pair (s.core c).mx.shape o.desc o.off (s.groupWord c o) ∧ p.off = o.off + 1 ∧
        ((s.streamGroups c id 1).core c).mx.energyIn (o.due / 1000000) = (s.core c).mx.energyIn (o.due / 1000000) + s.groupCost c o ∧
        p.result = o.result ++ s.groupWords c o) := by
  have hone : s.streamGroups c id 1 = s.groupStep c o := State.streamGroups_succ h (by unfold Op.Rests; omega) 0
  rw [hone]
  refine ⟨_, State.groupStep_findOp h, fun hlate => ?_, fun hlate => ?_⟩
  · simp only [State.groupChange, if_pos hlate, State.groupStep, State.modOp, State.modCore_core, and_self]
  · have hstreams : ¬ s.groupLate c o = true := by rw [hlate]; exact Bool.false_ne_true
    simp only [State.groupChange, if_neg hstreams, State.groupStep, State.modOp, State.modMx, State.modCore_core, Mx.energyIn, if_true,
      and_self]

end Groups

/-! ### The tasks that stream on a core (08 R205; 12 R263) -/

section Tasks
variable {s t u : State} {c : Nat}

/-- Only the progress of operations of those numbers, and what the engine has spent, differ on a core. -/
structure Streams (c : Nat) (ids : Nat → Prop) (s t : State) : Prop where
  mem : t.mem = s.mem
  ps : t.ps = s.ps
  ctxs : (t.core c).ctxs = (s.core c).ctxs
  numbers : (t.core c).ops.map (·.id) = (s.core c).ops.map (·.id)
  ops : ∀ p ∈ (t.core c).ops, ∃ q ∈ (s.core c).ops, p.SameWork q ∧ (¬ ids p.id → p = q)

theorem Op.SameWork.refl (p : Op) : p.SameWork p := ⟨rfl, rfl, rfl, rfl, rfl⟩
theorem Op.SameWork.trans {p q r : Op} (h : p.SameWork q) (g : q.SameWork r) : p.SameWork r :=
  ⟨h.id.trans g.id, h.kind.trans g.kind, h.started.trans g.started, h.state.trans g.state, h.desc.trans g.desc⟩

theorem Streams.refl (ids : Nat → Prop) (s : State) : Streams c ids s s :=
  ⟨rfl, rfl, rfl, rfl, fun p hp => ⟨p, hp, .refl p, fun _ => rfl⟩⟩

theorem Streams.trans {ids ids' : Nat → Prop} (h : Streams c ids s t) (g : Streams c ids' t u) :
    Streams c (fun n => ids n ∨ ids' n) s u := by
  refine ⟨g.mem.trans h.mem, g.ps.trans h.ps, g.ctxs.trans h.ctxs, g.numbers.trans h.numbers, fun p hp => ?_⟩
  obtain ⟨q, hq, hpq, hsame⟩ := g.ops p hp
  obtain ⟨r, hr, hqr, hsame'⟩ := h.ops q hq
  refine ⟨r, hr, hpq.trans hqr, fun hnot => ?_⟩
  obtain ⟨hfirst, hsecond⟩ := not_or.mp hnot
  exact (hsame hsecond).trans (hsame' (hpq.id ▸ hfirst))

theorem Streams.mono {ids ids' : Nat → Prop} (h : Streams c ids s t) (hi : ∀ n, ids n → ids' n) : Streams c ids' s t :=
  ⟨h.mem, h.ps, h.ctxs, h.numbers, fun p hp => by
    obtain ⟨q, hq, hwork, hsame⟩ := h.ops p hp
    exact ⟨q, hq, hwork, fun hnot => hsame (mt (hi _) hnot)⟩⟩

theorem Streams.modOp (s : State) (c id : Nat) {f : Op → Op} (hf : ∀ p, (f p).SameWork p) : Streams c (· = id) s (s.modOp c id f) := by
  have hops : ((s.modOp c id f).core c).ops = mapIf (fun p => p.id == id) f (s.core c).ops := by
    rw [State.modOp, State.modCore_core]
  have heach (q : Op) : (if q.id == id then f q else q).SameWork q := by
    split
    · exact hf q
    · exact .refl q
  refine ⟨rfl, rfl, ?_, ?_, fun p hp => ?_⟩
  · rw [State.modOp, State.modCore_core]
  · rw [hops, mapIf, List.map_map]
    exact List.map_congr_left fun q _ => (heach q).id
  · rw [hops] at hp
    obtain ⟨q, hq, rfl⟩ := List.mem_map.mp hp
    refine ⟨q, hq, heach q, fun hnot => if_neg fun heq => hnot ?_⟩
    exact (heach q).id.trans (beq_iff_eq.mp heq)

theorem State.groupStep_streams (s : State) (c : Nat) (o : Op) : Streams c (· = o.id) s (s.groupStep c o) := by
  have h := Streams.modOp s c o.id (s.groupChange_work c o)
  unfold State.groupStep
  split
  · exact h
  · refine ⟨h.mem, h.ps, ?_, ?_, ?_⟩
    · rw [State.modMx, State.modCore_core]
      exact h.ctxs
    · rw [State.modMx, State.modCore_core]
      exact h.numbers
    · rw [State.modMx, State.modCore_core]
      exact h.ops

theorem State.streamGroups_streams (c id n : Nat) : ∀ s : State, Streams c (· = id) s (s.streamGroups c id n) := by
  induction n with
  | zero => exact fun s => .refl _ s
  | succ n ih =>
    intro s
    cases h : (s.core c).findOp id with
    | none =>
      rw [State.streamGroups_absent h]
      exact .refl _ s
    | some o =>
      by_cases hrest : o.Rests s.ps
      · rw [State.streamGroups_rests h hrest]
        exact .refl _ s
      · rw [State.streamGroups_succ h hrest]
        exact (((s.groupStep_streams c o).mono fun n hn => hn.trans (Core.findOp_id h)).trans (ih _)).mono fun n hn => or_self_iff.mp hn

theorem State.streamTile_streams (s : State) (c id : Nat) : Streams c (· = id) s (s.streamTile c id) := by
  unfold State.streamTile
  split
  · exact .refl _ s
  · exact State.streamGroups_streams c id _ s

/-- A task that streams goes on until it rests. -/
theorem State.streamTile_rests {id : Nat} {o : Op} (h : (s.core c).findOp id = some o) :
    ∃ p, ((s.streamTile c id).core c).findOp id = some p ∧ p.desc = o.desc ∧ o.off ≤ p.off ∧ p.Rests s.ps := by
  have hfuel : 2 * (groupCount o.desc - o.off) ≤ 2 * groupCount o.desc + (if o.held then 1 else 0) := by omega
  simp only [State.streamTile, h]
  exact State.streamGroups_ends _ s o h hfuel

theorem foldl_streamTile (c : Nat) (l : List Op) : ∀ s : State, ((s.core c).ops.map (·.id)).Nodup →
    Streams c (· ∈ l.map (·.id)) s (l.foldl (fun s o => s.streamTile c o.id) s) ∧
    ∀ p ∈ ((l.foldl (fun s o => s.streamTile c o.id) s).core c).ops, p.id ∈ l.map (·.id) → p.Rests s.ps := by
  induction l with
  | nil => exact fun s _ => ⟨.refl _ s, fun p _ hp => absurd hp List.not_mem_nil⟩
  | cons o l ih =>
    intro s hnodup
    have hfirst := s.streamTile_streams c o.id
    have hnodup' : (((s.streamTile c o.id).core c).ops.map (·.id)).Nodup := hfirst.numbers ▸ hnodup
    obtain ⟨hrest, hrests⟩ := ih _ hnodup'
    refine ⟨(hfirst.trans hrest).mono fun n hn => ?_, fun p hp hid => ?_⟩
    · rwa [List.map_cons, List.mem_cons]
    · by_cases hlater : p.id ∈ l.map (·.id)
      · exact hfirst.ps ▸ hrests p hp hlater
      · have heq : p.id = o.id := by simpa [hlater] using hid
        obtain ⟨q, hq, -, hsame⟩ := hrest.ops p hp
        obtain rfl := hsame hlater
        obtain ⟨r, hr, hwork, -⟩ := hfirst.ops p hq
        have hany : ((s.core c).ops.find? fun x => x.id == o.id).isSome :=
          List.find?_isSome.mpr ⟨r, hr, beq_iff_eq.mpr (hwork.id.symm.trans heq)⟩
        obtain ⟨o', ho'⟩ := Option.isSome_iff_exists.mp hany
        obtain ⟨p', hp', -, -, hends⟩ := State.streamTile_rests (s := s) (c := c) (id := o.id) ho'
        rwa [List.inj_on_of_nodup_map hnodup' hq (List.mem_of_find?_eq_some hp') (heq.trans (Core.findOp_id hp').symm)]

/-- Every tile task that is at work rests once the tasks have streamed. -/
theorem State.streamTiles_rest (hnodup : ((s.core c).ops.map (·.id)).Nodup) : (∃ ids, Streams c ids s (s.streamTiles c)) ∧
    ∀ p ∈ ((s.streamTiles c).core c).ops, p.kind = .mxq → p.started = true → p.state = .running → p.Rests s.ps := by
  obtain ⟨hstreams, hrests⟩ := foldl_streamTile c ((s.core c).ops.filter fun o => o.kind == .mxq && o.started && o.state == .running) s hnodup
  refine ⟨⟨_, hstreams⟩, fun p hp hkind hstarted hstate => hrests p hp ?_⟩
  obtain ⟨q, hq, hwork, -⟩ := hstreams.ops p hp
  refine List.mem_map.mpr ⟨q, List.mem_filter.mpr ⟨hq, ?_⟩, hwork.id.symm⟩
  rw [← hwork.kind, ← hwork.started, ← hwork.state, hkind, hstarted, hstate]
  decide

/-- A new microsecond begins once the tasks have streamed to it. -/
theorem exec_arrayEnergy (hps : (s.streamTiles c).ps = s.ps) (hlate : ((s.streamTiles c).core c).mx.energyAt < s.time / 1000) :
    exec (.arrayEnergyPeriod c) s = .next ((s.streamTiles c).modMx c fun m => { m with energy := 0, energyAt := s.time / 1000 }) := by
  show execArrayEnergyPeriod c s = _
  have htime : (s.streamTiles c).time = s.time := by rw [State.time, hps]; rfl
  simp only [execArrayEnergyPeriod, htime, if_neg hlate.not_ge]

end Tasks

/-- Settles O42: each command by where it stands in its queue, a task by the group that it comes to, and the tasks together by
streaming until they rest. -/
theorem matrixSteps : Obligations.MatrixSteps := by
  intro s s1 core id v n o bad
  refine ⟨fun hh => ⟨fun hd => ⟨fun hk => ?_, fun hk => exec_mxldw_waits hh hk hd⟩,
      fun hd => ⟨fun hk => ?_, fun hk hblock => exec_mxldw_latches hh hk hd hblock, fun hk => exec_mxldw_fails hh hk hd⟩,
      fun hk hs hi => exec_tileStart hh hk hs hi, fun _ hi => exec_tileStart_waits hh hi⟩,
    fun hh hst hk => ⟨fun hd hg => ⟨?_, ?_⟩,
      fun h => exec_tileComplete_waits hh hst h⟩,
    fun h => ⟨?_, fun hmore hdue => ?_⟩,
    fun hw hk ht => ⟨fun hd => ?_, fun hd => ?_, fun b => s.booksOf_setBook core o n _⟩,
    fun hnodup hlate => ?_⟩
  · rw [exec_mxshape hh hk, hd, if_neg Bool.false_ne_true]
  · rw [exec_mxshape hh hk, hd, if_pos rfl]
  · rw [exec_tileComplete hh hst hk hd hg, if_neg Bool.false_ne_true]
    rfl
  · rw [exec_tileComplete hh hst hk hd hg, if_pos rfl]
    rfl
  · obtain ⟨p, hp, hdesc, hoff, hrests⟩ := State.streamTile_rests h
    have hstreams := s.streamTile_streams core id
    exact ⟨p, hp, hdesc, hoff, by rwa [Op.Rests, hdesc] at hrests, hstreams.mem, hstreams.ps⟩
  · obtain ⟨p, hp, hlate, hstreams⟩ := State.streamGroups_one h hmore hdue
    refine ⟨p, hp, hlate, fun hnot => ?_⟩
    obtain ⟨hheld, hdue', hoff, henergy, hwords⟩ := hstreams hnot
    refine ⟨hheld, hdue', hoff, henergy, fun l hl hsound => hwords.trans ?_⟩
    simp only [State.groupWords, hl, hsound, Bool.false_eq_true, if_false]
  · rw [exec_cbload hw hk ht, hd, if_neg Bool.false_ne_true]
  · rw [exec_cbload hw hk ht, hd, if_pos rfl]
  · obtain ⟨⟨ids, hstreams⟩, hrests⟩ := State.streamTiles_rest hnodup
    refine ⟨_, exec_arrayEnergy hstreams.ps hlate, ?_, ?_, ?_, hstreams.mem, ?_⟩
    all_goals rw [State.modMx, State.modCore_core]
    · exact hrests
    · exact hstreams.ctxs

end Sys2Proof.Machine
end

section
namespace Sys2Proof.Machine

/-! ### Ownership, translations and saved contexts (09 R238 to R240; 17 R303) -/

section PrivilegedWords
variable {g : Guard} {a : Reg} {s s1 : State} {i : Issue} {w : Who}

/-- A privileged word of one executor that may issue it, and whose guard is true, is its meaning for that executor. -/
theorem exec_onePriv {x : Instr} (hr : Runs s i x w) (hp : s.privileged w = true) (f : Issue → Who → State → State)
    (hx : exec x s = eachPriv x.guard f s) : exec x s = .next (f i w s) := by
  obtain ⟨⟨hcur, hwhos⟩, hg⟩ := hr
  rw [hx, eachPriv, onIssue, hcur]
  simp [hwhos, hp, hg]

/-- OWN ends where the region is owned as asked, or the transfer that it waited for has completed; else it asks and waits. -/
theorem exec_own {pa : Nat} {c : Bool} (hr : Runs s i (.own g a) w) (hp : s.privileged w = true) (hacq : s.acquiring w = false)
    (hx : s.xlat w i.pc .read (sext57 (bitsOf (s.reg64 w a).toNat 21 36 * 2 ^ 21)) = (.ok pa c, s1)) :
    exec (.own g a) s = .next (
      let host := bitOf (s.reg64 w a).toNat 0
      if s1.region (regionOf pa) == regionOwner host || inCtl pa || (s1.strand w).wait == .ownDone then s1
      else waitAs w (.own (regionOf pa) host) (if host then s1.wantHost (regionOf pa) else s1.wantAcc (regionOf pa))) := by
  rw [exec_onePriv hr hp _ rfl]
  exact congrArg Host.Outcome.next (access_reaches hacq (Nat.mod_one _) hx _)

/-- The context whose save is waited for holds that task no more. -/
theorem exec_ctxsv_left {k came : Nat} (hr : Runs s i (.ctxsv g a) w) (hp : s.privileged w = true)
    (hk : (s.reg64 w a).toNat % 8 = k) (hw : (s.strand w).wait = .ctxsv k came)
    (hleft : ∀ t, (s.ctx w.core k).task = some t → t.came ≠ came) :
    exec (.ctxsv g a) s = .next (s.modStrand w fun x => { x with wait := .none }) := by
  subst hk
  rw [exec_onePriv hr hp _ rfl]
  dsimp only
  rw [hw]
  cases htask : (s.ctx w.core ((s.reg64 w a).toNat % 8)).task with
  | none => simp
  | some t => simp [hleft t htask]

/-- The save of another context's task of the partition begins. -/
theorem exec_ctxsv_begins {k : Nat} {t : Task} (hr : Runs s i (.ctxsv g a) w) (hp : s.privileged w = true)
    (hk : (s.reg64 w a).toNat = k) (hlt : k < 8) (hw : (s.strand w).wait = .none) (hother : k ≠ w.ctx)
    (hsvc : isServiceCtx w.core k = false) (htask : (s.ctx w.core k).task = some t) (hpart : s.partOf w.core k = s.partOf w.core w.ctx) :
    exec (.ctxsv g a) s = .next (waitAs w (.ctxsv k t.came) s) := by
  have hmod : (s.reg64 w a).toNat % 8 = k := by omega
  have hdiv : (s.reg64 w a).toNat / 8 = 0 := by omega
  rw [exec_onePriv hr hp _ rfl]
  dsimp only
  rw [hw, hmod, hdiv, htask]
  simp [hother, hsvc, hpart]

/-- A task that stands saved in the frame is resumed on the context that is free for it. -/
theorem exec_ctxld {sp : Spilled} {l : Launch} {hw : Nat} {pas was : List Nat} {s2 : State} (hr : Runs s i (.ctxld g a) w)
    (hp : s.privileged w = true) (hsp : s.spilledAt w.core (s.reg64 w a) = some sp)
    (hspan : s.frameSpan (.strand w i.pc) (coreDie w.core) sp.frame 0 1 = (.ok pas, s1))
    (hmatch : sp.matchesFrame (s1.homeRead (pas.getD 0 0) 64) = true)
    (hrec : fld (s1.homeRead (pas.getD 0 0) 64) 2 0 64 = sp.task.record.toNat) (hl : s1.launch sp.task.slot = some l)
    (hroom : ((s1.hasResv w.core sp.task.slot || fitsBeside l (s1.reserved w.core)) && s1.mxFree w.core sp.task.slot l) = true)
    (hhw : s1.hwFor w.core sp.key = some hw) (hwaits : s1.spilledWaits sp.key = false)
    (hres : s1.resume (.strand w i.pc) sp hw = (.ok was, s2)) : exec (.ctxld g a) s = .next s2 := by
  rw [exec_onePriv hr hp _ rfl]
  obtain ⟨span, he⟩ : ∃ f, f = s.frameSpan (.strand w i.pc) (coreDie w.core) := ⟨_, rfl⟩
  rw [← he] at hspan ⊢
  simp only [hsp, hspan, hmatch, hrec, hl, hroom, hhw, hwaits, hres, Bool.not_true, Bool.or_self,
    Bool.false_eq_true, ne_eq, not_true, if_false, decide_false]

end PrivilegedWords

/-- Settles O35: each word by what it does where its executor may issue it. -/
theorem ownershipAndSavedContexts : Obligations.OwnershipAndSavedContexts := by
  intro g a s s1 i w pa c k hp
  refine ⟨fun hr hacq hx => ?_, fun hr hw => ?_, fun came hr hw hleft => exec_ctxsv_left hr hp rfl hw hleft,
    fun hr hw hlt hother hsvc htask hpart => exec_ctxsv_begins hr hp rfl hlt hw hother hsvc htask hpart,
    fun sp l hw pas was s2 hr hsp hspan hmatch hrec hl hroom hhw hwaits hres =>
      exec_ctxld hr hp hsp hspan hmatch hrec hl hroom hhw hwaits hres⟩
  · have hbits : bitsOf (s.reg64 w a).toNat 21 36 = (s.reg64 w a).toNat / 2 ^ 21 % 2 ^ 36 := bitsOf_eq _ _ _
    have hbit : bitOf (s.reg64 w a).toNat 0 = (s.reg64 w a).getLsbD 0 := bitOf_testBit _ _
    have h := exec_own hr hp hacq (by rwa [hbits])
    rw [hbit] at h
    refine ⟨fun hthere => ?_, fun hnot hctl => ?_⟩
    · rw [h]
      rcases hthere with hthere | hthere <;> simp [hthere]
    · rw [h]
      obtain ⟨hregion, hwait⟩ := not_or.mp hnot
      simp only [beq_false_of_ne hregion, beq_false_of_ne hwait, hctl, Bool.or_self, Bool.false_eq_true, if_false]
  · rw [exec_onePriv hr hp _ rfl]
    exact congrArg Host.Outcome.next (if_pos hw)

end Sys2Proof.Machine
end

section
namespace Sys2Proof.Machine

/-! ### Records at their homes (09 R215, R218, R222, R227) -/

section Reaches
variable {s s1 u : State} {i : Issue} {w : Who} {acc : Access} {align pa : Nat} {va : DWord} {c : Bool}

/-- An access that may issue, and whose line's home can answer, goes on there. -/
theorem reaching_reaches (hacq : s.acquiring w = false) (halign : va.toNat % align = 0)
    (hx : s.xlat w i.pc acc va = (.ok pa c, s1)) (hctl : inCtl pa = false)
    (hhome : s1.reachHome (.strand w i.pc) w (acc == .write) pa = (true, u)) (f : Nat → State → State) :
    reaching i w acc align va f s = f pa u := by
  refine (access_reaches hacq halign hx _).trans ?_
  simp only [hctl, Bool.false_eq_true, if_false, hhome]

theorem releasing_reaches (hrel : s.releaseReady w true = true) (hacq : s.acquiring w = false) (halign : va.toNat % align = 0)
    (hx : s.xlat w i.pc acc va = (.ok pa c, s1)) (hctl : inCtl pa = false)
    (hhome : s1.reachHome (.strand w i.pc) w (acc == .write) pa = (true, u)) (f : Nat → State → State) :
    releasing i w acc align va f s = f pa u := by
  rw [releasing, hrel]
  exact reaching_reaches hacq halign hx hctl hhome f

theorem reachingNext_reaches {write : Bool} (hhome : s.reachHome (.strand w i.pc) w write pa = (true, u)) (f : State → State) :
    reachingNext i w write pa f s = f u := by
  rw [reachingNext, hhome]

theorem unlessPoisoned_sound (h : s.poisonAt pa = 0) (f : State → State) : unlessPoisoned w va pa f s = f s := by
  rw [unlessPoisoned, h]
  rfl

/-- Poison ends the access as an asynchronous error. -/
theorem unlessPoisoned_poison {e : Nat} (h : s.poisonAt pa = e + 1) (f : State → State) :
    unlessPoisoned w va pa f s = s.asyncTrap w 16 e va 0#64 (if w.tid.isNone then 1 else 0) := by
  rw [unlessPoisoned, h]
  rfl

end Reaches

/-! ### Registration and JOIN -/

theorem State.decJoin_eq (s : State) (pa : Nat) : s.decJoin pa =
    let join := s.homeRead (pa + 16) 8
    if join % 2 ^ 32 = 0 then s.homeWrite (pa + 16) 8 (join ||| 2 ^ 36)
    else if join % 2 ^ 32 = 1 then (s.homeWrite (pa + 16) 8 (join - 1)).joined pa else s.homeWrite (pa + 16) 8 (join - 1) := by
  have h : bitsOf (s.homeRead (pa + 16) 8) 0 32 = s.homeRead (pa + 16) 8 % 2 ^ 32 := by simp [bitsOf]
  simp only [State.decJoin, h]

theorem State.mem_joined_recs (s : State) (pa : Nat) (r : Rec) : r ∈ (s.joined pa).sched.recs ↔
    (r ∈ s.sched.recs ∧ (r.pa ≠ pa ∨ r.ready.isSome = true)) ∨
    ∃ q ∈ s.sched.recs, q.pa = pa ∧ q.ready = none ∧ r = { q with ready := some s.ps } := by
  show r ∈ mapIf _ _ _ ↔ _
  simp only [mapIf, List.mem_map, Bool.and_eq_true, beq_iff_eq, Option.isNone_iff_eq_none]
  constructor
  · rintro ⟨q, hq, rfl⟩
    by_cases h : q.pa = pa ∧ q.ready = none
    · exact .inr ⟨q, hq, h.1, h.2, if_pos h⟩
    · rw [if_neg h]
      exact .inl ⟨hq, (not_and_or.mp h).imp_right Option.isSome_iff_ne_none.mpr⟩
  · rintro (⟨hr, h⟩ | ⟨q, hq, hpa, hready, rfl⟩)
    · exact ⟨r, hr, if_neg (not_and_or.mpr (h.imp_right Option.isSome_iff_ne_none.mp))⟩
    · exact ⟨q, hq, if_pos ⟨hpa, hready⟩⟩

/-- The record that registration lists. -/
theorem State.register_recs (s : State) (slot : Nat) (l : Launch) (va : DWord) (pa die : Nat) (onDie onCore : Option Nat) (startItem : Bool) :
    (s.register slot l va pa die onDie onCore startItem).sched.recs = s.sched.recs ++ [
      { key := s.fresh, slot, addr := va, pa, level := min (fld (s.homeRead pa 64) 2 32 3) l.level, die, onDie, onCore, startItem
        ready := if fld (s.homeRead pa 64) 2 0 32 = 0 then some s.ps else none }] := by
  have hs : SameHome s s.next.2 := ⟨rfl, rfl, rfl, rfl, rfl⟩
  rw [← hs.homeRead]
  rfl

/-! ### The words -/

section Words
variable {g : Guard} {d a : Reg} {s s1 s2 s3 u : State} {i : Issue} {w : Who} {pa pa2 : Nat} {c c2 : Bool} {l : Launch}

theorem exec_tenq (hrel : s.releaseReady w true = true) (hacq : s.acquiring w = false) (halign : (s.reg64 w a).toNat % 64 = 0)
    (hctl : inCtl pa = false) (hr : Runs s i (.tenq g a) w) (hx : s.xlat w i.pc .read (s.reg64 w a) = (.ok pa c, s1))
    (hhome : s1.reachHome (.strand w i.pc) w false pa = (true, s2)) (hacq2 : s2.acquiring w = false)
    (hx2 : s2.xlat w i.pc .write (s.reg64 w a) = (.ok pa2 c2, s3)) (hctl2 : inCtl pa2 = false)
    (hhome2 : s3.reachHome (.strand w i.pc) w true pa2 = (true, u)) (hpoison : u.poisonAt pa2 = 0)
    (hl : u.launchOf w.core w.ctx = some l) (hsound : recSound (u.homeRead pa2 64) = true)
    (hroom : u.queueUse (u.slotOf w.core w.ctx) < l.tqn) : exec (.tenq g a) s =
      .next ((u.homeWrite (pa2 + 30) 2 (u.slotOf w.core w.ctx)).register (u.slotOf w.core w.ctx) l (s.reg64 w a) pa2
        (l.serves (coreDie w.core)).1 (l.serves (coreDie w.core)).2 none false) := by
  refine hr.exec_eq rfl ?_
  rw [releasing_reaches hrel hacq halign hx hctl hhome, reaching_reaches hacq2 halign hx2 hctl2 hhome2, unlessPoisoned_sound hpoison]
  simp only [hl, hsound, Bool.not_true, Bool.false_eq_true, if_false, if_neg hroom.not_ge]

theorem exec_tdec (hrel : s.releaseReady w true = true) (hacq : s.acquiring w = false) (halign : (s.reg64 w a).toNat % 64 = 0)
    (hctl : inCtl pa = false) (hr : Runs s i (.tdec g a) w) (hx : s.xlat w i.pc .write (s.reg64 w a) = (.ok pa c, s1))
    (hhome : s1.reachHome (.strand w i.pc) w true pa = (true, u)) (hpoison : u.poisonAt pa = 0) :
    exec (.tdec g a) s = .next (u.decJoin pa) := by
  refine hr.exec_eq rfl ?_
  rw [releasing_reaches hrel hacq halign hx hctl hhome, unlessPoisoned_sound hpoison]

/-- A launch record that is read whole, with the entry record that it names, is refused or queued. -/
theorem exec_lnch {u0 : State} {entry : EntryRead} (hr : Runs s i (.lnch g d a) w) (hrel : s.releaseReady w true = true)
    (hacq : s.acquiring w = false) (halign : (s.reg64 w a).toNat % 128 = 0)
    (hx : s.xlat w i.pc .read (s.reg64 w a) = (.ok pa c, s1)) (hctl : inCtl pa = false)
    (hhome : s1.reachHome (.strand w i.pc) w false pa = (true, u0))
    (hhome2 : u0.reachHome (.strand w i.pc) w false (pa + 64) = (true, u)) (hpoison : u.poisonAt pa = 0)
    (hpoison2 : u.poisonAt (pa + 64) = 0)
    (hentry : u.entryRecord (.strand w i.pc) (coreDie w.core) (u.partOf w.core w.ctx) (!u.privileged w) (u.homeRead pa 128) = (entry, s3))
    (hwait : entry ≠ .wait) (hsound : ∀ e, entry ≠ .poison e) : exec (.lnch g d a) s = .next (
      let reason := s3.checkLaunch (u.homeRead pa 128) (u.partOf w.core w.ctx) (u.privileged w) (entry.found.map (·.2))
      if reason ≠ 0 then s3.setReg w d (2 + 16 * reason) else queueLaunch i w (s.reg64 w a) (u.homeRead pa 128) d s3) := by
  refine hr.exec_eq rfl ?_
  rw [releasing_reaches hrel hacq halign hx hctl hhome, reachingNext_reaches hhome2, unlessPoisoned_sound hpoison,
    unlessPoisoned_sound hpoison2]
  simp only [hentry]

/-- A record that finds four pending, and room in its launch's overflow queue, is written there. -/
theorem queueLaunch_overflow {va : DWord} {bits pb : Nat} {s4 s5 s6 : State} (hl : s.launchOf w.core w.ctx = some l)
    (hfull : 4 ≤ (s.ctx w.core w.ctx).pending.length) (hroom : l.ovTail - l.ovHead < l.oqn) (hacq : s.acquiring w = false)
    (hx : s.xlat w i.pc .write (BitVec.ofNat 64 (l.oqb + 128 * (l.ovTail % l.oqn))) = (.ok pb c, s4)) (hctl : inCtl pb = false)
    (hhome : s4.reachHome (.strand w i.pc) w true pb = (true, s5)) (hhome2 : s5.reachHome (.strand w i.pc) w true (pb + 64) = (true, s6)) :
    let z := (((s6.homeWrite pb 64 (bits % 2 ^ 512)).homeWrite (pb + 64) 64 (bits / 2 ^ 512)).modLaunch
      (s.slotOf w.core w.ctx) fun l => { l with ovTail := l.ovTail + 1, ovq := l.ovq ++ [(coreDie w.core, va)] }).setReg w d 1
    z.poisonAt pb = 0 → z.poisonAt (pb + 64) = 0 → queueLaunch i w va bits d s = z := by
  intro z hpoison hpoison2
  rw [queueLaunch, if_neg hfull.not_gt]
  simp only [hl, if_pos hroom]
  rw [overflowWrite, reaching_reaches hacq (Nat.mod_one _) hx hctl hhome, reachingNext_reaches hhome2]
  dsimp only
  rw [if_neg (not_not.mpr hpoison), unlessPoisoned_sound hpoison2]
  rfl

theorem queueLaunch_full {va : DWord} {bits : Nat} (hl : s.launchOf w.core w.ctx = some l)
    (hfull : 4 ≤ (s.ctx w.core w.ctx).pending.length) (hroom : l.oqn ≤ l.ovTail - l.ovHead) :
    queueLaunch i w va bits d s = s.setReg w d (2 + 16 * 9) := by
  rw [queueLaunch, if_neg hfull.not_gt]
  simp only [hl, if_neg hroom.not_gt]

/-- SETDL of the running task writes its record's field and its own deadline, and then looks at the line's poison. -/
theorem exec_setdl {k : Task} (hr : Runs s i (.setdl g a) w) (ht : (s.ctx w.core w.ctx).task = some k) (hacq : s.acquiring w = false)
    (hx : s.xlat w i.pc .write (k.record + 24#64) = (.ok pa c, s1)) (hctl : inCtl pa = false)
    (hhome : s1.reachHome (.strand w i.pc) w true pa = (true, s2)) : exec (.setdl g a) s = .next (
      unlessPoisoned w (k.record + 24#64) pa id ((s2.homeWrite pa 6 (s.reg w a % 2 ^ 48)).modCtx w.core w.ctx fun x =>
        { x with task := some { k with deadline := BitVec.ofNat 48 (s.reg w a) } })) := by
  refine hr.exec_eq rfl ?_
  dsimp only
  rw [ht]
  exact reaching_reaches hacq (Nat.mod_one _) hx hctl hhome _

end Words

/-- Settles O29: each word by its equation, where its accesses reach their homes. -/
theorem recordInstructions : Obligations.RecordInstructions := by
  refine ⟨fun g a s s1 s2 s3 u i w pa pa2 c c2 l => ⟨fun hrel hacq halign hctl =>
        ⟨fun hr hx hhome hacq2 hx2 hctl2 hhome2 hpoison hl hsound hroom =>
            exec_tenq hrel hacq halign hctl hr hx hhome hacq2 hx2 hctl2 hhome2 hpoison hl hsound hroom,
          fun hr hx hhome hpoison => ?_⟩,
      fun slot va pa die onDie onCore startItem => ⟨rfl, rfl, s.register_recs slot l va pa die onDie onCore startItem⟩,
      fun pa => ⟨rfl, s.mem_joined_recs pa⟩⟩,
    fun g d a s s1 u0 u s3 i w pa c entry hr hrel hacq halign hx hctl hhome hhome2 hpoison hpoison2 hentry hwait hsound => ?_,
    fun g a s s1 s2 i w k pa c hr => ⟨fun ht => ?_, fun ht hacq hx hctl hhome => ?_⟩⟩
  · rw [exec_tdec hrel hacq halign hctl hr hx hhome hpoison, State.decJoin_eq]
  · have hexec := exec_lnch hr hrel hacq halign hx hctl hhome hhome2 hpoison hpoison2 hentry hwait hsound
    refine ⟨fun hreason => hexec.trans ?_, fun hreason hroom => hexec.trans ?_, fun l hreason hfull hl =>
      ⟨fun hover => hexec.trans ?_, fun s4 s5 s6 pb c2 hover hacq3 hx3 hctl3 hhome3 hhome4 hpb hpb2 => hexec.trans ?_⟩⟩
    · exact congrArg Host.Outcome.next (if_pos hreason)
    all_goals refine congrArg Host.Outcome.next ((if_neg (not_not.mpr hreason)).trans ?_)
    · exact if_pos hroom
    · exact queueLaunch_full hl hfull hover
    · exact queueLaunch_overflow hl hfull hover hacq3 hx3 hctl3 hhome3 hhome4 hpb hpb2
  · refine hr.exec_eq rfl ?_
    simp only [ht]
  · have hexec := exec_setdl hr ht hacq hx hctl hhome
    exact ⟨fun hpoison => hexec.trans (congrArg Host.Outcome.next (unlessPoisoned_sound hpoison id)),
      fun e hpoison => hexec.trans (congrArg Host.Outcome.next (unlessPoisoned_poison hpoison id))⟩

end Sys2Proof.Machine
end

section
namespace Sys2Proof.Machine

/-! ### What accesses at the homes leave alone

An access of the device's own agents translates through the walkers, recalls host copies, lands casts and writes lines. It moves
memory and what the homes, the walkers and the regulators hold; of a core it moves the copies of lines alone, where the core has a
context listed (a core with nothing in it is not listed). -/

/-- Nothing of a core but its copies of lines, the loads that fill them and the casts it took. -/
def Core.OnlyCopies (x y : Core) : Prop := ∃ l1 loads installed windowAt, y = { x with l1, loads, installed, windowAt }

theorem Core.OnlyCopies.refl (x : Core) : x.OnlyCopies x := ⟨_, _, _, _, rfl⟩
theorem Core.OnlyCopies.trans {x y z : Core} (h : x.OnlyCopies y) (g : y.OnlyCopies z) : x.OnlyCopies z := by
  obtain ⟨_, _, _, _, rfl⟩ := h
  obtain ⟨_, _, _, _, rfl⟩ := g
  exact ⟨_, _, _, _, rfl⟩
theorem Core.OnlyCopies.ctxs {x y : Core} (h : x.OnlyCopies y) : y.ctxs = x.ctxs := by
  obtain ⟨_, _, _, _, rfl⟩ := h
  rfl
theorem Core.OnlyCopies.trapvec {x y : Core} (h : x.OnlyCopies y) : y.trapvec = x.trapvec := by
  obtain ⟨_, _, _, _, rfl⟩ := h
  rfl

/-- Each core with a context listed keeps all but its copies of lines. -/
def KeepsCores (s t : State) : Prop := ∀ c, (s.core c).ctxs ≠ [] → (s.core c).OnlyCopies (t.core c)

theorem KeepsCores.of_cores {s t : State} (h : t.cores = s.cores) : KeepsCores s t := fun c _ => by
  rw [State.core, State.core, h]
  exact .refl _
theorem KeepsCores.trans {s t u : State} (h : KeepsCores s t) (g : KeepsCores t u) : KeepsCores s u := fun c hc => by
  have ht := h c hc
  exact ht.trans (g c (ht.ctxs ▸ hc))
theorem KeepsCores.modCore {s : State} {c : Nat} {f : Core → Core} (hf : (s.core c).OnlyCopies (f (s.core c))) :
    KeepsCores s (s.modCore c f) := fun d _ => by
  rw [State.core_modCore]
  split
  · next h => exact h ▸ hf
  · exact .refl _

/-- A table looked up after each entry was changed and the entries of one kind were dropped, where neither meets the default. -/
theorem tblGet_filter_map {α : Type} {d : α} {f : α → α} {p : α → Bool} : ∀ {t : Tbl α} {n : Nat}, p (f (tblGet d t n)) = true →
    tblGet d t n ≠ d → tblGet d ((t.map fun e => (e.1, f e.2)).filter fun e => p e.2) n = f (tblGet d t n)
  | [], _, _, hd => absurd rfl hd
  | (k, v) :: t, n, hp, hd => by
    rw [tblGet] at hp hd ⊢
    rw [List.map_cons, List.filter_cons]
    by_cases hk : k = n
    · rw [if_pos hk] at hp ⊢
      simp only [hp, if_true, tblGet, hk]
    · rw [if_neg hk] at hp hd ⊢
      have ih := tblGet_filter_map (t := t) hp hd
      split
      · rw [tblGet, if_neg hk, ih]
      · exact ih

theorem State.dropCopies_keepsCores (s : State) (p : Nat → Bool) (demand : Bool) : KeepsCores s (s.dropCopies p demand) := fun c hc => by
  have hne : s.core c ≠ {} := fun h => hc (by rw [h])
  let f (x : Core) : Core := { x with
    l1 := x.l1.filter fun x => !(p x.line && (demand || x.pushed))
    loads := mapIf (fun l => demand && p (lineOf l.pa)) (fun l => { l with fill := false }) x.loads }
  have hf : (!(f (s.core c) == {})) = true := by
    rw [Bool.not_eq_true', beq_eq_false_iff_ne]
    exact fun h => hc (congrArg Core.ctxs h)
  have hget := tblGet_filter_map (f := f) (p := fun x => !(x == {})) hf hne
  have ht : (s.dropCopies p demand).core c = f (s.core c) := hget
  rw [ht]
  exact ⟨_, _, _, _, rfl⟩

/-- A state without what accesses at the homes move. -/
def State.beyondHomes (s : State) : State :=
  { s with
    fresh := 0, mem := [], cores := [], power := {}
    homes := { s.homes with
      owed := [], devWaits := [], regions := [], moving := [], hostDir := [], castDir := [], stcs := [], msgs := [], sc := [], lineKeys := [] }
    sched := { s.sched with walks := [], walker0 := [], walker1 := [] } }

/-- Nothing moves but what accesses at the homes move. -/
structure AtHomes (s t : State) : Prop where
  rest : t.beyondHomes = s.beyondHomes
  cores : KeepsCores s t

section AtHomes

variable {s t u : State}

theorem AtHomes.refl (s : State) : AtHomes s s := ⟨rfl, .of_cores rfl⟩
theorem AtHomes.trans (h : AtHomes s t) (g : AtHomes t u) : AtHomes s u := ⟨g.rest.trans h.rest, h.cores.trans g.cores⟩
theorem AtHomes.foldl {α : Type} {f : State → α → State} (hf : ∀ t x, AtHomes t (f t x)) (l : List α) (s : State) :
    AtHomes s (l.foldl f s) :=
  foldl_keeps (AtHomes s) f l s (.refl s) fun t x ht => ht.trans (hf t x)
theorem OnlyRequests.atHomes (h : OnlyRequests s t) : AtHomes s t := by
  obtain ⟨_, _, _, _, _, rfl⟩ := h
  exact ⟨rfl, .of_cores rfl⟩

theorem AtHomes.ctl (h : AtHomes s t) : t.ctl = s.ctl := (congrArg State.ctl h.rest :)
theorem AtHomes.ps (h : AtHomes s t) : t.ps = s.ps := (congrArg State.ps h.rest :)
theorem AtHomes.savebase (h : AtHomes s t) : t.savebase = s.savebase := (congrArg State.savebase h.rest :)
theorem AtHomes.launches (h : AtHomes s t) : t.launches = s.launches := (congrArg State.launches h.rest :)
theorem AtHomes.recs (h : AtHomes s t) : t.sched.recs = s.sched.recs := (congrArg (fun u => u.sched.recs) h.rest :)
theorem AtHomes.spilled (h : AtHomes s t) : t.sched.spilled = s.sched.spilled := (congrArg (fun u => u.sched.spilled) h.rest :)
theorem AtHomes.poison (h : AtHomes s t) : t.homes.poison = s.homes.poison := (congrArg (fun u => u.homes.poison) h.rest :)
theorem AtHomes.keys (h : AtHomes s t) : t.homes.keys = s.homes.keys := (congrArg (fun u => u.homes.keys) h.rest :)
theorem AtHomes.keyScrub (h : AtHomes s t) : t.homes.keyScrub = s.homes.keyScrub := (congrArg (fun u => u.homes.keyScrub) h.rest :)
theorem AtHomes.ctx {c : Nat} (h : AtHomes s t) (hc : (s.core c).ctxs ≠ []) (k : Nat) : t.ctx c k = s.ctx c k := by
  rw [State.ctx, (h.cores c hc).ctxs, State.ctx]
theorem AtHomes.trapBlock {c : Nat} (h : AtHomes s t) (hc : (s.core c).ctxs ≠ []) : t.trapBlock c = s.trapBlock c := by
  rw [State.trapBlock, (h.cores c hc).trapvec, State.trapBlock]
theorem AtHomes.leadFrame {c : Nat} (h : AtHomes s t) (hc : (s.core c).ctxs ≠ []) (k : Nat) : t.leadFrame c k = s.leadFrame c k := by
  rw [State.leadFrame, h.trapBlock hc, State.leadFrame]
theorem AtHomes.handlerEntry {c : Nat} (h : AtHomes s t) (hc : (s.core c).ctxs ≠ []) : t.handlerEntry c = s.handlerEntry c := by
  rw [State.handlerEntry, h.trapBlock hc, State.handlerEntry]
theorem AtHomes.ctxs_ne {c : Nat} (h : AtHomes s t) (hc : (s.core c).ctxs ≠ []) : (t.core c).ctxs ≠ [] := (h.cores c hc).ctxs ▸ hc
theorem AtHomes.forward (h : AtHomes s t) (pa : Nat) : t.forward pa = s.forward pa := State.forward_congr s t h.ctl pa
theorem AtHomes.poisonAt (h : AtHomes s t) (pa : Nat) : t.poisonAt pa = s.poisonAt pa := by
  rw [State.poisonAt, h.poison, h.forward, State.poisonAt]
theorem AtHomes.keyed (h : AtHomes s t) : t.keyed = s.keyed := by
  rw [State.keyed, h.keys, State.keyed]
theorem AtHomes.poisoned (h : AtHomes s t) (pas : List Nat) : t.poisoned pas = s.poisoned pas := by
  simp only [State.poisoned, h.poisonAt]

end AtHomes

/-- A context of which a field is not as at reset stands in a listed context of its core. -/
theorem State.ctxs_ne_nil {s : State} {c k : Nat} (h : s.ctx c k ≠ {}) : (s.core c).ctxs ≠ [] := fun he =>
  h (by rw [State.ctx, he]; rfl)

/-! Writes at the home. -/

section Writes

variable (s : State)

theorem AtHomes.modCore {c : Nat} {f : Core → Core} (hf : (s.core c).OnlyCopies (f (s.core c))) : AtHomes s (s.modCore c f) :=
  ⟨rfl, .modCore hf⟩
theorem State.send_atHomes (c line : Nat) (k : MsgKind) : AtHomes s (s.send c line k) :=
  ⟨rfl, .of_cores rfl⟩
theorem State.loseDemand_atHomes (c : Nat) (lines : List Nat) : AtHomes s (s.loseDemand c lines) := .modCore s ⟨_, _, _, _, rfl⟩
theorem State.fillL1_atHomes (c : Nat) (x : L1Line) : AtHomes s (s.fillL1 c x) := by
  have h : AtHomes s (s.modCore c fun co => { co with l1 := l1Install co.l1 x }) := .modCore s ⟨_, _, _, _, rfl⟩
  fun_cases State.fillL1
  · exact h.trans (State.send_atHomes _ _ _ _)
  · exact h
  · exact h
theorem State.loseLine_atHomes (c line : Nat) : AtHomes s (s.loseLine c line) := .modCore s ⟨_, _, _, _, rfl⟩
theorem State.dropMsg_atHomes (id : Nat) : AtHomes s (s.dropMsg id) := ⟨rfl, .of_cores rfl⟩
theorem State.castInstall_atHomes (c line : Nat) (data : Line) : AtHomes s (s.castInstall c line data) := by
  unfold State.castInstall
  exact ((s.loseLine_atHomes c line).trans (State.fillL1_atHomes _ _ _)).trans (.modCore _ ⟨_, _, _, _, rfl⟩)
theorem State.castLand_atHomes (core line stc part : Nat) (data : Line) : AtHomes s (s.castLand core line stc part data) := by
  fun_cases State.castLand
  · exact State.send_atHomes _ _ _ _
  · exact (State.castInstall_atHomes _ _ _ _).trans (State.send_atHomes _ _ _ _)
theorem State.sendCasts_atHomes (id n : Nat) : AtHomes s (s.sendCasts id n) := by
  fun_cases State.sendCasts
  · exact .refl s
  · refine AtHomes.trans ?_ (AtHomes.foldl (fun t _ => t.send_atHomes _ _ _) _ _)
    exact ⟨rfl, .of_cores rfl⟩
theorem State.landCasts_atHomes (p : Nat → Bool) : AtHomes s (s.landCasts p) := by
  refine (AtHomes.foldl (fun t _ => t.sendCasts_atHomes _ _) _ s).trans (AtHomes.foldl (fun t m => ?_) _ _)
  split
  · split
    · exact (t.dropMsg_atHomes m.id).trans (State.castLand_atHomes _ _ _ _ _ _)
    · exact .refl t
  · exact .refl t
theorem State.purgeLine_atHomes (line : Nat) : AtHomes s (s.purgeLine line) :=
  (s.landCasts_atHomes _).trans ⟨rfl, State.dropCopies_keepsCores _ _ _⟩
theorem State.poke_atHomes (pa n v : Nat) : AtHomes s (s.poke pa n v) := by
  obtain ⟨_, _, _, h⟩ := s.poke_frame pa n v
  rw [h]
  exact ⟨rfl, .of_cores rfl⟩
theorem State.homeWrite_atHomes (pa n v : Nat) : AtHomes s (s.homeWrite pa n v) := by
  unfold State.homeWrite
  split
  · exact .refl s
  · exact (s.purgeLine_atHomes _).trans (State.poke_atHomes _ _ _ _)
theorem State.pokeLines_atHomes (pas : List Nat) (v : Nat) : AtHomes s (s.pokeLines pas v) := by
  induction pas generalizing s v with
  | nil => exact .refl s
  | cons pa pas ih => exact (s.homeWrite_atHomes pa 64 _).trans (ih _ _)

end Writes

/-! Pieces translated and made ready. -/

section Pieces

variable (s : State)

theorem State.recallLine_atHomes (line : Nat) : AtHomes s (s.recallLine line) := by
  fun_cases State.recallLine
  · exact ⟨rfl, .of_cores rfl⟩
  · exact .refl s
theorem State.useWalk_atHomes (part : Nat) (user : Bool) (acc : Access) (v : Nat) (r : Walked) :
    AtHomes s (s.useWalk part user acc v r).2.2.2 := by
  fun_cases State.useWalk <;> grind [State.recallLine_atHomes, State.homeWrite_atHomes, AtHomes.refl]
theorem State.goWalk_atHomes (a : Agent) (die part v : Nat) : AtHomes s (s.goWalk a die part v).2 := by
  have hjoin (p n : Nat) : AtHomes s (s.joinWalk a p n (v / 4096)) := ⟨rfl, .of_cores rfl⟩
  have hpay (t : State) (b : Agent) (l : List (Nat × Nat)) : AtHomes t (t.pay b l).2 := (OnlyRequests.pay t b l).atHomes
  have hend (t : State) (r : Walked) : AtHomes t (t.endWalk die part (v / 4096) r) :=
    ⟨rfl, .of_cores rfl⟩
  have hq (t : State) (b : Agent) : AtHomes t (t.unqueue b) := (OnlyRequests.unqueue t b).atHomes
  fun_cases State.goWalk <;> grind [State.recallLine_atHomes, AtHomes.trans]
theorem State.keepPath_atHomes (die part v : Nat) (path : List (Nat × Nat)) : AtHomes s (s.keepPath die part v path) := by
  unfold State.keepPath State.setWalkers
  dsimp only
  split <;> exact ⟨rfl, .of_cores rfl⟩
theorem State.walk_atHomes (a : Agent) (die part : Nat) (user : Bool) (acc : Access) (va : DWord) :
    AtHomes s (s.walk a die part user acc va).2.2.2 := by
  fun_cases State.walk <;> grind [State.useWalk_atHomes, State.goWalk_atHomes, State.keepPath_atHomes, AtHomes.trans]
theorem State.dieTranslate_atHomes (a : Agent) (die part : Nat) (user : Bool) (acc : Access) (va : DWord) :
    AtHomes s (s.dieTranslate a die part user acc va).2 := by
  fun_cases State.dieTranslate <;> grind [State.walk_atHomes, AtHomes.refl]
theorem State.served_atHomes (r : Nat) (a : Agent) : AtHomes s (s.served r a) := by
  fun_cases State.served
  · exact ⟨rfl, .of_cores rfl⟩
  · exact .refl s
theorem State.wantAcc_atHomes (r : Nat) : AtHomes s (s.wantAcc r) := by
  fun_cases State.wantAcc
  · exact ⟨rfl, .of_cores rfl⟩
  · exact .refl s
theorem State.waitAt_atHomes (r : Nat) (a : Agent) : AtHomes s (s.waitAt r a) := by
  fun_cases State.waitAt
  · exact .refl s
  · exact ⟨rfl, .of_cores rfl⟩
theorem State.devReady_atHomes (a : Agent) (pa : Nat) : AtHomes s (s.devReady a pa).2 := by
  have hq (t : State) (b : Agent) : AtHomes t (t.unqueue b) := (OnlyRequests.unqueue t b).atHomes
  fun_cases State.devReady <;> grind [State.wantAcc_atHomes, State.waitAt_atHomes, AtHomes.trans, AtHomes.refl]
theorem State.accReady_atHomes (a : Agent) (write : Bool) (pa : Nat) : AtHomes s (s.accReady a write pa).2 := by
  have hq (t : State) (b : Agent) : AtHomes t (t.unqueue b) := (OnlyRequests.unqueue t b).atHomes
  fun_cases State.accReady <;> grind [State.devReady_atHomes]
theorem State.span_atHomes (a : Agent) (die part : Nat) (user : Bool) (acc : Access) (va : DWord) (page : Option Nat) (n : Nat) :
    AtHomes s (s.span a die part user acc va page n).2 := by
  induction n generalizing s va page with
  | zero => exact .refl s
  | succ n ih =>
    have ih (t : State) (p : Option Nat) := ih t (va + 64#64) p
    rw [State.span]
    generalize va + 64#64 = next at ih ⊢
    grind [State.dieTranslate_atHomes, State.accReady_atHomes, State.served_atHomes, AtHomes.trans, AtHomes.refl]

end Pieces

end Sys2Proof.Machine
end

section
namespace Sys2Proof.Machine

/-! ### TRAP, WFE, EVSIG and SVC (09 R234, R236, R237) -/

section Words

variable {g : Guard} {d a : Reg} {s s1 : State} {i : Issue} {w : Who}

theorem exec_wfe (hr : Runs s i (.wfe g) w) (he : (s.ctx w.core w.ctx).event = true) : exec (.wfe g) s =
    .next (s.modCtx w.core w.ctx fun x => { x with event := false }) := by
  rw [exec_one hr _ rfl, he]
  rfl

theorem exec_evsig (hr : Runs s i (.evsig g a) w) (hn : s.reg w a < 2 ^ 13) (hc : s.reg w a % 2 ^ 10 < 640)
    (hp : (if isServiceCtx (s.reg w a % 2 ^ 10) (s.reg w a / 2 ^ 10) then 0 else s.corePart (s.reg w a % 2 ^ 10)) = s.partOf w.core w.ctx) :
    exec (.evsig g a) s = .next (s.modCtx (s.reg w a % 2 ^ 10) (s.reg w a / 2 ^ 10) fun x => { x with event := true }) := by
  have h63 : bitOf (s.reg w a) 63 = false := by
    rw [bitOf_testBit]
    exact Nat.testBit_lt_two_pow (by omega)
  have hcore : bitsOf (s.reg w a) 0 10 = s.reg w a % 2 ^ 10 := rfl
  have hctx : bitsOf (s.reg w a) 10 3 = s.reg w a / 2 ^ 10 := by
    rw [bitsOf, Nat.shiftRight_eq_div_pow]
    omega
  rw [exec_one hr _ rfl]
  simp only [h63, hcore, hctx, Bool.false_eq_true, if_false]
  rw [if_neg (by rw [hp]; omega)]

theorem exec_svc (hr : Runs s i (.svc g d a) w) (hs : isServiceCtx w.core w.ctx = false) (hrel : s.releaseReady w true = true)
    (hroom : (callBatches (i.calls ++ [(w, d.toNat, s.reg64 w a, match w.tid with
      | none => s.sreg w (a.toNat + 1) | some n => s.gpair w n (a.toNat + 2))])).length ≤
        s.ringRoom (s.ringOff (coreDie w.core) (s.partOf w.core w.ctx)))
    (hready : s.ringReady (.strand w i.pc) (s.ringOff (coreDie w.core) (s.partOf w.core w.ctx))
      (callBatches (i.calls ++ [(w, d.toNat, s.reg64 w a, match w.tid with
        | none => s.sreg w (a.toNat + 1) | some n => s.gpair w n (a.toNat + 2))])).length = (true, s1)) (hcur : s1.cur = s.cur) :
    exec (.svc g d a) s = .next { s1 with cur := some { i with calls := i.calls ++ [(w, d.toNat, s.reg64 w a, match w.tid with
      | none => s.sreg w (a.toNat + 1) | some n => s.gpair w n (a.toNat + 2))] } } := by
  have hi : s.cur = some i := hr.1.1
  rw [exec_one hr _ rfl]
  simp only [hs, hrel, hi, Bool.false_eq_true, if_false, Bool.not_true, Option.map_some, Option.getD_some]
  obtain ⟨core, ctx, _ | n⟩ := w <;> dsimp only [State.reg64] at hroom hready ⊢ <;>
    rw [if_neg (Nat.not_lt.mpr hroom)] <;> simp only [hready, hcur, hi, Option.map_some]

end Words

/-! ### A return from the handler issues (24 R357) -/

section Eret

variable {g : Guard} {s s1 s2 : State} {i : Issue} {w : Who} {t : Trap} {rest : List Trap} {pas : List Nat} {ws : List Word}

/-- What every return from a handler has seen done: it is its context's lead strand, privileged, and what the handler wrote and
loaded has performed. -/
structure Returns (g : Guard) (s : State) (i : Issue) (w : Who) (t : Trap) (rest : List Trap) : Prop where
  runs : Runs s i (.eret g) w
  priv : s.privileged w = true
  lead : w.tid = none
  handler : (s.ctx w.core w.ctx).handler = true
  traps : (s.ctx w.core w.ctx).traps = t :: rest
  done : (s.loadsDone w && s.ownStoresDone w) = true

theorem Ctx.abortsTask_iff {x : Ctx} (h : x.traps = t :: rest) : x.abortsTask = true ↔ x.act t = 3 ∧ t.tid = none := by
  rw [Ctx.abortsTask, h]
  simp

theorem Returns.exec_aborts (h : Returns g s i w t rest) (hact : (s.ctx w.core w.ctx).act t = 3) (htid : t.tid = none) :
    exec (.eret g) s = .next (if s.abortReady w = true then s.eret w.core w.ctx 0 [] else markWait w s) := by
  have ha : (s.ctx w.core w.ctx).abortsTask = true := (Ctx.abortsTask_iff h.traps).mpr ⟨hact, htid⟩
  rw [exec_onePriv h.runs h.priv _ rfl]
  simp only [h.handler, h.lead, h.done, ha, Bool.not_true, Option.isSome_none, Bool.or_self, Bool.false_eq_true, if_false, if_true,
    waitUnless]

/-- The words of the bundle that a return is to skip are fetched; no other return fetches. -/
def State.skipped (s : State) (skips : Bool) (w : Who) (a : Agent) (pc : DWord) : Fetched × State :=
  if skips then s.fetchWords w a false pc 4 [] else (.ok [], s)

theorem Returns.exec_returns (h : Returns g s i w t rest) (hact : (s.ctx w.core w.ctx).act t ≠ 3 ∨ t.tid.isSome = true)
    (hsvc : ∀ y l, rest = y :: l → y.service = none)
    (hspan : s.span (.strand w i.pc) (coreDie w.core) (s.partOf w.core w.ctx) false .write (s.leadFrame w.core w.ctx) none 16 = (.ok pas, s1))
    (hsound : s1.poisoned (if rest = [] then pas.take 12 else (pas.drop 11).take 2) = false)
    (hwords : s1.skipped ((s.ctx w.core w.ctx).act t == 2) w (.strand w i.pc) (s.ctx w.core w.ctx).trapPc = (.ok ws, s2)) :
    exec (.eret g) s = .next (s2.eret w.core w.ctx ws.length pas) := by
  have ha : (s.ctx w.core w.ctx).abortsTask = false := Bool.eq_false_iff.mpr fun he => by
    obtain ⟨h3, hn⟩ := (Ctx.abortsTask_iff h.traps).mp he
    simp [h3, hn] at hact
  have hserv : (((s.ctx w.core w.ctx).traps.drop 1).head?.any fun t => t.service.isSome) = false := by
    rw [h.traps, List.drop_one, List.tail_cons]
    cases rest with
    | nil => rfl
    | cons y l => simp [hsvc y l rfl]
  have hused : (s.ctx w.core w.ctx).returnPieces pas = if rest = [] then pas.take 12 else (pas.drop 11).take 2 := by
    simp only [Ctx.returnPieces, h.traps, List.drop_one, List.tail_cons, List.isEmpty_iff]
  have hskip : ((s.ctx w.core w.ctx).traps.head?.any fun t => (s.ctx w.core w.ctx).act t == 2) = ((s.ctx w.core w.ctx).act t == 2) := by
    rw [h.traps, List.head?_cons, Option.any_some]
  rw [exec_onePriv h.runs h.priv _ rfl]
  simp only [h.handler, h.lead, h.done, ha, hserv, Bool.not_true, Option.isSome_none, Bool.or_self, Bool.false_eq_true, if_false]
  generalize s.leadFrame w.core w.ctx = frame at hspan ⊢
  rw [State.skipped] at hwords
  simp only [hspan, hused, hskip, hsound, hwords, Bool.false_eq_true, if_false]

end Eret

end Sys2Proof.Machine
end

section
namespace Sys2Proof.Machine

/-! ### A trap is delivered (24 R354, R355, R357) -/

section Deliver

variable {s s1 : State} {c k : Nat} {t : Trap} {rest : List Trap} {pas : List Nat}

theorem State.ctxs_of_traps (h : (s.ctx c k).traps = t :: rest) : (s.core c).ctxs ≠ [] :=
  State.ctxs_ne_nil fun he => by
    rw [he] at h
    cases h

/-- The pieces that a delivery writes: the whole frame at the first, the trap record at each later one. -/
def deliveredPieces (first : Bool) (pas : List Nat) : List Nat := if first then pas else pas.drop 12 |>.take 1

/-- A delivery whose pieces are sound enters the handler with the trap that stands first. -/
theorem State.deliverAt_ctx (h : (s.ctx c k).traps = t :: rest) (first : Bool)
    (hsound : s.poisoned (deliveredPieces first pas) = false) :
    (s.deliverAt c k first pas).ctx c k = (s.ctx c k).enterHandler t (s.leadFrame c k) (s.handlerEntry c) := by
  have hne := State.ctxs_of_traps h
  rw [deliveredPieces] at hsound
  simp only [State.deliverAt, h, hsound, Bool.false_eq_true, if_false, State.modCtx_ctx]
  generalize (if first = true then (s.ctx c k).frameBits + t.recordBits rest.length * 2 ^ (8 * 768) else t.recordBits rest.length) = v
  have hw := (s.pokeLines_atHomes (if first = true then pas else List.take 1 (List.drop 12 pas)) v).trans
    (State.loseDemand_atHomes _ c (pas.map lineOf))
  rw [hw.ctx hne, hw.handlerEntry hne]

theorem Ctx.enterHandler_spec (x : Ctx) (t : Trap) (frame entry : DWord) : let y := x.enterHandler t frame entry
    y.handler = true ∧ y.traps = x.traps ∧ y.trapCause = t.causeWord ∧ y.trapPc = t.pc ∧ y.trapRegion = t.regionPc ∧
    y.trapCount = t.regionCnt.setWidth 64 ∧ y.str.pc = entry ∧ tblGet 0#64 y.s 0 = frame ∧ tblGet 0#64 y.s 1 = frame + 0x300#64 ∧
    ∀ n, 2 ≤ n → tblGet 0#64 y.s n = tblGet 0#64 x.s n := by
  refine ⟨rfl, rfl, rfl, rfl, rfl, rfl, rfl, ?_, ?_, fun n hn => ?_⟩ <;>
    simp only [Ctx.enterHandler, tblGet_put]
  · rfl
  · rfl
  · rw [if_neg (by omega), if_neg (by omega)]

theorem State.deliver_ctx (h : (s.ctx c k).traps = t :: rest)
    (hspan : s.span (.context c k) (coreDie c) (s.partOf c k) (!s.privileged { core := c, ctx := k }) .write (s.leadFrame c k) none 16 =
      (.ok pas, s1))
    (hsound : (s1.forget (.context c k)).poisoned pas = false) :
    (s.deliver c k).ctx c k = (s.ctx c k).enterHandler t (s.leadFrame c k) (s.handlerEntry c) := by
  have hne := State.ctxs_of_traps h
  have hat : AtHomes s (s1.forget (.context c k)) := by
    have hs := s.span_atHomes (.context c k) (coreDie c) (s.partOf c k) (!s.privileged { core := c, ctx := k }) .write
      (s.leadFrame c k) none 16
    rw [hspan] at hs
    exact hs.trans (OnlyRequests.forget s1 _).atHomes
  rw [← hat.ctx hne, ← hat.leadFrame hne, ← hat.handlerEntry hne]
  rw [← hat.ctx hne] at h
  rw [← State.deliverAt_ctx h true hsound, State.deliver]
  rw [hat.ctx hne] at h
  generalize s.leadFrame c k = frame at hspan ⊢
  simp only [h, hspan]

end Deliver

/-! ### A return from the handler takes place (24 R355, R357, R369) -/

section Restore

/-- Bytes of a piece of a frame, as its pieces read together. -/
theorem State.bytesAt_peekLines (s : State) : ∀ (pas : List Nat) (j o n : Nat), j < pas.length → o + n ≤ 64 →
    bytesAt (s.peekLines pas) (64 * j + o) n = bytesAt (s.homeRead (pas.getD j 0) 64) o n
  | [], j, _, _, hj, _ => absurd hj (Nat.not_lt_zero j)
  | pa :: pas, 0, o, n, _, hn => by
    have hpow : lineRadix = 2 ^ (8 * o) * (2 ^ (8 * n) * 2 ^ (512 - 8 * o - 8 * n)) := by
      rw [← Nat.pow_add, ← Nat.pow_add, lineRadix]
      congr 1
      omega
    rw [State.peekLines, bytesAt, bytesAt, bitsOf_eq, bitsOf_eq, hpow, Nat.mul_zero, Nat.zero_add, List.getD_cons_zero, Nat.mul_assoc,
      Nat.add_mul_div_left _ _ (Nat.two_pow_pos _), Nat.mul_assoc, Nat.add_mul_mod_self_left]
  | pa :: pas, j + 1, o, n, hj, hn => by
    have ih := State.bytesAt_peekLines s pas j o n (by simpa using hj) hn
    have hlt : s.homeRead pa 64 < lineRadix := by
      rw [lineRadix, show 512 = 8 * 64 from rfl]
      exact s.homeRead_lt pa 64
    have hpos : 0 < lineRadix := Nat.two_pow_pos _
    have hpow : 2 ^ (8 * (64 * (j + 1) + o)) = lineRadix * 2 ^ (8 * (64 * j + o)) := by
      rw [lineRadix, ← Nat.pow_add]
      exact congrArg (2 ^ ·) (by omega)
    rw [bytesAt, bitsOf_eq] at ih ⊢
    rw [List.getD_cons_succ, ← ih, State.peekLines, hpow, ← Nat.div_div_eq_div_mul, Nat.add_mul_div_left _ _ hpos,
      Nat.div_eq_of_lt hlt, Nat.zero_add]

theorem bytesAt_bytesAt (v off : Nat) {n m : Nat} (h : m ≤ n) : bytesAt (bytesAt v off n) 0 m = bytesAt v off m := by
  rw [bytesAt, bytesAt, bytesAt, bitsOf_eq, bitsOf_eq, bitsOf_eq, Nat.mul_zero, pow_zero, Nat.div_one,
    Nat.mod_mod_of_dvd _ (pow_dvd_pow 2 (by omega))]

theorem readBytes_append (m : Memory) (a k n : Nat) : readBytes m a (k + n) = readBytes m a k + 256 ^ k * readBytes m (a + k) n := by
  induction k generalizing a with
  | zero => rw [Nat.zero_add, readBytes, pow_zero, Nat.one_mul, Nat.zero_add, Nat.add_zero]
  | succ k ih => rw [Nat.succ_add, readBytes, readBytes, ih, Nat.mul_add, ← Nat.mul_assoc, ← Nat.pow_succ', Nat.add_assoc, Nat.add_assoc,
      Nat.add_comm 1 k]

/-- Bytes in the middle of bytes of memory. -/
theorem bytesAt_readBytes (m : Memory) (a : Nat) {o n l : Nat} (h : o + n ≤ l) :
    bytesAt (readBytes m a l) o n = readBytes m (a + o) n := by
  obtain ⟨r, rfl⟩ := Nat.exists_eq_add_of_le h
  have h1 := readBytes_lt m a o
  have h2 := readBytes_lt m (a + o) n
  rw [bytesAt, bitsOf_eq, Nat.pow_mul, Nat.pow_mul, Nat.add_assoc, readBytes_append, readBytes_append]
  norm_num only
  rw [Nat.add_mul_div_left _ _ (by positivity), Nat.div_eq_of_lt h1, Nat.zero_add, Nat.add_mul_mod_self_left, Nat.mod_eq_of_lt h2]

theorem SameHome.peekLines {s t : State} (h : SameHome s t) (pas : List Nat) : t.peekLines pas = s.peekLines pas := by
  induction pas with
  | nil => rfl
  | cons pa pas ih => rw [State.peekLines, State.peekLines, ih, h.homeRead]

/-- The lead strand of a context is restored from its frame, and its handler is left (R357). -/
def State.restoreLead (s : State) (c k : Nat) (pas : List Nat) : State :=
  let v := s.peekLines pas
  s.modCtx c k fun x =>
    let y := x.ofFrame v
    ({ y with
      str := { y.str with reentry := x.replayed }, lc0 := { y.lc0 with draining := x.drained && y.lc0.isOpen }
      handler := false, replayed := false, drained := false, fenced := false, trapCause := 0#64, trapPc := 0#64, trapRegion := 0#64
      trapCount := 0#64 } : Ctx).unstop s.ps

theorem State.restoreLead_ctx (s : State) (c k : Nat) (pas : List Nat) : let x := s.ctx c k
    let y := (s.restoreLead c k pas).ctx c k
    let f := s.peekLines pas
    y.traps = x.traps ∧ y.handler = false ∧ y.trapCause = 0#64 ∧ y.trapPc = 0#64 ∧ y.trapRegion = 0#64 ∧ y.trapCount = 0#64 ∧
    y.threads = x.threads ∧ y.s = tblOf 64 64 8 (bytesAt f 0xC0 512) ∧ y.q = BitVec.ofNat 16 (bytesAt f 0x2C0 2) ∧
    y.str.pc = BitVec.ofNat 64 (bytesAt f 0x2C8 8) ∧ y.str.regionPc = BitVec.ofNat 64 (bytesAt f 0x2D0 8) ∧
    y.lc0.count = BitVec.ofNat 32 (bytesAt f 0 4) ∧ y.lc1.count = BitVec.ofNat 32 (bytesAt f 0x60 4) := by
  intro x y f
  have hy : y = ({ x.ofFrame f with
      str := { (x.ofFrame f).str with reentry := x.replayed }
      lc0 := { (x.ofFrame f).lc0 with draining := x.drained && (x.ofFrame f).lc0.isOpen }
      handler := false, replayed := false, drained := false, fenced := false, trapCause := 0#64, trapPc := 0#64, trapRegion := 0#64
      trapCount := 0#64 } : Ctx).unstop s.ps := State.modCtx_ctx s c k _
  have hlc0 : (Loop.ofBits (bytesAt f 0 96) true).count = BitVec.ofNat 32 (bytesAt f 0 4) :=
    congrArg (BitVec.ofNat 32) (bytesAt_bytesAt f 0 (by decide))
  have hlc1 : (Loop.ofBits (bytesAt f 0x60 96) false).count = BitVec.ofNat 32 (bytesAt f 0x60 4) :=
    congrArg (BitVec.ofNat 32) (bytesAt_bytesAt f 0x60 (by decide))
  rw [hy, ← hlc0, ← hlc1, Ctx.unstop]
  split <;> exact ⟨rfl, rfl, rfl, rfl, rfl, rfl, rfl, rfl, rfl, rfl, rfl, rfl, rfl⟩

end Restore

section Return

theorem State.modStrand_threads (s : State) (c k m : Nat) (f : Strand → Strand) :
    ((s.modStrand { core := c, ctx := k, tid := some m } f).ctx c k).threads =
      tblPut none (s.ctx c k).threads m (some { (s.ctx c k).thread m with str := f ((s.ctx c k).thread m).str }) := by
  simp only [State.modStrand, State.setStrand, State.setThread, State.modCtx_ctx, Ctx.setThread]
  rfl

/-- What the act of a return makes of the executor of the trap: a thread ends, or goes to the destination, but that an operation
it issued took the trap; the lead strand's PC goes to its frame. -/
def State.act (s : State) (c k : Nat) (t : Trap) (act : Nat) (dest : DWord) (pas : List Nat) : State :=
  let e : Who := { core := c, ctx := k, tid := t.tid }
  match t.tid with
  | some tid =>
    if (tblGet none (s.ctx c k).threads tid).isNone || t.exited then s
    else if act = 3 then (s.endExecutor e).modCtx c k fun x => { x with threads := tblPut none x.threads tid none }
    else if t.exk = 2 then s
    else s.modStrand e fun y => { y with pc := dest, reentry := y.reentry || act == 0, run := 0, wait := .none }
  | none =>
    if t.exk = 1 then
      (s.homeWrite (pas.getD 11 0 + 8) 8 dest.toNat).modCtx c k fun x => { x with replayed := x.replayed || act == 0 }
    else s

/-- Where a return sends an executor, by ACT; n words stand in the bundle that it skips. -/
def Ctx.returnTo (x : Ctx) (act n : Nat) : DWord :=
  if act = 0 then x.trapRegion else if act = 1 then x.trapPc else x.trapPc + BitVec.ofNat 64 (4 * n)

/-- A return once its trap is acted on and dropped. -/
def State.dropTrap (s : State) (c k : Nat) (t : Trap) (rest : List Trap) (n : Nat) (pas : List Nat) : State :=
  (s.act c k t ((s.ctx c k).act t) ((s.ctx c k).returnTo ((s.ctx c k).act t) n) pas).modCtx c k fun x => { x with traps := rest }

variable {s : State} {c k n : Nat} {t : Trap} {rest : List Trap} {pas : List Nat} {act : Nat} {dest : DWord}

theorem State.eret_aborts (h : (s.ctx c k).traps = t :: rest) (hact : (s.ctx c k).act t = 3) (htid : t.tid = none) :
    s.eret c k n pas = s.abortTask c k := by
  simp only [State.eret, h, hact, htid, and_self, if_true]

theorem State.eret_returns (h : (s.ctx c k).traps = t :: rest) (hact : (s.ctx c k).act t ≠ 3 ∨ t.tid.isSome = true) :
    s.eret c k n pas = if rest.isEmpty = true then (s.dropTrap c k t rest n pas).restoreLead c k pas
      else (s.dropTrap c k t rest n pas).deliverAt c k false pas := by
  have hno : ¬((s.ctx c k).act t = 3 ∧ t.tid = none) := fun ⟨h3, hn⟩ => by simp [h3, hn] at hact
  rw [State.eret]
  simp only [h, if_neg hno]
  rfl

/-- A thread that has left is not acted on, nor, in its threads, a context whose lead strand took the trap. -/
theorem State.act_threads (h : (s.ctx c k).traps = t :: rest) (ht : t.tid.isNone = true ∨ t.exited = true) :
    ((s.act c k t act dest pas).ctx c k).threads = (s.ctx c k).threads := by
  have hw : (s.homeWrite (pas.getD 11 0 + 8) 8 dest.toNat).ctx c k = s.ctx c k :=
    (s.homeWrite_atHomes _ _ _).ctx (State.ctxs_of_traps h) k
  unfold State.act
  split
  · next m hm =>
    have he : t.exited = true := by simpa [hm] using ht
    simp [he]
  · split
    · rw [State.modCtx_ctx, hw]
    · rfl

section Thread

variable {m : Nat} (hm : t.tid = some m) (hl : (tblGet none (s.ctx c k).threads m).isSome = true) (he : t.exited = false)
include hm hl he

/-- ABORT ends the thread. -/
theorem State.act_ends (hact : act = 3) : ((s.act c k t act dest pas).ctx c k).threads = tblPut none (s.ctx c k).threads m none := by
  have hn : (tblGet none (s.ctx c k).threads m).isNone = false := by simpa [Option.isSome_iff_ne_none] using hl
  simp only [State.act, hm, hn, he, hact, Bool.or_self, Bool.false_eq_true, if_false, if_true, State.modCtx_ctx, State.ctx_endExecutor]

/-- Any other act sends it on. -/
theorem State.act_sends (hact : act ≠ 3) : ((s.act c k t act dest pas).ctx c k).threads = (s.ctx c k).threads ∧ t.exk = 2 ∨
    ∃ th : Thread, ((s.act c k t act dest pas).ctx c k).threads = tblPut none (s.ctx c k).threads m (some th) ∧ th.str.pc = dest := by
  have hn : (tblGet none (s.ctx c k).threads m).isNone = false := by simpa [Option.isSome_iff_ne_none] using hl
  simp only [State.act, hm, hn, he, hact, Bool.or_self, Bool.false_eq_true, if_false]
  split
  · next h2 => exact .inl ⟨rfl, h2⟩
  · exact .inr ⟨_, s.modStrand_threads c k m _, rfl⟩

end Thread

/-- The lead strand's PC stands in its frame where its bytes are sound and one piece. -/
theorem State.act_lead (htid : t.tid = none) (hexk : t.exk = 1) (hlen : 12 ≤ pas.length) (hkeyed : s.keyed = false)
    (hsound : s.poisonAt (pas.getD 11 0 + 8) = 0) (hfwd : s.forward (pas.getD 11 0 + 8) = s.forward (pas.getD 11 0) + 8) :
    bytesAt ((s.act c k t act dest pas).peekLines pas) 0x2C8 8 = dest.toNat := by
  have hact : s.act c k t act dest pas =
      (s.homeWrite (pas.getD 11 0 + 8) 8 dest.toNat).modCtx c k fun x => { x with replayed := x.replayed || act == 0 } := by
    simp only [State.act, htid, hexk, if_true]
  have hw := s.homeWrite_atHomes (pas.getD 11 0 + 8) 8 dest.toNat
  have hin := s.homeWrite_inside (pas.getD 11 0 + 8) 8 dest.toNat hsound hkeyed
  rw [hfwd, Nat.mod_eq_of_lt (by have := dest.isLt; omega)] at hin
  have hread (u : State) (hk : u.keyed = false) : u.homeRead (pas.getD 11 0) 64 = readBytes u.mem (u.forward (pas.getD 11 0)) 64 := by
    rw [State.homeRead, State.memBytes, if_neg (by rw [hk]; exact Bool.false_ne_true)]
  rw [hact]
  generalize s.homeWrite (pas.getD 11 0 + 8) 8 dest.toNat = u at hw hin ⊢
  have hk : (u.modCtx c k fun x => { x with replayed := x.replayed || act == 0 }).keyed = false := hw.keyed.trans hkeyed
  have hf : (u.modCtx c k fun x => { x with replayed := x.replayed || act == 0 }).forward (pas.getD 11 0) = s.forward (pas.getD 11 0) :=
    hw.forward _
  rw [State.bytesAt_peekLines _ pas 11 8 8 (by omega) (by decide), hread _ hk, hf, bytesAt_readBytes _ _ (by decide)]
  exact hin

theorem State.dropTrap_traps : ((s.dropTrap c k t rest n pas).ctx c k).traps = rest := by
  rw [State.dropTrap, State.modCtx_ctx]
theorem State.dropTrap_threads : ((s.dropTrap c k t rest n pas).ctx c k).threads =
    ((s.act c k t ((s.ctx c k).act t) ((s.ctx c k).returnTo ((s.ctx c k).act t) n) pas).ctx c k).threads := by
  rw [State.dropTrap, State.modCtx_ctx]

theorem State.dropTrap_home : SameHome (s.act c k t ((s.ctx c k).act t) ((s.ctx c k).returnTo ((s.ctx c k).act t) n) pas)
    (s.dropTrap c k t rest n pas) := ⟨rfl, rfl, rfl, rfl, rfl⟩

/-- What a return makes of the threads of its context: the one that took the trap ends or goes on, and no other is touched. -/
theorem State.dropTrap_thread {m : Nat} (hm : t.tid = some m) (hl : (tblGet none (s.ctx c k).threads m).isSome = true)
    (he : t.exited = false) : let y := (s.dropTrap c k t rest n pas).ctx c k
    ((s.ctx c k).act t = 3 → tblGet none y.threads m = none) ∧
    ((s.ctx c k).act t ≠ 3 → t.exk ≠ 2 → (y.thread m).str.pc = (s.ctx c k).returnTo ((s.ctx c k).act t) n) ∧
    ∀ l, l ≠ m → tblGet none y.threads l = tblGet none (s.ctx c k).threads l := by
  intro y
  have hy : y.threads = ((s.act c k t ((s.ctx c k).act t) ((s.ctx c k).returnTo ((s.ctx c k).act t) n) pas).ctx c k).threads :=
    State.dropTrap_threads
  by_cases h3 : (s.ctx c k).act t = 3
  · rw [State.act_ends hm hl he h3] at hy
    refine ⟨fun _ => ?_, fun h => absurd h3 h, fun l hne => ?_⟩ <;> rw [hy]
    · exact tblGet_put_same _ _ _ _
    · exact tblGet_put_other _ _ _ _ _ hne
  · rcases State.act_sends (act := (s.ctx c k).act t) (dest := (s.ctx c k).returnTo ((s.ctx c k).act t) n) (pas := pas) hm hl he h3 with
      ⟨hsame, h2⟩ | ⟨th, hput, hpc⟩
    · rw [hsame] at hy
      exact ⟨fun h => absurd h h3, fun _ h => absurd h2 h, fun l _ => by rw [hy]⟩
    · rw [hput] at hy
      refine ⟨fun h => absurd h h3, fun _ _ => ?_, fun l hne => ?_⟩
      · rw [Ctx.thread, hy, tblGet_put_same, Option.getD_some, hpc]
      · rw [hy, tblGet_put_other _ _ _ _ _ hne]

end Return

/-- Settles O34: a word that traps, signals or calls does it for its one executor; a return from a handler acts on the trap that
stands first and drops it, and what it leaves enters the handler again or is restored from the frame; a delivery enters the handler. -/
theorem trapsCallsAndEvents : Obligations.TrapsCallsAndEvents := by
  refine ⟨fun g d a s s1 i w => ⟨fun hr ha => ?_, exec_wfe, exec_evsig, fun hr hs hrel => exec_svc hr hs hrel⟩,
    fun g s s1 s2 i w pas ws c k n t rest => ⟨?_, ?_, ?_⟩⟩
  · obtain ⟨⟨tr, htr, hcause, -, hinfo, htid, hpc, -, hreg, hcnt⟩, hstays, hmem, hregs, -⟩ :=
      trapAs_spec i w 11 0 0#64 (BitVec.ofNat 64 (s.reg w a % 65536)) false s (by decide) ha
    exact ⟨_, tr, exec_one hr _ rfl, htr, hcause, htid, hpc, hinfo, hreg, hcnt, hstays, hregs, hmem⟩
  · intro x by_ frame hr hp hlead hh ht hd
    have h : Returns g s i w t rest := ⟨hr, hp, hlead, hh, ht, hd⟩
    refine ⟨fun h3 htid => ⟨fun hab => ?_, fun hab => ?_⟩, fun hact hsvc hspan hsound => ⟨fun h2 => ?_, fun h2 hfetch => ?_⟩⟩
    · rw [h.exec_aborts h3 htid, if_pos hab]
    · rw [h.exec_aborts h3 htid, if_neg (by rw [hab]; exact Bool.false_ne_true)]
    · refine h.exec_returns (ws := []) hact hsvc hspan hsound ?_
      rw [State.skipped, if_neg (by simpa using h2)]
    · refine h.exec_returns hact hsvc hspan hsound ?_
      rw [State.skipped, if_pos (by simpa using h2)]
      exact hfetch
  · intro x act dest ht _
    refine ⟨State.eret_aborts ht, fun hgo => ⟨s.dropTrap c k t rest n pas, State.dropTrap_traps,
      fun m hm hl he => State.dropTrap_thread hm hl he, fun hno => State.dropTrap_threads.trans (State.act_threads ht hno),
      fun hne => ?_, fun hnil => ?_⟩⟩
    · rw [State.eret_returns ht hgo, if_neg (by simpa using hne)]
    · have hr : s.eret c k n pas = (s.dropTrap c k t rest n pas).restoreLead c k pas := by
        rw [State.eret_returns ht hgo, if_pos (by simpa using hnil)]
      have hpeek : (s.dropTrap c k t rest n pas).peekLines pas = (s.act c k t act dest pas).peekLines pas :=
        State.dropTrap_home.peekLines pas
      rw [hr]
      obtain ⟨htraps, hhandler, hcause, hpc, hregion, hcount, hthreads, hs, hq, hstr, hregpc, hlc0, hlc1⟩ :=
        (s.dropTrap c k t rest n pas).restoreLead_ctx c k pas
      refine ⟨(htraps.trans State.dropTrap_traps).trans hnil, hhandler, hcause, hpc, hregion, hcount, hthreads, hs, hq, hstr, hregpc,
        hlc0, hlc1, fun htid hexk hlen hkeyed hsound hfwd => ?_⟩
      rw [hstr, hpeek, State.act_lead htid hexk hlen hkeyed hsound hfwd, BitVec.ofNat_toNat, BitVec.setWidth_eq]
  · intro h hspan hsound y
    have hy : y = (s.ctx c k).enterHandler t (s.leadFrame c k) (s.handlerEntry c) := State.deliver_ctx h hspan hsound
    rw [hy]
    obtain ⟨h1, h2, h3⟩ := (s.ctx c k).enterHandler_spec t (s.leadFrame c k) (s.handlerEntry c)
    exact ⟨h1, h2.trans h, h3⟩

end Sys2Proof.Machine
end

section
namespace Sys2Proof.Machine

/-! ### Fields of control registers -/

/-- A field lies in the bits below any that are added above it. -/
theorem bitsOf_add_above (a b : Nat) {lo len n : Nat} (h : lo + len ≤ n) : bitsOf (a + 2 ^ n * b) lo len = bitsOf a lo len := by
  obtain ⟨r, rfl⟩ := Nat.exists_eq_add_of_le h
  rw [bitsOf_eq, bitsOf_eq, Nat.pow_add, Nat.pow_add, Nat.mul_assoc, Nat.mul_assoc, Nat.add_mul_div_left _ _ (Nat.two_pow_pos lo),
    Nat.add_mul_mod_self_left]

/-- The value of a field put into a register, between the bits below and those above it. -/
theorem putF_toNat (x : DWord) {lo len : Nat} (v : Nat) (h : lo + len ≤ 64) :
    (putF x lo len v).toNat = x.toNat % 2 ^ lo + 2 ^ lo * (v % 2 ^ len + 2 ^ len * (x.toNat / 2 ^ lo / 2 ^ len)) := by
  obtain ⟨r, hr⟩ := Nat.exists_eq_add_of_le h
  have hx := x.isLt
  have hlow := Nat.mod_lt x.toNat (Nat.two_pow_pos lo)
  have hnew := Nat.mod_lt v (Nat.two_pow_pos len)
  have hsplit := Nat.mod_add_div x.toNat (2 ^ lo)
  have hmid := Nat.mod_add_div (x.toNat / 2 ^ lo) (2 ^ len)
  have hhigh : x.toNat / 2 ^ lo / 2 ^ len < 2 ^ r := by
    rw [Nat.div_div_eq_div_mul, ← Nat.pow_add, Nat.div_lt_iff_lt_mul (Nat.two_pow_pos _), Nat.mul_comm, ← Nat.pow_add, ← hr]
    exact hx
  have hsum : x.toNat = x.toNat % 2 ^ lo + 2 ^ lo * (x.toNat / 2 ^ lo % 2 ^ len + 2 ^ len * (x.toNat / 2 ^ lo / 2 ^ len)) := by
    rw [hmid, hsplit]
  rw [putF, BitVec.toNat_ofNat, bitsOf_eq]
  generalize x.toNat / 2 ^ lo / 2 ^ len = high at hhigh hsum ⊢
  generalize x.toNat / 2 ^ lo % 2 ^ len = mid at hsum ⊢
  generalize x.toNat % 2 ^ lo = low at hlow hsum ⊢
  generalize v % 2 ^ len = new at hnew ⊢
  have hval : x.toNat - mid * 2 ^ lo + new * 2 ^ lo = low + 2 ^ lo * (new + 2 ^ len * high) := by
    rw [hsum, Nat.mul_comm mid, Nat.mul_comm new, Nat.mul_add, Nat.mul_add]
    omega
  have htop : 2 ^ len * high + 2 ^ len ≤ 2 ^ len * 2 ^ r := by
    rw [← Nat.mul_succ]
    exact Nat.mul_le_mul_left _ hhigh
  have hbound : 2 ^ lo * (new + 2 ^ len * high + 1) ≤ 2 ^ lo * (2 ^ len * 2 ^ r) := Nat.mul_le_mul_left _ (by omega)
  rw [← Nat.pow_add, ← Nat.pow_add, ← Nat.add_assoc, ← hr, Nat.mul_succ] at hbound
  rw [hval]
  exact Nat.mod_eq_of_lt (by omega)

theorem bitsOf_putF_same (x : DWord) {lo len : Nat} (v : Nat) (h : lo + len ≤ 64) : bitsOf (putF x lo len v).toNat lo len = v % 2 ^ len := by
  rw [putF_toNat x v h, bitsOf_eq, Nat.add_mul_div_left _ _ (Nat.two_pow_pos lo), Nat.div_eq_of_lt (Nat.mod_lt _ (Nat.two_pow_pos lo)),
    Nat.zero_add, Nat.add_mul_mod_self_left, Nat.mod_mod]

theorem bitsOf_putF_below (x : DWord) {lo len lo' len' : Nat} (v : Nat) (h : lo + len ≤ 64) (hd : lo' + len' ≤ lo) :
    bitsOf (putF x lo len v).toNat lo' len' = bitsOf x.toNat lo' len' := by
  have hx := bitsOf_add_above (x.toNat % 2 ^ lo) (x.toNat / 2 ^ lo) hd
  rw [Nat.mod_add_div] at hx
  rw [putF_toNat x v h, bitsOf_add_above _ _ hd, hx]

theorem bitsOf_putF_above (x : DWord) {lo len lo' len' : Nat} (v : Nat) (h : lo + len ≤ 64) (hd : lo + len ≤ lo') :
    bitsOf (putF x lo len v).toNat lo' len' = bitsOf x.toNat lo' len' := by
  obtain ⟨r, rfl⟩ := Nat.exists_eq_add_of_le hd
  rw [bitsOf_eq, bitsOf_eq, Nat.pow_add, Nat.pow_add, ← Nat.div_div_eq_div_mul, ← Nat.div_div_eq_div_mul, ← Nat.div_div_eq_div_mul,
    ← Nat.div_div_eq_div_mul]
  have hn : (putF x lo len v).toNat / 2 ^ lo / 2 ^ len = x.toNat / 2 ^ lo / 2 ^ len := by
    rw [putF_toNat x v h, Nat.add_mul_div_left _ _ (Nat.two_pow_pos lo), Nat.div_eq_of_lt (Nat.mod_lt _ (Nat.two_pow_pos lo)),
      Nat.zero_add, Nat.add_mul_div_left _ _ (Nat.two_pow_pos len), Nat.div_eq_of_lt (Nat.mod_lt _ (Nat.two_pow_pos len)), Nat.zero_add]
  rw [hn]

section Fields

variable (s : State) (off : Nat) {lo len lo' len' : Nat} (v : Nat) (h : lo + len ≤ 64)
include h

theorem State.ctlF_setCtlF_same : (s.setCtlF off lo len v).ctlF off lo len = v % 2 ^ len := by
  rw [State.ctlF, State.setCtlF, State.setCtl_ctl64, bitsOf_putF_same _ _ h]
theorem State.ctlF_setCtlF_below (hd : lo' + len' ≤ lo) : (s.setCtlF off lo len v).ctlF off lo' len' = s.ctlF off lo' len' := by
  rw [State.ctlF, State.setCtlF, State.setCtl_ctl64, bitsOf_putF_below _ _ h hd, State.ctlF]
theorem State.ctlF_setCtlF_above (hd : lo + len ≤ lo') : (s.setCtlF off lo len v).ctlF off lo' len' = s.ctlF off lo' len' := by
  rw [State.ctlF, State.setCtlF, State.setCtl_ctl64, bitsOf_putF_above _ _ h hd, State.ctlF]

end Fields

theorem State.ctlF_setCtlF_other (s : State) {off off' : Nat} (lo len v lo' len' : Nat) (h : off' ≠ off) :
    (s.setCtlF off lo len v).ctlF off' lo' len' = s.ctlF off' lo' len' := by
  rw [State.ctlF, State.setCtlF, State.setCtl_ctl64_other _ _ _ _ h, State.ctlF]

end Sys2Proof.Machine
end

section
namespace Sys2Proof.Machine

/-! ### Partitions and keys (25 R372, R373, R375) -/

section Partitions

variable {s : State} {p : Nat}

theorem exec_pctlEnWrite (h : p < 8) (v : DWord) : exec (.pctlEnWrite p v) s = .next (s.writePctl p v) := by
  show execPctlEnWrite p v s = _
  rw [execPctlEnWrite, if_pos h]
theorem exec_keynew (h : p < 8) : exec (.keynew p) s = .next (s.writePctl p 2#64) := by
  show execKeynew p s = _
  rw [execKeynew, if_pos h]

/-- Keys are drawn by a write that asks for them. -/
def State.keysAsked (s : State) (p : Nat) (v : DWord) : State := if bitOf v.toNat 1 then s.startKeys p else s

theorem State.writePctl_zero (v : DWord) : s.writePctl 0 v = s.reject offPSTAT 0 := by
  rw [State.writePctl, if_pos rfl]
theorem State.writePctl_on (h0 : 0 < p) (hon : s.partOn p = true) (v : DWord) : s.writePctl p v =
    if bitOf v.toNat 0 || !s.disableOk p then s.reject offPSTAT 0 else (s.setCtlF (offPart p) 0 1 0).keysAsked p v := by
  rw [State.writePctl, if_neg (by omega), if_pos hon]
  rfl
theorem State.writePctl_off (h0 : 0 < p) (hoff : s.partOn p = false) (v : DWord) : s.writePctl p v =
    if bitOf v.toNat 0 then (if !s.enableOk p then s.reject offPSTAT 0 else (s.setCtlF (offPart p) 0 1 1).keysAsked p v)
    else s.keysAsked p v := by
  rw [State.writePctl, if_neg (by omega), if_neg (by rw [hoff]; exact Bool.false_ne_true)]
  rfl

/-- BUSY stands and the keys are not valid, once they are asked for. -/
theorem State.startKeys_ctlF (s : State) (p : Nat) :
    (s.startKeys p).ctlF (offPart p) 3 1 = 1 ∧ (s.startKeys p).ctlF (offPart p) 2 1 = 0 := by
  have h (lo len : Nat) : (s.startKeys p).ctlF (offPart p) lo len =
      ((s.setCtlF (offPart p) 3 1 1).setCtlF (offPart p) 2 1 0).ctlF (offPart p) lo len := rfl
  rw [h, h]
  exact ⟨by rw [State.ctlF_setCtlF_above _ _ _ (by decide) (by decide), State.ctlF_setCtlF_same _ _ _ (by decide)]; rfl,
    by rw [State.ctlF_setCtlF_same _ _ _ (by decide)]; rfl⟩

theorem exec_keynewDone (h8 : p < 8) (hp : p ∈ s.homes.keyScrub) : exec (.keynewDone p) s = .next
    (let u := (s.pmemRanges p).foldl (fun s r => s.recallRange r.1 r.2) s
     if (s.pmemRanges p).any fun r => u.exclIn r.1 r.2 then u
     else
      let u := { u with homes := { u.homes with
        keyScrub := u.homes.keyScrub.filter (· != p), keys := tblPut 0 u.homes.keys p (tblGet 0 u.homes.keys p + 1) } }
      let u := (s.pmemRanges p).foldl (fun s r => s.zeroRange r.1 r.2 fun g => s.keyNo (s.keyOwner g)) u
      (u.setCtlF (offPart p) 3 1 0).setCtlF (offPart p) 2 1 1) := by
  show execKeynewDone p s = _
  rw [execKeynewDone, if_neg (by simpa using ⟨h8, hp⟩)]

end Partitions

/-! What the recall and the scrub of ranges do. -/

/-- A recall asks: no copy becomes exclusive by it. -/
theorem State.recallRange_exclIn (s : State) (base len b l : Nat) (h : s.exclIn b l = false) : (s.recallRange base len).exclIn b l = false := by
  rw [State.exclIn, List.any_eq_false] at h ⊢
  intro e he
  simp only [State.recallRange, List.mem_filter, List.mem_map] at he
  obtain ⟨⟨x, hx, rfl⟩, -⟩ := he
  have := h x hx
  by_cases hin : inRange base len x.1 = true
  · rw [if_pos hin]
    by_cases hexcl : x.2.excl.isSome = true
    · simpa [hexcl] using this
    · simp [hexcl]
  · rwa [if_neg hin]

theorem State.recallRanges_exclIn (l : List (Nat × Nat)) (b n : Nat) : ∀ s : State, s.exclIn b n = false →
    (l.foldl (fun s r => s.recallRange r.1 r.2) s).exclIn b n = false := by
  intro s h
  exact foldl_keeps (fun t : State => t.exclIn b n = false) _ l s h fun t r ht => t.recallRange_exclIn _ _ _ _ ht

theorem tblGet_filter_keys {α : Type} (d : α) (p : Nat → Bool) (t : Tbl α) (n : Nat) :
    tblGet d (t.filter fun e => p e.1) n = if p n then tblGet d t n else d := by
  induction t with
  | nil => simp [tblGet]
  | cons e t ih =>
    rw [List.filter_cons]
    by_cases hn : e.1 = n
    · subst hn
      by_cases hp : p e.1 = true
      · simp [hp, tblGet]
      · rw [if_neg hp, ih, if_neg hp, if_neg hp]
    · by_cases hp : p e.1 = true
      · simp [hp, tblGet, hn, ih]
      · simp [hp, tblGet, hn, ih]

/-- No byte of a scrubbed range is left, and no other byte changes. -/
theorem State.zeroRange_byteAt (s : State) (base len : Nat) (key : Nat → Nat) (a : Nat) :
    byteAt (s.zeroRange base len key).mem a = if base ≤ a ∧ a < base + len then 0#8 else byteAt s.mem a := by
  have hm : (s.zeroRange base len key).mem = s.mem.filter fun e => !(base ≤ e.1 && e.1 < base + len) := by
    rw [← State.landCasts_mem s fun l => !!inRange base len l]
    rfl
  rw [byteAt, hm, tblGet_filter_keys 0#8 (fun n => !(decide (base ≤ n) && decide (n < base + len)))]
  by_cases h : base ≤ a ∧ a < base + len
  · simp [h]
  · rw [if_neg h, if_pos (by simp only [Bool.not_eq_true', Bool.and_eq_false_iff, decide_eq_false_iff_not]; omega), byteAt]

theorem State.zeroRange_keyScrub (s : State) (base len : Nat) (key : Nat → Nat) :
    (s.zeroRange base len key).homes.keyScrub = s.homes.keyScrub :=
  (s.landCasts_atHomes fun l => !!inRange base len l).keyScrub

/-- The scrub of ranges in turn. -/
def State.zeroRanges (s : State) (l : List (Nat × Nat)) : State :=
  l.foldl (fun s r => s.zeroRange r.1 r.2 fun g => s.keyNo (s.keyOwner g)) s

theorem State.zeroRanges_cons (s : State) (r : Nat × Nat) (l : List (Nat × Nat)) :
    s.zeroRanges (r :: l) = (s.zeroRange r.1 r.2 fun g => s.keyNo (s.keyOwner g)).zeroRanges l := rfl
theorem State.zeroRanges_zero (a : Nat) (l : List (Nat × Nat)) (s : State) (h : byteAt s.mem a = 0#8) :
    byteAt (s.zeroRanges l).mem a = 0#8 := by
  induction l generalizing s with
  | nil => exact h
  | cons r l ih =>
    rw [State.zeroRanges_cons]
    refine ih _ ?_
    rw [State.zeroRange_byteAt, h, ite_self]
theorem State.zeroRanges_byteAt {a : Nat} {r : Nat × Nat} (ha : r.1 ≤ a) (hb : a < r.1 + r.2) (l : List (Nat × Nat)) (s : State)
    (h : r ∈ l) : byteAt (s.zeroRanges l).mem a = 0#8 := by
  induction l generalizing s with
  | nil => cases h
  | cons x l ih =>
    rw [State.zeroRanges_cons]
    rcases List.mem_cons.mp h with rfl | h
    · refine State.zeroRanges_zero a l _ ?_
      rw [State.zeroRange_byteAt, if_pos ⟨ha, hb⟩]
    · exact ih _ h
theorem State.zeroRanges_keyScrub (s : State) (l : List (Nat × Nat)) : (s.zeroRanges l).homes.keyScrub = s.homes.keyScrub :=
  foldl_keeps (fun t : State => t.homes.keyScrub = s.homes.keyScrub) _ l s rfl fun t _ ht => (t.zeroRange_keyScrub _ _ _).trans ht

/-- The key pair of a partition is drawn and its ranges are scrubbed, once their host copies are recalled. -/
def State.scrubKeys (s : State) (p : Nat) : State :=
  let u := (s.pmemRanges p).foldl (fun s r => s.recallRange r.1 r.2) s
  State.zeroRanges { u with homes := { u.homes with
    keyScrub := u.homes.keyScrub.filter (· != p), keys := tblPut 0 u.homes.keys p (tblGet 0 u.homes.keys p + 1) } } (s.pmemRanges p)

/-- Its keys are valid then. -/
def State.scrubbed (s : State) (p : Nat) : State := ((s.scrubKeys p).setCtlF (offPart p) 3 1 0).setCtlF (offPart p) 2 1 1

theorem exec_keynewDone_scrubs {s : State} {p : Nat} (h8 : p < 8) (hp : p ∈ s.homes.keyScrub)
    (hexcl : ∀ r ∈ s.pmemRanges p, s.exclIn r.1 r.2 = false) : exec (.keynewDone p) s = .next (s.scrubbed p) := by
  rw [exec_keynewDone h8 hp]
  have hnone : ((s.pmemRanges p).any fun r => ((s.pmemRanges p).foldl (fun s r => s.recallRange r.1 r.2) s).exclIn r.1 r.2) = false := by
    rw [List.any_eq_false]
    exact fun r hr => by rw [State.recallRanges_exclIn _ _ _ s (hexcl r hr)]; exact Bool.false_ne_true
  simp only [hnone, Bool.false_eq_true, if_false]
  rfl

theorem State.scrubbed_keyScrub (s : State) (p : Nat) : p ∉ (s.scrubbed p).homes.keyScrub := by
  have h : (s.scrubbed p).homes.keyScrub = (s.scrubKeys p).homes.keyScrub := rfl
  rw [h, State.scrubKeys, State.zeroRanges_keyScrub]
  simp

theorem State.scrubbed_ctlF (s : State) (p : Nat) : (s.scrubbed p).ctlF (offPart p) 2 1 = 1 ∧ (s.scrubbed p).ctlF (offPart p) 3 1 = 0 := by
  rw [State.scrubbed]
  exact ⟨by rw [State.ctlF_setCtlF_same _ _ _ (by decide)]; rfl,
    by rw [State.ctlF_setCtlF_above _ _ _ (by decide) (by decide), State.ctlF_setCtlF_same _ _ _ (by decide)]; rfl⟩

/-! ### MODE, SAVEBASE and the frames (17 R304, 24 R364) -/

theorem exec_savebaseWrite (s : State) (v : DWord) : exec (.savebaseWrite v) s = .next (s.writeSavebase .other v).2 := rfl

/-- A recursion over a list, one step. -/
theorem brecOn_cons {α β : Type} (F : (l : List α) → List.below (motive := fun _ => β) l → β) (x : α) (l : List α) :
    ∃ b : List.below (motive := fun _ => β) (x :: l), b.1 = List.brecOn l F ∧ List.brecOn (x :: l) F = F (x :: l) b := ⟨_, rfl, rfl⟩

/-- One frame of the search. The search, its step and the frame's pieces are named in turn, so that the kernel does not evaluate the
frame's address. -/
theorem State.framesUsed_cons (s : State) (a : Agent) (j : Nat) (js : List Nat) {r : Span × State} (h : s.frameSpan a 0 j 0 1 = r) :
    s.framesUsed a (j :: js) = match (generalizing := false) r with
      | (.wait, s) => (none, s)
      | (.fault .., s) => s.framesUsed a js
      | (.ok pas, s) => if s.frameState (pas.getD 0 0) = 0 then s.framesUsed a js else (some true, s) := by
  generalize hf : State.framesUsed = f
  delta State.framesUsed at hf
  subst hf
  beta_reduce
  obtain ⟨b, hb, he⟩ := brecOn_cons (β := State → Option Bool × State) (State.framesUsed._f a) j js
  rw [he, ← hb]
  generalize hf : State.framesUsed._f = f
  delta State.framesUsed._f at hf
  subst hf
  beta_reduce
  obtain ⟨span, hspan⟩ : ∃ f, f = State.frameSpan s a 0 := ⟨_, rfl⟩
  rw [← hspan] at h ⊢
  dsimp only
  generalize span j 0 1 = q at h
  subst h
  rcases q with ⟨_ | _ | _, t⟩ <;> rfl
theorem State.framesUsed_frame {s s1 : State} {a : Agent} {j pa : Nat} (js : List Nat) (h : s.frameSpan a 0 j 0 1 = (.ok [pa], s1)) :
    s.framesUsed a (j :: js) = if bitsOf (s1.homeRead pa 8) 62 2 = 0 then s1.framesUsed a js else (some true, s1) :=
  s.framesUsed_cons a j js h
theorem State.framesUsed_unmapped {s s1 : State} {a : Agent} {j cause sub : Nat} {va : DWord} (js : List Nat)
    (h : s.frameSpan a 0 j 0 1 = (.fault cause sub va, s1)) : s.framesUsed a (j :: js) = s1.framesUsed a js :=
  s.framesUsed_cons a j js h

/-! ### Translations dropped (09 R239) -/

section Tlb

variable {s : State} {core ctx : Nat} {n : DWord}

theorem tblGet_mem {α : Type} {d : α} {t : Tbl α} {k : Nat} (h : tblGet d t k ≠ d) : (k, tblGet d t k) ∈ t := by
  induction t with
  | nil => exact absurd rfl h
  | cons e t ih =>
    rw [tblGet] at h ⊢
    split at h
    · next he => rw [if_pos he, ← he]; exact List.mem_cons_self
    · next he => rw [if_neg he]; exact List.mem_cons_of_mem _ (ih h)

/-- An entry that an invalidation leaves. -/
def TlbEntry.left (part : Nat) (v : DWord) (y : TlbEntry) : Bool := !invalidates part v y.part y.shift y.vpn

/-- The translations that an invalidation names go from each core and the walkers, and the walks for them. -/
def State.loseNamed (s : State) (part : Nat) (v : DWord) : State :=
  let cores := s.cores.map fun e => (e.1, { e.2 with itlb := e.2.itlb.filter (TlbEntry.left part v), dtlb := e.2.dtlb.filter (TlbEntry.left part v) })
  State.dropWalks { s with
    cores := cores.filter fun (e : Nat × Core) => !(e.2 == ({} : Core))
    sched := { s.sched with
      walker0 := s.sched.walker0.filter (TlbEntry.left part v), walker1 := s.sched.walker1.filter (TlbEntry.left part v) } }
    (invalidates part v)

theorem exec_tlbInvalidationDone (h : (s.ctx core ctx).str.wait = .tlbinv n) : exec (.tlbInvalidationDone core ctx) s = .next
    ((s.loseNamed (s.partOf core ctx) n).modStrand { core, ctx } fun x => { x with wait := .tlbinvDone }) := by
  show execTlbInvalidationDone core ctx s = _
  rw [execTlbInvalidationDone, h]
  rfl

theorem State.loseNamed_cores {part : Nat} {c : Nat} {y : TlbEntry}
    (h : y ∈ ((s.loseNamed part n).core c).itlb ++ ((s.loseNamed part n).core c).dtlb) : invalidates part n y.part y.shift y.vpn = false := by
  have hne : tblGet {} (s.loseNamed part n).cores c ≠ {} := fun he => by
    rw [State.core, he] at h
    cases h
  have hmem := (List.mem_filter.mp (tblGet_mem hne)).1
  obtain ⟨e, -, he⟩ := List.mem_map.mp hmem
  have hcore : (s.loseNamed part n).core c =
      { e.2 with itlb := e.2.itlb.filter (TlbEntry.left part n), dtlb := e.2.dtlb.filter (TlbEntry.left part n) } :=
    (congrArg Prod.snd he).symm
  rw [hcore, List.mem_append, List.mem_filter, List.mem_filter] at h
  obtain ⟨-, hl⟩ | ⟨-, hl⟩ := h <;> simpa [TlbEntry.left] using hl

theorem State.loseNamed_walks {part : Nat} {y : Walk} (h : y ∈ (s.loseNamed part n).sched.walks) :
    invalidates part n y.part 12 y.vpn = false := by
  simpa using (List.mem_filter.mp h).2

theorem State.loseNamed_walkers {part : Nat} {y : TlbEntry}
    (h : y ∈ (s.loseNamed part n).sched.walker0 ++ (s.loseNamed part n).sched.walker1) : invalidates part n y.part y.shift y.vpn = false := by
  rcases List.mem_append.mp h with h | h <;> simpa [TlbEntry.left] using (List.mem_filter.mp h).2

/-- A strand's change leaves the translations that its core holds. -/
theorem State.modStrand_tlbs (s : State) (c : Nat) (f : Strand → Strand) :
    ((s.modStrand { core, ctx } f).core c).itlb = (s.core c).itlb ∧ ((s.modStrand { core, ctx } f).core c).dtlb = (s.core c).dtlb := by
  have h : s.modStrand { core, ctx } f = s.setCtx core ctx { s.ctx core ctx with str := f (s.ctx core ctx).str } := rfl
  rw [h, State.core_setCtx]
  split <;> exact ⟨rfl, rfl⟩

end Tlb

/-- Settles O50: PCTL by its three cases (partition 0, disabled, enabled), the scrub of a key's ranges in turn, SAVEBASE by what the
search of its frames says, and the translations that stay by the test that each table is filtered by. -/
theorem partitionSteps : Obligations.PartitionSteps := by
  intro s s1 p core ctx v
  refine ⟨?_, fun h0 h8 hoff => ⟨fun hok => ?_, fun hok => ?_, ?_⟩, fun h0 h8 hon => ⟨?_, fun hok => ⟨?_, ?_⟩, fun hok => ⟨?_, ?_⟩⟩,
    fun h8 => ?_, fun h8 hp hexcl => ?_, rfl, fun m hm => ?_, fun hused => ?_, fun r hr hused => ?_, fun a => rfl, fun a j js pa hspan => ?_,
    fun a j js cause sub va hspan => ?_, fun n hn => ⟨_, exec_tlbInvalidationDone hn, ?_, ?_, ?_, ?_, ?_⟩⟩
  · rw [exec_pctlEnWrite (by decide), State.writePctl_zero]
  · rw [exec_pctlEnWrite h8, State.writePctl_off h0 hoff, hok]
    rfl
  · rw [exec_pctlEnWrite h8, State.writePctl_off h0 hoff, hok]
    rfl
  · rw [exec_keynew h8, State.writePctl_off h0 hoff]
    rfl
  · rw [exec_pctlEnWrite h8, State.writePctl_on h0 hon]
    rfl
  · rw [exec_keynew h8, State.writePctl_on h0 hon, hok]
    rfl
  · rw [exec_pctlEnWrite h8, State.writePctl_on h0 hon, hok]
    rfl
  · rw [exec_pctlEnWrite h8, State.writePctl_on h0 hon, hok]
    rfl
  · rw [exec_keynew h8, State.writePctl_on h0 hon, hok]
    rfl
  · exact ⟨(s.startKeys_ctlF p).1, (s.startKeys_ctlF p).2, List.mem_append_right _ (List.mem_singleton_self p), rfl⟩
  · exact ⟨_, exec_keynewDone_scrubs h8 hp hexcl, fun r hr a ha hb => State.zeroRanges_byteAt ha hb _ _ hr,
      State.scrubbed_keyScrub s p, State.scrubbed_ctlF s p⟩
  · show execModeWrite s = _
    rw [execModeWrite, hm]
  · rw [exec_savebaseWrite, State.writeSavebase, hused]
    rfl
  · rw [exec_savebaseWrite, State.writeSavebase, hused]
    rcases r with _ | _ | _
    · rfl
    · exact absurd rfl hr
    · rfl
  · exact State.framesUsed_frame js hspan
  · exact State.framesUsed_unmapped js hspan
  · simp only [State.modStrand, State.setStrand, State.strand, State.modCtx_ctx]
  · rfl
  · intro c y hy
    rw [(State.modStrand_tlbs _ c _).1, (State.modStrand_tlbs _ c _).2] at hy
    exact State.loseNamed_cores hy
  · exact fun y hy => State.loseNamed_walks hy
  · exact fun y hy => State.loseNamed_walkers hy

end Sys2Proof.Machine
end

section
namespace Sys2Proof.Machine

/-! ### Transfers (22 R341 to R343) -/

section Transfers

variable {s : State} {region : Nat}

theorem tblGet_map {α : Type} {d : α} {f : α → α} (hd : f d = d) (t : Tbl α) (n : Nat) :
    tblGet d (t.map fun e => (e.1, f e.2)) n = f (tblGet d t n) := by
  induction t with
  | nil => exact hd.symm
  | cons e t ih =>
    rw [List.map_cons, tblGet, tblGet, ih]
    split <;> rfl

/-- A command's GO bit stands. -/
theorem bitOf_go (v : DWord) : bitOf (v ||| 1#64).toNat 0 = true := by
  have h : (v ||| 1#64).getLsbD 0 = true := by simp
  exact (bitOf_testBit _ 0).trans h

theorem exec_owncmdGo_rejected {v : DWord} (h : s.homes.ownReq.isSome = true ∨ regionCount ≤ bitsOf (v ||| 1#64).toNat 21 19) :
    exec (.owncmdGo v) s = .next (s.reject offCOHCTL 16) := by
  show execOwncmdGo v s = _
  rw [execOwncmdGo, State.writeOwncmd, if_pos (h.elim (fun h => .inr ⟨bitOf_go v, h⟩) .inl)]

theorem exec_owncmdGo {v : DWord} (h : s.homes.ownReq = none) (hr : bitsOf (v ||| 1#64).toNat 21 19 < regionCount) :
    exec (.owncmdGo v) s = .next ({ s.setCtl offOWNCMD (putF ((v ||| 1#64) &&& 0x400000FFFFE00000#64) 63 1 1) with
      homes := { s.homes with ownReq := some (bitsOf (v ||| 1#64).toNat 21 19, (v ||| 1#64).getLsbD 62) } }.ownStep) := by
  have hhost : bitOf (v ||| 1#64).toNat 62 = (v ||| 1#64).getLsbD 62 := bitOf_testBit _ _
  show execOwncmdGo v s = _
  rw [execOwncmdGo, State.writeOwncmd, if_neg (by rw [h]; rintro (hle | ⟨-, hs⟩); exacts [by omega, by cases hs]), if_pos (bitOf_go v), hhost]
  rfl

/-- The transfer that OWNCMD asked for is over. -/
theorem State.ownStep_done {host : Bool} (h : s.homes.ownReq = some (region, host)) (hr : s.region region = regionOwner host) :
    s.ownStep = ({ s with homes := { s.homes with ownReq := none } } : State).setCtlF offOWNCMD 63 1 0 := by
  rw [State.ownStep, h]
  simp only [hr, beq_self_eq_true, if_true]
theorem State.ownStep_idle (h : s.homes.ownReq = none) : s.ownStep = s := by rw [State.ownStep, h]
theorem State.performHeld_idle (h : s.homes.held = []) : s.performHeld = s := by
  rw [State.performHeld, h]
  rfl

theorem exec_transferComplete_toAcc (hr : s.region region = .toAcc)
    (hd : ∀ e ∈ s.homes.hostDir, e.1 / 32768 = region → e.2.excl = none) :
    exec (.transferComplete region) s = .next (s.endTransfer region .acc) := by
  have hnone : (s.homes.hostDir.any fun e => e.1 / 32768 == region && e.2.excl.isSome) = false := by
    rw [List.any_eq_false]
    intro e he hx
    simp only [Bool.and_eq_true, beq_iff_eq] at hx
    rw [hd e he hx.1] at hx
    exact absurd hx.2 (by decide)
  show execTransferComplete region s = _
  rw [execTransferComplete, hr, hnone]
  rfl
theorem exec_transferComplete_toHost (hr : s.region region = .toHost) (hd : s.regionDrained region = true) :
    exec (.transferComplete region) s = .next ((s.dropRegion region).endTransfer region .host) := by
  show execTransferComplete region s = _
  rw [execTransferComplete, hr, hd]
  rfl

/-- Every strand that waits for the region to come to the owner waits no more. -/
theorem State.strand_ownEnds (s : State) (r : Nat) (x : Region) (w : Who) : (s.ownEnds r x).strand w = (s.strand w).ownEnds r x := by
  have hnone (h : Thread) : h = {} → ({ h with str := h.str.ownEnds r x } : Thread) = {} := fun h => by rw [h]; rfl
  have hctx : (s.ownEnds r x).ctx w.core w.ctx = (s.ctx w.core w.ctx).ownEnds r x := by
    have hcore : (s.ownEnds r x).core w.core =
        { s.core w.core with ctxs := (s.core w.core).ctxs.map fun k => (k.1, k.2.ownEnds r x) } :=
      tblGet_map (f := fun co : Core => { co with ctxs := co.ctxs.map fun k => (k.1, k.2.ownEnds r x) }) rfl s.cores w.core
    rw [State.ctx, hcore]
    exact tblGet_map (f := fun k : Ctx => k.ownEnds r x) rfl _ _
  obtain ⟨c, k, _ | m⟩ := w
  · simp only [State.strand, hctx]
    rfl
  · have ht : tblGet none ((s.ctx c k).ownEnds r x).threads m =
        (tblGet none (s.ctx c k).threads m).map fun h => { h with str := h.str.ownEnds r x } :=
      tblGet_map (f := Option.map fun h : Thread => { h with str := h.str.ownEnds r x }) rfl _ _
    simp only [State.strand, State.thread, hctx, Ctx.thread, ht]
    rcases tblGet none (s.ctx c k).threads m with _ | h
    · rfl
    · rfl

theorem State.endTransfer_eq {x : Region} (h : s.homes.ownReq = none) (hh : s.homes.held = []) : s.endTransfer region x =
    { (s.ownEnds region x).setRegion region x with homes := { ((s.ownEnds region x).setRegion region x).homes with
      owed := s.homes.owed.filter (· != region) ++ [region], moving := tblPut (0, 0) s.homes.moving region (0, 0) } } := by
  rw [State.endTransfer]
  rw [State.ownStep_idle (by exact h), State.performHeld_idle (by exact hh)]
  rfl

theorem State.endTransfer_spec {x : Region} (h : s.homes.ownReq = none) (hh : s.homes.held = []) :
    (s.endTransfer region x).region region = x ∧
    ∀ w host, x = regionOwner host → (s.strand w).wait = .own region host → ((s.endTransfer region x).strand w).wait = .ownDone := by
  rw [State.endTransfer_eq h hh]
  refine ⟨((s.ownEnds region x).setRegion_region region x :), fun w host hx hw => ?_⟩
  have hs := s.strand_ownEnds region x w
  have hown : (x == Region.host) = host := by
    rw [hx]
    cases host <;> rfl
  rw [Strand.ownEnds, hown, if_pos hw] at hs
  exact congrArg Strand.wait hs

end Transfers

end Sys2Proof.Machine
end

section
namespace Sys2Proof.Machine

/-! ### Writes of a host (22 R338, R339) -/

section HostWrites

variable (s : State)

/-- Casts that land leave the host copies. -/
theorem State.fillL1_hostDir (c : Nat) (x : L1Line) : (s.fillL1 c x).homes.hostDir = s.homes.hostDir := by
  fun_cases State.fillL1 <;> rfl
theorem State.castInstall_hostDir (c line : Nat) (data : Line) : (s.castInstall c line data).homes.hostDir = s.homes.hostDir := by
  unfold State.castInstall
  exact State.fillL1_hostDir _ _ _
theorem State.castLand_hostDir (core line stc part : Nat) (data : Line) :
    (s.castLand core line stc part data).homes.hostDir = s.homes.hostDir := by
  fun_cases State.castLand
  · rfl
  · rw [← s.castInstall_hostDir core line data]
    rfl
theorem State.sendCasts_hostDir (id n : Nat) : (s.sendCasts id n).homes.hostDir = s.homes.hostDir := by
  fun_cases State.sendCasts
  · rfl
  · next t _ u => exact foldl_keeps (fun v : State => v.homes.hostDir = s.homes.hostDir) _ _ _ rfl fun _ _ h => h
theorem State.landCasts_hostDir (p : Nat → Bool) : (s.landCasts p).homes.hostDir = s.homes.hostDir := by
  unfold State.landCasts
  refine foldl_keeps (fun v : State => v.homes.hostDir = s.homes.hostDir) _ _ _ ?_ fun v m h => ?_
  · exact foldl_keeps (fun v : State => v.homes.hostDir = s.homes.hostDir) _ _ _ rfl fun v t h => (v.sendCasts_hostDir _ _).trans h
  · split
    · split
      · exact ((v.dropMsg m.id).castLand_hostDir _ _ _ _ _).trans h
      · exact h
    · exact h
theorem State.purgeLine_hdir (l line : Nat) : (s.purgeLine l).hdir line = s.hdir line := by
  rw [State.hdir, State.hdir, ← s.landCasts_hostDir (· == l)]
  rfl

theorem State.setHdir_hdir_other {s : State} {line l : Nat} (h : l ≠ line) (x : HostDir) : (s.setHdir line x).hdir l = s.hdir l :=
  tblGet_put_other _ _ _ _ _ h

/-- The line of a write of a whole line at its home. -/
theorem lineOf_whole (line : Nat) : lineOf (64 * line) = line ∧ lineOf (64 * line + 64 - 1) = line := by
  unfold lineOf
  omega

variable {s : State} {line : Nat} (data : Line)

theorem State.hostWrite_eq (hsound : s.poisonAt (64 * line) = 0) : s.hostWrite line data =
    ((s.setHdir line {}).purgeLine (lineOf (s.forward (64 * line)))).poke (64 * line) 64 data.toNat := by
  rw [State.hostWrite, State.homeWrite, if_neg fun h => h hsound]
  rfl

/-- Every host copy of the line goes. -/
theorem State.hostWrite_hdir (hsound : s.poisonAt (64 * line) = 0) (hhome : lineOf (s.forward (64 * line)) = line) :
    (s.hostWrite line data).hdir line = {} := by
  rw [State.hostWrite_eq data hsound, hhome, State.poke_eq]
  have hp := State.purgeLine_hdir (s.setHdir line {}) line line
  have hf : ((s.setHdir line {}).purgeLine line).forward (64 * line) = s.forward (64 * line) :=
    ((s.setHdir line {}).purgeLine_atHomes line).forward _
  rw [State.setHdir_hdir] at hp
  generalize (s.setHdir line {}).purgeLine line = u at hp hf ⊢
  obtain ⟨mem, keys, he⟩ := u.pokeFrom_frame (64 * line) 64
  have hd : (u.pokeFrom (64 * line) 64).hdir line = {} := by
    rw [he]
    exact hp
  rw [hf, hhome, hd]
  exact ((u.pokeFrom (64 * line) 64).setHdir_hdir line _ :)

/-- The line holds the host's data, and no other byte changes. -/
theorem State.hostWrite_bytes (hsound : s.poisonAt (64 * line) = 0) (hfwd : s.forward (64 * line) = 64 * line) :
    (∀ a, a < 64 * line ∨ 64 * line + 64 ≤ a → byteAt (s.hostWrite line data).mem a = byteAt s.mem a) ∧
    readBytes (s.hostWrite line data).mem (64 * line) 64 = data.toNat := by
  have hlt := toNat_lt_bytes (k := 64) data
  rw [State.hostWrite_eq data hsound, hfwd, (lineOf_whole line).1, State.poke_eq]
  have hm := State.purgeLine_mem (s.setHdir line {}) line
  have hf : ((s.setHdir line {}).purgeLine line).forward (64 * line) = 64 * line :=
    (((s.setHdir line {}).purgeLine_atHomes line).forward _).trans hfwd
  rw [State.setHdir_mem] at hm
  generalize (s.setHdir line {}).purgeLine line = u at hm hf ⊢
  have hfrom : u.pokeFrom (64 * line) 64 = (u.rekey line).rekey line := by
    rw [State.pokeFrom, hf, (lineOf_whole line).1, (lineOf_whole line).2]
  obtain ⟨m1, k1, h1, hm1, -⟩ := State.rekey_frame u line
  obtain ⟨m2, k2, h2, hm2, -⟩ := State.rekey_frame (u.rekey line) line
  rw [hfrom, hf]
  refine ⟨fun a ha => ?_, (readBytes_writeBytes_same _ _ _ _).trans (Nat.mod_eq_of_lt hlt)⟩
  rw [byteAt_writeBytes_outside _ _ _ _ _ ha, h2]
  refine (hm2 a ha).trans ?_
  rw [h1]
  exact (hm1 a ha).trans (by rw [hm])

end HostWrites

/-! ### Requests of hosts and ports (22 R338 to R342) -/

section Requests

variable {s : State} {agent line : Nat}

/-- A request that its home takes up: the line is its own home's, a host may reach it, and nothing holds it back. -/
structure HostAsks (s : State) (agent line : Nat) : Prop where
  home : lineOf (s.forward (64 * line)) = line
  may : s.hostMay line = true
  sound : tblGet 0 s.homes.poison line = 0
  still : s.scrubbing (64 * line) = false
  open_ : s.migLocked (64 * line) = false
  first : s.hostHolds agent line = false

theorem HostAsks.poisonAt (h : HostAsks s agent line) : s.poisonAt (64 * line) = 0 := by
  rw [State.poisonAt, h.home, h.sound]

/-- It is served by the rules of ports, by those of a region that has just begun to move, or by those of the region's owner. -/
theorem HostAsks.takeRequest (h : HostAsks s agent line) (r : HostReq) : s.takeRequest agent line (line / 32768) r =
    if 2 ≤ agent then s.portServe agent line r
    else if s.justMoved (line / 32768) then s.takeFirst agent line (line / 32768) r
    else match s.region (line / 32768) with
      | .host => s.hostServe agent line r
      | _ => (s.hostQueue agent line).wantHost (line / 32768) := by
  rw [State.takeRequest, h.may, h.sound, h.still, h.open_, h.first]
  rfl

theorem HostAsks.exec_read (h : HostAsks s agent line) (ha : agent < 4) :
    exec (.hostRequest agent line .read) s = .next (s.takeRequest agent line (line / 32768) .read) := by
  show execHostRequest agent line .read s = _
  simp only [execHostRequest, h.home]
  rw [if_neg (by omega)]
theorem HostAsks.exec_own (h : HostAsks s agent line) (ha : agent < 2) :
    exec (.hostRequest agent line .own) s = .next (s.takeRequest agent line (line / 32768) .own) := by
  show execHostRequest agent line .own s = _
  simp only [execHostRequest, h.home]
  rw [if_neg (by omega)]
theorem HostAsks.exec_write (h : HostAsks s agent line) (ha : agent < 4) (data : Line) :
    exec (.hostRequest agent line (.write data)) s = .next (s.takeRequest agent line (line / 32768) (.write data)) := by
  show execHostRequest agent line (.write data) s = _
  simp only [execHostRequest, h.home, h.open_, Bool.and_false, Bool.false_and, Bool.false_eq_true, if_false]
  rw [if_neg (by omega)]

/-- A host's request that its regulator has admitted waits no more, and counts as its region's owner's. -/
def State.hostAdmitted (s : State) (agent line : Nat) : State :=
  ((((s.unqueue (.host agent line)).request (hostRegulator agent) (64 * line)).hostLeave agent line).ownerServed (line / 32768))

/-- What an admitted request does, where no agent holds the line exclusive. -/
theorem State.hostServe_admitted (hexcl : (s.hdir line).excl = none) (hm : s.mayEnter (.host agent line) (hostRegulator agent) = true)
    (ha : s.admits (hostRegulator agent) (s.dieOf (s.forward (64 * line))) = true) (r : HostReq) :
    s.hostServe agent line r = match r with
      | .read => (s.hostAdmitted agent line).setHdir line { s.hdir line with shared := (s.hdir line).shared ||| BitVec.twoPow 2 agent }
      | .own => (s.hostAdmitted agent line).setHdir line { excl := some agent, shared := 0#2, recallAt := none }
      | .write data => (s.hostAdmitted agent line).hostWrite line data
      | .evict _ => s.hostAdmitted agent line := by
  have hreg : s.regulate (.host agent line) (hostRegulator agent) (64 * line) =
      (true, (s.unqueue (.host agent line)).request (hostRegulator agent) (64 * line)) := by
    rw [State.regulate, hm, ha]
    rfl
  rw [State.hostServe]
  simp only [hexcl, hreg, Option.isSome_none, Bool.false_and, Bool.false_eq_true, if_false]
  cases r <;> rfl

/-- A host's request that comes as its region begins to move waits first in an H region, while another agent holds the line. -/
theorem State.takeFirst_waits {a region : Nat} (ha : a ≠ agent) (hexcl : (s.hdir line).excl = some a) (r : HostReq) :
    (s.takeFirst agent line region r).region region = .host ∧ (agent, line) ∈ (s.takeFirst agent line region r).homes.hostWaits ∧
    (s.takeFirst agent line region r).mem = s.mem := by
  have hserve : s.hostServe agent line r = (s.recallLine line).hostQueue agent line := by
    rw [State.hostServe, hexcl, if_pos (by simp [ha])]
  have hin : (agent, line) ∈ ((s.recallLine line).hostQueue agent line).homes.hostWaits := by
    unfold State.hostQueue
    split
    · next h => simpa using h
    · exact List.mem_append_right _ (List.mem_singleton_self _)
  have hmem : ((s.recallLine line).hostQueue agent line).mem = s.mem := by
    unfold State.hostQueue
    split <;> exact s.recallLine_mem line
  rw [State.takeFirst, hserve]
  rw [if_pos (List.contains_iff_mem.mpr hin)]
  exact ⟨(State.setRegion_region _ region .host :), hin, hmem⟩

theorem State.portServe_busy (h : s.homeBusy (64 * line) = true) (r : HostReq) :
    s.portServe agent line r = (s.recallLine line).hostQueue agent line := by rw [State.portServe, if_pos h]
theorem State.portServe_held {u : State} (h : s.homeBusy (64 * line) = false)
    (hreg : s.regulate (.host agent line) (hostRegulator agent) (64 * line) = (false, u)) (r : HostReq) :
    s.portServe agent line r = u.hostQueue agent line := by
  rw [State.portServe, h, hreg]
  rfl
theorem State.portServe_admitted {u : State} (h : s.homeBusy (64 * line) = false)
    (hreg : s.regulate (.host agent line) (hostRegulator agent) (64 * line) = (true, u)) (r : HostReq) :
    s.portServe agent line r = match r with
      | .write data => (u.hostLeave agent line).hostWrite line data
      | _ => u.hostLeave agent line := by
  rw [State.portServe, h, hreg]
  cases r <;> rfl

end Requests

end Sys2Proof.Machine
end

section
namespace Sys2Proof.Machine

/-! ### Recalls and lost owners (22 R339, R347) -/

section Recalls

variable {s : State} {agent line t0 : Nat} (data : Line)

/-- The home takes the data of a sound line; nothing else moves. -/
theorem State.takeHostData_sound (h : tblGet 0 s.homes.poison line = 0) :
    readBytes (s.takeHostData line data).mem (64 * line) 64 = data.toNat ∧ (s.takeHostData line data).homes.hostDir = s.homes.hostDir ∧
    (s.takeHostData line data).homes.held = s.homes.held ∧ (s.takeHostData line data).cores = s.cores := by
  obtain ⟨mem, keys, he, -⟩ := State.rekey_frame s line
  rw [State.takeHostData, if_pos h]
  refine ⟨(readBytes_writeBytes_same _ _ _ _).trans (Nat.mod_eq_of_lt (toNat_lt_bytes (k := 64) data)), ?_⟩
  rw [he]
  exact ⟨rfl, rfl, rfl⟩

theorem exec_hostRecallReply (hexcl : (s.hdir line).excl = some agent) (hat : (s.hdir line).recallAt = some t0) (hsoon : s.ps < t0 + 20000000)
    (hsound : tblGet 0 s.homes.poison line = 0) (hheld : s.homes.held = []) : ∃ shared, exec (.hostRecallReply agent line data) s =
      .next ((s.setHdir line { shared }).takeHostData line data) := by
  have hin : (s.hdir line).recallAt.any (fun t0 => decide (t0 + 20000000 ≤ s.ps)) = false := by
    rw [hat, Option.any_some, decide_eq_false_iff_not]
    omega
  let shared : BitVec 2 :=
    if s.region (line / 32768) == .host && !s.migLocked (64 * line) && !s.scrubbing (64 * line) then BitVec.twoPow 2 agent else 0#2
  have hidle : ((s.setHdir line { shared }).takeHostData line data).homes.held = [] :=
    (State.takeHostData_sound (s := s.setHdir line { shared }) data hsound).2.2.1.trans hheld
  refine ⟨shared, ?_⟩
  show execHostRecallReply agent line data s = _
  rw [execHostRecallReply, if_pos (by rw [hexcl, hat]; simp), hin]
  exact congrArg _ (State.performHeld_idle hidle)

theorem exec_ownerLostTimeout (hexcl : (s.hdir line).excl = some agent) (hat : (s.hdir line).recallAt = some t0) (hlate : t0 + 20000000 ≤ s.ps) :
    exec (.ownerLostTimeout line) s = .next (s.ownerLost line agent) := by
  show execOwnerLostTimeout line s = _
  simp only [execOwnerLostTimeout, hexcl, hat, if_neg (Nat.not_lt.mpr hlate)]
/-- A reply that comes too late finds the owner lost. -/
theorem exec_hostRecallReply_late (hexcl : (s.hdir line).excl = some agent) (hat : (s.hdir line).recallAt = some t0)
    (hlate : t0 + 20000000 ≤ s.ps) : exec (.hostRecallReply agent line data) s = .next (s.ownerLost line agent) := by
  have hin : (s.hdir line).recallAt.any (fun t0 => decide (t0 + 20000000 ≤ s.ps)) = true := by
    rw [hat, Option.any_some, decide_eq_true_eq]
    exact hlate
  show execHostRecallReply agent line data s = _
  rw [execHostRecallReply, if_pos (by rw [hexcl, hat]; simp), hin]
  rfl

/-- The line of a lost owner before that is recorded. -/
def State.orphaned (s : State) (line : Nat) : State :=
  let u := s.setHdir line { s.hdir line with excl := none, recallAt := none }
  { u with homes := { u.homes with
    poison := tblPut 0 s.homes.poison line 2, hostWaits := s.homes.hostWaits.filter fun w => w.2 != line } }

theorem State.setCtl_frame (s : State) (off : Nat) (v : DWord) : ∃ ctl, s.setCtl off v = { s with ctl } := ⟨_, rfl⟩
theorem State.logLost_frame (s : State) (agent line : Nat) : ∃ ctl, s.logLost agent line = { s with ctl } := by
  unfold State.logLost
  generalize BitVec.ofNat 64 (2 ^ 63 + agent * 2 ^ 40 + line * 64) = x
  split
  · exact s.setCtl_frame _ _
  · next n _ =>
    obtain ⟨c1, h1⟩ := s.setCtl_frame (offLOSTREC n) x
    rw [h1]
    exact State.setCtl_frame { s with ctl := c1 } _ _
theorem State.logLost_free {n : Nat} (h : ((List.range 16).find? fun n => s.ctlF (offLOSTREC n) 63 1 == 0) = some n) :
    (s.logLost agent line).ctl64 (offLOSTREC n) = BitVec.ofNat 64 (2 ^ 63 + agent * 2 ^ 40 + line * 64) ∧
    (s.logLost agent line).ctl64 (offLOSTREC n + 8) = BitVec.ofNat 64 s.time := by
  unfold State.logLost
  generalize BitVec.ofNat 64 (2 ^ 63 + agent * 2 ^ 40 + line * 64) = x
  simp only [h]
  exact ⟨by rw [State.setCtl_ctl64_other _ _ _ _ (by omega), State.setCtl_ctl64], State.setCtl_ctl64 _ _ _⟩

theorem State.ownerLost_eq (hheld : s.homes.held = []) : s.ownerLost line agent = (s.orphaned line).logLost agent line := by
  obtain ⟨ctl, he⟩ := (s.orphaned line).logLost_frame agent line
  have hidle : ((s.orphaned line).logLost agent line).homes.held = [] := by
    rw [he]
    exact hheld
  rw [← State.performHeld_idle hidle]
  rfl

theorem State.ownerLost_spec (hheld : s.homes.held = []) : let t := s.ownerLost line agent
    tblGet 0 t.homes.poison line = 2 ∧ (t.hdir line).excl = none ∧ t.mem = s.mem ∧ t.cores = s.cores ∧
    ∀ n, ((List.range 16).find? fun n => s.ctlF (offLOSTREC n) 63 1 == 0) = some n →
      t.ctl64 (offLOSTREC n) = BitVec.ofNat 64 (2 ^ 63 + agent * 2 ^ 40 + line * 64) ∧
      t.ctl64 (offLOSTREC n + 8) = BitVec.ofNat 64 s.time := by
  intro t
  have ht : t = (s.orphaned line).logLost agent line := State.ownerLost_eq hheld
  obtain ⟨ctl, he⟩ := (s.orphaned line).logLost_frame agent line
  have hexcl : ((s.orphaned line).hdir line).excl = none :=
    congrArg HostDir.excl (s.setHdir_hdir line { s.hdir line with excl := none, recallAt := none })
  refine ⟨?_, ?_, ?_, ?_, fun n hn => ?_⟩ <;> rw [ht]
  · rw [he]
    exact tblGet_put_same 0 s.homes.poison line 2
  · rw [he]
    exact hexcl
  · rw [he]
    rfl
  · rw [he]
    rfl
  · exact State.logLost_free (s := s.orphaned line) hn

end Recalls

/-- Settles O48: a request of a host goes by the state of its region and of its line's copies, a port's by what its home has free,
a reply by the time since its recall. -/
theorem hostSteps : Obligations.HostSteps := by
  intro s u region agent line v data
  refine ⟨⟨exec_owncmdGo_rejected, exec_owncmdGo⟩, fun r host h hr => ?_, exec_transferComplete_toAcc, exec_transferComplete_toHost,
    fun x h hh => State.endTransfer_spec h hh, fun ha hhome hmay hsound hstill hopen hfirst => ?_,
    fun h2 h4 hhome hmay hsound hstill hopen hfirst => ?_, fun t0 hexcl hat hsoon hsound hheld => ?_, fun t0 hexcl hat hlate hheld => ?_⟩
  · rw [State.ownStep_done h hr]
    exact ⟨State.ctlF_setCtlF_same _ _ 0 (by decide), rfl⟩
  · have hasks : HostAsks s agent line := ⟨hhome, hmay, hsound, hstill, hopen, hfirst⟩
    have hreg : hostRegulator agent = 8 + agent := congrArg (8 + ·) (Nat.mod_eq_of_lt ha)
    refine ⟨fun a hne hexcl hto hjust => ?_, fun hregion hexcl hm had => ?_⟩
    · refine ⟨_, hasks.exec_read (by omega), ?_⟩
      rw [hasks.takeRequest, if_neg (by omega), if_pos hjust]
      exact State.takeFirst_waits hne hexcl .read
    · have hjust : s.justMoved (line / 32768) = false := by
        rw [State.justMoved, hregion]
        rfl
      have hserve (r : HostReq) : s.takeRequest agent line (line / 32768) r = s.hostServe agent line r := by
        rw [hasks.takeRequest, if_neg (by omega), hjust, if_neg Bool.false_ne_true, hregion]
      have hadm (r : HostReq) := State.hostServe_admitted hexcl (hreg ▸ hm) (hreg ▸ had) r
      refine ⟨⟨_, hasks.exec_read (by omega), ?_⟩, ⟨_, hasks.exec_own ha, ?_⟩, ⟨_, hasks.exec_write (by omega) data, ?_⟩⟩ <;>
        rw [hserve, hadm]
      · have hset := (s.hostAdmitted agent line).setHdir_hdir line
          { s.hdir line with shared := (s.hdir line).shared ||| BitVec.twoPow 2 agent }
        exact ⟨rfl, congrArg HostDir.shared hset, (congrArg HostDir.excl hset).trans hexcl, fun l hl => State.setHdir_hdir_other hl _⟩
      · exact ⟨rfl, State.setHdir_hdir _ _ _, fun l hl => State.setHdir_hdir_other hl _⟩
      · have hpoison : (s.hostAdmitted agent line).poisonAt (64 * line) = 0 := hasks.poisonAt
        refine ⟨State.hostWrite_hdir data hpoison hasks.home, fun a hout hfwd => ?_, fun hfwd => ?_⟩
        · exact (State.hostWrite_bytes data hpoison hfwd).1 a hout
        · exact (State.hostWrite_bytes data hpoison hfwd).2
  · have hasks : HostAsks s agent line := ⟨hhome, hmay, hsound, hstill, hopen, hfirst⟩
    have hreg : hostRegulator agent = 6 + agent := by
      rw [hostRegulator]
      omega
    have hserve (r : HostReq) : s.takeRequest agent line (line / 32768) r = s.portServe agent line r := by
      rw [hasks.takeRequest, if_pos h2]
    refine ⟨fun hbusy => ?_, fun hfree hheld => ?_, fun hfree hadm => ⟨?_, ?_⟩⟩
    · rw [hasks.exec_read h4, hserve, State.portServe_busy hbusy, hasks.home]
    · rw [hasks.exec_read h4, hserve, State.portServe_held hfree (hreg ▸ hheld)]
    · rw [hasks.exec_read h4, hserve, State.portServe_admitted hfree (hreg ▸ hadm)]
    · rw [hasks.exec_write h4, hserve, State.portServe_admitted hfree (hreg ▸ hadm)]
  · obtain ⟨shared, he⟩ := exec_hostRecallReply data hexcl hat hsoon hsound hheld
    obtain ⟨hread, hdir, -, hcores⟩ := State.takeHostData_sound (s := s.setHdir line { shared }) data hsound
    refine ⟨_, he, ?_, hread, fun l hl => ?_, hcores⟩
    · rw [State.hdir, hdir]
      exact congrArg HostDir.excl (s.setHdir_hdir line { shared })
    · rw [State.hdir, hdir]
      exact State.setHdir_hdir_other hl _
  · rw [exec_hostRecallReply_late data hexcl hat hlate, exec_ownerLostTimeout hexcl hat hlate]
    exact ⟨rfl, _, rfl, State.ownerLost_spec hheld⟩

end Sys2Proof.Machine
end

section
namespace Sys2Proof.Machine

/-! ### Accesses of the dispatchers (17 R383) -/

section Accesses

variable {u v s : State} {w : DispWait} {pa : Nat}

/-- The access is made by itself, at an address, and is over. -/
def Makes (u v : State) (w : DispWait) (pa : Nat) : Prop := ∃ x,
  (u.numbered w).2.attemptAlone (u.numbered w).1 = (.at_ pa, x) ∧ v = x.dropWait (u.numbered w).1.id

theorem Makes.makeOrList (h : Makes u v w pa) (f : Nat → State → State) (lost : State → State) : u.makeOrList w f lost = (true, f pa v) := by
  obtain ⟨x, hx, rfl⟩ := h
  unfold State.makeOrList
  generalize u.numbered w = n at hx ⊢
  obtain ⟨w', u'⟩ := n
  dsimp only at hx ⊢
  rw [hx]

theorem Makes.writeOrList (h : Makes u v w pa) : u.writeOrList w = (true, v.applyWait w pa) := h.makeOrList _ _

/-- A decrement of a record that there is. -/
theorem State.decrement_none (s : State) (die slot part kind : Nat) (user : Bool) : s.decrement die slot part kind user 0#64 = (true, s) := by
  rw [State.decrement, if_pos rfl]
theorem Makes.decrement {die slot part kind : Nat} {user : Bool} {va : DWord} (hva : va ≠ 0#64) (hk : kind = 2 ∨ kind = 5)
    (h : Makes u v { id := 0, die, slot, part, va := va + 16#64, write := true, kind, user } pa) :
    u.decrement die slot part kind user va = (true, v.decJoin (pa - 16)) := by
  rw [State.decrement, if_neg hva, h.writeOrList]
  rcases hk with rfl | rfl <;> rfl

end Accesses

/-! ### The yield (09 R217) -/

section Yield

variable {s s1 s2 : State} {core ctx : Nat} {k : Task}

/-- The launch of a task that yields has one task of its START = 1 entry fewer to wait for. -/
def State.countYield (s : State) (k : Task) : State :=
  if k.startItem then s.modLaunch k.slot fun l => { l with startLeft := ((s.launch k.slot).map Launch.startLeft).getD 0 - 1 } else s

theorem exec_taskYield (ht : (s.ctx core ctx).task = some k) (hy : (s.ctx core ctx).yielding = true) (htr : (s.ctx core ctx).traps = [])
    (hh : (s.ctx core ctx).handler = false) (hr : s.releaseReady { core, ctx } true = true) :
    exec (.taskYield core ctx) s = .next (s.yieldTask core ctx k) := by
  show execTaskYield core ctx s = _
  simp only [execTaskYield, ht, hy, htr, hh, hr, List.isEmpty_nil, Bool.not_false, Bool.and_self, if_true]

/-- While tasks of the entry are left, the yield decrements nothing. -/
theorem State.yieldTask_counts (hi : k.startItem = true) (hl : ((s.launch k.slot).map Launch.startLeft).getD 0 - 1 ≠ 0) :
    s.yieldTask core ctx k = (s.countYield k).freeCtx core ctx := by
  unfold State.yieldTask State.countYield
  simp only [hi, if_true]
  rw [if_pos ⟨trivial, hl⟩]

theorem State.yieldTask_succ (hl : k.startItem = true → ((s.launch k.slot).map Launch.startLeft).getD 0 - 1 = 0) :
    s.yieldTask core ctx k = ((s.countYield k).yieldSucc (coreDie core) k.slot ((s.countYield k).partOf core ctx)
      ((s.countYield k).slotUser k.slot) k.record).freeCtx core ctx := by
  unfold State.yieldTask
  dsimp only
  rw [if_neg fun h => h.2 (hl h.1)]
  rfl

/-- The reading of SUCC, and what it leads to. -/
theorem Makes.yieldSucc {die slot part : Nat} {user : Bool} {record : DWord} {pa : Nat}
    (h : Makes s s1 { id := 0, die, slot, part, va := record + 32#64, write := false, kind := 6, user } pa) :
    s.yieldSucc die slot part user record = (s1.decrement die slot part 2 user (BitVec.ofNat 64 (s1.homeRead pa 8))).2 := by
  rw [State.yieldSucc, State.readSucc, h.makeOrList]

end Yield

/-! ### A context is freed (08 R195; 09 R216, R217) -/

section FreeCtx

variable (s : State) (c k : Nat)

/-- The launches, the registered records, the spilled tasks and the time stay. -/
def SameTasks (s t : State) : Prop := t.launches = s.launches ∧ t.sched.recs = s.sched.recs ∧ t.sched.spilled = s.sched.spilled ∧ t.ps = s.ps

theorem SameTasks.refl (s : State) : SameTasks s s := ⟨rfl, rfl, rfl, rfl⟩
theorem SameTasks.trans {s t u : State} (h : SameTasks s t) (g : SameTasks t u) : SameTasks s u :=
  ⟨g.1.trans h.1, g.2.1.trans h.2.1, g.2.2.1.trans h.2.2.1, g.2.2.2.trans h.2.2.2⟩
theorem SameTasks.foldl {α : Type} {f : State → α → State} (hf : ∀ t x, SameTasks t (f t x)) (l : List α) (s : State) :
    SameTasks s (l.foldl f s) := foldl_keeps (SameTasks s) f l s (.refl s) fun t x h => h.trans (hf t x)
theorem AtHomes.sameTasks {s t : State} (h : AtHomes s t) : SameTasks s t := ⟨h.launches, h.recs, h.spilled, h.ps⟩

theorem State.restClock_ctx (d j : Nat) : (s.restClock c).ctx d j = s.ctx d j := by
  unfold State.restClock
  split
  · rfl
  · exact State.ctx_modCore s c d j _ rfl
theorem State.sweep_ctx (d j : Nat) : (s.sweep c).ctx d j = s.ctx d j := State.ctx_modCore s c d j _ rfl
theorem State.dropResv_ctx (slot d j : Nat) : (s.dropResv c slot).ctx d j = s.ctx d j := by
  unfold State.dropResv
  split
  · rfl
  · rw [State.sweep_ctx]
    simp only [State.ctx, State.core, State.modCore, State.setCore, tblGet_put]
    split
    · next h => rw [h]
    · rfl

theorem State.freeCtx_ctx : (s.freeCtx c k).ctx c k = { event := (s.ctx c k).event, pending := (s.ctx c k).pending, cb := (s.ctx c k).cb } := by
  unfold State.freeCtx
  dsimp only
  split
  · rw [State.restClock_ctx, State.setCtx_ctx]
  · rw [State.restClock_ctx, State.dropResv_ctx, State.setCtx_ctx]

theorem State.restClock_tasks : SameTasks s (s.restClock c) := by
  unfold State.restClock
  split
  · exact .refl s
  · exact ⟨rfl, rfl, rfl, rfl⟩
theorem State.dropResv_tasks (slot : Nat) : SameTasks s (s.dropResv c slot) := by
  unfold State.dropResv
  split
  · exact .refl s
  · exact ⟨rfl, rfl, rfl, rfl⟩
theorem State.freeCtx_tasks : SameTasks s (s.freeCtx c k) := by
  have hend (t : State) (w : Who) : SameTasks t (t.endExecutor w) := ⟨rfl, rfl, rfl, rfl⟩
  have hends : SameTasks s (((s.ctx c k).liveTids.foldl (fun s t => s.endExecutor { core := c, ctx := k, tid := some t }) s).endExecutor
      { core := c, ctx := k }) := (SameTasks.foldl (fun t n => hend t _) _ s).trans (hend _ _)
  unfold State.freeCtx
  dsimp only
  generalize ((s.ctx c k).liveTids.foldl (fun s t => s.endExecutor { core := c, ctx := k, tid := some t }) s).endExecutor
    { core := c, ctx := k } = u at hends ⊢
  split
  · refine hends.trans (SameTasks.trans ?_ (State.restClock_tasks _ c))
    exact ⟨rfl, rfl, rfl, rfl⟩
  · refine hends.trans (SameTasks.trans ?_ ((State.dropResv_tasks _ c _).trans (State.restClock_tasks _ c)))
    exact ⟨rfl, rfl, rfl, rfl⟩

end FreeCtx

end Sys2Proof.Machine
end

section
namespace Sys2Proof.Machine

/-! ### The end of a launch (09 R221) -/

section LaunchEnds

variable {s s1 u v : State} {slot : Nat} {l : Launch}

/-- The DONE write of a launch. -/
def Launch.doneWrite (l : Launch) (slot : Nat) : DispWait :=
  { id := 0, die := l.die, slot, part := l.part, va := BitVec.ofNat 64 l.doneAddr, write := true, kind := 3, user := !l.priv
    value := if l.aborted then 2#64 else 1#64 }

/-- The DONE word of a launch is written, where it has one. -/
def State.DoneWritten (s s1 u : State) (slot : Nat) (l : Launch) : Prop :=
  (l.doneAddr = 0 ∧ u = s) ∨
    (l.doneAddr ≠ 0 ∧ ∃ pa, Makes s s1 (l.doneWrite slot) pa ∧ u = s1.homeWrite pa 8 (if l.aborted then 2 else 1))

theorem exec_launchComplete (h : s.launch slot = some l) (ho : s.launchOver slot = true) :
    exec (.launchComplete slot) s = .next (s.endLaunch slot l) := by
  show execLaunchComplete slot s = _
  simp only [execLaunchComplete, h, ho, if_true]

theorem State.endLaunch_done (h : s.DoneWritten s1 u slot l) : s.endLaunch slot l = u.endSucc slot l := by
  rcases h with ⟨h0, rfl⟩ | ⟨h0, pa, hm, rfl⟩
  · rw [State.endLaunch, if_pos h0]
  · have hv : (l.doneWrite slot).value.toNat = if l.aborted then 2 else 1 := by
      unfold Launch.doneWrite
      dsimp only
      split <;> rfl
    have hw : s1.applyWait (l.doneWrite slot) pa = s1.homeWrite pa 8 (if l.aborted then 2 else 1) := by
      rw [← hv]
      rfl
    have hmake : s.writeOrList (l.doneWrite slot) = (true, s1.homeWrite pa 8 (if l.aborted then 2 else 1)) := hw ▸ hm.writeOrList
    rw [State.endLaunch, if_neg h0]
    unfold Launch.doneWrite at hmake
    simp only [hmake]

theorem State.endSucc_none (h : BitVec.ofNat 64 l.succ = 0#64) : u.endSucc slot l = u.freeSlot slot := by
  rw [State.endSucc, h, State.decrement_none]
theorem Makes.endSucc {qa : Nat} (hne : BitVec.ofNat 64 l.succ ≠ 0#64)
    (h : Makes u v { id := 0, die := l.die, slot, part := l.part, va := BitVec.ofNat 64 l.succ + 16#64, write := true, kind := 5
                     user := !l.priv } qa) :
    u.endSucc slot l = (v.decJoin (qa - 16)).freeSlot slot := by
  rw [State.endSucc, h.decrement hne (.inr rfl)]

/-- A slot that is freed has no launch, and no open generation of a grid barrier. -/
theorem State.freeSlot_launch (s : State) (slot : Nat) : (s.freeSlot slot).launch slot = none := by
  unfold State.freeSlot
  split
  · next h => exact h
  · next l _ =>
    have h : (((s.burySlot slot l.serial).setLaunch slot none).endGens (· == slot)).launch slot = none :=
      ((s.burySlot slot l.serial).setLaunch_launch slot none :)
    dsimp only
    split
    · exact h
    · exact h

theorem State.freeSlot_gens (h : s.launch slot ≠ none) : ∀ n ∈ (s.freeSlot slot).sched.gens, n.slot = slot → n.done.isSome = true := by
  obtain ⟨l, hl⟩ := Option.ne_none_iff_exists'.mp h
  have hg : (s.freeSlot slot).sched.gens = s.sched.gens.filter fun g => !(g.slot == slot) || g.done.isSome := by
    simp only [State.freeSlot, hl]
    split <;> rfl
  intro n hn hs
  rw [hg, List.mem_filter] at hn
  simpa [hs] using hn.2

end LaunchEnds

/-! ### Listed accesses (17 R383) -/

section Listed

variable {s : State} {die id : Nat} {w : DispWait} (h : (s.sched.waits.find? fun w => w.id == id && w.die == die) = some w)
include h

theorem exec_dispatcherAccessFault_retried (hf : (s.sched.faults.find? fun f => f.exk == 3 && f.op == id) = none) :
    exec (.dispatcherAccessFault die id) s = .next (s.retryWait w) := by
  show execDispatcherAccessFault die id s = _
  simp only [execDispatcherAccessFault, h, hf]

theorem exec_dispatcherAccessFault_served {f : FaultSvc} (hf : (s.sched.faults.find? fun f => f.exk == 3 && f.op == id) = some f) :
    (f.outcome = some true → exec (.dispatcherAccessFault die id) s = .next ((s.dropService id).retryWait w)) ∧
    (f.outcome = some false → exec (.dispatcherAccessFault die id) s = .next ((s.dropWait id).loseWait w f.cause f.va)) := by
  refine ⟨fun ho => ?_, fun ho => ?_⟩ <;>
    · show execDispatcherAccessFault die id s = _
      simp only [execDispatcherAccessFault, h, hf, ho]

end Listed

end Sys2Proof.Machine
end

section
namespace Sys2Proof.Machine

/-! ### A task starts (09 R216, R231; 17 R301, R309) -/

section Establish

variable {s : State} {core slot : Nat} {l : Launch}

theorem State.modMx_resv (s : State) (f : Mx → Mx) : ((s.modMx core f).core core).resv = (s.core core).resv := by
  rw [State.modMx, State.modCore_core]
theorem State.holdMx_resv (s : State) : ((s.holdMx core slot l).core core).resv = (s.core core).resv := by
  unfold State.holdMx
  split
  · rfl
  · rw [State.turnMx, State.modMx_resv, State.modMx_resv]

/-- A window established anew stands, and reads zero. -/
theorem State.newWindow_resv (s : State) (c slot : Nat) :
    ((s.newWindow c slot).core c).resv.find? (fun r => r.slot == slot) = some ({ slot } : Resv) := by
  have hr : ((s.newWindow c slot).core c).resv =
      mapIf (fun r => r.slot == slot) (fun r => { r with slot := deadSlot slot s.fresh }) (s.core c).resv ++ [({ slot } : Resv)] :=
    congrArg Core.resv (State.modCore_core _ c _)
  rw [hr, List.find?_append, List.find?_eq_none.mpr]
  · simp
  · intro r hm
    obtain ⟨x, -, rfl⟩ := List.mem_map.mp hm
    by_cases hx : x.slot = slot
    · simp only [hx, beq_self_eq_true, if_true, deadSlot, beq_iff_eq]
      omega
    · simp [hx]

theorem State.establish_new (h : s.launch slot = some l) (hr : s.hasResv core slot = false)
    (hk : (s.keptWindow core slot && s.hasSpilled core slot) = false) : s.establish core slot l [] = (s.newWindow core slot).holdMx core slot l := by
  rw [State.establish, State.reserve, h]
  simp only [hr, hk, Bool.false_eq_true, if_false, List.isEmpty_nil, if_true]

theorem State.establish_spec (h : s.launch slot = some l) (hr : s.hasResv core slot = false)
    (hk : (s.keptWindow core slot && s.hasSpilled core slot) = false) : let t := s.establish core slot l []
    t.hasResv core slot = true ∧ (∀ b, byteAt ((t.core core).window slot) b = 0#8) ∧ t.mem = s.mem := by
  intro t
  have ht : t = (s.newWindow core slot).holdMx core slot l := State.establish_new h hr hk
  have hresv : (t.core core).resv.find? (fun r => r.slot == slot) = some ({ slot } : Resv) := by
    rw [ht, State.holdMx_resv, State.newWindow_resv]
  refine ⟨?_, fun b => ?_, ?_⟩
  · rw [State.hasResv, List.any_eq_true]
    exact ⟨_, List.mem_of_find?_eq_some hresv, by simp⟩
  · rw [Core.window, hresv]
    rfl
  · rw [ht, State.holdMx_mem]
    rfl

end Establish

end Sys2Proof.Machine
end

section
namespace Sys2Proof.Machine

/-! ### The lists age (17 R294) -/

section Ageing

/-- A list at a number of microsecond boundaries. -/
def ListAge.boundaries (a : ListAge) (aget l : Nat) (held : Bool) (due : Nat) : ListAge :=
  (List.range due).foldl (fun (a : ListAge) _ => a.boundary aget l held) a

/-- A list that holds nothing and has not aged stays so. -/
theorem ListAge.boundary_empty {aget l : Nat} (h : 0 < aget) : ({} : ListAge).boundary aget l false = {} := by
  have h0 : ¬ aget ≤ 0 := by omega
  simp [ListAge.boundary, h0]
theorem ListAge.boundaries_empty {aget : Nat} (h : 0 < aget) (l due : Nat) : ({} : ListAge).boundaries aget l false due = {} := by
  unfold ListAge.boundaries
  induction due with
  | zero => rfl
  | succ n ih => rw [List.range_succ, List.foldl_append, ih, List.foldl_cons, List.foldl_nil, ListAge.boundary_empty h]

/-- One list of a die comes to its boundaries. -/
def State.ageList (s : State) (die aget due : Nat) (t : Tbl ListAge) (l : Nat) : Tbl ListAge :=
  if !s.listHeld die l && tblGet {} t (8 * die + l) == {} then t
  else tblPut {} t (8 * die + l) ((tblGet {} t (8 * die + l)).boundaries aget l (s.listHeld die l) due)

variable {s : State} {die aget due : Nat}

theorem State.ageList_get (h : 0 < aget) (t : Tbl ListAge) (l m : Nat) : tblGet {} (s.ageList die aget due t l) (8 * die + m) =
    if m = l then (tblGet {} t (8 * die + m)).boundaries aget m (s.listHeld die m) due else tblGet {} t (8 * die + m) := by
  unfold State.ageList
  by_cases hm : m = l
  · rw [if_pos hm, hm]
    split
    · next he =>
      rw [Bool.and_eq_true, Bool.not_eq_true', beq_iff_eq] at he
      rw [he.1, he.2, ListAge.boundaries_empty h]
    · rw [tblGet_put_same]
  · rw [if_neg hm]
    split
    · rfl
    · rw [tblGet_put_other _ _ _ _ _ (by omega)]

theorem State.ageList_fold (h : 0 < aget) (t : Tbl ListAge) (n m : Nat) :
    tblGet {} ((List.range n).foldl (s.ageList die aget due) t) (8 * die + m) =
      if m < n then (tblGet {} t (8 * die + m)).boundaries aget m (s.listHeld die m) due else tblGet {} t (8 * die + m) := by
  induction n with
  | zero => rfl
  | succ n ih =>
    rw [List.range_succ, List.foldl_append, List.foldl_cons, List.foldl_nil, State.ageList_get h, ih]
    by_cases hm : m = n
    · subst hm
      rw [if_pos rfl, if_neg (by omega), if_pos (by omega)]
    · rw [if_neg hm]
      simp only [show m < n + 1 ↔ m < n by omega]

/-- The state after the lists of a die have aged. -/
theorem exec_readyListAgeing (hd : die < 2) (ho : tblGet 0 s.sched.agedAt die < s.ps / 1000000) :
    exec (.readyListAgeing die) s = .next { s with sched := { s.sched with
      ages := (List.range 8).foldl (s.ageList die (s.ctlF offDSPCTL 0 10) (s.ps / 1000000 - tblGet 0 s.sched.agedAt die)) s.sched.ages
      agedAt := tblPut 0 s.sched.agedAt die (s.ps / 1000000) } } := by
  show execReadyListAgeing die s = _
  rw [execReadyListAgeing, if_neg (by omega), State.ageLists]
  dsimp only
  rw [if_neg (by omega)]
  rfl

end Ageing

/-! ### Slots and requests (17 R292, R302) -/

theorem State.freeLaunchSlot_lowest {s : State} {slot : Nat} (h : s.freeLaunchSlot = some slot) :
    s.launch slot = none ∧ ∀ n < slot, s.launch n ≠ none := by
  rw [State.freeLaunchSlot, List.find?_range_eq_some] at h
  obtain ⟨hs, -, hn⟩ := h
  exact ⟨Option.isNone_iff_eq_none.mp hs, fun n hlt he => by simpa [he] using hn n hlt⟩

/-- The member of the one request leaves it, and the last one leaves its context to the item. -/
theorem State.requestsSpilled_one {s : State} {d core ctx : Nat} {x : Disp} {q : Request}
    (h : s.sched.disps = [(d, { x with requests := [q] })]) (hc : q.core = core) (hm : ctx ∈ q.members) :
    (s.requestsSpilled core ctx).sched.disps = [(d, { x with requests := [{ q with
      members := q.members.filter (· != ctx), claim := if q.members.filter (· != ctx) = [] then some ctx else none }] })] := by
  have hq : q.spilled core ctx true = { q with
      members := q.members.filter (· != ctx), claim := if q.members.filter (· != ctx) = [] then some ctx else none } := by
    rw [Request.spilled, if_pos ⟨hc, List.contains_iff_mem.mpr hm⟩]
    simp only [Bool.and_true, List.isEmpty_iff]
  rw [← hq]
  simp only [State.requestsSpilled, h, List.foldl_cons, List.foldl_nil, spilledFrom, holdsCtx, List.all_nil, List.any_nil,
    List.nil_append, Bool.not_false, Bool.and_true]

/-! ### The header of a frame (17 R305) -/

section Header

variable {s : State} {core ctx st spt : Nat} {smem : Bool} {y : Task}

/-- The header's first dword. -/
def headerWord (core ctx st : Nat) (smem : Bool) (y : Task) : Nat :=
  core + y.slot * 2 ^ 32 + y.lctx * 2 ^ 56 + ctx * 2 ^ 58 + (if smem then 2 ^ 61 else 0) + st * 2 ^ 62

/-- A dword below what stands above it. -/
theorem add_two_pow_mul_lt {a w n k : Nat} (ha : a < 2 ^ n) (hw : w < 2 ^ k) : a + 2 ^ n * w < 2 ^ (n + k) :=
  calc a + 2 ^ n * w < 2 ^ n * (w + 1) := by rw [Nat.mul_succ]; omega
    _ ≤ 2 ^ n * 2 ^ k := Nat.mul_le_mul_left _ hw
    _ = 2 ^ (n + k) := (Nat.pow_add ..).symm

/-- Five pieces of one size packed: each stands above the one before it. -/
theorem packBytes_five (n a b c d e : Nat) : packBytes [(0, n, a), (n, n, b), (2 * n, n, c), (3 * n, n, d), (4 * n, n, e)] =
    a % 2 ^ (8 * n) + 2 ^ (8 * n) * (b % 2 ^ (8 * n) + 2 ^ (8 * n) *
      (c % 2 ^ (8 * n) + 2 ^ (8 * n) * (d % 2 ^ (8 * n) + 2 ^ (8 * n) * (e % 2 ^ (8 * n))))) := by
  have h (k : Nat) : 2 ^ (8 * (k * n)) = (2 ^ (8 * n)) ^ k := by rw [← Nat.pow_mul, Nat.mul_left_comm, Nat.mul_comm k]
  simp only [packBytes, List.foldl_cons, List.foldl_nil, h]
  ring

theorem packBytes_five_lt (n a b c d e : Nat) : packBytes [(0, n, a), (n, n, b), (2 * n, n, c), (3 * n, n, d), (4 * n, n, e)] < 2 ^ (64 * n) := by
  have hlt (x : Nat) : x % 2 ^ (8 * n) < 2 ^ (8 * n) := Nat.mod_lt _ (Nat.two_pow_pos _)
  have h := add_two_pow_mul_lt (hlt a) (add_two_pow_mul_lt (hlt b) (add_two_pow_mul_lt (hlt c) (add_two_pow_mul_lt (hlt d) (hlt e))))
  rw [packBytes_five]
  exact Nat.lt_of_lt_of_le h (Nat.pow_le_pow_right Nat.two_pos (by omega))

theorem State.frameHeader_eq (h : (s.ctx core ctx).task = some y) : s.frameHeader core ctx st smem spt =
    packBytes [(0, 8, headerWord core ctx st smem y), (8, 8, (s.ctx core ctx).threads.length), (16, 8, y.record.toNat),
      (24, 8, y.deadline.toNat + y.level * 2 ^ 48), (32, 8, spt)] := by
  simp only [State.frameHeader, h, headerWord]

theorem headerWord_fields (hc : core < 1024) (hk : ctx < 8) (hs : y.slot < 65536) (hl : y.lctx < 4) (hst : st < 4) :
    let w := headerWord core ctx st smem y
    w < 2 ^ 64 ∧ bitsOf w 62 2 = st ∧ bitsOf w 61 1 = (if smem then 1 else 0) ∧ bitsOf w 0 10 = core ∧ bitsOf w 32 16 = y.slot ∧
      bitsOf w 56 2 = y.lctx ∧ bitsOf w 58 3 = ctx := by
  simp only [headerWord, bitsOf_eq]
  cases smem <;> simp only [if_true, Bool.false_eq_true, if_false] <;> omega

/-- The fields of a header, and its size. -/
theorem State.frameHeader_fields (ht : (s.ctx core ctx).task = some y) (hc : core < 1024) (hk : ctx < 8) (hs : y.slot < 65536)
    (hl : y.lctx < 4) (hst : st < 4) : let v := s.frameHeader core ctx st smem spt
    bitsOf v 62 2 = st ∧ bitsOf v 61 1 = (if smem then 1 else 0) ∧ bitsOf v 0 10 = core ∧ bitsOf v 32 16 = y.slot ∧
      bitsOf v 56 2 = y.lctx ∧ bitsOf v 58 3 = ctx ∧ bitsOf v 128 64 = y.record.toNat ∧ v < 2 ^ 512 := by
  intro v
  obtain ⟨hw, hf⟩ := headerWord_fields (core := core) (smem := smem) hc hk hs hl hst
  have hv : v = _ := (State.frameHeader_eq ht).trans (packBytes_five 8 ..)
  rw [show 8 * 8 = 64 from rfl, Nat.mod_eq_of_lt hw, Nat.mod_eq_of_lt y.record.isLt] at hv
  have hlt (n : Nat) : n % 2 ^ 64 < 2 ^ 64 := Nat.mod_lt _ (Nat.two_pow_pos 64)
  have low {lo len : Nat} (h : lo + len ≤ 64) : bitsOf v lo len = bitsOf (headerWord core ctx st smem y) lo len := by
    rw [hv, bitsOf_add_above _ _ h]
  have hbound : v < 2 ^ 512 := (State.frameHeader_eq ht).trans_lt (packBytes_five_lt 8 ..)
  have hrec : bitsOf v 128 64 = y.record.toNat := by
    rw [hv, bitsOf_eq, show 128 = 64 + 64 from rfl, Nat.pow_add, ← Nat.div_div_eq_div_mul, Nat.add_mul_div_left _ _ (Nat.two_pow_pos 64),
      Nat.div_eq_of_lt hw, Nat.zero_add, Nat.add_mul_div_left _ _ (Nat.two_pow_pos 64), Nat.div_eq_of_lt (hlt _), Nat.zero_add,
      Nat.add_mul_mod_self_left, Nat.mod_eq_of_lt y.record.isLt]
  rw [low (by omega), low (by omega), low (by omega), low (by omega), low (by omega), low (by omega)]
  obtain ⟨h1, h2, h3, h4, h5, h6⟩ := hf
  exact ⟨h1, h2, h3, h4, h5, h6, hrec, hbound⟩

end Header

end Sys2Proof.Machine
end

section
namespace Sys2Proof.Machine

/-! ### A queued launch is taken (17 R291, R292) -/

section Accept

variable {s s0 s1 s2 : State} {die slot pa r : Nat} {origin : Nat × Nat}

theorem State.acceptance_taken {l : Launch} (hr : recReserved r = true) (ho : s.originOf l r = (0, origin)) (hf : s.freeLaunchSlot = some slot) :
    s.acceptance l (.ok pa r) = .taken slot origin pa := by
  simp only [State.acceptance, hr, ho, hf, Bool.not_true, Bool.false_eq_true, if_false]

theorem State.acceptDevice_taken {a : Agent} {bits : Nat} {user : Bool} {src : DWord}
    (he : s.entryRecord a die (launchOfBits bits).part user bits = (.ok pa r, s0))
    (hp : s0.placeReady a (launchOfBits bits) (.ok pa r) = (true, s1)) (hr : recReserved r = true)
    (ho : s1.originOf (launchOfBits bits) r = (0, origin)) (hf : s1.freeLaunchSlot = some slot) (hs : s1.settle a = (true, s2)) :
    s.acceptDevice a die bits user src = (true, s2.acceptLaunch die slot bits origin pa) := by
  simp only [State.acceptDevice, he, hp, State.acceptance_taken hr ho hf, hs, reduceCtorEq, if_false]

/-- Whose step is an acceptance of the die. -/
def Agent.acceptsAny (die : Nat) (a : Agent) : Bool := match a with | .accepts d _ => d == die | _ => false

theorem exec_launchAccept {core ctx : Nat} {p : PendingLaunch} (hd : die < 2) (hfree : (s.disp die).freeAt ≤ s.ps) (ht : s.slotTaken die = false)
    (hn : s.nextPending die = some (core, ctx, p)) {t : State}
    (h : (s.dropAgents (Agent.acceptsBut die (pendingSrc core ctx))).acceptDevice (.accepts die (pendingSrc core ctx)) die p.bits p.user p.addr =
      (true, t)) : exec (.launchAccept die) s =
      .next ((((t.modCtx core ctx fun x => { x with pending := x.pending.tail }).modDisp die fun d =>
          { d with pos := (8 * (core - 320 * die) + ctx + 1) % 2560 }).dropAgents (Agent.acceptsAny die)).noAsks) := by
  show execLaunchAccept die s = _
  have hgo : (decide (2 ≤ die) || decide (s.ps < (s.disp die).freeAt) || s.slotTaken die) = false := by
    rw [ht, decide_eq_false (by omega), decide_eq_false (by omega)]
    rfl
  rw [execLaunchAccept, hgo, State.acceptNext]
  simp only [hn, h, Bool.false_eq_true, if_false]
  rfl

end Accept

end Sys2Proof.Machine
end

section
namespace Sys2Proof.Machine

/-! ### What leaves the ready lists (17 R294, R302) -/

section Lapse

/-- Of the contexts, nothing moves but their marks. -/
def OnlyMarks (s t : State) : Prop := ∀ c k, ∃ b, t.ctx c k = { s.ctx c k with marked := b }

theorem OnlyMarks.of_ctx {s t : State} (h : ∀ c k, t.ctx c k = s.ctx c k) : OnlyMarks s t := fun c k => ⟨_, h c k⟩
theorem OnlyMarks.refl (s : State) : OnlyMarks s s := .of_ctx fun _ _ => rfl
theorem OnlyMarks.trans {s t u : State} (h : OnlyMarks s t) (g : OnlyMarks t u) : OnlyMarks s u := fun c k => by
  obtain ⟨_, ht⟩ := h c k
  obtain ⟨b, hu⟩ := g c k
  exact ⟨b, by rw [hu, ht]⟩
theorem OnlyMarks.foldl {α : Type} {f : State → α → State} (hf : ∀ t x, OnlyMarks t (f t x)) (l : List α) (s : State) :
    OnlyMarks s (l.foldl f s) := foldl_keeps (OnlyMarks s) f l s (.refl s) fun t x h => h.trans (hf t x)

variable (s : State)

theorem State.unmark_marks (q : Request) : OnlyMarks s (s.unmark q) := OnlyMarks.foldl (fun t k c j => by
  rw [State.ctx_modCtx]
  split
  · next h =>
    rw [h.1, h.2]
    split
    · exact ⟨_, rfl⟩
    · exact ⟨false, rfl⟩
  · exact ⟨_, rfl⟩) _ _
theorem State.unmark_tasks (q : Request) : SameTasks s (s.unmark q) := by
  refine SameTasks.foldl (fun t k => ?_) _ _
  exact ⟨rfl, rfl, rfl, rfl⟩

theorem State.lapse_marks : OnlyMarks s s.lapse :=
  (OnlyMarks.foldl (fun t q => t.unmark_marks q) (s.sched.disps.flatMap fun d => d.2.requests.filter fun q => !s.listed q.key) s).trans
    (.of_ctx fun _ _ => rfl)
theorem State.lapse_tasks : SameTasks s s.lapse := by
  refine (SameTasks.foldl (fun t q => t.unmark_tasks q) (s.sched.disps.flatMap fun d => d.2.requests.filter fun q => !s.listed q.key) s).trans ?_
  exact ⟨rfl, rfl, rfl, rfl⟩

theorem State.unmark_disps (q : Request) : (s.unmark q).sched.disps = s.sched.disps :=
  foldl_keeps (fun t : State => t.sched.disps = s.sched.disps) _ _ _ rfl fun _ _ h => h
/-- Of a dispatcher, nothing leaves but requests. -/
theorem State.lapse_disp (d : Nat) : ∃ q, s.lapse.disp d = { s.disp d with requests := q } := by
  have hd : s.lapse.sched.disps = s.sched.disps.map fun d => (d.1, { d.2 with requests := d.2.requests.filter fun q => !!s.listed q.key }) := by
    have hf := foldl_keeps (fun t : State => t.sched.disps = s.sched.disps) State.unmark
      (s.sched.disps.flatMap fun d => d.2.requests.filter fun q => !s.listed q.key) s rfl fun t q h => (t.unmark_disps q).trans h
    rw [← hf]
    rfl
  rw [State.disp, hd, tblGet_map (f := fun d : Disp => { d with requests := d.requests.filter fun q => !!s.listed q.key }) rfl]
  exact ⟨_, rfl⟩

end Lapse

/-! ### A task starts (09 R216) -/

section Starts

variable (s : State) (die : Nat) (r : Rec) (c k lctx bits : Nat)

theorem State.startClock_marks : OnlyMarks s (s.startClock c) := by
  unfold State.startClock
  split
  · exact .refl s
  · exact .of_ctx fun d j => State.ctx_modCore s c d j _ rfl
theorem State.startClock_recs : (s.startClock c).sched.recs = s.sched.recs := by
  unfold State.startClock
  split <;> rfl
theorem State.wakeLender_boundaries : ∃ t : State, t.cores = s.cores ∧ t.sched = s.sched ∧
    (s.wakeLender c = s ∨ OnlyBoundaries t (s.wakeLender c)) := by
  fun_cases State.wakeLender
  · exact ⟨{ s with power := { s.power with recalls := s.power.recalls ++ [(clusterOf c, s.ps)] } }, rfl, rfl, .inr (.regrant _)⟩
  · exact ⟨s, rfl, rfl, .inl rfl⟩
theorem State.wakeLender_marks : OnlyMarks s (s.wakeLender c) := by
  obtain ⟨t, hc, -, h | ⟨_, _, _, _, h⟩⟩ := s.wakeLender_boundaries c <;> rw [h]
  · exact .refl s
  · exact .of_ctx fun d j => by rw [State.ctx, State.core, State.ctx, State.core, ← hc]
theorem State.wakeLender_recs : (s.wakeLender c).sched.recs = s.sched.recs := by
  obtain ⟨t, -, hs, h | ⟨_, _, _, _, h⟩⟩ := s.wakeLender_boundaries c
  · rw [h]
  · exact (congrArg (fun u : State => u.sched.recs) h).trans (congrArg (fun x => x.recs) hs)

/-- The context of a task that starts: of the context before it only its pending launches are left. -/
def taskCtx (r : Rec) (lctx bits stamp ps : Nat) (pending : List PendingLaunch) : Ctx :=
  { str := { pc := recCode bits, regionPc := recCode bits, arr := stamp }
    s := tblPut 0#64 (tblPut 0#64 [] 0 (recFrame bits)) 1 r.addr
    pending
    task := some { slot := r.slot, lctx, record := r.addr, level := r.level, deadline := recDl bits, stamp, came := stamp, startItem := r.startItem }
    wdStart := ps }

theorem State.startTask_ctx : ∃ stamp ps pending b, (s.startTask die r c k lctx bits).ctx c k =
    { taskCtx r lctx bits stamp ps pending with marked := b } := by
  have h (u : State) (x : Ctx) : OnlyMarks (u.setCtx c k x)
      ((((((u.setCtx c k x).dropDemand c).dropRec r.key).serveList die r.level).startClock c).wakeLender c) := by
    have hd : OnlyMarks (u.setCtx c k x) ((u.setCtx c k x).dropDemand c) := .of_ctx fun d j => State.ctx_modCore _ c d j _ rfl
    have hr (t : State) : OnlyMarks t (t.dropRec r.key) := State.lapse_marks (t.modRecs fun l => l.filter fun z => z.key != r.key)
    have hs (t : State) : OnlyMarks t (t.serveList die r.level) := .of_ctx fun _ _ => rfl
    exact (((hd.trans (hr _)).trans (hs _)).trans (State.startClock_marks _ c)).trans (State.wakeLender_marks _ c)
  obtain ⟨b, hb⟩ := h (s.keepBooks c k).next.2 (taskCtx r lctx bits (s.keepBooks c k).next.1 (s.keepBooks c k).next.2.ps
    ((s.keepBooks c k).next.2.ctx c k).pending) c k
  rw [State.setCtx_ctx] at hb
  exact ⟨_, _, _, b, hb⟩

theorem State.startTask_recs : ∀ z ∈ (s.startTask die r c k lctx bits).sched.recs, z.key ≠ r.key := by
  have h (u : State) : ∀ z ∈ ((((u.dropRec r.key).serveList die r.level).startClock c).wakeLender c).sched.recs, z.key ≠ r.key := by
    have hl : (u.dropRec r.key).sched.recs = u.sched.recs.filter fun z => z.key != r.key :=
      (State.lapse_tasks (u.modRecs fun l => l.filter fun z => z.key != r.key)).2.1
    rw [State.wakeLender_recs, State.startClock_recs, show ∀ t : State, (t.serveList die r.level).sched.recs = t.sched.recs from fun _ => rfl, hl]
    intro z hz
    simpa using (List.mem_filter.mp hz).2
  exact h _

end Starts

end Sys2Proof.Machine
end

section
namespace Sys2Proof.Machine

/-! ### A record is dispatched (17 R301; 09 R231) -/

section Dispatch

theorem State.decJoin_ps (s : State) (pa : Nat) : (s.decJoin pa).ps = s.ps := by
  fun_cases State.decJoin
  · exact (s.homeWrite_atHomes _ _ _).ps
  · exact (s.homeWrite_atHomes _ _ _).ps
  · exact (s.homeWrite_atHomes _ _ _).ps
theorem State.applyWait_ps (s : State) (w : DispWait) (pa : Nat) : (s.applyWait w pa).ps = s.ps := by
  have hw (n v : Nat) : (s.homeWrite pa n v).ps = s.ps := (s.homeWrite_atHomes _ _ _).ps
  unfold State.applyWait
  split
  · exact hw _ _
  · exact hw _ _
  · exact hw _ _
  · exact hw _ _
  · exact hw _ _
  · exact s.decJoin_ps _

/-- Lateness is judged by the time alone. -/
theorem State.lateBy_of_ps {s t : State} (h : t.ps = s.ps) (dl : Nat) : t.lateBy dl = s.lateBy dl := by
  unfold State.lateBy State.distance State.time
  rw [h]

/-- What a late dispatch writes where nothing was dropped and there is room: LATE, and the launch's next late entry. -/
theorem State.lateWrites_places (s : State) (die core k : Nat) {r : Rec} {l : Launch} (hd : r.lateDrop = 0#2) (hl : l.late.toNat < l.lqn) :
    (s.lateWrites die r l core k).map (fun w => (w.va, w.bytes)) =
      [(r.addr + 20#64, 1), (BitVec.ofNat 64 (l.lqb + 16 * l.late.toNat), 16)] := by
  have h0 : r.lateDrop.getLsbD 0 = false := by rw [hd]; rfl
  have h1 : (r.lateDrop.getLsbD 1 || decide (l.lqn ≤ l.late.toNat)) = false := by
    rw [hd, decide_eq_false (by omega)]
    rfl
  unfold State.lateWrites
  generalize BitVec.ofNat 64 (s.time % 2 ^ 48 + core % 1024 * 2 ^ 48 + k * 2 ^ 58 + r.level * 2 ^ 61) = dw1
  dsimp only
  rw [h0, h1]
  rfl

variable {v s1 s2 s3 s4 : State} {die core k lctx pa : Nat} {r : Rec} {l : Launch} {window pas : List Nat} {late : Bool}

/-- The state in which the writes of a dispatch have been made. -/
def State.counted (s : State) (r : Rec) (late : Bool) (writes : List (DispWait × Nat)) : State :=
  let wrote := writes.foldl (fun s x => s.applyWait x.1 x.2) s
  if late then wrote.modLaunch r.slot fun l => l.countLate r else wrote

theorem State.startRec_eq (s : State) {bits : Nat} {writes : List (DispWait × Nat)} (h : s.lateBy (recDl bits).toNat = late) :
    s.startRec die r l core k lctx bits writes window =
      ((s.counted r late writes).establish core r.slot l window).startTask die r core k lctx bits := by
  have hps : (writes.foldl (fun s x => s.applyWait x.1 x.2) s).ps = s.ps :=
    foldl_keeps (fun t : State => t.ps = s.ps) _ _ _ rfl fun t x ht => (t.applyWait_ps x.1 x.2).trans ht
  have hl := (State.lateBy_of_ps hps (recDl bits).toNat).trans h
  unfold State.startRec State.counted
  generalize writes.foldl (fun s x => s.applyWait x.1 x.2) s = wrote at hl ⊢
  simp only [hl]

/-- The read of a record that is dispatched. -/
def dispatchRead (die : Nat) (r : Rec) (l : Launch) : DispWait :=
  { id := 0, die, slot := r.slot, part := l.part, va := r.addr, write := false, kind := 0, user := !l.priv, key := r.key }

theorem State.dispatchRec_starts (hk : v.hwFor core r.key = some k) (hl : v.freeLctx core r.slot l = some lctx)
    (hw : v.windowLines (.dispatch die r.key) l (v.windowFrame core r.slot none) = (.ok window, s1))
    (ha : s1.attempt (.dispatch die r.key) (dispatchRead die r l) = (.at_ pa, s2)) (hlate : s2.lateBy (recDl (s2.homeRead pa 64)).toNat = late)
    (hws : s2.attemptAll (.dispatch die r.key) (if late then s2.lateWrites die r l core k else []) = ((none, pas), s3))
    (hset : s3.settle (.dispatch die r.key) = (true, s4)) (hlate4 : s4.lateBy (recDl (s2.homeRead pa 64)).toNat = late) :
    v.dispatchRec die r l core = (true, ((s4.counted r late ((if late then s2.lateWrites die r l core k else []).zip pas)).establish core r.slot l
      window).startTask die r core k lctx (s2.homeRead pa 64)) := by
  subst hlate
  fun_cases State.dispatchRec
  case case7 h => exact (h _ _ hk hl).elim
  all_goals
    cases hk.symm.trans ‹v.hwFor core r.key = some _›
    cases hl.symm.trans ‹v.freeLctx core r.slot l = some _›
    cases hw.symm.trans ‹v.windowLines (.dispatch die r.key) l (v.windowFrame core r.slot none) = _›
  all_goals cases ha.symm.trans ‹s1.attempt (.dispatch die r.key) (dispatchRead die r l) = _›
  case case6.refl.refl.refl.refl h _ => exact (h pa rfl).elim
  all_goals cases hws.symm.trans ‹s2.attemptAll (.dispatch die r.key) _ = _›
  all_goals cases hset.symm.trans ‹s3.settle (.dispatch die r.key) = _›
  rw [← State.startRec_eq s4 hlate4]

theorem exec_dispatchStep {s s0 t : State} {rest : List Item} (hd : die < 2) (ho : s.orderReady die = (true, s0)) :
    let u := ((s0.losePoisoned die).tidyRequests die).retryFreeing
    let held := ((u.disp die).requests.filter fun q => q.claim.isSome).map (·.key)
    (u.order die).take 9 = .record r :: rest → u.launch r.slot = some l →
    u.best (.record r) l ((Item.area (.record r) l).filter fun c => u.coreReady (.record r) l c) = some core →
    (u.dropAgents (Agent.dispatches die (some r.key))).dispatchRec die r l core = (true, t) →
    exec (.dispatchStep die) s = .next (((t.dropAgents (Agent.dispatches die none)).noAsks).dropClaims die held) := by
  intro u held horder hlaunch hbest hrec
  show execDispatchStep die s = _
  have htry : u.tryItems die (.record r :: rest) = (true, t) := by
    rw [State.tryItems]
    have hl : u.launch (Item.record r).slot = some l := hlaunch
    rw [hl]
    dsimp only
    rw [hbest]
    exact hrec
  rw [execDispatchStep, if_neg (by omega), ho]
  show Host.Outcome.next (match u.tryItems die ((u.order die).take 9) with | (true, r) => _ | (false, r) => _) = _
  rw [horder, htry]

end Dispatch

end Sys2Proof.Machine
end

section
namespace Sys2Proof.Machine

/-! ### What a dispatcher's write leaves alone (17 R383) -/

section Writes

variable (s : State)

theorem State.attempt_tasks (a : Agent) (w : DispWait) : SameTasks s (s.attempt a w).2 := by
  have hx (t : State) := (t.dieTranslate_atHomes a w.die w.part w.user w.place w.va).sameTasks
  have hy (t : State) (pa : Nat) := (t.accReady_atHomes a w.write pa).sameTasks
  have hz (t : State) (pa : Nat) : SameTasks t ((t.ask w.part pa).served (regionOf (t.forward pa)) a) :=
    ((OnlyRequests.ask t w.part pa).atHomes.trans (State.served_atHomes _ _ _)).sameTasks
  fun_cases State.attempt <;> grind [SameTasks.trans, State.forward]
theorem State.attemptAlone_tasks (w : DispWait) : SameTasks s (s.attemptAlone w).2 := by
  have hn (t : State) : SameTasks t t.noAsks := ⟨rfl, rfl, rfl, rfl⟩
  have ha := (hn s).trans (s.noAsks.attempt_tasks (.listed w.id) w)
  have hs (t : State) := (t.settle_only (.listed w.id)).atHomes.sameTasks
  fun_cases State.attemptAlone <;> grind [SameTasks.trans]

theorem State.addLog_tasks (kind part : Nat) (fab : Bool) (cause core ctx slot : Nat) (va : DWord) :
    SameTasks s (s.addLog kind part fab cause core ctx slot va) := by
  have hc (t : State) (a : Nat) (v : DWord) : SameTasks t (t.setCtl a v) := ⟨rfl, rfl, rfl, rfl⟩
  unfold State.addLog
  split
  · exact hc _ _ _
  · exact ((hc _ _ _).trans (hc _ _ _)).trans (hc _ _ _)
theorem State.accessLost_tasks (w : DispWait) (cause : Nat) (va : DWord) : SameTasks s (s.accessLost w cause va) := by
  refine (s.addLog_tasks 4 w.part false cause 0 0 w.slot va).trans ?_
  exact ⟨rfl, rfl, rfl, rfl⟩
theorem State.numbered_tasks (w : DispWait) : SameTasks s (s.numbered w).2 := by
  unfold State.numbered
  split <;> exact ⟨rfl, rfl, rfl, rfl⟩
theorem State.listWait_tasks (w : DispWait) : SameTasks s (s.listWait w) := by
  unfold State.listWait
  split <;> exact ⟨rfl, rfl, rfl, rfl⟩
theorem State.listFault_tasks (w : DispWait) (cause sub : Nat) (va : DWord) : SameTasks s (s.listFault w cause sub va) := by
  have hn := s.numbered_tasks w
  unfold State.listFault
  generalize s.numbered w = n at hn ⊢
  refine (hn.trans (State.listWait_tasks _ n.1)).trans ?_
  exact ⟨rfl, rfl, rfl, rfl⟩

/-- A write of a value counts nothing down: no record becomes ready by it. -/
theorem State.applyWait_tasks {w : DispWait} (hk : w.kind = 1) (pa : Nat) : SameTasks s (s.applyWait w pa) := by
  rw [State.applyWait, hk]
  exact (s.homeWrite_atHomes _ _ _).sameTasks
theorem State.writeOrList_tasks {w : DispWait} (hk : w.kind = 1) : SameTasks s (s.writeOrList w).2 := by
  have hn := s.numbered_tasks w
  unfold State.writeOrList State.makeOrList
  generalize s.numbered w = n at hn ⊢
  obtain ⟨w', t⟩ := n
  have ha := hn.trans (t.attemptAlone_tasks w')
  dsimp only
  generalize t.attemptAlone w' = e at ha ⊢
  have hd (u : State) : SameTasks u (u.dropWait w'.id) := ⟨rfl, rfl, rfl, rfl⟩
  split
  · exact (ha.trans (hd _)).trans (State.applyWait_tasks _ hk _)
  · exact (ha.trans (hd _)).trans (State.accessLost_tasks _ _ _ _)
  · exact ha.trans (State.listWait_tasks _ _)
  · exact ha.trans (State.listFault_tasks _ _ _ _ _)

end Writes

/-! ### A launch takes its slot (17 R292, R290; 21 R384) -/

section Registers

variable (s : State) (slot : Nat) (l : Launch)

theorem State.register_keeps (va : DWord) (pa die : Nat) (onDie onCore : Option Nat) (startItem : Bool) :
    let t := s.register slot l va pa die onDie onCore startItem
    t.launches = s.launches ∧ ∃ x, t.sched.recs = s.sched.recs ++ [x] ∧ x.slot = slot ∧ x.addr = va ∧ x.pa = pa ∧
      x.onCore = onCore ∧ x.startItem = startItem ∧ x.waiting = false :=
  ⟨rfl, _, rfl, rfl, rfl, rfl, rfl, rfl, rfl⟩

/-- A START = 1 entry record registered for each of some cores. -/
def State.registerOn (s : State) (slot : Nat) (l : Launch) (pa : Nat) (cs : List Nat) : State :=
  cs.foldl (fun s c => s.register slot l (BitVec.ofNat 64 l.entry) pa (coreDie c) none (some c) true) s

theorem State.registerOn_keeps (pa : Nat) (cs : List Nat) : let t := s.registerOn slot l pa cs
    t.launches = s.launches ∧ ∃ xs, t.sched.recs = s.sched.recs ++ xs ∧ xs.map (·.onCore) = cs.map some ∧
      ∀ x ∈ xs, x.slot = slot ∧ x.addr = BitVec.ofNat 64 l.entry ∧ x.pa = pa ∧ x.startItem = true ∧ x.waiting = false := by
  induction cs generalizing s with
  | nil => exact ⟨rfl, [], (List.append_nil _).symm, rfl, fun x hx => absurd hx List.not_mem_nil⟩
  | cons c cs ih =>
    obtain ⟨hl, xs, hr, hc, hx⟩ := ih (s.register slot l (BitVec.ofNat 64 l.entry) pa (coreDie c) none (some c) true)
    obtain ⟨hl1, x, hr1, hs1, ha1, hpa1, hc1, hi1, hw1⟩ :=
      s.register_keeps slot l (BitVec.ofNat 64 l.entry) pa (coreDie c) none (some c) true
    refine ⟨hl.trans hl1, x :: xs, ?_, ?_, ?_⟩
    · exact hr.trans (by rw [hr1, List.append_assoc]; rfl)
    · rw [List.map_cons, List.map_cons, hc, hc1]
    · exact List.forall_mem_cons.mpr ⟨⟨hs1, ha1, hpa1, hi1, hw1⟩, hx⟩

theorem State.registerEntry_start (die pa : Nat) (h : l.start = true) : s.registerEntry slot l die pa = s.registerOn slot l pa l.coreList := by
  rw [State.registerEntry, if_pos h]
  rfl
theorem State.registerEntry_one (die pa : Nat) (h : l.start = false) : s.registerEntry slot l die pa =
    s.register slot l (BitVec.ofNat 64 l.entry) pa (l.serves die).1 (l.serves die).2 none false := by
  rw [State.registerEntry, h]
  rfl
theorem State.registerEntry_launches (die pa : Nat) : (s.registerEntry slot l die pa).launches = s.launches := by
  cases h : l.start
  · rw [s.registerEntry_one slot l die pa h]
    rfl
  · rw [s.registerEntry_start slot l die pa h]
    exact (s.registerOn_keeps slot l pa l.coreList).1

end Registers

section Accepts

variable (s : State) (die slot bits : Nat) (origin : Nat × Nat) (pa : Nat)

/-- The launch that an acceptance places. -/
def State.placed (s : State) (die bits : Nat) (origin : Nat × Nat) : Launch :=
  { launchOfBits bits with serial := s.fresh, die, ox := origin.1, oy := origin.2 }
/-- The writing of its slot into its entry record. -/
def State.slotWrite (s : State) (die slot : Nat) (l : Launch) : Bool × State :=
  (({ s with fresh := s.fresh + 1 } : State).setLaunch slot (some l)).writeOrList
    (dispWrite die slot l.part 1 2 (!l.priv) (BitVec.ofNat 64 (l.entry + 30)) (BitVec.ofNat 64 slot))
/-- The entry record is registered, and the die accepts its next launch 200 ns later. -/
def State.entered (s : State) (die slot : Nat) (l : Launch) (pa : Nat) : State :=
  (s.registerEntry slot l die pa).modDisp die fun d => { d with freeAt := s.ps + 200000 }

theorem State.acceptLaunch_eq : s.acceptLaunch die slot bits origin pa =
    let w := s.slotWrite die slot (s.placed die bits origin)
    let t := w.2.entered die slot (s.placed die bits origin) pa
    if w.1 then t else t.slotWaits slot true := rfl

theorem State.slotWaits_keeps (b : Bool) : let t := s.slotWaits slot b
    t.launches = s.launches ∧ (∃ q, t.disp die = { s.disp die with requests := q }) ∧
      ∀ x ∈ t.sched.recs, x.slot = slot → x.waiting = b := by
  have ht := State.lapse_tasks (s.modRecs (mapIf (fun r => r.slot == slot) fun r => { r with waiting := b }))
  refine ⟨ht.1, State.lapse_disp _ _, fun x hx hs => ?_⟩
  obtain ⟨y, -, hy⟩ := List.mem_map.mp (ht.2.1 ▸ hx)
  split at hy
  · rw [← hy]
  · next hne => exact absurd (beq_iff_eq.mpr (hy ▸ hs)) hne

theorem State.slotWrite_tasks (l : Launch) : SameTasks (s.setLaunch slot (some l)) (s.slotWrite die slot l).2 := by
  refine SameTasks.trans ?_ (State.writeOrList_tasks _ rfl)
  exact ⟨rfl, rfl, rfl, rfl⟩

theorem State.entered_freeAt (l : Launch) : ((s.entered die slot l pa).disp die).freeAt = s.ps + 200000 := by
  rw [State.entered, State.disp, State.modDisp, tblGet_put_same]

/-- What an acceptance keeps of the state in which the entry record is registered. -/
theorem State.acceptLaunch_keeps {t : State} {l : Launch} (ht : t = s.entered die slot l pa ∨ t = (s.entered die slot l pa).slotWaits slot true) :
    t.launches = s.launches ∧ (t.disp die).freeAt = s.ps + 200000 := by
  have hl : (s.entered die slot l pa).launches = s.launches := s.registerEntry_launches slot l die pa
  rcases ht with rfl | rfl
  · exact ⟨hl, s.entered_freeAt die slot pa l⟩
  · obtain ⟨hw, ⟨q, hq⟩, -⟩ := (s.entered die slot l pa).slotWaits_keeps die slot true
    exact ⟨hw.trans hl, by rw [hq]; exact s.entered_freeAt die slot pa l⟩

theorem State.acceptLaunch_spec : let t := s.acceptLaunch die slot bits origin pa
    let l := launchOfBits bits
    let placed := s.placed die bits origin
    let writes := s.slotWrite die slot placed
    t.launch slot = some placed ∧ (t.disp die).freeAt = s.ps + 200000 ∧
    (writes.1 = false → ∀ x ∈ t.sched.recs, x.slot = slot → x.waiting = true) ∧
    (l.start = false → writes.1 = true → ∃ x, t.sched.recs = s.sched.recs ++ [x] ∧ x.slot = slot ∧
      x.addr = BitVec.ofNat 64 l.entry ∧ x.pa = pa ∧ x.onCore = none ∧ x.startItem = false ∧ x.waiting = false) ∧
    (l.start = true → writes.1 = true → ∃ xs, t.sched.recs = s.sched.recs ++ xs ∧
      xs.map (·.onCore) = (rectCores origin.1 origin.2 l.width l.height).map some ∧
      ∀ x ∈ xs, x.slot = slot ∧ x.addr = BitVec.ofNat 64 l.entry ∧ x.pa = pa ∧ x.startItem = true ∧ x.waiting = false) := by
  intro t l placed writes
  have ht : t = if writes.1 then writes.2.entered die slot placed pa else (writes.2.entered die slot placed pa).slotWaits slot true :=
    s.acceptLaunch_eq die slot bits origin pa
  obtain ⟨hlaunches, hrecs, -, hps⟩ := s.slotWrite_tasks die slot placed
  have hrecs : writes.2.sched.recs = s.sched.recs := hrecs
  have hentered (u : State) (h : writes.2.registerEntry slot placed die pa = u) :
      (writes.2.entered die slot placed pa).sched.recs = u.sched.recs := by
    rw [← h]
    rfl
  have hwritten (h : writes.1 = true) : t = writes.2.entered die slot placed pa := by rw [ht, if_pos h]
  have hwaits (h : writes.1 = false) : t = (writes.2.entered die slot placed pa).slotWaits slot true := by rw [ht, h]; rfl
  obtain ⟨htl, htf⟩ := writes.2.acceptLaunch_keeps die slot pa (by cases h : writes.1; exacts [.inr (hwaits h), .inl (hwritten h)])
  refine ⟨?_, ?_, fun h => ?_, fun hs h => ?_, fun hs h => ?_⟩
  · rw [State.launch, htl, hlaunches]
    exact State.setLaunch_launch s slot (some placed)
  · rw [htf, hps]
    rfl
  · rw [hwaits h]
    exact ((writes.2.entered die slot placed pa).slotWaits_keeps die slot true).2.2
  · have hstart : placed.start = false := hs
    obtain ⟨-, x, hx, hrest⟩ := writes.2.register_keeps slot placed (BitVec.ofNat 64 placed.entry) pa (placed.serves die).1 (placed.serves die).2
      none false
    refine ⟨x, ?_, hrest⟩
    rw [hwritten h, hentered _ (State.registerEntry_one _ _ _ _ _ hstart), hx, hrecs]
  · have hstart : placed.start = true := hs
    obtain ⟨-, xs, hx, hrest⟩ := writes.2.registerOn_keeps slot placed pa placed.coreList
    refine ⟨xs, ?_, hrest⟩
    rw [hwritten h, hentered _ (State.registerEntry_start _ _ _ _ _ hstart), hx, hrecs]

end Accepts

end Sys2Proof.Machine
end

section
namespace Sys2Proof.Machine

/-! ### Writes at the home, from states whose memory reads alike (21 R325; 22 R347) -/

section SameWrites

variable {s t : State}

/-- Two states of which every write at the home makes the same memory. -/
def SameLines (s t : State) : Prop := SameHome s t ∧ t.homes.poison = s.homes.poison

theorem SameHome.rekey (h : SameHome s t) (line : Nat) : SameHome (s.rekey line) (t.rekey line) := by
  unfold State.rekey
  rw [h.stale, h.homeLine, h.keyNo, h.keyOwner]
  obtain ⟨hm, hc, hk, hl, hr⟩ := h
  split
  · exact ⟨by dsimp only; rw [hm], hc, hk, by dsimp only; rw [hl], hr⟩
  · exact ⟨hm, hc, hk, hl, hr⟩
theorem SameHome.poke (h : SameHome s t) (pa n v : Nat) : SameHome (s.poke pa n v) (t.poke pa n v) := by
  have hf := h.forward pa
  have hr := (h.rekey (lineOf (s.forward pa))).rekey (lineOf (s.forward pa + n - 1))
  rw [State.poke_eq, State.poke_eq, State.pokeFrom, State.pokeFrom, hf]
  obtain ⟨hm, hrest⟩ := hr
  exact ⟨by dsimp only; rw [hm], hrest⟩

/-- The keys of lines stay. -/
def KeepsLineKeys (s t : State) : Prop := t.homes.lineKeys = s.homes.lineKeys

theorem KeepsLineKeys.foldl {α : Type} {f : State → α → State} (hf : ∀ t x, KeepsLineKeys t (f t x)) (l : List α) (s : State) :
    KeepsLineKeys s (l.foldl f s) := foldl_keeps (KeepsLineKeys s) f l s rfl fun t x h => (hf t x).trans h
theorem State.fillL1_lineKeys (s : State) (c : Nat) (x : L1Line) : KeepsLineKeys s (s.fillL1 c x) := by
  fun_cases State.fillL1 <;> rfl
theorem State.castLand_lineKeys (s : State) (core line stc part : Nat) (data : Line) : KeepsLineKeys s (s.castLand core line stc part data) := by
  have hloses : KeepsLineKeys s (s.loseLine core line) := rfl
  have hmods (t : State) (f : Core → Core) : KeepsLineKeys t (t.modCore core f) := rfl
  have hsends (t : State) (k : MsgKind) : KeepsLineKeys t (t.send core line k) := rfl
  unfold State.castLand State.castInstall
  split
  · exact hsends _ _
  · exact (hsends _ _).trans ((hmods _ _).trans ((State.fillL1_lineKeys _ _ _).trans hloses))
theorem State.sendCasts_lineKeys (s : State) (id n : Nat) : KeepsLineKeys s (s.sendCasts id n) := by
  have hsends (t : State) (c line : Nat) (k : MsgKind) : KeepsLineKeys t (t.send c line k) := rfl
  unfold State.sendCasts
  split
  · rfl
  · exact (KeepsLineKeys.foldl (fun t _ => hsends t _ _ _) _ _).trans rfl
theorem State.landCasts_lineKeys (s : State) (p : Nat → Bool) : KeepsLineKeys s (s.landCasts p) := by
  have hdrops (t : State) (id : Nat) : KeepsLineKeys t (t.dropMsg id) := rfl
  refine Eq.trans (KeepsLineKeys.foldl (fun t m => ?_) _ _) (KeepsLineKeys.foldl (fun t _ => t.sendCasts_lineKeys _ _) _ s)
  split
  · split
    · exact (State.castLand_lineKeys _ _ _ _ _ _).trans (hdrops t _)
    · rfl
  · rfl

/-- The purge of a line's copies leaves what memory reads as. -/
theorem State.purgeLine_home (s : State) (line : Nat) : SameHome s (s.purgeLine line) := by
  obtain ⟨hm, hc, -, hk⟩ := s.purgeLine_same line
  have hregion : (s.purgeLine line).homes.regionKeys = s.homes.regionKeys :=
    (congrArg (fun u : State => u.homes.regionKeys) (s.purgeLine_atHomes line).rest :)
  exact ⟨hm, hc, hk, s.landCasts_lineKeys _, hregion⟩

theorem SameHome.symm {s t : State} (h : SameHome s t) : SameHome t s := by
  obtain ⟨hm, hc, hk, hl, hr⟩ := h
  exact ⟨hm.symm, hc.symm, hk.symm, hl.symm, hr.symm⟩

theorem SameLines.homeWrite (h : SameLines s t) (pa n v : Nat) : SameLines (s.homeWrite pa n v) (t.homeWrite pa n v) := by
  obtain ⟨hs, hp⟩ := h
  have hpoison : t.poisonAt pa = s.poisonAt pa := by rw [State.poisonAt, hp, hs.forward, State.poisonAt]
  refine ⟨?_, (t.homeWrite_atHomes pa n v).poison.trans (hp.trans (s.homeWrite_atHomes pa n v).poison.symm)⟩
  unfold State.homeWrite
  rw [hpoison, hs.forward]
  split
  · exact hs
  · exact (((State.purgeLine_home _ _).symm.trans hs).trans (State.purgeLine_home _ _)).poke pa n v
theorem SameLines.pokeLines (h : SameLines s t) (pas : List Nat) (v : Nat) : SameLines (s.pokeLines pas v) (t.pokeLines pas v) := by
  induction pas generalizing s t v with
  | nil => exact h
  | cons pa pas ih => exact ih (h.homeWrite pa 64 _) _

end SameWrites

/-! ### Spills (17 R302, R304) -/

section Spills

variable {s s1 : State} {core ctx : Nat}

/-- A header fills no more than its line. -/
theorem State.frameHeader_lt (s : State) (core ctx st : Nat) (smem : Bool) (spt : Nat) : s.frameHeader core ctx st smem spt < 2 ^ 512 := by
  cases ht : (s.ctx core ctx).task with
  | none =>
    simp only [State.frameHeader, ht]
    exact Nat.two_pow_pos 512
  | some y =>
    rw [State.frameHeader_eq ht]
    exact packBytes_five_lt 8 ..

theorem exec_spill {y : Task} {j pa : Nat} (ht : (s.ctx core ctx).task = some y) (hm : (s.ctx core ctx).marked = true)
    (hst : (s.ctx core ctx).stopped = true) (hsp : (s.ctx core ctx).spilling = none) (htr : (s.ctx core ctx).traps = [])
    (hh : (s.ctx core ctx).handler = false) (hq : s.quiescent core ctx = true)
    (hf : s.findFrame (.context core ctx) (coreDie core) (List.range s.frameCount) = (.frame j pa, s1)) :
    exec (.spill core ctx) s = .next ((s1.forget (.context core ctx)).beginSpill core ctx j pa) := by
  show execSpill core ctx s = _
  simp only [execSpill, ht, hm, hst, hsp, htr, hh, hq, hf, Option.isSome_some, Option.isNone_none, List.isEmpty_nil, Bool.not_false, Bool.and_self,
    if_true]

/-- The frame's header reads STATE 10 before the spill writes its body. -/
theorem State.beginSpill_spec (s : State) (core ctx j pa : Nat) : let t := s.beginSpill core ctx j pa
    (t.ctx core ctx).spilling = some j ∧ (s.poisonAt pa = 0 → s.keyed = false →
      readBytes t.mem (s.forward pa) 64 = s.frameHeader core ctx 2 (s.lastResident core ctx) 0) := by
  refine ⟨?_, fun hp hk => ?_⟩
  · rw [State.beginSpill, State.modCtx_ctx]
  · have h := s.homeWrite_inside pa 64 (s.frameHeader core ctx 2 (s.lastResident core ctx) 0) hp hk
    rw [show 256 = 2 ^ 8 from rfl, ← Nat.pow_mul, Nat.mod_eq_of_lt (s.frameHeader_lt ..)] at h
    exact h

/-- The task is listed as spilled, and its context is free. -/
def State.listSpilled (s : State) (sp : Spilled) (core ctx : Nat) : State :=
  (({ s with sched := { s.sched with spilled := s.sched.spilled ++ [sp] } } : State).modCtx core ctx fun x =>
    { x with event := false }).freeCtx core ctx

theorem State.listSpilled_keeps (s : State) (sp : Spilled) (core ctx : Nat) : let t := s.listSpilled sp core ctx
    t.mem = s.mem ∧ (t.ctx core ctx).task = none ∧ t.sched.spilled = s.sched.spilled ++ [sp] := by
  refine ⟨?_, ?_, ?_⟩
  · rw [State.listSpilled, State.freeCtx_mem]
    rfl
  · rw [State.listSpilled, State.freeCtx_ctx]
  · rw [State.listSpilled, (State.freeCtx_tasks _ core ctx).2.2.1]
    rfl

/-- The end of a spill, with the window where the frame saves it. -/
def State.spillEnds (s : State) (smem : Bool) (core slot : Nat) : State := if smem then s.windowSaved core slot else s

theorem State.spillEnds_keeps (s : State) (smem : Bool) (core slot ctx : Nat) : let t := s.spillEnds smem core slot
    t.mem = s.mem ∧ t.ctx core ctx = s.ctx core ctx ∧ t.sched = s.sched := by
  have hw : (s.windowSaved core slot).ctx core ctx = s.ctx core ctx := by
    unfold State.windowSaved
    exact State.ctx_modCore s core core ctx _ rfl
  unfold State.spillEnds
  cases smem
  · exact ⟨rfl, rfl, rfl⟩
  · exact ⟨rfl, hw, rfl⟩

/-- What stands above the low bits does not count. -/
theorem add_mul_two_pow_mod {h k : Nat} (b w n : Nat) (hlt : h < 2 ^ k) : (h + b * 2 ^ k + w * 2 ^ (k + n)) % 2 ^ k = h := by
  rw [Nat.pow_add, Nat.mul_left_comm, Nat.add_mul_mod_self_left, Nat.add_mul_mod_self_right, Nat.mod_eq_of_lt hlt]

/-- What the end of a spill writes: the header, and above it the body and the window. -/
theorem State.endSpill_ok {j : Nat} {y : Task} {l : Launch} {pas : List Nat} (ht : (s.ctx core ctx).task = some y)
    (hl : s.launchOf core ctx = some l) (hc : (s.lastResident core ctx && s.copyHolds core y.slot) = false)
    (hf : s.frameSpan (.context core ctx) (coreDie core) j 0 (1 + bodyLines + (if s.lastResident core ctx then l.smem / 64 else 0)) =
      (.ok pas, s1)) :
    ∃ v sp, s.endSpill core ctx j =
        (.ok pas, (((((s1.forget (.context core ctx)).pokeLines pas v).next.2).listSpilled sp core ctx).spillEnds (s.lastResident core ctx) core
          y.slot)) ∧
      v % 2 ^ 512 = s1.frameHeader core ctx 1 (s.lastResident core ctx) s1.time ∧ sp.task = y ∧ sp.core = core ∧ sp.frame = j ∧
      sp.part = l.part ∧ sp.smem = s.lastResident core ctx ∧ sp.ready = ((s1.forget (.context core ctx)).pokeLines pas v).ps := by
  fun_cases State.endSpill
  case case4 h => exact (h _ _ ht hl).elim
  all_goals
    cases ht.symm.trans ‹(s.ctx core ctx).task = some _›
    cases hl.symm.trans ‹s.launchOf core ctx = some _›
  case case1.refl.refl =>
    exact absurd (hc.symm.trans ‹(s.lastResident core ctx && s.copyHolds core y.slot) = true›) Bool.false_ne_true
  case case3.refl.refl h => exact (h _ _ hf).elim
  case case2.refl.refl =>
    cases hf.symm.trans ‹s.frameSpan _ _ _ _ _ = (.ok _, _)›
    next sp _ _ _ _ _ v _ hn =>
    obtain ⟨rfl, rfl⟩ := Prod.mk.inj hn
    exact ⟨v, sp, rfl, add_mul_two_pow_mod _ _ _ (State.frameHeader_lt ..), rfl, rfl, rfl, rfl, rfl, rfl⟩

theorem exec_spillComplete {j : Nat} {pas : List Nat} {t : State} (hj : (s.ctx core ctx).spilling = some j)
    (hw : (s.sched.waits.any fun w => w.kind == 8 && w.key == 8 * core + ctx) = false) (he : s.endSpill core ctx j = (.ok pas, t)) :
    exec (.spillComplete core ctx) s = .next (t.requestsSpilled core ctx) := by
  show execSpillComplete core ctx s = _
  simp only [execSpillComplete, hj, hw, he, Bool.false_eq_true, if_false]

/-- The frame is written and the context is free; the task is listed as spilled, with the frame that holds it. -/
theorem State.spillComplete_spec {j : Nat} {y : Task} {l : Launch} {pas : List Nat} (hj : (s.ctx core ctx).spilling = some j)
    (hw : (s.sched.waits.any fun w => w.kind == 8 && w.key == 8 * core + ctx) = false) (ht : (s.ctx core ctx).task = some y)
    (hl : s.launchOf core ctx = some l) (hc : (s.lastResident core ctx && s.copyHolds core y.slot) = false)
    (hf : s.frameSpan (.context core ctx) (coreDie core) j 0 (1 + bodyLines + (if s.lastResident core ctx then l.smem / 64 else 0)) =
      (.ok pas, s1)) :
    ∃ t v sp, exec (.spillComplete core ctx) s = .next t ∧ t.mem = (s1.pokeLines pas v).mem ∧
      v % 2 ^ 512 = s1.frameHeader core ctx 1 (s.lastResident core ctx) s1.time ∧ (t.ctx core ctx).task = none ∧
      t.sched.spilled = s1.sched.spilled ++ [sp] ∧ sp.task = y ∧ sp.core = core ∧ sp.frame = j ∧ sp.part = l.part ∧
      sp.smem = s.lastResident core ctx ∧ sp.ready = s1.ps := by
  obtain ⟨v, sp, he, hv, htask, hcore, hframe, hpart, hsmem, hready⟩ := State.endSpill_ok ht hl hc hf
  have hex := exec_spillComplete hj hw he
  have hsame : SameLines s1 (s1.forget (.context core ctx)) := ⟨⟨rfl, rfl, rfl, rfl, rfl⟩, rfl⟩
  have hmem := (hsame.pokeLines pas v).1.1
  have hpoke := (s1.forget (.context core ctx)).pokeLines_atHomes pas v
  generalize (s1.forget (.context core ctx)).pokeLines pas v = u at hex hready hmem hpoke
  obtain ⟨hmem1, htask1, hspilled1⟩ := u.next.2.listSpilled_keeps sp core ctx
  generalize u.next.2.listSpilled sp core ctx = u1 at hex hmem1 htask1 hspilled1
  obtain ⟨hmem2, hctx2, hsched2⟩ := u1.spillEnds_keeps (s.lastResident core ctx) core y.slot ctx
  refine ⟨_, v, sp, hex, ?_, hv, ?_, ?_, htask, hcore, hframe, hpart, hsmem, hready.trans hpoke.ps⟩
  · exact hmem2.trans (hmem1.trans hmem)
  · exact (congrArg Ctx.task hctx2).trans htask1
  · have hs : u.sched.spilled = s1.sched.spilled := hpoke.spilled
    rw [← hs]
    exact (congrArg (fun x => x.spilled) hsched2).trans hspilled1

end Spills

end Sys2Proof.Machine
end

section
namespace Sys2Proof.Machine

/-! ### The steps of the dispatchers (09 R217; 17 R290 to R304, R383) -/

section Steps

variable {s s1 s2 : State} {core ctx : Nat} {k : Task}

/-- A yield that leaves tasks of the entry to be waited for: the context is free, and the launch has one task fewer. -/
theorem exec_taskYield_counts (ht : (s.ctx core ctx).task = some k) (hy : (s.ctx core ctx).yielding = true) (htr : (s.ctx core ctx).traps = [])
    (hh : (s.ctx core ctx).handler = false) (hr : s.releaseReady { core, ctx } true = true) (hi : k.startItem = true)
    (hl : ((s.launch k.slot).map Launch.startLeft).getD 0 - 1 ≠ 0) : ∃ t, exec (.taskYield core ctx) s = .next t ∧
      t.ctx core ctx = { event := (s.ctx core ctx).event, pending := (s.ctx core ctx).pending, cb := (s.ctx core ctx).cb } ∧ t.mem = s.mem ∧
      t.launch k.slot = (s.launch k.slot).map fun l => { l with startLeft := ((s.launch k.slot).map Launch.startLeft).getD 0 - 1 } := by
  have hc : s.countYield k = s.modLaunch k.slot fun l => { l with startLeft := ((s.launch k.slot).map Launch.startLeft).getD 0 - 1 } :=
    if_pos hi
  refine ⟨_, (exec_taskYield ht hy htr hh hr).trans (congrArg Host.Outcome.next (State.yieldTask_counts hi hl)), ?_, ?_, ?_⟩
  · rw [State.freeCtx_ctx, hc]
    rfl
  · rw [State.freeCtx_mem, hc]
    rfl
  · rw [State.launch, (State.freeCtx_tasks _ core ctx).1, hc]
    exact State.setLaunch_launch s k.slot _

/-- A list of a die after its boundaries. -/
theorem State.readyListAgeing_spec {die : Nat} (hd : die < 2) (ho : tblGet 0 s.sched.agedAt die < s.ps / 1000000)
    (ha : 0 < s.ctlF offDSPCTL 0 10) : ∃ t, exec (.readyListAgeing die) s = .next t ∧
    (∀ l < 8, tblGet {} t.sched.ages (8 * die + l) = (tblGet {} s.sched.ages (8 * die + l)).boundaries (s.ctlF offDSPCTL 0 10) l (s.listHeld die l)
      (s.ps / 1000000 - tblGet 0 s.sched.agedAt die)) ∧
    tblGet 0 t.sched.agedAt die = s.ps / 1000000 ∧ t.cores = s.cores ∧ t.mem = s.mem := by
  refine ⟨_, exec_readyListAgeing hd ho, fun l hl => ?_, tblGet_put_same .., rfl, rfl⟩
  exact (State.ageList_fold ha s.sched.ages 8 l).trans (if_pos hl)

/-- The task that starts has its code, frame and record, all else zero, and its record has left the lists. -/
theorem State.startTask_spec (s : State) (die : Nat) (r : Rec) (c k lctx bits : Nat) (held : List Nat) :
    ∃ x, (((s.startTask die r c k lctx bits).dropClaims die held).ctx c k) = x ∧
    x.str.pc = recCode bits ∧ x.str.regionPc = recCode bits ∧ tblGet 0#64 x.s 0 = recFrame bits ∧ tblGet 0#64 x.s 1 = r.addr ∧
    (∀ n, 2 ≤ n → tblGet 0#64 x.s n = 0#64) ∧ x.q = 0#16 ∧ x.threads = [] ∧ x.cb = [] ∧ x.queue = [] ∧ x.lc0 = {} ∧ x.lc1 = {} ∧
    (∃ y, x.task = some y ∧ y.slot = r.slot ∧ y.lctx = lctx ∧ y.record = r.addr ∧ y.level = r.level ∧ y.deadline = recDl bits) ∧
    ∀ z ∈ ((s.startTask die r c k lctx bits).dropClaims die held).sched.recs, z.key ≠ r.key := by
  obtain ⟨stamp, ps, pending, b, hx⟩ := s.startTask_ctx die r c k lctx bits
  refine ⟨_, hx, rfl, rfl, ?_, tblGet_put_same .., fun n hn => ?_, rfl, rfl, rfl, rfl, rfl, rfl, ⟨_, rfl, rfl, rfl, rfl, rfl, rfl⟩,
    s.startTask_recs die r c k lctx bits⟩
  · exact (tblGet_put_other _ _ _ _ _ (by omega)).trans (tblGet_put_same ..)
  · exact (tblGet_put_other _ _ _ _ _ (by omega)).trans (tblGet_put_other _ _ _ _ _ (by omega))

end Steps

/-- Settles O44: each step of a dispatcher is the model's own, once what it asks for has come. -/
theorem dispatcherSteps : Obligations.DispatcherSteps := by
  unfold Obligations.DispatcherSteps
  intro s s0 s1 s2 s3 die core ctx slot id makes
  refine ⟨?yield, ?dispatch, ?establish, ?starts, ?accept, ?lowest, ?takes, ?ageing, ?spill, ?header, ?spilled, ?requests, ?complete, ?freed,
    ?listed⟩
  case yield =>
    intro k x left u read ht hy htr hh hr
    refine ⟨exec_taskYield_counts ht hy htr hh hr, fun pa hleft hm => ?_⟩
    have hex := (exec_taskYield ht hy htr hh hr).trans (congrArg Host.Outcome.next (State.yieldTask_succ hleft))
    have hsucc : u.yieldSucc (coreDie core) k.slot (u.partOf core ctx) (u.slotUser k.slot) k.record = _ := Makes.yieldSucc hm
    refine ⟨fun h0 => ?_, fun qa hne hm2 => ?_⟩
    · rw [h0, State.decrement_none] at hsucc
      exact hex.trans (congrArg (fun v => Host.Outcome.next (State.freeCtx v core ctx)) hsucc)
    · rw [Makes.decrement hne (.inl rfl) hm2] at hsucc
      exact hex.trans (congrArg (fun v => Host.Outcome.next (State.freeCtx v core ctx)) hsucc)
  case dispatch =>
    intro r rest l k lctx pa pas window hd ho u held a horder hlaunch hbest v hk hlctx hwin hatt bits late ws
    refine ⟨fun hl hdrop hroom => ?_, fun s4 hws hset hlate => ?_⟩
    · have hw : ws = s2.lateWrites die r l core k := if_pos hl
      rw [hw, s2.lateWrites_places die core k hdrop hroom]
    · exact exec_dispatchStep hd ho horder hlaunch hbest (State.dispatchRec_starts hk hlctx hwin hatt rfl hws hset hlate)
  case establish => exact fun l => State.establish_spec
  case starts => exact fun r k lctx bits held => s.startTask_spec die r core k lctx bits held
  case accept =>
    exact fun p pa r origin hd hf ht hn he hp hr ho hs hset => exec_launchAccept hd hf ht hn (State.acceptDevice_taken he hp hr ho hs hset)
  case lowest => exact State.freeLaunchSlot_lowest
  case takes => exact fun bits origin pa => s.acceptLaunch_spec die slot bits origin pa
  case ageing => exact State.readyListAgeing_spec
  case spill =>
    intro j pa y x ht hm hst hsp htr hh hq hf
    exact ⟨_, exec_spill ht hm hst hsp htr hh hq hf, (s1.forget (.context core ctx)).beginSpill_spec core ctx j pa⟩
  case header => exact fun st smem spt y => State.frameHeader_fields
  case spilled => exact fun j y l pas => State.spillComplete_spec
  case requests =>
    intro d x q h hc hm hn rest
    exact State.requestsSpilled_one h hc hm
  case complete =>
    intro l u hl ho done dec hdone
    have hex := (exec_launchComplete hl ho).trans (congrArg Host.Outcome.next (State.endLaunch_done (s1 := s1) hdone))
    exact ⟨fun h0 => hex.trans (congrArg Host.Outcome.next (State.endSucc_none h0)), fun qa hne hm =>
      hex.trans (congrArg Host.Outcome.next (Makes.endSucc hne hm))⟩
  case freed => exact ⟨s.freeSlot_launch slot, State.freeSlot_gens⟩
  case listed =>
    intro w hw
    exact ⟨exec_dispatcherAccessFault_retried hw, fun f hf => (exec_dispatcherAccessFault_served hw hf).1, fun f hf =>
      (exec_dispatcherAccessFault_served hw hf).2⟩

end Sys2Proof.Machine
end
